-- ==== Sys2Proof/Word.lean ====
section
/-! DEFINITION. The word types of the Z9 (spec R5, R52) and the type of sparse maps that hold its sparse state. -/

namespace Sys2Proof

/-- One byte of memory (R5). -/
abbrev Byte := BitVec 8

/-- A lane register, a scalar register or an instruction field of 32 bits (R52). -/
abbrev Word := BitVec 32

/-- A 64-bit value: a scalar pair, an address, a tile register, an instruction word (R5, R13). -/
abbrev DWord := BitVec 64

/-- A sparse map with keys strictly rising; what a missing key stands for is said where the map is used. -/
abbrev KMap (α : Type) := List (Nat × α)

end Sys2Proof
end

