-- ==== Sys2Proof/Machine/Bits.lean ====
section
/-! DEFINITION. Bit fields (R11), byte order (R5) and the operations on sparse maps. -/

namespace Sys2Proof.Machine

/-- `Bits(x, m, l)` of R11. -/
def bits (x hi lo : Nat) : Nat := (x >>> lo) % 2 ^ (hi - lo + 1)

/-- Bit `n` of `x` as a Bool. -/
def bit (x n : Nat) : Bool := (x >>> n) % 2 == 1

/-- `x` modulo 2^`w` read as a signed value (R66). -/
def signed (x w : Nat) : Int :=
  let m := x % 2 ^ w
  if w ≠ 0 ∧ 2 ^ (w - 1) ≤ m then (m : Int) - (2 ^ w : Nat) else m

/-- An integer's two's complement image in `w` bits. -/
def wrap (v : Int) (w : Nat) : Nat := (v % (2 ^ w : Nat)).toNat

/-- The lowest set bit of `x` among bits 0 to `n - 1`. -/
def lowestBit (x n : Nat) : Option Nat := (List.range n).find? fun i => bit x i

/-- The lanes set in a 32-bit mask, ascending (R11). -/
def lanesOf (m : Word) : List Nat := (List.range 32).filter fun i => m.getLsbD i

/-- The mask of a list of lanes. -/
def maskOf (ls : List Nat) : Word := ls.foldl (fun m l => m ||| (1#32 <<< l)) 0

/-- Little-endian bytes of a value (R5). -/
def toBytes (x n : Nat) : List Byte := (List.range n).map fun i => BitVec.ofNat 8 (x >>> (8 * i))

/-- The value of little-endian bytes (R5). -/
def ofBytes : List Byte → Nat
  | [] => 0
  | b :: r => b.toNat + 256 * ofBytes r

/-- ceil(a / b). -/
def ceilDiv (a b : Nat) : Nat := (a + b - 1) / b

/-- floor(log2 x) for x > 0. -/
def ilog2 (x : Nat) : Nat := Nat.log2 x

/-- ceil(log2 x) for x > 0. -/
def clog2 (x : Nat) : Nat := if x ≤ 1 then 0 else Nat.log2 (x - 1) + 1

/-- The entry of key `k`. -/
def kfind {α : Type} : KMap α → Nat → Option α
  | [], _ => none
  | (a, v) :: r, k => if a = k then some v else kfind r k

/-- Enters `v` under `k`, keeping the keys rising. -/
def kinsert {α : Type} : KMap α → Nat → α → KMap α
  | [], k, v => [(k, v)]
  | (a, w) :: r, k, v =>
    if k < a then (k, v) :: (a, w) :: r
    else if a = k then (k, v) :: r
    else (a, w) :: kinsert r k v

/-- Removes the entry of `k`. -/
def kerase {α : Type} : KMap α → Nat → KMap α
  | [], _ => []
  | (a, w) :: r, k => if a = k then kerase r k else (a, w) :: kerase r k

/-- Reads with a value for missing keys. -/
def kget {α : Type} (d : α) (m : KMap α) (k : Nat) : α := (kfind m k).getD d

/-- Writes; a value equal to what a missing key reads as is not listed. -/
def kset {α : Type} [DecidableEq α] (d : α) (m : KMap α) (k : Nat) (v : α) : KMap α :=
  if v = d then kerase m k else kinsert m k v

/-- The keys, rising. -/
def kkeys {α : Type} (m : KMap α) : List Nat := m.map (·.1)

/-- The canonical form: keys strictly rising and no entry equal to the default. -/
def kwf {α : Type} [DecidableEq α] (d : α) : KMap α → Bool
  | [] => true
  | [(_, v)] => v ≠ d
  | (a, v) :: (b, w) :: r => v ≠ d && a < b && kwf d ((b, w) :: r)

end Sys2Proof.Machine
end

