-- ==== Sys2Proof/Syntax.lean ====
section
/-! DEFINITION. The instructions, packets and events of the Z9: one constructor for each row of spec/opcode_table.json.
Thread-set and tile-set instructions carry their decoded operands; packets carry their decoded fields; the rows that
are events of the machine, of the resident service or of the outside world carry the names of what they act on. -/

namespace Sys2Proof

/-- Element types of R24 (codes 0x0 to 0xC in this order). -/
inductive Ty
  | i32 | u32 | i16 | u16 | i8 | u8 | i4 | u4 | f32 | f16 | bf16 | pf16 | pbf16
  deriving DecidableEq, Repr

/-- Rounding selector of R23; `mode` takes the rounding mode from %mode. -/
inductive Rnd
  | mode | rn | rz | rp | rm | ra
  deriving DecidableEq, Repr

/-- Scopes of R8. -/
inductive Scope
  | core | cluster | die | device | system | block
  deriving DecidableEq, Repr

/-- A vector operand (R16): the main, operand and last-result files, or a broadcast scalar. -/
inductive VOp
  | v (n : Nat) | o (n : Nat) | l (n : Nat) | s (n : Nat)
  deriving DecidableEq, Repr

/-- The guard of R19: predicate number and negation. -/
structure Guard where
  p : Nat
  neg : Bool
  deriving DecidableEq, Repr

/-- LAT and guard of a lane-wise instruction with a fixed-latency result (R13). -/
structure Hdr where
  lat : Nat
  g : Guard
  deriving DecidableEq, Repr

/-- A decode refusal (R33): the fault kind, the cause and the two qualifiers of the detail field. -/
structure DecErr where
  kind : Nat
  cause : Nat
  hi : Nat
  pos : Nat := 0
  deriving DecidableEq, Repr

/-- The operand of VATOM, SATOM and RRED: operation codes 0 to 6 of R262. -/
inductive AtomOp
  | add | min | max | and | or | xor | xchg
  deriving DecidableEq, Repr

/-- Reduction and scan operators of R119. -/
inductive RedOp
  | add | min | max | and | or | xor
  deriving DecidableEq, Repr

/-- Modes of VSHFL (R119). -/
inductive ShflMode
  | idx | up | down | xor
  deriving DecidableEq, Repr

/-- Modes of VVOTE (R119). -/
inductive VoteMode
  | any | all | eq
  deriving DecidableEq, Repr

/-- Integer compare conditions of R78. -/
inductive ICond
  | eq | ne | lt | le | gt | ge
  deriving DecidableEq, Repr

/-- Floating compare conditions of R85. -/
inductive FCond
  | eq | ne | lt | le | gt | ge | un | ord
  deriving DecidableEq, Repr

/-- The condition of SCMP: by R78 for integers, by R85 for f32 (R105). -/
inductive SCond
  | int (c : ICond) | flt (c : FCond)
  deriving DecidableEq, Repr

/-- SRD's three forms (R124). -/
inductive SrdForm
  | scalar | vector | pair
  deriving DecidableEq, Repr

/-- Barrier targets of R227. -/
inductive BarTarget
  | blk | gang | slot (n : Nat)
  deriving DecidableEq, Repr

/-- Summary kinds of R290. -/
inductive SumKind
  | qs | hh | dc
  deriving DecidableEq, Repr

/-- Query modes of R299. -/
inductive SumMode
  | q | r | c | d
  deriving DecidableEq, Repr

/-- Conditions of TBR (R181). -/
inductive TCond
  | eq | ne | lt | ge | gt | le
  deriving DecidableEq, Repr

/-- Sources of TSET (R181): immediate, shifted-in immediate, x register, special. -/
inductive TSetSrc
  | imm (v : BitVec 26) | sh (v : BitVec 26) | mov (a : Nat) | special (n : Nat)
  deriving DecidableEq, Repr

/-- Depth of MMA and MMAS (R172): a constant 1 to 64, or an x register. -/
inductive Depth
  | const (n : Nat) | reg (x : Nat)
  deriving DecidableEq, Repr

/-- Modes of ARESC (R172). -/
inductive RescMode
  | sum | pow2 (x : Nat) | mul (x : Nat)
  deriving DecidableEq, Repr

/-- Directions of CPX (R169). -/
inductive CpxDir
  | gg | gs | sg
  deriving DecidableEq, Repr

/-- The five tile engines of R160. -/
inductive Engine
  | mx | tx | cp | ar | aw
  deriving DecidableEq, Repr

/-- Fields of a DISPATCH packet (R322). -/
structure DispatchPkt where
  kdesc : DWord
  nblk : Nat
  gsz : Nat
  det : Bool
  cnt : Bool
  idem : Bool
  aff : Bool
  prio : Nat
  gtab : DWord
  stab : DWord
  scnt : Nat
  crec : DWord
  deriving DecidableEq, Repr

/-- Fields of a BCAST packet (R326). -/
structure BcastPkt where
  bpc : DWord
  cw : Nat
  nbank : Nat
  prio : Nat
  det : Bool
  idem : Bool
  skew : Nat
  deriving DecidableEq, Repr

/-- Fields of the PRED and WAITMEM test (R328). -/
structure MemTest where
  addr : DWord
  ref : DWord
  mask : DWord
  op : Nat
  wide : Bool
  deriving DecidableEq, Repr

/-- Which store or copy lane a CAPTURE event performs (R206, R152). -/
inductive CapSrc
  | store (wave entry : Nat)
  /-- Read moves of some source bytes of a copy's lane, ahead of its Capture -/
  | copyRead (id lane : Nat) (addrs : List Nat)
  | copy (id lane : Nat)
  deriving DecidableEq, Repr

/-- A run of a frame's pages that does not lie where the frame's base would have it: its offset and length in the frame, its physical address
and the placement of its pages (R251). -/
structure FramePiece where
  off : Nat
  len : Nat
  pa : Nat
  plc : Nat
  deriving DecidableEq, Repr

/-- Where the service has allocated a task's frame (R355): virtual and physical address, the offset in it at which the gate
frames begin (R195), the placement of its pages (R251), and the runs of pages that lie elsewhere. -/
structure FrameLoc where
  va : DWord
  pa : Nat
  gates : Nat := 0
  plc : Nat := 0
  pieces : List FramePiece := []
  deriving DecidableEq, Repr

/-- What a received fabric packet asks for (R384 to R397). -/
inductive FabricMsg
  /-- a packet that asks for an unsupported part (R384) -/
  | unsupported
  /-- a store or copy delivered into a rank's region of this device: group, generation, source device, region offset, bytes -/
  | write (gid gen dev off : Nat) (bytes : List Byte)
  /-- a load of a rank's region of this device by another: group, generation, offset, bytes -/
  | read (gid gen off n : Nat)
  /-- a reduction into a rank's region: source device, offset, operation, type, value, whether at system scope -/
  | reduce (gid gen dev off : Nat) (op : AtomOp) (t : Ty) (v : Word) (sys : Bool)
  /-- a contribution of another rank to a collective call (R395): peer, element, rank, lane, value -/
  | contrib (gid gen call rank lane peer elem : Nat) (op : AtomOp) (t : Ty) (v : Word) (sys : Bool)
  /-- another rank has made its call, with so many contributions to this device's region -/
  | made (gid gen call rank sent : Nat)
  /-- the folds of a call homed on other devices are written -/
  | folded (gid gen call : Nat)
  /-- another device's region bytes, as a read of this device's RLD finds them from then on -/
  | peerBytes (gid rank off : Nat) (bytes : List Byte)
  /-- a client has changed its own memory behind a window (R386) -/
  | clientBytes (win off : Nat) (bytes : List Byte)
  deriving DecidableEq, Repr

/-- A register that the service writes without behaviour of its own (R265, R270, R315, R336, R365, R245). -/
inductive SvcReg
  | watchHome (sess unit : Nat) (wbase : Nat) (wlen : Nat) (wctl : Word)
  | watchCore (sess core unit : Nat) (wcbase : DWord) (wclen : Word) (wcctl : Word)
  | reserve (die rw rv rg : Nat)
  | slice (prio ticks : Nat)
  | drainBudget (d us : Nat)
  | watchdog (task n : Nat)
  | weight (proc w : Nat)
  deriving DecidableEq, Repr

/-- A write of a register by the service on behalf of a process (R314). -/
structure RegWrite where
  proc : Nat
  reg : SvcReg
  deriving DecidableEq, Repr

/-- A time packet of the grandmaster: the time it gives and the estimated offset from it (R400). -/
structure PtpTime where
  t : DWord
  offset : Int
  deriving DecidableEq, Repr

/-- The tasks of a process that a debugger session is opened for (R368). -/
structure DebugSet where
  proc : Nat
  tasks : List Nat
  deriving DecidableEq, Repr

/-- One rank of a registered group (R387). -/
structure RankInfo where
  local_ : Bool
  ep : Nat
  base : DWord
  len : Nat
  r : Bool
  w : Bool
  a : Bool
  deriving DecidableEq, Repr

/-- One page change of a memory registration (R252, R258): the entry's physical address and its new value. -/
structure PteWrite where
  pa : Nat
  tplc : Nat
  val : DWord
  deriving DecidableEq, Repr

/-- The page changes of one memory registration and the process that asks for it (R252, R314). -/
structure MemReg where
  proc : Nat
  ptes : List PteWrite
  deriving DecidableEq, Repr

/-- Page tables of an address space copied to another die (R380): the writes of the new tables, their root and their placement. -/
structure TableMove where
  asid : Nat
  root : Nat
  tplc : Nat
  writes : List PteWrite
  deriving DecidableEq, Repr

/-- Regions of the state read-out of R382. -/
inductive ReadRegion
  | wave (key : Nat) | tile (core ctx : Nat) | core (core : Nat) | die (die : Nat)
  | mem (pa len : Nat) | hub
  deriving DecidableEq, Repr

/-- The four member words of a fused softmax sequence (R99): VRED.max, VFSUB, VFEXP, VRED.add. -/
structure FusedOps where
  g : Guard
  d1 : VOp
  a1 : VOp
  rnd2 : Rnd
  d2 : VOp
  a2 : VOp
  d3 : VOp
  d4 : VOp
  deriving DecidableEq, Repr

/-- Every row of spec/opcode_table.json. -/
inductive Instr
  -- lane arithmetic (R75 to R98)
  | viadd (h : Hdr) (t : Ty) (sat pk : Bool) (d a b : VOp)
  | visub (h : Hdr) (t : Ty) (sat pk : Bool) (d a b : VOp)
  | vimul (h : Hdr) (t : Ty) (sat pk : Bool) (d a b : VOp)
  | vimulh (h : Hdr) (t : Ty) (d a b : VOp)
  | vimad (h : Hdr) (t : Ty) (sat pk : Bool) (d a b c : VOp)
  | vimin (h : Hdr) (t : Ty) (pk : Bool) (d a b : VOp)
  | vimax (h : Hdr) (t : Ty) (pk : Bool) (d a b : VOp)
  | viabs (h : Hdr) (t : Ty) (sat pk : Bool) (d a : VOp)
  | vineg (h : Hdr) (t : Ty) (sat pk : Bool) (d a : VOp)
  | vicmp (h : Hdr) (t : Ty) (cc : ICond) (p : Nat) (a b : VOp)
  | vlea (h : Hdr) (sh : Nat) (d a b : VOp)
  | vand (h : Hdr) (d a b : VOp)
  | vor (h : Hdr) (d a b : VOp)
  | vxor (h : Hdr) (d a b : VOp)
  | vnot (h : Hdr) (d a : VOp)
  | vshl (h : Hdr) (d a b : VOp)
  | vshr (h : Hdr) (d a b : VOp)
  | vsar (h : Hdr) (d a b : VOp)
  | vrot (h : Hdr) (d a b : VOp)
  | vbfx (h : Hdr) (t : Ty) (d a b : VOp)
  | vbfi (h : Hdr) (d a b c : VOp)
  | vpopc (h : Hdr) (d a : VOp)
  | vclz (h : Hdr) (d a : VOp)
  | vbrev (h : Hdr) (d a : VOp)
  | vfadd (h : Hdr) (r : Rnd) (t : Ty) (d a b : VOp)
  | vfsub (h : Hdr) (r : Rnd) (t : Ty) (d a b : VOp)
  | vfmul (h : Hdr) (r : Rnd) (t : Ty) (d a b : VOp)
  | vfma (h : Hdr) (r : Rnd) (t : Ty) (d a b c : VOp)
  | vfmin (h : Hdr) (r : Rnd) (t : Ty) (d a b : VOp)
  | vfmax (h : Hdr) (r : Rnd) (t : Ty) (d a b : VOp)
  | vfcmp (h : Hdr) (r : Rnd) (t : Ty) (cc : FCond) (p : Nat) (a b : VOp)
  | vfclass (h : Hdr) (r : Rnd) (t : Ty) (d a : VOp)
  | vfrint (h : Hdr) (r : Rnd) (t : Ty) (x : Bool) (d a : VOp)
  | vfdiv (h : Hdr) (r : Rnd) (d a b : VOp)
  | vfsqrt (h : Hdr) (r : Rnd) (d a : VOp)
  | vfrcp (h : Hdr) (r : Rnd) (d a : VOp)
  | vfrsq (h : Hdr) (r : Rnd) (d a : VOp)
  | vfexp (h : Hdr) (r : Rnd) (d a : VOp)
  | vfexp2 (h : Hdr) (r : Rnd) (d a : VOp)
  | vflog2 (h : Hdr) (r : Rnd) (d a : VOp)
  | vfsin (h : Hdr) (r : Rnd) (d a : VOp)
  | vfcos (h : Hdr) (r : Rnd) (d a : VOp)
  | vftanh (h : Hdr) (r : Rnd) (d a : VOp)
  | vcvt (h : Hdr) (r : Rnd) (td ts : Ty) (d a : VOp)
  | vpack (h : Hdr) (r : Rnd) (t : Ty) (d a b : VOp)
  | vunpack (h : Hdr) (r : Rnd) (t : Ty) (e : Bool) (d a : VOp)
  | vdot2 (h : Hdr) (r : Rnd) (t : Ty) (d a b c : VOp)
  | vdot4 (h : Hdr) (t : Ty) (sat mix : Bool) (d a b c : VOp)
  | vcmprs (h : Hdr) (t : Ty) (d a : VOp) (b : Option VOp)
  | vsel (h : Hdr) (n : Nat) (d a b : VOp)
  | vmov (h : Hdr) (d a : VOp)
  | vmovi (h : Hdr) (t : Ty) (d : VOp) (imm : Word)
  | s2v (h : Hdr) (idx : Bool) (d : VOp) (a : Nat)
  | v2s (h : Hdr) (d : Nat) (a : VOp) (b : Option Nat)
  | fusedSoftmax (f : FusedOps)
  -- scalar and predicate (R104 to R106)
  | sadd (lat : Nat) (t : Ty) (sat : Bool) (d a b : Nat)
  | ssub (lat : Nat) (t : Ty) (sat : Bool) (d a b : Nat)
  | smul (lat : Nat) (t : Ty) (sat : Bool) (d a b : Nat)
  | smulh (lat : Nat) (t : Ty) (d a b : Nat)
  | sand (lat d a b : Nat)
  | sor (lat d a b : Nat)
  | sxor (lat d a b : Nat)
  | snot (lat d a : Nat)
  | sshl (lat d a b : Nat)
  | sshr (lat d a b : Nat)
  | ssar (lat d a b : Nat)
  | smin (lat : Nat) (t : Ty) (d a b : Nat)
  | smax (lat : Nat) (t : Ty) (d a b : Nat)
  | smov (lat d a : Nat)
  | smovi (lat d : Nat) (imm : Word)
  | scmp (lat : Nat) (t : Ty) (cc : SCond) (c a b : Nat)
  | ssel (lat d a b n : Nat)
  | sfadd (lat : Nat) (r : Rnd) (d a b : Nat)
  | sfmul (lat : Nat) (r : Rnd) (d a b : Nat)
  | scvt (lat : Nat) (r : Rnd) (td ts : Ty) (d a : Nat)
  | pand (h : Hdr) (d a b : Nat)
  | por (h : Hdr) (d a b : Nat)
  | pxor (h : Hdr) (d a b : Nat)
  | pnot (h : Hdr) (d a : Nat)
  | pmov (h : Hdr) (d a : Nat)
  | pbal (h : Hdr) (d a : Nat)
  -- wave control (R107 to R118)
  | bra (imm : Word)
  | brc (n : Nat) (neg : Bool) (imm : Word)
  | brx (g : Guard) (k : Nat) (imm : Word)
  | join (k : Nat)
  | jmpt (g : Guard) (k : Nat) (a : VOp) (b n : Nat)
  | call (d : Nat) (imm : Word)
  | ret (a : Nat)
  | loop (a : Nat) (imm : Word)
  | exit (g : Guard)
  | yield
  | nop
  | waitc (lc sc kc xc : Nat)
  | spart (n : Nat)
  -- lane exchange (R119 to R123)
  | vshfl (h : Hdr) (m : ShflMode) (d a b : VOp)
  | vvote (h : Hdr) (m : VoteMode) (d a : Nat)
  | vbal (h : Hdr) (d : VOp) (a : Nat)
  | vred (h : Hdr) (t : Ty) (op : RedOp) (d a : VOp)
  | vscan (h : Hdr) (t : Ty) (op : RedOp) (excl : Bool) (d a : VOp)
  -- traps and special registers (R124 to R129)
  | trap (n : Nat)
  | tfence
  | rftRestart
  | rftNext
  | rftRedir (a b : Nat)
  | srd (lat : Nat) (f : SrdForm) (dv : VOp) (ds : Nat) (a : Nat)
  | swr (pair : Bool) (d a : Nat)
  | bkpt (n : Nat)
  | illegalInstruction (e : DecErr)
  -- core memory (R133 to R153)
  | vld (g : Guard) (t : Ty) (cnt ch : Nat) (d : VOp) (b : Nat) (a : VOp) (off : Option Word)
  | vst (g : Guard) (t : Ty) (cnt ch : Nat) (d : VOp) (b : Nat) (a : VOp) (off : Option Word)
  | vpref (g : Guard) (l2 : Bool) (b : Nat) (a : VOp) (off : Option Word)
  | sld (t : Ty) (cnt ch d b a : Nat) (off : Option Word)
  | sst (t : Ty) (cnt ch d b a : Nat) (off : Option Word)
  | ldl (g : Guard) (t : Ty) (cnt : Nat) (d a : VOp) (off : Option Word)
  | stl (g : Guard) (t : Ty) (cnt : Nat) (d a : VOp) (off : Option Word)
  | cbinit (n a b : Nat)
  | cbacqFull (n d : Nat)
  | cbacqFree (n d : Nat)
  | cbrelFull (n a : Nat)
  | cbrelFree (n a : Nat)
  | cpy (g : Guard) (sz : Nat) (out : Bool) (cb : Option Nat) (d : VOp) (b : Nat) (a : VOp) (imm : Word)
  | cseal (n : Nat)
  | cwait (n : Nat)
  -- the gate (R186 to R191)
  | gate (d a n : Nat) (imm : Word) (in0 in1 out0 out1 : Nat)
  -- ordering (R212 to R217)
  | fence (ld st cp : Bool) (d : Nat) (sc : Scope)
  | fwait (a : Nat)
  | rel (sc : Scope)
  | acq (sc : Scope)
  -- cluster (R221 to R243)
  | ldc (g : Guard) (t : Ty) (cnt : Nat) (d a : VOp) (off : Option Word)
  | stc (g : Guard) (t : Ty) (cnt : Nat) (d a : VOp) (off : Option Word)
  | bar (tgt : BarTarget) (sc : Scope)
  | bara (d : Nat) (tgt : BarTarget) (sc : Scope)
  | barw (a : Nat) (tgt : BarTarget) (sc : Scope)
  | qpush (g : Guard) (nb : Option Nat) (sc : Scope) (d : VOp) (a : Nat)
  | qpop (g : Guard) (nb : Option Nat) (sc : Scope) (d : VOp) (a : Nat)
  | tloopInit (d a b : Nat) (imm : Word)
  | tloopNext (d c : Nat)
  -- atomics (R262)
  | vatom (g : Guard) (op : AtomOp) (t : Ty) (d : VOp) (b : Nat) (a : VOp) (ext : Option (Word × Scope × Bool))
  | vcas (g : Guard) (t : Ty) (d : VOp) (b : Nat) (a c : VOp) (imm : Word) (sc : Scope)
  | satom (op : AtomOp) (t : Ty) (d b a : Nat) (ext : Option (Word × Scope × Bool))
  -- spore cells (R271)
  | cellset (g : Guard) (d : VOp) (b : Nat) (a : VOp) (imm : Word) (sc : Scope)
  | cellput (g : Guard) (d : VOp) (b : Nat) (a : VOp)
  | cellclr (g : Guard) (b : Nat) (a : VOp) (sc : Scope)
  | cellq (g : Guard) (d : VOp) (b : Nat) (a : VOp)
  -- summaries (R297)
  | suminit (k : SumKind) (coin n a : Nat)
  | sumadd (g : Guard) (n : Nat) (a : VOp)
  | sumld (n b a : Nat)
  | sumst (n b a : Nat)
  | summrg (n b a : Nat) (sc : Scope)
  | sumqry (m : SumMode) (d n a : Nat) (imm : Option Word)
  | enq (d a b c : Nat) (imm : Word) (n : Nat)
  -- fabric (R391, R394)
  | coll (g : Guard) (op : AtomOp) (t : Ty) (d a b : VOp) (c : Nat) (imm : Word) (sig : Nat) (sc : Scope)
  | collBar (g : Guard) (c sig : Nat) (sc : Scope)
  | rld (g : Guard) (t : Ty) (cnt : Nat) (d : VOp) (b : Nat) (a : VOp) (off : Option Word)
  | rst (g : Guard) (t : Ty) (cnt : Nat) (d : VOp) (b : Nat) (a : VOp) (off : Option Word)
  | rred (g : Guard) (op : AtomOp) (t : Ty) (d : VOp) (b : Nat) (a : VOp) (imm : Word) (sc : Scope)
  -- tile slots (R164 to R182)
  | tnop
  | tjmp (off : BitVec 24)
  | tbr (cc : TCond) (a : Nat) (off : BitVec 24)
  | tset (d : Nat) (src : TSetSrc)
  | tadd (d a : Nat) (src : Nat ⊕ BitVec 21)
  | twait (mx tx cp ar aw : Bool)
  | ttrap (n : Nat)
  | tileTfence
  | mma (d a b : Nat) (k : Depth)
  | mmas (d a b : Nat) (k : Depth)
  | azero (d : Nat)
  | anorm (d : Nat)
  | aresc (d : Nat) (m : RescMode)
  | trn (d a : Nat)
  | cpin (d a : Nat) (t : Bool) (off : Option Nat)
  | cpout (s a : Nat) (t : Bool) (off : Option Nat)
  | cpx (dir : CpxDir) (d s n : Nat)
  | tclaim (n : Nat)
  | trel (n : Nat)
  | tcseal (n : Nat)
  | tcwait (n : Nat)
  | ardCe (s d : Nat)
  | ardF32 (s o : Nat)
  | ardBf16 (s o : Nat)
  | ardF16 (s o : Nat)
  | ardRaw (s o : Nat)
  | awrRaw (d o : Nat)
  | awrAdd (d o : Nat)
  | awrF32 (d o : Nat)
  | decouple
  | rejoin
  | trgate
  -- command packets (R319 to R331)
  | packetNop
  | dispatch (p : DispatchPkt)
  | bcast (p : BcastPkt)
  | ib (addr : DWord) (len : Nat)
  | pred (t : MemTest) (nskip : Nat)
  | packetLoop (count nbody : Nat)
  | write (addr val : DWord) (sc : Scope) (wide : Bool)
  | waitmem (t : MemTest)
  | compl (addr seq : DWord) (sc : Scope)
  | timed (t : DWord)
  | ffence
  -- requests to the resident service
  | submitPackets (proc queue : Nat) (pkts : List (List Byte))
  | createQueue (proc queue ring log flog flogn : Nat) (reservation : Option Nat)
  | destroyQueue (queue : Nat) (kill : Bool)
  | restartQueue (queue : Nat)
  | ackFaultLog (queue n : Nat)
  | bindAsid (proc asid root : Nat)
  | freeAsid (asid : Nat)
  | invalidate (asid : Nat) (range : Option (Nat × Nat))
  | registerWindow (win : Nat) (ep rbase len proc : Nat) (r w : Bool)
  | freeWindow (win : Nat)
  | registerGroup (gid launch rank : Nat) (ranks : List RankInfo)
  | freeGroup (gid : Nat)
  | peerUnreachable (gid rank : Nat)
  | reserveClusters (proc die : Nat) (clusters : List Nat)
  /-- at the first lock, the grandmaster's time; then and later the estimated offset from it (R400) -/
  | ptpFirstLock (p : PtpTime)
  | fwshareWrite (core part val : Nat)
  | registerWrite (r : RegWrite)
  | debugHaltRequest (task : Nat)
  | debugResume (task : Nat)
  | singleStep (task : Nat) (waves : List Nat) (tiles : List Nat)
  -- power, boot, servicing, freeze
  | powerOn
  | recoveryImage (img : List Byte)
  | powerOff
  | raiseSvn
  | attestationReport (nonce : List Byte)
  | liveUpdate (img : List Byte)
  | handoverAccept
  | handoverTimeout
  | quiesceCore (core : Nat)
  | excludeCore (core : Nat)
  | restoreCore (core : Nat)
  | recalibrateLane (link lane : Nat)
  | retireChannel (stack chan : Nat) (moves : List PteWrite)
  /-- the page moves and table moves that the service makes (R379, R380) -/
  | dieOffline (die : Nat) (moves : List PteWrite) (tables : List TableMove)
  | freezePin
  | freezeCommand
  | stateReadout (r : ReadRegion)
  | hotLimit (share : Nat)
  | criticalLimit
  | dieReturn (die : Nat)
  | routeChange (gid : Nat) (plan : List (List Nat))
  | memoryRegistration (r : MemReg)
  | debuggerSession (log base : Nat) (d : DebugSet)
  | laneRecalibrationDone (link : Nat)
  -- moves of the machine by itself, which no word, packet or request holds
  /-- `early` lists bytes that make their Read moves now; an empty list is the return itself (R141, R206) -/
  | loadSectorReturn (wave entry part : Nat) (early : List Nat)
  | capture (src : CapSrc)
  | copyComplete (id : Nat)
  | gateOpen (core task blk : Nat)
  | fenceComplete (wave idx : Nat)
  | atomicPerform (die : Nat)
  | evaluatorPlace (req : Nat) (fr : FrameLoc)
  | collFold (gid call peer elem : Nat)
  | engineOperation (core : Nat) (e : Engine)
  | packetRead (queue level pos : Nat)
  | waitmemPoll (queue : Nat)
  | taskPlace (task : Nat) (fr : FrameLoc)
  | taskRetire (task : Nat)
  | preempt (task : Nat)
  | sliceExpiry (task : Nat)
  | taskSave (task : Nat)
  | chargeTick (task : Nat)
  | watchdogExpiry (task : Nat)
  | pagePresentReport (task : Nat)
  | pageUnresolvable (task wave : Nat)
  | asidRetired (asid : Nat)
  | invalidationComplete (id : Nat)
  | fabricPacketReceive (m : FabricMsg)
  deriving DecidableEq, Repr

end Sys2Proof
end

