-- ==== Sys2Proof/WellFormed.lean ====
section
/-! DEFINITION. Which instructions are well formed: the operand ranges, types, modes and alignments that the spec's
encoding tables allow (R16 to R24, R52 and the table of each instruction), for a wave with given grants. Written from
the operands alone, apart from the decoder's checks. Events and requests carry no encoding and are well formed. -/

namespace Sys2Proof

/-- What decoding depends on besides the words: the wave's vector allocation (R16), circular buffers and summary buffers
granted (R146, R288), whether the launch is deterministic (R293), and each layout map's direction and target (R187). -/
structure Limits where
  nv : Nat := 1536
  ncb : Nat := 8
  nsum : Nat := 4
  det : Bool := false
  maps : List (Bool × Nat) := []
  deriving DecidableEq, Repr

/-- A vector source (R16). -/
def VOp.srcOk (c : Limits) : VOp → Bool
  | .v n => n < 1536 && n < c.nv
  | .o n => n < 16
  | .l n => n < 4
  | .s n => n < 256

/-- A vector destination (R16). -/
def VOp.dstOk (c : Limits) : VOp → Bool
  | .s _ => false
  | x => x.srcOk c

/-- The first register of a group of `k` main-file registers (R134). -/
def VOp.groupOk (c : Limits) (k : Nat) : VOp → Bool
  | .v n => n % k == 0 && n + k ≤ c.nv && n < 1536
  | _ => false

/-- Whether an operand lies in the last-result file (R21). -/
def VOp.isL : VOp → Bool
  | .l _ => true
  | _ => false

def scaOk (n : Nat) : Bool := n < 512
def pairOk (n : Nat) : Bool := n < 512 && n % 2 == 0
def quadOk (n : Nat) : Bool := n < 512 && n % 4 == 0
def predOk (n : Nat) : Bool := n < 8

/-- PSEL is a predicate number (R13). -/
def Guard.ok (g : Guard) : Bool := g.p < 8

/-- LAT meets its class bound, lowered by 2 for an l source (R21). -/
def latOk (bound lat : Nat) (srcs : List VOp) : Bool :=
  lat < 32 && (if srcs.any VOp.isL then bound - 2 else bound) ≤ lat

/-- Header and vector sources of a lane-wise instruction with destination `d`. -/
def laneOk (c : Limits) (bound : Nat) (h : Hdr) (d : VOp) (srcs : List VOp) : Bool :=
  h.g.ok && latOk bound h.lat srcs && d.dstOk c && srcs.all (VOp.srcOk c)

/-- The same with a predicate destination (R74). -/
def lanePredOk (c : Limits) (bound : Nat) (h : Hdr) (p : Nat) (srcs : List VOp) : Bool :=
  h.g.ok && latOk bound h.lat srcs && predOk p && srcs.all (VOp.srcOk c)

/-- The integer types of R66. -/
def Ty.isInt : Ty → Bool
  | .i32 | .u32 | .i16 | .u16 | .i8 | .u8 | .i4 | .u4 => true
  | _ => false

def Ty.isInt32 : Ty → Bool
  | .i32 | .u32 => true
  | _ => false

/-- The types of VFADD (R82). -/
def Ty.isFloat : Ty → Bool
  | .f32 | .f16 | .bf16 | .pf16 | .pbf16 => true
  | _ => false

def Ty.isScalarFloat : Ty → Bool
  | .f32 | .f16 | .bf16 => true
  | _ => false

def Ty.isPair : Ty → Bool
  | .pf16 | .pbf16 => true
  | _ => false

/-- The types of the memory accesses (R133) and their width in bytes. -/
def Ty.memWidth : Ty → Option Nat
  | .i32 | .u32 | .f32 => some 4
  | .i16 | .u16 | .f16 | .bf16 => some 2
  | .i8 | .u8 => some 1
  | _ => none

/-- The types of atomics, VRED and VSCAN. -/
def Ty.isAtom : Ty → Bool
  | .i32 | .u32 | .f32 => true
  | _ => false

/-- No packed form of a 32-bit type (R75). -/
def pkOk (t : Ty) (pk : Bool) : Bool := t.isInt && !(pk && t.isInt32)

/-- Operators that R119 and R262 refuse with f32. -/
def redOk (t : Ty) (op : RedOp) : Bool :=
  t.isAtom && !(t == .f32 && (op == .and || op == .or || op == .xor))

def atomOk (t : Ty) (op : AtomOp) : Bool :=
  t.isAtom && !(t == .f32 && (op == .and || op == .or || op == .xor))

/-- CNT and CH of R133: register count code and cache hint. -/
def memOk (t : Ty) (cnt ch : Nat) : Bool :=
  t.memWidth.isSome && cnt < 3 && ch < 3 && (cnt == 0 || t.memWidth == some 4)

/-- The data operand of a memory access with CNT (R134). -/
def dataOk (c : Limits) (dst : Bool) (cnt : Nat) (d : VOp) : Bool :=
  if cnt = 0 then (if dst then d.dstOk c else d.srcOk c) else d.groupOk c (2 ^ cnt)

def scaDataOk (cnt d : Nat) : Bool := d < 512 && d % 2 ^ cnt == 0

/-- SRD and SWR register numbers (R17). -/
def specialOk (n : Nat) : Bool := 512 ≤ n && n < 532

/-- One map field of GATE (R186): 31 for none, or a map of the given direction. -/
def mapFieldOk (c : Limits) (ret : Bool) (m : Nat) : Bool :=
  m == 31 || (m < 16 && (c.maps[m]?.map (·.1)) == some ret)

/-- Two maps of one direction name distinct targets (R186). -/
def mapPairOk (c : Limits) (m n : Nat) : Bool :=
  m == 31 || n == 31 || (c.maps[m]?.map (·.2)) != (c.maps[n]?.map (·.2))

/-- SCVT's types (R104). -/
def scvtOk (td ts : Ty) : Bool := td.isAtom && ts.isAtom && td != ts

/-- VCVT's types (R90): no packed pair, and two different types. -/
def vcvtOk (td ts : Ty) : Bool := !td.isPair && !ts.isPair && td != ts

/-- The condition of SCMP fits its type (R105). -/
def scondOk (t : Ty) : SCond → Bool
  | .int _ => t.isInt32
  | .flt _ => t == .f32

/-- A 16-bit literal leaves the upper half zero (R97). -/
def immOk (t : Ty) (imm : Word) : Bool :=
  match t with
  | .f16 | .bf16 => imm.toNat < 65536
  | .i32 | .u32 | .f32 | .pf16 | .pbf16 => true
  | _ => false

/-- Operand forms of SRD (R124). -/
def srdOk (c : Limits) (f : SrdForm) (dv : VOp) (ds a : Nat) : Bool :=
  specialOk a && match f with
  | .scalar => scaOk ds && dv == .v 0
  | .vector => dv.dstOk c && ds == 0
  | .pair => pairOk ds && dv == .v 0 && (a == 528 || a == 530)

/-- An address field of a packet: canonical and a multiple of `al` (R25, R321). -/
def addrOk (x : DWord) (al : Nat) : Bool := (x.setWidth 57).signExtend 64 == x && x.toNat % al == 0

/-- Common ranges of a PRED or WAITMEM test (R328). -/
def MemTest.ok (t : MemTest) : Bool := t.op < 6 && addrOk t.addr 8

/-- Skew values of ranks at or beyond 2^CW are zero (R323, R326). -/
def skewOk (cw skew : Nat) : Bool := skew < 2 ^ (4 * 2 ^ cw)

def DispatchPkt.ok (p : DispatchPkt) : Bool :=
  addrOk p.kdesc 64 && 1 ≤ p.nblk && p.nblk ≤ 2 ^ 24 && 1 ≤ p.gsz && p.gsz ≤ 8 && p.nblk % p.gsz == 0 &&
  p.prio < 16 && addrOk p.gtab 16 && addrOk p.stab 16 && p.scnt ≤ 65536 &&
  (p.stab != 0 || p.scnt == 0) && addrOk p.crec 64 && (!p.cnt || p.crec != 0)

def BcastPkt.ok (p : BcastPkt) : Bool :=
  addrOk p.bpc 32 && 1 ≤ p.cw && p.cw ≤ 3 && p.nbank ≤ 16 && p.prio < 16 && skewOk p.cw p.skew

def Depth.ok : Depth → Bool
  | .const n => 1 ≤ n && n ≤ 64
  | .reg x => x < 64

def RescMode.ok : RescMode → Bool
  | .sum => true
  | .pow2 x | .mul x => x < 64

def TSetSrc.ok : TSetSrc → Bool
  | .imm _ | .sh _ => true
  | .mov a => a < 64
  | .special n => n < 3

/-- A register number of an optional CPIN or CPOUT offset (R166). -/
def offOk : Option Nat → Bool
  | none => true
  | some x => x < 64

/-- The four words of a fused softmax sequence pass every check and chain (R99). -/
def FusedOps.ok (c : Limits) (f : FusedOps) : Bool :=
  f.g.ok && f.d1.dstOk c && f.a1.srcOk c && f.d2.dstOk c && f.a2.srcOk c && f.d3.dstOk c && f.d4.dstOk c

/-- Extension of an atomic's T128 form (R262): ordinary scopes only. -/
def barTargetOk : BarTarget → Bool
  | .slot n => n < 4
  | _ => true

/-- Well-formedness of an instruction for a wave with limits `c`. -/
def Instr.wf (c : Limits) : Instr → Bool
  | .viadd h t _ pk d a b | .visub h t _ pk d a b | .vimul h t _ pk d a b => pkOk t pk && laneOk c 4 h d [a, b]
  | .vimulh h t d a b => t.isInt32 && laneOk c 4 h d [a, b]
  | .vimad h t _ pk d a b e => pkOk t pk && laneOk c 4 h d [a, b, e]
  | .vimin h t pk d a b | .vimax h t pk d a b => pkOk t pk && laneOk c 4 h d [a, b]
  | .viabs h t _ pk d a | .vineg h t _ pk d a =>
    (t == .i32 || t == .i16 || t == .i8 || t == .i4) && pkOk t pk && laneOk c 4 h d [a]
  | .vicmp h t _ p a b => t.isInt && lanePredOk c 4 h p [a, b]
  | .vlea h sh d a b => sh < 8 && laneOk c 4 h d [a, b]
  | .vand h d a b | .vor h d a b | .vxor h d a b | .vshl h d a b | .vshr h d a b | .vsar h d a b | .vrot h d a b =>
    laneOk c 4 h d [a, b]
  | .vnot h d a | .vpopc h d a | .vclz h d a | .vbrev h d a | .vmov h d a => laneOk c 4 h d [a]
  | .vbfx h t d a b => t.isInt32 && laneOk c 4 h d [a, b]
  | .vbfi h d a b e => laneOk c 4 h d [a, b, e]
  | .vfadd h _ t d a b | .vfsub h _ t d a b | .vfmul h _ t d a b | .vfmin h _ t d a b | .vfmax h _ t d a b =>
    t.isFloat && laneOk c 5 h d [a, b]
  | .vfma h _ t d a b e => t.isFloat && laneOk c 5 h d [a, b, e]
  | .vfcmp h _ t _ p a b => t.isScalarFloat && lanePredOk c 5 h p [a, b]
  | .vfclass h _ t d a => t.isScalarFloat && laneOk c 5 h d [a]
  | .vfrint h _ t _ d a => t.isFloat && laneOk c 5 h d [a]
  | .vfdiv h _ d a b => laneOk c 28 h d [a, b]
  | .vfsqrt h _ d a => laneOk c 28 h d [a]
  | .vfrcp h _ d a | .vfrsq h _ d a | .vfexp h _ d a | .vfexp2 h _ d a | .vflog2 h _ d a | .vfsin h _ d a
  | .vfcos h _ d a | .vftanh h _ d a => laneOk c 14 h d [a]
  | .vcvt h _ td ts d a => vcvtOk td ts && laneOk c 5 h d [a]
  | .vpack h _ t d a b => t.isPair && laneOk c 5 h d [a, b]
  | .vunpack h _ t _ d a => t.isPair && laneOk c 5 h d [a]
  | .vdot2 h _ t d a b e => t.isPair && laneOk c 5 h d [a, b, e]
  | .vdot4 h t _ _ d a b e => (t == .i8 || t == .u8 || t == .i4 || t == .u4) && laneOk c 4 h d [a, b, e]
  | .vcmprs h t d a b =>
    match t, b with
    | .i8, none => laneOk c 6 h d [a]
    | .pf16, some b | .pbf16, some b => laneOk c 6 h d [a, b] && d.groupOk c 2
    | _, _ => false
  | .vsel h n d a b => predOk n && laneOk c 4 h d [a, b]
  | .vmovi h t d imm => immOk t imm && laneOk c 4 h d []
  | .s2v h idx d a => laneOk c 6 h d [] && scaOk a && (!idx || a ≤ 480)
  | .v2s h d a b => h.g.ok && latOk 6 h.lat [a] && scaOk d && a.srcOk c && (match b with | none => true | some b => scaOk b)
  | .fusedSoftmax f => f.ok c
  | .sadd lat t _ d a b | .ssub lat t _ d a b | .smul lat t _ d a b => t.isInt32 && latOk 4 lat [] && scaOk d && scaOk a && scaOk b
  | .smulh lat t d a b | .smin lat t d a b | .smax lat t d a b =>
    t.isInt32 && latOk 4 lat [] && scaOk d && scaOk a && scaOk b
  | .sand lat d a b | .sor lat d a b | .sxor lat d a b | .sshl lat d a b | .sshr lat d a b | .ssar lat d a b =>
    latOk 4 lat [] && scaOk d && scaOk a && scaOk b
  | .snot lat d a | .smov lat d a => latOk 4 lat [] && scaOk d && scaOk a
  | .smovi lat d _ => latOk 4 lat [] && scaOk d
  | .scmp lat t cc n a b => scondOk t cc && latOk 4 lat [] && n < 4 && scaOk a && scaOk b
  | .ssel lat d a b n => latOk 4 lat [] && scaOk d && scaOk a && scaOk b && n < 4
  | .sfadd lat _ d a b | .sfmul lat _ d a b => latOk 5 lat [] && scaOk d && scaOk a && scaOk b
  | .scvt lat _ td ts d a => scvtOk td ts && latOk 5 lat [] && scaOk d && scaOk a
  | .pand h d a b | .por h d a b | .pxor h d a b =>
    h.g.ok && latOk 4 h.lat [] && predOk d && predOk a && predOk b
  | .pnot h d a | .pmov h d a => h.g.ok && latOk 4 h.lat [] && predOk d && predOk a
  | .pbal h d a => h.g.ok && latOk 4 h.lat [] && predOk d && scaOk a
  | .bra _ => true
  | .brc n _ _ => n < 4
  | .brx g k _ => g.ok && k < 16
  | .join k => k < 16
  | .jmpt g k a b n => g.ok && k < 16 && a.srcOk c && 1 ≤ n && n ≤ 64 && b + n - 1 ≤ 511
  | .call d _ => pairOk d
  | .ret a => pairOk a
  | .loop a _ => scaOk a
  | .exit g => g.ok
  | .yield | .nop | .tfence | .rftRestart | .rftNext => true
  | .waitc lc sc kc xc => lc < 2048 && sc < 2048 && kc < 2048 && xc < 256
  | .spart n => n < 5
  | .vshfl h _ d a b => laneOk c 6 h d [a, b]
  | .vvote h _ d a => h.g.ok && latOk 6 h.lat [] && predOk d && predOk a
  | .vbal h d a => laneOk c 6 h d [] && predOk a
  | .vred h t op d a | .vscan h t op _ d a => redOk t op && laneOk c 6 h d [a]
  | .trap n | .bkpt n => n < 256
  | .rftRedir a b => pairOk a && scaOk b
  | .srd lat f dv ds a => latOk 4 lat [] && srdOk c f dv ds a
  | .swr pair d a => if pair then d == 528 && pairOk a else specialOk d && d != 528 && d != 529 && scaOk a
  | .vld g t cnt ch d b a _ => g.ok && memOk t cnt ch && dataOk c true cnt d && quadOk b && a.srcOk c
  | .vst g t cnt ch d b a _ => g.ok && memOk t cnt ch && dataOk c false cnt d && quadOk b && a.srcOk c
  | .vpref g _ b a _ => g.ok && quadOk b && a.srcOk c
  | .sld t cnt ch d b a _ | .sst t cnt ch d b a _ => memOk t cnt ch && scaDataOk cnt d && quadOk b && scaOk a
  | .ldl g t cnt d a _ | .ldc g t cnt d a _ => g.ok && memOk t cnt 0 && dataOk c true cnt d && a.srcOk c
  | .stl g t cnt d a _ | .stc g t cnt d a _ => g.ok && memOk t cnt 0 && dataOk c false cnt d && a.srcOk c
  | .cbinit n a b => n < 8 && n < c.ncb && scaOk a && scaOk b
  | .cbacqFull n d | .cbacqFree n d | .cbrelFull n d | .cbrelFree n d => n < 8 && n < c.ncb && scaOk d
  | .cpy g sz out cb d b a _ =>
    g.ok && sz < 3 && d.srcOk c && quadOk b && a.srcOk c &&
    (match cb with | none => true | some n => !out && n < 8 && n < c.ncb)
  | .cseal n | .cwait n => n < 8
  | .gate d a n _ i0 i1 o0 o1 =>
    pairOk d && n ≤ 16 && (if n = 0 then a == 0 else pairOk a && a + 2 * n - 1 ≤ 511) &&
    mapFieldOk c false i0 && mapFieldOk c false i1 && mapPairOk c i0 i1 &&
    mapFieldOk c true o0 && mapFieldOk c true o1 && mapPairOk c o0 o1
  | .fence ld st cp d _ => (ld || st || cp) && scaOk d
  | .fwait a => scaOk a
  | .rel _ | .acq _ => true
  | .bar tgt _ => barTargetOk tgt
  | .bara d tgt _ | .barw d tgt _ => barTargetOk tgt && scaOk d
  | .qpush g nb _ d a => g.ok && d.srcOk c && scaOk a && (match nb with | none => true | some p => predOk p)
  | .qpop g nb _ d a => g.ok && d.dstOk c && scaOk a && (match nb with | none => true | some p => predOk p)
  | .tloopInit d a b _ => scaOk d && pairOk a && scaOk b
  | .tloopNext d n => quadOk d && n < 4
  | .vatom g op t d b a ext =>
    g.ok && atomOk t op && quadOk b && a.srcOk c &&
    (match ext with | some (_, _, true) => d.dstOk c | _ => d.srcOk c)
  | .vcas g t d b a e _ _ => g.ok && t.isAtom && d.dstOk c && quadOk b && a.srcOk c && e.srcOk c
  | .satom op t d b a _ => atomOk t op && scaOk d && quadOk b && scaOk a
  | .cellset g d b a _ _ => g.ok && d.groupOk c 8 && quadOk b && a.srcOk c
  | .cellput g d b a => g.ok && d.groupOk c 8 && quadOk b && a.srcOk c
  | .cellclr g b a _ => g.ok && quadOk b && a.srcOk c
  | .cellq g d b a => g.ok && d.dstOk c && quadOk b && a.srcOk c
  | .suminit k coin n a =>
    n < 4 && n < c.nsum && pairOk a && coin < 3 && !(coin == 2 && c.det) && (k == .qs || coin == 0)
  | .sumadd g n a => g.ok && n < 4 && n < c.nsum && a.srcOk c
  | .sumld n b a | .sumst n b a | .summrg n b a _ => n < 4 && n < c.nsum && quadOk b && scaOk a
  | .sumqry m d n a imm =>
    n < 4 && n < c.nsum && quadOk d &&
    (match imm with
     | none => scaOk a && (m != .d || a == 0)
     | some v => a == 0 && (m != .d || v == 0))
  | .enq d a b e _ n => scaOk d && scaOk a && quadOk b && scaOk e && 1 ≤ n && n ≤ 16
  | .coll g op t d a b e _ sig sc =>
    g.ok && (op == .add || op == .min || op == .max) && t.isAtom && d.srcOk c && a.srcOk c && b.srcOk c && scaOk e &&
    pairOk sig && (sc == .device || sc == .system)
  | .collBar g e sig sc => g.ok && scaOk e && pairOk sig && (sc == .device || sc == .system)
  | .rld g t cnt d b a _ => g.ok && memOk t cnt 0 && dataOk c true cnt d && quadOk b && a.srcOk c
  | .rst g t cnt d b a _ => g.ok && memOk t cnt 0 && dataOk c false cnt d && quadOk b && a.srcOk c
  | .rred g op t d b a _ sc =>
    g.ok && atomOk t op && op != .xchg && d.srcOk c && quadOk b && a.srcOk c && (sc == .device || sc == .system)
  | .tnop | .tileTfence | .decouple | .rejoin | .trgate | .tjmp _ => true
  | .tbr _ a _ => a < 64
  | .tset d src => d < 64 && src.ok
  | .tadd d a src => d < 64 && a < 64 && (match src with | .inl b => b < 64 | .inr _ => true)
  | .twait _ _ _ _ _ => true
  | .ttrap n => n < 256
  | .mma d a b k | .mmas d a b k => d < 16 && a < 16 && b < 16 && k.ok
  | .azero d | .anorm d | .tclaim d | .trel d => d < 16
  | .aresc d m => d < 16 && m.ok
  | .trn d a | .ardCe d a => d < 16 && a < 16
  | .cpin d a _ off | .cpout d a _ off => d < 16 && a < 64 && offOk off
  | .cpx _ d s n => d < 64 && s < 64 && n < 64
  | .tcseal n | .tcwait n => n < 8
  | .ardF32 s o | .ardBf16 s o | .ardF16 s o | .ardRaw s o | .awrRaw s o | .awrAdd s o | .awrF32 s o => s < 16 && o < 64
  | .packetNop | .ffence | .timed _ => true
  | .dispatch p => p.ok
  | .bcast p => p.ok
  | .ib addr len => addrOk addr 64 && 1 ≤ len && len ≤ 2 ^ 20
  | .pred t n => t.ok && 1 ≤ n && n < 256
  | .packetLoop count nbody => count < 2 ^ 32 && 1 ≤ nbody && nbody ≤ 15
  | .write addr _ sc _ => addrOk addr 8 && sc != .block
  | .waitmem t => t.ok
  | .compl addr _ sc => addrOk addr 8 && sc != .block
  | .illegalInstruction _ => false
  | _ => true

end Sys2Proof
end

