-- ==== Sys2Proof/Decode.lean ====
section
/-! DEFINITION. Decoding and encoding: thread-set words (R12 to R24, R30 and the encoding table of each instruction),
tile bundles (R25 to R28, R31, R184 and the slot tables), command packets (R320 to R331), each total on any bits and
refusing by the kind and cause of R32 and R33 or by the packet error of R321; and the encoder of each. -/

namespace Sys2Proof

open Machine (bits bit ofBytes toBytes lowestBit signed)

/-! ### Codes -/

/-- Element type codes of R24. -/
def Ty.code : Ty → Nat
  | .i32 => 0 | .u32 => 1 | .i16 => 2 | .u16 => 3 | .i8 => 4 | .u8 => 5 | .i4 => 6 | .u4 => 7
  | .f32 => 8 | .f16 => 9 | .bf16 => 10 | .pf16 => 11 | .pbf16 => 12

/-- The type of a code (codes 13 to 15 are refused before this is read). -/
def tyOf : Nat → Ty
  | 0 => .i32 | 1 => .u32 | 2 => .i16 | 3 => .u16 | 4 => .i8 | 5 => .u8 | 6 => .i4 | 7 => .u4
  | 8 => .f32 | 9 => .f16 | 10 => .bf16 | 11 => .pf16 | _ => .pbf16

/-- Rounding codes of R23. -/
def Rnd.code : Rnd → Nat
  | .mode => 0 | .rn => 1 | .rz => 2 | .rp => 3 | .rm => 4 | .ra => 5

def rndOf : Nat → Rnd
  | 0 => .mode | 1 => .rn | 2 => .rz | 3 => .rp | 4 => .rm | _ => .ra

/-- Scope codes of R8. -/
def Scope.code : Scope → Nat
  | .core => 0 | .cluster => 1 | .die => 2 | .device => 3 | .system => 4 | .block => 5

def scopeOf : Nat → Scope
  | 0 => .core | 1 => .cluster | 2 => .die | 3 => .device | 4 => .system | _ => .block

/-- Vector operand field of R16. -/
def VOp.code : VOp → Nat
  | .v n => n | .o n => 1536 + n | .l n => 1552 + n | .s n => 1792 + n

def vopOf (x : Nat) : VOp :=
  if x < 1536 then .v x else if x < 1552 then .o (x - 1536) else if x < 1792 then .l (x - 1552) else .s (x - 1792)

def AtomOp.code : AtomOp → Nat
  | .add => 0 | .min => 1 | .max => 2 | .and => 3 | .or => 4 | .xor => 5 | .xchg => 6

def atomOf : Nat → AtomOp
  | 0 => .add | 1 => .min | 2 => .max | 3 => .and | 4 => .or | 5 => .xor | _ => .xchg

def RedOp.code : RedOp → Nat
  | .add => 0 | .min => 1 | .max => 2 | .and => 3 | .or => 4 | .xor => 5

def redOf : Nat → RedOp
  | 0 => .add | 1 => .min | 2 => .max | 3 => .and | 4 => .or | _ => .xor

def ICond.code : ICond → Nat
  | .eq => 0 | .ne => 1 | .lt => 2 | .le => 3 | .gt => 4 | .ge => 5

def icondOf : Nat → ICond
  | 0 => .eq | 1 => .ne | 2 => .lt | 3 => .le | 4 => .gt | _ => .ge

def FCond.code : FCond → Nat
  | .eq => 0 | .ne => 1 | .lt => 2 | .le => 3 | .gt => 4 | .ge => 5 | .un => 6 | .ord => 7

def fcondOf : Nat → FCond
  | 0 => .eq | 1 => .ne | 2 => .lt | 3 => .le | 4 => .gt | 5 => .ge | 6 => .un | _ => .ord

def SCond.code : SCond → Nat
  | .int c => c.code | .flt c => c.code

def scondOf (t : Ty) (n : Nat) : SCond := if t = .f32 then .flt (fcondOf n) else .int (icondOf n)

def ShflMode.code : ShflMode → Nat
  | .idx => 0 | .up => 1 | .down => 2 | .xor => 3

def shflOf : Nat → ShflMode
  | 0 => .idx | 1 => .up | 2 => .down | _ => .xor

def VoteMode.code : VoteMode → Nat
  | .any => 0 | .all => 1 | .eq => 2

def voteOf : Nat → VoteMode
  | 0 => .any | 1 => .all | _ => .eq

/-- Barrier targets of R227: 0 the block, 1 the gang, 2 to 5 the group slots. -/
def BarTarget.code : BarTarget → Nat
  | .blk => 0 | .gang => 1 | .slot n => 2 + n

def barOf : Nat → BarTarget
  | 0 => .blk | 1 => .gang | n => .slot (n - 2)

def SumKind.code : SumKind → Nat
  | .qs => 1 | .hh => 2 | .dc => 3

def sumKindOf : Nat → SumKind
  | 1 => .qs | 2 => .hh | _ => .dc

def SumMode.code : SumMode → Nat
  | .q => 0 | .r => 1 | .c => 2 | .d => 3

def sumModeOf : Nat → SumMode
  | 0 => .q | 1 => .r | 2 => .c | _ => .d

def TCond.code : TCond → Nat
  | .eq => 0 | .ne => 1 | .lt => 2 | .ge => 3 | .gt => 4 | .le => 5

def tcondOf : Nat → TCond
  | 0 => .eq | 1 => .ne | 2 => .lt | 3 => .ge | 4 => .gt | _ => .le

/-- 1 for true. -/
def b1 (b : Bool) : Nat := if b then 1 else 0

/-! ### Thread-set words -/

/-- The fields of a thread-set word and its second word (R13, R14); a T64 has c, imm and ext zero. -/
structure Raw where
  op : Nat
  l : Nat := 0
  lat : Nat := 0
  pn : Nat := 0
  psel : Nat := 7
  d : Nat := 0
  a : Nat := 0
  b : Nat := 0
  rnd : Nat := 0
  mod : Nat := 0
  c : Nat := 0
  imm : Nat := 0
  ext : Nat := 0
  deriving DecidableEq, Repr

/-- Splits the two words (R13, R14). -/
def Raw.ofWords (w0 w1 : DWord) : Raw :=
  let x := w0.toNat
  let y := if bit x 53 then w1.toNat else 0
  { op := bits x 63 54, l := bits x 53 53, lat := bits x 52 48, pn := bits x 47 47, psel := bits x 46 44,
    d := bits x 43 33, a := bits x 32 22, b := bits x 21 11, rnd := bits x 10 8, mod := bits x 7 0,
    c := bits y 63 53, imm := bits y 52 21, ext := bits y 20 0 }

/-- Joins the fields into the first word. -/
def Raw.word0 (r : Raw) : DWord :=
  BitVec.ofNat 64 (r.op * 2 ^ 54 + r.l * 2 ^ 53 + r.lat * 2 ^ 48 + r.pn * 2 ^ 47 + r.psel * 2 ^ 44 + r.d * 2 ^ 33 +
    r.a * 2 ^ 22 + r.b * 2 ^ 11 + r.rnd * 2 ^ 8 + r.mod)

/-- Joins the fields into the second word. -/
def Raw.word1 (r : Raw) : DWord := BitVec.ofNat 64 (r.c * 2 ^ 53 + r.imm * 2 ^ 21 + r.ext)

/-- How an opcode uses an operand field. -/
inductive Use
  /-- unused: must be zero (R18) -/
  | no
  /-- vector source (R16) -/
  | vs
  /-- vector destination (R16) -/
  | vd
  /-- group of registers of the main file, as a destination or a source (R134) -/
  | vg (dst : Bool) (n : Nat)
  /-- first register of a pair of the main file, as a destination (R95) -/
  | vp
  /-- small number, below the bound: predicates (R74) and condition registers (R105) -/
  | low (n : Nat)
  /-- scalar, a multiple of `al`, at most `lim` (R17) -/
  | s (al : Nat) (lim : Nat)
  /-- special register (R17) -/
  | sr
  /-- no operand field: any value (R109) -/
  | raw
  deriving DecidableEq, Repr

/-- Plain scalar, pair and record operands of R17. -/
abbrev Use.sca : Use := .s 1 2047
abbrev Use.pair : Use := .s 2 2047
abbrev Use.quad : Use := .s 4 2047

/-- The cause with which an operand field is refused (R32 step 4: reserved value, allocation, alignment, special). -/
def Use.refuse (nv : Nat) (u : Use) (x : Nat) : Option Nat :=
  match u with
  | .no | .raw => none
  | .vs => if 1556 ≤ x && x < 1792 then some 3 else if x < 1536 && nv ≤ x then some 4 else none
  | .vd => if 1556 ≤ x then some 3 else if x < 1536 && nv ≤ x then some 4 else none
  | .vg dst n =>
    if 1556 ≤ x && (dst || x < 1792) then some 3
    else if x < 1536 && nv < x + n then some 4
    else if 1536 ≤ x || x % n ≠ 0 then some 5 else none
  | .vp => if 1556 ≤ x then some 3 else if x < 1536 && nv ≤ x then some 4 else if 1536 ≤ x || x % 2 ≠ 0 then some 5 else none
  | .low n => if n ≤ x then some 3 else none
  | .s al lim =>
    if 768 ≤ x || lim < x then some 3 else if x % al ≠ 0 then some 5 else if 512 ≤ x then some 0x0A else none
  | .sr => if 768 ≤ x then some 3 else if x < 512 || 532 ≤ x then some 0x0A else none

/-- What the encoding table of an opcode says: word form (0 T64, 1 T128, 2 either), operand fields, reserved sub-fields of
MOD and EXT as (position, refused) in the order they are reported, the MOD, IMM32 and EXT bits that are used, and the
latency bound (R21; 0 for class None). -/
structure Form where
  word : Nat := 0
  d : Use := .no
  a : Use := .no
  b : Use := .no
  c : Use := .no
  res : List (Nat × Bool) := []
  modU : Nat := 0
  immU : Nat := 0
  extU : Nat := 0
  bound : Nat := 0
  deriving Repr

/-- All 32 bits of IMM32. -/
abbrev allImm : Nat := 0xFFFFFFFF

/-- MOD[7:4] must hold one of the listed type codes. -/
def tyIn (r : Raw) (l : List Nat) : Nat × Bool := (4, !l.contains (bits r.mod 7 4))

def isFloatOp (r : Raw) : Bool := bits r.mod 7 4 == 8

/-- Reserved values of the memory modifiers of R133. -/
def memRes (r : Raw) (ch : Bool) : List (Nat × Bool) :=
  let t := bits r.mod 7 4
  let n := bits r.mod 1 0
  [(4, t == 6 || t == 7 || 11 ≤ t), (0, n == 3 || (n ≠ 0 && !(t == 0 || t == 1 || t == 8))), (2, ch && bits r.mod 3 2 == 3)]

/-- Data operand of a vector access by CNT (R134); the reserved code 3 names no group. -/
def memData (r : Raw) (dst : Bool) : Use :=
  match bits r.mod 1 0 with
  | 1 => .vg dst 2
  | 2 => .vg dst 4
  | _ => if dst then .vd else .vs

/-- The scope sub-field at `pos` with value `v` (R8). -/
def scopeRes (pos v : Nat) : Nat × Bool := (pos, 6 ≤ v)

/-- Reserved values of the operation and type of R262. -/
def atomRes (r : Raw) (top : Nat) : List (Nat × Bool) :=
  let op := bits r.mod 3 0
  [tyIn r [0, 1, 8], (0, top < op || (3 ≤ op && op ≤ 5 && isFloatOp r))]

/-- Reserved values of a map field of GATE at position `lsb`, with the map of the same direction before it (R186). -/
def mapRes (c : Limits) (ret : Bool) (lsb m : Nat) (before : Option Nat) : Nat × Bool :=
  let clash := match before with
    | some k => m < 31 && k < 31 && (c.maps[k]?.map (·.2)) == (c.maps[m]?.map (·.2))
    | none => false
  (64 + lsb, m ≠ 31 && (16 ≤ m || (c.maps[m]?.map (·.1)) != some ret || clash))

/-- Lane arithmetic shapes: destination and one, two or three vector sources. -/
def lane1 (bound : Nat) (res : List (Nat × Bool)) (modU : Nat) : Form := { d := .vd, a := .vs, res, modU, bound }
def lane2 (bound : Nat) (res : List (Nat × Bool)) (modU : Nat) : Form := { d := .vd, a := .vs, b := .vs, res, modU, bound }
def lane3 (bound : Nat) (res : List (Nat × Bool)) (modU : Nat) : Form :=
  { word := 1, d := .vd, a := .vs, b := .vs, c := .vs, res, modU, bound }
def sca3 (bound : Nat) (res : List (Nat × Bool)) (modU : Nat) : Form :=
  { d := .sca, a := .sca, b := .sca, res, modU, bound }

/-- PK with a 32-bit type (R75). -/
def pkRes (r : Raw) : Nat × Bool := (1, bit r.mod 1 && (bits r.mod 7 4 == 0 || bits r.mod 7 4 == 1))

/-- The encoding table of each opcode, none for a reserved cell (R30, R75, R79, R82, R88, R90, R96, R104, R106, R107, R118,
R119, R124 to R126, R129, R133, R147, R151, R153, R186, R212, R222, R227, R233, R241, R262, R271, R297, R332, R391, R394). A pair form of
SWR with a D other than 528 raises kind 0x01, cause 0x07, detail 1, for %time too: the model's choice (log entry 73). -/
def form (c : Limits) (r : Raw) : Option Form :=
  let ints := tyIn r [0, 1, 2, 3, 4, 5, 6, 7]
  let w32 := tyIn r [0, 1]
  let flt := tyIn r [8, 9, 10, 11, 12]
  let flt1 := tyIn r [8, 9, 10]
  let f32 := tyIn r [8]
  let pairs := tyIn r [11, 12]
  let lo := bits r.mod 3 0
  match r.op with
  | 0x001 | 0x002 | 0x003 => some (lane2 4 [ints, pkRes r] 0xF3)
  | 0x004 => some (lane2 4 [w32] 0xF0)
  | 0x005 => some (lane3 4 [ints, pkRes r] 0xF3)
  | 0x006 | 0x007 => some (lane2 4 [ints, pkRes r] 0xF2)
  | 0x008 | 0x009 => some (lane1 4 [tyIn r [0, 2, 4, 6], pkRes r] 0xF3)
  | 0x00A => some { d := .low 8, a := .vs, b := .vs, res := [ints, (0, 6 ≤ lo)], modU := 0xFF, bound := 4 }
  | 0x00B => some (lane2 4 [] 0x07)
  | 0x010 | 0x011 | 0x012 | 0x014 | 0x015 | 0x016 | 0x017 => some (lane2 4 [] 0)
  | 0x013 | 0x01A | 0x01B | 0x01C => some (lane1 4 [] 0)
  | 0x018 => some (lane2 4 [w32] 0xF0)
  | 0x019 => some (lane3 4 [] 0)
  | 0x020 | 0x021 | 0x022 | 0x024 | 0x025 => some (lane2 5 [flt] 0xF0)
  | 0x023 => some (lane3 5 [flt] 0xF0)
  | 0x026 => some { d := .low 8, a := .vs, b := .vs, res := [flt1, (0, 8 ≤ lo)], modU := 0xFF, bound := 5 }
  | 0x027 => some (lane1 5 [flt1] 0xF0)
  | 0x028 => some (lane1 5 [flt] 0xF1)
  | 0x029 => some (lane2 28 [f32] 0xF0)
  | 0x02A => some (lane1 28 [f32] 0xF0)
  | 0x030 | 0x031 | 0x032 | 0x033 | 0x034 | 0x035 | 0x036 | 0x037 => some (lane1 14 [f32] 0xF0)
  | 0x040 => some (lane1 5 [(4, 11 ≤ bits r.mod 7 4), (0, 11 ≤ lo || lo == bits r.mod 7 4)] 0xFF)
  | 0x041 => some (lane2 5 [pairs] 0xF0)
  | 0x042 => some (lane1 5 [pairs] 0xF1)
  | 0x043 => some (lane3 5 [pairs] 0xF0)
  | 0x044 => some (lane3 4 [tyIn r [4, 5, 6, 7]] 0xF3)
  | 0x045 =>
    if bits r.mod 7 4 == 4 then some (lane1 6 [tyIn r [4, 11, 12]] 0xF0)
    else some { (lane2 6 [tyIn r [4, 11, 12]] 0xF0) with d := if bits r.mod 7 4 == 11 || bits r.mod 7 4 == 12 then .vp else .vd }
  | 0x046 => some (lane2 4 [] 0x07)
  | 0x047 => some (lane1 4 [] 0)
  | 0x048 =>
    some { word := 1, d := .vd, res := [tyIn r [0, 1, 8, 9, 10, 11, 12]], modU := 0xF0, bound := 4,
           immU := if bits r.mod 7 4 == 9 || bits r.mod 7 4 == 10 then 0xFFFF else allImm }
  | 0x049 => some { d := .vd, a := if bit r.mod 0 then .s 1 480 else .sca, modU := 1, bound := 6 }
  | 0x04A => some { d := .sca, a := .vs, b := if bit r.mod 0 then .sca else .no, modU := 1, bound := 6 }
  | 0x100 | 0x101 | 0x102 => some (sca3 4 [w32] 0xF1)
  | 0x103 | 0x10B | 0x10C => some (sca3 4 [w32] 0xF0)
  | 0x104 | 0x105 | 0x106 | 0x108 | 0x109 | 0x10A => some (sca3 4 [] 0)
  | 0x107 | 0x10D => some { d := .sca, a := .sca, bound := 4 }
  | 0x10E => some { word := 1, d := .sca, immU := allImm, bound := 4 }
  | 0x10F =>
    some { d := .low 4, a := .sca, b := .sca, modU := 0xFF, bound := 4,
           res := [tyIn r [0, 1, 8], (0, (if isFloatOp r then 8 else 6) ≤ lo)] }
  | 0x110 => some (sca3 4 [] 0x03)
  | 0x111 | 0x112 => some (sca3 5 [f32] 0xF0)
  | 0x113 =>
    some { d := .sca, a := .sca, modU := 0xFF, bound := 5,
           res := [tyIn r [0, 1, 8], (0, !(lo == 0 || lo == 1 || lo == 8) || lo == bits r.mod 7 4)] }
  | 0x114 | 0x115 | 0x116 => some { d := .low 8, a := .low 8, b := .low 8, bound := 4 }
  | 0x117 | 0x118 => some { d := .low 8, a := .low 8, bound := 4 }
  | 0x119 => some { d := .low 8, a := .sca, bound := 4 }
  | 0x120 => some { word := 1, immU := allImm }
  | 0x121 => some { word := 1, modU := 0x07, immU := allImm }
  | 0x122 => some { word := 1, modU := 0x0F, immU := allImm }
  | 0x123 => some { modU := 0x0F }
  | 0x124 => some { word := 1, a := .vs, b := .s 1 (511 - bits r.ext 5 0), modU := 0x0F, immU := 0, extU := 0x3F }
  | 0x125 => some { word := 1, d := .pair, immU := allImm }
  | 0x126 => some { a := .pair }
  | 0x127 => some { word := 1, a := .sca, immU := allImm }
  | 0x128 | 0x129 | 0x12A | 0x137 => some {}
  | 0x12B => some { d := .raw, a := .raw, b := .raw, modU := 0xFF }
  | 0x130 => some { res := [(0, 5 ≤ bits r.mod 2 0)], modU := 0x07 }
  | 0x131 => some (lane2 6 [] 0x03)
  | 0x132 => some { d := .low 8, a := .low 8, res := [(0, bits r.mod 1 0 == 3)], modU := 0x03, bound := 6 }
  | 0x133 => some { d := .vd, a := .low 8, bound := 6 }
  | 0x134 | 0x135 =>
    let op := bits r.mod 2 0
    some (lane1 6 [(4, (tyIn r [0, 1, 8]).2 || (isFloatOp r && 3 ≤ op && op ≤ 5)), (0, 6 ≤ op)]
      (if r.op == 0x135 then 0xFF else 0xF7))
  | 0x136 | 0x13B => some { modU := 0xFF }
  | 0x138 =>
    let m := bits r.mod 1 0
    some { a := if m == 2 then .pair else .no, b := if m == 2 then .sca else .no, res := [(0, m == 3)], modU := 0x03 }
  | 0x139 =>
    some { d := if bit r.mod 1 then .pair else if bit r.mod 0 then .vd else .sca, a := .sr, modU := 0x03, bound := 4,
           res := [(1, bit r.mod 1 && (bit r.mod 0 || !(r.a == 528 || r.a == 530)))] }
  | 0x13A =>
    some { d := .sr, a := if bit r.mod 1 then .pair else .sca, modU := 0x02,
           res := [(1, if bit r.mod 1 then r.d ≠ 528 else r.d == 528 || r.d == 529)] }
  | 0x200 => some { word := 2, d := memData r true, a := .vs, b := .quad, res := memRes r true, modU := 0xFF, immU := allImm }
  | 0x201 => some { word := 2, d := memData r false, a := .vs, b := .quad, res := memRes r true, modU := 0xFF, immU := allImm }
  | 0x202 => some { word := 2, a := .vs, b := .quad, modU := 0x01, immU := allImm }
  | 0x203 | 0x204 =>
    let n := bits r.mod 1 0
    some { word := 2, d := if n == 3 then .sca else .s (2 ^ n) 2047, a := .sca, b := .quad, res := memRes r true,
           modU := 0xFF, immU := allImm }
  | 0x205 | 0x220 => some { word := 2, d := memData r true, a := .vs, res := memRes r false, modU := 0xF3, immU := allImm }
  | 0x206 | 0x221 => some { word := 2, d := memData r false, a := .vs, res := memRes r false, modU := 0xF3, immU := allImm }
  | 0x207 => some { a := .sca, b := .sca, res := [(0, c.ncb ≤ bits r.mod 2 0)], modU := 0x07 }
  | 0x208 => some { d := .sca, res := [(0, c.ncb ≤ bits r.mod 2 0)], modU := 0x0F }
  | 0x209 => some { a := .sca, res := [(0, c.ncb ≤ bits r.mod 2 0)], modU := 0x0F }
  | 0x20A =>
    some { word := 1, d := .vs, a := .vs, b := .quad, immU := allImm,
           extU := if bit r.ext 3 then 0x7F else 0x0F,
           res := [(64, bits r.ext 1 0 == 3), (67, bit r.ext 3 && bit r.ext 2),
                   (68, bit r.ext 3 && c.ncb ≤ bits r.ext 6 4)] }
  | 0x20B | 0x20C => some { modU := 0x07 }
  | 0x210 =>
    let n := bits r.mod 4 0
    let m i := bits r.ext (5 * i + 4) (5 * i)
    some { word := 1, d := .pair, a := if n == 0 then .no else .s 2 (512 - 2 * n), modU := 0x1F, immU := allImm, extU := 0xFFFFF,
           res := [(0, 17 ≤ n), mapRes c false 0 (m 0) none, mapRes c false 5 (m 1) (some (m 0)),
                   mapRes c true 10 (m 2) none, mapRes c true 15 (m 3) (some (m 2))] }
  | 0x211 => some { d := .sca, res := [scopeRes 0 (bits r.mod 2 0), (3, bits r.mod 5 3 == 0)], modU := 0x3F }
  | 0x212 => some { a := .sca }
  | 0x213 | 0x214 => some { res := [scopeRes 0 (bits r.mod 2 0)], modU := 0x07 }
  | 0x222 => some { res := [scopeRes 0 (bits r.mod 2 0), (3, 6 ≤ bits r.mod 5 3)], modU := 0x3F }
  | 0x223 => some { d := .sca, res := [scopeRes 0 (bits r.mod 2 0), (3, 6 ≤ bits r.mod 5 3)], modU := 0x3F }
  | 0x224 => some { a := .sca, res := [scopeRes 0 (bits r.mod 2 0), (3, 6 ≤ bits r.mod 5 3)], modU := 0x3F }
  | 0x225 | 0x226 =>
    some { d := if r.op == 0x226 then .vd else .vs, a := .sca, b := if bit r.mod 3 then .low 8 else .no,
           res := [scopeRes 0 (bits r.mod 2 0)], modU := 0x0F }
  | 0x227 =>
    if bit r.mod 0 then some { word := 1, d := .quad, modU := 0x07 }
    else some { word := 1, d := .sca, a := .pair, b := .sca, modU := 0x07, immU := allImm }
  | 0x230 =>
    some { word := 2, d := if bit r.ext 3 then .vd else .vs, a := .vs, b := .quad, modU := 0xFF, immU := allImm, extU := 0x0F,
           res := atomRes r 6 ++ [scopeRes 64 (bits r.ext 2 0)] }
  | 0x231 =>
    some { word := 1, d := .vd, a := .vs, b := .quad, c := .vs, modU := 0xF0, immU := allImm, extU := 0x07,
           res := [tyIn r [0, 1, 8], scopeRes 64 (bits r.ext 2 0)] }
  | 0x232 =>
    some { word := 2, d := .sca, a := .sca, b := .quad, modU := 0xFF, immU := allImm, extU := 0x0F,
           res := atomRes r 6 ++ [scopeRes 64 (bits r.ext 2 0)] }
  | 0x233 =>
    some { word := 1, d := .vg false 8, a := .vs, b := .quad, immU := allImm, extU := 0x07, res := [scopeRes 64 (bits r.ext 2 0)] }
  | 0x234 => some { d := .vg false 8, a := .vs, b := .quad }
  | 0x235 => some { a := .vs, b := .quad, res := [scopeRes 0 (bits r.mod 2 0)], modU := 0x07 }
  | 0x236 => some { d := .vd, a := .vs, b := .quad }
  | 0x240 =>
    let k := bits r.mod 3 2
    some { a := .pair, modU := if k == 1 then 0x3F else 0x0F,
           res := [(0, c.nsum ≤ bits r.mod 1 0), (2, k == 0),
                   (4, k == 1 && (bits r.mod 5 4 == 3 || (bits r.mod 5 4 == 2 && c.det)))] }
  | 0x241 => some { a := .vs, res := [(0, c.nsum ≤ bits r.mod 1 0)], modU := 0x03 }
  | 0x242 | 0x243 => some { a := .sca, b := .quad, res := [(0, c.nsum ≤ bits r.mod 1 0)], modU := 0x03 }
  | 0x244 => some { a := .sca, b := .quad, res := [(0, c.nsum ≤ bits r.mod 1 0), scopeRes 2 (bits r.mod 4 2)], modU := 0x1F }
  | 0x245 =>
    let dm := bits r.mod 3 2 == 3
    some { word := 2, d := .quad, a := if r.l == 1 || dm then .no else .sca, modU := 0x0F,
           immU := if dm then 0 else allImm, res := [(0, c.nsum ≤ bits r.mod 1 0)] }
  | 0x246 => some { word := 1, d := .sca, a := .sca, b := .quad, c := .sca, immU := allImm, extU := 0x0F }
  | 0x247 =>
    let bar := lo == 7
    let v := if bar then Use.no else .vs
    some { word := 1, d := v, a := v, b := v, c := .sca, modU := if bar then 0x0F else 0xFF,
           immU := if bar then 0 else allImm, extU := 0xFFF,
           res := [(4, !bar && (tyIn r [0, 1, 8]).2), (0, (3 ≤ lo && lo ≤ 6) || 8 ≤ lo),
                   (64, bits r.ext 8 0 % 2 == 1), (73, !(bits r.ext 11 9 == 3 || bits r.ext 11 9 == 4))] }
  | 0x248 => some { word := 2, d := memData r true, a := .vs, b := .quad, res := memRes r false, modU := 0xF3, immU := allImm }
  | 0x249 => some { word := 2, d := memData r false, a := .vs, b := .quad, res := memRes r false, modU := 0xF3, immU := allImm }
  | 0x24A =>
    some { word := 1, d := .vs, a := .vs, b := .quad, modU := 0xFF, immU := allImm, extU := 0x07,
           res := atomRes r 5 ++ [(64, !(bits r.ext 2 0 == 3 || bits r.ext 2 0 == 4))] }
  | _ => none

/-- The wave-level opcodes of R19, which take PSEL = 7 and PN = 0. -/
def waveLevel (op : Nat) : Bool :=
  (0x100 ≤ op && op ≤ 0x113) || op == 0x120 || op == 0x121 || op == 0x123 || op == 0x125 || op == 0x126 || op == 0x127 ||
  op == 0x129 || op == 0x12A || op == 0x12B || op == 0x130 || (0x136 ≤ op && op ≤ 0x13B) || op == 0x203 || op == 0x204 ||
  (0x207 ≤ op && op ≤ 0x209) || op == 0x20B || op == 0x20C || (0x210 ≤ op && op ≤ 0x214) ||
  (0x222 ≤ op && op ≤ 0x224) || op == 0x227 || op == 0x232 || op == 0x240 || (0x242 ≤ op && op ≤ 0x246)

/-- Whether an opcode of this latency bound takes a rounding selector (R23, R82, R90, R104). -/
def rndUsed (op bound : Nat) : Bool := (bound == 5 || bound == 14 || bound == 28) && op ≠ 0x044

/-- Illegal instruction with a cause and its qualifier (R33). -/
def ill (cause hi : Nat) : DecErr := { kind := 0x01, cause, hi }

/-- Non-zero unused bits of a field at `pos`. -/
def unused (pos x used : Nat) : Option DecErr :=
  (lowestBit (x &&& (0xFFFFFFFF ^^^ used)) 32).map fun i => { kind := 0x02, cause := 0x09, hi := pos + i }

/-- An unused operand field at `pos`. -/
def unusedOp (u : Use) (pos x : Nat) : Option DecErr :=
  match u with
  | .no => unused pos x 0
  | _ => none

/-- The operand checks of R32 step 4, in the order D, A, B, C. -/
def refuseOps (c : Limits) (f : Form) (r : Raw) : Option DecErr :=
  ((f.d.refuse c.nv r.d).map fun k => ill k 0) <|> ((f.a.refuse c.nv r.a).map fun k => ill k 1) <|>
  ((f.b.refuse c.nv r.b).map fun k => ill k 2) <|> ((f.c.refuse c.nv r.c).map fun k => ill k 3)

/-- Whether a source operand names the l-file (R21). -/
def lSource (f : Form) (r : Raw) : Bool :=
  let l (u : Use) (x : Nat) := u == .vs && 1552 ≤ x && x < 1556
  l f.a r.a || l f.b r.b || l f.c r.c

/-- The least legal LAT (R21). -/
def minLat (f : Form) (r : Raw) : Nat := if lSource f r then f.bound - 2 else f.bound

/-- Step 8 of R32: the first field, in its order, with non-zero unused bits. -/
def refuseUnused (f : Form) (r : Raw) : Option DecErr :=
  (if f.bound = 0 then unused 48 r.lat 0 else none) <|>
  (if waveLevel r.op then unused 44 ((r.psel ^^^ 7) + 8 * r.pn) 0 else none) <|>
  unusedOp f.d 33 r.d <|> unusedOp f.a 22 r.a <|> unusedOp f.b 11 r.b <|> unusedOp f.c 117 r.c <|>
  (if rndUsed r.op f.bound then none else unused 8 r.rnd 0) <|>
  unused 0 r.mod f.modU <|> unused 85 r.imm f.immU <|> unused 64 r.ext f.extU

/-- Steps 2 to 8 of R32. -/
def refuse (c : Limits) (r : Raw) : Option DecErr :=
  match form c r with
  | none => some (ill 0x01 0)
  | some f =>
    if (f.word = 0 && r.l = 1) || (f.word = 1 && r.l = 0) then some (ill 0x02 0) else
    refuseOps c f r <|>
    (if rndUsed r.op f.bound && 6 ≤ r.rnd then some (ill 0x06 0) else none) <|>
    ((f.res.find? (·.2)).map fun p => ill 0x07 p.1) <|>
    (if f.bound ≠ 0 && r.lat < minLat f r then some (ill 0x08 (minLat f r)) else none) <|>
    refuseUnused f r

/-- The guard fields. -/
def Raw.guard (r : Raw) : Guard := { p := r.psel, neg := r.pn == 1 }

def Raw.hdr (r : Raw) : Hdr := { lat := r.lat, g := r.guard }

/-- IMM32 as the second word holds it, none in the T64 form (R15). -/
def Raw.off (r : Raw) : Option Word := if r.l = 1 then some (BitVec.ofNat 32 r.imm) else none

/-- The atomic's second word: offset, scope and RET (R262). -/
def Raw.atomExt (r : Raw) : Option (Word × Scope × Bool) :=
  if r.l = 1 then some (BitVec.ofNat 32 r.imm, scopeOf (bits r.ext 2 0), bit r.ext 3) else none

/-- NB's predicate (R233). -/
def Raw.nb (r : Raw) : Option Nat := if bit r.mod 3 then some r.b else none

/-- The instruction of a word that has passed every check. -/
def build (r : Raw) : Option Instr :=
  let h := r.hdr
  let g := r.guard
  let d := vopOf r.d
  let a := vopOf r.a
  let b := vopOf r.b
  let e := vopOf r.c
  let t := tyOf (bits r.mod 7 4)
  let lo := bits r.mod 3 0
  let sat := bit r.mod 0
  let pk := bit r.mod 1
  let rd := rndOf r.rnd
  let imm : Word := BitVec.ofNat 32 r.imm
  let cnt := bits r.mod 1 0
  let ch := bits r.mod 3 2
  let sc := scopeOf (bits r.mod 2 0)
  let tgt := barOf (bits r.mod 5 3)
  match r.op with
  | 0x001 => some (.viadd h t sat pk d a b)
  | 0x002 => some (.visub h t sat pk d a b)
  | 0x003 => some (.vimul h t sat pk d a b)
  | 0x004 => some (.vimulh h t d a b)
  | 0x005 => some (.vimad h t sat pk d a b e)
  | 0x006 => some (.vimin h t pk d a b)
  | 0x007 => some (.vimax h t pk d a b)
  | 0x008 => some (.viabs h t sat pk d a)
  | 0x009 => some (.vineg h t sat pk d a)
  | 0x00A => some (.vicmp h t (icondOf lo) r.d a b)
  | 0x00B => some (.vlea h (bits r.mod 2 0) d a b)
  | 0x010 => some (.vand h d a b)
  | 0x011 => some (.vor h d a b)
  | 0x012 => some (.vxor h d a b)
  | 0x013 => some (.vnot h d a)
  | 0x014 => some (.vshl h d a b)
  | 0x015 => some (.vshr h d a b)
  | 0x016 => some (.vsar h d a b)
  | 0x017 => some (.vrot h d a b)
  | 0x018 => some (.vbfx h t d a b)
  | 0x019 => some (.vbfi h d a b e)
  | 0x01A => some (.vpopc h d a)
  | 0x01B => some (.vclz h d a)
  | 0x01C => some (.vbrev h d a)
  | 0x020 => some (.vfadd h rd t d a b)
  | 0x021 => some (.vfsub h rd t d a b)
  | 0x022 => some (.vfmul h rd t d a b)
  | 0x023 => some (.vfma h rd t d a b e)
  | 0x024 => some (.vfmin h rd t d a b)
  | 0x025 => some (.vfmax h rd t d a b)
  | 0x026 => some (.vfcmp h rd t (fcondOf lo) r.d a b)
  | 0x027 => some (.vfclass h rd t d a)
  | 0x028 => some (.vfrint h rd t sat d a)
  | 0x029 => some (.vfdiv h rd d a b)
  | 0x02A => some (.vfsqrt h rd d a)
  | 0x030 => some (.vfrcp h rd d a)
  | 0x031 => some (.vfrsq h rd d a)
  | 0x032 => some (.vfexp h rd d a)
  | 0x033 => some (.vfexp2 h rd d a)
  | 0x034 => some (.vflog2 h rd d a)
  | 0x035 => some (.vfsin h rd d a)
  | 0x036 => some (.vfcos h rd d a)
  | 0x037 => some (.vftanh h rd d a)
  | 0x040 => some (.vcvt h rd t (tyOf lo) d a)
  | 0x041 => some (.vpack h rd t d a b)
  | 0x042 => some (.vunpack h rd t sat d a)
  | 0x043 => some (.vdot2 h rd t d a b e)
  | 0x044 => some (.vdot4 h t sat pk d a b e)
  | 0x045 => some (.vcmprs h t d a (if t = .i8 then none else some b))
  | 0x046 => some (.vsel h (bits r.mod 2 0) d a b)
  | 0x047 => some (.vmov h d a)
  | 0x048 => some (.vmovi h t d imm)
  | 0x049 => some (.s2v h sat d r.a)
  | 0x04A => some (.v2s h r.d a (if sat then some r.b else none))
  | 0x100 => some (.sadd r.lat t sat r.d r.a r.b)
  | 0x101 => some (.ssub r.lat t sat r.d r.a r.b)
  | 0x102 => some (.smul r.lat t sat r.d r.a r.b)
  | 0x103 => some (.smulh r.lat t r.d r.a r.b)
  | 0x104 => some (.sand r.lat r.d r.a r.b)
  | 0x105 => some (.sor r.lat r.d r.a r.b)
  | 0x106 => some (.sxor r.lat r.d r.a r.b)
  | 0x107 => some (.snot r.lat r.d r.a)
  | 0x108 => some (.sshl r.lat r.d r.a r.b)
  | 0x109 => some (.sshr r.lat r.d r.a r.b)
  | 0x10A => some (.ssar r.lat r.d r.a r.b)
  | 0x10B => some (.smin r.lat t r.d r.a r.b)
  | 0x10C => some (.smax r.lat t r.d r.a r.b)
  | 0x10D => some (.smov r.lat r.d r.a)
  | 0x10E => some (.smovi r.lat r.d imm)
  | 0x10F => some (.scmp r.lat t (scondOf t lo) r.d r.a r.b)
  | 0x110 => some (.ssel r.lat r.d r.a r.b (bits r.mod 1 0))
  | 0x111 => some (.sfadd r.lat rd r.d r.a r.b)
  | 0x112 => some (.sfmul r.lat rd r.d r.a r.b)
  | 0x113 => some (.scvt r.lat rd t (tyOf lo) r.d r.a)
  | 0x114 => some (.pand h r.d r.a r.b)
  | 0x115 => some (.por h r.d r.a r.b)
  | 0x116 => some (.pxor h r.d r.a r.b)
  | 0x117 => some (.pnot h r.d r.a)
  | 0x118 => some (.pmov h r.d r.a)
  | 0x119 => some (.pbal h r.d r.a)
  | 0x120 => some (.bra imm)
  | 0x121 => some (.brc (bits r.mod 1 0) (bit r.mod 2) imm)
  | 0x122 => some (.brx g lo imm)
  | 0x123 => some (.join lo)
  | 0x124 => some (.jmpt g lo a r.b (bits r.ext 5 0 + 1))
  | 0x125 => some (.call r.d imm)
  | 0x126 => some (.ret r.a)
  | 0x127 => some (.loop r.a imm)
  | 0x128 => some (.exit g)
  | 0x129 => some .yield
  | 0x12A => some .nop
  | 0x12B => some (.waitc r.d r.a r.b r.mod)
  | 0x130 => some (.spart (bits r.mod 2 0))
  | 0x131 => some (.vshfl h (shflOf (bits r.mod 1 0)) d a b)
  | 0x132 => some (.vvote h (voteOf (bits r.mod 1 0)) r.d r.a)
  | 0x133 => some (.vbal h d r.a)
  | 0x134 => some (.vred h t (redOf (bits r.mod 2 0)) d a)
  | 0x135 => some (.vscan h t (redOf (bits r.mod 2 0)) (bit r.mod 3) d a)
  | 0x136 => some (.trap r.mod)
  | 0x137 => some .tfence
  | 0x138 =>
    match bits r.mod 1 0 with
    | 0 => some .rftRestart
    | 1 => some .rftNext
    | _ => some (.rftRedir r.a r.b)
  | 0x139 =>
    if bit r.mod 1 then some (.srd r.lat .pair (.v 0) r.d r.a)
    else if bit r.mod 0 then some (.srd r.lat .vector d 0 r.a)
    else some (.srd r.lat .scalar (.v 0) r.d r.a)
  | 0x13A => some (.swr pk r.d r.a)
  | 0x13B => some (.bkpt r.mod)
  | 0x200 => some (.vld g t cnt ch d r.b a r.off)
  | 0x201 => some (.vst g t cnt ch d r.b a r.off)
  | 0x202 => some (.vpref g sat r.b a r.off)
  | 0x203 => some (.sld t cnt ch r.d r.b r.a r.off)
  | 0x204 => some (.sst t cnt ch r.d r.b r.a r.off)
  | 0x205 => some (.ldl g t cnt d a r.off)
  | 0x206 => some (.stl g t cnt d a r.off)
  | 0x207 => some (.cbinit (bits r.mod 2 0) r.a r.b)
  | 0x208 => some (if bit r.mod 3 then .cbacqFree (bits r.mod 2 0) r.d else .cbacqFull (bits r.mod 2 0) r.d)
  | 0x209 => some (if bit r.mod 3 then .cbrelFree (bits r.mod 2 0) r.a else .cbrelFull (bits r.mod 2 0) r.a)
  | 0x20A =>
    some (.cpy g (bits r.ext 1 0) (bit r.ext 2) (if bit r.ext 3 then some (bits r.ext 6 4) else none) d r.b a imm)
  | 0x20B => some (.cseal (bits r.mod 2 0))
  | 0x20C => some (.cwait (bits r.mod 2 0))
  | 0x210 =>
    some (.gate r.d r.a (bits r.mod 4 0) imm (bits r.ext 4 0) (bits r.ext 9 5) (bits r.ext 14 10) (bits r.ext 19 15))
  | 0x211 => some (.fence (bit r.mod 3) (bit r.mod 4) (bit r.mod 5) r.d sc)
  | 0x212 => some (.fwait r.a)
  | 0x213 => some (.rel sc)
  | 0x214 => some (.acq sc)
  | 0x220 => some (.ldc g t cnt d a r.off)
  | 0x221 => some (.stc g t cnt d a r.off)
  | 0x222 => some (.bar tgt sc)
  | 0x223 => some (.bara r.d tgt sc)
  | 0x224 => some (.barw r.a tgt sc)
  | 0x225 => some (.qpush g r.nb sc d r.a)
  | 0x226 => some (.qpop g r.nb sc d r.a)
  | 0x227 => some (if bit r.mod 0 then .tloopNext r.d (bits r.mod 2 1) else .tloopInit r.d r.a r.b imm)
  | 0x230 => some (.vatom g (atomOf lo) t d r.b a r.atomExt)
  | 0x231 => some (.vcas g t d r.b a e imm (scopeOf (bits r.ext 2 0)))
  | 0x232 => some (.satom (atomOf lo) t r.d r.b r.a r.atomExt)
  | 0x233 => some (.cellset g d r.b a imm (scopeOf (bits r.ext 2 0)))
  | 0x234 => some (.cellput g d r.b a)
  | 0x235 => some (.cellclr g r.b a sc)
  | 0x236 => some (.cellq g d r.b a)
  | 0x240 => some (.suminit (sumKindOf (bits r.mod 3 2)) (bits r.mod 5 4) cnt r.a)
  | 0x241 => some (.sumadd g cnt a)
  | 0x242 => some (.sumld cnt r.b r.a)
  | 0x243 => some (.sumst cnt r.b r.a)
  | 0x244 => some (.summrg cnt r.b r.a (scopeOf (bits r.mod 4 2)))
  | 0x245 => some (.sumqry (sumModeOf (bits r.mod 3 2)) r.d cnt r.a r.off)
  | 0x246 => some (.enq r.d r.a r.b r.c imm (bits r.ext 3 0 + 1))
  | 0x247 =>
    some (if lo = 7 then .collBar g r.c (bits r.ext 8 0) (scopeOf (bits r.ext 11 9))
      else .coll g (atomOf lo) t d a b r.c imm (bits r.ext 8 0) (scopeOf (bits r.ext 11 9)))
  | 0x248 => some (.rld g t cnt d r.b a r.off)
  | 0x249 => some (.rst g t cnt d r.b a r.off)
  | 0x24A => some (.rred g (atomOf lo) t d r.b a imm (scopeOf (bits r.ext 2 0)))
  | _ => none

/-- Decodes fields: the instruction, or the refusal of R32 and R33. -/
def decodeRaw (c : Limits) (r : Raw) : Except DecErr Instr :=
  match refuse c r with
  | some e => .error e
  | none =>
    match build r with
    | some i => .ok i
    | none => .error (ill 0x01 0)

/-- Decodes one thread-set instruction from its two words (the second is ignored when L = 0). -/
def decodeThread (c : Limits) (w0 w1 : DWord) : Except DecErr Instr := decodeRaw c (Raw.ofWords w0 w1)

/-- Whether four raw words meet the conditions of R99 that lie outside R32. -/
def fusedChain (r1 r2 r3 r4 : Raw) : Bool :=
  let g (r : Raw) := (r.psel, r.pn)
  r1.op == 0x134 && bits r1.mod 2 0 == 2 && isFloatOp r1 && r2.op == 0x021 && isFloatOp r2 && r3.op == 0x032 &&
  r4.op == 0x134 && bits r4.mod 2 0 == 0 && isFloatOp r4 &&
  g r1 == g r2 && g r1 == g r3 && g r1 == g r4 && r2.b == r1.d && r3.a == r2.d && r4.a == r3.d && r4.lat == 31

/-- Whether the first words of a sequence meet those of R99's conditions that concern them alone: the next one is fetched to decide. -/
def fusedPrefix (c : Limits) (ws : List DWord) : Bool :=
  let rs := ws.map fun w => Raw.ofWords w 0
  let g (r : Raw) := (r.psel, r.pn)
  let first (r : Raw) : Bool := r.op == 0x134 && bits r.mod 2 0 == 2 && isFloatOp r
  let second (r x : Raw) : Bool := x.op == 0x021 && isFloatOp x && g x == g r && x.b == r.d
  let third (r x : Raw) : Bool := x.op == 0x032 && g x == g r && x.a == r.d
  (rs.all fun r => (refuse c r).isNone) &&
  match rs with
  | [r1] => first r1
  | [r1, r2] => first r1 && second r1 r2
  | [r1, r2, r3] => first r1 && second r1 r2 && third r2 r3
  | _ => false

/-- The fused softmax sequence (R99), none when a condition fails. -/
def decodeFused (c : Limits) (w1 w2 w3 w4 : DWord) : Option FusedOps :=
  let r1 := Raw.ofWords w1 0
  let r2 := Raw.ofWords w2 0
  let r3 := Raw.ofWords w3 0
  let r4 := Raw.ofWords w4 0
  if fusedChain r1 r2 r3 r4 && [r1, r2, r3, r4].all fun r => (refuse c r).isNone then
    some { g := r1.guard, d1 := vopOf r1.d, a1 := vopOf r1.a, rnd2 := rndOf r2.rnd, d2 := vopOf r2.d, a2 := vopOf r2.a,
           d3 := vopOf r3.d, d4 := vopOf r4.d }
  else none

/-! ### The thread-set encoder, from the same tables -/

def Raw.withHdr (r : Raw) (h : Hdr) : Raw := { r with lat := h.lat, psel := h.g.p, pn := b1 h.g.neg }
def Raw.withGuard (r : Raw) (g : Guard) : Raw := { r with psel := g.p, pn := b1 g.neg }

/-- Adds the second word's IMM32 where there is one. -/
def Raw.withOff (r : Raw) : Option Word → Raw
  | none => r
  | some v => { r with l := 1, imm := v.toNat }

def Raw.withAtom (r : Raw) : Option (Word × Scope × Bool) → Raw
  | none => r
  | some (v, s, ret) => { r with l := 1, imm := v.toNat, ext := s.code + 8 * b1 ret }

/-- Lane-wise fields with two sources. -/
def raw2 (op : Nat) (h : Hdr) (d a b : Nat) (mod : Nat) (rnd : Nat := 0) : Raw :=
  Raw.withHdr { op, d, a, b, mod, rnd } h

def raw3 (op : Nat) (h : Hdr) (d a b c : Nat) (mod : Nat) (rnd : Nat := 0) : Raw :=
  Raw.withHdr { op, l := 1, d, a, b, c, mod, rnd } h

def tm (t : Ty) (lo : Nat) : Nat := 16 * t.code + lo

/-- The fields of a thread-set instruction; none for what is no thread-set word. -/
def fieldsOf : Instr → Option Raw
  | .viadd h t sat pk d a b => some (raw2 0x001 h d.code a.code b.code (tm t (b1 sat + 2 * b1 pk)))
  | .visub h t sat pk d a b => some (raw2 0x002 h d.code a.code b.code (tm t (b1 sat + 2 * b1 pk)))
  | .vimul h t sat pk d a b => some (raw2 0x003 h d.code a.code b.code (tm t (b1 sat + 2 * b1 pk)))
  | .vimulh h t d a b => some (raw2 0x004 h d.code a.code b.code (tm t 0))
  | .vimad h t sat pk d a b e => some (raw3 0x005 h d.code a.code b.code e.code (tm t (b1 sat + 2 * b1 pk)))
  | .vimin h t pk d a b => some (raw2 0x006 h d.code a.code b.code (tm t (2 * b1 pk)))
  | .vimax h t pk d a b => some (raw2 0x007 h d.code a.code b.code (tm t (2 * b1 pk)))
  | .viabs h t sat pk d a => some (raw2 0x008 h d.code a.code 0 (tm t (b1 sat + 2 * b1 pk)))
  | .vineg h t sat pk d a => some (raw2 0x009 h d.code a.code 0 (tm t (b1 sat + 2 * b1 pk)))
  | .vicmp h t cc p a b => some (raw2 0x00A h p a.code b.code (tm t cc.code))
  | .vlea h sh d a b => some (raw2 0x00B h d.code a.code b.code sh)
  | .vand h d a b => some (raw2 0x010 h d.code a.code b.code 0)
  | .vor h d a b => some (raw2 0x011 h d.code a.code b.code 0)
  | .vxor h d a b => some (raw2 0x012 h d.code a.code b.code 0)
  | .vnot h d a => some (raw2 0x013 h d.code a.code 0 0)
  | .vshl h d a b => some (raw2 0x014 h d.code a.code b.code 0)
  | .vshr h d a b => some (raw2 0x015 h d.code a.code b.code 0)
  | .vsar h d a b => some (raw2 0x016 h d.code a.code b.code 0)
  | .vrot h d a b => some (raw2 0x017 h d.code a.code b.code 0)
  | .vbfx h t d a b => some (raw2 0x018 h d.code a.code b.code (tm t 0))
  | .vbfi h d a b e => some (raw3 0x019 h d.code a.code b.code e.code 0)
  | .vpopc h d a => some (raw2 0x01A h d.code a.code 0 0)
  | .vclz h d a => some (raw2 0x01B h d.code a.code 0 0)
  | .vbrev h d a => some (raw2 0x01C h d.code a.code 0 0)
  | .vfadd h r t d a b => some (raw2 0x020 h d.code a.code b.code (tm t 0) r.code)
  | .vfsub h r t d a b => some (raw2 0x021 h d.code a.code b.code (tm t 0) r.code)
  | .vfmul h r t d a b => some (raw2 0x022 h d.code a.code b.code (tm t 0) r.code)
  | .vfma h r t d a b e => some (raw3 0x023 h d.code a.code b.code e.code (tm t 0) r.code)
  | .vfmin h r t d a b => some (raw2 0x024 h d.code a.code b.code (tm t 0) r.code)
  | .vfmax h r t d a b => some (raw2 0x025 h d.code a.code b.code (tm t 0) r.code)
  | .vfcmp h r t cc p a b => some (raw2 0x026 h p a.code b.code (tm t cc.code) r.code)
  | .vfclass h r t d a => some (raw2 0x027 h d.code a.code 0 (tm t 0) r.code)
  | .vfrint h r t x d a => some (raw2 0x028 h d.code a.code 0 (tm t (b1 x)) r.code)
  | .vfdiv h r d a b => some (raw2 0x029 h d.code a.code b.code 0x80 r.code)
  | .vfsqrt h r d a => some (raw2 0x02A h d.code a.code 0 0x80 r.code)
  | .vfrcp h r d a => some (raw2 0x030 h d.code a.code 0 0x80 r.code)
  | .vfrsq h r d a => some (raw2 0x031 h d.code a.code 0 0x80 r.code)
  | .vfexp h r d a => some (raw2 0x032 h d.code a.code 0 0x80 r.code)
  | .vfexp2 h r d a => some (raw2 0x033 h d.code a.code 0 0x80 r.code)
  | .vflog2 h r d a => some (raw2 0x034 h d.code a.code 0 0x80 r.code)
  | .vfsin h r d a => some (raw2 0x035 h d.code a.code 0 0x80 r.code)
  | .vfcos h r d a => some (raw2 0x036 h d.code a.code 0 0x80 r.code)
  | .vftanh h r d a => some (raw2 0x037 h d.code a.code 0 0x80 r.code)
  | .vcvt h r td ts d a => some (raw2 0x040 h d.code a.code 0 (tm td ts.code) r.code)
  | .vpack h r t d a b => some (raw2 0x041 h d.code a.code b.code (tm t 0) r.code)
  | .vunpack h r t e d a => some (raw2 0x042 h d.code a.code 0 (tm t (b1 e)) r.code)
  | .vdot2 h r t d a b e => some (raw3 0x043 h d.code a.code b.code e.code (tm t 0) r.code)
  | .vdot4 h t sat mix d a b e => some (raw3 0x044 h d.code a.code b.code e.code (tm t (b1 sat + 2 * b1 mix)))
  | .vcmprs h t d a b => some (raw2 0x045 h d.code a.code (match b with | none => 0 | some x => x.code) (tm t 0))
  | .vsel h n d a b => some (raw2 0x046 h d.code a.code b.code n)
  | .vmov h d a => some (raw2 0x047 h d.code a.code 0 0)
  | .vmovi h t d imm => some { (raw3 0x048 h d.code 0 0 0 (tm t 0)) with imm := imm.toNat }
  | .s2v h idx d a => some (raw2 0x049 h d.code a 0 (b1 idx))
  | .v2s h d a b => some (raw2 0x04A h d a.code (b.getD 0) (b1 b.isSome))
  | .sadd lat t sat d a b => some { op := 0x100, lat, d, a, b, mod := tm t (b1 sat) }
  | .ssub lat t sat d a b => some { op := 0x101, lat, d, a, b, mod := tm t (b1 sat) }
  | .smul lat t sat d a b => some { op := 0x102, lat, d, a, b, mod := tm t (b1 sat) }
  | .smulh lat t d a b => some { op := 0x103, lat, d, a, b, mod := tm t 0 }
  | .sand lat d a b => some { op := 0x104, lat, d, a, b }
  | .sor lat d a b => some { op := 0x105, lat, d, a, b }
  | .sxor lat d a b => some { op := 0x106, lat, d, a, b }
  | .snot lat d a => some { op := 0x107, lat, d, a }
  | .sshl lat d a b => some { op := 0x108, lat, d, a, b }
  | .sshr lat d a b => some { op := 0x109, lat, d, a, b }
  | .ssar lat d a b => some { op := 0x10A, lat, d, a, b }
  | .smin lat t d a b => some { op := 0x10B, lat, d, a, b, mod := tm t 0 }
  | .smax lat t d a b => some { op := 0x10C, lat, d, a, b, mod := tm t 0 }
  | .smov lat d a => some { op := 0x10D, lat, d, a }
  | .smovi lat d imm => some { op := 0x10E, l := 1, lat, d, imm := imm.toNat }
  | .scmp lat t cc n a b => some { op := 0x10F, lat, d := n, a, b, mod := tm t cc.code }
  | .ssel lat d a b n => some { op := 0x110, lat, d, a, b, mod := n }
  | .sfadd lat r d a b => some { op := 0x111, lat, d, a, b, mod := 0x80, rnd := r.code }
  | .sfmul lat r d a b => some { op := 0x112, lat, d, a, b, mod := 0x80, rnd := r.code }
  | .scvt lat r td ts d a => some { op := 0x113, lat, d, a, mod := tm td ts.code, rnd := r.code }
  | .pand h d a b => some (raw2 0x114 h d a b 0)
  | .por h d a b => some (raw2 0x115 h d a b 0)
  | .pxor h d a b => some (raw2 0x116 h d a b 0)
  | .pnot h d a => some (raw2 0x117 h d a 0 0)
  | .pmov h d a => some (raw2 0x118 h d a 0 0)
  | .pbal h d a => some (raw2 0x119 h d a 0 0)
  | .bra imm => some { op := 0x120, l := 1, imm := imm.toNat }
  | .brc n neg imm => some { op := 0x121, l := 1, mod := n + 4 * b1 neg, imm := imm.toNat }
  | .brx g k imm => some (Raw.withGuard { op := 0x122, l := 1, mod := k, imm := imm.toNat } g)
  | .join k => some { op := 0x123, mod := k }
  | .jmpt g k a b n => some (Raw.withGuard { op := 0x124, l := 1, a := a.code, b, mod := k, ext := n - 1 } g)
  | .call d imm => some { op := 0x125, l := 1, d, imm := imm.toNat }
  | .ret a => some { op := 0x126, a }
  | .loop a imm => some { op := 0x127, l := 1, a, imm := imm.toNat }
  | .exit g => some (Raw.withGuard { op := 0x128 } g)
  | .yield => some { op := 0x129 }
  | .nop => some { op := 0x12A }
  | .waitc lc sc kc xc => some { op := 0x12B, d := lc, a := sc, b := kc, mod := xc }
  | .spart n => some { op := 0x130, mod := n }
  | .vshfl h m d a b => some (raw2 0x131 h d.code a.code b.code m.code)
  | .vvote h m d a => some (raw2 0x132 h d a 0 m.code)
  | .vbal h d a => some (raw2 0x133 h d.code a 0 0)
  | .vred h t op d a => some (raw2 0x134 h d.code a.code 0 (tm t op.code))
  | .vscan h t op x d a => some (raw2 0x135 h d.code a.code 0 (tm t (op.code + 8 * b1 x)))
  | .trap n => some { op := 0x136, mod := n }
  | .tfence => some { op := 0x137 }
  | .rftRestart => some { op := 0x138 }
  | .rftNext => some { op := 0x138, mod := 1 }
  | .rftRedir a b => some { op := 0x138, a, b, mod := 2 }
  | .srd lat f dv ds a =>
    match f with
    | .scalar => some { op := 0x139, lat, d := ds, a }
    | .vector => some { op := 0x139, lat, d := dv.code, a, mod := 1 }
    | .pair => some { op := 0x139, lat, d := ds, a, mod := 2 }
  | .swr pair d a => some { op := 0x13A, d, a, mod := 2 * b1 pair }
  | .bkpt n => some { op := 0x13B, mod := n }
  | .vld g t cnt ch d b a off =>
    some ((Raw.withGuard { op := 0x200, d := d.code, a := a.code, b, mod := tm t (cnt + 4 * ch) } g).withOff off)
  | .vst g t cnt ch d b a off =>
    some ((Raw.withGuard { op := 0x201, d := d.code, a := a.code, b, mod := tm t (cnt + 4 * ch) } g).withOff off)
  | .vpref g l2 b a off => some ((Raw.withGuard { op := 0x202, a := a.code, b, mod := b1 l2 } g).withOff off)
  | .sld t cnt ch d b a off => some (Raw.withOff { op := 0x203, d, a, b, mod := tm t (cnt + 4 * ch) } off)
  | .sst t cnt ch d b a off => some (Raw.withOff { op := 0x204, d, a, b, mod := tm t (cnt + 4 * ch) } off)
  | .ldl g t cnt d a off => some ((Raw.withGuard { op := 0x205, d := d.code, a := a.code, mod := tm t cnt } g).withOff off)
  | .stl g t cnt d a off => some ((Raw.withGuard { op := 0x206, d := d.code, a := a.code, mod := tm t cnt } g).withOff off)
  | .cbinit n a b => some { op := 0x207, a, b, mod := n }
  | .cbacqFull n d => some { op := 0x208, d, mod := n }
  | .cbacqFree n d => some { op := 0x208, d, mod := n + 8 }
  | .cbrelFull n a => some { op := 0x209, a, mod := n }
  | .cbrelFree n a => some { op := 0x209, a, mod := n + 8 }
  | .cpy g sz out cb d b a imm =>
    some (Raw.withGuard { op := 0x20A, l := 1, d := d.code, a := a.code, b, imm := imm.toNat, ext := sz + 4 * b1 out + (match cb with | none => 0 | some n => 8 + 16 * n) } g)
  | .cseal n => some { op := 0x20B, mod := n }
  | .cwait n => some { op := 0x20C, mod := n }
  | .gate d a n imm i0 i1 o0 o1 =>
    some { op := 0x210, l := 1, d, a, mod := n, imm := imm.toNat, ext := i0 + 32 * i1 + 1024 * o0 + 32768 * o1 }
  | .fence ld st cp d s => some { op := 0x211, d, mod := s.code + 8 * b1 ld + 16 * b1 st + 32 * b1 cp }
  | .fwait a => some { op := 0x212, a }
  | .rel s => some { op := 0x213, mod := s.code }
  | .acq s => some { op := 0x214, mod := s.code }
  | .ldc g t cnt d a off => some ((Raw.withGuard { op := 0x220, d := d.code, a := a.code, mod := tm t cnt } g).withOff off)
  | .stc g t cnt d a off => some ((Raw.withGuard { op := 0x221, d := d.code, a := a.code, mod := tm t cnt } g).withOff off)
  | .bar tgt s => some { op := 0x222, mod := s.code + 8 * tgt.code }
  | .bara d tgt s => some { op := 0x223, d, mod := s.code + 8 * tgt.code }
  | .barw a tgt s => some { op := 0x224, a, mod := s.code + 8 * tgt.code }
  | .qpush g nb s d a => some (Raw.withGuard { op := 0x225, d := d.code, a, b := nb.getD 0, mod := s.code + 8 * b1 nb.isSome } g)
  | .qpop g nb s d a => some (Raw.withGuard { op := 0x226, d := d.code, a, b := nb.getD 0, mod := s.code + 8 * b1 nb.isSome } g)
  | .tloopInit d a b imm => some { op := 0x227, l := 1, d, a, b, imm := imm.toNat }
  | .tloopNext d c => some { op := 0x227, l := 1, d, mod := 1 + 2 * c }
  | .vatom g op t d b a ext =>
    some ((Raw.withGuard { op := 0x230, d := d.code, a := a.code, b, mod := tm t op.code } g).withAtom ext)
  | .vcas g t d b a c imm s =>
    some (Raw.withGuard { op := 0x231, l := 1, d := d.code, a := a.code, b, c := c.code, mod := tm t 0, imm := imm.toNat, ext := s.code } g)
  | .satom op t d b a ext => some (Raw.withAtom { op := 0x232, d, a, b, mod := tm t op.code } ext)
  | .cellset g d b a imm s =>
    some (Raw.withGuard { op := 0x233, l := 1, d := d.code, a := a.code, b, imm := imm.toNat, ext := s.code } g)
  | .cellput g d b a => some (Raw.withGuard { op := 0x234, d := d.code, a := a.code, b } g)
  | .cellclr g b a s => some (Raw.withGuard { op := 0x235, a := a.code, b, mod := s.code } g)
  | .cellq g d b a => some (Raw.withGuard { op := 0x236, d := d.code, a := a.code, b } g)
  | .suminit k coin n a => some { op := 0x240, a, mod := n + 4 * k.code + 16 * coin }
  | .sumadd g n a => some (Raw.withGuard { op := 0x241, a := a.code, mod := n } g)
  | .sumld n b a => some { op := 0x242, a, b, mod := n }
  | .sumst n b a => some { op := 0x243, a, b, mod := n }
  | .summrg n b a s => some { op := 0x244, a, b, mod := n + 4 * s.code }
  | .sumqry m d n a imm => some (Raw.withOff { op := 0x245, d, a, mod := n + 4 * m.code } imm)
  | .enq d a b c imm n => some { op := 0x246, l := 1, d, a, b, c, imm := imm.toNat, ext := n - 1 }
  | .coll g op t d a b c imm sig s =>
    some (Raw.withGuard { op := 0x247, l := 1, d := d.code, a := a.code, b := b.code, c, mod := tm t op.code, imm := imm.toNat, ext := sig + 512 * s.code } g)
  | .collBar g c sig s => some (Raw.withGuard { op := 0x247, l := 1, c, mod := 7, ext := sig + 512 * s.code } g)
  | .rld g t cnt d b a off => some ((Raw.withGuard { op := 0x248, d := d.code, a := a.code, b, mod := tm t cnt } g).withOff off)
  | .rst g t cnt d b a off => some ((Raw.withGuard { op := 0x249, d := d.code, a := a.code, b, mod := tm t cnt } g).withOff off)
  | .rred g op t d b a imm s =>
    some (Raw.withGuard { op := 0x24A, l := 1, d := d.code, a := a.code, b, mod := tm t op.code, imm := imm.toNat, ext := s.code } g)
  | _ => none

/-- The four words of a fused sequence, with the least latencies that R21 admits and 31 on the fourth (R99). -/
def fusedFields (f : FusedOps) : List Raw :=
  let lat (n : Nat) (l : List VOp) := if l.any VOp.isL then n - 2 else n
  [raw2 0x134 ⟨lat 6 [f.a1], f.g⟩ f.d1.code f.a1.code 0 (tm .f32 2),
   raw2 0x021 ⟨lat 5 [f.a2, f.d1], f.g⟩ f.d2.code f.a2.code f.d1.code (tm .f32 0) f.rnd2.code,
   raw2 0x032 ⟨lat 14 [f.d2], f.g⟩ f.d3.code f.d2.code 0 (tm .f32 0),
   raw2 0x134 ⟨31, f.g⟩ f.d4.code f.d3.code 0 (tm .f32 0)]

/-! ### Tile bundles -/

/-- Bundle kinds of R26. -/
inductive BKind
  | normal | decouple | rejoin | trgate
  deriving DecidableEq, Repr

/-- A decoded bundle: its profile, kind and non-idle slots in slot order (an idle CTL slot is TNOP and is not listed). -/
structure Bundle where
  np : Nat
  kind : BKind
  slots : List (Nat × Instr)
  deriving DecidableEq, Repr

/-- The slots of R25: bundle position of the operand bits' lsb, number of operand bits, and the name's index. -/
def slotPos : Nat → Nat × Nat
  | 0 => (204, 34) | 1 => (156, 42) | 2 => (132, 18) | 3 => (84, 42) | 4 => (60, 18) | _ => (36, 18)

/-- Opcode of slot `k` of a bundle. -/
def slotOp (w k : Nat) : Nat := bits w ((slotPos k).1 + (slotPos k).2 + 5) ((slotPos k).1 + (slotPos k).2)

/-- Operand bits of slot `k` of a bundle. -/
def slotArg (w k : Nat) : Nat := bits w ((slotPos k).1 + (slotPos k).2 - 1) (slotPos k).1

/-- The highest assigned opcode of each slot (R31). -/
def slotMax : Nat → Nat
  | 0 => 7 | 1 => 5 | 2 => 1 | 3 => 7 | _ => 1

/-- A mask of bits hi to lo. -/
def fmask (hi lo : Nat) : Nat := (2 ^ (hi - lo + 1) - 1) * 2 ^ lo

/-- The reserved sub-field value of a slot operation, by the position of its lsb within the operand bits (R184), and the
operand bits that the operation uses (R27). -/
def slotForm (k op x : Nat) : Option Nat × Nat :=
  match k, op with
  | 0, 1 => (none, fmask 23 0)
  | 0, 2 => (if 6 ≤ bits x 27 25 then some 25 else none, fmask 33 25 ||| fmask 23 0)
  | 0, 3 =>
    match bits x 27 26 with
    | 2 => (none, fmask 33 20)
    | 3 => (if bits x 1 0 = 3 then some 0 else none, fmask 33 26 ||| fmask 1 0)
    | _ => (none, fmask 33 0)
  | 0, 4 => (none, if bit x 21 then fmask 33 0 else fmask 33 15)
  | 0, 5 => (none, fmask 4 0)
  | 0, 6 => (none, fmask 7 0)
  | 1, 1 | 1, 2 => (none, if bit x 23 then fmask 41 30 ||| fmask 23 17 else fmask 41 23)
  | 1, 3 | 1, 4 => (none, fmask 41 38)
  | 1, 5 =>
    (if bits x 37 36 = 3 then some 36 else none, if bits x 37 36 = 0 then fmask 41 36 else fmask 41 30)
  | 2, 1 => (none, fmask 17 10)
  | 3, 1 | 3, 2 => (none, if bit x 24 then fmask 41 24 else fmask 41 31 ||| fmask 24 24)
  | 3, 3 => (if bits x 19 18 = 3 then some 18 else none, fmask 37 18)
  | 3, 4 | 3, 5 => (none, fmask 41 38)
  | 3, 6 | 3, 7 => (none, fmask 40 38)
  | 4, 1 => (if 5 ≤ bits x 13 11 then some 11 else none, if bits x 13 11 = 0 then fmask 17 11 ||| fmask 8 5 else fmask 17 5)
  | 5, 1 => (if 3 ≤ bits x 13 11 then some 11 else none, fmask 17 5)
  | _, _ => (none, 0)

/-- The bank a slot names (R28): MX, AR and AW. -/
def slotBank (w k : Nat) : Option Nat :=
  if slotOp w k = 0 then none
  else match k with
  | 1 => some (bits (slotArg w 1) 41 38)
  | 4 | 5 => some (bits (slotArg w k) 17 14)
  | _ => none

/-- The slots in order. -/
def slotList : List Nat := [0, 1, 2, 3, 4, 5]

/-- A slot is idle when its opcode and operand bits are zero (R26). -/
def slotIdle (w k : Nat) : Bool := slotOp w k == 0 && slotArg w k == 0

/-- The first bank-port conflict (R28, R33). Where MX, AR and AW all name one bank, which two of them the detail names is the model's
choice: MX and AR (log entry 73). -/
def portConflict (w : Nat) : Option DecErr :=
  ([(1, 4), (1, 5), (4, 5)].find? fun p => (slotBank w p.1).isSome && slotBank w p.1 == slotBank w p.2).map
    fun p => ill 0x13 (p.1 + 16 * p.2)

/-- The bundle checks of R32. Among several slots with reserved values or unused bits, the order from CTL to AW and then bits 35 to 0 is
the model's choice (log entry 73). -/
def refuseBundle (w : Nat) : Option DecErr :=
  let np := bits w 255 248
  let bk := bits w 247 244
  (if 1 ≤ np && np ≤ 6 then none else some (ill 0x10 np)) <|>
  (if 4 ≤ bk then some (ill 0x11 bk) else none) <|>
  (if bk = 0 then none
    else (slotList.find? fun k => !slotIdle w k).map fun k => { kind := 0x02, cause := 0x14, hi := k }) <|>
  ((slotList.find? fun k => slotMax k < slotOp w k).map fun k => ill 0x01 k) <|>
  portConflict w <|>
  (slotList.findSome? fun k => (slotForm k (slotOp w k) (slotArg w k)).1.map fun p => ill 0x07 ((slotPos k).1 + p)) <|>
  ((slotList.find? fun k => slotArg w k &&& (fmask 41 0 ^^^ (slotForm k (slotOp w k) (slotArg w k)).2) ≠ 0).map
    fun k => { kind := 0x02, cause := 0x14, hi := k }) <|>
  (if bits w 35 0 = 0 then none else some { kind := 0x02, cause := 0x14, hi := 6 })

/-- The operation of a slot that has passed every check; none for an idle slot. -/
def buildSlot (k op x : Nat) : Option Instr :=
  let d4 := bits x 41 38
  let depth : Depth := if bit x 23 then .reg (bits x 22 17) else .const (bits x 29 24 + 1)
  let off : Option Nat := if bit x 24 then some (bits x 30 25) else none
  match k, op with
  | 0, 1 => some (.tjmp (BitVec.ofNat 24 (bits x 23 0)))
  | 0, 2 => some (.tbr (tcondOf (bits x 27 25)) (bits x 33 28) (BitVec.ofNat 24 (bits x 23 0)))
  | 0, 3 =>
    some (.tset (bits x 33 28) (match bits x 27 26 with
      | 0 => .imm (BitVec.ofNat 26 (bits x 25 0))
      | 1 => .sh (BitVec.ofNat 26 (bits x 25 0))
      | 2 => .mov (bits x 25 20)
      | _ => .special (bits x 1 0)))
  | 0, 4 =>
    some (.tadd (bits x 33 28) (bits x 27 22)
      (if bit x 21 then .inr (BitVec.ofNat 21 (bits x 20 0)) else .inl (bits x 20 15)))
  | 0, 5 => some (.twait (bit x 0) (bit x 1) (bit x 2) (bit x 3) (bit x 4))
  | 0, 6 => some (.ttrap (bits x 7 0))
  | 0, 7 => some .tileTfence
  | 1, 1 => some (.mma d4 (bits x 37 34) (bits x 33 30) depth)
  | 1, 2 => some (.mmas d4 (bits x 37 34) (bits x 33 30) depth)
  | 1, 3 => some (.azero d4)
  | 1, 4 => some (.anorm d4)
  | 1, 5 =>
    some (.aresc d4 (match bits x 37 36 with
      | 0 => .sum
      | 1 => .pow2 (bits x 35 30)
      | _ => .mul (bits x 35 30)))
  | 2, 1 => some (.trn (bits x 17 14) (bits x 13 10))
  | 3, 1 => some (.cpin d4 (bits x 37 32) (bit x 31) off)
  | 3, 2 => some (.cpout d4 (bits x 37 32) (bit x 31) off)
  | 3, 3 =>
    some (.cpx (match bits x 19 18 with | 0 => .gg | 1 => .gs | _ => .sg) (bits x 37 32) (bits x 31 26) (bits x 25 20))
  | 3, 4 => some (.tclaim d4)
  | 3, 5 => some (.trel d4)
  | 3, 6 => some (.tcseal (bits x 40 38))
  | 3, 7 => some (.tcwait (bits x 40 38))
  | 4, 1 =>
    let s := bits x 17 14
    let o := bits x 10 5
    some (match bits x 13 11 with
      | 0 => .ardCe s (bits x 8 5)
      | 1 => .ardF32 s o
      | 2 => .ardBf16 s o
      | 3 => .ardF16 s o
      | _ => .ardRaw s o)
  | 5, 1 =>
    let s := bits x 17 14
    let o := bits x 10 5
    some (match bits x 13 11 with
      | 0 => .awrRaw s o
      | 1 => .awrAdd s o
      | _ => .awrF32 s o)
  | _, _ => none

def bkindOf : Nat → BKind
  | 0 => .normal | 1 => .decouple | 2 => .rejoin | _ => .trgate

/-- Decodes a 256-bit bundle. -/
def decodeBundle (w : Nat) : Except DecErr Bundle :=
  match refuseBundle w with
  | some e => .error e
  | none =>
    .ok { np := bits w 255 248, kind := bkindOf (bits w 247 244),
          slots := slotList.filterMap fun k => (buildSlot k (slotOp w k) (slotArg w k)).map fun i => (k, i) }

/-- Slot, opcode and operand bits of a tile-slot operation. -/
def slotOf : Instr → Option (Nat × Nat × Nat)
  | .tnop => some (0, 0, 0)
  | .tjmp off => some (0, 1, off.toNat)
  | .tbr cc a off => some (0, 2, a * 2 ^ 28 + cc.code * 2 ^ 25 + off.toNat)
  | .tset d src =>
    some (0, 3, d * 2 ^ 28 + (match src with
      | .imm v => v.toNat
      | .sh v => 2 ^ 26 + v.toNat
      | .mov a => 2 * 2 ^ 26 + a * 2 ^ 20
      | .special n => 3 * 2 ^ 26 + n))
  | .tadd d a src =>
    some (0, 4, d * 2 ^ 28 + a * 2 ^ 22 + (match src with | .inr v => 2 ^ 21 + v.toNat | .inl b => b * 2 ^ 15))
  | .twait m t c r w => some (0, 5, b1 m + 2 * b1 t + 4 * b1 c + 8 * b1 r + 16 * b1 w)
  | .ttrap n => some (0, 6, n)
  | .tileTfence => some (0, 7, 0)
  | .mma d a b k => some (1, 1, mxArg d a b k)
  | .mmas d a b k => some (1, 2, mxArg d a b k)
  | .azero d => some (1, 3, d * 2 ^ 38)
  | .anorm d => some (1, 4, d * 2 ^ 38)
  | .aresc d m =>
    some (1, 5, d * 2 ^ 38 + (match m with
      | .sum => 0
      | .pow2 x => 2 ^ 36 + x * 2 ^ 30
      | .mul x => 2 * 2 ^ 36 + x * 2 ^ 30))
  | .trn d a => some (2, 1, d * 2 ^ 14 + a * 2 ^ 10)
  | .cpin d a t off => some (3, 1, cpArg d a t off)
  | .cpout d a t off => some (3, 2, cpArg d a t off)
  | .cpx dir d s n =>
    some (3, 3, d * 2 ^ 32 + s * 2 ^ 26 + n * 2 ^ 20 + (match dir with | .gg => 0 | .gs => 2 ^ 18 | .sg => 2 * 2 ^ 18))
  | .tclaim n => some (3, 4, n * 2 ^ 38)
  | .trel n => some (3, 5, n * 2 ^ 38)
  | .tcseal n => some (3, 6, n * 2 ^ 38)
  | .tcwait n => some (3, 7, n * 2 ^ 38)
  | .ardCe s d => some (4, 1, s * 2 ^ 14 + d * 2 ^ 5)
  | .ardF32 s o => some (4, 1, s * 2 ^ 14 + 2 ^ 11 + o * 2 ^ 5)
  | .ardBf16 s o => some (4, 1, s * 2 ^ 14 + 2 * 2 ^ 11 + o * 2 ^ 5)
  | .ardF16 s o => some (4, 1, s * 2 ^ 14 + 3 * 2 ^ 11 + o * 2 ^ 5)
  | .ardRaw s o => some (4, 1, s * 2 ^ 14 + 4 * 2 ^ 11 + o * 2 ^ 5)
  | .awrRaw d o => some (5, 1, d * 2 ^ 14 + o * 2 ^ 5)
  | .awrAdd d o => some (5, 1, d * 2 ^ 14 + 2 ^ 11 + o * 2 ^ 5)
  | .awrF32 d o => some (5, 1, d * 2 ^ 14 + 2 * 2 ^ 11 + o * 2 ^ 5)
  | _ => none
where
  mxArg (d a b : Nat) (k : Depth) : Nat :=
    d * 2 ^ 38 + a * 2 ^ 34 + b * 2 ^ 30 + (match k with | .const n => (n - 1) * 2 ^ 24 | .reg x => 2 ^ 23 + x * 2 ^ 17)
  cpArg (d a : Nat) (t : Bool) (off : Option Nat) : Nat :=
    d * 2 ^ 38 + a * 2 ^ 32 + b1 t * 2 ^ 31 + (match off with | none => 0 | some x => 2 ^ 24 + x * 2 ^ 25)

/-- The kind of a lone special bundle (R26). -/
def bkindBits : Instr → Option Nat
  | .decouple => some 1
  | .rejoin => some 2
  | .trgate => some 3
  | _ => none

/-- The bundle that holds one slot operation under profile `np`, every other slot idle, or a special bundle. -/
def encodeBundle (np : Nat) (i : Instr) : Option Nat :=
  match bkindBits i with
  | some bk => some (np * 2 ^ 248 + bk * 2 ^ 244)
  | none =>
    (slotOf i).map fun (k, op, x) =>
      np * 2 ^ 248 + op * 2 ^ ((slotPos k).1 + (slotPos k).2) + x * 2 ^ (slotPos k).1

/-! ### Command packets -/

/-- A field of a packet: `n` bytes at offset `o`. -/
def pf (p : List Byte) (o n : Nat) : Nat := ofBytes ((p.drop o).take n)

/-- Whether every byte outside the header and the listed ranges is zero (R320). -/
def restZero (p : List Byte) (used : List (Nat × Nat)) : Bool :=
  (List.range 64).all fun i => i < 8 || used.any (fun u => u.1 ≤ i && i < u.1 + u.2) || p.getD i 0 == 0

/-- Canonical form of a 57-bit virtual address: bits [63:57] copy bit 56. -/
def canonical (x : Nat) : Bool := x < 2 ^ 56 || (2 ^ 64 - 2 ^ 56 ≤ x && x < 2 ^ 64)

/-- Address fields of packets: canonical and aligned, else packet error 3 (R321). -/
def paddr (x al : Nat) : Bool := canonical x && x % al == 0

/-- The first failing test's error. -/
def firstErr (l : List (Bool × Nat)) : Option Nat := (l.find? fun p => !p.1).map (·.2)

/-- Decodes a PRED or WAITMEM test (R328). -/
def memTest (p : List Byte) : MemTest :=
  { addr := BitVec.ofNat 64 (pf p 8 8), ref := BitVec.ofNat 64 (pf p 16 8), mask := BitVec.ofNat 64 (pf p 24 8),
    op := pf p 32 1, wide := pf p 33 1 == 1 }

/-- Decodes 64 bytes: the packet, or the packet error of R320 to R331. Reserved bytes are reported first, then the
listed fields in ascending byte order. -/
def decodePacket (p : List Byte) : Except Nat Instr :=
  let hdr := pf p 1 3 == 0
  let go (checks : List (Bool × Nat)) (i : Instr) : Except Nat Instr :=
    match firstErr ((hdr, 2) :: checks) with
    | some e => .error e
    | none => .ok i
  match pf p 0 1 with
  | 1 => go [] .packetNop
  | 2 =>
    let fl := pf p 21 1
    let q : DispatchPkt :=
      { kdesc := BitVec.ofNat 64 (pf p 8 8), nblk := pf p 16 4, gsz := pf p 20 1, det := bit fl 0, cnt := bit fl 1,
        idem := bit fl 2, aff := bit fl 3, prio := pf p 22 1, gtab := BitVec.ofNat 64 (pf p 24 8),
        stab := BitVec.ofNat 64 (pf p 32 8), scnt := pf p 40 4, crec := BitVec.ofNat 64 (pf p 48 8) }
    go [(restZero p [(8, 15), (24, 20), (48, 8)] && fl < 16, 2), (paddr (pf p 8 8) 64, 3),
        (1 ≤ q.nblk && q.nblk ≤ 2 ^ 24, 4), (1 ≤ q.gsz && q.gsz ≤ 8 && q.nblk % q.gsz == 0, 4), (q.prio < 16, 4),
        (paddr (pf p 24 8) 16, 3), (paddr (pf p 32 8) 16, 3),
        (q.scnt ≤ 65536 && (pf p 32 8 ≠ 0 || q.scnt == 0), 4),
        (paddr (pf p 48 8) 64 && (!q.cnt || pf p 48 8 ≠ 0), 3)] (.dispatch q)
  | 3 =>
    let fl := pf p 19 1
    let q : BcastPkt :=
      { bpc := BitVec.ofNat 64 (pf p 8 8), cw := pf p 16 1, nbank := pf p 17 1, prio := pf p 18 1, det := bit fl 0,
        idem := bit fl 2, skew := pf p 20 4 }
    go [(restZero p [(8, 16)] && (fl == 0 || fl == 1 || fl == 4 || fl == 5), 2), (paddr (pf p 8 8) 32, 3),
        (1 ≤ q.cw && q.cw ≤ 3, 4), (q.nbank ≤ 16, 4), (q.prio < 16, 4), (skewOk q.cw q.skew, 4)] (.bcast q)
  | 4 =>
    go [(restZero p [(8, 12)], 2), (paddr (pf p 8 8) 64, 3), (1 ≤ pf p 16 4 && pf p 16 4 ≤ 2 ^ 20, 4)]
      (.ib (BitVec.ofNat 64 (pf p 8 8)) (pf p 16 4))
  | 5 =>
    go [(restZero p [(8, 27)], 2), (paddr (pf p 8 8) 8, 3), (pf p 32 1 < 6, 4), (pf p 33 1 < 2, 4), (pf p 34 1 ≠ 0, 4)]
      (.pred (memTest p) (pf p 34 1))
  | 6 => go [(restZero p [(8, 5)], 2), (1 ≤ pf p 12 1 && pf p 12 1 ≤ 15, 4)] (.packetLoop (pf p 8 4) (pf p 12 1))
  | 7 =>
    go [(restZero p [(8, 18)], 2), (paddr (pf p 8 8) 8, 3), (pf p 24 1 < 5, 4), (pf p 25 1 < 2, 4)]
      (.write (BitVec.ofNat 64 (pf p 8 8)) (BitVec.ofNat 64 (pf p 16 8)) (scopeOf (pf p 24 1)) (pf p 25 1 == 1))
  | 8 => go [(restZero p [(8, 26)], 2), (paddr (pf p 8 8) 8, 3), (pf p 32 1 < 6, 4), (pf p 33 1 < 2, 4)] (.waitmem (memTest p))
  | 9 =>
    go [(restZero p [(8, 17)], 2), (paddr (pf p 8 8) 8, 3), (pf p 24 1 < 5, 4)]
      (.compl (BitVec.ofNat 64 (pf p 8 8)) (BitVec.ofNat 64 (pf p 16 8)) (scopeOf (pf p 24 1)))
  | 10 => go [(restZero p [(8, 8)], 2)] (.timed (BitVec.ofNat 64 (pf p 8 8)))
  | 11 => go [(restZero p [], 2)] .ffence
  | _ => .error 1

/-- Lays fields (offset, size, value) into 64 bytes. -/
def packBytes (fs : List (Nat × Nat × Nat)) : List Byte :=
  toBytes (fs.foldl (fun n f => n + f.2.2 * 2 ^ (8 * f.1)) 0) 64

def testFields (t : MemTest) : List (Nat × Nat × Nat) :=
  [(8, 8, t.addr.toNat), (16, 8, t.ref.toNat), (24, 8, t.mask.toNat), (32, 1, t.op), (33, 1, b1 t.wide)]

/-- The 64 bytes of a packet with TAG 0. -/
def encodePacket : Instr → Option (List Byte)
  | .packetNop => some (packBytes [(0, 1, 1)])
  | .dispatch p =>
    some (packBytes [(0, 1, 2), (8, 8, p.kdesc.toNat), (16, 4, p.nblk), (20, 1, p.gsz),
      (21, 1, b1 p.det + 2 * b1 p.cnt + 4 * b1 p.idem + 8 * b1 p.aff), (22, 1, p.prio), (24, 8, p.gtab.toNat),
      (32, 8, p.stab.toNat), (40, 4, p.scnt), (48, 8, p.crec.toNat)])
  | .bcast p =>
    some (packBytes [(0, 1, 3), (8, 8, p.bpc.toNat), (16, 1, p.cw), (17, 1, p.nbank), (18, 1, p.prio),
      (19, 1, b1 p.det + 4 * b1 p.idem), (20, 4, p.skew)])
  | .ib addr len => some (packBytes [(0, 1, 4), (8, 8, addr.toNat), (16, 4, len)])
  | .pred t n => some (packBytes ((0, 1, 5) :: (34, 1, n) :: testFields t))
  | .packetLoop count n => some (packBytes [(0, 1, 6), (8, 4, count), (12, 1, n)])
  | .write a v s wide => some (packBytes [(0, 1, 7), (8, 8, a.toNat), (16, 8, v.toNat), (24, 1, s.code), (25, 1, b1 wide)])
  | .waitmem t => some (packBytes ((0, 1, 8) :: testFields t))
  | .compl a v s => some (packBytes [(0, 1, 9), (8, 8, a.toNat), (16, 8, v.toNat), (24, 1, s.code)])
  | .timed t => some (packBytes [(0, 1, 10), (8, 8, t.toNat)])
  | .ffence => some (packBytes [(0, 1, 11)])
  | _ => none

/-! ### One encoder and the host's numbering -/

/-- `n` 64-bit words of a number, lowest first. -/
def words64 (x n : Nat) : List DWord := (List.range n).map fun k => BitVec.ofNat 64 (x >>> (64 * k))

/-- The 64-bit words of an instruction, lowest address first: one, two or four for the thread set, a bundle of four under
profile 1 for a tile operation, eight for a packet; none for an event, a request or an illegal instruction. -/
def encode (i : Instr) : List DWord :=
  match i with
  | .fusedSoftmax f => (fusedFields f).map Raw.word0
  | _ =>
    match fieldsOf i, encodeBundle 1 i, encodePacket i with
    | some r, _, _ => if r.l = 1 then [r.word0, r.word1] else [r.word0]
    | _, some w, _ => words64 w 4
    | _, _, some p => words64 (ofBytes p) 8
    | _, _, _ => []

/-- One 24-bit slot word of the opcode table, whose bits do not name its slot: read in the first of the TX, AR and AW
slots in which it decodes whole, AR first when bits [13:11] name a mode of ARD other than 000 (log entry 12). -/
def decodeSlot24 (w : Nat) : Option (Nat × Instr) :=
  (if bits w 13 11 = 0 then [2, 4, 5] else [4, 5, 2]).findSome? fun k =>
    match decodeBundle (2 ^ 248 + w * 2 ^ (slotPos k).1) with
    | .ok b => b.slots.head?
    | .error _ => none

/-- The instruction that the decoder reads from `nbits` bits numbered as the opcode table numbers them: a bare slot word
(24 bits), a thread-set word or pair (64, 128), a bundle (256) with one operation, or a command packet (512). -/
def decodeTableWord (nbits w : Nat) : Option Instr :=
  if nbits = 24 then (decodeSlot24 w).map (·.2)
  else if nbits = 256 then
    match decodeBundle w with
    | .ok b =>
      match b.kind, b.slots with
      | .decouple, _ => some .decouple
      | .rejoin, _ => some .rejoin
      | .trgate, _ => some .trgate
      | .normal, [] => some .tnop
      | .normal, (_, i) :: _ => some i
    | .error _ => none
  else if nbits = 512 then
    match decodePacket (toBytes w 64) with
    | .ok i => some i
    | .error _ => none
  else
    match decodeThread {} (BitVec.ofNat 64 w) (BitVec.ofNat 64 (w >>> 64)) with
    | .ok i => some i
    | .error _ => none

end Sys2Proof
end

