-- ==== Sys2Proof/Config.lean ====
section
/-! DEFINITION. What the spec leaves open, as constants without a value (log entries 1, 2, 3, 4): nothing can be
proved about what they give. -/

namespace Sys2Proof.Config

/-- What an operand that is undefined (R9, R20) gives: `ctr` is the model's step counter, `slot` the operand, `lane` the lane. -/
opaque freeReg : Nat → Nat → Nat → BitVec 32

/-- A choice or number the spec leaves open: `ctr` is the model's step counter, `tag` says which choice of the step. -/
opaque freeNat : Nat → Nat → Nat

/-- A yes or no the spec leaves open. -/
opaque freeBool : Nat → Nat → Bool

/-- A byte the spec leaves open. -/
opaque freeByte : Nat → Nat → BitVec 8

/-- The byte that stands for a weight shift past 255, which has no encoding (R293, R303): the same in every run. -/
opaque wshiftByte : Nat → BitVec 8

/-- Core cycles that pass before step number `ctr` (R6; no rate of issue is fixed, R102). -/
opaque elapsedCycles : Nat → Nat

/-- Device-time ticks (ns) that pass before step number `ctr`. -/
opaque elapsedNs : Nat → Nat

/-- The result of a special function within its domain (R88, R89): a fixed function of the operation's number, the
source bits, F32SUB and NANM. -/
opaque sfu : Nat → BitVec 32 → Bool → Bool → BitVec 32

/-- Whether an inexact-zone overflow of a special function gives an infinity (R89). -/
opaque sfuOver : Nat → BitVec 32 → Bool → Bool → Bool

/-- Which of a die's 64 channels, 32 of each of its two stacks, stores a 64-byte line (R279, R379; the spec divides a die's offsets
neither between its stacks nor among their channels). -/
opaque channelOf : Nat → Nat

/-- Byte `i` of the ML-DSA-44 signature that the device identity key gives for a digest (R375): the key never leaves the security engine. -/
opaque mldsaSign : List (BitVec 8) → Nat → BitVec 8

/-- Byte `i` of the SHA3-256 of the boot ROM, whose contents the spec does not give (R374). -/
opaque romHash : Nat → BitVec 8

end Sys2Proof.Config
end

