-- ==== Sys2Proof/Machine/State.lean ====
section
/-! DEFINITION. The state of one Z9 as plain data, the reasons a step can stop, and the state after reset. Everything
sparse is a KMap (keys strictly rising). Main memory's home values stand in one list of (address, byte) pairs whose
key is the storage address: die × 2^37 + die offset for main memory (R251), the physical address for a fabric window
(R385). Core numbers are die × 64 + cluster × 8 + core; wave keys are (task × 8 + block in the gang) × 256 + %wave. -/

namespace Sys2Proof.Machine

/-- Memory: (storage address, byte) pairs, addresses strictly rising, no entry equal to what an unlisted address reads
as (zero, log entry 5). -/
abbrev Memory := List Host.Cell

/-- A view of memory (R204): each listed byte with the position of the move that wrote it; unlisted reads (0, 0). -/
abbrev PMem := KMap (Byte × Nat)

/-- Why the machine stops with a fault. -/
inductive Fault
  /-- Raised by no meaning: the Z9 reports every fault it has by a trap, a packet error or a status (R353, R321, R313),
  and these are next states. Kept so that the type is not empty; safe. -/
  | none
  deriving DecidableEq, Repr

/-- Why the model gives no next state. -/
inductive Refusal
  /-- An instruction without a meaning yet, by its mnemonic in the opcode table; raised by Dispatch only; safe. -/
  | notModelled (mnemonic : String)
  /-- An instruction is applied to a state in which no agent of its kind is issuing (no live fragment, tile context or
  command processor is the current actor); raised by the meanings, never reached by step; safe. -/
  | noIssuer
  deriving DecidableEq, Repr

/-- Token registers (R55) with their keepers (R110, R153). -/
structure Token where
  st : BitVec 2 := 0
  exp : BitVec 5 := 0
  jpc : BitVec 54 := 0
  arr : Word := 0
  ipm : Word := 0
  ipc : BitVec 54 := 0
  lc : Nat := 0
  sc : Nat := 0
  kc : Nat := 0
  xc : Nat := 0
  nums : BitVec 16 := 0
  out : Option Nat := none
  unsealed : List Nat := []
  batches : KMap (List Nat) := []
  deriving DecidableEq, Repr

/-- What a Waiting fragment waits for (R60). -/
inductive Wait
  | waitc (lc sc kc xc : Nat) | fwait (idx seq : Nat) | cbWriter (n d : Nat) | cbReader (n d : Nat) | gate | barrier (key : Nat) | rel | cwait (n : Nat) | enq (queue : Nat)
  | queue (addr : Nat) | coll (gid call : Nat) | token (k : Nat)
  deriving DecidableEq, Repr

/-- Fragment states (R60). A saved fragment keeps its state in the frame. -/
inductive FragSt
  | ready | issuing | waiting (w : Wait) | parked (cell : Nat) | parkedFree (base : Nat)
  deriving DecidableEq, Repr

/-- What a GATE asks for, kept from its arrival to the gate's opening and return (R186). -/
structure GateCall where
  d : Nat := 0
  a : Nat := 0
  n : Nat := 0
  target : DWord := 0
  in0 : Nat := 31
  in1 : Nat := 31
  out0 : Nat := 31
  out1 : Nat := 31
  iw0 : DWord := 0
  iw1 : DWord := 0
  deriving DecidableEq, Repr

/-- How far a fragment has come inside an instruction that waits after having had an effect: a barrier in whose phase it has
arrived (R228), a gate at which it has arrived (R190), a group's collective call whose release or whose completion it waits for, the signature of one that has completed
(R395), an ENQ that waits for room, with its destination and the storage addresses of its packets (R333). -/
inductive Phase
  | none | arrived (phase : Nat) | gated (g : GateCall) | calling (gid gen : Nat) | called (gid call : Nat) | signed (z : DWord) | enq (d : Nat) (keys : List (Option Nat))
  deriving DecidableEq, Repr

/-- A pending RFT redirect of a JMPT (R129): the JMPT's address, its lanes and their target. -/
structure Redirect where
  pc : DWord
  mask : Word
  target : DWord
  deriving DecidableEq, Repr

/-- A fragment (R59, R110, R153). `arrivals` gives, by barrier, the phase in which it last arrived (R228); `wskip` the address of the
instruction that may pass the watch units once (R367). -/
structure Frag where
  num : Nat
  pc : DWord
  mask : Word
  lc : Nat := 0
  sc : Nat := 0
  kc : Nat := 0
  xc : Nat := 0
  st : FragSt := .ready
  tok : Option Nat := none
  unsealed : List Nat := []
  batches : KMap (List Nat) := []
  phase : Phase := .none
  arrivals : KMap Nat := []
  wskip : Option DWord := none
  redirect : Option Redirect := none
  deriving DecidableEq, Repr

/-- A register as a destination that may still be undefined (R20). -/
inductive RegId
  | vec (f : Nat) | pred (n : Nat) | sca (n : Nat) | cond (n : Nat)
  deriving DecidableEq, Repr

/-- A fixed-latency result that may not have landed: the destination is undefined up to cycle `due` (R20). -/
structure Inflight where
  reg : RegId
  lanes : Word
  due : Nat
  deriving DecidableEq, Repr

/-- Which counter of R56 an entry holds. -/
inductive Ctr
  | lc | sc | kc | xc
  deriving DecidableEq, Repr

/-- Who holds an entry's counter: a fragment, or a token's keeper (R110). -/
inductive Holder
  | frag (n : Nat) | tok (k : Nat)
  deriving DecidableEq, Repr

/-- A counter-tracked destination that no WAITC has covered yet (R20). -/
structure Undef where
  reg : RegId
  lanes : Word
  entry : Nat
  ctr : Ctr
  holder : Holder
  deriving DecidableEq, Repr

/-- Where an access lies: main memory and windows; a core's scratchpad (R209); this device's own rank's region of a group, by storage
address, or another rank's, under the generation it was accepted with (R388, R393). -/
inductive Space
  | global | own (gid gen : Nat) | scratch (core : Nat) | remote (gid gen rank : Nat)
  deriving DecidableEq, Repr

/-- One lane's access of a load part; `none` writes zero (R135). `got` holds bytes whose Read moves are made (R206). -/
structure LaneAcc where
  lane : Nat
  space : Space
  addr : Option Nat
  sp : Bool := false
  got : List (Nat × Byte) := []
  deriving DecidableEq, Repr

/-- What an accepted access of the replay list does (R144). -/
inductive EntryKind
  /-- load: destination base field or scalar, whether scalar, width in bytes, registers per lane, type, parts still due -/
  | load (scalar : Bool) (d width regs : Nat) (t : Ty) (parts : KMap (List LaneAcc))
  /-- store: bytes in lane order -/
  | store (bytes : List (Space × Nat × Byte))
  /-- atomic: number of lanes still in home queues -/
  | atomic (left : Nat)
  /-- summary load into the partition's buffer n, from an address if there is one, with the bytes read ahead (R298) -/
  | sumLoad (n : Nat) (addr : Option Nat) (got : List (Nat × Byte))
  deriving DecidableEq, Repr

/-- An entry of the replay list (R144). `lines` are the virtual 128-byte lines it holds, `cells` the cells it touches with
their virtual address and lowest lane (R278). -/
structure Entry where
  id : Nat
  frag : Nat
  holder : Holder
  ctr : Ctr
  pc : DWord
  op : Nat
  mode : Nat
  kind : EntryKind
  earlier : List Nat
  lines : List Nat := []
  cells : List (Nat × Nat × Nat) := []
  deriving DecidableEq, Repr

/-- The trap save area (R127) and the trap-active state; `phase` tells how far the fragment had come in its instruction. -/
structure TrapSave where
  frag : Nat
  live : List Nat
  pc : DWord
  mask : Word
  words : List Word
  len : Nat
  tile : Option (Nat × Nat)
  isJmpt : Bool
  kind : Nat
  phase : Phase := .none
  deriving DecidableEq, Repr

/-- One fence record (R215, R216) and the fragment whose FENCE it is. -/
structure FenceRec where
  seq : Nat := 0
  frag : Nat := 0
  pending : Bool := false
  scope : Scope := .core
  pub : Bool := false
  entries : List Nat := []
  copies : List Nat := []
  deriving DecidableEq, Repr

/-- The loop cursor (R241 to R243). -/
structure Cursor where
  valid : Bool := false
  n : List Nat := [1, 1, 1, 1]
  perm : List Nat := [0, 1, 2, 3]
  pc : Nat := 1
  i : Nat := 0
  hi : Nat := 0
  deriving DecidableEq, Repr

/-- A wave (R52 to R58, R101 to R129, R216, R241). Vector registers: key field × 32 + lane with the field numbers of
R16 (0-1535 v, 1536-1551 o, 1552-1555 l). Predicates: one 32-bit lane mask for each of p0 to p6. -/
structure Wave where
  task : Nat
  blk : Nat
  idx : Nat
  core : Nat
  part : Nat
  alloc : Nat
  vreg : KMap Word := []
  preds : KMap Word := []
  sreg : KMap Word := []
  cond : BitVec 4 := 0
  toks : KMap Token := []
  mode : Word := 1
  flags : Word := 0
  trapen : Word := 0
  trapbase : DWord := 0
  remain : Word := 0xFFFFFFFF
  lpart : Nat := 0
  frags : List Frag := []
  cur : Option Nat := none
  trapSave : Option TrapSave := none
  fences : KMap FenceRec := []
  fenceSeq : Nat := 1
  cursor : Cursor := {}
  inflight : List Inflight := []
  flagPend : List (Word × Nat) := []
  undef : List Undef := []
  replay : List Entry := []
  nextEntry : Nat := 1
  npFault : Option (Nat × DWord) := none
  watchRec : Option (List Word) := none
  step : Bool := false
  resident : Bool := true
  ended : Bool := false
  deriving DecidableEq, Repr

/-- Who makes a write of H, as a home-side watch unit reports it (R266); `key` numbers the storing fragment or context (R210). -/
structure Writer where
  src : Nat := 0
  asid : Nat := 0
  core : Option Nat := none
  part : Nat := 0
  task : Nat := 0
  wave : Nat := 0
  frag : Nat := 0
  gdev : Nat := 0
  gid : Nat := 0
  key : Nat := 0
  deriving DecidableEq, Repr

/-- Where a phase-buffer entry's bytes go: this device's homes; this device's own rank's region, which only a Publish(system) writes; a
window's client; another rank's region (R386, R393). -/
inductive Home
  | here | own (gid gen : Nat) | window | rank (gid gen rank : Nat)
  deriving DecidableEq, Repr

/-- An entry of a core's phase buffer (R204, R207). -/
structure PEntry where
  task : Nat
  home : Home
  bytes : List (Nat × Byte)
  residue : Option (Scope × Nat) := none
  who : Writer := {}
  deriving DecidableEq, Repr

/-- A circular-buffer descriptor (R146). -/
structure CBuf where
  v : Bool := false
  base : Nat := 0
  ssz : Nat := 0
  nsl : Nat := 0
  free : Nat := 0
  fill : Nat := 0
  prd : Nat := 0
  cmt : Nat := 0
  cns : Nat := 0
  rlf : Nat := 0
  wh : Nat := 0
  rh : Nat := 0
  marks : List Nat := []
  deriving DecidableEq, Repr

/-- A waiter of a circular buffer: a fragment, or a copy that reserves a slot (R149, R152). -/
inductive CbWaiter
  | frag (wave num : Nat) | copy (id : Nat)
  deriving DecidableEq, Repr

/-- An operand slot (R163). Elements and maxima that are not listed are +0 and −4096. -/
structure Slot where
  elems : KMap Word := []
  rmax : KMap Int := []
  cmax : KMap Int := []
  narrow : Bool := true
  holder : Option Nat := none
  deriving DecidableEq, Repr

/-- An accumulator bank (R171). Unlisted: M = 0, tag 0, E = −32768, ROWMAX = −∞, ROWSUM = +0. -/
structure Bank where
  m : KMap Int := []
  tags : KMap Nat := []
  e : KMap Int := []
  rowmax : KMap Word := []
  rowsum : KMap Word := []
  hr : Nat := 16
  live : BitVec 64 := BitVec.allOnes 64
  deriving DecidableEq, Repr

/-- A copy descriptor with its format register decoded (R165, R67). -/
structure CopyDesc where
  base : DWord := 0
  fmt : Word := 0
  rstr : Nat := 0
  rows : Nat := 1
  cols : Nat := 1
  sstr : Nat := 0
  sbase : DWord := 0
  deriving DecidableEq, Repr

/-- The storage addresses a copy's lines translate to, by virtual 64-byte line (R166). -/
abbrev LineMap := KMap Nat

/-- An engine operation with what it read at issue (R161). Banks are the core's, not the grant's; offsets `off` are of the core's
scratchpad; a CPX's accesses stand with its copy. -/
inductive EngOp
  | mma (d a b k : Nat) | mmas (d a b k : Nat) | azero (d : Nat) | anorm (d : Nat)
  | aresc (d : Nat) (mode : Nat) (x : DWord)
  | trn (d a : Nat)
  | cpin (d : Nat) (desc : CopyDesc) (t : Bool) (lines : LineMap)
  | cpout (s : Nat) (desc : CopyDesc) (t : Bool) (lines : LineMap)
  | cpx
  | tclaim (n : Nat) | trel (n : Nat) | tcseal
  | ardCe (s d : Nat) | ard (s off mode : Nat) | awr (d off mode : Nat)
  deriving DecidableEq, Repr

/-- A queued engine operation (R160, R161). `order` numbers the operations of all engines in issue order. -/
structure QOp where
  order : Nat
  ctx : Nat
  np : Nat
  copy : Option Nat
  op : EngOp
  deriving DecidableEq, Repr

/-- The gate frame (R195). -/
structure GateFrame where
  gpc : DWord := 0
  bpc : DWord := 0
  wmask : BitVec 64 := 0
  ctx : Nat := 0
  nw : Nat := 0
  ext : Nat := 0
  live0 : BitVec 64 := BitVec.allOnes 64
  live1 : BitVec 64 := BitVec.allOnes 64
  iw0 : DWord := 0
  iw1 : DWord := 0
  frec : List Word := []
  lmask : KMap Word := []
  deriving DecidableEq, Repr

/-- A context's standing in a cushion (R236, R238): none; waiting for the gates of the other cores; coupled; decoupled; decoupled
with its wired-AND line raised. -/
inductive Cush
  | none | forming | coupled | decoupled | raised
  deriving DecidableEq, Repr

/-- A tile context (R158) bound to one gated block part, or to a BCAST member. `npFault` marks a not-present fault that the
scheduler has taken (R261); `skip` a bundle that a coupled member leaves out after rft.next (R239); `wskip` the address of the bundle
that may pass the watch units once (R367). -/
structure TileCtx where
  task : Nat
  blk : Nat
  part : Nat
  x : KMap DWord := []
  pc : DWord := 0
  mode : Word := 1
  flags : Word := 0
  trapen : Word := 0
  rank : Nat := 0
  gframeVa : DWord := 0
  unsealed : List Nat := []
  batches : KMap (List Nat) := []
  held : BitVec 16 := 0
  gateSlots : BitVec 16 := 0
  bankBase : Nat := 0
  bankCount : Nat := 0
  frame : GateFrame := {}
  call : GateCall := {}
  waves : List Nat := []
  stopped : Bool := false
  npFault : Bool := false
  cush : Cush := .none
  skip : Bool := false
  wskip : Option DWord := none
  step : Bool := false
  deriving DecidableEq, Repr

/-- A summary buffer (R288, R290): its 4,096 bytes, unlisted bytes zero. -/
abbrev SumBuf := KMap Byte

/-- One partition (R53, R59, R288, R315). -/
structure Part where
  queue : List (Nat × Nat) := []
  sums : KMap SumBuf := []
  fwshare : Byte := 0
  deriving DecidableEq, Repr

/-- A core-side watch unit (R365) and the debugger session that it serves. -/
structure WatchC where
  sess : Nat := 0
  base : DWord := 0
  len : Word := 0
  ctl : Word := 0
  deriving DecidableEq, Repr

/-- A line of the L1: which of its four sectors are filled, and whether it is the next victim of its set (R133, R139). -/
structure L1Line where
  sectors : BitVec 4 := 0
  streaming : Bool := false
  deriving DecidableEq, Repr

/-- A core. `tlbs` gives the sets of the L1 TLB that each launch holds, as first set and number (R256); `l1` the lines of the L1 by
storage line (R139) and `icache` those of the instruction cache with the bytes they were filled with (R255). -/
structure Core where
  scratch : Memory := []
  cbufs : KMap CBuf := []
  cbWriters : KMap (List CbWaiter) := []
  cbReaders : KMap (List CbWaiter) := []
  parts : KMap Part := []
  phase : List PEntry := []
  slots : KMap Slot := []
  banks : KMap Bank := []
  ctxs : KMap TileCtx := []
  curCtx : Nat := 0
  mxq : List QOp := []
  txq : List QOp := []
  cpq : List QOp := []
  arq : List QOp := []
  awq : List QOp := []
  nextOrder : Nat := 0
  icache : KMap (List Byte) := []
  l1 : KMap L1Line := []
  tlbs : KMap (Nat × Nat) := []
  watch : KMap WatchC := []
  excluded : Bool := false
  quiesced : Bool := false
  deriving DecidableEq, Repr

/-- One lane of a running copy; `low` marks a byte whose high nibble the destination keeps (R165). -/
structure CopyLane where
  lane : Nat
  src : Option (Space × Nat)
  dst : Option (Space × Nat)
  len : Nat
  got : List (Nat × Byte) := []
  low : Bool := false
  done : Bool := false
  deriving DecidableEq, Repr

/-- A copy in flight: a CPY of a fragment, or a CPIN, CPOUT or CPX of tile context `frag` (R152, R170, R360); a copy that is not
listed has completed. `vlines` are the virtual 64-byte lines that it was
translated by (R258); `owner` numbers the context whose copy it is (R210). `ctxCore` is the core on which the owning context is (256: none); `late` the offset in the frame of the copy-table entry of a copy that has
gone on after its task's save. -/
structure Copy where
  core : Nat
  task : Nat
  wave : Option Nat
  lanes : List CopyLane
  earlier : List Nat := []
  cb : Option (Nat × Nat) := none
  slotOf : Option (List (Nat × Nat)) := none
  winBase : Nat := 0
  frag : Nat := 0
  seq : Nat := 0
  tileOp : Bool := false
  order : Nat := 0
  srcSlot : Option Nat := none
  ctxCore : Nat := 256
  late : Option Nat := none
  vlines : List Nat := []
  owner : Nat := 0
  deriving DecidableEq, Repr

/-- A barrier's completed-phase count (R228); who has arrived stands with the fragments. -/
structure Barrier where
  c : BitVec 31 := 0
  deriving DecidableEq, Repr

/-- An item of a home's atomic queue (R210, R302). -/
inductive AtomReq
  /-- lane atomic: wave, entry, lane, op (none = compare and swap), type, storage address, data, compare, scope, core, destination -/
  | lane (wave entry lane : Nat) (op : Option AtomOp) (t : Ty) (addr : Nat) (d c : Word) (sc : Scope) (core : Nat) (dst : Option RegId) (who : Writer)
  /-- summary merge: wave, entry, source image, storage address of the target, scope, core, whether the launch is deterministic -/
  | merge (wave entry : Nat) (src : SumBuf) (addr : Nat) (sc : Scope) (core : Nat) (det : Bool) (who : Writer)
  /-- remote reduction (R393): wave and entry when issued here -/
  | reduce (wave : Option (Nat × Nat)) (home : Home) (op : AtomOp) (t : Ty) (addr : Nat) (v : Word) (sys : Bool) (who : Writer)
  /-- the fold of an element of this device's region in a collective call (R397) -/
  | fold (gid call elem : Nat)
  deriving DecidableEq, Repr

/-- A growth entry (R279). -/
structure Growth where
  cell : Nat
  va : DWord
  rscope : Scope
  place : Nat
  launch : Nat
  wave : Nat
  cluster : Nat
  evaluator : Option Nat := none
  waiters : List (Nat × Nat) := []
  deriving DecidableEq, Repr

/-- A layout map (R187), as its 128 bits. -/
abbrev LayoutMap := BitVec 128

/-- A kernel descriptor (R323). -/
structure KDesc where
  entry : DWord := 0
  trapb : DWord := 0
  nwave : Nat := 1
  wpc : Nat := 1
  cw : Nat := 0
  vregs : Nat := 8
  win : Nat := 0
  ncb : Nat := 0
  nbank : Nat := 0
  nsum : Nat := 0
  tlbs : Nat := 0
  remain : Word := 0xFFFFFFFF
  skew : Word := 0
  bufs : List (Nat × List Word) := []
  maps : List LayoutMap := []
  deriving DecidableEq, Repr

/-- A request for an evaluator that waits for a reserve slot (R280). -/
structure EvalReq where
  id : Nat
  cell : Nat
  prio : Nat
  launch : Nat
  desc : KDesc
  place : Nat
  homeDie : Nat
  cluster : Nat
  rscope : Scope
  va : DWord
  bytes : List Byte
  deriving DecidableEq, Repr

/-- A launch in the launch table (R322, R326). -/
structure Launch where
  queue : Nat
  proc : Nat
  asid : Nat
  desc : KDesc
  kdescVa : DWord
  nblk : Nat
  gsz : Nat
  prio : Nat
  det : Bool
  cnt : Bool
  idem : Bool
  aff : Bool
  groups : KMap (List Nat) := []
  spores : List KDesc := []
  scnt : Nat := 0
  hasStab : Bool := false
  gtab : DWord := 0
  crec : DWord := 0
  pktAddr : Nat := 0
  pkt : List Byte := []
  pktLevel : Nat := 0
  bcast : Option BcastPkt := none
  placed : Nat := 0
  retired : Nat := 0
  killed : Nat := 0
  faulted : Nat := 0
  done : Bool := false
  deriving DecidableEq, Repr

/-- Task states (R335). -/
inductive TaskSt
  | pending | resident | saved | paged | retired | killed
  deriving DecidableEq, Repr

/-- A block part's grant on one core (R138, R146, R158, R288): circular buffers and, by partition, summary buffers in the order of the
block's own numbers. -/
structure Grant where
  core : Nat
  blk : Nat
  part : Nat
  winBase : Nat
  winLen : Nat
  cbs : List Nat := []
  bankBase : Nat := 0
  nbank : Nat := 0
  sums : KMap (List Nat) := []
  deriving DecidableEq, Repr

/-- A summary buffer in a frame (R358): block, part, partition, number within the grant. -/
structure SavedSum where
  blk : Nat
  part : Nat
  prt : Nat
  n : Nat
  buf : SumBuf
  deriving DecidableEq, Repr

/-- A circular buffer in a frame (R358), with the fragments that wait at it, in order (R60, R149). -/
structure SavedCb where
  blk : Nat
  part : Nat
  n : Nat
  buf : CBuf
  writers : List CbWaiter := []
  readers : List CbWaiter := []
  deriving DecidableEq, Repr

/-- A scratchpad window in a frame (R358). -/
structure SavedWin where
  blk : Nat
  part : Nat
  bytes : Memory
  deriving DecidableEq, Repr

/-- A tile context in a frame (R359). -/
structure SavedTile where
  blk : Nat
  part : Nat
  ctx : TileCtx
  slots : KMap Slot
  banks : List Bank
  deriving DecidableEq, Repr

/-- The banks of a block part that has no open tile context, which keep their contents from one gate to the next (R192). -/
structure SavedBanks where
  blk : Nat
  part : Nat
  banks : List Bank
  deriving DecidableEq, Repr

/-- The structured content of a task's frame between save and restore (R355 to R360): `queues` gives each fragment its place in its
partition's queue, `qwaits` the waiters of the task's hardware queues. -/
structure FrameData where
  windows : List SavedWin := []
  cbufs : List SavedCb := []
  sums : List SavedSum := []
  tiles : List SavedTile := []
  banks : List SavedBanks := []
  queues : List (Nat × Nat × Nat) := []
  qwaits : KMap (List (Nat × Nat × Bool)) := []
  grants : List Grant := []
  deriving DecidableEq, Repr

/-- A task: a gang of a launch (R223, R335), or an evaluator (R280). `first` puts it before the others of its process (R335); `waiting`
marks a newcomer that has chosen victims (R336); `evalAt` gives an evaluator's PLACE, the cell's home die and the first loader's cluster,
`reserveSlot` its slot as cluster and number, `moving` that it is saved because its slot moves (R402). -/
structure Task where
  launch : Nat
  gang : Nat
  st : TaskSt := .pending
  nblk : Nat := 1
  desc : KDesc
  grants : List Grant := []
  waves : List Nat := []
  frame : FrameLoc := { va := 0, pa := 0 }
  data : FrameData := {}
  pf : Bool := false
  halt : Bool := false
  slice : Bool := false
  stepF : Bool := false
  everPlaced : Bool := false
  placedAt : Nat := 0
  pendingSince : Nat := 0
  wantKill : Bool := false
  endFault : Option (Nat × DWord × DWord) := none
  pages : List DWord := []
  cell : Option Nat := none
  reserveSlot : Option (Nat × Nat) := none
  moving : Bool := false
  wdN : Nat := 0
  silent : Nat := 0
  debug : Option Nat := none
  chargedAt : Nat := 0
  reports : List (Nat × List Byte) := []
  restart : Bool := false
  stopIssue : Bool := false
  unresolved : List Nat := []
  first : Bool := false
  waiting : Bool := false
  evalAt : Option (Nat × Nat × Nat) := none
  deriving DecidableEq, Repr

/-- A loop of a packet level (R329): first body packet, body length, passes left. -/
structure PLoop where
  first : Nat
  n : Nat
  left : Nat
  deriving DecidableEq, Repr

/-- A level of packet execution (R318, R319). `base` is the ring's physical base or the buffer's virtual address. A window copy is a
packet's 64 bytes, or the one byte of a fault kind with which its read failed. Packets are numbered from position `org` on,
and with `rot` (the first and the end of a loop's body) in the order of R340; `hw` counts the numbers whose packets have
started. `fenced` marks a caller level that an FFENCE has emptied. -/
structure Level where
  ring : Bool
  base : Nat
  len : Nat
  pos : Nat
  window : KMap (List Byte) := []
  loop : Option PLoop := none
  org : Nat := 0
  rot : Option (Nat × Nat) := none
  hw : Nat := 0
  fenced : Bool := false
  deriving DecidableEq, Repr

/-- A queue (R316) with the state of its command processor's execution (R318 to R331, R338). `finished` counts the packets that have
finished (R333); `reserved` names the reservation that the queue is bound to (R399). -/
structure Queue where
  ring : Nat := 0
  rptr : Nat := 0
  wptr : Nat := 0
  log : Nat := 4
  st : Nat := 0
  asid : Nat := 0
  proc : Nat := 0
  flog : Nat := 0
  flogn : Nat := 0
  fidx : Nat := 0
  drops : Nat := 0
  ack : Nat := 0
  levels : List Level := []
  polling : Bool := false
  lastPoll : Nat := 0
  sawFault : Bool := false
  sawKill : Bool := false
  drainTo : Nat := 0
  drainKill : Bool := false
  reserved : Option Nat := none
  finished : Nat := 0
  deriving DecidableEq, Repr

/-- A process of the run tree (R314). -/
structure Proc where
  weight : Nat := 1024
  vt : Nat := 0
  asid : Option Nat := none
  deriving DecidableEq, Repr

/-- ASID states (R259). -/
inductive AsidSt
  | free | bound | retiring
  deriving DecidableEq, Repr

/-- An entry of the ASID table (R250, R259), with the process that it was bound for (R385). -/
structure Asid where
  st : AsidSt := .free
  root : Nat := 0
  tplc : Nat := 0
  proc : Nat := 0
  deriving DecidableEq, Repr

/-- A main-memory leaf whose mapping has been removed: its address space, the address it mapped, the entry, its size (R252). -/
structure OldLeaf where
  asid : Nat
  va : Nat
  entry : Nat
  size : Nat
  deriving DecidableEq, Repr

/-- An invalidation in progress (R258): the accesses (wave and entry) and copies of the lines that it covers which had not performed when it
started, or have since been translated through an entry that it removed (R144). `old` gives the leaves whose mapping it ends (R252). -/
structure Inval where
  asid : Nat
  range : Option (Nat × Nat)
  waits : List (Nat × Nat) := []
  copies : List Nat := []
  old : List OldLeaf := []
  deriving DecidableEq, Repr

/-- The structure that holds a cached page entry: a set of a core's L1 TLB (R256), a cluster's L2 TLB or a die's walk cache (R257). -/
inductive TlbPlace
  | l1 (core set : Nat) | l2 (cluster : Nat) | table (die : Nat)
  deriving DecidableEq, Repr

/-- A cached page entry (R256, R257). `gone` names the invalidation that has removed it: until that completes, an access may still
translate by it (R258); `used` marks such an entry that the instruction being accepted has used. -/
structure Tlb where
  place : TlbPlace
  asid : Nat
  level : Nat
  vpn : Nat
  entry : DWord
  gone : Option Nat := none
  used : Bool := false
  deriving DecidableEq, Repr

/-- A home-side watch unit (R265, R266) and the debugger session that it serves. -/
structure WatchH where
  sess : Nat := 0
  wbase : Nat := 0
  wlen : Nat := 0
  ctl : Word := 0
  deriving DecidableEq, Repr

/-- A debugger session's queue (R368): the storage address of its header, LOG, TAIL, the core reports held while the ring is full, and
the home reports dropped since the last one posted. HEAD stands in memory. -/
structure DebugQ where
  base : Nat := 0
  log : Nat := 4
  tail : Nat := 0
  held : List (List Byte) := []
  dropped : Nat := 0
  deriving DecidableEq, Repr

/-- A fabric window (R385). `freeing` names the invalidations that must complete before it is free. -/
structure Window where
  ep : Nat := 0
  rbase : Nat := 0
  len : Nat := 0
  proc : Nat := 0
  r : Bool := false
  w : Bool := false
  active : Bool := false
  freeing : List Nat := []
  deriving DecidableEq, Repr

/-- A contribution to a collective call (R395). -/
structure Contrib where
  rank : Nat
  lane : Nat
  peer : Nat
  elem : Nat
  op : AtomOp
  t : Ty
  v : Word
  sys : Bool
  deriving DecidableEq, Repr

/-- One open collective call of a group (R395, R397): the ranks that have made it, each with the number of its contributions to this device's
region; the contributions that have arrived; whether its folds have joined their queues and which elements are written; whether the folds
of other devices are written. -/
structure CollCall where
  made : KMap Nat := []
  contribs : List Contrib := []
  queued : Bool := false
  folded : List Nat := []
  remoteDone : Bool := false
  deriving DecidableEq, Repr

/-- A group entry (R387, R388); `asid` is that of the own rank's launch. -/
structure Group where
  live : Bool := false
  gen : Nat := 0
  launch : Nat := 0
  asid : Nat := 0
  rank : Nat := 0
  ranks : List RankInfo := []
  plan : List (List Nat) := []
  nextCall : Nat := 0
  calls : KMap CollCall := []
  freedAt : Option Nat := none
  deriving DecidableEq, Repr

/-- An attestation-log entry's bytes (R374). -/
abbrev AttEntry := List Byte

/-- The handover record of a live update (R376): the run tree with its virtual times, the queues, the ASIDs and the registrations. -/
structure Handover where
  procs : KMap Proc
  queues : KMap Queue
  asids : KMap Asid
  windows : KMap Window
  groups : KMap Group
  deriving DecidableEq, Repr

/-- A page entry that is written once invalidations have completed (R252): those that are left, where it stands, its value. -/
structure Remap where
  waits : List Nat
  key : Nat
  val : DWord
  deriving DecidableEq, Repr

/-- The hub: boot, security, servicing (21) and package-wide registers. `migrating` gives, by a page entry's storage address, the leaf that
has been unmapped for a migration and its level (R379); `remaps` the entries that wait to be mapped anew (R252), `dieGoing` the dies that are being taken offline (R380), `awaited` the groups that
a retirement or an offlining waits for and reports (R379); `ptpOffset` is the estimated offset from the grandmaster (R400); `slotsHeld` gives, by
cluster, the number of reserve slots reported as held (R402). -/
structure Hub where
  on : Bool := false
  recovery : Bool := false
  frozen : Bool := false
  booted : Bool := false
  selector : Nat := 0
  slotA : List Byte := []
  slotB : List Byte := []
  runningSlot : Nat := 0
  runningSvn : Nat := 0
  service : List Byte := []
  minSvn : Nat := 0
  rootHash : List Byte := []
  attest : List AttEntry := []
  chain : List Byte := List.replicate 32 0
  updating : Bool := false
  updateAt : Nat := 0
  newSvn : Nat := 0
  held : List Instr := []
  handover : Option Handover := none
  hot : Option Nat := none
  powerRequest : Bool := false
  ptpLocked : Bool := false
  ptpOffset : Int := 0
  lanesOut : KMap Nat := []
  dieOff : List Nat := []
  dieGoing : List Nat := []
  awaited : List Nat := []
  channelsOut : List (Nat × Nat) := []
  migrating : KMap (Nat × Nat) := []
  remaps : List Remap := []
  readout : List Byte := []
  reply : List Byte := []
  status : Nat := 0
  late : DWord := 0
  droppedPkts : Nat := 0
  reserves : KMap (Nat × Nat × Nat) := []
  slotsHeld : KMap Nat := []
  slices : KMap Nat := []
  budgets : KMap Nat := []
  reservations : List (Nat × Nat × List Nat) := []
  deriving DecidableEq, Repr

/-- The five request counters of a die (R254). -/
structure Counters where
  ldloc : DWord := 0
  ldrem : DWord := 0
  stloc : DWord := 0
  strem : DWord := 0
  walk : DWord := 0
  deriving DecidableEq, Repr

/-- Who performs the instruction being executed. -/
inductive Actor
  | none
  | frag (wave num : Nat)
  | tile (core ctx : Nat)
  | cp (queue : Nat)
  deriving DecidableEq, Repr

/-- The issue the step has begun: the actor, the words fetched (R34), the bundle's NP, whether the words
are a fused sequence (R99), whether the bundle's acceptance has passed (R160), whether an instruction or bundle has issued that leaves no
other trace (R245), and the x registers before the bundle (R161). -/
structure Cur where
  actor : Actor := .none
  iw0 : DWord := 0
  iw1 : DWord := 0
  np : Nat := 1
  fused : Bool := false
  accepted : Bool := false
  issued : Bool := false
  xs : Option (KMap DWord) := none
  deriving DecidableEq, Repr

/-- An atomic's write of a byte (R210): its position, the number of its scope, the value written. -/
structure AtomMark where
  pos : Nat
  level : Nat
  val : Byte
  deriving DecidableEq, Repr

/-- An ordinary store's write of a byte (R210): the storing fragment or context, the position of its Capture, or from which releases of that
fragment count, the value, and the number of scopes, from core up, at which a release has followed it before that position. -/
structure StoreMark where
  who : Nat
  pos : Nat
  val : Byte
  rel : Nat := 0
  deriving DecidableEq, Repr

/-- Which agent the next step is: an issuing wave, a core's tile sequencer, a command processor's queue, or an event of the machine, of
the service or of the outside world. -/
inductive Agent
  | wave (key : Nat)
  | ctx (core : Nat)
  | cp (queue : Nat)
  | event (i : Instr)
  deriving DecidableEq, Repr, Inhabited

/-- The whole machine. `agenda` names, in order, the agents of the coming steps; `ctr` counts steps and indexes the
free values of Config; `cycle` counts core cycles, `time` device-time ticks, `posn` moves of R205. `atoms`, `stored`, `released` and
`mixed` tell which bytes an ordinary store and an atomic have written in one phase, and the values written (R210, R284): `released`
gives by storing fragment and scope the position of its latest release. `l2` lists by die and set the 128-byte lines that the die's L2
holds, by storage line (R253). -/
structure State where
  agenda : List Agent := []
  ctr : Nat := 0
  cycle : Nat := 0
  time : DWord := 0
  posn : Nat := 0
  cur : Cur := {}
  mem : Memory := []
  memPos : KMap Nat := []
  views : KMap PMem := []
  atoms : KMap (List AtomMark) := []
  stored : KMap (List StoreMark) := []
  released : KMap Nat := []
  mixed : KMap (List Byte) := []
  client : Memory := []
  peers : KMap Memory := []
  waves : KMap Wave := []
  cores : KMap Core := []
  copies : KMap Copy := []
  nextCopy : Nat := 0
  barriers : KMap Barrier := []
  qwaits : KMap (List (Nat × Nat × Bool)) := []
  atomQ : KMap (List AtomReq) := []
  tags : KMap Nat := []
  growth : KMap (List Growth) := []
  freeWait : KMap (List (Nat × Nat)) := []
  evalReqs : List EvalReq := []
  nextReq : Nat := 0
  launches : KMap Launch := []
  nextLaunch : Nat := 0
  tasks : KMap Task := []
  nextTask : Nat := 0
  queues : KMap Queue := []
  cpQueue : KMap Nat := []
  procs : KMap Proc := []
  asids : KMap Asid := []
  tlb : List Tlb := []
  invals : KMap Inval := []
  nextInval : Nat := 0
  counters : KMap Counters := []
  l2 : KMap (List Nat) := []
  watchH : KMap WatchH := []
  debugQs : KMap DebugQ := []
  windows : KMap Window := []
  groups : KMap Group := []
  cushions : KMap (List Nat) := []
  hub : Hub := {}
  deriving DecidableEq, Repr

/-- The machine right after reset: power is off, nothing is registered, every register at its reset value
(log entries 5 to 9 name the values the spec does not give). -/
def State.reset : State := {}

end Sys2Proof.Machine
end

