-- ==== Sys2Proof/Machine/Flags.lean ====
section
/-! DEFINITION. The bits of %flags and %mode (R57) and how instructions raise and software reads flags (R58). -/

namespace Sys2Proof.Machine

/-- The bits of %flags and %trapen (R57). -/
def fNV : Word := 0x01
def fDZ : Word := 0x02
def fOF : Word := 0x04
def fUF : Word := 0x08
def fNX : Word := 0x10
def fRNG : Word := 0x20
def fHDR : Word := 0x40
def fSAT : Word := 0x80

/-- The flags `f` when the condition holds. -/
def flagIf (c : Bool) (f : Word) : Word := if c then f else 0

/-- %mode's fields (R57). -/
def modeRM (m : Word) : Nat := bits m.toNat 2 0
def modeF32Sub (m : Word) : Bool := m.getLsbD 3
def modeH16Sub (m : Word) : Bool := m.getLsbD 4
def modeNanm (m : Word) : Bool := m.getLsbD 5
def modeCsat (m : Word) : Bool := m.getLsbD 6

/-- Raises flags that land by cycle `due` (R58). -/
def Wave.raise (w : Wave) (f : Word) (due : Nat) : Wave :=
  if f = 0 then w else { w with flagPend := w.flagPend ++ [(f, due)] }

/-- Raises flags at once. -/
def Wave.raiseNow (w : Wave) (f : Word) : Wave := { w with flags := w.flags ||| f }

/-- The flags whose bound has passed before `cycle` (R58). -/
def Wave.flagsPast (w : Wave) (cycle : Nat) : Word :=
  w.flagPend.foldl (fun f p => if p.2 < cycle then f ||| p.1 else f) w.flags

/-- Every flag, landed or not. -/
def Wave.flagsAll (w : Wave) : Word := w.flagPend.foldl (fun f p => f ||| p.1) w.flags

/-- Flags within their bound may or may not have landed when an SRD or SWR looks at them; what has landed stays landed (R58). -/
def Wave.landFlags (w : Wave) (cycle ctr : Nat) : Wave :=
  let has (p : (Word × Nat) × Nat) : Bool := p.1.2 < cycle || Config.freeBool ctr (2000 + p.2)
  { w with
    flags := w.flagPend.zipIdx.foldl (fun f p => if has p then f ||| p.1.1 else f) w.flags
    flagPend := (w.flagPend.zipIdx.filter fun p => !has p).map (·.1) }

/-- An SWR of %flags: flags already landed are overwritten, later ones are ORed in as they land (R58). -/
def Wave.setFlags (w : Wave) (v : Word) (cycle ctr : Nat) : Wave := { w.landFlags cycle ctr with flags := v }

/-- Drops marks and folds flags whose bound has passed (R20, R58). -/
def Wave.settle (w : Wave) (cycle : Nat) : Wave :=
  { w with
    flags := w.flagsPast cycle
    flagPend := w.flagPend.filter fun p => cycle ≤ p.2
    inflight := w.inflight.filter fun i => cycle ≤ i.due }

/-- Lets every fixed-latency result land (R22). -/
def Wave.land (w : Wave) : Wave := { w with flags := w.flagsAll, flagPend := [], inflight := [] }

end Sys2Proof.Machine
end

