-- ==== Sys2Proof/Machine/Mem.lean ====
section
/-! DEFINITION. Memory and its moves: homes (R251), bytes of H, views and snapshots (R204 to R208), the move of R210,
Publish and Refresh, home-side watch reports (R266), page walks and translation (R246 to R260). -/

namespace Sys2Proof.Machine

/-! ### Cores, waves and other parts by number -/

abbrev Out := Host.Outcome State Fault Refusal

def State.core (s : State) (c : Nat) : Core := kget {} s.cores c
def State.setCore (s : State) (c : Nat) (x : Core) : State := { s with cores := kinsert s.cores c x }
def State.setWave (s : State) (k : Nat) (w : Wave) : State := { s with waves := kinsert s.waves k w }
def State.setTask (s : State) (t : Nat) (x : Task) : State := { s with tasks := kinsert s.tasks t x }
/-- Whether a queue's ring has no room for `n` packets (R333). -/
def Queue.noRoom (x : Queue) (n : Nat) : Bool := 2 ^ x.log < x.wptr - x.rptr + n
def State.setQueue (s : State) (q : Nat) (x : Queue) : State := { s with queues := kinsert s.queues q x }
def State.queue (s : State) (q : Nat) : Queue := kget {} s.queues q
def State.setLaunch (s : State) (l : Nat) (x : Launch) : State := { s with launches := kinsert s.launches l x }
def State.launchOf (s : State) (t : Nat) : Option Launch := (kfind s.tasks t).bind fun x => kfind s.launches x.launch

/-- Changes task `t` if it exists. -/
def State.modTask (s : State) (t : Nat) (f : Task → Task) : State :=
  match kfind s.tasks t with
  | some x => s.setTask t (f x)
  | none => s

/-- Changes wave `k` if it exists. -/
def State.modWave (s : State) (k : Nat) (f : Wave → Wave) : State :=
  match kfind s.waves k with
  | some w => s.setWave k (f w)
  | none => s

/-- Changes launch `l` if it exists. -/
def State.modLaunch (s : State) (l : Nat) (f : Launch → Launch) : State :=
  match kfind s.launches l with
  | some x => s.setLaunch l (f x)
  | none => s

/-- The address space of a task (R317). -/
def State.asidOf (s : State) (t : Nat) : Nat := ((s.launchOf t).map (·.asid)).getD 0

/-- Die, cluster within the die and core within the cluster of a core number. -/
def dieOf (c : Nat) : Nat := c / 64
def clusterOf (c : Nat) : Nat := c / 8

/-! ### Homes (R247, R251) -/

/-- Whether a physical address lies in a fabric window. -/
def isWindow (pa : Nat) : Bool := 2 ^ 51 ≤ pa

/-- The die that the interleaved form homes `a` on. -/
def homeHash (a : Nat) : Nat := bits a 13 12 ^^^ bits a 21 20 ^^^ bits a 29 28 ^^^ bits a 37 36

/-- The storage address of a physical address: die × 2^37 + die offset in main memory, itself in a window. -/
def keyOf (plc pa : Nat) : Nat :=
  if isWindow pa then pa
  else if plc = 0 then homeHash pa * 2 ^ 37 + (bits pa 38 14 * 4096 + bits pa 11 0)
  else pa

/-- The home die of a storage address. -/
def homeDie (key : Nat) : Nat := key / 2 ^ 37

/-! ### Bytes of H -/

/-- What an address that memory does not list reads as (log entry 5). -/
def unlisted : Byte := 0

/-- The home value of a byte; a window's home is its client's memory. -/
def State.rdH (s : State) (key : Nat) : Byte := if isWindow key then kget unlisted s.client key else kget unlisted s.mem key

/-- `n` home bytes from a storage address. -/
def State.rdHs (s : State) (key n : Nat) : List Byte := (List.range n).map fun i => s.rdH (key + i)

/-- The canonical form of memory. -/
abbrev Memory.wf (m : Memory) : Bool := kwf unlisted m

/-- Writes one byte, keeping the canonical form. -/
def Memory.write (m : Memory) (a : Nat) (b : Byte) : Memory := kset unlisted m a b

/-- Writes a list of bytes in order. -/
def Memory.writes (m : Memory) (bs : List (Nat × Byte)) : Memory := bs.foldl (fun m p => Memory.write m p.1 p.2) m

/-! ### Views (R204, R207) -/

/-- View numbers: core c, cluster, die, device, system, and the snapshot of core c. -/
def vCluster (i : Nat) : Nat := 256 + i
def vDie (d : Nat) : Nat := 288 + d
def vDevice : Nat := 292
def vSystem : Nat := 293
def vSnap (c : Nat) : Nat := 512 + c

/-- V(S, I) for the instance of level S that contains core c; block scope is resolved before (R211). -/
def viewAt (sc : Scope) (c : Nat) : Nat :=
  match sc with
  | .core | .block => c
  | .cluster => vCluster (clusterOf c)
  | .die => vDie (dieOf c)
  | .device => vDevice
  | .system => vSystem

/-- The cluster views of one die, of all dies, and the die views. -/
def dieClusters (d : Nat) : List Nat := (List.range 8).map fun i => vCluster (8 * d + i)
def allClusters : List Nat := (List.range 32).map vCluster
def allDies : List Nat := (List.range 4).map vDie

/-- Views(S, c) of R207. -/
def viewsOf (sc : Scope) (c : Nat) : List Nat :=
  match sc with
  | .core | .block => [c]
  | .cluster => [vCluster (clusterOf c), c]
  | .die => vDie (dieOf c) :: dieClusters (dieOf c) ++ [c]
  | .device => vDevice :: allDies ++ allClusters ++ [c]
  | .system => vSystem :: vDevice :: allDies ++ allClusters ++ [c]

/-- The views that a command processor's write at scope S reaches: level S and every narrower level of the device (R330). -/
def viewsCp (sc : Scope) : List Nat :=
  let cores := List.range 256
  match sc with
  | .core | .block => cores
  | .cluster => allClusters ++ cores
  | .die => allDies ++ allClusters ++ cores
  | .device => vDevice :: allDies ++ allClusters ++ cores
  | .system => vSystem :: vDevice :: allDies ++ allClusters ++ cores

/-- Every view but the cores': a write that comes from no core of this device (R207, R393, log entry 10). -/
def viewsWide : List Nat := vSystem :: vDevice :: allDies ++ allClusters

/-- The views of a remote reduction: level S around the home die and the die and cluster views inside it (R393). -/
def viewsRed (sc : Scope) : List Nat := (if sc = .system then vSystem else vDevice) :: allDies ++ allClusters

/-- A byte of a view with its position. -/
def State.rdV (s : State) (v key : Nat) : Byte × Nat := kget (unlisted, 0) (kget [] s.views v) key

/-- Writes bytes into view `v` at position `pos`. -/
def State.wrView (s : State) (bs : List (Nat × Byte)) (pos v : Nat) : State :=
  let m := bs.foldl (fun m p => kset (unlisted, 0) m p.1 (p.2, pos)) (kget [] s.views v)
  { s with views := kset [] s.views v m }

/-- Writes bytes into each of the views. -/
def State.wrViews (s : State) (bs : List (Nat × Byte)) (pos : Nat) (vs : List Nat) : State :=
  vs.foldl (fun s v => s.wrView bs pos v) s

/-! ### Home-side watch units and the debug queue (R265, R266, R368) -/

/-- Whether unit `u` reports a write of `wr` to the line. -/
def WatchH.hits (u : WatchH) (wr : Writer) (line : Nat) : Bool :=
  u.wlen ≠ 0 && u.ctl.getLsbD 0 && (!u.ctl.getLsbD 1 || bits u.ctl.toNat 31 16 == wr.asid) &&
  u.wbase ≤ 64 * line && 64 * line < u.wbase + 64 * u.wlen

/-- The 64-byte report of R266. -/
def watchReport (s : State) (wr : Writer) (u line mask dropped : Nat) : List Byte :=
  let place : List Byte := match wr.core with
    | some c => [BitVec.ofNat 8 (dieOf c), BitVec.ofNat 8 (clusterOf c % 8), BitVec.ofNat 8 (c % 8), BitVec.ofNat 8 wr.part]
    | none => List.replicate 4 0xFF
  let named := wr.src = 0 ∨ wr.src = 1 ∨ wr.src = 3
  toBytes (64 * line) 8 ++ toBytes mask 8 ++ toBytes wr.src 1 ++ toBytes u 1 ++ toBytes (if wr.src ≤ 3 then wr.asid else 0) 2 ++ place ++
  toBytes wr.task 4 ++ toBytes (if named then wr.wave + wr.frag * 65536 else 0) 4 ++ toBytes s.time.toNat 8 ++
  toBytes (if wr.src = 4 then wr.gdev + wr.gid * 65536 else 0) 4 ++ toBytes dropped 4 ++ s.rdHs (64 * line) 8 ++ toBytes 0 8

/-- The 64-byte lines of a set of storage addresses, ascending, without windows. -/
def linesOf (bs : List (Nat × Byte)) : List Nat :=
  kkeys (bs.foldl (fun m p => if isWindow p.1 then m else kinsert m (p.1 / 64) ()) ([] : KMap Unit))

/-- The byte mask of the bytes written in a line. -/
def lineMask (bs : List (Nat × Byte)) (line : Nat) : Nat :=
  bs.foldl (fun m p => if p.1 / 64 = line then m ||| 2 ^ (p.1 % 64) else m) 0

/-! ### Walks (R248 to R251, R260) -/

/-- The leaf that a walk ends at. -/
structure Leaf where
  pa : Nat
  plc : Nat
  sp : Bool
  r : Bool
  w : Bool
  x : Bool
  deriving DecidableEq, Repr

/-- A fault of a walk: kind, reason and level. -/
structure WalkFault where
  kind : Nat
  reason : Nat
  lvl : Nat
  deriving DecidableEq, Repr

/-- Index bits of each level, and the alignment that a leaf and the next table take at that level. -/
def levelBits : Nat → Nat × Nat
  | 4 => (56, 47) | 3 => (46, 38) | 2 => (37, 29) | 1 => (28, 21) | _ => (20, 16)
def leafSize : Nat → Nat
  | 2 => 2 ^ 29 | 1 => 2 ^ 21 | _ => 2 ^ 16
def tableSize : Nat → Nat
  | 4 => 8192 | 3 => 4096 | 2 => 4096 | 1 => 2048 | _ => 256

/-- Whether a valid entry breaks R249 at level `l`. -/
def badEntry (l e : Nat) : Bool :=
  let leaf := bit e 4
  let pa := bits e 51 8 * 256
  let plc := bits e 59 57
  bits e 63 60 ≠ 0 || bits e 55 52 ≠ 0 || bits e 7 5 ≠ 0 || (leaf && 3 ≤ l) || (!leaf && l = 0) ||
  (if leaf then pa % leafSize l ≠ 0 || (1 ≤ plc && plc ≤ 3) || (bit e 56 && bit e 3)
   else bits e 3 1 ≠ 0 || plc ≠ 0 || bit e 56 || pa % tableSize (l - 1) ≠ 0)

/-- Whether a leaf's frame is no storage of this device or its placement is malformed (R247, R251, R267, R385). -/
def State.badFrame (s : State) (e : Nat) : Bool :=
  let pa := bits e 51 8 * 256
  let plc := bits e 59 57
  if isWindow pa then
    plc ≠ 0 || bit e 56 || !(kget {} s.windows (bits pa 50 40)).active
  else 2 ^ 39 ≤ pa || (plc ≠ 0 && bits pa 38 37 ≠ plc % 4)

/-- The virtual page number that a cached entry of a level covers. -/
def levelVpn (l va : Nat) : Nat := bits va 56 (levelBits l).2

/-- Who translates: an address space, a core (256: the hub, log entry 19) and the launch whose sets of the L1 TLB it probes (R256). -/
structure Walker where
  asid : Nat
  core : Nat
  launch : Nat := 0
  deriving DecidableEq, Repr

/-- The set of the core's L1 TLB that the launch probes for a page of level `l`; none where the launch holds no range (R256). -/
def State.l1Set (s : State) (w : Walker) (l va : Nat) : Option Nat :=
  (kfind (s.core w.core).tlbs w.launch).map fun r => r.1 + (va >>> (levelBits l).2) % r.2

/-- Whether a place of the caches serves a walker for an entry of level `l` (R256, R257). -/
def State.serves (s : State) (w : Walker) (l va : Nat) : TlbPlace → Bool
  | .l1 c n => c = w.core && s.l1Set w l va = some n
  | .l2 i => decide (w.core < 256) && i = clusterOf w.core
  | .table d => decide (w.core < 256) && d = dieOf w.core

/-- Whether a cached entry is one for the walker's address. -/
def State.fits (s : State) (w : Walker) (va : Nat) (t : Tlb) : Bool :=
  t.asid = w.asid && t.vpn = levelVpn t.level va && s.serves w t.level va t.place

/-- Whether a removed entry may still translate this line: a choice for each line, level and invalidation (R258). -/
def State.lingers (s : State) (va : Nat) (t : Tlb) : Bool :=
  match t.gone with
  | none => true
  | some id => Config.freeBool s.ctr (2 ^ 60 + (va / 128 * 8 + t.level) * 2 ^ 16 + id)

/-- The cached entry by which a walker goes: a removed one that lingers, else one of the L1 TLB, else any (R256 to R258). -/
def Tlb.best (l : List Tlb) : Option Tlb :=
  ((l.find? fun t => t.gone.isSome).or (l.find? fun t => t.place matches .l1 _ _)).or l.head?

/-- The cached leaf by which a walker translates without a walk. -/
def State.heldLeaf (s : State) (w : Walker) (va : Nat) : Option Tlb :=
  Tlb.best (s.tlb.filter fun t => bit t.entry.toNat 4 && s.fits w va t && s.lingers va t)

/-- The entry that a walk finds at a level: the walk cache's copy of a table's address, or H (R257, R258), and whether it is cached. -/
def State.pte (s : State) (w : Walker) (l va addr plc : Nat) : Nat × Option Tlb :=
  match Tlb.best (s.tlb.filter fun t => !bit t.entry.toNat 4 && t.level = l && s.fits w va t && s.lingers va t) with
  | some t => (t.entry.toNat, some t)
  | none => (ofBytes (s.rdHs (keyOf plc addr) 8), none)

/-- An entry that a walk has read: its level, value, the cached copy if it is one, and its storage address. -/
structure Seen where
  level : Nat
  entry : Nat
  hit : Option Tlb
  key : Nat
  deriving DecidableEq, Repr

/-- The leaf of a valid page entry of level `l`, or its fault (R249, R251). -/
def State.leafOf (s : State) (l e va : Nat) : Except WalkFault Leaf :=
  if s.badFrame e then .error { kind := 0x13, reason := 4, lvl := l }
  else .ok { pa := bits e 51 8 * 256 + va % leafSize l, plc := bits e 59 57, sp := bit e 56, r := bit e 1, w := bit e 2, x := bit e 3 }

/-- A walk from level `l`, table at `base`: the leaf or fault, and the entries read. -/
def State.walk (s : State) (w : Walker) (va plc : Nat) : Nat → Nat → Nat → Except WalkFault Leaf × List Seen
  | 0, _, _ => (.error { kind := 0x13, reason := 4, lvl := 0 }, [])
  | fuel + 1, l, base =>
    let addr := base + 8 * bits va (levelBits l).1 (levelBits l).2
    let (e, hit) := s.pte w l va addr plc
    let seen : Seen := { level := l, entry := e, hit, key := keyOf plc addr }
    if !bit e 0 then (.error { kind := 0x12, reason := 1, lvl := l }, [seen])
    else if badEntry l e then (.error { kind := 0x13, reason := 4, lvl := l }, [seen])
    else if bit e 4 then (s.leafOf l e va, [seen])
    else
      let (r, rest) := s.walk w va plc fuel (l - 1) (bits e 51 8 * 256)
      (r, seen :: rest)

/-- Adds to one of a die's request counters (R254). -/
def State.count (s : State) (die : Nat) (f : Counters → Counters) : State :=
  { s with counters := kset {} s.counters die (f (kget {} s.counters die)) }

/-- The L2 set of a line: its line number within the die, modulo the 49,152 sets of 96 MiB in 16 ways (R253, log entry 20). -/
def l2Set (line : Nat) : Nat := homeDie (128 * line) * 49152 + line % 2 ^ 30 % 49152

/-- A request brings a line into its home die's L2, where the set is full in place of another of its lines (R253). -/
def State.fillL2 (s : State) (line : Nat) : State :=
  let held := kget [] s.l2 (l2Set line)
  if held.contains line || isWindow (128 * line) then s
  else
    let kept := if held.length < 16 then held else held.eraseIdx (Config.freeNat s.ctr (2 ^ 61 + line) % held.length)
    { s with l2 := kinsert s.l2 (l2Set line) (line :: kept) }

/-- Takes one of the entries that satisfy `p` out of a list: the free choice of a victim. -/
def evict {α : Type} (l : List α) (p : α → Bool) (choice : Nat) : List α :=
  let at_ := (l.zipIdx.filter fun x => p x.1).map (·.2)
  match at_[choice % max 1 at_.length]? with
  | some i => l.eraseIdx i
  | none => l

/-- Entries that a place holds, without those that an invalidation has removed. -/
def Tlb.lives (t : Tlb) (p : TlbPlace) : Bool := t.place = p && t.gone.isNone

/-- How many entries a place holds: 16 ways of an L1 set, 8,192 of an L2 TLB, 2,048 of a walk cache (R256, R257). -/
def TlbPlace.size : TlbPlace → Nat
  | .l1 _ _ => 16
  | .l2 _ => 8192
  | .table _ => 2048

/-- Whether filling a place must or may drop another of its entries: a full set of the L1 TLB must; elsewhere the placement is
unspecified (R256, R257). -/
def TlbPlace.drops (p : TlbPlace) (held : Nat) (choice : Bool) : Bool :=
  p.size ≤ held || (choice && match p with | .l1 _ _ => false | _ => true)

/-- Puts an entry into a place of the caches. -/
def State.fillTlb (s : State) (t : Tlb) : State :=
  let rest := s.tlb.filter fun u => !(u.lives t.place && u.asid = t.asid && u.level = t.level && u.vpn = t.vpn)
  let held := (rest.filter fun u => u.lives t.place).length
  let kept := if t.place.drops held (Config.freeBool s.ctr (2 ^ 62 + t.vpn)) then
      evict rest (fun u => u.lives t.place) (Config.freeNat s.ctr (2 ^ 62 + t.vpn))
    else rest
  { s with tlb := t :: kept }

/-- Marks a removed entry by which an access has just been translated (R258). -/
def State.useTlb (s : State) (t : Tlb) : State :=
  if t.gone.isNone then s else { s with tlb := s.tlb.map fun u => if u = t then { u with used := true } else u }

/-- Keeps a leaf in the walker's L1 TLB and, when it comes from a walk, in the cluster's L2 TLB (R256, R257). -/
def State.fillLeaf (s : State) (w : Walker) (va level : Nat) (entry : DWord) (walked : Bool) : State :=
  let t (p : TlbPlace) : Tlb := { place := p, asid := w.asid, level, vpn := levelVpn level va, entry }
  let s1 := match s.l1Set w level va with
    | some n => s.fillTlb (t (.l1 w.core n))
    | none => s
  if walked then s1.fillTlb (t (.l2 (clusterOf w.core))) else s1

/-- What a walk leaves: each entry read from H is a request at its home die's L2 (R253, R254); valid entries stay in the caches of
the walker's core, cluster and die (R256, R257), unless a removed entry has led to them (R258). -/
def State.walked (s : State) (w : Walker) (va : Nat) (seen : List Seen) : State :=
  let stale := seen.any fun x => (x.hit.bind (·.gone)).isSome
  seen.foldl (fun s x =>
    match x.hit with
    | some t => s.useTlb t
    | none =>
      let s := (s.count (homeDie x.key) fun n => { n with walk := n.walk + 1 }).fillL2 (x.key / 128)
      if !bit x.entry 0 || badEntry x.level x.entry || 256 ≤ w.core || stale then s
      else if bit x.entry 4 then s.fillLeaf w va x.level (BitVec.ofNat 64 x.entry) true
      else s.fillTlb { place := .table (dieOf w.core), asid := w.asid, level := x.level, vpn := levelVpn x.level va, entry := BitVec.ofNat 64 x.entry }) s

/-- Kinds of access of R260; a cell instruction's is an atomic that may meet a window page, which its own check refuses (R272). -/
inductive Acc
  | read | write | atomic | cell | fetch
  deriving DecidableEq, Repr

def Acc.code : Acc → Nat
  | .read => 0 | .write => 1 | .atomic | .cell => 2 | .fetch => 3

/-- The permission that is missing, as the reason of kind 0x13. -/
def Leaf.denied (l : Leaf) (a : Acc) : Option Nat :=
  match a with
  | .read => if l.r then none else some 1
  | .write => if l.w then none else some 2
  | .atomic => if !l.r then some 1 else if !l.w then some 2 else if isWindow l.pa then some 5 else none
  | .cell => if !l.r then some 1 else if !l.w then some 2 else none
  | .fetch => if l.x then none else some 3

/-- The leaf of an address with the level of the entry that gave or refused it, from a cache or by a walk. -/
def State.lookup (s : State) (w : Walker) (va : Nat) : State × Except WalkFault (Leaf × Nat) :=
  match s.heldLeaf w va with
  | some t =>
    let s1 := match t.place, t.gone with
      | .l1 _ _, _ => s
      | _, none => s.fillLeaf w va t.level t.entry false
      | _, some _ => s
    (s1.useTlb t, (s.leafOf t.level t.entry.toNat va).map fun f => (f, t.level))
  | none =>
    let x : Asid := kget {} s.asids w.asid
    let (r, seen) := s.walk w va x.tplc 5 4 x.root
    (s.walked w va seen, r.map fun f => (f, (seen.getLast?.map (·.level)).getD 0))

/-- Translates a virtual address: the leaf, or kind and DETAIL of R260. An address space that is not bound has no table: every address
is not present at the top level (R259, log entry 71). -/
def State.translate (s : State) (w : Walker) (va : Nat) (a : Acc) (eng : Bool) : State × Except (Nat × Nat) Leaf :=
  let detail (reason lvl : Nat) := reason + 16 * lvl + 128 * a.code + (if eng then 512 else 0)
  if (kget {} s.asids w.asid : Asid).st ≠ .bound then (s, .error (0x12, detail 1 4))
  else
    let (s', r) := s.lookup w (va % 2 ^ 57)
    match r with
    | .error f => (s', .error (f.kind, detail f.reason f.lvl))
    | .ok (l, lvl) =>
      match l.denied a with
      | some 5 => (s', .error (0x13, detail 5 0))
      | some n => (s', .error (0x13, detail n lvl))
      | none => (s', .ok l)

/-- The storage address a leaf gives. -/
def Leaf.key (l : Leaf) : Nat := keyOf l.plc l.pa

/-- The storage address of an offset of this device's own rank's region in a live group; its pages are present and pinned (R387). -/
def State.regionKey (s : State) (gid rank off : Nat) : Option Nat :=
  let g : Group := kget {} s.groups gid
  match g.live && g.rank = rank, g.ranks[rank]? with
  | true, some r =>
    let x : Asid := kget {} s.asids g.asid
    match (s.walk { asid := g.asid, core := 256 } ((r.base.toNat + off) % 2 ^ 57) x.tplc 5 4 x.root).1 with
    | .ok leaf => some leaf.key
    | .error _ => none
  | _, _ => none

/-! ### Moves -/

/-- Writes bytes of H at position `pos`: main memory, or a window's client memory. -/
def State.wrH (s : State) (bs : List (Nat × Byte)) (pos : Nat) : State :=
  let here := bs.filter fun p => !isWindow p.1
  { s with
    mem := Memory.writes s.mem here
    memPos := here.foldl (fun m p => kset 0 m p.1 pos) s.memPos
    client := Memory.writes s.client (bs.filter fun p => isWindow p.1) }

/-- A write of the debug queue's ring by the service; it is not itself watched. -/
def State.debugWrite (s : State) (key : Nat) (bs : List Byte) : State :=
  let l := (List.range bs.length).map fun i => (key + i, bs.getD i 0)
  let pos := s.posn + 1
  ({ s with posn := pos }.wrH l pos).wrViews l pos viewsWide

/-- Whether the ring is full: TAIL has run 2^LOG entries ahead of HEAD. -/
def State.debugFull (s : State) (q : DebugQ) : Bool := 2 ^ q.log ≤ q.tail - ofBytes (s.rdHs q.base 8)

/-- Posts an entry to session `d`'s queue and advances TAIL. -/
def State.debugPut (s : State) (d : Nat) (q : DebugQ) (e : List Byte) : State :=
  let q' := { q with tail := q.tail + 1 }
  ({ s with debugQs := kinsert s.debugQs d q' }.debugWrite (q.base + 64 + 64 * (q.tail % 2 ^ q.log)) e).debugWrite (q.base + 8) (toBytes q'.tail 8)

/-- A home report for session `d`, which carries the number dropped before it: dropped and counted when the ring is full (R266, R368). -/
def State.postHome (s : State) (d : Nat) (e : Nat → List Byte) : State :=
  match kfind s.debugQs d with
  | none => s
  | some q =>
    if s.debugFull q then { s with debugQs := kinsert s.debugQs d { q with dropped := q.dropped + 1 } }
    else s.debugPut d { q with dropped := 0 } (e q.dropped)

/-- The number of held reports stands in the header. -/
def State.debugHeld (s : State) (d : Nat) (q : DebugQ) (l : List (List Byte)) : State :=
  { s with debugQs := kinsert s.debugQs d { q with held := l } }.debugWrite (q.base + 24) (toBytes l.length 8)

/-- A core report for session `d`: held while the ring is full (R368). -/
def State.postCore (s : State) (d : Nat) (e : List Byte) : State :=
  match kfind s.debugQs d with
  | none => s
  | some q => if s.debugFull q || q.held ≠ [] then s.debugHeld d q (q.held ++ [e]) else s.debugPut d q e

/-- Posts the held reports for which the ring has room, oldest first. -/
def State.postHeld (s : State) (d : Nat) : List (List Byte) → State
  | [] => s.debugHeld d (kget {} s.debugQs d) []
  | e :: r =>
    let q : DebugQ := kget {} s.debugQs d
    if s.debugFull q then s.debugHeld d q (e :: r) else (s.debugPut d q e).postHeld d r

/-- The last of a move's writers that has written a line: the one that the line's report names (log entry 10). -/
def lastWriter (ms : List (Writer × List (Nat × Byte))) (line : Nat) : Writer :=
  ms.foldl (fun wr m => if m.2.any fun b => b.1 / 64 = line then m.1 else wr) {}

/-- Sends the reports of a move that has just written H, one for each line that it wrote (R266), to the sessions of the units that watch
it; a write of a queue's HEAD lets held reports be posted. -/
def State.watchMove (s : State) (ms : List (Writer × List (Nat × Byte))) : State :=
  let bs := ms.flatMap (·.2)
  if s.debugQs = [] then s
  else
    let s1 := (linesOf bs).foldl (fun s line =>
      let wr := lastWriter ms line
      (kkeys s.watchH).foldl (fun s u =>
        let x : WatchH := kget {} s.watchH u
        if x.hits wr line then s.postHome x.sess fun dropped => watchReport s wr u line (lineMask bs line) dropped else s) s) s
    (kkeys s.debugQs).foldl (fun s d =>
      let q : DebugQ := kget {} s.debugQs d
      if q.held ≠ [] && bs.any (fun b => q.base ≤ b.1 && b.1 < q.base + 8) then s.postHeld d q.held else s) s1

/-- The reports of a move with one writer. -/
def State.watchWrite (s : State) (wr : Writer) (bs : List (Nat × Byte)) : State := s.watchMove [(wr, bs)]

/-- One move that writes bytes to H and to the listed views (R210, R330). -/
def State.move (s : State) (wr : Writer) (bs : List (Nat × Byte)) (vs : List Nat) : State :=
  let pos := s.posn + 1
  (({ s with posn := pos }.wrH bs pos).wrViews bs pos vs).watchWrite wr bs

/-! ### An ordinary store and an atomic in one phase (R210, R284) -/

/-- The scopes from core to system, numbered. -/
def scopeLevel : Scope → Nat
  | .core | .block => 0
  | .cluster => 1
  | .die => 2
  | .device => 3
  | .system => 4

/-- Adds a value to a list that has it at most once. -/
def addVal (l : List Byte) (b : Byte) : List Byte := if l.contains b then l else l ++ [b]

/-- Notes values written to a byte in one phase by stores and atomics. -/
def State.mix (s : State) (a : Nat) (l : List Byte) : State := { s with mixed := kinsert s.mixed a (l.foldl addVal (kget [] s.mixed a)) }

/-- The numbers of storing agents: a fragment of a wave, a tile context of a task's block part. -/
def fragKey (k n : Nat) : Nat := 2 * (16 * k + n)
def ctxKey (task blk part : Nat) : Nat := 2 * ((8 * task + blk) * 4 + part) + 1

/-- The place of an agent's and scope's latest release in `released`. -/
def releaseKey (who level : Nat) : Nat := who * 8 + level

/-- Whether an agent has made a release at a scope of number `level` or wider after a position (R210). -/
def State.releasedSince (s : State) (who level pos : Nat) : Bool :=
  (List.range 5).any fun l => level ≤ l && pos < kget 0 s.released (releaseKey who l)

/-- Notes releases at scope `sc` at the present position. -/
def State.noteRelease (s : State) (sc : Scope) (whos : List Nat) : State :=
  { s with released := whos.foldl (fun m k => kinsert m (releaseKey k (scopeLevel sc)) s.posn) s.released }

/-- Whether a release at a scope of number `level` or wider has followed a store (R210). -/
def State.storeOver (s : State) (level : Nat) (m : StoreMark) : Bool := level < m.rel || s.releasedSince m.who level m.pos

/-- The agents `whos` go on as agent `who`, as fragments do that merge (R59, R115): their stores and releases are its own from here, and each
store keeps the releases that have followed it (R210, log entry 26). -/
def State.uniteAgents (s : State) (whos : List Nat) (who : Nat) : State :=
  let all := who :: whos
  let scopes (m : StoreMark) : Nat := ((List.range 5).filter fun l => s.storeOver l m).length
  let latest (l : Nat) : Nat := all.foldl (fun p x => max p (kget 0 s.released (releaseKey x l))) 0
  { s with
    stored := s.stored.map fun p =>
      (p.1, p.2.map fun m => if all.contains m.who then { m with who, pos := s.posn, rel := scopes m } else m)
    released := (List.range 5).foldl (fun r l => kset 0 r (releaseKey who l) (latest l)) s.released }

/-- Notes an atomic's writes at scope `sc`, and the stores that fall in one phase with it (R210). -/
def State.noteAtom (s : State) (sc : Scope) (bs : List (Nat × Byte)) : State :=
  bs.foldl (fun s p =>
    let s1 : State := { s with atoms := kinsert s.atoms p.1 (kget [] s.atoms p.1 ++ [{ pos := s.posn, level := scopeLevel sc, val := p.2 }]) }
    match ((kget [] s.stored p.1).filter fun m => !s.storeOver (scopeLevel sc) m).map (·.val) with
    | [] => s1
    | l => s1.mix p.1 (l ++ [p.2])) s

/-- Notes an agent's store of bytes, and the atomics that fall in one phase with it (R210). -/
def State.noteStore (s : State) (who : Nat) (bs : List (Nat × Byte)) : State :=
  bs.foldl (fun s p =>
    let old := (kget [] s.stored p.1).filter fun m => !s.storeOver 4 m
    let s1 : State := { s with stored := kinsert s.stored p.1 (old ++ [{ who, pos := s.posn, val := p.2 }]) }
    match ((kget [] s.atoms p.1).filter fun m => !s.releasedSince who m.level m.pos).map (·.val) with
    | [] => s1
    | l => s1.mix p.1 (l ++ [p.2])) s

/-- A byte as a load finds it (R210): where a store and an atomic have fallen in one phase, any of the values written there or the one
that stands there. -/
def State.mixedByte (s : State) (a : Nat) (b : Byte) : Byte :=
  match kfind s.mixed a with
  | none => b
  | some l => (b :: l).getD ((Config.freeByte s.ctr (1000 + a)).toNat % (l.length + 1)) b

/-- The move of R210 by core `c` at scope `sc`: H, Views(S, c) and c's snapshot. -/
def State.moveCore (s : State) (wr : Writer) (c : Nat) (sc : Scope) (bs : List (Nat × Byte)) : State :=
  (s.move wr bs (viewsOf sc c ++ [vSnap c])).noteAtom sc bs

/-- A write of the resident service: H and every view but the cores' own (R207, R208, log entry 10). -/
def State.moveService (s : State) (key : Nat) (bs : List Byte) : State :=
  s.move { src := 5 } ((List.range bs.length).map fun i => (key + i, bs.getD i 0)) viewsWide

/-- Where a byte of a frame lies: placement and physical address. -/
def FrameLoc.place (f : FrameLoc) (o : Nat) : Nat × Nat :=
  match f.pieces.find? fun p => p.off ≤ o && o < p.off + p.len with
  | some p => (p.plc, p.pa + (o - p.off))
  | none => (f.plc, f.pa + o)

/-- The storage address of an offset in a frame. -/
def FrameLoc.key (f : FrameLoc) (o : Nat) : Nat := keyOf (FrameLoc.place f o).1 (FrameLoc.place f o).2

/-- The scheduler writes bytes at an offset in a task's frame (R355), as the service writes (log entry 10). -/
def State.writeFrameAt (s : State) (t off : Nat) (bs : List Byte) : State :=
  match kfind s.tasks t with
  | some x => s.move { src := 5 } (bs.zipIdx.map fun b => (FrameLoc.key x.frame (off + b.2), b.1)) viewsWide
  | none => s

/-- Bytes of another rank's region, as reads of this device find them (R393). -/
def peerKey (gid rank : Nat) : Nat := gid * 4096 + rank

/-- Whether a group is at the generation that an access or packet carries (R388). -/
def State.genLives (s : State) (gid gen : Nat) : Bool := let g : Group := kget {} s.groups gid; g.live && g.gen = gen

/-- Whether the store of an entry still reaches its home: one to a region of an old generation is dropped there (R388). The own rank's
region is one of the group's like another's (log entry 78). -/
def State.reaches (s : State) : Home → Bool
  | .rank g n _ | .own g n => s.genLives g n
  | _ => true

/-- Whether a read still gets an answer: one of an old generation gets none (R388). -/
def State.answers (s : State) : Space → Bool
  | .remote g n _ | .own g n => s.genLives g n
  | _ => true

/-- Delivers a phase-buffer entry to its home (R207, R386, R393). -/
def State.deliver (s : State) (e : PEntry) (pos : Nat) : State :=
  if !s.reaches e.home then s
  else
    match e.home with
    | .rank g _ r => { s with peers := kinsert s.peers (peerKey g r) (Memory.writes (kget [] s.peers (peerKey g r)) e.bytes) }
    | _ => s.wrH e.bytes pos

/-- Whether an entry's home lies on another device (R207, R386), which a store to the own rank's region is taken for (R393). -/
def PEntry.away (e : PEntry) : Bool := e.home ≠ .here

/-- Whether a home is memory of this device, keyed by storage address. -/
def Home.main : Home → Bool
  | .here | .own _ _ => true
  | _ => false

/-- Whether entries of two homes can hold one byte. -/
def Home.meets (h g : Home) : Bool := h = g || (h.main && g.main)

/-- Writes a residue's bytes into view `v` where the view holds an older position (R207). -/
def State.wrOlder (s : State) (bs : List (Nat × Byte)) (pos v : Nat) : State :=
  let m := bs.foldl (fun m p => if (kget (unlisted, 0) m p.1).2 < pos then kset (unlisted, 0) m p.1 (p.2, pos) else m)
    (kget [] s.views v)
  { s with views := kset [] s.views v m }

/-- One entry of a Publish at scope `sc` by core `c`, at the move's position: the state and what stays of the entry. -/
def State.publishEntry (s : State) (c : Nat) (sc : Scope) (pos : Nat) (e : PEntry) : State × Option PEntry :=
  if e.away && sc ≠ .system then (s, some e)
  else match e.residue with
  | some (_, p) =>
    if sc ≠ .system then (s, some e)
    else ((viewsOf .system c).foldl (fun s v => s.wrOlder e.bytes p v) s, none)
  | none =>
    let s1 := s.deliver e pos
    let s2 := if e.home.main && s.reaches e.home then s1.wrViews e.bytes pos (viewsOf sc c ++ [vSnap c]) else s1
    (s2, if sc = .system then none else some { e with residue := some (sc, pos) })

/-- Whether a Publish at scope `sc` writes an entry's bytes to this device's H, which its watch units then see (R207, R266). -/
def State.publishes (s : State) (sc : Scope) (e : PEntry) : Bool :=
  (!e.away || sc = .system) && e.residue.isNone && e.home.main && s.reaches e.home

/-- Publish(S) by core `c` of the phase-buffer entries of one task (R207, R213), as a release of the agents `whos` (R210). It is one move:
its reports follow its last write (R266). -/
def State.publish (s : State) (c : Nat) (sc : Scope) (task : Nat) (whos : List Nat) : State :=
  let pos := s.posn + 1
  let seen := ((s.core c).phase.filter fun e => e.task = task && s.publishes sc e).map fun e => (e.who, e.bytes)
  let r := (s.core c).phase.foldl (fun (acc : State × List PEntry) e =>
    if e.task = task then
      let (s', k) := acc.1.publishEntry c sc pos e
      (s', acc.2 ++ k.toList)
    else (acc.1, acc.2 ++ [e])) ({ s with posn := pos }, [])
  ((r.1.noteRelease sc whos).setCore c { r.1.core c with phase := r.2 }).watchMove seen

/-- Refresh(S) by core `c` (R208). At a scope wider than core it empties the L1 of global lines (R253). -/
def State.refresh (s : State) (c : Nat) (sc : Scope) : State :=
  let src := kget [] s.views (viewAt sc c)
  let snap := kget [] s.views (vSnap c)
  let snap' := src.foldl (fun m p => if (kget (unlisted, 0) m p.1).2 < p.2.2 then kset (unlisted, 0) m p.1 p.2 else m) snap
  let s1 : State := { s with posn := s.posn + 1, views := kset [] s.views (vSnap c) snap' }
  if sc = .core then s1 else s1.setCore c { s1.core c with l1 := [] }

/-- Home memory as a view: every byte with its value and position (R204). -/
def State.homeView (s : State) : PMem :=
  s.memPos.foldl (fun m p => kset (unlisted, 0) m p.1 (s.rdH p.1, p.2)) (s.mem.map fun c => (c.1, (c.2, 0)))

/-- The start of a launch: every V wider than a core, and the view and snapshot of each core that runs nothing else, hold what H holds
(R204, log entry 72). -/
def State.evenViews (s : State) (idle : List Nat) : State :=
  let v := s.homeView
  { s with views := (viewsWide ++ idle ++ idle.map vSnap).foldl (fun m i => kset [] m i v) s.views }

/-- The latest entry of the phase buffer that holds a byte and is not a residue (R206). -/
def phaseByte (l : List PEntry) (home : Home) (a : Nat) : Option Byte :=
  l.foldl (fun r e =>
    if e.residue.isNone && e.home.meets home then
      (e.bytes.foldl (fun r p => if p.1 = a then some p.2 else r) r)
    else r) none

end Sys2Proof.Machine
end

