-- ==== Sys2Proof/Machine/Ops.lean ====
section
/-! DEFINITION. The named operations over registers, fragments, the replay list and the fault log, and taking an exception
(R127, R128) with the return from it (R129): every meaning is written over these. -/

namespace Sys2Proof.Machine

/-! ### Registers -/

/-- Field number of a register of the vector files (R16). -/
def VOp.field : VOp → Nat
  | .v n => n | .o n => 1536 + n | .l n => 1552 + n | .s n => 1792 + n

/-- Key of a vector register's lane. -/
def vkey (field lane : Nat) : Nat := field * 32 + lane

/-- Whether a read of a register, by a lane when it is held per lane, may receive any value at `cycle` (R20). -/
def Wave.undefined (w : Wave) (cycle : Nat) (r : RegId) (lane : Nat) : Bool :=
  w.inflight.any (fun i => i.reg = r && i.lanes.getLsbD lane && cycle ≤ i.due) ||
  w.undef.any (fun u => u.reg = r && u.lanes.getLsbD lane)

/-- A vector register's lane as stored. -/
def Wave.vraw (w : Wave) (field lane : Nat) : Word := kget 0 w.vreg (vkey field lane)

/-- A scalar register as stored. -/
def Wave.sraw (w : Wave) (n : Nat) : Word := kget 0 w.sreg n

/-- Reads a scalar; `slot` names the reading operand for a free value. -/
def rdS (s : State) (w : Wave) (slot n : Nat) : Word :=
  if w.undefined s.cycle (.sca n) 0 then Config.freeReg s.ctr slot 32 else w.sraw n

/-- Reads a scalar pair (R5). -/
def rdS2 (s : State) (w : Wave) (slot n : Nat) : DWord :=
  BitVec.ofNat 64 ((rdS s w slot n).toNat + (rdS s w (slot + 8) (n + 1)).toNat * 2 ^ 32)

/-- Reads a vector register of a file by its field number. -/
def rdF (s : State) (w : Wave) (slot field lane : Nat) : Word :=
  if w.undefined s.cycle (.vec field) lane then Config.freeReg s.ctr slot lane else w.vraw field lane

/-- Reads a vector operand in a lane: a register, or a scalar broadcast to every lane (R16). -/
def rdV (s : State) (w : Wave) (slot : Nat) (x : VOp) (lane : Nat) : Word :=
  match x with
  | .s n => rdS s w slot n
  | _ => rdF s w slot (VOp.field x) lane

/-- Reads a predicate in a lane; p7 reads 1 (R52). -/
def rdP (s : State) (w : Wave) (slot p lane : Nat) : Bool :=
  if 7 ≤ p then true
  else if w.undefined s.cycle (.pred p) lane then (Config.freeReg s.ctr slot lane).getLsbD 0
  else (kget 0 w.preds p).getLsbD lane

/-- Reads a condition register. -/
def rdC (s : State) (w : Wave) (slot n : Nat) : Bool :=
  if w.undefined s.cycle (.cond n) 0 then (Config.freeReg s.ctr slot 32).getLsbD 0 else w.cond.getLsbD n

/-- Writes one lane of a vector register; broadcast scalars are never destinations (R16). -/
def Wave.wrLane (w : Wave) (d : VOp) (lane : Nat) (v : Word) : Wave :=
  { w with vreg := kset 0 w.vreg (vkey (VOp.field d) lane) v }

/-- Writes the lanes of a mask. -/
def Wave.wrV (w : Wave) (d : VOp) (m : Word) (f : Nat → Word) : Wave :=
  { w with vreg := (lanesOf m).foldl (fun r l => kset 0 r (vkey (VOp.field d) l) (f l)) w.vreg }

/-- Writes a scalar. -/
def Wave.wrS (w : Wave) (n : Nat) (v : Word) : Wave := { w with sreg := kset 0 w.sreg n v }

/-- Writes a scalar pair. -/
def Wave.wrS2 (w : Wave) (n : Nat) (v : DWord) : Wave :=
  (w.wrS n (v.setWidth 32)).wrS (n + 1) (BitVec.ofNat 32 (v.toNat >>> 32))

/-- Writes a predicate in the lanes of a mask; a write to p7 is discarded (R52). -/
def Wave.wrP (w : Wave) (p : Nat) (m : Word) (f : Nat → Bool) : Wave :=
  if 7 ≤ p then w
  else
    let set := maskOf ((lanesOf m).filter f)
    { w with preds := kset 0 w.preds p ((kget 0 w.preds p &&& ~~~m) ||| set) }

/-- Writes a condition register. -/
def Wave.wrC (w : Wave) (n : Nat) (v : Bool) : Wave :=
  { w with cond := if v then w.cond ||| (1#4 <<< n) else w.cond &&& ~~~(1#4 <<< n) }

/-- Marks a fixed-latency destination as undefined up to a cycle (R20). -/
def Wave.mark (w : Wave) (r : RegId) (lanes : Word) (due : Nat) : Wave :=
  { w with inflight := w.inflight ++ [{ reg := r, lanes, due }] }

/-- Marks a counter-tracked destination of the entry that is accepted next as undefined until a WAITC covers it (R20). -/
def Wave.markUndef (w : Wave) (r : RegId) (lanes : Word) (ctr : Ctr) (frag : Nat) : Wave :=
  { w with undef := w.undef ++ [{ reg := r, lanes, entry := w.nextEntry, ctr, holder := .frag frag }] }

/-! ### Fragments -/

def Wave.frag (w : Wave) (n : Nat) : Option Frag := w.frags.find? fun f => f.num = n

/-- Replaces the fragment of the same number. -/
def Wave.setFrag (w : Wave) (f : Frag) : Wave := { w with frags := w.frags.map fun g => if g.num = f.num then f else g }

def Wave.modFrag (w : Wave) (n : Nat) (f : Frag → Frag) : Wave :=
  { w with frags := w.frags.map fun g => if g.num = n then f g else g }

/-- Sign extension of a 57-bit address (R246). -/
def canon (x : Nat) : DWord :=
  let y := x % 2 ^ 57
  BitVec.ofNat 64 (if bit y 56 then y + (2 ^ 64 - 2 ^ 57) else y)

/-- The program counter `n` bytes on. -/
def pcAdd (pc : DWord) (n : Nat) : DWord := canon (pc.toNat + n)

/-- The wave and fragment that issue, and what they become. -/
def onFrag (s : State) (f : Nat → Wave → Frag → State) : Out :=
  match s.cur.actor with
  | .frag k n =>
    match kfind s.waves k with
    | some w =>
      match w.frag n with
      | some fr => .next (f k w fr)
      | none => .refused .noIssuer
    | none => .refused .noIssuer
  | _ => .refused .noIssuer

/-- Writes back a wave whose fragment has gone on by `n` bytes. -/
def advance (s : State) (k : Nat) (w : Wave) (fr : Frag) (n : Nat) : State :=
  s.setWave k (w.modFrag fr.num fun g => { g with pc := pcAdd fr.pc n })

/-- The lanes a guard selects in a fragment (R19). -/
def sel (s : State) (w : Wave) (fr : Frag) (g : Guard) : Word :=
  maskOf ((lanesOf fr.mask).filter fun l => rdP s w 4 g.p l != g.neg)

/-- Appends to a partition's fragment queue. -/
def State.enqueue (s : State) (core part k n : Nat) : State :=
  let c := s.core core
  let p := kget {} c.parts part
  s.setCore core { c with parts := kinsert c.parts part { p with queue := p.queue ++ [(k, n)] } }

/-- Takes a fragment out of its partition's queue. -/
def State.dequeue (s : State) (core part k n : Nat) : State :=
  let c := s.core core
  let p := kget {} c.parts part
  s.setCore core { c with parts := kinsert c.parts part { p with queue := p.queue.filter fun q => q ≠ (k, n) } }

/-- A fragment enters Ready at its queue's tail (R60). -/
def State.ready (s : State) (k n : Nat) : State :=
  match kfind s.waves k with
  | some w => (s.setWave k (w.modFrag n fun f => { f with st := .ready })).enqueue w.core w.part k n
  | none => s

/-- The issuing fragment enters Waiting or Parked; its program counter stays at the instruction (R60). -/
def State.hold (s : State) (k n : Nat) (st : FragSt) : State :=
  s.modWave k fun w => { (w.modFrag n fun f => { f with st }) with cur := if w.cur = some n then none else w.cur }

/-- The issuing fragment waits. -/
def waitAt (s : State) (k : Nat) (fr : Frag) (w : Wait) : State := s.hold k fr.num (.waiting w)

/-! ### Counters and the replay list -/

def Frag.bump (f : Frag) (c : Ctr) : Frag :=
  match c with
  | .lc => { f with lc := f.lc + 1 }
  | .sc => { f with sc := f.sc + 1 }
  | .kc => { f with kc := f.kc + 1 }
  | .xc => { f with xc := f.xc + 1 }

def Frag.drop (f : Frag) (c : Ctr) : Frag :=
  match c with
  | .lc => { f with lc := f.lc - 1 }
  | .sc => { f with sc := f.sc - 1 }
  | .kc => { f with kc := f.kc - 1 }
  | .xc => { f with xc := f.xc - 1 }

def Token.drop (t : Token) (c : Ctr) : Token :=
  match c with
  | .lc => { t with lc := t.lc - 1 }
  | .sc => { t with sc := t.sc - 1 }
  | .kc => { t with kc := t.kc - 1 }
  | .xc => { t with xc := t.xc - 1 }

/-- Token register `k`; unlisted tokens are free (R55). -/
def Wave.tok (w : Wave) (k : Nat) : Token := kget {} w.toks k
def Wave.setTok (w : Wave) (k : Nat) (t : Token) : Wave := { w with toks := kset {} w.toks k t }

/-- Lowers the counter that an entry holds, at its fragment or token keeper (R56, R110). -/
def Wave.lower (w : Wave) (h : Holder) (c : Ctr) : Wave :=
  match h with
  | .frag n => w.modFrag n fun f => f.drop c
  | .tok k => w.setTok k ((w.tok k).drop c)

/-- Whether a fence record still covers an access that has not performed or a copy that has not completed (R215). -/
def FenceRec.open (r : FenceRec) (w : Wave) (copies : KMap Copy) : Bool :=
  r.entries.any (fun i => w.replay.any fun e => e.id = i) || r.copies.any (fun i => (kfind copies i).isSome)

/-- Whether every copy of a list has completed. -/
def copiesDone (s : State) (l : List Nat) : Bool := l.all fun i => (kfind s.copies i).isNone

/-- Whether a Waiting fragment's condition holds; the others are released by the event they wait for. -/
def waitOver (s : State) (w : Wave) (f : Frag) : Bool :=
  match f.st with
  | .waiting (.waitc lc sc kc xc) => f.lc ≤ lc && f.sc ≤ sc && f.kc ≤ kc && f.xc ≤ xc
  | .waiting (.fwait i q) => let r := kget {} w.fences i; !(r.pending && r.seq == q)
  | .waiting .rel => f.lc == 0 && f.sc == 0 && f.kc == 0
  | .waiting (.cwait n) => copiesDone s (kget [] f.batches n)
  | .waiting (.token k) => (w.tok k).st == 0
  | .waiting (.coll _ _) => match f.phase with | .signed _ => true | _ => false
  | _ => false

/-- Releases the Waiting fragments of a wave whose condition has come true (R60). Several that one event releases enter the queue in the
order of the wave's fragments: the model's choice (R103, log entry 74). -/
def State.wake (s : State) (k : Nat) : State :=
  match kfind s.waves k with
  | none => s
  | some w => ((w.frags.filter (waitOver s w)).map (·.num)).foldl (fun s n => s.ready k n) s

/-! ### Barriers (R225 to R231) -/

/-- Barriers by number: a block's, a gang's, a launch group's. -/
def barBlock (task blk : Nat) : Nat := 3 * (8 * task + blk)
def barGang (task : Nat) : Nat := 3 * task + 1
def barGroup (launch g : Nat) : Nat := 3 * (256 * launch + g) + 2

def State.barC (s : State) (key : Nat) : Nat := (kget {} s.barriers key).c.toNat

/-- %block of a block of a task's gang (R223). -/
def blockNum (s : State) (task blk : Nat) : Nat :=
  match kfind s.tasks task, s.launchOf task with
  | some t, some l => t.gang * l.gsz + blk
  | _, _ => blk

/-- The groups that contain a block, ascending: at most four (R226). -/
def groupSlots (l : Launch) (block : Nat) : List Nat := ((l.groups.filter fun p => p.2.contains block).map (·.1)).take 4

/-- The barrier that a target names, none for an unassigned slot (R227). -/
def barOfTarget (s : State) (w : Wave) : BarTarget → Option Nat
  | .blk => some (barBlock w.task w.blk)
  | .gang => some (barGang w.task)
  | .slot n =>
    match s.launchOf w.task, kfind s.tasks w.task with
    | some l, some t => ((groupSlots l (blockNum s w.task w.blk))[n]?).map (barGroup t.launch)
    | _, _ => none

/-- The waves of a block. -/
def blockWaves (s : State) (task blk : Nat) : List Wave := (s.waves.filter fun p => p.2.task = task && p.2.blk = blk).map (·.2)

/-- Whether a wave that has not ended has arrived in the open phase (R228). -/
def Wave.arrivedAt (w : Wave) (key c : Nat) : Bool := w.frags ≠ [] && w.frags.all fun f => kfind f.arrivals key = some c

/-- A block's standing: none when it has left, else whether it has arrived (R228). -/
def blockArrived (s : State) (task blk key : Nat) : Option Bool :=
  match kfind s.tasks task with
  | none => none
  | some t =>
    if t.st = .retired || t.st = .killed then none
    else
      let ws := blockWaves s task blk
      if ws = [] then (if t.st = .pending || t.st = .saved then some false else none)
      else
        let live := ws.filter fun w => !w.ended
        if live = [] then none else some (live.all fun w => w.arrivedAt key (s.barC key))

/-- The gang task of a launch that holds a block. -/
def taskOfBlock (s : State) (launch block : Nat) : Option (Nat × Nat) :=
  match kfind s.launches launch with
  | none => none
  | some l =>
    (s.tasks.find? fun p => p.2.launch = launch && p.2.cell = none && p.2.gang = block / max 1 l.gsz).map fun p =>
      (p.1, block % max 1 l.gsz)

/-- The standing of each member that a barrier counts and that has not left. -/
def barMembers (s : State) (key : Nat) : List Bool :=
  let i := key / 3
  match key % 3 with
  | 0 => ((blockWaves s (i / 8) (i % 8)).filter fun w => !w.ended).map fun w => w.arrivedAt key (s.barC key)
  | 1 =>
    match kfind s.tasks i with
    | some t => (List.range t.nblk).filterMap fun b => blockArrived s i b key
    | none => []
  | _ =>
    match kfind s.launches (i / 256) with
    | some l => (kget [] l.groups (i % 256)).filterMap fun b =>
        (taskOfBlock s (i / 256) b).bind fun p => blockArrived s p.1 p.2 key
    | none => []

/-- The fragments that wait at a barrier, of waves that are on a core. -/
def barWaiters (s : State) (key : Nat) : List (Nat × Nat) :=
  s.waves.flatMap fun p =>
    if p.2.resident then (p.2.frags.filter fun f => f.st = .waiting (.barrier key)).map fun f => (p.1, f.num) else []

/-- Completes a barrier's phase when every member left in it has arrived (R228). -/
def State.barCheck (s : State) (key : Nat) : State :=
  let m := barMembers s key
  if m ≠ [] && m.all id then
    let s1 := { s with barriers := kset {} s.barriers key { c := (kget {} s.barriers key).c + 1 } }
    (barWaiters s1 key).foldl (fun s p => s.ready p.1 p.2) s1
  else s

/-- Looks again at every barrier that a block belongs to, after a fragment or wave of it has gone (R228). -/
def State.barSync (s : State) (task blk : Nat) : State :=
  let s1 := (s.barCheck (barBlock task blk)).barCheck (barGang task)
  match s1.launchOf task, kfind s1.tasks task with
  | some l, some t => (groupSlots l (blockNum s1 task blk)).foldl (fun s g => s.barCheck (barGroup t.launch g)) s1
  | _, _ => s1

/-! ### The end of a wave -/

/-- Whether a copy belongs to a wave. -/
def waveCopies (s : State) (k : Nat) : List Nat := (s.copies.filter fun p => p.2.wave = some k).map (·.1)

/-- A wave ends when no fragment is live and every access and copy of it has performed (R116, R153); a task that is being killed ends
as a whole. -/
def State.endWave (s : State) (k : Nat) : State :=
  match kfind s.waves k with
  | none => s
  | some w =>
    if !w.ended && w.frags.isEmpty && w.replay.isEmpty && (waveCopies s k).isEmpty &&
        !((kfind s.tasks w.task).map (·.wantKill)).getD false then
      (s.setWave k { w with ended := true }).barSync w.task w.blk
    else s

/-- An access has performed: its entry goes, its counter falls, and waits are looked at again. -/
def State.perform (s : State) (k id : Nat) : State :=
  match kfind s.waves k with
  | none => s
  | some w =>
    match w.replay.find? fun e => e.id = id with
    | none => s
    | some e =>
      ((s.setWave k ({ w with replay := w.replay.filter fun x => x.id ≠ id }.lower e.holder e.ctr)).wake k).endWave k

/-- A gate call whose XC is raised: a fragment's, or that of the fragment that runs a tile fault's handler (R190, R196). -/
def Phase.isGated : Phase → Bool
  | .gated _ => true
  | _ => false

/-- Request entries that a wave holds: one for each line of each access, and one for each gate call until its XC falls (R56, R140). -/
def Wave.requests (w : Wave) : Nat :=
  w.replay.foldl (fun m e => m + max 1 e.lines.length) 0 +
    (w.frags.filter fun f => f.phase.isGated).length + (w.trapSave.filter fun t => t.phase.isGated).toList.length

/-- Request entries in use on a core. An access holds all of its entries until it performs, and a CPY's lines hold none once it is accepted: the
model's choice (R141, log entry 89). -/
def State.requests (s : State) (c : Nat) : Nat :=
  s.waves.foldl (fun n p => if p.2.core = c && p.2.resident then n + p.2.requests else n) 0

/-- Uncaptured stores of a fragment, oldest first (R143, R206). -/
def Wave.openStores (w : Wave) (n : Nat) : List Nat :=
  (w.replay.filter fun e => e.frag = n && (match e.kind with | .store _ => true | _ => false)).map (·.id)

/-- Adds an accepted access to the replay list of a fragment and raises its counter (R56, R144). -/
def Wave.accept (w : Wave) (fr : Frag) (c : Ctr) (op mode : Nat) (lines : List Nat) (cells : List (Nat × Nat × Nat))
    (kind : EntryKind) : Wave :=
  let e : Entry :=
    { id := w.nextEntry
      frag := fr.num
      holder := .frag fr.num
      ctr := c
      pc := fr.pc
      op
      mode
      kind
      earlier := w.openStores fr.num
      lines
      cells }
  { (w.modFrag fr.num fun f => f.bump c) with replay := w.replay ++ [e], nextEntry := w.nextEntry + 1 }

/-! ### Capture (R136, R206) -/

/-- The writer of a wave's accesses. -/
def State.writer (s : State) (k : Nat) (frag src : Nat) : Writer :=
  match kfind s.waves k with
  | some w =>
    { src, asid := s.asidOf w.task, core := some w.core, part := w.part, task := w.task, wave := w.idx, frag, key := fragKey k frag }
  | none => { src }

/-- A scratchpad byte of the device as one number. -/
def scratchKey (c a : Nat) : Nat := c * 2 ^ 20 + a

/-- Fragments that wait at a hardware queue look at it again (R234). -/
def State.pokeQueue (s : State) (q : Nat) : State :=
  (kget [] s.qwaits q).foldl (fun s p =>
    match (kfind s.waves p.1).bind fun w => w.frag p.2.1 with
    | some f => if f.st = .waiting (.queue q) then s.ready p.1 p.2.1 else s
    | none => s) s

/-- Writes bytes of a core's scratchpad; a write to a queue's header makes the waiters of that queue look again. -/
def State.wrScratch (s : State) (c : Nat) (bs : List (Nat × Byte)) : State :=
  let x := s.core c
  let s' := s.setCore c { x with scratch := Memory.writes x.scratch bs }
  (kkeys s'.qwaits).foldl (fun s q =>
    if bs.any fun b => q ≤ scratchKey c b.1 && scratchKey c b.1 < q + 16 then s.pokeQueue q else s) s'

/-- A byte of a core's scratchpad. -/
def State.rdScratch (s : State) (c a : Nat) : Byte := kget unlisted (s.core c).scratch a

/-- The bytes of one kind of home among a store's bytes, in order. -/
def bytesOf (sp : Space) (bs : List (Space × Nat × Byte)) : List (Nat × Byte) :=
  bs.filterMap fun b => if b.1 = sp then some b.2 else none

/-- The spaces that a store's bytes name, each once. -/
def spacesOf (bs : List (Space × Nat × Byte)) : List Space := (bs.map (·.1)).eraseDups

/-- Adds captured bytes to a core's phase buffer (R206). -/
def State.addPhase (s : State) (c task : Nat) (home : Home) (bs : List (Nat × Byte)) (who : Writer) : State :=
  if bs.isEmpty then s
  else
    let x := s.core c
    s.setCore c { x with phase := x.phase ++ [{ task, home, bytes := bs, who }] }

/-- Captures bytes by a core: scratchpad bytes perform at their bank, the others enter the phase buffer by home. -/
def State.captureBytes (s : State) (c task : Nat) (who : Writer) (bs : List (Space × Nat × Byte)) : State :=
  (spacesOf bs).foldl (fun s sp =>
    let l := bytesOf sp bs
    match sp with
    | .scratch d => s.wrScratch d l
    | .remote g n r => s.addPhase c task (.rank g n r) l who
    | .own g n => (s.addPhase c task (.own g n) l who).noteStore who.key l
    | .global =>
      let here := l.filter fun b => !isWindow b.1
      ((s.addPhase c task .here here who).noteStore who.key here).addPhase c task .window (l.filter fun b => isWindow b.1) who) s

/-- Whether an access is to memory of this device, by storage address. -/
def Space.main : Space → Bool
  | .global | .own _ _ => true
  | _ => false

/-- Whether accesses in two spaces can touch one byte: a load of the own rank's region touches main memory (R393). -/
def Space.meets (p q : Space) : Bool := p = q || (p.main && q.main)

/-- The home whose phase-buffer entries a read of a byte looks through (R206, R386, R393). -/
def Space.homeOf (sp : Space) (a : Nat) : Home :=
  match sp with
  | .remote g n r => .rank g n r
  | _ => if isWindow a then .window else .here

/-- A byte as a load or copy of a core reads it, after the given earlier stores of its fragment (R206, R209, R278, R386,
R393): own stores, the phase buffer, then the snapshot (`fromH`, a window and the own rank's region: the home value). -/
def State.readByte (s : State) (c : Nat) (own : List (List (Space × Nat × Byte))) (sp : Space) (a : Nat) (fromH : Bool) : Byte :=
  match own.foldl (fun r bs => (bs.foldl (fun r b => if b.1.meets sp && b.2.1 = a then some b.2.2 else r) r)) none with
  | some b => b
  | none =>
    match sp with
    | .scratch d => s.rdScratch d a
    | .remote g _ r => (phaseByte (s.core c).phase (sp.homeOf a) a).getD (kget unlisted (kget [] s.peers (peerKey g r)) a)
    | .own _ _ => (phaseByte (s.core c).phase .here a).getD (s.rdH a)
    | .global =>
      match phaseByte (s.core c).phase (sp.homeOf a) a with
      | some b => b
      | none => if fromH || isWindow a then s.rdH a else (s.rdV (vSnap c) a).1

/-- A byte as a load finds it, where stores and atomics may have fallen in one phase (R206, R210). -/
def State.loadByte (s : State) (c : Nat) (own : List (List (Space × Nat × Byte))) (sp : Space) (a : Nat) (fromH : Bool) : Byte :=
  let b := s.readByte c own sp a fromH
  if sp.main then s.mixedByte a b else b

/-- The bytes of those of the listed stores that have not made their Capture. -/
def Wave.ownBytes (w : Wave) (ids : List Nat) : List (List (Space × Nat × Byte)) :=
  w.replay.filterMap fun e => if ids.contains e.id then (match e.kind with | .store bs => some bs | _ => none) else none

/-- Captures a store entry of a wave and lets it perform. -/
def State.captureStore (s : State) (k : Nat) (e : Entry) : State :=
  match kfind s.waves k, e.kind with
  | some w, .store bs => (s.captureBytes w.core w.task (s.writer k e.frag 0) bs).perform k e.id
  | _, _ => s

/-! ### The fault log (R316) -/

/-- Writes a 64-byte record to a queue's fault log, or counts the drop when it is full. -/
def State.log (s : State) (q : Nat) (rc : List Byte) : State :=
  let x := s.queue q
  if (x.fidx + 2 ^ 32 - x.ack) % 2 ^ 32 = 2 ^ x.flogn then s.setQueue q { x with drops := x.drops + 1 }
  else
    (s.moveService (keyOf 0 (x.flog + 64 * (x.fidx % 2 ^ x.flogn))) rc).setQueue q { x with fidx := (x.fidx + 1) % 2 ^ 32 }

/-! ### Exceptions -/

/-- What a fault reports besides the wave's own state (R128). -/
structure Exc where
  kind : Nat
  level : Nat := 0
  lane : Option Nat := none
  addr : Nat := 0
  detail : Nat := 0
  tile : Option (DWord × DWord) := none
  deriving DecidableEq, Repr

/-- The decode refusal as a fault (R33). -/
def DecErr.exc (e : DecErr) : Exc := { kind := e.kind, detail := e.cause + 256 * e.hi + 65536 * e.pos }

/-- Two 32-bit words of a 64-bit value, low first. -/
def wordsOf (x : Nat) : List Word := [BitVec.ofNat 32 x, BitVec.ofNat 32 (x >>> 32)]

/-- The fault record of R128, s496 first. -/
def faultRecord (w : Wave) (fr : Frag) (pc iw0 iw1 : DWord) (e : Exc) : List Word :=
  let place := e.kind + e.level * 2 ^ 8 + dieOf w.core * 2 ^ 16 + (clusterOf w.core % 8) * 2 ^ 18 + (w.core % 8) * 2 ^ 21 + w.part * 2 ^ 24
  let who := w.idx + fr.num * 2 ^ 8 + (e.lane.getD 0) * 2 ^ 12 + (if e.lane.isSome then 2 ^ 17 else 0) +
    (if e.tile.isSome then 2 ^ 18 else 0)
  [BitVec.ofNat 32 place, BitVec.ofNat 32 who] ++ wordsOf pc.toNat ++
  wordsOf ((e.tile.map (·.1.toNat)).getD 0) ++ wordsOf ((e.tile.map (·.2.toNat)).getD 0) ++ wordsOf e.addr ++
  wordsOf iw0.toNat ++ wordsOf iw1.toNat ++ wordsOf e.detail

/-- The 64-byte image of 16 words. -/
def imageOf (l : List Word) : List Byte := l.flatMap fun x => toBytes x.toNat 4

/-- A core report of the debug queue (R369). -/
def haltReport (s : State) (task core part : Nat) (pc : DWord) (addr cause wave frag detail : Nat) : List Byte :=
  toBytes pc.toNat 8 ++ toBytes addr 8 ++ toBytes 0x80 1 ++ toBytes cause 1 ++ toBytes (s.asidOf task) 2 ++
  toBytes (dieOf core) 1 ++ toBytes (clusterOf core % 8) 1 ++ toBytes (core % 8) 1 ++ toBytes part 1 ++ toBytes task 4 ++
  toBytes (wave + frag * 65536) 4 ++ toBytes s.time.toNat 8 ++
  toBytes (((kfind s.tasks task).map fun t => t.frame.va.toNat).getD 0) 8 ++ toBytes detail 8 ++ toBytes 0 8

/-- The task is to be saved halted, with a report for a session, or for the one that has enabled its halts (R361, R363, R368). -/
def State.haltTask (s : State) (t : Nat) (sess : Option Nat) (report : List Byte) : State :=
  s.modTask t fun x => { x with halt := true, stopIssue := true, reports := x.reports ++ [((sess.or x.debug).getD 0, report)] }

/-- The fragment that a report of a wave names: the current one, or the oldest Ready one when none is current (R354, R369). -/
def State.shown (s : State) (k : Nat) (w : Wave) : Option Frag :=
  match w.cur.bind fun n => w.frag n with
  | some f => some f
  | none =>
    match (((kget {} (s.core w.core).parts w.part).queue.find? fun q => q.1 = k).bind fun q => w.frag q.2) with
    | some f => some f
    | none => w.frags.head?

/-- The lowest %wave of a task that has a live fragment; in a gang, that of its lowest block (R354, R369). -/
def State.lowestWave (s : State) (t : Nat) : Option (Nat × Wave) :=
  s.waves.foldl (fun r p =>
    if p.2.task ≠ t || p.2.frags = [] then r
    else
      match r with
      | some x => if x.2.idx ≤ p.2.idx then r else some p
      | none => some p) none

/-- A report that names a wave and the fragment that stands for it (R369). -/
def State.waveReport (s : State) (k : Nat) (w : Wave) (cause : Nat) : List Byte :=
  let f := s.shown k w
  haltReport s w.task w.core w.part ((f.map (·.pc)).getD 0) 0 cause w.idx ((f.map (·.num)).getD 0) 0

/-- A report of a whole task: its lowest wave that has a live fragment (R369). -/
def State.taskReport (s : State) (t cause : Nat) : List Byte :=
  match s.lowestWave t with
  | some (k, w) => s.waveReport k w cause
  | none => haltReport s t 0 0 0 0 cause 0 0 0

/-- Once every wave and context chosen has had its step, the task is to be saved again, halted, with the report of the last (R364). -/
def State.stepDone (s : State) (t : Nat) (report : List Byte) : State :=
  if (s.waves.any fun p => p.2.task = t && p.2.step) || (s.cores.any fun c => c.2.ctxs.any fun x => x.2.task = t && x.2.step) then s
  else s.haltTask t none report

/-- s496 to s511 as they stand. -/
def Wave.highScalars (w : Wave) : List Word := (List.range 16).map fun i => w.sraw (496 + i)

def Wave.setHighScalars (w : Wave) (l : List Word) : Wave :=
  (List.range 16).foldl (fun w i => w.wrS (496 + i) (l.getD i 0)) w

/-- Length in bytes of an instruction by its first word (R14). -/
def wordLen (iw0 : DWord) : Nat := if bit iw0.toNat 53 then 16 else 8

/-- A fault ends the task (R127, R335): its records go to the log, it issues nothing more, and TASK_RETIRE makes the
rest of the end (stores perform, Publish(system), resources freed). -/
def State.endTask (s : State) (t : Nat) (recs : List (List Byte)) (cause : Nat × DWord × DWord) : State :=
  match s.launchOf t with
  | none => s
  | some l => (recs.foldl (fun s r => s.log l.queue r) s).modTask t fun x => { x with endFault := some cause, stopIssue := true }

/-- Enters the handler of wave `k` in fragment `fr` with a record (R127): steps 2 to 4 after the landing of step 1.
`tile` and `len` are kept for the return. -/
def enterHandler (s : State) (k : Nat) (w : Wave) (fr : Frag) (rc : List Word) (kind len : Nat) (tile : Option (Nat × Nat))
    (isJmpt : Bool) : State :=
  let w := w.land
  let save : TrapSave :=
    { frag := fr.num
      live := w.frags.map (·.num)
      pc := fr.pc
      mask := fr.mask
      words := w.highScalars
      len
      tile
      isJmpt
      kind
      phase := fr.phase }
  s.setWave k ({ (w.setHighScalars rc).modFrag fr.num fun f =>
      { f with pc := w.trapbase, st := .issuing, redirect := none, phase := .none } with
    trapSave := some save, cur := some fr.num })

/-- TAKING AN EXCEPTION: a precise fault or trap of fragment `fr` of wave `k`, other than a not-present fault (R127). -/
def State.deliver127 (s : State) (k : Nat) (w : Wave) (fr : Frag) (pc : DWord) (e : Exc) (tile : Option (Nat × Nat)) : State :=
  let w := w.land
  let rc := faultRecord w fr pc s.cur.iw0 s.cur.iw1 e
  let cause := (e.kind, pc, BitVec.ofNat 64 e.addr)
  let len := if s.cur.fused then 32 else wordLen s.cur.iw0
  match w.trapSave with
  | some _ => (s.setWave k w).endTask w.task [imageOf w.highScalars, imageOf rc] cause
  | none =>
    if w.trapbase = 0 then (s.setWave k w).endTask w.task [imageOf rc] cause
    else enterHandler s k w fr rc e.kind len tile (bits s.cur.iw0.toNat 63 54 == 0x124)

/-- A not-present fault of a wave waits for the scheduler to save the task (R261). -/
def State.notPresent (s : State) (k : Nat) (w : Wave) (fr : Frag) (addr : Nat) : State :=
  (s.setWave k { w.land with npFault := some (fr.num, BitVec.ofNat 64 addr) }).modTask w.task fun t =>
    { t with pf := true, stopIssue := true, pages := t.pages ++ [BitVec.ofNat 64 addr] }

/-- Whether the service has reported the page of a faulting wave, or of a faulting tile context by its number, as unresolvable
(R261): its next not-present fault enters the handler. -/
def State.unresolved (s : State) (task key : Nat) : Bool := ((kfind s.tasks task).map fun t => t.unresolved.contains key).getD false

/-- That report has been used. -/
def State.settled (s : State) (task key : Nat) : State :=
  s.modTask task fun t => { t with unresolved := t.unresolved.filter (· ≠ key) }

/-- A fault of the issuing fragment at its own program counter. -/
def takeTrap (s : State) (k : Nat) (w : Wave) (fr : Frag) (e : Exc) : State :=
  if e.kind ≠ 0x12 then s.deliver127 k w fr fr.pc e none
  else if s.unresolved w.task k then (s.settled w.task k).deliver127 k w fr fr.pc e none
  else s.notPresent k w fr e.addr

/-- THE RETURN: restores s496 to s511 and the fragment's saved mask, clears trap-active, and resumes at `pc` (R129). -/
def leaveHandler (s : State) (k : Nat) (w : Wave) (t : TrapSave) (pc : DWord) : State :=
  s.setWave k { ((w.setHighScalars t.words).modFrag t.frag fun f =>
      { f with pc, mask := t.mask, phase := if pc = t.pc then t.phase else .none }) with trapSave := none }

/-! ### Limits of the issuing wave -/

/-- What decoding depends on for a wave (R16, R146, R187, R288). -/
def State.limits (s : State) (w : Wave) : Limits :=
  match kfind s.tasks w.task with
  | none => {}
  | some t =>
    { nv := w.alloc
      ncb := t.desc.ncb
      nsum := t.desc.nsum
      det := ((kfind s.launches t.launch).map (·.det)).getD false
      maps := t.desc.maps.map fun m => (m.getLsbD 3, bits m.toNat 24 21) }

/-- The grant of a wave's block part (R138, R146). -/
def State.grant (s : State) (w : Wave) : Option Grant :=
  (kfind s.tasks w.task).bind fun t => t.grants.find? fun g => g.core = w.core && g.blk = w.blk

/-- Whether a block lies on one core: block scope resolves to core, else to cluster (R211). -/
def State.resolve (s : State) (w : Wave) (sc : Scope) : Scope :=
  match sc with
  | .block =>
    match kfind s.tasks w.task with
    | some t => if (t.grants.filter fun g => g.blk = w.blk).length ≤ 1 then .core else .cluster
    | none => .core
  | x => x

end Sys2Proof.Machine
end

