-- ==== Sys2Proof/Machine/Operands.lean ====
section
/-! DEFINITION. Operand forms of memory accesses: buffer records (R130, R131), element addresses (R132), scratchpad offsets
(R138), translation by line (R140, R141), the core-side watch units (R365 to R367), and the acceptance that loads, stores,
copies, atomics and cell instructions share. -/

namespace Sys2Proof.Machine

/-! ### Buffer records -/

/-- A buffer record's fields (R130). -/
structure BufRec where
  base : Nat
  swz : Nat
  pol : Nat
  stride : Nat
  extent : Nat
  deriving DecidableEq, Repr

/-- The four scalars of a record as one 128-bit number. -/
def rdRecord (s : State) (w : Wave) (slot n : Nat) : Nat :=
  (rdS2 s w slot n).toNat + (rdS2 s w (slot + 16) (n + 2)).toNat * 2 ^ 64

def BufRec.of (x : Nat) : BufRec :=
  { base := bits x 56 0, swz := bits x 59 57, pol := bits x 61 60, stride := bits x 95 64, extent := bits x 127 96 }

/-- The checks of R131: the SX bits, then the reserved values of SWZ and POL, the lower position first. -/
def checkRecord (x : Nat) : Except Exc BufRec :=
  let sx := if bit x 56 then 3 else 0
  if bits x 63 62 ≠ sx then .error { kind := 0x11, addr := bits x 63 0, detail := 1 }
  else if 6 ≤ bits x 59 57 then .error { kind := 0x01, detail := 3 + 2 * 256 + 57 * 65536 }
  else if bits x 61 60 = 3 then .error { kind := 0x01, detail := 3 + 2 * 256 + 60 * 65536 }
  else .ok (BufRec.of x)

/-- Why a lane has no address: kind, reason and ADDR. -/
structure LaneFault where
  kind : Nat
  reason : Nat
  addr : Nat
  deriving DecidableEq, Repr

/-- Swizzle of an offset (R132). -/
def swizzle (m off : Nat) : Nat := if m = 0 then off else off ^^^ (bits off (6 + 3 * m) (4 + 3 * m) * 16)

/-- Place (R132): the byte address of element `e` for an access of `sz` bytes, or no access. -/
def place (r : BufRec) (e : Int) (sz : Nat) : Except LaneFault (Option Nat) :=
  let raw : Bool := r.stride = 0
  let lim : Int := if raw then (r.extent : Int) - sz + 1 else r.extent
  let put (e : Nat) : Except LaneFault (Option Nat) :=
    let off := swizzle r.swz (if raw then e else e * r.stride)
    let a := r.base + off
    if 2 ^ 57 < a + sz then .error { kind := 0x11, reason := 2, addr := a % 2 ^ 64 }
    else if a % sz ≠ 0 then .error { kind := 0x11, reason := 3, addr := a % 2 ^ 64 }
    else .ok (some a)
  if 0 ≤ e ∧ e < lim then put e.toNat
  else if r.pol = 0 ∨ lim ≤ 0 then .ok none
  else if r.pol = 1 then
    .error { kind := 0x10, reason := 1, addr := wrap ((r.base : Int) + (if raw then e else e * r.stride)) 64 }
  else
    let c := if e < 0 then 0 else (lim - 1).toNat
    put (if raw then c - c % sz else c)

/-- A scratchpad offset within a window (R138). -/
def placeScratch (winLen : Nat) (off : Int) (sz : Nat) : Except LaneFault Nat :=
  if off < 0 ∨ (winLen : Int) < off + sz then .error { kind := 0x10, reason := 2, addr := wrap off 64 }
  else if off.toNat % sz ≠ 0 then .error { kind := 0x11, reason := 3, addr := wrap off 64 }
  else .ok off.toNat

/-- The element index of R132: a UINT32 index and the signed offset of the second word. -/
def elemIndex (idx : Word) (off : Option Word) : Int := (idx.toNat : Int) + signed ((off.map (·.toNat)).getD 0) 32

/-- Collects lane addresses; a failure names the lowest failing lane and masks all that fail (R140). LV is 0 and the mask
zero for a scalar access. -/
def gather {α : Type} (lanes : List (Nat × Except LaneFault α)) (lv : Bool) (level : Nat) : Except Exc (List (Nat × α)) :=
  let bad := lanes.filterMap fun p => match p.2 with | .error f => some (p.1, f) | .ok _ => none
  match bad with
  | [] => .ok (lanes.filterMap fun p => match p.2 with | .ok a => some (p.1, a) | .error _ => none)
  | (l, f) :: _ =>
    let lv' := lv && !(f.kind = 0x11 && f.reason = 1)
    .error { kind := f.kind, level, lane := if lv' then some l else none, addr := f.addr,
             detail := f.reason + (if lv then (maskOf (bad.map (·.1))).toNat * 2 ^ 32 else 0) }

/-! ### Translation by line -/

/-- A lane's translated access. -/
structure LaneAddr where
  lane : Nat
  va : Nat
  key : Nat
  sp : Bool
  deriving DecidableEq, Repr

/-- The distinct 128-byte virtual lines of lane addresses, ascending (R141). -/
def vlines (l : List (Nat × Nat)) : List Nat := kkeys (l.foldl (fun m p => kinsert m (p.2 / 128) ()) ([] : KMap Unit))

/-- Who translates for a task on a core. -/
def State.walkerOf (s : State) (task c : Nat) : Walker :=
  { asid := s.asidOf task, core := c, launch := ((kfind s.tasks task).map (·.launch)).getD 0 }

/-- Who translates for a wave. -/
def State.walker (s : State) (w : Wave) : Walker := s.walkerOf w.task w.core

/-- Translates every line in ascending order; the lowest that fails is reported with its lowest lane (R140). -/
def translateLines (s : State) (wk : Walker) (acc : Acc) (lv eng : Bool) (lanes : List (Nat × Nat)) :
    State × Except Exc (List LaneAddr) :=
  let r := (vlines lanes).foldl (fun (st : State × Except Exc (KMap Leaf)) ln =>
    match st.2 with
    | .error _ => st
    | .ok m =>
      let (s', x) := st.1.translate wk (128 * ln) acc eng
      match x with
      | .ok leaf => (s', .ok (kinsert m ln leaf))
      | .error (k, d) =>
        let l := ((lanes.filter fun p => p.2 / 128 = ln).map (·.1)).head?
        (s', .error { kind := k, level := 3, lane := if lv then l else none, addr := (canon (128 * ln)).toNat, detail := d })) (s, .ok [])
  match r.2 with
  | .error e => (r.1, .error e)
  | .ok m =>
    (r.1, .ok (lanes.filterMap fun p => (kfind m (p.2 / 128)).map fun leaf =>
      { lane := p.1, va := p.2, key := leaf.key + p.2 % 128, sp := leaf.sp }))

/-! ### Core-side watch units (R365 to R367) -/

/-- Access kinds of R366 with their enable bit in WCCTL. -/
def watchBit (acc : Acc) : Nat := acc.code + 1

/-- Whether a unit watches any byte of an access. -/
def WatchC.hits (u : WatchC) (asid : Nat) (acc : Acc) (va sz : Nat) : Bool :=
  u.len ≠ 0 && u.ctl.getLsbD 0 && u.ctl.getLsbD (watchBit acc) && bits u.ctl.toNat 31 16 == asid &&
  va < u.base.toNat % 2 ^ 57 + u.len.toNat && u.base.toNat % 2 ^ 57 < va + sz

/-- The watchpoint fault of an access, if a unit matches: the lowest unit, its ACT, and the matching lanes of an access that has lanes (R366). -/
def watchHit (s : State) (c asid : Nat) (acc : Acc) (lv : Bool) (lanes : List (Nat × Nat)) (sz : Nat) : Option Exc :=
  let m := (s.core c).watch
  let hit (u : Nat) := lanes.any fun p => (kget {} m u).hits asid acc p.2 sz
  match (kkeys m).find? hit with
  | none => none
  | some u =>
    let ls := lanes.filter fun p => (kkeys m).any fun v => (kget {} m v).hits asid acc p.2 sz
    let act := (kget {} m u).ctl.getLsbD 5
    some { kind := 0x71, level := 1, lane := if lv then (ls.head?.map (·.1)) else none,
           addr := (canon ((ls.head?.map (·.2)).getD 0)).toNat,
           detail := u + 4 * acc.code + (if act then 16 else 0) + (if lv then (maskOf (ls.map (·.1))).toNat * 2 ^ 32 else 0) }

/-- A watchpoint with ACT = 1 halts the task and keeps its record with the wave (R366). -/
def State.watchHalt (s : State) (k : Nat) (w : Wave) (fr : Frag) (e : Exc) : State :=
  (s.setWave k { w with watchRec := some (faultRecord w fr fr.pc s.cur.iw0 s.cur.iw1 e) }).haltTask w.task
    (some (kget {} (s.core w.core).watch (e.detail % 4) : WatchC).sess)
    (haltReport s w.task w.core w.part fr.pc e.addr 2 w.idx fr.num e.detail)

/-- Takes a fault of acceptance: a watchpoint may halt instead. -/
def refuseAt (s : State) (k : Nat) (w : Wave) (fr : Frag) (e : Exc) : State :=
  if e.kind = 0x71 && bit e.detail 4 then s.watchHalt k w fr e else takeTrap s k w fr e

/-- Tests the watch units for an accepted access, which the instruction that a watch stop has stopped passes once (R366, R367). -/
def watchTest (s : State) (w : Wave) (fr : Frag) (acc : Acc) (lv : Bool) (lanes : List (Nat × Nat)) (sz : Nat) : Option Exc :=
  if fr.wskip = some fr.pc then none else watchHit s w.core (s.asidOf w.task) acc lv lanes sz

/-! ### Acceptance of global accesses (R140) -/

/-- Lanes of an access that the guard selects, or lane 0 for a scalar access. -/
def accLanes (m : Word) : List Nat := lanesOf m

/-- What acceptance gives: the lanes without an access and the lanes with their translated address. -/
structure Accepted where
  nones : List Nat
  lanes : List LaneAddr
  deriving DecidableEq, Repr

/-- Steps 1 to 3 of R140 for a record access, and the watch test of R366, which copies do not take. `idx` gives each lane's
element, `post` the checks that an instruction makes on its translated lanes, `seen` the access kind a watch unit takes it for. -/
def acceptRec (s : State) (w : Wave) (fr : Frag) (recNat : Nat) (ls : List Nat) (idx : Nat → Int) (sz : Nat) (acc seen : Acc)
    (lv eng : Bool) (post : List LaneAddr → Option Exc) : State × Except Exc Accepted :=
  match checkRecord recNat with
  | .error e => (s, .error e)
  | .ok r =>
    match gather (ls.map fun l => (l, place r (idx l) sz)) lv 0 with
    | .error e => (s, .error e)
    | .ok pl =>
      let has := pl.filterMap fun p => p.2.map fun a => (p.1, a)
      let (s', t) := translateLines s (s.walker w) acc lv eng has
      match t with
      | .error e => (s', .error e)
      | .ok la =>
        match (post la).or (if eng then none else watchTest s' w fr seen lv has sz) with
        | some e => (s', .error e)
        | none => (s', .ok { nones := (pl.filter fun p => p.2.isNone).map (·.1), lanes := la })

/-- The window of a wave's block on its core. -/
def winOf (s : State) (w : Wave) : Nat × Nat :=
  match s.grant w with
  | some g => (g.winBase, g.winLen)
  | none => (0, 0)

/-- The scratchpad side of an access: offsets within the wave's window, as offsets of the core's scratchpad (R138). -/
def acceptScratch (s : State) (w : Wave) (ls : List Nat) (off : Nat → Int) (sz : Nat) (lv : Bool) : Except Exc (List (Nat × Nat)) :=
  let (base, len) := winOf s w
  match gather (ls.map fun l => (l, placeScratch len (off l) sz)) lv 1 with
  | .error e => .error e
  | .ok x => .ok (x.map fun p => (p.1, base + p.2))

/-- The virtual lines an access holds request entries for. -/
def heldLines (l : List LaneAddr) : List Nat := vlines (l.map fun x => (x.lane, x.va))

/-- Whether a core has room for `n` more request entries (R140 step 4). -/
def roomFor (s : State) (c n : Nat) : Bool := s.requests c + max 1 n ≤ 4096

/-- Clears WSKIP once that instruction has been accepted (R367). -/
def Wave.noSkip (w : Wave) (fr : Frag) : Wave :=
  if fr.wskip = some fr.pc then w.modFrag fr.num fun f => { f with wskip := none } else w

/-- The keys of a list of accesses to main memory, in units of `n` bytes. -/
def unitsOf (n : Nat) (l : List LaneAddr) : List Nat :=
  kkeys (l.foldl (fun m x => if isWindow x.key then m else kinsert m (x.key / n) ()) ([] : KMap Unit))

/-- Counts a load request, or with `st` a store's, of core `c` (256: the hub or the fabric) at the home die of 128-byte line `ln`, whose
L2 then holds the line (R253, R254). -/
def countLine (s : State) (c ln : Nat) (st : Bool) : State :=
  let d := homeDie (128 * ln)
  let here : Bool := d = dieOf c
  (s.count d fun n =>
    match st, here with
    | false, true => { n with ldloc := n.ldloc + 1 }
    | false, false => { n with ldrem := n.ldrem + 1 }
    | true, true => { n with stloc := n.stloc + 1 }
    | true, false => { n with strem := n.strem + 1 }).fillL2 ln

/-- Counts one request for each 128-byte line of a list of storage addresses. -/
def countKeys (s : State) (c : Nat) (st : Bool) (keys : List Nat) : State :=
  (kkeys (keys.foldl (fun m a => if isWindow a then m else kinsert m (a / 128) ()) ([] : KMap Unit))).foldl (fun s ln => countLine s c ln st) s

/-- Counts the L2 requests of a store: one for each line (R253, R254). -/
def countStores (s : State) (c : Nat) (l : List LaneAddr) : State := countKeys s c true (l.map (·.key))

/-- Lets the L1 hold sectors of a line, in a full set of eight in place of the line marked as the next victim or of any (R133, R139).
Of several marked lines that of the lowest number goes, and a load without .st takes its line's mark: the model's choice (log entry 20). -/
def fillL1 (s : State) (c ln : Nat) (sectors : BitVec 4) (streaming : Bool) : State :=
  let x := s.core c
  let put (m : KMap L1Line) (old : BitVec 4) := s.setCore c { x with l1 := kinsert m ln { sectors := old ||| sectors, streaming } }
  match kfind x.l1 ln with
  | some y => put x.l1 y.sectors
  | none =>
    let set := x.l1.filter fun p => p.1 % 128 = ln % 128
    if set.length < 8 then put x.l1 0
    else
      let victim := (set.find? (·.2.streaming)).or set[Config.freeNat s.ctr (2 ^ 61 + 2 ^ 60 + ln) % set.length]?
      put (victim.elim x.l1 fun v => kerase x.l1 v.1) 0

/-- A store with .st marks the lines that the L1 holds of it as the next victims of their sets (R133); a store fills no line of the L1. -/
def markStream (s : State) (c ch : Nat) (l : List LaneAddr) : State :=
  if ch ≠ 1 then s
  else
    (unitsOf 128 l).foldl (fun s ln =>
      let x := s.core c
      match kfind x.l1 ln with
      | some y => s.setCore c { x with l1 := kinsert x.l1 ln { y with streaming := true } }
      | none => s) s

/-- The sectors that a list of accesses touches in a line. -/
def sectorsOf (l : List LaneAddr) (ln : Nat) : BitVec 4 :=
  l.foldl (fun m x => if x.key / 128 = ln then m ||| (1#4 <<< (x.key / 32 % 4)) else m) 0

/-- The L2 requests of a load: one for each line that misses the L1, which unless `ch` says not to allocate then holds the sectors
(R133, R139, R253, R254). A load of an SP page is performed at its home and never found in the L1 (R278, log entry 20). -/
def countLoads (s : State) (c ch : Nat) (l : List LaneAddr) : State :=
  let s1 := countKeys s c false ((l.filter (·.sp)).map (·.key))
  let l := l.filter fun x => !x.sp
  (unitsOf 128 l).foldl (fun s ln =>
    let need := sectorsOf l ln
    let held := ((kfind (s.core c).l1 ln).map (·.sectors)).getD 0
    let s := if need &&& ~~~held = 0 then s else countLine s c ln false
    if ch = 2 then s else fillL1 s c ln need (ch == 1)) s1

/-- Counts the L2 requests of a copy: one for each 64-byte line (R253, R254). -/
def countCopy (s : State) (c : Nat) (l : List LaneAddr) : State :=
  (unitsOf 64 l).foldl (fun s ln =>
    let d := homeDie (64 * ln)
    (s.count d fun n => if d = dieOf c then { n with stloc := n.stloc + 1 } else { n with strem := n.strem + 1 }).fillL2 (ln / 2)) s

/-! ### Data of loads and stores (R66, R133, R135, R136) -/

/-- Width in bytes of a memory type (R133). -/
def memBytes (t : Ty) : Nat := (Ty.memWidth t).getD 4

/-- A value of `n` bytes extended to 32 bits by its type (R62, R66). -/
def extendMem (t : Ty) (x : Nat) : Word :=
  match t with
  | .i16 => BitVec.ofInt 32 (signed x 16)
  | .i8 => BitVec.ofInt 32 (signed x 8)
  | _ => BitVec.ofNat 32 x

end Sys2Proof.Machine
end

