-- ==== Sys2Proof/Machine/Cells.lean ====
section
/-! DEFINITION. Spore cells (R267 to R287, R402): tags, the growth tables, parking and waking, failure, and the four cell
instructions. A cell is named by its storage address divided by 32. -/

namespace Sys2Proof.Machine

/-! ### Tags and growth entries (R267, R279) -/

/-- Tag codes of R267. -/
def tVALUE : Nat := 0
def tSPORE : Nat := 1
def tGROWING : Nat := 2
def tFAILED : Nat := 3

def State.tag (s : State) (cell : Nat) : Nat := kget 0 s.tags cell
def State.setTag (s : State) (cell t : Nat) : State := { s with tags := kset 0 s.tags cell t }

/-- The base die that stores a cell's line: two under each compute die. -/
def baseDie (cell : Nat) : Nat := 2 * homeDie (32 * cell) + (Config.channelOf (cell / 2) % 64 / 32)

def State.growthOf (s : State) (cell : Nat) : Option Growth := (kget [] s.growth (baseDie cell)).find? fun g => g.cell = cell

/-- Changes a cell's growth entry. -/
def State.modGrowth (s : State) (cell : Nat) (f : Growth → Growth) : State :=
  let l := (kget [] s.growth (baseDie cell)).map fun g => if g.cell = cell then f g else g
  { s with growth := kset [] s.growth (baseDie cell) l }

/-- Block counts as core scope wherever a recorded scope is used (R274). -/
def asCore (sc : Scope) : Scope := match sc with | .block => .core | x => x

/-- Scopes from narrow to wide (R274). -/
def scopeRank : Scope → Nat
  | .core | .block => 0 | .cluster => 1 | .die => 2 | .device => 3 | .system => 4

/-- A scope code (R8); reserved codes never reach this. -/
def scopeCode : Nat → Scope
  | 0 => .core | 1 => .cluster | 2 => .die | 3 => .device | 4 => .system | _ => .block

def scopeNum : Scope → Nat
  | .core => 0 | .cluster => 1 | .die => 2 | .device => 3 | .system => 4 | .block => 5

/-- A cell write: bytes and tag in one move of R210 (R272). -/
def State.writeCell (s : State) (wr : Writer) (core : Nat) (sc : Scope) (cell : Nat) (bytes : List Byte) (tag : Nat) : State :=
  (s.moveCore wr core sc ((List.range bytes.length).map fun i => (32 * cell + i, bytes.getD i 0))).setTag cell tag

/-- The oldest loader parked on a base die's entry-free event becomes ready (R279). -/
def State.entryFree (s : State) (base : Nat) : State :=
  match kget [] s.freeWait base with
  | (k, n) :: r => ({ s with freeWait := kset [] s.freeWait base r }).ready k n
  | [] => s

/-- Wakes a growth entry's waiters in order, each after the Refresh of R282. -/
def State.wakeWaiters (s : State) (g : Growth) : State :=
  g.waiters.foldl (fun s p =>
    match kfind s.waves p.1 with
    | some w => (s.refresh w.core (asCore g.rscope)).ready p.1 p.2
    | none => s) s

/-- Frees a growth entry and wakes its waiters (R274, R281). -/
def State.freeGrowth (s : State) (cell : Nat) : State :=
  match s.growthOf cell with
  | none => s
  | some g =>
    let l := (kget [] s.growth (baseDie cell)).filter fun h => h.cell ≠ cell
    let s' := { s with growth := kset [] s.growth (baseDie cell) l, evalReqs := s.evalReqs.filter fun r => r.cell ≠ cell }
    (s'.entryFree (baseDie cell)).wakeWaiters g

/-- The failure record of R281. -/
def failRecord (entry : List Byte) (cause kind pc addr : Nat) : List Byte :=
  entry ++ toBytes cause 1 ++ toBytes kind 1 ++ toBytes 0 4 ++ toBytes pc 8 ++ toBytes addr 8 ++ toBytes 0 8

/-- Writes a failure record at scope `sc` by a core, and the tag FAILED. -/
def State.writeFail (s : State) (core : Nat) (asid task : Nat) (sc : Scope) (cell cause kind pc addr : Nat) : State :=
  s.writeCell { src := 3, asid, core := some core, task } core (asCore sc) cell
    (failRecord (s.rdHs (32 * cell) 2) cause kind pc addr) tFAILED

/-- A GROWING cell turns FAILED (R281). -/
def State.failCell (s : State) (core : Nat) (asid task cell cause kind pc addr : Nat) : State :=
  match s.growthOf cell with
  | none => s
  | some g => (s.writeFail core asid task g.rscope cell cause kind pc addr).freeGrowth cell

/-! ### Reserve slots (R270, R402) -/

/-- The cores of a cluster in service, in descending core number. -/
def State.inService (s : State) (cluster : Nat) : List Nat :=
  ((List.range 8).map fun i => 8 * cluster + 7 - i).filter fun c => !(s.core c).excluded

/-- The slots of a cluster as (core, partition): those of lower r that fit R53, R138 and R288. -/
def State.reserveSlots (s : State) (cluster : Nat) : List (Nat × Nat) :=
  let (rw, rv, rg) := kget (0, 8, 0) s.hub.reserves (cluster / 8)
  let cs := s.inService cluster
  let m := cs.length
  if m = 0 then []
  else
    let slot (r : Nat) : Nat × Nat := (cs.getD (r % m) 0, (r / m) % 4)
    let fits (r : Nat) : Bool :=
      let before := (List.range (r + 1)).map slot
      let onPart := (before.filter fun x => x = slot r).length
      let onCore := (before.filter fun x => x.1 = (slot r).1).length
      onPart * rv ≤ 3072 && onPart ≤ 4 && onCore * rg ≤ 127
    (((List.range rw).takeWhile fits).map slot)

/-- The clusters that PLACE allows (R280). -/
def placeClusters (place home loader : Nat) : List Nat :=
  match place with
  | 0 => (List.range 8).map fun i => 8 * home + i
  | 1 => [loader]
  | _ => List.range 32

/-! ### Growth (R278 to R280) -/

/-- What a trigger of a SPORE cell leads to. -/
inductive Trigger
  | grown | full | failed
  deriving DecidableEq, Repr

/-- The first load of a SPORE cell asks for its evaluator (R279, R280). -/
def State.trigger (s : State) (k : Nat) (w : Wave) (cell : Nat) (va : DWord) : State × Trigger :=
  let bs := s.rdHs (32 * cell) 32
  let entry := ofBytes (bs.take 2)
  let b2 := (bs.getD 2 0).toNat
  let rscope := scopeCode (bits b2 4 2)
  let place := bits b2 1 0
  let task := kfind s.tasks w.task
  let lid := (task.map (·.launch)).getD 0
  let asid := s.asidOf w.task
  match kfind s.launches lid with
  | none => (s, .full)
  | some l =>
    if !l.hasStab || l.scnt ≤ entry then (s.writeFail w.core asid w.task rscope cell 4 0 0 0, .failed)
    else
      let table := kget [] s.growth (baseDie cell)
      if 4096 ≤ table.length then (s, .full)
      else
        let home := homeDie (32 * cell)
        let cl := clusterOf w.core
        if (placeClusters place home cl).all fun c => (s.reserveSlots c).isEmpty then
          (s.writeFail w.core asid w.task rscope cell 5 0 0 0, .failed)
        else
          let g : Growth := { cell, va, rscope, place, launch := lid, wave := k, cluster := cl }
          let r : EvalReq :=
            { id := s.nextReq
              cell
              prio := bits (bs.getD 3 0).toNat 3 0
              launch := lid
              desc := l.spores.getD entry {}
              place
              homeDie := home
              cluster := cl
              rscope
              va
              bytes := bs }
          let gs := kinsert s.growth (baseDie cell) (table ++ [g])
          (({ s with growth := gs, evalReqs := s.evalReqs ++ [r], nextReq := s.nextReq + 1 }).setTag cell tGROWING, .grown)

/-! ### Parking (R282, R283) -/

/-- The cell on which a task's lowest parked fragment waits. -/
def State.parkedOn (s : State) (task : Nat) : Option Nat :=
  let t := kfind s.tasks task
  ((t.map (·.waves)).getD []).findSome? fun k =>
    (kfind s.waves k).bind fun w => w.frags.findSome? fun f => match f.st with | .parked c => some c | _ => none

/-- The evaluator of a growing cell. -/
def State.evaluatorOf (s : State) (cell : Nat) : Option Nat := (s.growthOf cell).bind (·.evaluator)

/-- The walk of R283 from evaluator `e` at depth `d`: the kind of the trap, with the depth it reports. -/
def State.chain (s : State) (self : Nat) : Nat → Nat → Option Nat → Option (Nat × Nat)
  | 0, _, _ => some (0x33, 16)
  | _ + 1, _, none => none
  | n + 1, d, some e =>
    if e = self then some (0x30, d)
    else
      match s.parkedOn e with
      | none => none
      | some c => if d = 16 then some (0x33, 16) else s.chain self n (d + 1) (s.evaluatorOf c)

/-- Parks a fragment on a growing cell, or traps (R283). -/
def State.park (s : State) (k : Nat) (fr : Frag) (task cell : Nat) : State × Option (Nat × Nat) :=
  match s.chain task 17 1 (s.evaluatorOf cell) with
  | some e => (s, some e)
  | none =>
    ((s.modGrowth cell fun g => { g with waiters := g.waiters ++ [(k, fr.num)] }).hold k fr.num (.parked cell), none)

/-- Takes every parked fragment of a wave off its wait list (R286). -/
def State.unpark (s : State) (k : Nat) : State :=
  let fw := s.freeWait.filterMap fun p =>
    let l := p.2.filter fun x => x.1 ≠ k
    if l.isEmpty then none else some (p.1, l)
  let gr := s.growth.map fun p => (p.1, p.2.map fun g => { g with waiters := g.waiters.filter fun x => x.1 ≠ k })
  { s with growth := gr, freeWait := fw }

/-- The outcome of a load that meets cells (R278). -/
inductive CellLoad
  | pass | held | trap (e : Exc)
  deriving DecidableEq, Repr

/-- A load that finds a SPORE cell and no free growth entry parks on the entry-free event; an evaluator's stays Issuing and tries again
(R279, log entry 75). -/
def State.awaitEntry (s : State) (k : Nat) (w : Wave) (fr : Frag) (base : Nat) : State :=
  if ((kfind s.tasks w.task).bind (·.cell)).isSome then s
  else ({ s with freeWait := kinsert s.freeWait base (kget [] s.freeWait base ++ [(k, fr.num)]) }).hold k fr.num (.parkedFree base)

/-- Visits the cells of a load in ascending virtual address: triggers, failures, and then the lowest growing one. `cells`
gives (virtual address, cell, lowest lane that touches it). -/
def State.meetCells (s : State) (k : Nat) (w : Wave) (fr : Frag) (lv : Bool) (cells : List (Nat × Nat × Nat)) : State × CellLoad :=
  let exc (kind lane va detail : Nat) : Exc :=
    { kind, level := 3, lane := if lv then some lane else none, addr := (canon va).toNat, detail }
  let visit (st : State × Option CellLoad) (x : Nat × Nat × Nat) : State × Option CellLoad :=
    match st.2 with
    | some _ => st
    | none =>
      let (va, cell, lane) := x
      let (s1, t) := if st.1.tag cell = tSPORE then st.1.trigger k w cell (canon va) else (st.1, .grown)
      if t = .full then (s1.awaitEntry k w fr (baseDie cell), some .held)
      else if s1.tag cell = tFAILED then
        let r := s1.rdHs (32 * cell) 4
        (s1, some (.trap (exc 0x31 lane va ((r.getD 2 0).toNat + 256 * (r.getD 3 0).toNat))))
      else (s1, none)
  let r := cells.foldl visit (s, none)
  match r.2 with
  | some o => (r.1, o)
  | none =>
    match cells.find? fun x => r.1.tag x.2.1 = tGROWING with
    | none => (r.1, .pass)
    | some (va, cell, lane) =>
      match r.1.park k fr w.task cell with
      | (s', none) => (s', .held)
      | (s', some (kind, d)) => (s', .trap (exc kind lane va d))

/-- The distinct cells of lane addresses on SP pages, by rising virtual address, with the lowest lane of each. -/
def cellsOf (l : List LaneAddr) : List (Nat × Nat × Nat) :=
  (l.foldl (fun (m : KMap (Nat × Nat)) x =>
    if x.sp && (kfind m (x.va / 32)).isNone then kinsert m (x.va / 32) (x.key / 32, x.lane) else m) []).map
      fun p => (32 * p.1, p.2.1, p.2.2)

/-- A store's refusal at its cells (R284). -/
def storeCells (s : State) (lv : Bool) (l : List LaneAddr) : Option Exc :=
  match l.filter fun x => x.sp && s.tag (x.key / 32) ≠ tVALUE with
  | [] => none
  | x :: r =>
    some { kind := 0x32, level := 3, lane := if lv then some x.lane else none, addr := (canon (x.va - x.va % 32)).toNat,
           detail := 1 + s.tag (x.key / 32) * 256 + (if lv then (maskOf ((x :: r).map (·.lane))).toNat * 2 ^ 32 else 0) }

/-- The refusal of copies, atomics and remote reductions on SP pages (R268, R277). -/
def refuseCells (l : List LaneAddr) : Option Exc :=
  match l.filter (·.sp) with
  | [] => none
  | x :: r =>
    some { kind := 0x32, level := 3, lane := some x.lane, addr := (canon (x.va - x.va % 32)).toNat,
           detail := 4 + (maskOf ((x :: r).map (·.lane))).toNat * 2 ^ 32 }

/-! ### The cell instructions (R271 to R276) -/

/-- The release of R213 by the issuing fragment's core, for its task. -/
def State.releaseAt (s : State) (k : Nat) (w : Wave) (fr : Frag) (sc : Scope) : State := s.publish w.core sc w.task [fragKey k fr.num]

/-- Whether every earlier load, store and atomic of a fragment has performed (R213). -/
def Frag.quiet (f : Frag) : Bool := f.lc == 0 && f.sc == 0 && f.kc == 0

/-- A kind 0x32 fault of a stage: its failing lanes with reason, tag and field (R272, R277). -/
def stageFault (l : List (LaneAddr × Nat × Nat × Nat)) : Option Exc :=
  match l with
  | [] => none
  | (x, reason, tag, field) :: _ =>
    some { kind := 0x32, level := 3, lane := some x.lane, addr := (canon x.va).toNat,
           detail := reason + 256 * tag + 65536 * field + (maskOf (l.map fun y => y.1.lane)).toNat * 2 ^ 32 }

/-- Lanes that name a cell already named by a lower lane (R272). -/
def duplicates : List Nat → List LaneAddr → List LaneAddr
  | _, [] => []
  | seen, x :: r => if seen.contains x.key then x :: duplicates seen r else duplicates (x.key :: seen) r

/-- Page kind, then duplicate lanes (R272). -/
def cellStages (dup : Bool) (l : List LaneAddr) : Option Exc :=
  match stageFault ((l.filter fun x => !x.sp).map fun x => (x, 5, 0, 0)) with
  | some e => some e
  | none => if dup then stageFault ((duplicates [] l).map fun x => (x, 6, 0, 0)) else none

/-- The bit position of a malformed field of a suspension record (R269). -/
def badRecord (r : List Byte) (count : Nat) : Option Nat :=
  let b (i : Nat) : Nat := (r.getD i 0).toNat
  let arg := ofBytes ((r.drop 8).take 8)
  if count ≤ b 0 + 256 * b 1 then some 0
  else if bits (b 2) 1 0 = 3 then some 16
  else if 6 ≤ bits (b 2) 4 2 then some 18
  else if bits (b 2) 7 5 ≠ 0 then some 21
  else if bits (b 3) 7 4 ≠ 0 || b 4 + b 5 + b 6 + b 7 ≠ 0 then some 28
  else if canon arg ≠ BitVec.ofNat 64 arg then some 64
  else none

/-- The 32 bytes of a source group in a lane: byte 4k + b is byte b of v(D + k) (R271). -/
def groupBytes (s : State) (w : Wave) (d : VOp) (lane : Nat) : List Byte :=
  (List.range 8).flatMap fun j => toBytes (rdF s w (32 + j) (VOp.field d + j) lane).toNat 4

/-- The shared course of CELLSET, CELLPUT and CELLCLR: acceptance with the stages of R272, the wait and publication of the
REL at `rel`, the home checks `check`, and then every lane's write `write`. With no lane selected there is no wait and no REL (R19). -/
def cellOp (s : State) (k : Nat) (w : Wave) (fr : Frag) (m : Word) (b len : Nat) (idx : Nat → Int)
    (rel : State → List LaneAddr → Option Scope) (check : State → LaneAddr → Option (Nat × Nat × Nat))
    (write : State → LaneAddr → State) : State :=
  let (s1, r) := acceptRec s w fr (rdRecord s w 2 b) (lanesOf m) idx 32 .cell .cell true false (cellStages true)
  match r with
  | .error e => refuseAt s1 k w fr e
  | .ok a =>
    if m = 0 then advance s1 k (w.noSkip fr) fr len
    else if !roomFor s1 w.core (heldLines a.lanes).length then s1
    else if !fr.quiet then waitAt s1 k fr .rel
    else
      let s2 := match rel s1 a.lanes with
        | some sc => s1.releaseAt k w fr sc
        | none => s1
      match stageFault (a.lanes.filterMap fun x => (check s2 x).map fun c => (x, c)) with
      | some e => takeTrap s2 k w fr e
      | none => a.lanes.foldl write (advance s2 k (w.noSkip fr) fr len)

/-- CELLSET (R273). -/
def execCellset (g : Guard) (d : VOp) (b : Nat) (a : VOp) (imm : Word) (sc : Scope) (s : State) : Out :=
  onFrag s fun k w fr =>
    let scope := s.resolve w sc
    let count := match s.launchOf w.task with | some l => if l.hasStab then l.scnt else 0 | none => 0
    cellOp s k w fr (sel s w fr g) b 16 (fun l => elemIndex (rdV s w 1 a l) (some imm)) (fun _ _ => some scope)
      (fun s x =>
        if s.tag (x.key / 32) = tGROWING then some (2, tGROWING, 0)
        else (badRecord (groupBytes s w d x.lane) count).map fun f => (3, 0, f))
      (fun s x => s.writeCell (s.writer k fr.num 3) w.core scope (x.key / 32) (groupBytes s w d x.lane) tSPORE)

/-- Whether a cell grows under the issuing task (R274). -/
def State.ownGrowth (s : State) (w : Wave) (cell : Nat) : Option Growth :=
  (s.growthOf cell).filter fun g => s.tag cell = tGROWING && g.evaluator = some w.task

/-- CELLPUT (R274): the REL is at the widest recorded scope among the lanes' entries that name this task. -/
def execCellput (g : Guard) (d : VOp) (b : Nat) (a : VOp) (s : State) : Out :=
  onFrag s fun k w fr =>
    cellOp s k w fr (sel s w fr g) b 8 (fun l => elemIndex (rdV s w 1 a l) none)
      (fun s l =>
        (l.filterMap fun x => (s.ownGrowth w (x.key / 32)).map fun h => asCore h.rscope).foldl
          (fun r sc => match r with | some t => some (if scopeRank t < scopeRank sc then sc else t) | none => some sc) none)
      (fun s x => if (s.ownGrowth w (x.key / 32)).isSome then none else some (2, s.tag (x.key / 32), 0))
      (fun s x =>
        let sc := ((s.ownGrowth w (x.key / 32)).map (·.rscope)).getD .core
        (s.writeCell (s.writer k fr.num 3) w.core (asCore sc) (x.key / 32) (groupBytes s w d x.lane) tVALUE).freeGrowth (x.key / 32))

/-- CELLCLR (R275). -/
def execCellclr (g : Guard) (b : Nat) (a : VOp) (sc : Scope) (s : State) : Out :=
  onFrag s fun k w fr =>
    let scope := s.resolve w sc
    cellOp s k w fr (sel s w fr g) b 8 (fun l => elemIndex (rdV s w 1 a l) none) (fun _ _ => some scope)
      (fun s x => if s.tag (x.key / 32) = tGROWING then some (2, tGROWING, 0) else none)
      (fun s x => s.writeCell (s.writer k fr.num 3) w.core scope (x.key / 32) (List.replicate 32 0) tVALUE)

/-- CELLQ (R276): the tags are read in the moves of its acceptance, and its destination is defined once a WAITC on XC
covers it. -/
def execCellq (g : Guard) (d : VOp) (b : Nat) (a : VOp) (s : State) : Out :=
  onFrag s fun k w fr =>
    let m := sel s w fr g
    let (s1, r) := acceptRec s w fr (rdRecord s w 2 b) (lanesOf m) (fun l => elemIndex (rdV s w 1 a l) none) 32 .read .atomic true false
      (cellStages false)
    match r with
    | .error e => refuseAt s1 k w fr e
    | .ok acc =>
      if !roomFor s1 w.core (heldLines acc.lanes).length then s1
      else
        let val (l : Nat) : Word :=
          match acc.lanes.find? fun x => x.lane = l with
          | some x => BitVec.ofNat 32 (s1.tag (x.key / 32))
          | none => 0xFFFFFFFF
        let w1 := ((w.noSkip fr).wrV d m val).markUndef (.vec (VOp.field d)) m .xc fr.num
        advance s1 k { w1 with nextEntry := w1.nextEntry + 1 } fr 8

end Sys2Proof.Machine
end

