-- ==== Sys2Proof/Machine/Float.lean ====
section
/-! DEFINITION. Floating formats and arithmetic (R62 to R65, R81 to R87, R91 to R93): values are exact dyadic numbers, each
result is rounded once. -/

namespace Sys2Proof.Machine

/-- A binary format: exponent and fraction widths (R62). -/
structure Fmt where
  eb : Nat
  mb : Nat
  deriving DecidableEq, Repr

def fp32 : Fmt := { eb := 8, mb := 23 }
def fp16 : Fmt := { eb := 5, mb := 10 }
def bf16 : Fmt := { eb := 8, mb := 7 }

def Fmt.bias (f : Fmt) : Nat := 2 ^ (f.eb - 1) - 1
def Fmt.width (f : Fmt) : Nat := f.eb + f.mb + 1
/-- Exponent of the smallest normal, and of the largest finite value. -/
def Fmt.emin (f : Fmt) : Int := 1 - (f.bias : Int)
def Fmt.emax (f : Fmt) : Int := f.bias
def Fmt.top (f : Fmt) : Nat := 2 ^ f.eb - 1

/-- A value as read: a NaN with its sign and fraction, an infinity, or ± m × 2^e (a zero has m = 0). -/
inductive FVal
  | nan (s : Bool) (frac : Nat) (mb : Nat)
  | inf (s : Bool)
  | fin (s : Bool) (m : Nat) (e : Int)
  deriving DecidableEq, Repr

def sbit (b : Bool) : Nat := if b then 1 else 0

/-- The encoding with the given fields. -/
def Fmt.pack (f : Fmt) (s : Bool) (e m : Nat) : Nat := sbit s * 2 ^ (f.eb + f.mb) + e * 2 ^ f.mb + m

/-- Reads an encoding (R62); `flush` reads a subnormal as a zero of its sign (R63). -/
def Fmt.read (f : Fmt) (flush : Bool) (x : Nat) : FVal :=
  let m := x % 2 ^ f.mb
  let e := (x >>> f.mb) % 2 ^ f.eb
  let s := bit x (f.eb + f.mb)
  if e = f.top then (if m = 0 then .inf s else .nan s m f.mb)
  else if e = 0 then .fin s (if flush then 0 else m) (f.emin - f.mb)
  else .fin s (2 ^ f.mb + m) ((e : Int) - f.bias - f.mb)

def FVal.isNan : FVal → Bool
  | .nan _ _ _ => true
  | _ => false

/-- A NaN whose fraction's top bit is 0. -/
def FVal.isSnan : FVal → Bool
  | .nan _ m mb => !bit m (mb - 1)
  | _ => false

def FVal.sign : FVal → Bool
  | .nan s _ _ | .inf s | .fin s _ _ => s

def FVal.isZero : FVal → Bool
  | .fin _ m _ => m == 0
  | _ => false

def FVal.neg : FVal → FVal
  | .nan s m b => .nan s m b
  | .inf s => .inf !s
  | .fin s m e => .fin (!s) m e

/-- What arithmetic reads of %mode, with the rounding code resolved (R57, R81). -/
structure FEnv where
  rm : Nat := 1
  f32sub : Bool := false
  h16sub : Bool := false
  nanm : Bool := false
  csat : Bool := false
  deriving DecidableEq, Repr

/-- Mode(RND) and the fields of %mode (R81). -/
def FEnv.of (mode : Word) (r : Nat) : FEnv :=
  { rm := if r = 0 then modeRM mode else r, f32sub := modeF32Sub mode, h16sub := modeH16Sub mode, nanm := modeNanm mode,
    csat := modeCsat mode }

/-- The flush field that governs a format (R63). -/
def FEnv.flush (v : FEnv) (f : Fmt) : Bool := if f = fp32 then v.f32sub else v.h16sub

/-- Rounding: whether the magnitude `q` goes up, for the remainder compared with half an ulp (0 exact, 1 below, 2 tie,
3 above), by the mode codes of R23 (R65). -/
def roundUp (rm : Nat) (s : Bool) (q c : Nat) : Bool :=
  if c = 0 then false
  else match rm with
  | 2 => false
  | 3 => !s
  | 4 => s
  | 5 => 2 ≤ c
  | _ => c = 3 || (c = 2 && q % 2 = 1)

/-- `m × 2^e` (plus less than one unit of m when `st`) in units of 2^u: the floor and the remainder's class. -/
def shiftTo (m : Nat) (e u : Int) (st : Bool) : Nat × Nat :=
  if u ≤ e then (m * 2 ^ (e - u).toNat, if st then 1 else 0)
  else
    let k := (u - e).toNat
    let r := m % 2 ^ k
    let h := 2 ^ (k - 1)
    (m / 2 ^ k, if r = 0 then (if st then 1 else 0) else if r < h then 1 else if r = h then (if st then 3 else 2) else 3)

/-- `m × 2^e` rounded to an integer number of 2^u. -/
def roundAt (rm : Nat) (s : Bool) (m : Nat) (e u : Int) (st : Bool) : Nat × Bool :=
  let (q, c) := shiftTo m e u st
  (if roundUp rm s q c then q + 1 else q, c ≠ 0)

/-- The overflow result of R65: whether it is the infinity. -/
def overInf (rm : Nat) (s : Bool) : Bool :=
  match rm with
  | 2 => false
  | 3 => !s
  | 4 => s
  | _ => true

def Fmt.inf (f : Fmt) (s : Bool) : Nat := f.pack s f.top 0
def Fmt.maxFin (f : Fmt) (s : Bool) : Nat := f.pack s (f.top - 1) (2 ^ f.mb - 1)
def Fmt.qnan (f : Fmt) : Nat := f.pack false f.top (2 ^ (f.mb - 1))

/-- RoundTo (R65, R81): the encoding of ± m × 2^e (and a sticky rest) with OF, UF and NX; `csat` replaces an infinite
overflow by the largest finite value (R65). -/
def Fmt.round (f : Fmt) (rm : Nat) (flush csat : Bool) (s : Bool) (m : Nat) (e : Int) (st : Bool) : Nat × Word :=
  if m = 0 && !st then (f.pack s 0 0, 0)
  else
    let top : Int := e + Nat.log2 m
    let free := roundAt rm s m e (top - f.mb) st
    let top' : Int := if 2 ^ (f.mb + 1) ≤ free.1 then top + 1 else top
    let tiny : Bool := top' < f.emin
    let u : Int := max (top - f.mb) (f.emin - f.mb)
    let r := roundAt rm s m e u st
    if flush && tiny then (f.pack s 0 0, fUF ||| fNX)
    else
      let carry : Bool := 2 ^ (f.mb + 1) ≤ r.1
      let ex : Int := u + f.mb + (if carry then 1 else 0)
      if f.emax < ex then
        (if overInf rm s && !csat then f.inf s else f.maxFin s, fOF ||| fNX)
      else
        let fl := flagIf r.2 fNX ||| flagIf (tiny && r.2) fUF
        if r.1 < 2 ^ f.mb then (f.pack s 0 r.1, fl)
        else (f.pack s (ex + f.bias).toNat (if carry then 0 else r.1 - 2 ^ f.mb), fl)

/-- NaNOut (R64): canonical, or the first NaN source with its quiet bit set, its fraction fitted to the format. -/
def Fmt.nanOut (f : Fmt) (nanm : Bool) (srcs : List FVal) : Nat :=
  match nanm, srcs.find? FVal.isNan with
  | true, some (.nan s m mb) =>
    let q := m ||| 2 ^ (mb - 1)
    f.pack s f.top (if f.mb ≤ mb then q >>> (mb - f.mb) else q <<< (f.mb - mb))
  | _, _ => f.qnan

/-- NV for a signalling NaN source. -/
def snanFlag (srcs : List FVal) : Word := flagIf (srcs.any FVal.isSnan) fNV

/-- The result for NaN sources, when there is one. -/
def Fmt.nanCase (f : Fmt) (v : FEnv) (srcs : List FVal) : Option (Nat × Word) :=
  if srcs.any FVal.isNan then some (f.nanOut v.nanm srcs, snanFlag srcs) else none

/-- The invalid operation's result (R83). -/
def Fmt.invalid (f : Fmt) : Nat × Word := (f.qnan, fNV)

/-- A signed exact number as an integer of units 2^e. -/
def unitsAt (s : Bool) (m : Nat) (e u : Int) : Int :=
  let n : Int := (m * 2 ^ (e - u).toNat : Nat)
  if s then -n else n

/-- Exact sum of finite terms (sign, m, e): value in units of the least exponent, and that exponent. -/
def sumTerms (l : List (Bool × Nat × Int)) : Int × Int :=
  match l with
  | [] => (0, 0)
  | (_, _, e0) :: _ =>
    let u := l.foldl (fun u t => min u t.2.2) e0
    (l.foldl (fun a t => a + unitsAt t.1 t.2.1 t.2.2 u) 0, u)

/-- The sign of an exact zero sum: the terms' common sign, else + except under .rm (R65). -/
def zeroSign (rm : Nat) (signs : List Bool) : Bool :=
  if signs.all id then true else if signs.all not then false else rm = 4

/-- Rounds an exact sum. -/
def Fmt.roundSum (f : Fmt) (v : FEnv) (l : List (Bool × Nat × Int)) : Nat × Word :=
  let (n, u) := sumTerms l
  if n = 0 then (f.pack (zeroSign v.rm (l.map (·.1))) 0 0, 0)
  else f.round v.rm (v.flush f) false (n < 0) n.natAbs u false

/-- Sum of terms that may be infinite, none of them NaN (R83, R93). -/
def Fmt.sum (f : Fmt) (v : FEnv) (l : List FVal) : Nat × Word :=
  let infs := l.filterMap fun x => match x with | .inf s => some s | _ => none
  if infs.any id && infs.any not then f.invalid
  else match infs with
  | s :: _ => (f.inf s, 0)
  | [] => f.roundSum v (l.filterMap fun x => match x with | .fin s m e => some (s, m, e) | _ => none)

/-- Exact product of two values that are no NaN; none when it is invalid (R83). -/
def mulVal (a b : FVal) : Option FVal :=
  match a, b with
  | .fin s m e, .fin t n g => some (.fin (s != t) (m * n) (e + g))
  | .inf s, .inf t => some (.inf (s != t))
  | .inf s, .fin t n _ => if n = 0 then none else some (.inf (s != t))
  | .fin s m _, .inf t => if m = 0 then none else some (.inf (s != t))
  | _, _ => none

/-- Addition (R83). -/
def Fmt.add (f : Fmt) (v : FEnv) (a b : FVal) : Nat × Word :=
  (f.nanCase v [a, b]).getD (f.sum v [a, b])

/-- Subtraction: a NaN taken from B keeps its sign (R83). -/
def Fmt.sub (f : Fmt) (v : FEnv) (a b : FVal) : Nat × Word :=
  (f.nanCase v [a, b]).getD (f.sum v [a, b.neg])

/-- Multiplication (R83). -/
def Fmt.mul (f : Fmt) (v : FEnv) (a b : FVal) : Nat × Word :=
  match f.nanCase v [a, b] with
  | some r => r
  | none =>
    match mulVal a b with
    | none => f.invalid
    | some (.fin s m e) => f.round v.rm (v.flush f) false s m e false
    | some x => (f.inf x.sign, 0)

/-- Fused multiply-add: 0 × ∞ sets NV even beside a quiet NaN addend (R83). -/
def Fmt.fma (f : Fmt) (v : FEnv) (a b c : FVal) : Nat × Word :=
  let bad := !a.isNan && !b.isNan && (mulVal a b).isNone
  match f.nanCase v [a, b, c] with
  | some r => (r.1, r.2 ||| flagIf bad fNV)
  | none =>
    match mulVal a b with
    | none => f.invalid
    | some p => f.sum v [p, c]

/-- Division (R83). -/
def Fmt.div (f : Fmt) (v : FEnv) (a b : FVal) : Nat × Word :=
  match f.nanCase v [a, b] with
  | some r => r
  | none =>
    let s := a.sign != b.sign
    match a, b with
    | .inf _, .inf _ => f.invalid
    | .inf _, _ => (f.inf s, 0)
    | _, .inf _ => (f.pack s 0 0, 0)
    | .fin _ m e, .fin _ n g =>
      if n = 0 then (if m = 0 then f.invalid else (f.inf s, fDZ))
      else if m = 0 then (f.pack s 0 0, 0)
      else
        let k := f.mb + 4 + Nat.log2 n
        let x := m * 2 ^ k
        f.round v.rm (v.flush f) false s (x / n) (e - g - k) (x % n ≠ 0)
    | _, _ => f.invalid

/-- Square root (R83). -/
def Fmt.sqrt (f : Fmt) (v : FEnv) (a : FVal) : Nat × Word :=
  match f.nanCase v [a] with
  | some r => r
  | none =>
    match a with
    | .inf s => if s then f.invalid else (f.inf false, 0)
    | .fin s m e =>
      if m = 0 then (f.pack s 0 0, 0)
      else if s then f.invalid
      else
        let k := 2 * (f.mb + 4)
        let odd := (e % 2).toNat
        let x := m * 2 ^ (k + odd)
        let q := Nat.sqrt x
        f.round v.rm (v.flush f) false false q ((e - k - odd) / 2) (q * q ≠ x)
    | _ => f.invalid

/-- Compares two values that are no NaN: −1, 0 or 1; zeros compare equal. -/
def cmpVal (a b : FVal) : Int :=
  match a, b with
  | .inf s, .inf t => if s = t then 0 else if s then -1 else 1
  | .inf s, _ => if s then -1 else 1
  | _, .inf t => if t then 1 else -1
  | .fin s m e, .fin t n g => let u := min e g; (unitsAt s m e u - unitsAt t n g u).sign
  | _, _ => 0

/-- The encoding of a value that the format can hold (a source as read). -/
def Fmt.enc (f : Fmt) (x : FVal) : Nat :=
  match x with
  | .nan s m _ => f.pack s f.top m
  | .inf s => f.inf s
  | .fin s m e => (f.round 1 false false s m e false).1

/-- minimumNumber and maximumNumber (R84). -/
def Fmt.minmax (f : Fmt) (v : FEnv) (isMax : Bool) (a b : FVal) : Nat × Word :=
  let fl := snanFlag [a, b]
  if a.isNan && b.isNan then (f.nanOut v.nanm [a, b], fl)
  else if a.isNan then (f.enc b, fl)
  else if b.isNan then (f.enc a, fl)
  else
    let c := cmpVal a b
    let aLess : Bool := c < 0 || (c = 0 && a.sign && !b.sign)
    (f.enc (if aLess = isMax then b else a), fl)

/-- The relation of VFCMP (R85). -/
def fcmp (c : FCond) (a b : FVal) : Bool :=
  let un := a.isNan || b.isNan
  let k := cmpVal a b
  match c with
  | .eq => !un && k = 0
  | .ne => un || k ≠ 0
  | .lt => !un && k < 0
  | .le => !un && k ≤ 0
  | .gt => !un && 0 < k
  | .ge => !un && 0 ≤ k
  | .un => un
  | .ord => !un

/-- The class mask of VFCLASS (R86). -/
def Fmt.classify (f : Fmt) (x : Nat) : Nat :=
  let m := x % 2 ^ f.mb
  let e := (x >>> f.mb) % 2 ^ f.eb
  let s := bit x (f.eb + f.mb)
  if e = f.top then
    (if m = 0 then (if s then 1 else 2 ^ 7) else if bit m (f.mb - 1) then 2 ^ 9 else 2 ^ 8)
  else if e = 0 then
    (if m = 0 then (if s then 2 ^ 3 else 2 ^ 4) else (if s then 2 ^ 2 else 2 ^ 5))
  else (if s then 2 else 2 ^ 6)

/-- VFRINT (R87): an integral value of the same format. -/
def Fmt.rint (f : Fmt) (v : FEnv) (x : Bool) (a : FVal) : Nat × Word :=
  match f.nanCase v [a] with
  | some r => r
  | none =>
    match a with
    | .fin s m e =>
      let (q, inex) := roundAt v.rm s m e 0 false
      if 0 ≤ e then (f.enc a, 0) else ((f.round 1 false false s q 0 false).1, flagIf (x && inex) fNX)
    | y => (f.enc y, 0)

/-- Float to float conversion with the CSAT rule (R91). -/
def Fmt.convert (f : Fmt) (v : FEnv) (a : FVal) : Nat × Word :=
  match f.nanCase v [a] with
  | some r => r
  | none =>
    match a with
    | .fin s m e => f.round v.rm (v.flush f) v.csat s m e false
    | y => (f.inf y.sign, 0)

/-- Integer to float conversion (R91). -/
def Fmt.ofInt (f : Fmt) (v : FEnv) (n : Int) : Nat × Word :=
  f.round v.rm (v.flush f) v.csat (n < 0) n.natAbs 0 false

/-- Float to integer conversion into [lo, hi] (R91). -/
def toIntVal (v : FEnv) (lo hi : Int) (a : FVal) : Int × Word :=
  match a with
  | .nan _ _ _ => (0, fNV)
  | .inf s => (if s then lo else hi, fNV)
  | .fin s m e =>
    let (q, inex) := roundAt v.rm s m e 0 false
    let n : Int := if s then -(q : Int) else q
    if n < lo then (lo, fNV) else if hi < n then (hi, fNV) else (n, flagIf inex fNX)

/-- VDOT2: c + a0 b0 + a1 b1, formed exactly and rounded once (R93). The model's choices (log entry 73): among several NaNs the first of
a0, a1, b0, b1 and c is the one propagated, and with a NaN source NV is set only for an invalid product or a signalling source, not
for terms that are opposite infinities. -/
def dot2 (v : FEnv) (a0 a1 b0 b1 c : FVal) : Nat × Word :=
  let bad (x y : FVal) : Bool := !x.isNan && !y.isNan && (mulVal x y).isNone
  let inv := bad a0 b0 || bad a1 b1
  match fp32.nanCase v [a0, a1, b0, b1, c] with
  | some r => (r.1, r.2 ||| flagIf inv fNV)
  | none =>
    match mulVal a0 b0, mulVal a1 b1 with
    | some p, some q => fp32.sum v [c, p, q]
    | _, _ => fp32.invalid

/-- The format of a scalar floating type, and of a packed type's elements. -/
def fmtOf : Ty → Fmt
  | .f16 | .pf16 => fp16
  | .bf16 | .pbf16 => bf16
  | _ => fp32

/-- Src (R81). -/
def FEnv.src (v : FEnv) (f : Fmt) (x : Nat) : FVal := f.read (v.flush f) (x % 2 ^ f.width)

end Sys2Proof.Machine
end

