-- ==== Sys2Proof/Machine/Real.lean ====
section
/-! DEFINITION. Real functions in fixed point with 320 fractional bits, far below every bound that R88 and R300 state: the
exact results against which a special function's bound and a distinct-count estimate are judged. A fixed-point number x
stands for x × 2^−320. -/

namespace Sys2Proof.Machine

/-- Fractional bits. -/
def fxP : Nat := 320
def fxOne : Int := (2 ^ fxP : Nat)

/-- Product and quotient of fixed-point numbers, rounded down. -/
def fxMul (a b : Int) : Int := (a * b) >>> fxP
def fxDiv (a b : Int) : Int := (a * fxOne) / b

/-- A sum of `n` terms in which `f` gives the next value of a running power and `g` the term it adds. -/
def series (n : Nat) (f : Nat → Int → Int) (g : Nat → Int → Int) (x : Int) : Int :=
  ((List.range n).foldl (fun (a : Int × Int) i => (a.1 + g i a.2, f i a.2)) (0, x)).1

/-- atanh of u with |u| ≤ 1/3. -/
def fxAtanh (u : Int) : Int := let q := fxMul u u; series 110 (fun _ t => fxMul t q) (fun i t => t / (2 * i + 1 : Nat)) u

/-- atan(1/n). -/
def fxAtanInv (n : Nat) : Int :=
  series 80 (fun _ t => -(t / (n * n : Nat))) (fun i t => t / (2 * i + 1 : Nat)) (fxOne / n)

/-- ln 2 and π/2. -/
def fxLn2 : Int := 2 * fxAtanh (fxOne / 3)
def fxHalfPi : Int := 8 * fxAtanInv 5 - 2 * fxAtanInv 239

/-- ln of t in [1, 2). -/
def fxLn1 (t : Int) : Int := 2 * fxAtanh (fxDiv (t - fxOne) (t + fxOne))

/-- ln of a positive rational n / d. -/
def fxLn (n d : Nat) : Int :=
  let k : Int := (Nat.log2 n : Int) - Nat.log2 d
  let t : Int := if 0 ≤ k then (n * 2 ^ fxP : Nat) / (d * 2 ^ k.toNat : Nat) else (n * 2 ^ (fxP + (-k).toNat) : Nat) / d
  if t < fxOne then (k - 1) * fxLn2 + fxLn1 (2 * t) else k * fxLn2 + fxLn1 t

/-- e^r for 0 ≤ r < 1. -/
def fxExp1 (r : Int) : Int := series 90 (fun i t => fxMul t r / (i + 1 : Nat)) (fun _ t => t) fxOne

/-- e^x as (significand in [1, 2), exponent of two). -/
def fxExp (x : Int) : Int × Int := let k := x / fxLn2; (fxExp1 (x - k * fxLn2), k)

/-- 2^x likewise. -/
def fxExp2 (x : Int) : Int × Int := let k := x >>> fxP; (fxExp1 (fxMul (x - k * fxOne) fxLn2), k)

/-- sin and cos of r with |r| ≤ π/2. -/
def fxSin1 (r : Int) : Int :=
  let q := fxMul r r
  series 50 (fun i t => -(fxMul t q / ((2 * i + 2) * (2 * i + 3) : Nat))) (fun _ t => t) r
def fxCos1 (r : Int) : Int :=
  let q := fxMul r r
  series 50 (fun i t => -(fxMul t q / ((2 * i + 1) * (2 * i + 2) : Nat))) (fun _ t => t) fxOne

/-- sin x, and cos x as the sine a quarter turn on. -/
def fxSin (x : Int) (quarters : Int) : Int :=
  let k := x / fxHalfPi
  let r := x - k * fxHalfPi
  match (k + quarters) % 4 with
  | 0 => fxSin1 r
  | 1 => fxCos1 r
  | 2 => -fxSin1 r
  | _ => -fxCos1 r

/-- tanh of |x| as a fixed-point number. -/
def fxTanh (x : Int) : Int :=
  if 80 * fxOne ≤ x then fxOne - 1
  else
    let (m, k) := fxExp (2 * x)
    let e := m * (2 ^ k.toNat : Nat)
    fxDiv (e - fxOne) (e + fxOne)

end Sys2Proof.Machine
end

