-- ==== Sys2Proof/Machine/Sketch.lean ====
section
/-! DEFINITION. Summary records (R288 to R296, R299 to R302): their bytes and what makes them invalid, insertion, merging and
queries, apart from any machine. -/

namespace Sys2Proof.Machine

/-! ### The record (R290, R291) -/

/-- An entry of a heavy-hitter list. -/
structure Hitter where
  key : Nat
  count : Nat
  erre : Nat
  deriving DecidableEq, Repr

/-- A record by its fields: levels 0 to 14 hold the items of a QS, `regs` the registers of a DC. `drawn` counts the coins that
the operation under way has drawn from the entropy source; it is no part of the record. -/
structure Sketch where
  kind : Nat
  coin : Nat := 0
  wshift : Nat := 0
  seed : Nat := 0
  n : Nat := 0
  least : Nat := 0
  greatest : Nat := 0
  nanc : Nat := 0
  err : Nat := 0
  levels : List (List Nat) := List.replicate 15 []
  ccnt : List Nat := List.replicate 15 0
  hitters : List Hitter := []
  regs : List Nat := []
  drawn : Nat := 0
  deriving DecidableEq, Repr

def sQS : Nat := 1
def sHH : Nat := 2
def sDC : Nat := 3

def w64 (x : Nat) : Nat := x % 2 ^ 64

/-- An FP32 encoding that is a NaN. -/
def isNan32 (x : Nat) : Bool := 0x7F800000 < x % 2 ^ 31

/-- The order of R292 as a number. -/
def rank32 (x : Nat) : Nat := if bit x 31 then 2 ^ 31 - 1 - x % 2 ^ 31 else 2 ^ 31 + x % 2 ^ 31

/-- `n` little-endian bytes of an image from byte `i`. -/
def fieldAt (b : List Byte) (i n : Nat) : Nat := ofBytes ((b.drop i).take n)

/-- Whether every byte of a range is zero. -/
def zeros (b : List Byte) (i n : Nat) : Bool := ((b.drop i).take n).all (· = 0)

/-- A buffer's 4,096 bytes, and the buffer of 4,096 bytes. -/
def SumBuf.image (s : SumBuf) : List Byte := (List.range 4096).map fun i => kget 0 s i
def SumBuf.ofImage (b : List Byte) : SumBuf := (b.zipIdx.filter fun p => p.1 ≠ 0).map fun p => (p.2, p.1)

/-- Header fields that only a QS uses are zero. -/
def noQs (b : List Byte) : Bool := zeros b 1 2 && zeros b 24 12 && zeros b 40 8 && zeros b 64 15 && zeros b 80 120

/-- The held items of level `h`. -/
def levelOf (b : List Byte) (h : Nat) : List Nat :=
  (List.range (fieldAt b (64 + h) 1)).map fun i => fieldAt b (256 + 256 * h + 4 * i) 4

def hitterOf (b : List Byte) (i : Nat) : Hitter :=
  { key := fieldAt b (256 + 24 * i) 4, count := fieldAt b (264 + 24 * i) 8, erre := fieldAt b (272 + 24 * i) 8 }

def distinct : List Nat → Bool
  | [] => true
  | x :: r => !r.contains x && distinct r

/-- Reads a record: none when it is invalid (R290, R291), as it is too with coin 2 under a deterministic launch. -/
def Sketch.decode (det : Bool) (b : List Byte) : Option Sketch :=
  let kind := fieldAt b 0 1
  if !(zeros b 3 5 && zeros b 48 16 && zeros b 79 1 && zeros b 200 56) then none
  else
    let t : Sketch := { kind, seed := fieldAt b 8 8, n := fieldAt b 16 8 }
    if kind = sQS then
      let coin := fieldAt b 1 1
      let fills := (List.range 15).map fun h => fieldAt b (64 + h) 1
      if 2 < coin || (det && coin = 2) || fills.any (63 < ·) || isNan32 (fieldAt b 24 4) || isNan32 (fieldAt b 28 4) || !zeros b 36 4 then none
      else
        let levels := (List.range 15).map (levelOf b)
        if levels.any fun l => l.any isNan32 then none
        else
          some { t with
            coin
            wshift := fieldAt b 2 1
            least := fieldAt b 24 4
            greatest := fieldAt b 28 4
            nanc := fieldAt b 32 4
            err := fieldAt b 40 8
            levels
            ccnt := (List.range 15).map fun h => fieldAt b (80 + 8 * h) 8 }
    else if kind = sHH then
      let used := fieldAt b 36 4
      if !noQs b || 64 < used then none
      else
        let hs := (List.range used).map (hitterOf b)
        if distinct (hs.map (·.key)) then some { t with hitters := hs } else none
    else if kind = sDC then
      let regs := (List.range 1024).map fun j => fieldAt b (256 + j) 1
      if !noQs b || !zeros b 36 4 || regs.any (55 < ·) then none else some { t with regs }
    else none

/-- Pads with zero bytes to `n` bytes. -/
def padTo (n : Nat) (l : List Byte) : List Byte := l ++ List.replicate (n - l.length) 0

/-- The 4,096 bytes of a record, zero wherever nothing is held (R298). -/
def Sketch.encode (t : Sketch) : List Byte :=
  let head := toBytes t.kind 1 ++ toBytes t.coin 1 ++ (if t.wshift < 256 then toBytes t.wshift 1 else [Config.wshiftByte t.wshift]) ++ toBytes 0 5 ++
    toBytes t.seed 8 ++ toBytes t.n 8 ++ toBytes t.least 4 ++ toBytes t.greatest 4 ++ toBytes t.nanc 4 ++
    toBytes t.hitters.length 4 ++ toBytes t.err 8 ++ toBytes 0 16 ++ t.levels.flatMap (fun l => toBytes l.length 1) ++
    toBytes 0 1 ++ t.ccnt.flatMap (fun c => toBytes c 8)
  let body := if t.kind = sQS then t.levels.flatMap fun l => padTo 256 (l.flatMap fun x => toBytes x 4)
    else if t.kind = sHH then t.hitters.flatMap fun e => toBytes e.key 4 ++ toBytes 0 4 ++ toBytes e.count 8 ++ toBytes e.erre 8
    else t.regs.flatMap fun r => toBytes r 1
  padTo 4096 (padTo 256 head ++ body)

/-! ### The quantile sketch (R293, R294) -/

/-- mix64 (R293). -/
def mix64 (z : Nat) : Nat :=
  let z := w64 ((z ^^^ (z >>> 30)) * 0xBF58476D1CE4E5B9)
  let z := w64 ((z ^^^ (z >>> 27)) * 0x94D049BB133111EB)
  z ^^^ (z >>> 31)

/-- Inserts behind every item that is not above it: a stable ascending order (R292). -/
def insertItem (x : Nat) : List Nat → List Nat
  | [] => [x]
  | y :: r => if rank32 x < rank32 y then x :: y :: r else y :: insertItem x r

def sortItems (l : List Nat) : List Nat := l.foldl (fun r x => insertItem x r) []

/-- Every second item from position 0 or 1. -/
def everySecond : Bool → List Nat → List Nat
  | _, [] => []
  | false, x :: r => x :: everySecond true r
  | true, _ :: r => everySecond false r

/-- Coin(t, h): the coin and the record with its count (R293). `ent` gives the bits of the hub's entropy source. -/
def Sketch.flip (ent : Nat → Bool) (t : Sketch) (h : Nat) : Bool × Sketch :=
  let c := t.ccnt.getD h 0
  let t' := { t with ccnt := t.ccnt.set h (w64 (c + 1)) }
  if t.coin = 0 then (bit (mix64 (t.seed ^^^ (h <<< 56) ^^^ c)) 0, t')
  else if t.coin = 1 then (c % 2 = 1, t')
  else (ent t.drawn, { t' with drawn := t.drawn + 1 })

def Sketch.level (t : Sketch) (h : Nat) : List Nat := t.levels.getD h []
def Sketch.setLevel (t : Sketch) (h : Nat) (l : List Nat) : Sketch := { t with levels := t.levels.set h l }

/-- Halve(t, h, X, w) (R293). -/
def Sketch.halve (ent : Nat → Bool) (t : Sketch) (h : Nat) (x : List Nat) (w : Nat) : List Nat × Sketch :=
  let (c, t') := t.flip ent h
  (everySecond c (sortItems x), { t' with err := w64 (t'.err + w) })

/-- Level 14 halves into itself and its weight doubles (R293). -/
def Sketch.raiseTop (ent : Nat → Bool) (t : Sketch) : Sketch :=
  let (x, t') := t.halve ent 14 (t.level 14) (2 ^ (14 + t.wshift))
  { t'.setLevel 14 x with wshift := t'.wshift + 1 }

/-- Raises level 14 up to a weight shift. -/
def Sketch.raiseTo (ent : Nat → Bool) (r : Nat) : Nat → Sketch → Sketch
  | 0, t => t
  | n + 1, t => if t.wshift < r then Sketch.raiseTo ent r n (t.raiseTop ent) else t

/-- The second loop of PutTop (R293). -/
def Sketch.fillTop (ent : Nat → Bool) : Nat → Sketch → List Nat → Nat → Sketch
  | 0, t, _, _ => t
  | _ + 1, t, [], _ => t
  | n + 1, t, x :: xs, r =>
    if r < t.wshift then
      let (y, t') := t.halve ent 14 (x :: xs) (2 ^ (14 + r))
      Sketch.fillTop ent n t' y (r + 1)
    else
      let t' := t.setLevel 14 (t.level 14 ++ [x])
      Sketch.fillTop ent n (if 64 ≤ (t'.level 14).length then t'.raiseTop ent else t') xs r

/-- PutTop(t, X, r) (R293); it ends within 256 raises, 64 items and as many halvings. -/
def Sketch.putTop (ent : Nat → Bool) (t : Sketch) (x : List Nat) (r : Nat) : Sketch :=
  (t.raiseTo ent r 512).fillTop ent 1024 x r

/-- Append at level 13 − n (R293). -/
def Sketch.appendAt (ent : Nat → Bool) : Nat → Sketch → Nat → Sketch
  | 0, t, x =>
    let t' := t.setLevel 13 (t.level 13 ++ [x])
    if (t'.level 13).length < 64 then t'
    else
      let (y, u) := t'.halve ent 13 (t'.level 13) (2 ^ 13)
      (u.setLevel 13 []).putTop ent y 0
  | n + 1, t, x =>
    let h := 13 - (n + 1)
    let t' := t.setLevel h (t.level h ++ [x])
    if (t'.level h).length < 64 then t'
    else
      let (y, u) := t'.halve ent h (t'.level h) (2 ^ h)
      y.foldl (fun v z => Sketch.appendAt ent n v z) (u.setLevel h [])

/-- Append(t, h, x) for h < 14 (R293). -/
def Sketch.append (ent : Nat → Bool) (t : Sketch) (h x : Nat) : Sketch := Sketch.appendAt ent (13 - h) t x

def lesser (a b : Nat) : Nat := if rank32 b < rank32 a then b else a
def greater (a b : Nat) : Nat := if rank32 a < rank32 b then b else a

/-- Inserts a value into a QS (R294). -/
def Sketch.insertQs (ent : Nat → Bool) (t : Sketch) (v : Nat) : Sketch :=
  if isNan32 v then { t with nanc := min (t.nanc + 1) (2 ^ 32 - 1) }
  else Sketch.append ent { t with n := w64 (t.n + 1), least := lesser t.least v, greatest := greater t.greatest v } 0 v

/-! ### Heavy hitters and distinct counts (R295, R296) -/

/-- The position of the least COUNT, the lowest on a tie. -/
def leastAt (l : List Hitter) : Nat :=
  let m := l.foldl (fun m e => min m e.count) (2 ^ 64)
  l.findIdx fun e => e.count = m

/-- Insert(t, k, w, e) without the count N (R295). -/
def Sketch.insertHh (t : Sketch) (k w e : Nat) : Sketch :=
  let l := t.hitters
  if l.any fun x => x.key = k then
    { t with hitters := l.map fun x => if x.key = k then { x with count := w64 (x.count + w), erre := w64 (x.erre + e) } else x }
  else if l.length < 64 then { t with hitters := l ++ [{ key := k, count := w, erre := e }] }
  else
    let m := leastAt l
    let c := (l.getD m { key := 0, count := 0, erre := 0 }).count
    { t with hitters := l.set m { key := k, count := w64 (c + w), erre := w64 (c + e) } }

/-- Register and value of a key's hash (R296). -/
def dcHash (seed k : Nat) : Nat × Nat :=
  let z := mix64 (seed ^^^ k)
  let y := z % 2 ^ 54
  (z >>> 54, if y = 0 then 55 else 54 - Nat.log2 y)

/-- Inserts a key into a DC (R296). -/
def Sketch.insertDc (t : Sketch) (k : Nat) : Sketch :=
  let (j, r) := dcHash t.seed k
  { t with regs := t.regs.set j (max (t.regs.getD j 0) r), n := w64 (t.n + 1) }

/-- One value of a SUMADD (R298). -/
def Sketch.insert (ent : Nat → Bool) (t : Sketch) (v : Nat) : Sketch :=
  if t.kind = sQS then t.insertQs ent v
  else if t.kind = sHH then { t.insertHh v 1 0 with n := w64 (t.n + 1) }
  else t.insertDc v

/-- The record that SUMINIT writes (R294, R298). -/
def Sketch.fresh (kind coin seed : Nat) : Sketch :=
  if kind = sQS then { kind, coin, seed, least := 0x7F800000, greatest := 0xFF800000 }
  else { kind, seed, regs := if kind = sDC then List.replicate 1024 0 else [] }

/-! ### Merging (R302) -/

/-- The merge of a source into a target of the same kind. -/
def Sketch.merge (ent : Nat → Bool) (t s : Sketch) : Sketch :=
  let t1 := { t with n := w64 (t.n + s.n) }
  if t.kind = sQS then
    let t2 := { t1 with
      nanc := min (t.nanc + s.nanc) (2 ^ 32 - 1)
      err := w64 (t.err + s.err)
      least := lesser t.least s.least
      greatest := greater t.greatest s.greatest }
    let t3 := (List.range 14).foldl (fun u h => (s.level h).foldl (fun u x => u.append ent h x) u) t2
    t3.putTop ent (s.level 14) s.wshift
  else if t.kind = sHH then s.hitters.foldl (fun u e => u.insertHh e.key e.count e.erre) t1
  else { t1 with regs := (t1.regs.zip s.regs).map fun p => max p.1 p.2 }

/-! ### Queries (R299 to R301) -/

/-- Every held item with its weight, in stable ascending order. -/
def Sketch.weighted (t : Sketch) : List (Nat × Nat) :=
  let all := t.levels.zipIdx.flatMap fun p => p.1.map fun x => (x, if p.2 < 14 then 2 ^ p.2 else 2 ^ (14 + t.wshift))
  all.foldl (fun r x => insertW x r) []
where
  /-- Inserts behind every item that is not above it. -/
  insertW (x : Nat × Nat) : List (Nat × Nat) → List (Nat × Nat)
    | [] => [x]
    | y :: r => if rank32 x.1 < rank32 y.1 then x :: y :: r else y :: insertW x r

/-- A number rounded to FP32 by a rounding code. -/
def nat32 (rm x : Nat) : Nat := (fp32.round rm false false false x 0 false).1

/-- The item at which the running sum of weights reaches `k`. -/
def reach (k : Nat) : Nat → List (Nat × Nat) → Option Nat
  | _, [] => none
  | s, (x, w) :: r => if k ≤ s + w then some x else reach k (s + w) r

/-- ceil(m × 2^e × w). -/
def ceilTimes (m : Nat) (e : Int) (w : Nat) : Nat :=
  if 0 ≤ e then m * w * 2 ^ e.toNat else ceilDiv (m * w) (2 ^ (-e).toNat)

/-- The quantile of R299: none when it is refused. -/
def Sketch.quantile (t : Sketch) (q : Nat) : Option Nat :=
  let l := t.weighted
  let w := l.foldl (fun s x => s + x.2) 0
  match fp32.read false q with
  | .fin s m e =>
    if w = 0 || (s && m ≠ 0) then none
    else
      let k := ceilTimes m e w
      if w < k then none
      else some (if k = 0 then t.least else if w ≤ k then t.greatest else (reach k 0 l).getD t.greatest)
  | _ => none

/-- Weight at or below x (R299). -/
def Sketch.below (t : Sketch) (x : Nat) : Nat :=
  t.weighted.foldl (fun s p => if rank32 p.1 ≤ rank32 x then s + p.2 else s) 0

/-- COUNT and ERRE of a key (R299). -/
def Sketch.countOf (t : Sketch) (k : Nat) : Nat × Nat :=
  match t.hitters.find? fun e => e.key = k with
  | some e => (e.count, e.erre)
  | none =>
    let m := if t.hitters.length = 64 then (t.hitters.getD (leastAt t.hitters) { key := 0, count := 0, erre := 0 }).count else 0
    (m, m)

/-- IEEE 754 binary64. -/
def fp64 : Fmt := { eb := 11, mb := 52 }

/-- binary64 arithmetic to nearest, ties to even, on encodings. -/
def d64 (x : Nat) : FVal := fp64.read false x
def dMul (a b : Nat) : Nat := (fp64.mul {} (d64 a) (d64 b)).1
def dAdd (a b : Nat) : Nat := (fp64.add {} (d64 a) (d64 b)).1
def dDiv (a b : Nat) : Nat := (fp64.div {} (d64 a) (d64 b)).1
def dNat (n : Nat) : Nat := (fp64.round 1 false false false n 0 false).1

/-- ln, correctly rounded, of a finite binary64 above 1 or equal to it. -/
def dLn (a : Nat) : Nat :=
  match d64 a with
  | .fin _ m e =>
    let x := if 0 ≤ e then fxLn (m * 2 ^ e.toNat) 1 else fxLn m (2 ^ (-e).toNat)
    (fp64.round 1 false false (x < 0) x.natAbs (-(fxP : Int)) (x ≠ 0)).1
  | _ => 0

/-- The distinct estimate of R300, as FP32. -/
def Sketch.estimate (t : Sketch) : Nat :=
  let m := dNat 1024
  let v := (t.regs.filter (· = 0)).length
  let alpha := dDiv (dDiv (dNat 7213) (dNat 10000)) (dAdd (dNat 1) (dDiv (dDiv (dNat 1079) (dNat 1000)) m))
  let sum := t.regs.foldl (fun a r => dAdd a (fp64.round 1 false false false 1 (-(r : Int)) false).1) (dNat 0)
  let e := dDiv (dMul (dMul alpha m) m) sum
  let small := cmpVal (d64 e) (d64 (dMul (dDiv (dNat 5) (dNat 2)) m)) ≤ 0
  let e' := if small && v ≠ 0 then dMul m (dLn (dDiv m (dNat v))) else e
  (fp32.convert {} (d64 e')).1

/-- A query's four words and whether it sets NV (R299, R301). `none` stands for an invalid record. -/
def Sketch.query (t : Option Sketch) (m : SumMode) (a : Nat) : List Word × Bool :=
  let nat (x : Nat) : Word := BitVec.ofNat 32 x
  let pair (x : Nat) : List Word := [nat x, nat (x >>> 32)]
  let refused : List Word × Bool := ([0x7FC00000, 0, 0, 0], true)
  match t with
  | none => refused
  | some t =>
    match m with
    | .q =>
      if t.kind ≠ sQS then refused
      else
        let r := t.quantile a
        ([nat (r.getD 0x7FC00000), nat (nat32 3 t.err)] ++ pair t.n, r.isNone)
    | .r =>
      if t.kind ≠ sQS then refused
      else
        ([nat (if isNan32 a then 0x7FC00000 else nat32 1 (t.below a)), nat (nat32 3 t.err)] ++ pair t.n, isNan32 a)
    | .c => if t.kind ≠ sHH then refused else let c := t.countOf a; (pair c.1 ++ pair c.2, false)
    | .d => if t.kind ≠ sDC then refused else ([nat t.estimate, 0] ++ pair t.n, false)

end Sys2Proof.Machine
end

