-- ==== Sys2Proof/Machine/CoreMem.lean ====
section
/-! DEFINITION. Loads, stores and prefetch (R133 to R145): acceptance, the replay list, sector returns and captures. Loads
and stores of cluster memory (R221) share these operations. -/

namespace Sys2Proof.Machine

/-! ### Loads -/

/-- The part of a lane without an address (R135). -/
def noPart : Nat := 2 ^ 60

/-- Groups lane accesses by 32-byte sector; an access without any lane has one empty part (R135, R141). -/
def partsOf (l : List LaneAcc) : KMap (List LaneAcc) :=
  let key (x : LaneAcc) : Nat := match x.addr with
    | none => noPart
    | some a => match x.space with
      | .global => a / 32
      | .own _ _ => 2 ^ 50 + a / 32
      | .scratch c => 2 ^ 52 + c * 2 ^ 20 + a / 32
      | .remote g _ r => 2 ^ 56 + (g * 4096 + r) * 2 ^ 35 + a / 32
  let m := l.foldl (fun m x => kinsert m (key x) (kget [] m (key x) ++ [x])) ([] : KMap (List LaneAcc))
  if m = [] then [(noPart, [])] else m

/-- The bytes from `a` on that have not been read ahead, as (space, first byte, length). -/
def unread (sp : Space) (a n : Nat) (got : List (Nat × Byte)) : List (Space × Nat × Nat) :=
  if got = [] then [(sp, a, n)]
  else ((List.range n).filter fun i => !(got.any fun p => p.1 = a + i)).map fun i => (sp, a + i, 1)

/-- The bytes that a lane of a load has still to read. -/
def LaneAcc.due (x : LaneAcc) (n : Nat) : List (Space × Nat × Nat) :=
  match x.addr with
  | some a => unread x.space a n x.got
  | none => []

/-- The space of the accesses to a home. -/
def Home.space : Home → Space
  | .rank g n r => .remote g n r
  | .own g n => .own g n
  | _ => .global

/-- The bytes that an entry of a replay list still acts on, as (space, first byte, length) (R143). -/
def entryBytes (s : State) (k : Nat) (e : Entry) : List (Space × Nat × Nat) :=
  match e.kind with
  | .load _ _ width regs _ parts => parts.flatMap fun p => p.2.flatMap fun x => x.due (width * regs)
  | .store bs => bs.map fun b => (b.1, b.2.1, 1)
  | .sumLoad _ a got => (a.map fun x => unread .global x 4096 got).getD []
  | .atomic _ =>
    s.atomQ.flatMap fun q => q.2.filterMap fun r =>
      match r with
      | .lane k' i _ _ _ a _ _ _ _ _ _ => if k' = k && i = e.id then some (.global, a, 4) else none
      | .merge k' i _ a _ _ _ _ => if k' = k && i = e.id then some (.global, a, 4096) else none
      | .reduce w h _ _ a _ _ _ =>
        if w = some (k, e.id) then some (h.space, a, 4) else none
      | .fold _ _ _ => none

/-- Whether two byte ranges meet. -/
def meets (a b : Space × Nat × Nat) : Bool := a.1.meets b.1 && a.2.1 < b.2.1 + b.2.2 && b.2.1 < a.2.1 + a.2.2

/-- Whether an access of a fragment, numbered before `id`, that has still to act on some of `bytes` holds back an action on them: one
fragment's accesses act on a byte in issue order, but a load reads the bytes of its earlier stores itself (R143). -/
def heldBack (s : State) (k : Nat) (w : Wave) (frag id : Nat) (isLoad : Bool) (bytes : List (Space × Nat × Nat)) : Bool :=
  w.replay.any fun x =>
    x.frag = frag && x.id < id && !(isLoad && (match x.kind with | .store _ => true | _ => false)) &&
    (entryBytes s k x).any fun p => bytes.any fun q => meets p q

/-- A byte of a lane's access: read already, or read now (R206, R278). -/
def laneByte (s : State) (w : Wave) (e : Entry) (x : LaneAcc) (a : Nat) : Byte :=
  match x.got.find? fun p => p.1 = a with
  | some p => p.2
  | none => s.loadByte w.core (w.ownBytes e.earlier) x.space a x.sp

/-- What a lane of a load writes to its registers (R135). -/
def loadLane (s : State) (w : Wave) (e : Entry) (width regs : Nat) (t : Ty) (x : LaneAcc) : List Word :=
  (List.range regs).map fun j =>
    match x.addr with
    | none => 0
    | some a => extendMem t (ofBytes ((List.range width).map fun i => laneByte s w e x (a + j * width + i)))

/-! ### Summary buffers (R289, R298) -/

/-- A partition's buffer. -/
def State.sumBuf (s : State) (core part n : Nat) : SumBuf := kget [] (kget {} (s.core core).parts part).sums n

def State.setSumBuf (s : State) (core part n : Nat) (b : SumBuf) : State :=
  let c := s.core core
  let p := kget {} c.parts part
  s.setCore core { c with parts := kinsert c.parts part { p with sums := kset [] p.sums n b } }

/-- Whether a task's launch is deterministic (R322). -/
def State.detOf (s : State) (task : Nat) : Bool := ((s.launchOf task).map (·.det)).getD false

/-- A byte of a SUMLD: read ahead, or read now; without an access it is zero (R206). -/
def sumByte (s : State) (w : Wave) (e : Entry) (got : List (Nat × Byte)) (a : Nat) : Byte :=
  match got.find? fun p => p.1 = a with
  | some p => p.2
  | none => s.loadByte w.core (w.ownBytes e.earlier) .global a false

/-- A SUMLD fills its buffer, or leaves it zero and sets NV when the record is invalid (R291, R298). -/
def State.fillSum (s : State) (k : Nat) (w : Wave) (e : Entry) (n : Nat) (addr : Option Nat) (got : List (Nat × Byte)) : State :=
  let bs := match addr with
    | some a => (List.range 4096).map fun i => sumByte s w e got (a + i)
    | none => []
  let s1 := match Sketch.decode (s.detOf w.task) bs with
    | some t => s.setSumBuf w.core w.part n (SumBuf.ofImage t.encode)
    | none => (s.setSumBuf w.core w.part n []).modWave k fun w => w.raiseNow fNV
  s1.perform k e.id

/-- Read moves of some bytes of a SUMLD, ahead of its return (R206). -/
def State.sumEarly (s : State) (k : Nat) (w : Wave) (e : Entry) (n a : Nat) (got : List (Nat × Byte)) (early : List Nat) : State :=
  let mine := early.filter fun b => a ≤ b && b < a + 4096 && !(got.any fun p => p.1 = b)
  let got' := got ++ mine.map fun b => (b, sumByte s w e got b)
  s.setWave k { w with replay := w.replay.map fun x => if x.id = e.id then { x with kind := .sumLoad n (some a) got' } else x }

/-- Read moves of some bytes of a part, ahead of its return (R206). -/
def State.readEarly (s : State) (k : Nat) (e : Entry) (part : Nat) (early : List Nat) : State :=
  match kfind s.waves k, e.kind with
  | some w, .load sc d width regs t parts =>
    let get (x : LaneAcc) : LaneAcc :=
      match x.addr with
      | none => x
      | some a =>
        let mine := early.filter fun b => a ≤ b && b < a + width * regs && !(x.got.any fun p => p.1 = b)
        { x with got := x.got ++ mine.map fun b => (b, laneByte s w e x b) }
    let parts' := kinsert parts part ((kget [] parts part).map get)
    s.setWave k { w with replay := w.replay.map fun x => if x.id = e.id then { x with kind := .load sc d width regs t parts' } else x }
  | _, _ => s

/-- Writes a lane's registers: a vector lane, or scalars. -/
def Wave.putLoad (w : Wave) (scalar : Bool) (d lane : Nat) (l : List Word) : Wave :=
  l.zipIdx.foldl (fun w p =>
    if scalar then w.wrS (d + p.2) p.1 else { w with vreg := kset 0 w.vreg (vkey (d + p.2) lane) p.1 }) w

/-- A part of a load returns: every lane it covers is written, and the entry performs with its last part (R141). -/
def State.returnPart (s : State) (k : Nat) (e : Entry) (part : Nat) : State :=
  match kfind s.waves k, e.kind with
  | some w, .load sc d width regs t parts =>
    let w' := (kget [] parts part).foldl (fun w' x => w'.putLoad sc d x.lane (loadLane s w e width regs t x)) w
    let rest := kerase parts part
    let e' := { e with kind := .load sc d width regs t rest }
    let s' := s.setWave k { w' with replay := w'.replay.map fun x => if x.id = e.id then e' else x }
    if rest = [] then s'.perform k e.id else s'
  | _, _ => s

/-- The parts of an earlier load of the fragment that a store's Capture would overtake return first (R143). -/
def State.returnBefore (s : State) (k id : Nat) (bs : List (Space × Nat × Byte)) : State :=
  match (kfind s.waves k).bind fun w => w.replay.find? fun e => e.id = id with
  | none => s
  | some e =>
    match e.kind with
    | .load _ _ width regs _ parts =>
      let due (p : Nat × List LaneAcc) : Bool := p.2.any fun x => (x.due (width * regs)).any fun q => bs.any fun b => meets q (b.1, b.2.1, 1)
      (parts.filter due).foldl (fun s p =>
        match (kfind s.waves k).bind fun w => w.replay.find? fun e => e.id = id with
        | some e => s.returnPart k e p.1
        | none => s) s
    | .sumLoad n a got =>
      match kfind s.waves k with
      | some w => if (entryBytes s k e).any fun q => bs.any fun b => meets q (b.1, b.2.1, 1) then s.fillSum k w e n a got else s
      | none => s
    | _ => s

/-- Captures every store of a wave in order, at a save (R145): loads that come before a store to their bytes read them first. -/
def State.captureAll (s : State) (k : Nat) : State :=
  match kfind s.waves k with
  | none => s
  | some w => w.replay.foldl (fun s e =>
      match e.kind with
      | .store bs =>
        ((w.replay.filter fun x => x.frag = e.frag && x.id < e.id).foldl (fun s x => s.returnBefore k x.id bs) s).captureStore k e
      | _ => s) s

/-- Performs every part of a load at once (R142). -/
def State.returnAll (s : State) (k id : Nat) : State :=
  match (kfind s.waves k).bind fun w => w.replay.find? fun e => e.id = id with
  | none => s
  | some e =>
    match e.kind with
    | .load _ _ _ _ _ parts => parts.foldl (fun s p =>
        match (kfind s.waves k).bind fun w => w.replay.find? fun e => e.id = id with
        | some e => s.returnPart k e p.1
        | none => s) s
    | _ => s

/-- Removes an entry that a fault leaves unperformed, with its counter and marks (R278). -/
def State.dropEntry (s : State) (k id : Nat) : State :=
  (s.modWave k fun w => { w with undef := w.undef.filter fun u => u.entry ≠ id }).perform k id

/-- An accepted load on SP pages meets its cells, at acceptance and at each replay (R142, R278). -/
def State.replayCells (s : State) (k : Nat) (w : Wave) (fr : Frag) (id len : Nat) (lv : Bool)
    (cells : List (Nat × Nat × Nat)) : State :=
  match s.meetCells k w fr lv cells with
  | (s', .held) => s'
  | (s', .trap e) =>
    let s'' := s'.dropEntry k id
    match kfind s''.waves k with
    | some w' => takeTrap s'' k w' fr e
    | none => s''
  | (s', .pass) =>
    let s'' := s'.returnAll k id
    match kfind s''.waves k with
    | some w' => advance s'' k w' fr len
    | none => s''

/-- The unperformed SP load of a fragment, which replays instead of being accepted again (R142, R278). -/
def Wave.spEntry (w : Wave) (fr : Frag) : Option Entry := w.replay.find? fun e => e.frag = fr.num && e.cells ≠ [] && e.pc = fr.pc

/-- MOD of a memory access (R133). -/
def memMod (t : Ty) (cnt ch : Nat) : Nat := t.code * 16 + ch * 4 + cnt

/-- Acceptance of a load whose addresses are known (R135, R140 to R142, R144): the entry and its counter, its destinations
undefined until a WAITC covers them, and on SP pages its performance. -/
def acceptLoad (s : State) (k : Nat) (w : Wave) (fr : Frag) (ctr : Ctr) (op mode len : Nat) (lv : Bool) (d width regs : Nat) (t : Ty)
    (m : Word) (acc : List LaneAcc) (lines : List Nat) (cells : List (Nat × Nat × Nat)) : State :=
  let id := w.nextEntry
  let w1 := (List.range regs).foldl (fun w j =>
    w.markUndef (if lv then .vec (d + j) else .sca (d + j)) (if lv then m else 1) ctr fr.num) (w.noSkip fr)
  let w2 := w1.accept fr ctr op mode lines cells (.load (!lv) d width regs t (partsOf acc))
  if cells = [] then advance s k w2 fr len
  else (s.setWave k w2).replayCells k w2 ((w2.frag fr.num).getD fr) id len lv cells

/-- The bytes on which an access acts at its acceptance: all of them when one of its lanes lies on an SP page, since it then performs at
once (R142). -/
def atOnce (l : List LaneAddr) (n : Nat) : List (Space × Nat × Nat) :=
  if l.any (·.sp) then l.map fun x => (Space.global, x.key, n) else []

/-- A load from global memory (R133, R140). One with a lane on an SP page, which performs at once, stays Issuing while an earlier access of its fragment
has still to act on its bytes (R142, R143). -/
def globalLoad (s : State) (k : Nat) (w : Wave) (fr : Frag) (ctr : Ctr) (op len : Nat) (t : Ty) (cnt ch d b : Nat) (m : Word) (lv : Bool)
    (idx : Nat → Int) : State :=
  match w.spEntry fr with
  | some e => s.replayCells k w fr e.id len lv e.cells
  | none =>
    let width := memBytes t
    let regs := 2 ^ cnt
    let (s1, r) := acceptRec s w fr (rdRecord s w 2 b) (lanesOf m) idx (width * regs) .read .read lv false fun _ => none
    match r with
    | .error e => refuseAt s1 k w fr e
    | .ok a =>
      let bytes := atOnce a.lanes (width * regs)
      if !roomFor s1 w.core (heldLines a.lanes).length || heldBack s1 k w fr.num w.nextEntry true bytes then s1
      else
        let acc := a.lanes.map (fun x => ({ lane := x.lane, space := .global, addr := some x.key, sp := x.sp } : LaneAcc)) ++
          a.nones.map fun l => ({ lane := l, space := .global, addr := none } : LaneAcc)
        acceptLoad (countLoads s1 w.core ch a.lanes) k w fr ctr op (memMod t cnt ch) len lv d width regs t m acc (heldLines a.lanes)
          (cellsOf a.lanes)

/-- Length of a ‡ form (R15). -/
def lenOf (off : Option Word) : Nat := if off.isSome then 16 else 8

def execVld (g : Guard) (t : Ty) (cnt ch : Nat) (d : VOp) (b : Nat) (a : VOp) (off : Option Word) (s : State) : Out :=
  onFrag s fun k w fr =>
    globalLoad s k w fr .lc 0x200 (lenOf off) t cnt ch (VOp.field d) b (sel s w fr g) true fun l => elemIndex (rdV s w 1 a l) off

def execSld (t : Ty) (cnt ch d b a : Nat) (off : Option Word) (s : State) : Out :=
  onFrag s fun k w fr =>
    globalLoad s k w fr .kc 0x203 (lenOf off) t cnt ch d b 1 false fun _ => elemIndex (rdS s w 1 a) off

/-! ### Stores (R136) -/

/-- A lane's store data: the low `width` bytes of each register of the group. -/
def storeBytes (width regs : Nat) (reg : Nat → Word) : List Byte := (List.range regs).flatMap fun j => toBytes (reg j).toNat width

/-- Accepts a store whose bytes are known; on SP pages it locally performs at once (R142). -/
def acceptStore (s : State) (k : Nat) (w : Wave) (fr : Frag) (ctr : Ctr) (op mode len : Nat) (lines : List Nat) (sp : Bool)
    (bs : List (Space × Nat × Byte)) : State :=
  let id := w.nextEntry
  let w1 := (w.noSkip fr).accept fr ctr op mode lines [] (.store bs)
  let s1 := advance s k w1 fr len
  if !sp then s1
  else
    match w1.replay.find? fun e => e.id = id with
    | some e => s1.captureStore k e
    | none => s1

/-- A store to global memory (R136, R140). One with a lane on an SP page performs at once: it waits for the earlier accesses of its fragment to its bytes,
and is then checked by the homes of its cells, before any byte is captured (R142, R143, R284). -/
def globalStore (s : State) (k : Nat) (w : Wave) (fr : Frag) (ctr : Ctr) (op len : Nat) (t : Ty) (cnt ch b : Nat) (m : Word) (lv : Bool)
    (idx : Nat → Int) (reg : Nat → Nat → Word) : State :=
  let width := memBytes t
  let regs := 2 ^ cnt
  let (s1, r) := acceptRec s w fr (rdRecord s w 2 b) (lanesOf m) idx (width * regs) .write .write lv false fun _ => none
  match r with
  | .error e => refuseAt s1 k w fr e
  | .ok a =>
    let bytes := atOnce a.lanes (width * regs)
    if !roomFor s1 w.core (heldLines a.lanes).length || heldBack s1 k w fr.num w.nextEntry false bytes then s1
    else
    match storeCells s1 lv a.lanes with
    | some e => takeTrap s1 k (w.noSkip fr) fr e
    | none =>
      let bs := a.lanes.flatMap fun x =>
        (storeBytes width regs (reg x.lane)).zipIdx.map fun p => ((.global : Space), x.key + p.2, p.1)
      acceptStore (markStream (countStores s1 w.core a.lanes) w.core ch a.lanes) k w fr ctr op (memMod t cnt ch) len (heldLines a.lanes) (a.lanes.any (·.sp)) bs

/-- The data registers of a vector store: a main-file group, or one operand (R134). -/
def dataReg (s : State) (w : Wave) (d : VOp) (cnt lane j : Nat) : Word :=
  if cnt = 0 then rdV s w 0 d lane else rdF s w (8 * j) (VOp.field d + j) lane

def execVst (g : Guard) (t : Ty) (cnt ch : Nat) (d : VOp) (b : Nat) (a : VOp) (off : Option Word) (s : State) : Out :=
  onFrag s fun k w fr =>
    globalStore s k w fr .sc 0x201 (lenOf off) t cnt ch b (sel s w fr g) true (fun l => elemIndex (rdV s w 1 a l) off)
      fun l j => dataReg s w d cnt l j

def execSst (t : Ty) (cnt ch d b a : Nat) (off : Option Word) (s : State) : Out :=
  onFrag s fun k w fr =>
    globalStore s k w fr .kc 0x204 (lenOf off) t cnt ch b 1 false (fun _ => elemIndex (rdS s w 1 a) off)
      fun _ j => rdS s w (8 * j) (d + j)

/-! ### Prefetch (R137) -/

/-- Lines that translate for a prefetch; the others are dropped. -/
def prefLines (s : State) (w : Wave) (lanes : List (Nat × Nat)) : State × List LaneAddr :=
  (vlines lanes).foldl (fun st ln =>
    let (s', r) := translateLines st.1 (s.walker w) .read true false (lanes.filter fun p => p.2 / 128 = ln)
    match r with
    | .ok l => (s', st.2 ++ l)
    | .error _ => (s', st.2)) (s, [])

/-- VPREF changes nothing a program can observe: it walks, and brings whole lines into the L1, or into their home dies' L2, which counts
the requests (R137, R253, R254). Lanes for whose lines no request entry is free are dropped, as are those of SP pages. -/
def execVpref (g : Guard) (l2 : Bool) (b : Nat) (a : VOp) (off : Option Word) (s : State) : Out :=
  onFrag s fun k w fr =>
    let ls := lanesOf (sel s w fr g)
    let len := lenOf off
    match checkRecord (rdRecord s w 2 b) with
    | .error e => if e.kind = 0x01 then takeTrap s k w fr e else advance s k w fr len
    | .ok r =>
      let lanes := ls.filterMap fun l =>
        match place r (elemIndex (rdV s w 1 a l) off) 1 with
        | .ok (some x) => some (l, x)
        | _ => none
      let (s1, la) := prefLines s w lanes
      let lines := (unitsOf 128 (la.filter fun x => !x.sp)).take (4096 - s.requests w.core)
      let s2 := lines.foldl (fun s ln => if l2 then countLine s w.core ln false else fillL1 s w.core ln 15 false) s1
      advance s2 k w fr len

/-! ### Scratchpad (R135, R136, R138) -/

/-- The byte offset of a lane: UINT32 plus the signed offset. -/
def scratchOff (x : Word) (off : Option Word) : Int := elemIndex x off

/-- A load of one core's scratchpads at known offsets. -/
def scratchLoad (s : State) (k : Nat) (w : Wave) (fr : Frag) (op len : Nat) (t : Ty) (cnt d : Nat) (m : Word)
    (l : List (Nat × Nat × Nat)) : State :=
  let acc := l.map fun x => ({ lane := x.1, space := .scratch x.2.1, addr := some x.2.2 } : LaneAcc)
  if !roomFor s w.core 1 then s
  else acceptLoad s k w fr .lc op (memMod t cnt 0) len true d (memBytes t) (2 ^ cnt) t m acc [] []

/-- A store to one core's scratchpads at known offsets. -/
def scratchStore (s : State) (k : Nat) (w : Wave) (fr : Frag) (op len : Nat) (t : Ty) (cnt : Nat) (d : VOp)
    (l : List (Nat × Nat × Nat)) : State :=
  let bs := l.flatMap fun x =>
    (storeBytes (memBytes t) (2 ^ cnt) fun j => dataReg s w d cnt x.1 j).zipIdx.map fun p => (Space.scratch x.2.1, x.2.2 + p.2, p.1)
  if !roomFor s w.core 1 then s
  else acceptStore s k w fr .sc op (memMod t cnt 0) len [] false bs

def execLdl (g : Guard) (t : Ty) (cnt : Nat) (d a : VOp) (off : Option Word) (s : State) : Out :=
  onFrag s fun k w fr =>
    let m := sel s w fr g
    match acceptScratch s w (lanesOf m) (fun l => scratchOff (rdV s w 1 a l) off) (memBytes t * 2 ^ cnt) true with
    | .error e => takeTrap s k w fr e
    | .ok l => scratchLoad s k w fr 0x205 (lenOf off) t cnt (VOp.field d) m (l.map fun p => (p.1, w.core, p.2))

def execStl (g : Guard) (t : Ty) (cnt : Nat) (d a : VOp) (off : Option Word) (s : State) : Out :=
  onFrag s fun k w fr =>
    let m := sel s w fr g
    match acceptScratch s w (lanesOf m) (fun l => scratchOff (rdV s w 1 a l) off) (memBytes t * 2 ^ cnt) true with
    | .error e => takeTrap s k w fr e
    | .ok l => scratchStore s k w fr 0x206 (lenOf off) t cnt d (l.map fun p => (p.1, w.core, p.2))

/-! ### The moves of the core (R141, R206) -/

/-- A move of the machine, made while power is on and the device is not frozen. -/
def machineMove (s : State) (f : State) : Out := .next (if s.hub.on && !s.hub.frozen then f else s)

/-- One sector, or the lanes without an address, of an outstanding load returns, or some of its bytes are read ahead of that,
if the load is still due it, nothing earlier of its fragment holds it back, and its target answers. -/
def execLoadSectorReturn (wave entry part : Nat) (early : List Nat) (s : State) : Out :=
  machineMove s (
    match kfind s.waves wave with
    | none => s
    | some w =>
      match w.resident, w.replay.find? fun e => e.id = entry && e.cells = [] with
      | true, some e =>
        match e.kind with
        | .load _ _ width regs _ parts =>
          match kfind parts part with
          | none => s
          | some ls =>
            let now := ls.flatMap fun x => (x.due (width * regs)).flatMap fun q =>
              if early = [] then [q] else (early.filter fun b => q.2.1 ≤ b && b < q.2.1 + q.2.2).map fun b => (q.1, b, 1)
            if heldBack s wave w e.frag e.id true now || !(ls.all fun x => s.answers x.space) then s
            else if early = [] then s.returnPart wave e part
            else s.readEarly wave e part early
        | .sumLoad n addr got =>
          if heldBack s wave w e.frag e.id true (entryBytes s wave e) then s
          else
            match addr, early with
            | some a, x :: l => s.sumEarly wave w e n a got (x :: l)
            | _, _ => s.fillSum wave w e n addr got
        | _ => s
      | _, _ => s)

end Sys2Proof.Machine
end

