-- ==== Sys2Proof/Machine/Copies.lean ====
section
/-! DEFINITION. Circular buffers (R146 to R150), thread copies and batches (R151 to R153), and the Capture and completion
moves of stores and copies (R136, R152, R206). -/

namespace Sys2Proof.Machine

/-! ### Circular buffers -/

/-- The physical number of a block's buffer `n` on a wave's core (R146). -/
def cbOf (s : State) (w : Wave) (n : Nat) : Nat := ((s.grant w).map fun g => g.cbs.getD n 8).getD 8

def State.cb (s : State) (core n : Nat) : CBuf := kget {} (s.core core).cbufs n

def State.setCb (s : State) (core n : Nat) (b : CBuf) : State :=
  let c := s.core core
  s.setCore core { c with cbufs := kset {} c.cbufs n b }

/-- NSL + 1, and ring positions (R146). -/
def CBuf.slots (b : CBuf) : Nat := b.nsl + 1
def CBuf.wrap (b : CBuf) (i : Nat) : Nat := i % b.slots

/-- A slot's window offset, and the slot at an offset. -/
def CBuf.offset (b : CBuf) (i : Nat) : Nat := b.base + 16 * b.ssz * i
def CBuf.slotAt (b : CBuf) (off : Nat) : Option Nat := (List.range b.slots).find? fun i => b.offset i = off

/-- Whether slot `i` lies in the run of `n` slots from `start`. -/
def CBuf.inRun (b : CBuf) (start n i : Nat) : Bool := (List.range n).any fun j => b.wrap (start + j) = i

/-- A writer takes slot PRD (R149, R152). -/
def CBuf.takeFree (b : CBuf) : CBuf × Nat :=
  ({ b with prd := b.wrap (b.prd + 1), wh := b.wh + 1, free := b.free - 1 }, b.prd)

/-- A reader takes slot CNS (R149). -/
def CBuf.takeFull (b : CBuf) : CBuf × Nat :=
  ({ b with cns := b.wrap (b.cns + 1), rh := b.rh + 1, fill := b.fill - 1 }, b.cns)

/-- Commits the marked slots at the front of the writer run (R149). -/
def CBuf.commit : Nat → CBuf → CBuf
  | 0, b => b
  | n + 1, b =>
    if b.wh ≠ 0 && b.marks.contains b.cmt then
      commit n { b with marks := b.marks.filter (· ≠ b.cmt), cmt := b.wrap (b.cmt + 1), wh := b.wh - 1, fill := b.fill + 1 }
    else b

/-- Frees the marked slots at the front of the reader run (R149). -/
def CBuf.recycle : Nat → CBuf → CBuf
  | 0, b => b
  | n + 1, b =>
    if b.rh ≠ 0 && b.marks.contains b.rlf then
      recycle n { b with marks := b.marks.filter (· ≠ b.rlf), rlf := b.wrap (b.rlf + 1), rh := b.rh - 1, free := b.free + 1 }
    else b

/-- A kind 0x40 fault of a circular buffer (R150). -/
def cbExc (reason n : Nat) : Exc := { kind := 0x40, level := 1, detail := reason + n * 256 + 2 ^ 12 }

/-- Gives the lanes of a copy their destinations in the slot it has reserved (R152). -/
def Copy.placeIn (c : Copy) (buf slot base : Nat) : Copy :=
  let off (l : Nat) : Option Nat := ((c.slotOf.getD []).find? fun p => p.1 = l).map (·.2)
  { c with
    cb := some (buf, slot)
    slotOf := none
    lanes := c.lanes.map fun l => { l with dst := (off l.lane).map fun o => (Space.scratch c.core, base + o) } }

/-- A waiting CBACQ completes with a slot (R149). -/
def State.handOut (s : State) (k n off : Nat) : State :=
  match kfind s.waves k with
  | none => s
  | some w =>
    match w.frag n with
    | none => s
    | some fr =>
      match fr.st with
      | .waiting (.cbWriter _ d) | .waiting (.cbReader _ d) => (advance s k (w.wrS d (BitVec.ofNat 32 off)) fr 8).ready k n
      | _ => s

/-- Serves waiting writers in order while free slots last (R149, R152). A copy that has waited while CBINIT changed the buffer writes the
offsets it was accepted with into a slot of the new ring: the model's choice (log entry 76). -/
def State.serveWriters (s : State) (core n : Nat) : Nat → State
  | 0 => s
  | fuel + 1 =>
    let b := s.cb core n
    let x := s.core core
    match kget [] x.cbWriters n with
    | [] => s
    | wt :: rest =>
      if b.free = 0 then s
      else
        let (b', slot) := b.takeFree
        let s1 := (s.setCore core { x with cbWriters := kset [] x.cbWriters n rest }).setCb core n b'
        let s2 := match wt with
          | .frag k f => s1.handOut k f (b.offset slot)
          | .copy id =>
            match kfind s1.copies id with
            | some c => { s1 with copies := kinsert s1.copies id (c.placeIn n slot (c.winBase + b.offset slot)) }
            | none => s1
        s2.serveWriters core n fuel

/-- Serves waiting readers in order while committed slots last (R149). -/
def State.serveReaders (s : State) (core n : Nat) : Nat → State
  | 0 => s
  | fuel + 1 =>
    let b := s.cb core n
    let x := s.core core
    match kget [] x.cbReaders n with
    | .frag k f :: rest =>
      if b.fill = 0 then s
      else
        let (b', slot) := b.takeFull
        (((s.setCore core { x with cbReaders := kset [] x.cbReaders n rest }).setCb core n b').handOut k f (b.offset slot)).serveReaders
          core n fuel
    | _ => s

/-- Serves both orders of waiters. -/
def State.serveCb (s : State) (core n : Nat) : State := (s.serveWriters core n 257).serveReaders core n 257

/-- CBINIT's geometry (R148). -/
def badRing (winLen base word : Nat) : Bool :=
  let ssz := bits word 11 0
  bits word 31 20 ≠ 0 || ssz = 0 || base % 16 ≠ 0 || winLen < base + 16 * ssz * (bits word 19 12 + 1)

def execCbinit (n a b : Nat) (s : State) : Out :=
  onFrag s fun k w fr =>
    let base := (rdS s w 1 a).toNat
    let word := (rdS s w 2 b).toNat
    let p := cbOf s w n
    let old := s.cb w.core p
    if badRing (winOf s w).2 base word then
      takeTrap s k w fr { kind := 0x10, level := 1, lane := some 0, addr := base, detail := 4 }
    else if old.wh ≠ 0 || old.rh ≠ 0 then takeTrap s k w fr (cbExc 1 n)
    else
      let nsl := bits word 19 12
      ((advance s k w fr 8).setCb w.core p { v := true, base, ssz := bits word 11 0, nsl, free := nsl + 1 }).serveCb w.core p

/-- CBACQ (R149): takes a slot when one is there and nobody waits, else waits in order. -/
def cbAcquire (n d : Nat) (writer : Bool) (s : State) : Out :=
  onFrag s fun k w fr =>
    let p := cbOf s w n
    let b := s.cb w.core p
    let x := s.core w.core
    if !b.v then takeTrap s k w fr (cbExc 3 n)
    else if writer then
      if b.free ≠ 0 && kget [] x.cbWriters p = [] then
        let (b', slot) := b.takeFree
        (advance s k (w.wrS d (BitVec.ofNat 32 (b.offset slot))) fr 8).setCb w.core p b'
      else
        waitAt (s.setCore w.core { x with cbWriters := kinsert x.cbWriters p (kget [] x.cbWriters p ++ [.frag k fr.num]) }) k fr
          (.cbWriter n d)
    else if b.fill ≠ 0 && kget [] x.cbReaders p = [] then
      let (b', slot) := b.takeFull
      (advance s k (w.wrS d (BitVec.ofNat 32 (b.offset slot))) fr 8).setCb w.core p b'
    else
      waitAt (s.setCore w.core { x with cbReaders := kinsert x.cbReaders p (kget [] x.cbReaders p ++ [.frag k fr.num]) }) k fr
        (.cbReader n d)

def execCbacqFull (n d : Nat) (s : State) : Out := cbAcquire n d false s
def execCbacqFree (n d : Nat) (s : State) : Out := cbAcquire n d true s

/-- Whether an LDL or STL of a fragment has not performed (R149). -/
def Wave.localOpen (w : Wave) (fr : Frag) : Bool :=
  w.replay.any fun e => e.frag = fr.num && (e.op = 0x205 || e.op = 0x206)

/-- A commit, or the return of slots to free, with the waiters it serves (R149). -/
def State.releaseSlot (s : State) (core p i : Nat) (writer : Bool) : State :=
  let b := s.cb core p
  let b' := { b with marks := b.marks ++ [i] }
  (s.setCb core p (if writer then b'.commit 257 else b'.recycle 257)).serveCb core p

/-- CBREL (R149): accepted once the fragment's earlier LDL and STL have performed. The bytes that a reader finds in a slot that software
released while a copy held it are any value until the copy completes; the model gives the scratchpad's own bytes as they stand
then, its choice (log entry 76). -/
def cbRelease (n a : Nat) (writer : Bool) (s : State) : Out :=
  onFrag s fun k w fr =>
    let p := cbOf s w n
    let b := s.cb w.core p
    if w.localOpen fr then s
    else if !b.v then takeTrap s k w fr (cbExc 3 n)
    else
      match b.slotAt (rdS s w 1 a).toNat with
      | none => takeTrap s k w fr (cbExc 2 n)
      | some i =>
        if (if writer then b.inRun b.cmt b.wh i else b.inRun b.rlf b.rh i) && !b.marks.contains i then
          (advance s k w fr 8).releaseSlot w.core p i writer
        else takeTrap s k w fr (cbExc 2 n)

def execCbrelFull (n a : Nat) (s : State) : Out := cbRelease n a false s
def execCbrelFree (n a : Nat) (s : State) : Out := cbRelease n a true s

/-! ### Thread copies (R151, R152) -/

/-- Both sides of a copy in one lane: the first failing check, the global side's before the scratchpad's; a slot's bound
takes the place of the window's when CB is set (R152). -/
def copySides (r : BufRec) (e : Int) (sz : Nat) (scratch : Except LaneFault Nat) : Except LaneFault (Option Nat × Nat) :=
  match place r e sz, scratch with
  | .error f, _ => .error f
  | .ok _, .error f => .error f
  | .ok a, .ok o => .ok (a, o)

/-- A lane's offset within a slot (R152). -/
def placeSlot (slotLen off sz : Nat) : Except LaneFault Nat :=
  if slotLen < off + sz then .error { kind := 0x10, reason := 3, addr := off }
  else if off % sz ≠ 0 then .error { kind := 0x11, reason := 3, addr := off }
  else .ok off

/-- The virtual 64-byte lines of lane addresses. -/
def linesOver (l : List (Nat × Nat)) : List Nat := (l.map fun x => x.2 / 64).eraseDups

/-- The copies that a core's copy queue holds (R152). -/
def State.copiesOn (s : State) (core : Nat) : Nat := (s.copies.filter fun p => p.2.core = core && !p.2.tileOp).length

def execCpy (g : Guard) (sz : Nat) (out : Bool) (cb : Option Nat) (d : VOp) (b : Nat) (a : VOp) (imm : Word) (s : State) : Out :=
  onFrag s fun k w fr =>
    let ls := lanesOf (sel s w fr g)
    let n := 4 * 2 ^ sz
    let (base, winLen) := winOf s w
    let p := (cb.map (cbOf s w)).getD 0
    let buf := s.cb w.core p
    match checkRecord (rdRecord s w 2 b) with
    | .error e => takeTrap s k w fr e
    | .ok r =>
      if cb.isSome && !buf.v then takeTrap s k w fr (cbExc 3 (cb.getD 0))
      else
        let idx (l : Nat) : Int := elemIndex (rdV s w 1 a l) (some imm)
        let off (l : Nat) : Nat := (rdV s w 0 d l).toNat
        let side (l : Nat) : Except LaneFault Nat :=
          if cb.isSome then placeSlot (16 * buf.ssz) (off l) n else placeScratch winLen (off l) n
        let lanes := ls.map fun l => (l, copySides r (idx l) n (side l))
        let globalOk := match lanes.find? (fun x => match x.2 with | .error _ => true | .ok _ => false) with
          | some x => match place r (idx x.1) n with | .ok _ => true | .error _ => false
          | none => true
        match gather lanes true (if globalOk then 1 else 0) with
        | .error e => takeTrap s k w fr e
        | .ok pl =>
          let has := pl.filterMap fun x => x.2.1.map fun v => (x.1, v)
          let (s1, t) := translateLines s (s.walker w) (if out then .write else .read) true true has
          match t with
          | .error e => takeTrap s1 k w fr e
          | .ok la =>
            match refuseCells la with
            | some e => takeTrap s1 k w fr e
            | none =>
              if !roomFor s1 w.core (heldLines la).length || 512 ≤ s1.copiesOn w.core then s1
              else
                let key (l : Nat) : Option (Space × Nat) := (la.find? fun x => x.lane = l).map fun x => (Space.global, x.key)
                let lane (x : Nat × Option Nat × Nat) : CopyLane :=
                  let scr := if cb.isSome then none else some (Space.scratch w.core, base + x.2.2)
                  { lane := x.1, src := if out then scr else key x.1, dst := if out then key x.1 else scr, len := n }
                let id := s1.nextCopy
                let c : Copy :=
                  { core := w.core
                    task := w.task
                    wave := some k
                    lanes := pl.map lane
                    earlier := w.openStores fr.num
                    slotOf := if cb.isSome then some (pl.map fun x => (x.1, x.2.2)) else none
                    winBase := base
                    frag := fr.num
                    seq := w.nextEntry
                    vlines := linesOver has }
                let w1 := w.modFrag fr.num fun f => { f with unsealed := f.unsealed ++ [id] }
                let s2 := { countCopy s1 w.core la with copies := kinsert s1.copies id c, nextCopy := id + 1 }
                let s3 := advance s2 k w1 fr 16
                match cb with
                | none => s3
                | some _ =>
                  let x := s3.core w.core
                  (s3.setCore w.core { x with cbWriters := kinsert x.cbWriters p (kget [] x.cbWriters p ++ [.copy id]) }).serveCb w.core p

/-- CSEAL (R153). -/
def execCseal (n : Nat) (s : State) : Out :=
  onFrag s fun k w fr =>
    advance s k (w.modFrag fr.num fun f =>
      { f with batches := kset [] f.batches n (kget [] f.batches n ++ f.unsealed), unsealed := [] }) fr 8

/-- CWAIT (R153): the batch is free once its copies have completed. -/
def execCwait (n : Nat) (s : State) : Out :=
  onFrag s fun k w fr =>
    if copiesDone s (kget [] fr.batches n) then
      advance s k (w.modFrag fr.num fun f => { f with batches := kset [] f.batches n [] }) fr 8
    else waitAt s k fr (.cwait n)

/-! ### Capture and completion (R136, R152, R206) -/

/-- The stores of the copy's issuer that it follows and that have not made their Capture. -/
def copyOwn (s : State) (c : Copy) : List (List (Space × Nat × Byte)) :=
  match c.wave.bind fun k => kfind s.waves k with
  | some w => w.ownBytes c.earlier
  | none => []

/-- A source byte of a copy's lane; a lane without a source gives zeros (R152). -/
def copyByte (s : State) (c : Copy) (l : CopyLane) (i : Nat) : Byte :=
  match l.src with
  | none => 0
  | some (sp, a) =>
    match l.got.find? fun p => p.1 = a + i with
    | some p => p.2
    | none => s.loadByte c.core (copyOwn s c) sp (a + i) false

def State.modCopyLane (s : State) (id lane : Nat) (f : CopyLane → CopyLane) : State :=
  match kfind s.copies id with
  | some c => { s with copies := kinsert s.copies id { c with lanes := c.lanes.map fun l => if l.lane = lane then f l else l } }
  | none => s

/-- Whether earlier accesses of the issuing fragment hold back a copy lane's write (R143). -/
def copyHeld (s : State) (c : Copy) (l : CopyLane) : Bool :=
  match c.wave with
  | none => false
  | some k =>
    match kfind s.waves k, l.dst with
    | some w, some (sp, a) =>
      heldBack s k w c.frag c.seq false [(sp, a, l.len)]
    | _, _ => false

/-- Whether a tile copy still waits in its engine's queue: until the operation starts it moves no scratchpad byte and writes
nothing (R161). -/
def copyQueued (s : State) (id : Nat) (c : Copy) : Bool := c.tileOp && (s.core c.core).cpq.any fun q => q.copy = some id

/-- The writer of a copy. -/
def copyWriter (s : State) (c : Copy) : Writer :=
  match c.wave with
  | some k => { s.writer k c.frag 2 with wave := 0, frag := 0 }
  | none => { src := 2, asid := s.asidOf c.task, core := some c.core, part := 0, task := c.task, key := c.owner }

/-- One Capture of a copy: a lane's bytes reach their destination; a high nibble that the destination keeps is read in the same
move (R165). -/
def State.captureLane (s : State) (id : Nat) (c : Copy) (l : CopyLane) : State :=
  let s1 := match l.dst with
    | none => s
    | some (sp, a) =>
      let b (i : Nat) : Byte :=
        if l.low then (copyByte s c l i &&& 0x0F) ||| (s.loadByte c.core [] sp (a + i) false &&& 0xF0) else copyByte s c l i
      s.captureBytes c.core c.task (copyWriter s c) ((List.range l.len).map fun i => (sp, a + i, b i))
  s1.modCopyLane id l.lane fun x => { x with done := true }

/-- A store of a fragment makes its Capture, or a copy reads source bytes or makes a lane's Capture. -/
def execCapture (src : CapSrc) (s : State) : Out :=
  machineMove s (
    match src with
    | .store wave entry =>
      match kfind s.waves wave with
      | none => s
      | some w =>
        match w.replay.find? fun e => e.id = entry with
        | none => s
        | some e =>
          match e.kind with
          | .store bs => if heldBack s wave w e.frag e.id false (bs.map fun b => (b.1, b.2.1, 1)) then s else s.captureStore wave e
          | _ => s
    | .copyRead id lane addrs =>
      match kfind s.copies id with
      | none => s
      | some c =>
        match c.lanes.find? fun l => l.lane = lane && !l.done with
        | none => s
        | some l =>
          match l.src with
          | none => s
          | some (sp, a) =>
            let mine := addrs.filter fun b => a ≤ b && b < a + l.len && !(l.got.any fun p => p.1 = b)
            if copyQueued s id c && sp ≠ .global then s else s.modCopyLane id lane fun x => { x with got := x.got ++ mine.map fun b => (b, copyByte s c l (b - a)) }
    | .copy id lane =>
      match kfind s.copies id with
      | none => s
      | some c =>
        match c.lanes.find? fun l => l.lane = lane && !l.done with
        | none => s
        | some l => if c.slotOf.isSome || copyQueued s id c || copyHeld s c l then s else s.captureLane id c l)

/-- Looks again at what waits for copies: CWAIT of the wave's fragments, and the wave's end. -/
def State.copyGone (s : State) (c : Copy) : State :=
  match c.wave with
  | some k => (s.wake k).endWave k
  | none => s

/-- A copy completes: it goes, a buffer copy marks and commits its slot, and waits are looked at again (R152). -/
def State.completeCopy (s : State) (id : Nat) (c : Copy) : State :=
  let s1 := { s with copies := kerase s.copies id }
  let s2 := match c.cb with
    | some (p, i) => s1.releaseSlot c.core p i true
    | none => s1
  s2.copyGone c

/-- The completion of a copy whose lanes have all made their Captures. A CB copy that waits for a slot has none yet. A
memory-to-memory tile copy that goes on after its task's save is published before its done bit is set (R219, R360). -/
def execCopyComplete (id : Nat) (s : State) : Out :=
  machineMove s (
    match kfind s.copies id with
    | none => s
    | some c =>
      if c.slotOf.isSome || copyQueued s id c || c.lanes.any (fun l => !l.done) then s
      else
        match c.late with
        | some off => ((s.publish c.core .system c.task []).writeFrameAt c.task (off + 5) [1]).completeCopy id c
        | none => s.completeCopy id c)

end Sys2Proof.Machine
end

