-- ==== Sys2Proof/Machine/LaneInt.lean ====
section
/-! DEFINITION. Integer, bit, shift and field instructions of the lanes, VDOT4 and VCMPRS (R72 to R80, R94, R95). -/

namespace Sys2Proof.Machine

/-! ### The common shape of R72 -/

/-- A lane-wise instruction whose `f` gives each selected lane's result and flags: sources are read at issue, the result
lands within LAT, lanes not selected keep their value. -/
def laneOp (s : State) (h : Hdr) (len : Nat) (d : VOp) (f : Wave → Nat → Word × Word) : Out :=
  onFrag s fun k w fr =>
    let m := sel s w fr h.g
    let due := s.cycle + h.lat
    let fl := (lanesOf m).foldl (fun a l => a ||| (f w l).2) 0
    advance s k (((w.wrV d m fun l => (f w l).1).mark (.vec (VOp.field d)) m due).raise fl due) fr len

/-- The same with a predicate destination (R74). -/
def predOp (s : State) (h : Hdr) (len p : Nat) (f : Wave → Nat → Bool × Word) : Out :=
  onFrag s fun k w fr =>
    let m := sel s w fr h.g
    let due := s.cycle + h.lat
    let fl := (lanesOf m).foldl (fun a l => a ||| (f w l).2) 0
    advance s k (((w.wrP p m fun l => (f w l).1).mark (.pred p) m due).raise fl due) fr len

/-- Operands of a lane, by slot: A is 1, B is 2, C is 3. -/
def opA (s : State) (w : Wave) (a : VOp) (l : Nat) : Word := rdV s w 1 a l
def opB (s : State) (w : Wave) (b : VOp) (l : Nat) : Word := rdV s w 2 b l
def opC (s : State) (w : Wave) (c : VOp) (l : Nat) : Word := rdV s w 3 c l

/-! ### The helpers of R73 -/

/-- Width in bits of an integer type (R66). -/
def tyWidth : Ty → Nat
  | .i32 | .u32 => 32 | .i16 | .u16 => 16 | .i8 | .u8 => 8 | .i4 | .u4 => 4
  | _ => 32

/-- Whether an integer type is signed. -/
def tySigned : Ty → Bool
  | .i32 | .i16 | .i8 | .i4 => true
  | _ => false

def tyMin (t : Ty) : Int := if tySigned t then -(2 ^ (tyWidth t - 1) : Nat) else 0
def tyMax (t : Ty) : Int := if tySigned t then (2 ^ (tyWidth t - 1) : Nat) - 1 else (2 ^ tyWidth t : Nat) - 1

/-- N of R73. -/
def tyN (t : Ty) (pk : Bool) : Nat := if pk then 32 / tyWidth t else 1

/-- A value of `w` bits read as signed or unsigned by T. -/
def tyRead (t : Ty) (x : Nat) : Int := if tySigned t then signed x (tyWidth t) else ((x % 2 ^ tyWidth t : Nat) : Int)

/-- Elem of R73. -/
def elem (x : Word) (t : Ty) (i : Nat) : Int := tyRead t (x.toNat >>> (tyWidth t * i))

/-- Fit of R73, with the flag it sets. -/
def fit (v : Int) (t : Ty) (sat : Bool) : Int × Word :=
  if tyMin t ≤ v ∧ v ≤ tyMax t then (v, 0)
  else if sat then (if tyMax t < v then tyMax t else tyMin t, fSAT)
  else (tyRead t (wrap v (tyWidth t)), 0)

/-- Element 0 extended to 32 bits by T (R66). -/
def extendTy (t : Ty) (v : Int) : Word := if tySigned t then BitVec.ofInt 32 v else BitVec.ofNat 32 (wrap v (tyWidth t))

/-- Put of R73 over the list of elements. -/
def put (t : Ty) (pk : Bool) (l : List Int) : Word :=
  if pk then BitVec.ofNat 32 ((l.zipIdx.map fun p => wrap p.1 (tyWidth t) * 2 ^ (tyWidth t * p.2)).sum)
  else extendTy t (l.headD 0)

/-- The element-wise effect of R76 in one lane. -/
def elemWise (t : Ty) (sat pk : Bool) (f : Int → Int → Int → Int) (a b c : Word) : Word × Word :=
  let r := (List.range (tyN t pk)).map fun e => fit (f (elem a t e) (elem b t e) (elem c t e)) t sat
  (put t pk (r.map (·.1)), r.foldl (fun x p => x ||| p.2) 0)

/-! ### Integer arithmetic (R75 to R78) -/

def execViadd (h : Hdr) (t : Ty) (sat pk : Bool) (d a b : VOp) (s : State) : Out :=
  laneOp s h 8 d fun w l => elemWise t sat pk (fun x y _ => x + y) (opA s w a l) (opB s w b l) 0

def execVisub (h : Hdr) (t : Ty) (sat pk : Bool) (d a b : VOp) (s : State) : Out :=
  laneOp s h 8 d fun w l => elemWise t sat pk (fun x y _ => x - y) (opA s w a l) (opB s w b l) 0

def execVimul (h : Hdr) (t : Ty) (sat pk : Bool) (d a b : VOp) (s : State) : Out :=
  laneOp s h 8 d fun w l => elemWise t sat pk (fun x y _ => x * y) (opA s w a l) (opB s w b l) 0

def execVimad (h : Hdr) (t : Ty) (sat pk : Bool) (d a b c : VOp) (s : State) : Out :=
  laneOp s h 16 d fun w l => elemWise t sat pk (fun x y z => x * y + z) (opA s w a l) (opB s w b l) (opC s w c l)

def execVimin (h : Hdr) (t : Ty) (pk : Bool) (d a b : VOp) (s : State) : Out :=
  laneOp s h 8 d fun w l => elemWise t false pk (fun x y _ => min x y) (opA s w a l) (opB s w b l) 0

def execVimax (h : Hdr) (t : Ty) (pk : Bool) (d a b : VOp) (s : State) : Out :=
  laneOp s h 8 d fun w l => elemWise t false pk (fun x y _ => max x y) (opA s w a l) (opB s w b l) 0

def execViabs (h : Hdr) (t : Ty) (sat pk : Bool) (d a : VOp) (s : State) : Out :=
  laneOp s h 8 d fun w l => elemWise t sat pk (fun x _ _ => (x.natAbs : Int)) (opA s w a l) 0 0

def execVineg (h : Hdr) (t : Ty) (sat pk : Bool) (d a : VOp) (s : State) : Out :=
  laneOp s h 8 d fun w l => elemWise t sat pk (fun x _ _ => -x) (opA s w a l) 0 0

/-- The high half of the exact product (R77). -/
def mulHigh (t : Ty) (a b : Word) : Word := BitVec.ofNat 32 (wrap (elem a t 0 * elem b t 0) 64 >>> 32)

def execVimulh (h : Hdr) (t : Ty) (d a b : VOp) (s : State) : Out :=
  laneOp s h 8 d fun w l => (mulHigh t (opA s w a l) (opB s w b l), 0)

/-- The relation of an integer condition (R78). -/
def icmp (c : ICond) (a b : Int) : Bool :=
  match c with
  | .eq => a = b | .ne => a ≠ b | .lt => a < b | .le => a ≤ b | .gt => b < a | .ge => b ≤ a

def execVicmp (h : Hdr) (t : Ty) (cc : ICond) (p : Nat) (a b : VOp) (s : State) : Out :=
  predOp s h 8 p fun w l => (icmp cc (elem (opA s w a l) t 0) (elem (opB s w b l) t 0), 0)

def execVlea (h : Hdr) (sh : Nat) (d a b : VOp) (s : State) : Out :=
  laneOp s h 8 d fun w l => (opA s w a l + opB s w b l <<< sh, 0)

/-! ### Bits, shifts and fields (R79, R80) -/

def execVand (h : Hdr) (d a b : VOp) (s : State) : Out :=
  laneOp s h 8 d fun w l => (opA s w a l &&& opB s w b l, 0)

def execVor (h : Hdr) (d a b : VOp) (s : State) : Out :=
  laneOp s h 8 d fun w l => (opA s w a l ||| opB s w b l, 0)

def execVxor (h : Hdr) (d a b : VOp) (s : State) : Out :=
  laneOp s h 8 d fun w l => (opA s w a l ^^^ opB s w b l, 0)

def execVnot (h : Hdr) (d a : VOp) (s : State) : Out :=
  laneOp s h 8 d fun w l => (~~~opA s w a l, 0)

/-- The shift amount B[7:0] of R80. -/
def amount (b : Word) : Nat := b.toNat % 256

/-- Shifts of R80: 32 and more empty the register, or fill it with the sign. -/
def shl (a : Word) (n : Nat) : Word := if 32 ≤ n then 0 else a <<< n
def shr (a : Word) (n : Nat) : Word := if 32 ≤ n then 0 else a >>> n
def sar (a : Word) (n : Nat) : Word := a.sshiftRight (min n 32)

def execVshl (h : Hdr) (d a b : VOp) (s : State) : Out :=
  laneOp s h 8 d fun w l => (shl (opA s w a l) (amount (opB s w b l)), 0)

def execVshr (h : Hdr) (d a b : VOp) (s : State) : Out :=
  laneOp s h 8 d fun w l => (shr (opA s w a l) (amount (opB s w b l)), 0)

def execVsar (h : Hdr) (d a b : VOp) (s : State) : Out :=
  laneOp s h 8 d fun w l => (sar (opA s w a l) (amount (opB s w b l)), 0)

def execVrot (h : Hdr) (d a b : VOp) (s : State) : Out :=
  laneOp s h 8 d fun w l => ((opA s w a l).rotateLeft (amount (opB s w b l) % 32), 0)

/-- off and w of a field control word (R80). -/
def fieldOff (k : Word) : Nat := bits k.toNat 4 0
def fieldWid (k : Word) : Nat := min (min (bits k.toNat 13 8) 32) (32 - fieldOff k)

/-- VBFX of R80. -/
def bfx (t : Ty) (a k : Word) : Word :=
  let n := fieldWid k
  let x := (a.toNat >>> fieldOff k) % 2 ^ n
  if n = 0 then 0 else if tySigned t then BitVec.ofInt 32 (signed x n) else BitVec.ofNat 32 x

/-- VBFI of R80. -/
def bfi (a b k : Word) : Word :=
  let m := BitVec.ofNat 32 ((2 ^ fieldWid k - 1) * 2 ^ fieldOff k)
  (a &&& ~~~m) ||| ((b <<< fieldOff k) &&& m)

def execVbfx (h : Hdr) (t : Ty) (d a b : VOp) (s : State) : Out :=
  laneOp s h 8 d fun w l => (bfx t (opA s w a l) (opB s w b l), 0)

def execVbfi (h : Hdr) (d a b c : VOp) (s : State) : Out :=
  laneOp s h 16 d fun w l => (bfi (opA s w a l) (opB s w b l) (opC s w c l), 0)

/-- The number of 1 bits. -/
def popc (a : Word) : Word := BitVec.ofNat 32 (lanesOf a).length

/-- The number of leading 0 bits, 32 for 0. -/
def clz (a : Word) : Word := if a = 0 then 32 else BitVec.ofNat 32 (31 - Nat.log2 a.toNat)

/-- Bit order reversed. -/
def brev (a : Word) : Word := maskOf ((lanesOf a).map fun i => 31 - i)

def execVpopc (h : Hdr) (d a : VOp) (s : State) : Out :=
  laneOp s h 8 d fun w l => (popc (opA s w a l), 0)

def execVclz (h : Hdr) (d a : VOp) (s : State) : Out :=
  laneOp s h 8 d fun w l => (clz (opA s w a l), 0)

def execVbrev (h : Hdr) (d a : VOp) (s : State) : Out :=
  laneOp s h 8 d fun w l => (brev (opA s w a l), 0)

/-! ### VDOT4 and VCMPRS (R94, R95) -/

/-- The type of the opposite signedness. -/
def otherSign : Ty → Ty
  | .i8 => .u8 | .u8 => .i8 | .i4 => .u4 | .u4 => .i4 | .i16 => .u16 | .u16 => .i16 | .i32 => .u32 | .u32 => .i32
  | t => t

/-- The dot product of R94 in one lane. -/
def dot4 (t : Ty) (sat mix : Bool) (a b c : Word) : Word × Word :=
  let tb := if mix then otherSign t else t
  let v := (List.range (32 / tyWidth t)).foldl (fun v e => v + elem a t e * elem b tb e) (signed c.toNat 32)
  let r := fit v .i32 sat
  (extendTy .i32 r.1, r.2)

def execVdot4 (h : Hdr) (t : Ty) (sat mix : Bool) (d a b c : VOp) (s : State) : Out :=
  laneOp s h 16 d fun w l => dot4 t sat mix (opA s w a l) (opB s w b l) (opC s w c l)

/-- The key of an element (R95): a magnitude, with every NaN above the infinity. -/
def cmprsKey (t : Ty) (x : Nat) : Nat :=
  match t with
  | .i8 => (signed x 8).natAbs
  | .pf16 => if 0x7C00 < x % 2 ^ 15 then 0x8000 else x % 2 ^ 15
  | _ => if 0x7F80 < x % 2 ^ 15 then 0x8000 else x % 2 ^ 15

/-- The two kept indices of four keys, ascending: those that fewer than two others precede in the order key descending,
then index ascending. -/
def kept (keys : List Nat) : List Nat :=
  let before (j i : Nat) : Bool := keys.getD i 0 < keys.getD j 0 || (keys.getD j 0 = keys.getD i 0 && j < i)
  (List.range 4).filter fun i => ((List.range 4).filter fun j => before j i).length < 2

/-- The kept elements packed, and the index mask. -/
def cmprs (t : Ty) (a b : Word) : Nat × Nat :=
  let w := if t = .i8 then 8 else 16
  let el (i : Nat) : Nat := if t = .i8 then bits a.toNat (8 * i + 7) (8 * i) else bits (if i < 2 then a else b).toNat (16 * (i % 2) + 15) (16 * (i % 2))
  let ks := kept ((List.range 4).map fun i => cmprsKey t (el i))
  (el (ks.getD 0 0) + el (ks.getD 1 0) * 2 ^ w, 2 ^ ks.getD 0 0 + 2 ^ ks.getD 1 0)

/-- The register after a main-file register. -/
def VOp.next : VOp → VOp
  | .v n => .v (n + 1)
  | x => x

def execVcmprs (h : Hdr) (t : Ty) (d a : VOp) (b : Option VOp) (s : State) : Out :=
  match b with
  | none => laneOp s h 8 d fun w l => let r := cmprs t (opA s w a l) 0; (BitVec.ofNat 32 (r.1 + r.2 * 2 ^ 16), 0)
  | some b =>
    onFrag s fun k w fr =>
      let m := sel s w fr h.g
      let due := s.cycle + h.lat
      let r (l : Nat) := cmprs t (opA s w a l) (opB s w b l)
      let d' := VOp.next d
      let w := (w.wrV d m fun l => BitVec.ofNat 32 (r l).1).wrV d' m fun l => BitVec.ofNat 32 (r l).2
      advance s k ((w.mark (.vec (VOp.field d)) m due).mark (.vec (VOp.field d')) m due) fr 8

end Sys2Proof.Machine
end

