-- ==== Sys2Proof/Machine/LaneFp.lean ====
section
/-! DEFINITION. Floating arithmetic, conversion, packing, selection and movement of the lanes (R81 to R87, R90 to R93, R96
to R98). -/

namespace Sys2Proof.Machine

/-! ### The common shape of R83 -/

/-- The number of elements and their format. -/
def fElems (t : Ty) : Nat := if t.isPair then 2 else 1

/-- Element `e` of a register as its encoding. -/
def fElem (t : Ty) (x : Word) (e : Nat) : Nat :=
  let wd := (fmtOf t).width
  (x.toNat >>> (wd * e)) % 2 ^ wd

/-- Puts element encodings at their places; [31:16] of a single 16-bit result is zero (R62). -/
def fPut (t : Ty) (l : List Nat) : Word :=
  BitVec.ofNat 32 (l.zipIdx.map fun p => p.1 * 2 ^ ((fmtOf t).width * p.2)).sum

/-- A floating operation on each element: reads by Src, writes the encoding, ORs the flags (R83). -/
def fWise (v : FEnv) (t : Ty) (f : Fmt → FEnv → FVal → FVal → FVal → Nat × Word) (a b c : Word) : Word × Word :=
  let fm := fmtOf t
  let r := (List.range (fElems t)).map fun e =>
    f fm v (v.src fm (fElem t a e)) (v.src fm (fElem t b e)) (v.src fm (fElem t c e))
  (fPut t (r.map (·.1)), r.foldl (fun x p => x ||| p.2) 0)

/-- %mode and the rounding code as an instruction reads them at issue (R20, R81). -/
def fenv (w : Wave) (r : Rnd) : FEnv := FEnv.of w.mode r.code

def execVfadd (h : Hdr) (r : Rnd) (t : Ty) (d a b : VOp) (s : State) : Out :=
  laneOp s h 8 d fun w l => fWise (fenv w r) t (fun f v x y _ => f.add v x y) (opA s w a l) (opB s w b l) 0

def execVfsub (h : Hdr) (r : Rnd) (t : Ty) (d a b : VOp) (s : State) : Out :=
  laneOp s h 8 d fun w l => fWise (fenv w r) t (fun f v x y _ => f.sub v x y) (opA s w a l) (opB s w b l) 0

def execVfmul (h : Hdr) (r : Rnd) (t : Ty) (d a b : VOp) (s : State) : Out :=
  laneOp s h 8 d fun w l => fWise (fenv w r) t (fun f v x y _ => f.mul v x y) (opA s w a l) (opB s w b l) 0

def execVfma (h : Hdr) (r : Rnd) (t : Ty) (d a b c : VOp) (s : State) : Out :=
  laneOp s h 16 d fun w l => fWise (fenv w r) t (fun f v x y z => f.fma v x y z) (opA s w a l) (opB s w b l) (opC s w c l)

def execVfmin (h : Hdr) (r : Rnd) (t : Ty) (d a b : VOp) (s : State) : Out :=
  laneOp s h 8 d fun w l => fWise (fenv w r) t (fun f v x y _ => f.minmax v false x y) (opA s w a l) (opB s w b l) 0

def execVfmax (h : Hdr) (r : Rnd) (t : Ty) (d a b : VOp) (s : State) : Out :=
  laneOp s h 8 d fun w l => fWise (fenv w r) t (fun f v x y _ => f.minmax v true x y) (opA s w a l) (opB s w b l) 0

/-- VFCMP in one lane (R85). -/
def fcmpLane (v : FEnv) (t : Ty) (cc : FCond) (a b : Word) : Bool × Word :=
  let f := fmtOf t
  let x := v.src f (fElem t a 0)
  let y := v.src f (fElem t b 0)
  (fcmp cc x y, snanFlag [x, y])

def execVfcmp (h : Hdr) (r : Rnd) (t : Ty) (cc : FCond) (p : Nat) (a b : VOp) (s : State) : Out :=
  predOp s h 8 p fun w l => fcmpLane (fenv w r) t cc (opA s w a l) (opB s w b l)

/-- The class mask has no use for the rounding code, which R82 says is ignored. -/
def execVfclass (h : Hdr) (_r : Rnd) (t : Ty) (d a : VOp) (s : State) : Out :=
  laneOp s h 8 d fun w l => (BitVec.ofNat 32 ((fmtOf t).classify (fElem t (opA s w a l) 0)), 0)

def execVfrint (h : Hdr) (r : Rnd) (t : Ty) (x : Bool) (d a : VOp) (s : State) : Out :=
  laneOp s h 8 d fun w l => fWise (fenv w r) t (fun f v y _ _ => f.rint v x y) (opA s w a l) 0 0

def execVfdiv (h : Hdr) (r : Rnd) (d a b : VOp) (s : State) : Out :=
  laneOp s h 8 d fun w l => fWise (fenv w r) .f32 (fun f v x y _ => f.div v x y) (opA s w a l) (opB s w b l) 0

def execVfsqrt (h : Hdr) (r : Rnd) (d a : VOp) (s : State) : Out :=
  laneOp s h 8 d fun w l => fWise (fenv w r) .f32 (fun f v x _ _ => f.sqrt v x) (opA s w a l) 0 0

/-! ### Conversion and packing (R90 to R93) -/

/-- VCVT of one value (R91). -/
def cvt (v : FEnv) (td ts : Ty) (x : Word) : Word × Word :=
  if ts.isInt then
    let n := elem x ts 0
    if td.isInt then
      let r := fit n td true
      (extendTy td r.1, r.2)
    else
      let r := (fmtOf td).ofInt v n
      (BitVec.ofNat 32 r.1, r.2)
  else
    let y := v.src (fmtOf ts) (fElem ts x 0)
    if td.isInt then
      let r := toIntVal v (tyMin td) (tyMax td) y
      (extendTy td r.1, r.2)
    else
      let r := (fmtOf td).convert v y
      (BitVec.ofNat 32 r.1, r.2)

def execVcvt (h : Hdr) (r : Rnd) (td ts : Ty) (d a : VOp) (s : State) : Out :=
  laneOp s h 8 d fun w l => cvt (fenv w r) td ts (opA s w a l)

/-- VPACK in one lane (R92). -/
def pack2 (v : FEnv) (t : Ty) (a b : Word) : Word × Word :=
  let x := (fmtOf t).convert v (v.src fp32 a.toNat)
  let y := (fmtOf t).convert v (v.src fp32 b.toNat)
  (fPut t [x.1, y.1], x.2 ||| y.2)

def execVpack (h : Hdr) (r : Rnd) (t : Ty) (d a b : VOp) (s : State) : Out :=
  laneOp s h 8 d fun w l => pack2 (fenv w r) t (opA s w a l) (opB s w b l)

/-- VUNPACK in one lane (R92). -/
def unpack (v : FEnv) (t : Ty) (e : Bool) (a : Word) : Word × Word :=
  let r := fp32.convert v (v.src (fmtOf t) (fElem t a (if e then 1 else 0)))
  (BitVec.ofNat 32 r.1, r.2)

def execVunpack (h : Hdr) (r : Rnd) (t : Ty) (e : Bool) (d a : VOp) (s : State) : Out :=
  laneOp s h 8 d fun w l => unpack (fenv w r) t e (opA s w a l)

/-- VDOT2 in one lane (R93). -/
def dot2Lane (v : FEnv) (t : Ty) (a b c : Word) : Word × Word :=
  let el (x : Word) (e : Nat) := v.src (fmtOf t) (fElem t x e)
  let r := dot2 v (el a 0) (el a 1) (el b 0) (el b 1) (v.src fp32 c.toNat)
  (BitVec.ofNat 32 r.1, r.2)

def execVdot2 (h : Hdr) (r : Rnd) (t : Ty) (d a b c : VOp) (s : State) : Out :=
  laneOp s h 16 d fun w l => dot2Lane (fenv w r) t (opA s w a l) (opB s w b l) (opC s w c l)

/-! ### Selection and movement (R96 to R98) -/

def execVsel (h : Hdr) (n : Nat) (d a b : VOp) (s : State) : Out :=
  laneOp s h 8 d fun w l => (if rdP s w 5 n l then opA s w a l else opB s w b l, 0)

def execVmov (h : Hdr) (d a : VOp) (s : State) : Out :=
  laneOp s h 8 d fun w l => (opA s w a l, 0)

/-- The immediate of f16 and bf16 has no bit above 15, so its zero extension is itself (R97). -/
def execVmovi (h : Hdr) (_t : Ty) (d : VOp) (imm : Word) (s : State) : Out :=
  laneOp s h 16 d fun _ _ => (imm, 0)

def execS2v (h : Hdr) (idx : Bool) (d : VOp) (a : Nat) (s : State) : Out :=
  laneOp s h 8 d fun w l => (rdS s w 1 (if idx then a + l else a), 0)

/-- The lane that V2S reads (R98). -/
def v2sLane (s : State) (w : Wave) (m : Word) (b : Option Nat) : Nat :=
  match b with
  | some n => (rdS s w 2 n).toNat % 32
  | none => (lanesOf m).headD 0

def execV2s (h : Hdr) (d : Nat) (a : VOp) (b : Option Nat) (s : State) : Out :=
  onFrag s fun k w fr =>
    let m := sel s w fr h.g
    if m = 0 then advance s k w fr 8
    else advance s k ((w.wrS d (opA s w a (v2sLane s w m b))).mark (.sca d) 1 (s.cycle + h.lat)) fr 8

end Sys2Proof.Machine
end

