-- ==== Sys2Proof/Machine/Special.lean ====
section
/-! DEFINITION. The special functions (R88, R89). A result that the spec fixes only up to a bound is the uninterpreted
Config.sfu confined to the bound around the exact result (log entry 4). -/

namespace Sys2Proof.Machine

/-- The functions of R88, by their place in its table. -/
inductive Sfu
  | rcp | rsq | exp | exp2 | log2 | sin | cos | tanh
  deriving DecidableEq, Repr

def Sfu.num : Sfu → Nat
  | .rcp => 0 | .rsq => 1 | .exp => 2 | .exp2 => 3 | .log2 => 4 | .sin => 5 | .cos => 6 | .tanh => 7

/-- The bound in ulp (R88). -/
def Sfu.bound : Sfu → Nat
  | .rcp => 1 | .tanh => 3 | _ => 2

/-- A positive real n × 2^e with its sign. -/
structure Mag where
  neg : Bool
  n : Nat
  e : Int
  deriving DecidableEq, Repr

/-- n × 2^k rounded down, and whether that is exact. -/
def floorShift (n : Nat) (k : Int) : Nat × Bool :=
  if 0 ≤ k then (n * 2 ^ k.toNat, true) else (n / 2 ^ (-k).toNat, n % 2 ^ (-k).toNat = 0)

/-- The largest FP32 magnitude at most n × 2^e, its encoding going on past the infinity's, and whether it is equal. -/
def encFloor (n : Int) (e : Int) : Nat × Bool :=
  if n ≤ 0 then (0, n = 0)
  else
    let m := n.toNat
    let k := e + Nat.log2 m
    if k < -126 then floorShift m (e + 149)
    else
      let r := floorShift m (e - k + 23)
      ((k + 126).toNat * 2 ^ 23 + r.1, r.2)

/-- The encodings within `b` ulp of a magnitude, as an interval (R89). -/
def within (y : Mag) (b : Nat) : Nat × Nat :=
  let top : Int := y.e + Nat.log2 y.n
  let u : Int := if top < -126 then -149 else top - 23
  let c := min y.e u
  let v : Int := (y.n * 2 ^ (y.e - c).toNat : Nat)
  let w : Int := (b * 2 ^ (u - c).toNat : Nat)
  let lo := encFloor (v - w) c
  (if lo.2 || v < w then lo.1 else lo.1 + 1, (encFloor (v + w) c).1)

/-- A fixed-point number as a signed magnitude. -/
def magOf (x : Int) : Mag := { neg := x < 0, n := x.natAbs, e := -(fxP : Int) }

/-- x − x³/d + x⁵ × a/b for a tiny x = m × 2^e, as a magnitude strictly below x: sin and tanh of a source too small for fixed point. -/
def tinyOdd (neg : Bool) (m : Nat) (e : Int) (d a b : Nat) : Mag :=
  let cube := (floorShift (m ^ 3) (2 * e + 400)).1 / d
  let fifth := (floorShift (m ^ 5) (4 * e + 400)).1 * a / b
  { neg, n := m * 2 ^ 400 - max 1 (cube - fifth), e := e - 400 }

/-- The exact result for a finite non-zero source m × 2^e that the table does not decide. -/
def Sfu.exact (f : Sfu) (neg : Bool) (m : Nat) (e : Int) : Mag :=
  let top : Int := e + Nat.log2 m
  let fx : Int := let v : Int := (m * 2 ^ (e + fxP).toNat : Nat); if neg then -v else v
  let big : Mag := { neg := false, n := 1, e := if neg then -400 else 400 }
  match f with
  | .rcp => { neg, n := 2 ^ 600 / m, e := -600 - e }
  | .rsq =>
    let odd := (e % 2).toNat
    { neg := false, n := Nat.sqrt (2 ^ 900 / (m * 2 ^ odd)), e := -(450 : Int) - (e - odd) / 2 }
  | .exp => if 8 ≤ top then big else let (v, k) := fxExp fx; { neg := false, n := v.toNat, e := k - fxP }
  | .exp2 => if 9 ≤ top then big else let (v, k) := fxExp2 fx; { neg := false, n := v.toNat, e := k - fxP }
  | .log2 =>
    let k := Nat.log2 m
    let v : Int := fxDiv (fxLn1 ((m * 2 ^ fxP / 2 ^ k : Nat) : Int)) fxLn2 + top * fxOne
    magOf v
  | .sin => if top < -40 then tinyOdd neg m e 6 1 120 else magOf (fxSin fx 0)
  | .cos => magOf (fxSin fx 1)
  | .tanh =>
    if top < -40 then tinyOdd neg m e 3 2 15 else { magOf (if 7 ≤ top then fxOne - 1 else fxTanh (fx.natAbs : Int)) with neg }

/-- Whether a result is the exact one: r × x = 1 for VFRCP, r² × x = 1 for VFRSQ. -/
def Sfu.isExact (f : Sfu) (m : Nat) (e : Int) (r : Nat) : Bool :=
  match f, fp32.read false r with
  | .rcp, .fin _ n g => n ≠ 0 && g + e ≤ 0 && n * m = 2 ^ (-(g + e)).toNat
  | .rsq, .fin _ n g => n ≠ 0 && 2 * g + e ≤ 0 && n * n * m = 2 ^ (-(2 * g + e)).toNat
  | _, _ => false

/-- The result confined to the bound (R89): overflow, the zone beside it, underflow, or an encoding within the bound. An exact result of 2^-126 or
above whose bounded result lies below it is that subnormal number with NX only, under F32SUB = 1 too: the model's choice (log entry 86). -/
def Sfu.confine (f : Sfu) (x : Word) (v : FEnv) (m : Nat) (e : Int) (y : Mag) : Word × Word :=
  let sg := sbit y.neg * 2 ^ 31
  let (lo, hi) := within y f.bound
  let top : Int := y.e + Nat.log2 y.n
  let raw := (Config.sfu f.num x v.f32sub v.nanm).toNat % 2 ^ 31
  let near (lo hi : Nat) : Nat := if lo ≤ raw ∧ raw ≤ hi then raw else max lo (min hi (encFloor y.n y.e).1)
  let fl (r : Nat) : Word := flagIf (!f.isExact m e r) fNX
  if 0x7F800000 ≤ (encFloor y.n y.e).1 || ((encFloor y.n y.e).1 = 0x7F7FFFFF && !(encFloor y.n y.e).2) then
    (BitVec.ofNat 32 (sg + 0x7F800000), fOF ||| fNX)
  else if 0x7F7FFFFF ≤ hi then
    if Config.sfuOver f.num x v.f32sub v.nanm then (BitVec.ofNat 32 (sg + 0x7F800000), fOF ||| fNX)
    else (BitVec.ofNat 32 (sg + 0x7F7FFFFF), fl 0x7F7FFFFF)
  else if top < -126 then
    (BitVec.ofNat 32 (sg + (if v.f32sub then 0 else near lo (min hi 0x7FFFFF))), fUF ||| fNX)
  else
    let r := near lo hi
    (BitVec.ofNat 32 (sg + r), fl r)

/-- The integer value of m × 2^e with its sign, if it is one. -/
def intVal (neg : Bool) (m : Nat) (e : Int) : Option Int :=
  let r := floorShift m e
  if r.2 then some (if neg then -(r.1 : Int) else r.1) else none

/-- A special function of a source (R88): the table's special sources and exact results, else the bounded result. -/
def Sfu.apply (f : Sfu) (v : FEnv) (x : Word) : Word × Word :=
  let out (n : Nat) (fl : Word) : Word × Word := (BitVec.ofNat 32 n, fl)
  let a := v.src fp32 x.toNat
  let sg := sbit a.sign * 2 ^ 31
  match a with
  | .nan _ _ _ => out (fp32.nanOut v.nanm [a]) (snanFlag [a])
  | .inf s =>
    match f with
    | .rcp => out sg 0
    | .rsq | .log2 => if s then out fp32.qnan fNV else out (if f = .rsq then 0 else fp32.inf false) 0
    | .exp | .exp2 => out (if s then 0 else fp32.inf false) 0
    | .sin | .cos => out fp32.qnan fNV
    | .tanh => out (sg + 0x3F800000) 0
  | .fin s m e =>
    if m = 0 then
      match f with
      | .rcp | .rsq => out (fp32.inf s) fDZ
      | .log2 => out (fp32.inf true) fDZ
      | .exp | .exp2 | .cos => out 0x3F800000 0
      | .sin | .tanh => out sg 0
    else
      let y := f.exact s m e
      match f with
      | .rsq => if s then out fp32.qnan fNV else f.confine x v m e y
      | .log2 =>
        if s then out fp32.qnan fNV
        else if m = 2 ^ Nat.log2 m then
          let n : Int := e + Nat.log2 m
          out (fp32.round 1 false false (n < 0) n.natAbs 0 false).1 0
        else f.confine x v m e y
      | .exp2 =>
        match intVal s m e with
        | some n =>
          if -126 ≤ n ∧ n ≤ 127 then out ((n + 127).toNat * 2 ^ 23) 0
          else if -149 ≤ n ∧ n ≤ -127 then (if v.f32sub then out 0 (fUF ||| fNX) else out (2 ^ (n + 149).toNat) 0)
          else f.confine x v m e y
        | none => f.confine x v m e y
      | .sin | .cos =>
        if 21 < e + Nat.log2 m || (e + Nat.log2 m = 21 && m ≠ 2 ^ Nat.log2 m) then out 0x7FC00000 fRNG
        else f.confine x v m e y
      | _ => f.confine x v m e y

/-- A special function in every selected lane; RND has no effect (R88). -/
def sfuOp (f : Sfu) (h : Hdr) (r : Rnd) (d a : VOp) (s : State) : Out :=
  laneOp s h 8 d fun w l => f.apply (fenv w r) (opA s w a l)

def execVfrcp (h : Hdr) (r : Rnd) (d a : VOp) (s : State) : Out := sfuOp .rcp h r d a s
def execVfrsq (h : Hdr) (r : Rnd) (d a : VOp) (s : State) : Out := sfuOp .rsq h r d a s
def execVfexp (h : Hdr) (r : Rnd) (d a : VOp) (s : State) : Out := sfuOp .exp h r d a s
def execVfexp2 (h : Hdr) (r : Rnd) (d a : VOp) (s : State) : Out := sfuOp .exp2 h r d a s
def execVflog2 (h : Hdr) (r : Rnd) (d a : VOp) (s : State) : Out := sfuOp .log2 h r d a s
def execVfsin (h : Hdr) (r : Rnd) (d a : VOp) (s : State) : Out := sfuOp .sin h r d a s
def execVfcos (h : Hdr) (r : Rnd) (d a : VOp) (s : State) : Out := sfuOp .cos h r d a s
def execVftanh (h : Hdr) (r : Rnd) (d a : VOp) (s : State) : Out := sfuOp .tanh h r d a s

end Sys2Proof.Machine
end

