-- ==== Sys2Proof/Machine/Exchange.lean ====
section
/-! DEFINITION. Lane tiles and exchange (R118 to R123) and the fused softmax sequence (R99, R100). -/

namespace Sys2Proof.Machine

/-- The tile size z and the first lane b(L) of a lane's tile (R118). -/
def tileSize (w : Wave) : Nat := 32 >>> w.lpart
def tileBase (z l : Nat) : Nat := l - l % z

/-- Q: the selected lanes of a lane's tile, ascending (R118). -/
def tileQ (z : Nat) (m : Word) (l : Nat) : List Nat := (lanesOf m).filter fun j => tileBase z j = tileBase z l

/-- The lane that VSHFL reads (R120). -/
def shflLane (mode : ShflMode) (z l b : Nat) : Nat :=
  let f := tileBase z l
  match mode with
  | .idx => f + b % z
  | .up => if b ≤ l - f then l - b else l
  | .down => if l + b < f + z then l + b else l
  | .xor => f + ((l - f) ^^^ (b % z))

def execVshfl (h : Hdr) (m : ShflMode) (d a b : VOp) (s : State) : Out :=
  laneOp s h 8 d fun w l => (opA s w a (shflLane m (tileSize w) l (opB s w b l).toNat), 0)

/-- VVOTE's result over Q (R121). -/
def vote (m : VoteMode) (l : List Bool) : Bool :=
  match m with
  | .any => l.any id
  | .all => l.all id
  | .eq => l.all id || l.all not

def execVvote (h : Hdr) (m : VoteMode) (d a : Nat) (s : State) : Out :=
  onFrag s fun k w fr =>
    let q := sel s w fr h.g
    let due := s.cycle + h.lat
    let f (l : Nat) : Bool := vote m ((tileQ (tileSize w) q l).map fun j => rdP s w 1 a j)
    advance s k ((w.wrP d q f).mark (.pred d) q due) fr 8

/-- VBAL's result (R121). -/
def ballot (base : Nat) (q : List Nat) (p : Nat → Bool) : Word := maskOf ((q.filter p).map fun j => j - base)

def execVbal (h : Hdr) (d : VOp) (a : Nat) (s : State) : Out :=
  onFrag s fun k w fr =>
    let q := sel s w fr h.g
    let z := tileSize w
    let f (l : Nat) : Word := ballot (tileBase z l) (tileQ z q l) fun j => rdP s w 1 a j
    advance s k ((w.wrV d q f).mark (.vec (VOp.field d)) q (s.cycle + h.lat)) fr 8

/-! ### Reduction and scan (R122, R123) -/

/-- Combines two values by an operator, with the flags it raises (R122): f32 add rounds, f32 min and max follow R84. -/
def combine (v : FEnv) (t : Ty) (op : RedOp) (a b : Word) : Word × Word :=
  let flt (r : Nat × Word) : Word × Word := (BitVec.ofNat 32 r.1, r.2)
  let int (f : Int → Int → Int) : Word × Word := (extendTy t (f (elem a t 0) (elem b t 0)), 0)
  let fa := v.src fp32 a.toNat
  let fb := v.src fp32 b.toNat
  match op with
  | .add => if t = .f32 then flt (fp32.add v fa fb) else (a + b, 0)
  | .min => if t = .f32 then flt (fp32.minmax v false fa fb) else int min
  | .max => if t = .f32 then flt (fp32.minmax v true fa fb) else int max
  | .and => (a &&& b, 0)
  | .or => (a ||| b, 0)
  | .xor => (a ^^^ b, 0)

/-- One level of the tree of R122 over positions that may be absent. -/
def treeLevel (f : Word → Word → Word × Word) : List (Option Word) → List (Option Word) × Word
  | x :: y :: r =>
    let (rest, fl) := treeLevel f r
    match x, y with
    | some p, some q => let z := f p q; (some z.1 :: rest, fl ||| z.2)
    | some p, none => (some p :: rest, fl)
    | none, y => (y :: rest, fl)
  | l => (l, 0)

/-- The root of the tree: 32 positions need five levels. -/
def treeFold (f : Word → Word → Word × Word) : Nat → List (Option Word) → Word → Option Word × Word
  | 0, l, fl => (l.headD none, fl)
  | n + 1, l, fl => let r := treeLevel f l; treeFold f n r.1 (fl ||| r.2)

/-- A left fold from the first element: the values after each element, and the flags. -/
def foldUp (f : Word → Word → Word × Word) : List Word → List Word × Word
  | [] => ([], 0)
  | x :: r =>
    let z := r.foldl (fun (st : List Word × Word × Word) y => let c := f st.2.1 y; (st.1 ++ [c.1], c.1, st.2.2 ||| c.2)) ([x], x, 0)
    (z.1, z.2.2)

/-- VRED over one tile (R122): the tree for f32 add, a fold otherwise. -/
def redTile (v : FEnv) (t : Ty) (op : RedOp) (z base : Nat) (q : List Nat) (x : Nat → Word) : Word × Word :=
  if t = .f32 && op = .add then
    let r := treeFold (combine v t op) 5 ((List.range z).map fun j => if q.contains (base + j) then some (x (base + j)) else none) 0
    (r.1.getD 0, r.2)
  else
    let r := foldUp (combine v t op) (q.map x)
    (r.1.getLastD 0, r.2)

/-- The results of a VRED in every lane of a mask, with the flags of every tile. -/
def redAll (v : FEnv) (t : Ty) (op : RedOp) (z : Nat) (m : Word) (x : Nat → Word) : (Nat → Word) × Word :=
  (fun l => (redTile v t op z (tileBase z l) (tileQ z m l) x).1,
   (lanesOf m).foldl (fun f l => f ||| (redTile v t op z (tileBase z l) (tileQ z m l) x).2) 0)

def execVred (h : Hdr) (t : Ty) (op : RedOp) (d a : VOp) (s : State) : Out :=
  onFrag s fun k w fr =>
    let q := sel s w fr h.g
    let r := redAll (fenv w .mode) t op (tileSize w) q fun l => opA s w a l
    let due := s.cycle + h.lat
    advance s k (((w.wrV d q r.1).mark (.vec (VOp.field d)) q due).raise r.2 due) fr 8

/-- The identities of R123. -/
def identity (t : Ty) (op : RedOp) : Word :=
  match op with
  | .min => if t = .f32 then 0x7F800000 else extendTy t (tyMax t)
  | .max => if t = .f32 then 0xFF800000 else extendTy t (tyMin t)
  | .and => 0xFFFFFFFF
  | _ => 0

/-- VSCAN in one lane: the fold over Q up to it, or before it, with the flags of the folds that some lane receives (R58, R123). -/
def scanLane (v : FEnv) (t : Ty) (op : RedOp) (excl : Bool) (q : List Nat) (x : Nat → Word) (l : Nat) : Word × Word :=
  let r := foldUp (combine v t op) ((if excl then q.dropLast else q).map x)
  let i := q.findIdx (· = l)
  (if excl then (if i = 0 then identity t op else r.1.getD (i - 1) 0) else r.1.getD i 0, r.2)

def execVscan (h : Hdr) (t : Ty) (op : RedOp) (excl : Bool) (d a : VOp) (s : State) : Out :=
  onFrag s fun k w fr =>
    let q := sel s w fr h.g
    let z := tileSize w
    let v := fenv w .mode
    let r (l : Nat) := scanLane v t op excl (tileQ z q l) (fun j => opA s w a j) l
    let due := s.cycle + h.lat
    let fl := (lanesOf q).foldl (fun f l => f ||| (r l).2) 0
    advance s k (((w.wrV d q fun l => (r l).1).mark (.vec (VOp.field d)) q due).raise fl due) fr 8

/-! ### The fused softmax sequence (R99, R100) -/

/-- A source of the fused sequence: the landed result of an earlier member where it names that member's destination, else
the register as it stood at the first word's issue. -/
def fusedSrc (s : State) (w : Wave) (slot : Nat) (done : List (VOp × (Nat → Word))) (m : Word) (x : VOp) (l : Nat) : Word :=
  match (done.reverse.find? fun p => p.1 = x) with
  | some p => if m.getLsbD l then p.2 l else rdV s w slot x l
  | none => rdV s w slot x l

/-- The four results are formed as the four words would give them over landed results. The issue takes the issue cycles of its four
words, and every destination is undefined up to 31 cycles after the fourth word's (R100, R102). -/
def execFusedSoftmax (f : FusedOps) (s : State) : Out :=
  onFrag s fun k w fr =>
    let m := sel s w fr f.g
    let z := tileSize w
    let v := fenv w .mode
    let r1 := redAll v .f32 .max z m fun l => opA s w f.a1 l
    let src1 := fusedSrc s w 1 [(f.d1, r1.1)] m
    let r2 (l : Nat) := fWise (fenv w f.rnd2) .f32 (fun g e x y _ => g.sub e x y) (src1 f.a2 l) (src1 f.d1 l) 0
    let r3 (l : Nat) := Sfu.exp.apply v (r2 l).1
    let r4 := redAll v .f32 .add z m fun l => (r3 l).1
    let fl := (lanesOf m).foldl (fun a l => a ||| (r2 l).2 ||| (r3 l).2) (r1.2 ||| r4.2)
    let last := s.cycle + 3 + Config.freeNat s.ctr 100
    let due := last + 31
    let w' := (((w.wrV f.d1 m r1.1).wrV f.d2 m fun l => (r2 l).1).wrV f.d3 m fun l => (r3 l).1).wrV f.d4 m r4.1
    let w' := [f.d1, f.d2, f.d3, f.d4].foldl (fun w d => w.mark (.vec (VOp.field d)) m due) w'
    advance { s with cycle := last } k (w'.raise fl due) fr 32

end Sys2Proof.Machine
end

