-- ==== Sys2Proof/Machine/Atomics.lean ====
section
/-! DEFINITION. Atomics and the homes' atomic queues (R210, R262 to R264), with the moves that summary merges (R302) and remote
reductions (R393) make there. -/

namespace Sys2Proof.Machine

/-! ### Queues -/

/-- The queue of the homes on other devices; a die's queue has the die's number. -/
def awayQueue : Nat := 4

/-- A request joins a home's queue (R210). -/
def State.joinAtom (s : State) (home : Nat) (r : AtomReq) : State :=
  { s with atomQ := kset [] s.atomQ home (kget [] s.atomQ home ++ [r]) }

/-- One of an entry's atomics has performed; with the last one the entry performs (R264). -/
def State.atomDone (s : State) (k id : Nat) : State :=
  match (kfind s.waves k).bind fun w => w.replay.find? fun e => e.id = id with
  | none => s
  | some e =>
    match e.kind with
    | .atomic (n + 2) =>
      s.modWave k fun w => { w with replay := w.replay.map fun x => if x.id = id then { x with kind := .atomic (n + 1) } else x }
    | _ => s.perform k id

/-! ### What an atomic computes (R263) -/

def AtomOp.red : AtomOp → Option RedOp
  | .add => some .add | .min => some .min | .max => some .max | .and => some .and | .or => some .or | .xor => some .xor
  | .xchg => none

/-- The new value: FP32 rounds to nearest with subnormals kept and canonical NaNs; no flag is set. -/
def atomNew (op : AtomOp) (t : Ty) (old d : Word) : Word :=
  match AtomOp.red op with
  | some r => (combine {} t r old d).1
  | none => d

/-! ### The instructions -/

/-- An atomic as its instruction describes it, apart from the lanes. -/
structure Atom where
  ctr : Ctr
  op : Nat
  mode : Nat
  len : Nat
  kind : Option AtomOp
  t : Ty
  sc : Scope
  lv : Bool
  dst : Option RegId
  deriving DecidableEq, Repr

/-- Writes an old value to a lane of its destination. -/
def Wave.putAtom (w : Wave) (dst : Option RegId) (lane : Nat) (v : Word) : Wave :=
  match dst with
  | some (.vec f) => { w with vreg := kset 0 w.vreg (vkey f lane) v }
  | some (.sca n) => w.wrS n v
  | _ => w

/-- Acceptance of VATOM, VCAS and SATOM (R140, R262 to R264): the lanes join their homes' queues in ascending order, lanes
without an access receive 0. -/
def atomAccept (s : State) (k : Nat) (w : Wave) (fr : Frag) (x : Atom) (b : Nat) (m : Word) (idx : Nat → Int) (d c : Nat → Word) : State :=
  let (s1, r) := acceptRec s w fr (rdRecord s w 2 b) (lanesOf m) idx 4 .atomic .atomic x.lv false refuseCells
  match r with
  | .error e => refuseAt s1 k w fr e
  | .ok a =>
    if !roomFor s1 w.core (heldLines a.lanes).length then s1
    else
      let id := w.nextEntry
      let w1 := match x.dst with
        | some g => a.nones.foldl (fun (w : Wave) l => w.putAtom x.dst l 0) ((w.noSkip fr).markUndef g m x.ctr fr.num)
        | none => w.noSkip fr
      let w2 := w1.accept fr x.ctr x.op x.mode (heldLines a.lanes) [] (.atomic a.lanes.length)
      let who := s1.writer k fr.num 1
      let s2 := a.lanes.foldl (fun s y =>
        s.joinAtom (homeDie y.key) (.lane k id y.lane x.kind x.t y.key (d y.lane) (c y.lane) x.sc w.core x.dst who)) s1
      let s3 := advance s2 k w2 fr x.len
      if a.lanes = [] then s3.perform k id else s3

/-- Offset, scope and RET of a ‡ atomic (R262). -/
def atomExt (ext : Option (Word × Scope × Bool)) : Option Word × Scope × Bool :=
  match ext with
  | some (o, sc, r) => (some o, sc, r)
  | none => (none, .device, false)

def execVatom (g : Guard) (op : AtomOp) (t : Ty) (d : VOp) (b : Nat) (a : VOp) (ext : Option (Word × Scope × Bool)) (s : State) : Out :=
  onFrag s fun k w fr =>
    let (off, sc, ret) := atomExt ext
    let x : Atom :=
      { ctr := if ret then .lc else .sc
        op := 0x230
        mode := t.code * 16 + AtomOp.code op
        len := lenOf off
        kind := some op
        t
        sc := s.resolve w sc
        lv := true
        dst := if ret then some (.vec (VOp.field d)) else none }
    atomAccept s k w fr x b (sel s w fr g) (fun l => elemIndex (rdV s w 1 a l) off) (fun l => rdV s w 0 d l) fun _ => 0

def execVcas (g : Guard) (t : Ty) (d : VOp) (b : Nat) (a c : VOp) (imm : Word) (sc : Scope) (s : State) : Out :=
  onFrag s fun k w fr =>
    let x : Atom :=
      { ctr := .lc
        op := 0x231
        mode := t.code * 16
        len := 16
        kind := none
        t
        sc := s.resolve w sc
        lv := true
        dst := some (.vec (VOp.field d)) }
    atomAccept s k w fr x b (sel s w fr g) (fun l => elemIndex (rdV s w 1 a l) (some imm)) (fun l => rdV s w 0 d l) fun l => rdV s w 3 c l

def execSatom (op : AtomOp) (t : Ty) (d b a : Nat) (ext : Option (Word × Scope × Bool)) (s : State) : Out :=
  onFrag s fun k w fr =>
    let (off, sc, ret) := atomExt ext
    let x : Atom :=
      { ctr := .kc
        op := 0x232
        mode := t.code * 16 + AtomOp.code op
        len := lenOf off
        kind := some op
        t
        sc := s.resolve w sc
        lv := false
        dst := if ret then some (.sca d) else none }
    atomAccept s k w fr x b 1 (fun _ => elemIndex (rdS s w 1 a) off) (fun _ => rdS s w 0 d) fun _ => 0

/-! ### The moves at a home (R210, R302, R393) -/

/-- A word of H. -/
def State.word (s : State) (key : Nat) : Word := BitVec.ofNat 32 (ofBytes (s.rdHs key 4))

/-- The bytes of a value at an address. -/
def bytesAt (a x n : Nat) : List (Nat × Byte) := (toBytes x n).zipIdx.map fun p => (a + p.2, p.1)

/-- A lane's atomic performs in one move: it reads H, writes at its scope, and gives its old value (R210, R263). -/
def State.atomLane (s : State) (k id lane : Nat) (op : Option AtomOp) (t : Ty) (a : Nat) (d c : Word) (sc : Scope) (core : Nat)
    (dst : Option RegId) (who : Writer) : State :=
  let old := s.word a
  let new := match op with
    | some o => atomNew o t old d
    | none => if old = c then d else old
  let s1 := s.moveCore who core sc (bytesAt a new.toNat 4)
  (s1.modWave k fun w => if w.replay.any fun e => e.id = id then w.putAtom dst lane old else w).atomDone k id

/-- A summary merge performs: the target changes unless R302 refuses it, and NV is set as XC falls. -/
def State.atomMerge (s : State) (k id : Nat) (src : SumBuf) (a : Nat) (sc : Scope) (core : Nat) (det : Bool) (who : Writer) : State :=
  let t := Sketch.decode det (s.rdHs a 4096)
  let u := Sketch.decode det src.image
  match t, u with
  | some x, some y =>
    if x.kind = y.kind then
      let z := (x.merge (fun i => Config.freeBool s.ctr (6000 + i)) y).encode
      (s.moveCore who core sc (z.zipIdx.map fun p => (a + p.2, p.1))).atomDone k id
    else (s.modWave k fun w => w.raiseNow fNV).atomDone k id
  | _, _ => (s.modWave k fun w => w.raiseNow fNV).atomDone k id

/-- A remote reduction performs at its target: H and the views around its home, or another device's bytes (R393); under an old
generation it is dropped there without an answer (R388). -/
def State.atomReduce (s : State) (wv : Option (Nat × Nat)) (home : Home) (op : AtomOp) (t : Ty) (a : Nat) (v : Word) (sys : Bool)
    (who : Writer) : State :=
  if !s.reaches home then s
  else
    let sc : Scope := if sys then .system else .device
    let s1 := match home with
      | .rank g _ r =>
        let m := kget [] s.peers (peerKey g r)
        let old : Word := BitVec.ofNat 32 (ofBytes ((List.range 4).map fun i => kget unlisted m (a + i)))
        { s with peers := kinsert s.peers (peerKey g r) (Memory.writes m (bytesAt a (atomNew op t old v).toNat 4)) }
      | _ =>
        let bs := bytesAt a (atomNew op t (s.word a) v).toNat 4
        (s.move who bs (viewsRed sc)).noteAtom sc bs
    match wv with
    | some (k, id) => s1.atomDone k id
    | none => s1

/-- Whether earlier accesses of the issuing fragment to the same bytes hold back a request (R143). -/
def atomHeld (s : State) (k id : Nat) (sp : Space) (a n : Nat) : Bool :=
  match kfind s.waves k with
  | none => false
  | some w =>
    match w.replay.find? fun e => e.id = id with
    | none => false
    | some e => heldBack s k w e.frag id false [(sp, a, n)]

def AtomReq.held (s : State) : AtomReq → Bool
  | .lane k id _ _ _ a _ _ _ _ _ _ => atomHeld s k id .global a 4
  | .merge k id _ a _ _ _ _ => atomHeld s k id .global a 4096
  | .reduce (some (k, id)) home _ _ a _ _ _ => atomHeld s k id home.space a 4
  | .reduce none _ _ _ _ _ _ _ => false
  | .fold _ _ _ => false

/-! ### Collective calls (R395 to R397) -/

/-- The signature of a plan (R396). -/
def planSig (plan : List (List Nat)) : DWord :=
  BitVec.ofNat 64 (plan.zipIdx.foldl (fun z q => q.1.foldl (fun z p => mix64 (z ^^^ (q.2 * 4096) ^^^ p)) z) plan.length)

/-- Changes a call of a group. -/
def State.modCall (s : State) (gid call : Nat) (f : CollCall → CollCall) : State :=
  let g : Group := kget {} s.groups gid
  { s with groups := kinsert s.groups gid { g with calls := kinsert g.calls call (f (kget {} g.calls call)) } }

/-- The elements of this device's region that a call targets, ascending. -/
def CollCall.elems (c : CollCall) : List Nat := kkeys (c.contribs.foldl (fun m x => kinsert m x.elem ()) ([] : KMap Unit))

/-- Whether every rank of a group of `n` has made a call and every contribution to this device's region has arrived. -/
def CollCall.arrived (c : CollCall) (n : Nat) : Bool :=
  (List.range n).all fun r => kfind c.made r = some (c.contribs.filter fun x => x.rank = r).length

/-- The fragment that has made a call goes on with its signature; one that is on no core, when it is restored. -/
def State.signCall (s : State) (gid call : Nat) (z : DWord) : State :=
  let mine (f : Frag) : Bool := f.phase = .called gid call
  let there := s.waves.flatMap fun p => (p.2.frags.filter mine).map fun f => (p.1, f.num)
  there.foldl (fun s p =>
    let s1 := s.modWave p.1 fun w => w.modFrag p.2 fun f => { f with phase := .signed z }
    match kfind s1.waves p.1 with
    | some w => if w.resident then s1.ready p.1 p.2 else s1
    | none => s1) s

/-- Completes a call when every rank has made it and every fold is written (R395, R396). -/
def State.collCheck (s : State) (gid call : Nat) : State :=
  let g : Group := kget {} s.groups gid
  let c : CollCall := kget {} g.calls call
  if g.live && c.queued && c.elems.all c.folded.contains && c.remoteDone then
    { s with groups := kinsert s.groups gid { g with calls := kerase g.calls call } }.signCall gid call (planSig g.plan)
  else s

/-- Once every contribution of a call has arrived, the folds of its elements join the queues of their homes (R397). -/
def State.collQueue (s : State) (gid call : Nat) : State :=
  let g : Group := kget {} s.groups gid
  let c : CollCall := kget {} g.calls call
  if c.queued || !c.arrived g.ranks.length then s
  else
    let s1 := s.modCall gid call fun c => { c with queued := true }
    let s2 := c.elems.foldl (fun s e =>
      match s.regionKey gid g.rank (4 * e) with
      | some x => s.joinAtom (homeDie x) (.fold gid call e)
      | none => s) s1
    s2.collCheck gid call

/-- The contributions to an element in plan order. -/
def CollCall.inOrder (c : CollCall) (order : List Nat) (e : Nat) : List Contrib :=
  order.flatMap fun r => (List.range 32).flatMap fun l => c.contribs.filter fun x => x.rank = r && x.lane = l && x.elem = e

/-- The fold of an element: one move at its home (R397); nothing once its group has been freed. -/
def State.foldElem (s : State) (gid call e : Nat) : State :=
  let g : Group := kget {} s.groups gid
  let c : CollCall := kget {} g.calls call
  match if (kfind g.calls call).isSome then s.regionKey gid g.rank (4 * e) else none with
  | none => s
  | some x =>
    let l := c.inOrder (g.plan.getD g.rank []) e
    let v := l.foldl (fun t y => atomNew y.op y.t t y.v) (s.word x)
    let s1 := s.move { src := 4, gid } (bytesAt x v.toNat 4) (viewsRed (if l.any (·.sys) then .system else .device))
    (s1.modCall gid call fun c => { c with folded := c.folded ++ [e] }).collCheck gid call

/-- Performs a request. -/
def State.performAtom (s : State) : AtomReq → State
  | .lane k id lane op t a d c sc core dst who => s.atomLane k id lane op t a d c sc core dst who
  | .merge k id src a sc core det who => s.atomMerge k id src a sc core det who
  | .reduce wv home op t a v sys who => s.atomReduce wv home op t a v sys who
  | .fold gid call e => s.foldElem gid call e

/-- The head of a home's queue performs. -/
def execAtomicPerform (die : Nat) (s : State) : Out :=
  machineMove s (
    match kget [] s.atomQ die with
    | [] => s
    | r :: rest => if r.held s then s else { s with atomQ := kset [] s.atomQ die rest }.performAtom r)

end Sys2Proof.Machine
end

