-- ==== Sys2Proof/Machine/Crypto.lean ====
section
/-! DEFINITION. The functions that R371, R374 and R375 name by their standards: SHA3-256 and SHAKE (FIPS 202), and the verification of an
ML-DSA-44 signature (FIPS 204), as those standards give them (log entry 81). -/

namespace Sys2Proof.Machine

/-! ### Keccak (FIPS 202) -/

/-- A step of the shift register of rc: the bit that leaves it at the top returns at bits 0, 4, 5 and 6. -/
def rcStep (r : Nat) : Nat := if bit (2 * r) 8 then (2 * r) ^^^ 0x171 else 2 * r

/-- The constants of `n` rounds: in each, the next seven output bits of the register stand at bits 2^j − 1. -/
def iotaWords : Nat → Nat → List DWord
  | 0, _ => []
  | n + 1, r =>
    let (v, r') := (List.range 7).foldl (fun (p : Nat × Nat) j => (p.1 + if bit p.2 0 then 2 ^ (2 ^ j - 1) else 0, rcStep p.2)) (0, r)
    BitVec.ofNat 64 v :: iotaWords n r'

/-- The rotation of lane x + 5y: the walk from lane (1, 0), by (x, y) to (y, 2x + 3y), meets at its step `t` a lane that turns by the
sum of the numbers up to t + 1; lane (0, 0) stands still. -/
def rhoTurns : List Nat :=
  ((List.range 24).foldl (fun (p : Nat × Nat × List Nat) t =>
    (p.2.1, (2 * p.1 + 3 * p.2.1) % 5, p.2.2.set (p.1 + 5 * p.2.1) ((t + 1) * (t + 2) / 2 % 64))) (1, 0, List.replicate 25 0)).2.2

/-- Lane (x, y) of a state of 25 lanes. -/
def laneAt (a : List DWord) (x y : Nat) : DWord := a.getD (x % 5 + 5 * (y % 5)) 0

/-- A state by its lanes. -/
def ofLanes (f : Nat → Nat → DWord) : List DWord := (List.range 25).map fun i => f (i % 5) (i / 5)

/-- One round. -/
def keccakRound (a : List DWord) (rc : DWord) : List DWord :=
  let c := (List.range 5).map fun x => (List.range 5).foldl (fun v y => v ^^^ laneAt a x y) 0
  let t := ofLanes fun x y => laneAt a x y ^^^ c.getD ((x + 4) % 5) 0 ^^^ (c.getD ((x + 1) % 5) 0).rotateLeft 1
  let p := ofLanes fun x y => (laneAt t (x + 3 * y) x).rotateLeft (rhoTurns.getD ((x + 3 * y) % 5 + 5 * x) 0)
  let n := ofLanes fun x y => laneAt p x y ^^^ (~~~laneAt p (x + 1) y &&& laneAt p (x + 2) y)
  (n.headD 0 ^^^ rc) :: n.tail

def keccak (a : List DWord) : List DWord := (iotaWords 24 1).foldl keccakRound a

/-- Adds a block of bytes to the beginning of a state. -/
def addBlock (a : List DWord) (b : List Byte) : List DWord :=
  a.zipIdx.map fun p => p.1 ^^^ BitVec.ofNat 64 (ofBytes ((b.drop (8 * p.2)).take 8))

/-- The bytes of a state. -/
def lanesBytes (a : List DWord) : List Byte := a.flatMap fun x => toBytes x.toNat 8

/-- Absorbs whole blocks of `rate` bytes. -/
def absorb (rate : Nat) : Nat → List Byte → List DWord → List DWord
  | 0, _, a => a
  | n + 1, l, a => absorb rate n (l.drop rate) (keccak (addBlock a (l.take rate)))

/-- Squeezes blocks of `rate` bytes. -/
def squeeze (rate : Nat) : Nat → List DWord → List Byte
  | 0, _ => []
  | n + 1, a => (lanesBytes a).take rate ++ squeeze rate n (keccak a)

/-- The sponge: `n` bytes of output for a message, with the domain byte and the padding. -/
def sponge (rate dom : Nat) (msg : List Byte) (n : Nat) : List Byte :=
  let k := msg.length / rate + 1
  let pad := k * rate - msg.length
  let tail := (List.range pad).map fun i => BitVec.ofNat 8 ((if i = 0 then dom else 0) + if i + 1 = pad then 0x80 else 0)
  (squeeze rate ((n + rate - 1) / rate) (absorb rate k (msg ++ tail) (List.replicate 25 0))).take n

def sha3 (msg : List Byte) : List Byte := sponge 136 0x06 msg 32
def shake128 (msg : List Byte) (n : Nat) : List Byte := sponge 168 0x1F msg n
def shake256 (msg : List Byte) (n : Nat) : List Byte := sponge 136 0x1F msg n

/-! ### ML-DSA-44 (FIPS 204) -/

/-- The modulus; a polynomial is the list of its 256 coefficients below it. -/
def dsaQ : Nat := 8380417
abbrev Poly := List Nat

def polyAdd (a b : Poly) : Poly := (a.zip b).map fun p => (p.1 + p.2) % dsaQ
def polySub (a b : Poly) : Poly := (a.zip b).map fun p => (p.1 + dsaQ - p.2) % dsaQ
def polyMul (a b : Poly) : Poly := (a.zip b).map fun p => p.1 * p.2 % dsaQ
def polySum (l : List Poly) : Poly := l.foldl polyAdd (List.replicate 256 0)

/-- The value of a polynomial at a point. -/
def polyAt (a : Poly) (x : Nat) : Nat := a.foldr (fun c v => (c + x * v) % dsaQ) 0

/-- A power of the 512th root of unity 1753. -/
def zetaPow (e : Nat) : Nat := 1753 ^ (e % 512) % dsaQ

/-- The eight bits of a number in reverse order. -/
def bitRev8 (i : Nat) : Nat := (List.range 8).foldl (fun v k => v + if bit i k then 2 ^ (7 - k) else 0) 0

/-- The number-theoretic transform, and its inverse. -/
def ntt (a : Poly) : Poly := (List.range 256).map fun i => polyAt a (zetaPow (2 * bitRev8 i + 1))
def invNtt (a : Poly) : Poly :=
  let v := (List.range 256).map fun m => a.getD (bitRev8 m) 0
  (List.range 256).map fun j => 8347681 * (zetaPow (512 - j) * polyAt v (zetaPow (1024 - 2 * j))) % dsaQ

/-- `n` numbers of `w` bits each from a string of bytes. -/
def unpackBits (w n : Nat) (l : List Byte) : List Nat :=
  let x := ofBytes l
  (List.range n).map fun i => x / 2 ^ (w * i) % 2 ^ w

/-- The first 256 accepted coefficients of a stream of bytes. -/
def rejNtt (l : List Byte) : Poly :=
  ((List.range (l.length / 3)).map fun i =>
    (l.getD (3 * i) 0).toNat + 256 * (l.getD (3 * i + 1) 0).toNat + 65536 * ((l.getD (3 * i + 2) 0).toNat % 128)).filter (· < dsaQ) |>.take 256

/-- Entry (r, s) of the matrix of a seed. -/
def expandA (rho : List Byte) (r s : Nat) : Poly := rejNtt (shake128 (rho ++ toBytes s 1 ++ toBytes r 1) 1344)

/-- The challenge's coefficients from index `i` on; `signs` holds the sign bits that are left. -/
def inBall : List Nat → Nat → List Byte → Poly → Poly
  | [], _, _, c => c
  | _ :: _, _, [], c => c
  | i :: is, signs, j :: js, c =>
    if i < j.toNat then inBall (i :: is) signs js c
    else inBall is (signs / 2) js ((c.set i (c.getD j.toNat 0)).set j.toNat (if signs % 2 = 1 then dsaQ - 1 else 1))
  termination_by structural _ _ js => js

/-- The challenge of a commitment hash: 39 coefficients ±1. -/
def sampleInBall (seed : List Byte) : Poly :=
  let s := shake256 seed 544
  inBall ((List.range 39).map (217 + ·)) (ofBytes (s.take 8)) (s.drop 8) (List.replicate 256 0)

/-- The hints of four polynomials: the indices that are set, or none where the encoding is malformed. -/
def unpackHints (y : List Byte) : Option (List (List Nat)) :=
  let n (i : Nat) : Nat := (y.getD (80 + i) 0).toNat
  let first (i : Nat) : Nat := if i = 0 then 0 else n (i - 1)
  let idx (i : Nat) : List Nat := ((y.take (n i)).drop (first i)).map (·.toNat)
  let rising (l : List Nat) : Bool := (l.zip l.tail).all fun p => p.1 < p.2
  if ((List.range 4).all fun i => first i ≤ n i && n i ≤ 80 && rising (idx i)) && ((y.take 80).drop (n 3)).all (· = 0) then
    some ((List.range 4).map idx)
  else none

/-- The high part of a coefficient, adjusted by its hint. -/
def useHint (h : Bool) (r : Nat) : Nat :=
  let m := 2 * 95232
  let r0 : Int := if r % m ≤ 95232 then r % m else (r % m : Int) - m
  let top : Bool := (r : Int) - r0 = dsaQ - 1
  let r1 := if top then 0 else ((r : Int) - r0).toNat / m
  let low := if top then r0 - 1 else r0
  if !h then r1 else if 0 < low then (r1 + 1) % 44 else (r1 + 43) % 44

/-- Numbers of 6 bits as bytes. -/
def pack6 (l : List Nat) : List Byte := toBytes (l.zipIdx.foldl (fun v p => v + p.1 * 2 ^ (6 * p.2)) 0) 192

/-- Whether a signature verifies for a message, with an empty context. -/
def mldsaVerify (pk msg sig : List Byte) : Bool :=
  let rho := pk.take 32
  let t1 := (List.range 4).map fun i => unpackBits 10 256 ((pk.drop (32 + 320 * i)).take 320)
  let seed := sig.take 32
  let zs := (List.range 4).map fun i => (unpackBits 18 256 ((sig.drop (32 + 576 * i)).take 576)).map fun x => (131072 : Int) - x
  match unpackHints (sig.drop 2336) with
  | none => false
  | some hs =>
    let mu := shake256 (shake256 pk 64 ++ [0, 0] ++ msg) 64
    let c := ntt (sampleInBall seed)
    let z := zs.map fun p => ntt (p.map fun x => (x % (dsaQ : Int)).toNat)
    let w (r : Nat) : Poly :=
      let az := polySum (z.zipIdx.map fun p => polyMul (expandA rho r p.2) p.1)
      invNtt (polySub az (polyMul c (ntt ((t1.getD r []).map fun x => x * 8192 % dsaQ))))
    let w1 (r : Nat) : List Byte := pack6 ((w r).zipIdx.map fun p => useHint ((hs.getD r []).contains p.2) p.1)
    pk.length = 1312 && sig.length = 2420 && (zs.all fun p => p.all fun x => x.natAbs < 131072 - 78) &&
      seed = shake256 (mu ++ (List.range 4).flatMap w1) 32

end Sys2Proof.Machine
end

