-- ==== Sys2Proof/Machine/Canon.lean ====
section
/-! DEFINITION. Canonical elements (R70, R71), format registers with narrow floats and block scales (R67 to R69), and operand
slots (R163, R177), apart from any machine. -/

namespace Sys2Proof.Machine

/-! ### Canonical elements -/

def ceS (x : Word) : Bool := x.getLsbD 31
def ceCls (x : Word) : Nat := bits x.toNat 30 29
def ceExp (x : Word) : Int := signed (bits x.toNat 28 16) 13
def ceSig (x : Word) : Nat := bits x.toNat 15 0

/-- A canonical element by its fields (R70). -/
def cePack (s : Bool) (cls : Nat) (e : Int) (sig : Nat) : Word :=
  BitVec.ofNat 32 (sbit s * 2 ^ 31 + cls * 2 ^ 29 + wrap e 13 * 2 ^ 16 + sig)

/-- Its value. -/
def ceVal (x : Word) : FVal :=
  match ceCls x with
  | 0 => .fin (ceS x) 0 0
  | 1 => .fin (ceS x) (ceSig x) (ceExp x - 15)
  | 2 => .inf (ceS x)
  | _ => .nan (ceS x) 1 1

/-- ± m × 2^e rounded to a 16-bit significand (R71, R178), with OF, UF and NX. -/
def ceRound (rm : Nat) (s : Bool) (m : Nat) (e : Int) : Word × Word :=
  if m = 0 then (cePack s 0 0 0, 0)
  else
    let u : Int := e + Nat.log2 m - 15
    let r := roundAt rm s m e u false
    let (sig, ex) := if r.1 = 2 ^ 16 then (2 ^ 15, u + 16) else (r.1, u + 15)
    if 4095 < ex then (cePack s 2 0 0, fOF ||| fNX)
    else if ex < -4096 then (cePack s 0 0 0, fUF ||| fNX)
    else (cePack s 1 ex sig, flagIf r.2 fNX)

/-- The canonical element of a value; a NaN keeps its sign only (R71). -/
def ceOf (rm : Nat) (x : FVal) : Word × Word :=
  match x with
  | .nan s _ _ => (cePack s 3 0 0, 0)
  | .inf s => (cePack s 2 0 0, 0)
  | .fin s m e => ceRound rm s m e

/-! ### Format registers (R67 to R69) -/

/-- A format register's fields. -/
structure FmtReg where
  kind : Nat
  s : Bool
  ew : Nat
  mw : Nat
  bias : Int
  spec : Nat
  sub : Bool
  bsz : Nat
  bsf : Bool
  sew : Nat
  deriving DecidableEq, Repr

def FmtReg.of (x : Word) : FmtReg :=
  let n := x.toNat
  { kind := bits n 2 0
    s := bit n 3
    ew := bits n 6 4
    mw := bits n 9 7
    bias := signed (bits n 17 10) 8
    spec := bits n 19 18
    sub := bit n 20
    bsz := bits n 22 21
    bsf := bit n 23
    sew := bits n 26 24 }

/-- The position of the lowest refused field of a format register (R67). -/
def badFormat (x : Word) : Option Nat :=
  let f := FmtReg.of x
  let nf := f.kind = 0
  if 4 < f.kind then some 0
  else if !nf && f.s then some 3
  else if (if nf then f.ew = 0 else f.ew ≠ 0) then some 4
  else if (if nf then 6 < f.mw || 8 < sbit f.s + f.ew + f.mw else f.mw ≠ 0) then some 7
  else if !nf && f.bias ≠ 0 then some 10
  else if f.spec = 3 || (!nf && f.spec ≠ 0) then some 18
  else if !nf && f.sub then some 20
  else if f.bsf && f.bsz = 0 then some 23
  else if (if f.bsf then f.sew = 0 else f.sew ≠ 0) then some 24
  else if bits x.toNat 31 27 ≠ 0 then some 27
  else none

/-- Width of a container in bits: 4, 8 or 16 (R68). -/
def FmtReg.container (f : FmtReg) : Nat :=
  match f.kind with
  | 0 => if sbit f.s + f.ew + f.mw ≤ 4 then 4 else 8
  | 1 => 8
  | 2 => 4
  | _ => 16

/-- Elements in a block, when there are scales (R67). -/
def FmtReg.block (f : FmtReg) : Nat := if f.bsz = 0 then 64 else 8 * 2 ^ f.bsz

/-- A narrow float's value by its parameters (R68). -/
def narrowVal (s : Bool) (ew mw : Nat) (bias : Int) (spec : Nat) (sub : Bool) (e f : Nat) : FVal :=
  if spec = 1 && e = 2 ^ ew - 1 then (if f = 0 then .inf s else .nan s 1 1)
  else if spec = 2 && e = 2 ^ ew - 1 && f = 2 ^ mw - 1 then .nan s 1 1
  else if e = 0 then .fin s (if sub then f else 0) (1 - bias - mw)
  else .fin s (2 ^ mw + f) ((e : Int) - bias - mw)

/-- An integer as an exact value. -/
def intFVal (x : Int) : FVal := .fin (x < 0) x.natAbs 0

/-- A stored element's value (R62, R66, R68). -/
def FmtReg.value (f : FmtReg) (x : Nat) : FVal :=
  match f.kind with
  | 0 => narrowVal (f.s && bit x (f.ew + f.mw)) f.ew f.mw f.bias f.spec f.sub (bits x (f.ew + f.mw - 1) f.mw) (x % 2 ^ f.mw)
  | 1 => intFVal (signed x 8)
  | 2 => intFVal (signed x 4)
  | 3 => fp16.read false (x % 2 ^ 16)
  | _ => bf16.read false (x % 2 ^ 16)

/-- A block scale's value (R69). -/
def FmtReg.scale (f : FmtReg) (b : Nat) : FVal :=
  if f.bsf then
    let mw := 8 - f.sew
    narrowVal false f.sew mw (2 ^ (f.sew - 1) - 1 : Nat) 2 true (b >>> mw) (b % 2 ^ mw)
  else if b = 255 then .nan false 1 1
  else .fin false 1 ((b : Int) - 127)

/-- Element times scale, exactly (R69). A NaN that a NaN scale or infinity times a zero scale makes has the element's sign: the
model's choice (log entry 73). -/
def scaleVal (x y : FVal) : FVal :=
  match x, y with
  | .nan s _ _, _ => .nan s 1 1
  | x, .nan _ _ _ => .nan x.sign 1 1
  | x, y => (mulVal x y).getD (.nan x.sign 1 1)

/-- Expansion of a stored element with its scale, if its format has scales (R71): NX in the one rounded combination. -/
def FmtReg.expand (f : FmtReg) (x : Nat) (sc : Option Nat) : Word × Word :=
  match sc with
  | none => ceOf 1 (f.value x)
  | some b => ceOf 1 (scaleVal (f.value x) (f.scale b))

/-! ### Narrowing (R168) -/

/-- The exponent and fraction fields of the largest finite value of a narrow float; without subnormals exponent field 0 is zero (R68). -/
def narrowTop (ew mw spec : Nat) (sub : Bool) : Nat × Nat :=
  let t : Nat × Nat :=
    if spec = 1 then (2 ^ ew - 2, 2 ^ mw - 1)
    else if spec = 2 then (if mw = 0 then (2 ^ ew - 2, 0) else (2 ^ ew - 1, 2 ^ mw - 2))
    else (2 ^ ew - 1, 2 ^ mw - 1)
  if t.1 = 0 && !sub then (0, 0) else t

/-- The parameters of a floating format as a narrow float: S, EW, MW, BIAS, SPEC. -/
def FmtReg.float (f : FmtReg) : Bool × Nat × Nat × Int × Nat :=
  match f.kind with
  | 3 => (true, 5, 10, 15, 1)
  | 4 => (true, 8, 7, 127, 1)
  | _ => (f.s, f.ew, f.mw, f.bias, f.spec)

/-- floor(log2) of the format's largest finite value (R168); none for a format whose largest finite value is zero. -/
def FmtReg.topExp (f : FmtReg) : Option Int :=
  match f.kind with
  | 1 => some 6
  | 2 => some 2
  | _ =>
    let (_, ew, mw, bias, spec) := f.float
    let (e, m) := narrowTop ew mw spec f.sub
    if e ≠ 0 then some ((e : Int) - bias) else if m = 0 then none else some (1 - bias - mw + (Nat.log2 m : Int))

/-- A finite magnitude rounded to a floating format (R65, R168): its encoding without the sign, and the flags. -/
def narrowRound (ew mw : Nat) (bias : Int) (spec : Nat) (sub : Bool) (rm : Nat) (s : Bool) (m : Nat) (e : Int) : Nat × Word :=
  let top : Int := e + Nat.log2 m
  let free := roundAt rm s m e (top - mw) false
  let top' : Int := if 2 ^ (mw + 1) ≤ free.1 then top + 1 else top
  let tiny : Bool := top' < 1 - bias
  if tiny && !sub then (0, fUF ||| fNX)
  else
    let u : Int := max (top - mw) (1 - bias - mw)
    let r := roundAt rm s m e u false
    let carry : Bool := 2 ^ (mw + 1) ≤ r.1
    let ex : Int := u + mw + bias + (if carry then 1 else 0)
    let enc : Nat := if r.1 < 2 ^ mw then r.1 else ex.toNat * 2 ^ mw + (if carry then 0 else r.1 - 2 ^ mw)
    let (te, tm) := narrowTop ew mw spec sub
    let big := te * 2 ^ mw + tm
    if big < enc then (if spec = 1 && overInf rm s then (2 ^ ew - 1) * 2 ^ mw else big, fOF ||| fNX)
    else (enc, flagIf r.2 fNX ||| flagIf (tiny && r.2) fUF)

/-- An element narrowed to a floating format after division by 2^`sc` (R168). -/
def FmtReg.narrow (f : FmtReg) (rm : Nat) (sc : Int) (x : Word) : Nat × Word :=
  let (hasS, ew, mw, bias, spec) := f.float
  let sg (s : Bool) : Nat := if hasS && s then 2 ^ (ew + mw) else 0
  let (te, tm) := narrowTop ew mw spec f.sub
  match ceVal x with
  | .nan _ _ _ =>
    if f.kind = 3 then (fp16.qnan, 0) else if f.kind = 4 then (bf16.qnan, 0)
    else if spec = 0 then (0, fNV) else (2 ^ (ew + mw) - 1, 0)
  | .inf s =>
    if s && !hasS then (0, fNV)
    else if spec = 1 then (sg s + (2 ^ ew - 1) * 2 ^ mw, 0)
    else (sg s + te * 2 ^ mw + tm, fOF)
  | .fin s m e =>
    if m = 0 then (sg s, 0)
    else if s && !hasS then (0, fNX)
    else
      let r := narrowRound ew mw bias spec f.sub rm s m (e - sc)
      (sg s + r.1, r.2)

/-- An element narrowed to INT8 or INT4 after division by 2^`sc` (R168). -/
def narrowInt (w rm : Nat) (sc : Int) (x : Word) : Nat × Word :=
  let lo : Int := -(2 ^ (w - 1) : Nat)
  let hi : Int := (2 ^ (w - 1) : Nat) - 1
  match ceVal x with
  | .nan _ _ _ => (0, fNV)
  | .inf s => (wrap (if s then lo else hi) w, fNV)
  | .fin s m e =>
    let r := roundAt rm s m (e - sc) 0 false
    let v : Int := if s then -(r.1 : Int) else r.1
    if v < lo then (wrap lo w, fSAT) else if hi < v then (wrap hi w, fSAT) else (wrap v w, flagIf r.2 fNX)

/-- An element as CPOUT writes it (R168). -/
def FmtReg.write (f : FmtReg) (rm : Nat) (sc : Int) (x : Word) : Nat × Word :=
  match f.kind with
  | 1 => narrowInt 8 rm sc x
  | 2 => narrowInt 4 rm sc x
  | _ => f.narrow rm sc x

/-- The scale byte of a block (R168): by the largest finite magnitude, whose exponent the elements' EXP gives. `open_` is the byte where the
format's largest finite value is zero, for which the rule gives no logarithm (log entry 87). -/
def FmtReg.scaleByte (f : FmtReg) (open_ : Nat) (l : List Word) : Nat :=
  match (l.filter fun x => ceCls x = 1).map ceExp, f.topExp with
  | [], _ => 127
  | e :: r, some t => (min (max (r.foldl max e - t + 127) 0) 254).toNat
  | _ :: _, none => open_ % 255

/-! ### Slots (R163, R177) -/

def Slot.at (x : Slot) (i j : Nat) : Word := kget 0 x.elems (64 * i + j)
def Slot.rowMax (x : Slot) (i : Nat) : Int := kget (-4096) x.rmax i
def Slot.colMax (x : Slot) (j : Nat) : Int := kget (-4096) x.cmax j

/-- A slot's contents: elements listed by number, with the side table computed over them. -/
def slotData (l : KMap Word) : KMap Word × KMap Int × KMap Int :=
  let e := l.filter fun p => p.2 ≠ 0
  let up (m : KMap Int) (k : Nat) (x : Word) : KMap Int := kset (-4096) m k (max (kget (-4096) m k) (ceExp x))
  let fin := e.filter fun p => ceCls p.2 = 1
  (e, fin.foldl (fun m p => up m (p.1 / 64) p.2) [], fin.foldl (fun m p => up m (p.1 % 64) p.2) [])

/-- Fills a slot; who holds it stays. -/
def Slot.fill (x : Slot) (l : KMap Word) (narrow : Bool) : Slot :=
  let (e, r, c) := slotData l
  { x with elems := e, rmax := r, cmax := c, narrow }

/-- Every element +0, every maximum −4096, the tag narrow (R164). -/
def Slot.clear (x : Slot) : Slot := { x with elems := [], rmax := [], cmax := [], narrow := true }

/-- TRN's result in slot `d` (R177). -/
def Slot.transposeOf (d a : Slot) : Slot :=
  { d with
    elems := (List.range 4096).filterMap fun k => let x := a.at (k % 64) (k / 64); if x = 0 then none else some (k, x)
    rmax := a.cmax
    cmax := a.rmax
    narrow := a.narrow }

end Sys2Proof.Machine
end

