-- ==== Sys2Proof/Machine/Accum.lean ====
section
/-! DEFINITION. The numerics profiles (R183) and what the engines compute on accumulator banks (R171 to R180, R192), apart
from any machine. Every operation answers the bank and the flags that it raises. -/

namespace Sys2Proof.Machine

/-! ### Profiles -/

/-- A profile's columns (R183); rounding by the codes of R23. -/
structure Profile where
  margin : Nat := 2
  floor : Bool := true
  tau : Nat := 0
  anorm : Nat := 1
  acvt : Nat := 1
  resc : Nat := 1
  deriving DecidableEq, Repr

def profileOf (np : Nat) : Profile :=
  match np with
  | 2 => { acvt := 2 }
  | 3 => { floor := false, anorm := 2, acvt := 2, resc := 2 }
  | 4 => { margin := 3 }
  | 5 => { tau := 8 }
  | 6 => { anorm := 5, acvt := 5, resc := 5 }
  | _ => {}

/-- Trunc of ± m × 2^e in units of 2^u (R173, R183). -/
def Profile.trunc (p : Profile) (s : Bool) (m : Nat) (e u : Int) : Int :=
  let q := (roundAt (if p.floor then 4 else 2) s m e u false).1
  if s then -(q : Int) else q

/-- x / 2^sh rounded by a mode, and whether that changed it; a left shift is exact (R175). -/
def rndShift (rm : Nat) (x : Int) (sh : Int) : Int × Bool :=
  let r := roundAt rm (x < 0) x.natAbs 0 sh false
  (if x < 0 then -(r.1 : Int) else r.1, r.2)

/-! ### Banks (R171) -/

def eMin : Int := -32768
def eMax : Int := 32767
def minusInf : Word := 0xFF800000
def nanWord : Word := 0x7FC00000

def Bank.M (b : Bank) (i j : Nat) : Int := kget 0 b.m (64 * i + j)
def Bank.tag (b : Bank) (i j : Nat) : Nat := kget 0 b.tags (64 * i + j)
def Bank.E (b : Bank) (i : Nat) : Int := kget eMin b.e i
def Bank.maxOf (b : Bank) (i : Nat) : Word := kget minusInf b.rowmax i
def Bank.sumOf (b : Bank) (i : Nat) : Word := kget 0 b.rowsum i

def Bank.setM (b : Bank) (i j : Nat) (x : Int) : Bank := { b with m := kset 0 b.m (64 * i + j) x }
def Bank.setTag (b : Bank) (i j t : Nat) : Bank := { b with tags := kset 0 b.tags (64 * i + j) t }
def Bank.setE (b : Bank) (i : Nat) (x : Int) : Bank := { b with e := kset eMin b.e i x }
def Bank.setMax (b : Bank) (i : Nat) (x : Word) : Bank := { b with rowmax := kset minusInf b.rowmax i x }
def Bank.setSum (b : Bank) (i : Nat) (x : Word) : Bank := { b with rowsum := kset 0 b.rowsum i x }

/-- Changes every M of a row. -/
def Bank.mapRow (b : Bank) (i : Nat) (f : Nat → Int → Int) : Bank :=
  (List.range 64).foldl (fun b j => b.setM i j (f j (b.M i j))) b

/-- Sets every tag of a row. -/
def Bank.tagRow (b : Bank) (i t : Nat) : Bank := (List.range 64).foldl (fun b j => b.setTag i j t) b

/-- The rows an operation writes: those live (R192). -/
def Bank.rows (b : Bank) : List Nat := (List.range 64).filter fun i => b.live.getLsbD i

/-- Does something to each live row, collecting flags. -/
def Bank.eachRow (b : Bank) (f : Bank → Nat → Bank × Word) : Bank × Word :=
  b.rows.foldl (fun st i => let r := f st.1 i; (r.1, st.2 ||| r.2)) (b, 0)

/-- Join of tags (R173). -/
def joinTag (x y : Nat) : Nat × Word :=
  if x = 0 then (y, 0) else if y = 0 || x = y then (x, 0) else if x = 3 || y = 3 then (3, 0) else (3, fNV)

def mLo : Int := -(2 ^ 63 : Nat)
def mHi : Int := (2 ^ 63 : Nat) - 1

/-- A new M: clamped when the headroom does not suffice (R173). A sum that leaves 64 bits although it does is an unstated value,
which `ent` gives. -/
def fitM (ent : Nat → Nat) (clamp : Bool) (n : Nat) (x : Int) : Int :=
  if clamp then max mLo (min x mHi)
  else if mLo ≤ x ∧ x ≤ mHi then x else signed (ent n) 64

/-- Charges `need` bits of headroom: the new HR, whether to clamp, and the flag (R173). -/
def Bank.charge (b : Bank) (need : Nat) : Nat × Bool × Word := if need ≤ b.hr then (b.hr - need, false, 0) else (0, true, fHDR)

/-! ### MMA (R173) -/

/-- One product of an entry: what it adds to the sum, the tag joined, and the flags. -/
def product (p : Profile) (t : Int) (st : Int × Nat × Word) (a b : Word) : Int × Nat × Word :=
  let (s, tag, fl) := st
  let nan (f : Word) := let r := joinTag tag 3; (s, r.1, fl ||| r.2 ||| f)
  let ca := ceCls a
  let cb := ceCls b
  if ca = 3 || cb = 3 then nan 0
  else if (ca = 2 && cb = 0) || (ca = 0 && cb = 2) then nan fNV
  else if ca = 2 || cb = 2 then
    let r := joinTag tag (if ceS a != ceS b then 2 else 1)
    (s, r.1, fl ||| r.2)
  else if ca = 1 && cb = 1 then
    let v := p.trunc (ceS a != ceS b) (ceSig a * ceSig b) (ceExp a + ceExp b + 16 - t) p.tau
    (s + v * (2 ^ p.tau : Nat), tag, fl)
  else st

/-- A row accumulates a row of A times B (R173). -/
def accRow (ent : Nat → Nat) (p : Profile) (clamp : Bool) (k : Nat) (bs : Slot) (eb : Int) (a : Nat → Word) (amax : Int) (b : Bank)
    (i : Nat) : Bank × Word :=
  let t := max (b.E i) (amax + eb + p.margin)
  let b1 := if b.E i < t then (b.mapRow i fun _ x => (rndShift 4 x (t - b.E i)).1).setE i t else b
  (List.range 64).foldl (fun st j =>
    let (s, tag, fl) := (List.range k).foldl (fun st n => product p t st (a n) (bs.at n j)) (0, st.1.tag i j, 0)
    ((st.1.setM i j (fitM ent clamp (64 * i + j) (st.1.M i j + s))).setTag i j tag, st.2 ||| fl)) (b1, 0)

/-- The largest column maximum of B. -/
def Slot.top (x : Slot) : Int := (List.range 64).foldl (fun m j => max m (x.colMax j)) (x.colMax 0)

def Bank.mma (ent : Nat → Nat) (p : Profile) (k : Nat) (a c : Slot) (b : Bank) : Bank × Word :=
  let (hr, clamp, fl) := b.charge (clog2 k + 1)
  let r := b.eachRow fun b i => accRow ent p clamp k c c.top (fun n => a.at i n) (a.rowMax i) b i
  ({ r.1 with hr }, fl ||| r.2)

/-! ### Rescaling (R174 step 3, R176) -/

/-- The integer q with 2^(q−1) < f ≤ 2^q for f = m × 2^e. -/
def ceilLog (m : Nat) (e : Int) : Int := e + (clog2 m : Nat)

/-- The row times f = m × 2^e, or zero for m = 0 (R174 step 3); the second flags are of its roundings, which the rule does not
name. -/
def Bank.rescale (p : Profile) (m : Nat) (e : Int) (b : Bank) (i : Nat) : Bank × Word × Word :=
  if m = 0 then (b.mapRow i fun _ _ => 0, 0, 0)
  else
    let q := ceilLog m e
    let q16 := roundAt p.resc false m e (q - 16) false
    let new := b.E i + q
    if new < eMin then ((b.mapRow i fun _ _ => 0).setE i eMin, fUF, fNX)
    else
      let inexact := (List.range 64).any fun j => (rndShift p.resc (b.M i j * q16.1) 16).2
      ((b.mapRow i fun _ x => (rndShift p.resc (x * q16.1) 16).1).setE i new, 0, flagIf (q16.2 || inexact) fNX)

/-! ### MMAS (R174) -/

/-- FP32 arithmetic of a context, rounded by the code `rm`: its subnormal and NaN handling are %mode's (R63, R64). -/
def FEnv.by (v : FEnv) (rm : Nat) : FEnv := { v with rm, csat := false }

/-- The flags of RoundTo (R81). -/
def roundFlags : Word := fOF ||| fUF ||| fNX

/-- RoundTo(a − b, FP32, .rn) as a value, with its flags; a tiny result is flushed where the context's %mode says so (R63, R81). -/
def diff32 (v : FEnv) (a b : FVal) : Word × Word :=
  if a.isNan || b.isNan then (nanWord, 0) else let r := fp32.sub { rm := 1, f32sub := v.f32sub } a b; (BitVec.ofNat 32 r.1, r.2 &&& roundFlags)

/-- An FP32 source of a context (R63). -/
def val32 (v : FEnv) (x : Word) : FVal := fp32.read v.f32sub x.toNat

/-- The larger of two values that are no NaN. -/
def fMax (a b : FVal) : FVal := if cmpVal a b < 0 then b else a

/-- The row's course: the bank, the flags of the FP32 results and of the rule (R57, R81, R89), and those of the roundings by Rnd to a form that
is not FP32, which no rule names (log entry 30). `v` is the context's %mode. A row whose ROWMAX is +∞ while a score is no NaN, or whose
factor f is a NaN, goes on as one with a NaN: the model's choice (log entry 30). -/
def mmasRow (ent : Nat → Nat) (p : Profile) (v : FEnv) (clamp : Bool) (k : Nat) (a c : Slot) (b : Bank) (i : Nat) : Bank × Word × Word :=
  let row := (List.range k).map fun n => a.at i n
  let old := val32 v (b.maxOf i)
  let dead : Bank × Word × Word := ((b.tagRow i 3).setMax i nanWord, 0, 0)
  if row.any (fun x => ceCls x = 3) || old.isNan then dead
  else
    let new := (row.filter fun x => ceCls x ≤ 1).foldl (fun m x => fMax m (ceVal x)) old
    let d := diff32 v old new
    let f : Word × Word := match old with
      | .inf true => (0, 0)
      | _ => let r := Sfu.apply .exp v d.1; (r.1, d.2 ||| r.2)
    match val32 v f.1 with
    | .fin _ m e =>
      let (b1, uf, ix) := b.rescale p m e i
      let ps := row.map fun x =>
        let d := diff32 v (ceVal x) new
        let y := Sfu.apply .exp v d.1
        let z := ceOf p.resc (val32 v y.1)
        (z.1, d.2 ||| y.2, z.2)
      let said := ps.foldl (fun fl x => fl ||| x.2.1) f.2
      let s0 := fp32.mul (v.by p.resc) (val32 v (b.sumOf i)) (val32 v f.1)
      let s1 := ps.foldl (fun st x =>
        let r := fp32.add (v.by p.resc) (fp32.read v.f32sub st.1) (ceVal x.1)
        (r.1, st.2 ||| r.2)) s0
      let mx := fp32.convert (v.by 1) new
      let b2 := (b1.setSum i (BitVec.ofNat 32 s1.1)).setMax i (BitVec.ofNat 32 mx.1)
      let top := (ps.filter fun x => ceCls x.1 = 1).foldl (fun m x => max m (ceExp x.1)) (-4096)
      let r := accRow ent p clamp k c c.top (fun n => ((ps[n]?).map (·.1)).getD 0) top b2 i
      (r.1, uf ||| said ||| s1.2 ||| mx.2 ||| r.2, ps.foldl (fun fl x => fl ||| x.2.2) ix)
    | _ => dead

/-- MMAS: `open_` says which of the flags of its roundings to M, Q16 and P are set, which no rule names (log entry 30). -/
def Bank.mmas (ent : Nat → Nat) (open_ : Word) (p : Profile) (v : FEnv) (k : Nat) (a c : Slot) (b : Bank) : Bank × Word :=
  let (hr, clamp, fl) := b.charge (clog2 k + 1)
  let r := b.eachRow fun b i =>
    let x := mmasRow ent p v clamp k a c b i
    (x.1, x.2.1 ||| (x.2.2 &&& open_))
  ({ r.1 with hr }, fl ||| r.2)

/-! ### AZERO, ANORM, ARESC (R175, R176) -/

def Bank.azero (b : Bank) : Bank × Word :=
  let r := b.eachRow fun b i =>
    ((((((b.mapRow i fun _ _ => 0).tagRow i 0).setE i eMin).setMax i minusInf).setSum i 0), 0)
  ({ r.1 with hr := 16 }, 0)

/-- Every finite entry with M ≠ 0 becomes the infinity of its sign (R175). -/
def Bank.overflowRow (b : Bank) (i : Nat) : Bank :=
  let b1 := (List.range 64).foldl (fun b j =>
    if b.tag i j = 0 && b.M i j ≠ 0 then b.setTag i j (if b.M i j < 0 then 2 else 1) else b) b
  (b1.mapRow i fun _ _ => 0).setE i eMax

/-- The smallest shift from `d` on for which every rounded M is below 2^46; one step past the exact one at most. -/
def fitShift (rm : Nat) (l : List Int) (d : Int) : Int :=
  if l.all fun x => ((rndShift rm x d).1).natAbs < 2 ^ 46 then d else d + 1

/-- ANORM of a row (R175). Every M is rescaled; one that a tag overrides and that does not fit its 64 bits is an unstated value. -/
def Bank.anormRow (ent : Nat → Nat) (p : Profile) (b : Bank) (i : Nat) : Bank × Word :=
  let fin := (List.range 64).filter fun j => b.tag i j = 0
  let ms := fin.map fun j => b.M i j
  let top := ms.foldl (fun m x => max m x.natAbs) 0
  if top = 0 then (b.setE i eMin, 0)
  else
    let d := fitShift p.anorm ms (max ((Nat.log2 top : Int) + 1 - 46) (eMin - b.E i))
    if eMax < b.E i + d then (b.overflowRow i, fOF ||| fNX)
    else
      let fl := fin.foldl (fun f j =>
        let r := rndShift p.anorm (b.M i j) d
        f ||| flagIf r.2 fNX ||| flagIf (r.2 && r.1 = 0) fUF) 0
      ((b.mapRow i fun j x => fitM ent false (64 * i + j) (rndShift p.anorm x d).1).setE i (b.E i + d), fl)

def Bank.anorm (ent : Nat → Nat) (p : Profile) (b : Bank) : Bank × Word :=
  let r := b.eachRow (Bank.anormRow ent p)
  ({ r.1 with hr := 16 }, r.2)

/-- A row in pow2 mode (R176). -/
def Bank.powRow (s : Int) (b : Bank) (i : Nat) : Bank × Word :=
  let e := b.E i + s
  if e < eMin then
    ((b.mapRow i fun _ _ => 0).setE i eMin, fUF ||| flagIf ((List.range 64).any fun j => b.M i j ≠ 0) fNX)
  else if eMax < e then (b.overflowRow i, fOF ||| fNX)
  else (b.setE i e, 0)

/-- A row times a factor g as FP32 (R176). -/
def Bank.mulRow (p : Profile) (v : FEnv) (g : Word) (b : Bank) (i : Nat) : Bank × Word × Word :=
  match val32 v g with
  | .fin s m e =>
    if s || m = 0 || cmpVal (.fin false 1 0) (.fin s m e) < 0 then (b.tagRow i 3, fNV, 0) else b.rescale p m e i
  | _ => (b.tagRow i 3, fNV, 0)

/-- ARESC by mode: 0 sum, 1 pow2, 2 mul; `x` is the x register, `v` the context's %mode, `open_` which of the flags of the row's roundings
are set, which no rule names (log entry 30). -/
def Bank.aresc (open_ : Word) (p : Profile) (v : FEnv) (mode : Nat) (x : DWord) (b : Bank) : Bank × Word :=
  let r := b.eachRow fun b i =>
    match mode with
    | 1 => Bank.powRow (signed x.toNat 16) b i
    | 2 => let y := Bank.mulRow p v (x.setWidth 32) b i; (y.1, y.2.1 ||| (y.2.2 &&& open_))
    | _ =>
      let g := fp32.div (v.by 1) (.fin false 1 0) (val32 v (b.sumOf i))
      let y := Bank.mulRow p v (BitVec.ofNat 32 g.1) b i
      (y.1, y.2.1 ||| g.2 ||| (y.2.2 &&& open_))
  ({ r.1 with hr := b.hr - 1 }, r.2 ||| flagIf (b.hr = 0) fHDR)

/-! ### ACVT, ARD, AWR (R178 to R180) -/

/-- ACVT to a binary format (R178). -/
def Bank.acvt (b : Bank) (rm : Nat) (f : Fmt) (i j : Nat) : Nat × Word :=
  match b.tag i j with
  | 0 => let x := b.M i j; f.round rm false false (x < 0) x.natAbs (b.E i - 46) false
  | 1 => (f.inf false, 0)
  | 2 => (f.inf true, 0)
  | _ => (f.qnan, 0)

/-- ACVT to a canonical element (R178). -/
def Bank.acvtCe (b : Bank) (rm : Nat) (i j : Nat) : Word × Word :=
  match b.tag i j with
  | 0 => let x := b.M i j; ceRound rm (x < 0) x.natAbs (b.E i - 46)
  | 1 => (cePack false 2 0 0, 0)
  | 2 => (cePack true 2 0 0, 0)
  | _ => (0x60000000, 0)

/-- The 64 × 64 positions, row by row. -/
def positions : List (Nat × Nat) := (List.range 64).flatMap fun i => (List.range 64).map fun j => (i, j)

/-- The image of ARD in a binary format of `n` bytes. -/
def Bank.image (b : Bank) (rm : Nat) (f : Fmt) (n : Nat) : List Byte × Word :=
  let l := positions.map fun p => b.acvt rm f p.1 p.2
  (l.flatMap fun x => toBytes x.1 n, l.foldl (fun f x => f ||| x.2) 0)

/-- The elements of ARD.ce. -/
def Bank.elements (b : Bank) (rm : Nat) : KMap Word × Word :=
  let l := positions.map fun p => (64 * p.1 + p.2, b.acvtCe rm p.1 p.2)
  (l.map fun x => (x.1, x.2.1), l.foldl (fun f x => f ||| x.2.2) 0)

/-- The raw image (R179). -/
def Bank.raw (b : Bank) : List Byte :=
  (positions.flatMap fun p => toBytes (wrap (b.M p.1 p.2) 64) 8) ++
  (List.range 64).flatMap fun i =>
    toBytes (wrap (b.E i) 16) 2 ++ toBytes b.hr 1 ++ toBytes 0 1 ++ toBytes (b.maxOf i).toNat 4 ++ toBytes (b.sumOf i).toNat 4 ++
    toBytes 0 4 ++ toBytes ((List.range 64).foldl (fun n j => n + b.tag i j * 4 ^ j) 0) 16

/-- A row record of a raw image. -/
structure RawRow where
  e : Int
  hr : Nat
  rowmax : Word
  rowsum : Word
  tags : Nat
  deriving DecidableEq, Repr

def rawRow (im : List Byte) (i : Nat) : RawRow :=
  let l := im.drop (32768 + 32 * i)
  { e := signed (ofBytes (l.take 2)) 16
    hr := ofBytes ((l.drop 2).take 1)
    rowmax := BitVec.ofNat 32 (ofBytes ((l.drop 4).take 4))
    rowsum := BitVec.ofNat 32 (ofBytes ((l.drop 8).take 4))
    tags := ofBytes ((l.drop 16).take 16) }

/-- The M of one row of a raw image. -/
def rawM (im : List Byte) (i : Nat) : List Int :=
  let l := (im.drop (512 * i)).take 512
  (List.range 64).map fun j => signed (ofBytes ((l.drop (8 * j)).take 8)) 64

/-- Image HR: the smallest of the row records (R180). -/
def rawHr (im : List Byte) : Nat := (List.range 64).foldl (fun m i => min m (rawRow im i).hr) 255

def Bank.awrRaw (im : List Byte) (b : Bank) : Bank × Word :=
  let r := b.eachRow fun b i =>
    let x := rawRow im i
    let ms := rawM im i
    let b1 := (List.range 64).foldl (fun b j => (b.setM i j (ms.getD j 0)).setTag i j (x.tags / 4 ^ j % 4)) b
    (((b1.setE i x.e).setMax i x.rowmax).setSum i x.rowsum, 0)
  ({ r.1 with hr := min (rawHr im) 16 }, 0)

def Bank.awrAdd (ent : Nat → Nat) (im : List Byte) (b : Bank) : Bank × Word :=
  let low := min b.hr (rawHr im)
  let clamp : Bool := low = 0
  let r := b.eachRow fun b i =>
    let x := rawRow im i
    let ms := rawM im i
    let t := max (b.E i) x.e
    let y := (List.range 64).foldl (fun st j =>
      let sum := (rndShift 4 (st.1.M i j) (t - b.E i)).1 + (rndShift 4 (ms.getD j 0) (t - x.e)).1
      let g := joinTag (st.1.tag i j) (x.tags / 4 ^ j % 4)
      ((st.1.setM i j (fitM ent clamp (64 * i + j) sum)).setTag i j g.1, st.2 ||| g.2)) (b, (0 : Word))
    (y.1.setE i t, y.2)
  ({ r.1 with hr := low - 1 }, r.2 ||| flagIf clamp fHDR)

/-- AWR.F32 (R180). The M beside a special's tag is 0: the model's choice (log entry 30). -/
def Bank.awrF32 (p : Profile) (im : List Byte) (b : Bank) : Bank × Word :=
  let r := b.eachRow fun b i =>
    let l := (im.drop (256 * i)).take 256
    let xs := (List.range 64).map fun j => fp32.read false (ofBytes ((l.drop (4 * j)).take 4))
    let es := xs.filterMap fun x => match x with | .fin _ m e => if m = 0 then none else some (e + (Nat.log2 m : Int)) | _ => none
    let e := match es with | [] => eMin | y :: ys => ys.foldl max y + 2
    let b1 := xs.zipIdx.foldl (fun b x =>
      match x.1 with
      | .fin s m g => (b.setM i x.2 (if m = 0 then 0 else p.trunc s m g (e - 46))).setTag i x.2 0
      | .inf s => (b.setM i x.2 0).setTag i x.2 (if s then 2 else 1)
      | .nan _ _ _ => (b.setM i x.2 0).setTag i x.2 3) b
    (b1.setE i e, 0)
  ({ r.1 with hr := 16 }, 0)

end Sys2Proof.Machine
end

