-- ==== Sys2Proof/Machine/Tile.lean ====
section
/-! DEFINITION. Tile contexts and the slot instructions (R158 to R166, R169, R170, R172, R177, R178, R180 to R182): what holds a
bundle, the acceptance checks, the effects at issue, and a tile fault (R196, R239). -/

namespace Sys2Proof.Machine

/-! ### Contexts -/

def State.ctxAt (s : State) (core n : Nat) : Option TileCtx := kfind (s.core core).ctxs n

def State.setCtx (s : State) (core n : Nat) (c : TileCtx) : State :=
  let x := s.core core
  s.setCore core { x with ctxs := kinsert x.ctxs n c }

def State.modCtx (s : State) (core n : Nat) (f : TileCtx → TileCtx) : State :=
  match s.ctxAt core n with
  | some c => s.setCtx core n (f c)
  | none => s

/-- Raises flags in a context (R160). -/
def State.tileFlags (s : State) (core n : Nat) (f : Word) : State := s.modCtx core n fun c => { c with flags := c.flags ||| f }

/-- The number under which the service names a tile context that has faulted. -/
def tileKey (core n : Nat) : Nat := 2 ^ 40 + 4 * core + n

/-- A context's cushion: the (core, context) pairs of its members in rank order; a lone context is its own. -/
def State.members (s : State) (core n : Nat) (c : TileCtx) : List (Nat × Nat) :=
  if c.cush = .none then [(core, n)]
  else
    (kget [] s.cushions c.task).flatMap fun d =>
      ((s.core d).ctxs.filter fun p =>
        p.2.task = c.task && p.2.cush ≠ .none && ((p.2.cush = .forming) = (c.cush = .forming) : Bool)).map fun p => (d, p.1)

/-- The members that a coupled context stops and moves with, else itself (R237). -/
def State.team (s : State) (core n : Nat) (c : TileCtx) : List (Nat × Nat) :=
  if c.cush = .coupled then s.members core n c else [(core, n)]

/-- An x register as it stood before the bundle (R161). -/
def rdX (s : State) (c : TileCtx) (r : Nat) : DWord := kget 0 (s.cur.xs.getD c.x) r

/-- The window of a context's block part: base in the core's scratchpad, and length. -/
def winOfCtx (s : State) (core : Nat) (c : TileCtx) : Nat × Nat :=
  match (kfind s.tasks c.task).bind fun t => t.grants.find? fun g => g.core = core && g.blk = c.blk && g.part = c.part with
  | some g => (g.winBase, g.winLen)
  | none => (0, 0)

/-! ### Tile faults (R128, R196, R239, R240) -/

/-- The 384 bytes of a gate frame (R195). -/
def GateFrame.image (g : GateFrame) : List Byte :=
  let q (x : DWord) : List Byte := toBytes x.toNat 8
  q g.gpc ++ q g.bpc ++ toBytes g.wmask.toNat 8 ++ toBytes g.ctx 1 ++ toBytes g.nw 1 ++ toBytes 0 2 ++ toBytes g.ext 4 ++
  toBytes g.live0.toNat 8 ++ toBytes g.live1.toNat 8 ++ q g.iw0 ++ q g.iw1 ++
  (List.range 16).flatMap (fun i => toBytes (g.frec.getD i 0).toNat 4) ++
  (List.range 64).flatMap fun i => toBytes (kget 0 g.lmask i).toNat 4

/-- Writes a context's gate frame to memory. -/
def State.writeGateFrame (s : State) (core n : Nat) : State :=
  match s.ctxAt core n with
  | some c =>
    let base := ((kfind s.tasks c.task).map (·.frame.va)).getD 0
    if c.waves = [] then s else s.writeFrameAt c.task (c.gframeVa - base).toNat c.frame.image
  | none => s

/-- A wave that stands for a context without gating waves in a fault record. -/
def noWave (core : Nat) (c : TileCtx) : Wave := { task := c.task, blk := c.blk, idx := 0, core, part := 0, alloc := 0 }

/-- The fragment at the gate that stands for a context: the lowest-numbered one of its lead wave (R196). -/
def State.gateFrag (s : State) (c : TileCtx) : Option (Nat × Wave × Frag) :=
  match c.waves with
  | [] => none
  | k :: _ => (kfind s.waves k).bind fun w =>
      ((w.frags.map (·.num)).foldl (fun m i => match m with | none => some i | some j => some (min i j)) none).bind fun i =>
        (w.frag i).map fun f => (k, w, f)

/-- A tile fault that enters the lead wave's handler, in its lowest-numbered fragment, with the wave's gate mask (R196). -/
def State.tileDeliver (s : State) (core n : Nat) (c : TileCtx) (e : Exc) : State :=
  let x : Exc := { e with tile := some (c.frame.gpc, c.pc) }
  match s.gateFrag c with
  | none =>
    let rc := faultRecord (noWave core c) { num := 0, pc := 0, mask := 0 } 0 s.cur.iw0 s.cur.iw1 x
    s.endTask c.task [imageOf rc] (e.kind, 0, BitVec.ofNat 64 e.addr)
  | some (k, w, fr) =>
    let rc := faultRecord w fr c.frame.gpc s.cur.iw0 s.cur.iw1 x
    let s1 := s.modCtx core n fun c => { c with frame := { c.frame with frec := rc } }
    let s2 := (s1.writeGateFrame core n).deliver127 k w fr c.frame.gpc x (some (core, n))
    let gm := kget 0 c.frame.lmask ((c.frame.lmask.filter fun p => p.2 ≠ 0).head?.map (·.1) |>.getD 0)
    s2.modWave k fun w => if w.trapSave.isSome then w.modFrag fr.num fun f => { f with mask := gm } else w

/-- A report that names a tile context: its BPC, and the fragment at the gate that stands for it (R369). -/
def State.tileReport (s : State) (core : Nat) (c : TileCtx) (cause addr detail : Nat) : List Byte :=
  match s.gateFrag c with
  | some (_, w, f) => haltReport s c.task core w.part c.pc addr cause w.idx f.num detail
  | none => haltReport s c.task core 0 c.pc addr cause 0 0 detail

/-- A fetch watchpoint with ACT = 1 halts the task at a bundle; the record stays with the lead wave (R366, R367). -/
def State.tileHalt (s : State) (core n : Nat) (c : TileCtx) (e : Exc) : State :=
  let x : Exc := { e with tile := some (c.frame.gpc, c.pc) }
  let s1 := s.modCtx core n fun c => { c with wskip := some c.pc }
  let s2 := match s.gateFrag c with
    | some (k, w, f) => s1.modWave k fun _ => { w with watchRec := some (faultRecord w f c.frame.gpc s.cur.iw0 s.cur.iw1 x) }
    | none => s1
  s2.haltTask c.task (some (kget {} (s.core core).watch (e.detail % 4) : WatchC).sess) (s.tileReport core c 2 e.addr e.detail)

/-- A tile fault: the context, or its whole cushion, coupled or decoupled, stops, and every member's gate frame takes its BPC (R195, R239);
a not-present fault goes to the scheduler (R261). -/
def State.tileFault (s : State) (core n : Nat) (c : TileCtx) (e : Exc) : State :=
  let s1 := (s.members core n c).foldl (fun s m =>
    (s.modCtx m.1 m.2 fun c => { c with stopped := true, frame := { c.frame with bpc := c.pc } }).writeGateFrame m.1 m.2) s
  if e.kind ≠ 0x12 then s1.tileDeliver core n c e
  else if s.unresolved c.task (tileKey core n) then (s1.settled c.task (tileKey core n)).tileDeliver core n c e
  else
    (s1.modCtx core n fun c => { c with npFault := true }).modTask c.task fun t =>
      { t with pf := true, stopIssue := true, pages := t.pages ++ [BitVec.ofNat 64 e.addr] }

/-! ### How a slot is checked and takes effect (R160, R161) -/

/-- What a bundle's slot answers before it issues. -/
inductive Verdict
  | go | hold | fault (e : Exc)
  deriving DecidableEq, Repr

/-- The checks of a slot: the state with what they read, and the verdict. -/
abbrev Check := State → Nat → Nat → TileCtx → State × Verdict

/-- The meaning of a slot instruction: in a bundle whose acceptance has passed its effect, else its checks and then its effect. -/
def onTile (s : State) (chk : Check) (eff : State → Nat → Nat → TileCtx → State) : Out :=
  match s.cur.actor with
  | .tile core n =>
    match s.ctxAt core n with
    | none => .refused .noIssuer
    | some c =>
      if s.cur.accepted then .next (eff s core n c)
      else
        match chk s core n c with
        | (s', .go) => .next (eff s' core n ((s'.ctxAt core n).getD c))
        | (_, .hold) => .next s
        | (s', .fault e) => .next (s'.tileFault core n c e)
  | _ => .refused .noIssuer

/-- Checks that only look. -/
def pureChk (f : State → Nat → TileCtx → Verdict) : Check := fun s core _ c => (s, f s core c)

def anyway : Check := fun s _ _ _ => (s, .go)

/-! ### Engine queues -/

def Core.engq (x : Core) : Engine → List QOp
  | .mx => x.mxq | .tx => x.txq | .cp => x.cpq | .ar => x.arq | .aw => x.awq

def Core.setEngq (x : Core) (e : Engine) (l : List QOp) : Core :=
  match e with
  | .mx => { x with mxq := l }
  | .tx => { x with txq := l }
  | .cp => { x with cpq := l }
  | .ar => { x with arq := l }
  | .aw => { x with awq := l }

/-- Depth of a queue (R160). -/
def depth : Engine → Nat
  | .mx => 4 | .tx => 2 | .cp => 16 | .ar => 2 | .aw => 2

def full (s : State) (core : Nat) (e : Engine) : Bool := depth e ≤ ((s.core core).engq e).length

/-- Whether a context has an operation of an engine, or a copy, that has not completed. -/
def busy (s : State) (core n : Nat) (e : Engine) : Bool :=
  (((s.core core).engq e).any fun q => q.ctx = n) ||
  (e = .cp && s.copies.any fun p => p.2.tileOp && p.2.ctxCore = core && p.2.frag = n)

/-- Queues an operation; copies are named by their number. -/
def State.pushOp (s : State) (core n : Nat) (e : Engine) (copy : Option Nat) (op : EngOp) : State :=
  let x := s.core core
  let q : QOp := { order := x.nextOrder, ctx := n, np := s.cur.np, copy, op }
  s.setCore core { (x.setEngq e (x.engq e ++ [q])) with nextOrder := x.nextOrder + 1 }

/-- A kind 0x40 fault of the tile set (R185). -/
def slotExc (reason n slot : Nat) : Exc := { kind := 0x40, level := 1, detail := reason + 256 * n + 2 ^ 13 * slot }

/-- Slots that a context may name (R163, R191). -/
def TileCtx.holds (c : TileCtx) (n : Nat) : Bool := c.held.getLsbD n || c.gateSlots.getLsbD n

/-- Room in the queue, then the fault of the first condition that fails. -/
def engChk (e : Engine) (tests : State → Nat → TileCtx → List (Bool × Exc)) : Check := fun s core _ c =>
  if full s core e then (s, .hold)
  else
    match (tests s core c).find? fun t => !t.1 with
    | some t => (s, .fault t.2)
    | none => (s, .go)

def bankTest (c : TileCtx) (d slot : Nat) : Bool × Exc := (d < c.bankCount, slotExc 4 d slot)
def slotTest (c : TileCtx) (n slot : Nat) : Bool × Exc := (c.holds n, slotExc 3 n slot)

/-! ### The control slot (R181, R182) -/

/-- The bundle program counter `n` bundles on. -/
def bundleAt (pc : DWord) (n : BitVec 24) : DWord := pc + 32 * n.signExtend 64

/-- A CTL effect: new x registers and the next bundle. -/
def ctlGo (s : State) (core n : Nat) (c : TileCtx) (pc : DWord) : State := s.setCtx core n { c with pc }

def wrX (c : TileCtx) (r : Nat) (v : DWord) : TileCtx := { c with x := kset 0 c.x r v }

def execTnop (s : State) : Out := onTile s anyway fun s core n c => ctlGo s core n c (pcAdd c.pc 32)

def execTjmp (off : BitVec 24) (s : State) : Out := onTile s anyway fun s core n c => ctlGo s core n c (canon (bundleAt c.pc off).toNat)

/-- CC of TBR on a signed 64-bit value. -/
def tcond (cc : TCond) (x : DWord) : Bool :=
  match cc with
  | .eq => x == 0
  | .ne => x != 0
  | .lt => x.msb
  | .ge => !x.msb
  | .gt => !x.msb && x != 0
  | .le => x.msb || x == 0

def execTbr (cc : TCond) (a : Nat) (off : BitVec 24) (s : State) : Out :=
  onTile s anyway fun s core n c =>
    ctlGo s core n c (if tcond cc (rdX s c a) then canon (bundleAt c.pc off).toNat else pcAdd c.pc 32)

def execTset (d : Nat) (src : TSetSrc) (s : State) : Out :=
  onTile s anyway fun s core n c =>
    let v : DWord := match src with
      | .imm v => v.signExtend 64
      | .sh v => (rdX s c d <<< 26) ||| v.setWidth 64
      | .mov a => rdX s c a
      | .special 0 => BitVec.ofNat 64 n
      | .special 1 => BitVec.ofNat 64 c.rank
      | .special _ => c.gframeVa
    ctlGo s core n (wrX c d v) (pcAdd c.pc 32)

def execTadd (d a : Nat) (src : Nat ⊕ BitVec 21) (s : State) : Out :=
  onTile s anyway fun s core n c =>
    let b : DWord := match src with
      | .inl r => rdX s c r
      | .inr v => v.signExtend 64
    ctlGo s core n (wrX c d (rdX s c a + b)) (pcAdd c.pc 32)

def chkTwait (mx tx cp ar aw : Bool) : Check := fun s core n _ =>
  if (mx && busy s core n .mx) || (tx && busy s core n .tx) || (cp && busy s core n .cp) || (ar && busy s core n .ar) ||
    (aw && busy s core n .aw) then (s, .hold) else (s, .go)

def execTwait (mx tx cp ar aw : Bool) (s : State) : Out :=
  onTile s (chkTwait mx tx cp ar aw) fun s core n c => ctlGo s core n c (pcAdd c.pc 32)

def chkTtrap (n : Nat) : Check := pureChk fun _ _ _ => .fault { kind := 0x70, level := 1, detail := n + 256 }

def execTtrap (n : Nat) (s : State) : Out := onTile s (chkTtrap n) fun s _ _ _ => s

def chkTfence : Check := fun s core n c =>
  if busy s core n .mx || busy s core n .ar || busy s core n .aw then (s, .hold)
  else
    let f := (c.flags &&& c.trapen).toNat % 256
    if f = 0 then (s, .go) else (s, .fault { kind := 0x60, level := 1, detail := f })

def execTileTfence (s : State) : Out := onTile s chkTfence fun s core n c => ctlGo s core n c (pcAdd c.pc 32)

/-! ### The matrix and transpose slots (R172, R177) -/

/-- K of MMA and MMAS (R172). -/
def depthOf (s : State) (c : TileCtx) : Depth → Nat
  | .const n => n
  | .reg x => (rdX s c x).toNat % 64 + 1

/-- MMA's tests: the bank, then A, then B, the model's order (R172, log entry 90). -/
def chkMma (d a b : Nat) : Check := engChk .mx fun _ _ c => [bankTest c d 1, slotTest c a 1, slotTest c b 1]

def execMma (d a b : Nat) (k : Depth) (s : State) : Out :=
  onTile s (chkMma d a b) fun s core n c => s.pushOp core n .mx none (.mma (c.bankBase + d) a b (depthOf s c k))

def execMmas (d a b : Nat) (k : Depth) (s : State) : Out :=
  onTile s (chkMma d a b) fun s core n c => s.pushOp core n .mx none (.mmas (c.bankBase + d) a b (depthOf s c k))

def chkBank (d : Nat) : Check := engChk .mx fun _ _ c => [bankTest c d 1]

def execAzero (d : Nat) (s : State) : Out := onTile s (chkBank d) fun s core n c => s.pushOp core n .mx none (.azero (c.bankBase + d))
def execAnorm (d : Nat) (s : State) : Out := onTile s (chkBank d) fun s core n c => s.pushOp core n .mx none (.anorm (c.bankBase + d))

def execAresc (d : Nat) (m : RescMode) (s : State) : Out :=
  onTile s (chkBank d) fun s core n c =>
    s.pushOp core n .mx none (match m with
      | .sum => .aresc (c.bankBase + d) 0 0
      | .pow2 x => .aresc (c.bankBase + d) 1 (rdX s c x)
      | .mul x => .aresc (c.bankBase + d) 2 (rdX s c x))

def chkTrn (d a : Nat) : Check := engChk .tx fun _ _ c => [slotTest c d 2, slotTest c a 2]

def execTrn (d a : Nat) (s : State) : Out := onTile s (chkTrn d a) fun s core n _ => s.pushOp core n .tx none (.trn d a)

/-! ### The accumulator ports (R178, R180) -/

/-- A window offset of an image: its alignment, then the window's end (R178). -/
def imageTests (s : State) (core : Nat) (c : TileCtx) (o size : Nat) : List (Bool × Exc) :=
  let x := (rdX s c o).toNat
  [(x % 64 = 0, { kind := 0x11, level := 1, addr := x, detail := 3 }),
   (x + size ≤ (winOfCtx s core c).2, { kind := 0x10, level := 1, addr := x, detail := 2 })]

/-- Bytes of an image: FP32, BF16 and FP16 rows, and the raw image (R178, R179). -/
def imageSize : Nat → Nat
  | 1 => 16384 | 2 => 8192 | 3 => 8192 | _ => 34816

/-- ARD.CE's tests: the bank, then the slot: the model's order (R178, log entry 90). -/
def chkArdCe (b d : Nat) : Check := engChk .ar fun _ _ c => [bankTest c b 4, slotTest c d 4]

def execArdCe (b d : Nat) (s : State) : Out :=
  onTile s (chkArdCe b d) fun s core n c => s.pushOp core n .ar none (.ardCe (c.bankBase + b) d)

/-- ARD's tests: the bank, then the image; AWR's likewise: the model's order (R178, log entry 90). -/
def chkArd (b o mode : Nat) : Check := engChk .ar fun s core c => bankTest c b 4 :: imageTests s core c o (imageSize mode)

def ardOp (b o mode : Nat) (s : State) : Out :=
  onTile s (chkArd b o mode) fun s core n c =>
    s.pushOp core n .ar none (.ard (c.bankBase + b) ((winOfCtx s core c).1 + (rdX s c o).toNat) mode)

def execArdF32 (b o : Nat) (s : State) : Out := ardOp b o 1 s
def execArdBf16 (b o : Nat) (s : State) : Out := ardOp b o 2 s
def execArdF16 (b o : Nat) (s : State) : Out := ardOp b o 3 s
def execArdRaw (b o : Nat) (s : State) : Out := ardOp b o 4 s

/-- AWR's modes read images of these sizes: raw, raw, FP32. -/
def awrSize (mode : Nat) : Nat := if mode = 2 then 16384 else 34816

def chkAwr (d o mode : Nat) : Check := engChk .aw fun s core c => bankTest c d 5 :: imageTests s core c o (awrSize mode)

def awrOp (d o mode : Nat) (s : State) : Out :=
  onTile s (chkAwr d o mode) fun s core n c =>
    s.pushOp core n .aw none (.awr (c.bankBase + d) ((winOfCtx s core c).1 + (rdX s c o).toNat) mode)

def execAwrRaw (d o : Nat) (s : State) : Out := awrOp d o 0 s
def execAwrAdd (d o : Nat) (s : State) : Out := awrOp d o 1 s
def execAwrF32 (d o : Nat) (s : State) : Out := awrOp d o 2 s

/-! ### Claims and batches (R164, R170) -/

/-- A TCLAIM holds its bundle while another context holds the slot. -/
def chkTclaim (k : Nat) : Check := fun s core n c =>
  let h := (kget {} (s.core core).slots k).holder
  if full s core .cp || (h.isSome && h ≠ some n) then (s, .hold)
  else if c.holds k then (s, .fault (slotExc 1 k 3))
  else (s, .go)

def State.setSlot (s : State) (core k : Nat) (x : Slot) : State :=
  let y := s.core core
  s.setCore core { y with slots := kset {} y.slots k x }

def execTclaim (k : Nat) (s : State) : Out :=
  onTile s (chkTclaim k) fun s core n c =>
    let s1 := s.setSlot core k { kget {} (s.core core).slots k with holder := some n }
    (s1.setCtx core n { c with held := c.held ||| (1#16 <<< k) }).pushOp core n .cp none (.tclaim k)

def chkTrel (k : Nat) : Check := engChk .cp fun _ _ c => [(c.held.getLsbD k, slotExc 2 k 3)]

def execTrel (k : Nat) (s : State) : Out :=
  onTile s (chkTrel k) fun s core n c =>
    (s.setCtx core n { c with held := c.held &&& ~~~(1#16 <<< k) }).pushOp core n .cp none (.trel k)

def chkRoom : Check := engChk .cp fun _ _ _ => []

def execTcseal (b : Nat) (s : State) : Out :=
  onTile s chkRoom fun s core n c =>
    (s.setCtx core n { c with batches := kset [] c.batches b (kget [] c.batches b ++ c.unsealed), unsealed := [] }).pushOp core n .cp none
      .tcseal

def chkTcwait (b : Nat) : Check := fun s core _ c =>
  if full s core .cp || !copiesDone s (kget [] c.batches b) then (s, .hold) else (s, .go)

def execTcwait (b : Nat) (s : State) : Out :=
  onTile s (chkTcwait b) fun s core n c => s.setCtx core n { c with batches := kset [] c.batches b [] }

/-! ### Lines of tile copies (R166, R169) -/

/-- Distinct 64-byte virtual lines of byte ranges (address, length), ascending. -/
def lines64 (l : List (Nat × Nat)) : List Nat :=
  kkeys (l.foldl (fun m p =>
    if p.2 = 0 then m
    else (List.range ((p.1 + p.2 - 1) / 64 - p.1 / 64 + 1)).foldl (fun m i => kinsert m (p.1 / 64 + i) ()) m) ([] : KMap Unit))

/-- Translates 64-byte lines for a context, ascending: their storage addresses and whether any lies on an SP page; a page with SP
is refused after every line has translated (R166, R169). -/
def tileLines (s : State) (core : Nat) (c : TileCtx) (acc : Acc) (lines : List Nat) : State × Except Exc (LineMap × List Nat) :=
  lines.foldl (fun (st : State × Except Exc (LineMap × List Nat)) ln =>
    match st.2 with
    | .error _ => st
    | .ok (m, sps) =>
      let (s', r) := st.1.translate (s.walkerOf c.task core) (64 * ln) acc true
      match r with
      | .ok leaf => (s', .ok (kinsert m ln leaf.key, if leaf.sp then sps ++ [ln] else sps))
      | .error (k, d) => (s', .error { kind := k, level := 3, addr := (canon (64 * ln)).toNat, detail := d })) (s, .ok ([], []))

/-- The refusal of a copy that touches a page with SP (R268). -/
def spRefusal (a : Nat) : Exc := { kind := 0x32, level := 3, addr := a, detail := 4 }

/-- A copy joins the unsealed set of its context (R166, R169); `vlines` are the virtual lines it was translated by. -/
def State.addTileCopy (s : State) (core n : Nat) (c : TileCtx) (lanes : List CopyLane) (op : EngOp) (vlines : List Nat) : State :=
  let id := s.nextCopy
  let cp : Copy :=
    { core
      task := c.task
      wave := none
      lanes
      tileOp := true
      frag := n
      order := (s.core core).nextOrder
      ctxCore := core
      vlines
      owner := ctxKey c.task c.blk c.part }
  let s1 := { s with copies := kinsert s.copies id cp, nextCopy := id + 1 }
  (s1.setCtx core n { c with unsealed := c.unsealed ++ [id] }).pushOp core n .cp (some id) op

/-! ### CPIN and CPOUT (R165 to R168) -/

/-- An address of the tile set: not canonical, or none. -/
def nonCanon (a : Nat) : Bool := (canon a).toNat ≠ a

/-- The first refusal among a descriptor's 64 bytes (R165): kind 0x11 with its address, or a position. An SBASE that is neither canonical nor
allowed by BSZ is reported as not canonical: the model's choice (log entry 39). -/
def badDesc (va : Nat) (b : List Byte) : Option Exc :=
  let f (i n : Nat) : Nat := ofBytes ((b.drop i).take n)
  let fmt : Word := BitVec.ofNat 32 (f 8 4)
  let form (a : Nat) : Exc := { kind := 0x11, level := 1, addr := a, detail := 1 }
  let pos (p : Nat) : Exc := { kind := 0x01, level := 1, addr := va, detail := 3 + 256 + 65536 * p }
  if nonCanon (f 0 8) then some (form (f 0 8))
  else
    match badFormat fmt with
    | some p => some (pos (64 + p))
    | none =>
      if 64 ≤ f 16 1 then some (pos 134)
      else if 64 ≤ f 17 1 then some (pos 142)
      else if f 18 2 ≠ 0 then some (pos 144)
      else if nonCanon (f 24 8) then some (form (f 24 8))
      else if f 24 8 ≠ 0 && bits fmt.toNat 22 21 = 0 then some (pos 192)
      else if f 32 32 ≠ 0 then some (pos 256)
      else none

def descOf (b : List Byte) (add : Nat) : CopyDesc :=
  let f (i n : Nat) : Nat := ofBytes ((b.drop i).take n)
  { base := BitVec.ofNat 64 (f 0 8 + add)
    fmt := BitVec.ofNat 32 (f 8 4)
    rstr := f 12 4
    rows := f 16 1 % 64 + 1
    cols := f 17 1 % 64 + 1
    sstr := f 20 4
    sbase := BitVec.ofNat 64 (f 24 8) }

def CopyDesc.format (d : CopyDesc) : FmtReg := FmtReg.of d.fmt
/-- Bytes of a row's containers, blocks in a row, and whether there are scales. -/
def CopyDesc.rowBytes (d : CopyDesc) : Nat := ceilDiv (d.cols * d.format.container) 8
def CopyDesc.blocks (d : CopyDesc) : Nat := if d.format.bsz = 0 then 0 else ceilDiv d.cols d.format.block
/-- Virtual addresses of row `r` and of its scales. -/
def CopyDesc.rowAt (d : CopyDesc) (r : Nat) : Nat := d.base.toNat % 2 ^ 57 + r * d.rstr
def CopyDesc.scaleAt (d : CopyDesc) (r : Nat) : Nat := d.sbase.toNat % 2 ^ 57 + r * d.sstr

/-- The byte ranges a descriptor touches. -/
def CopyDesc.ranges (d : CopyDesc) : List (Nat × Nat) :=
  (List.range d.rows).map (fun r => (d.rowAt r, d.rowBytes)) ++ (List.range d.rows).map fun r => (d.scaleAt r, d.blocks)

/-- The bytes of a descriptor, read as a load of the context (R206). -/
def descBytes (s : State) (core key : Nat) : List Byte := (List.range 64).map fun i => s.loadByte core [] .global (key + i) false

/-- Acceptance of CPIN and CPOUT (R166): the descriptor and the lines, or a fault. -/
def acceptDesc (s : State) (core : Nat) (c : TileCtx) (a : Nat) (off : Option Nat) (out : Bool) :
    State × Except Exc (CopyDesc × LineMap) :=
  let va := (rdX s c a).toNat
  if va % 64 ≠ 0 then (s, .error { kind := 0x11, level := 1, addr := va, detail := 3 })
  else if nonCanon va then (s, .error { kind := 0x11, level := 1, addr := va, detail := 1 })
  else
    let (s1, r) := tileLines s core c .read [va % 2 ^ 57 / 64]
    match r with
    | .error e => (s1, .error e)
    | .ok (m, sps) =>
      let key := kget 0 m (va % 2 ^ 57 / 64)
      if sps ≠ [] then (s1, .error (spRefusal va))
      else
        let s2 := countLoads s1 core 0 ((List.range 2).map fun i => { lane := 0, va, key := key + 32 * i, sp := false })
        let b := descBytes s2 core key
        match badDesc va b with
        | some e => (s2, .error e)
        | none =>
          let d := descOf b ((off.map fun x => (rdX s c x).toNat).getD 0)
          if nonCanon d.base.toNat then (s2, .error { kind := 0x11, level := 1, addr := d.base.toNat, detail := 1 })
          else
            match (d.ranges.filter fun p => p.2 ≠ 0 && 2 ^ 57 < p.1 + p.2).head? with
            | some p => (s2, .error { kind := 0x11, level := 1, addr := p.1 % 2 ^ 64, detail := 2 })
            | none =>
              let (s3, r) := tileLines s2 core c (if out then .write else .read) (lines64 d.ranges)
              match r with
              | .error e => (s3, .error e)
              | .ok (m, sps) =>
                match sps with
                | ln :: _ => (s3, .error (spRefusal (canon (64 * ln)).toNat))
                | [] =>
                  if out && d.format.bsf then
                    (s3, .error { kind := 0x01, level := 1, addr := va, detail := 3 + 256 + 65536 * 87 })
                  else (s3, .ok (d, m))

/-- The checks of CPIN and CPOUT: room, the slot, then acceptance. -/
def chkDesc (slot a : Nat) (off : Option Nat) (out : Bool) : Check := fun s core _ c =>
  if full s core .cp then (s, .hold)
  else if !c.holds slot then (s, .fault (slotExc 3 slot 3))
  else
    match acceptDesc s core c a off out with
    | (s', .error e) => (s', .fault e)
    | (s', .ok _) => (s', .go)

/-- A 64-byte line of a copy that reads it. -/
def lineLanes (m : LineMap) : List CopyLane :=
  m.zipIdx.map fun p => { lane := p.2, src := some (.global, p.1.2), dst := none, len := 64 }

/-- The L2 requests of a copy's lines (R253). -/
def countMap (s : State) (core : Nat) (m : LineMap) : State := countCopy s core (m.map fun p => { lane := 0, va := 64 * p.1, key := p.2, sp := false })

def execCpin (d a : Nat) (t : Bool) (off : Option Nat) (s : State) : Out :=
  onTile s (chkDesc d a off false) fun s core n c =>
    match (acceptDesc s core c a off false).2 with
    | .error _ => s
    | .ok (x, m) => (countMap s core m).addTileCopy core n c (lineLanes m) (.cpin d x t m) (kkeys m)

def execCpout (b a : Nat) (t : Bool) (off : Option Nat) (s : State) : Out :=
  onTile s (chkDesc b a off true) fun s core n c =>
    match (acceptDesc s core c a off true).2 with
    | .error _ => s
    | .ok (x, m) => (countMap s core m).addTileCopy core n c [] (.cpout b x t m) (kkeys m)

/-! ### CPX (R169) -/

/-- A CPX's addresses and line count. -/
structure CpxArgs where
  dst : Nat
  src : Nat
  n : Nat
  deriving DecidableEq, Repr

def cpxArgs (s : State) (c : TileCtx) (d a k : Nat) : CpxArgs :=
  { dst := (rdX s c d).toNat, src := (rdX s c a).toNat, n := (rdX s c k).toNat % 2 ^ 16 }

def CpxDir.toGlobal : CpxDir → Bool
  | .gs => false | _ => true
def CpxDir.fromGlobal : CpxDir → Bool
  | .sg => false | _ => true

/-- The checks on both addresses, each over destination and then source. -/
def cpxTests (s : State) (core : Nat) (c : TileCtx) (dir : CpxDir) (x : CpxArgs) : List (Bool × Exc) :=
  let sides := [(x.dst, CpxDir.toGlobal dir), (x.src, CpxDir.fromGlobal dir)]
  let win := (winOfCtx s core c).2
  sides.map (fun p => ((p.1 % 64 = 0 : Bool), ({ kind := 0x11, level := 1, addr := p.1, detail := 3 } : Exc))) ++
  sides.flatMap (fun p =>
    if p.2 then
      [(!nonCanon p.1, ({ kind := 0x11, level := 1, addr := p.1, detail := 1 } : Exc)),
       ((p.1 % 2 ^ 57 + 64 * x.n ≤ 2 ^ 57 : Bool), { kind := 0x11, level := 1, addr := p.1, detail := 2 })]
    else []) ++
  sides.flatMap fun p => if p.2 then [] else [((p.1 + 64 * x.n ≤ win : Bool), { kind := 0x10, level := 1, addr := p.1, detail := 2 })]

/-- Translates both global sides, the destination first, then refuses pages with SP. -/
def cpxLines (s : State) (core : Nat) (c : TileCtx) (dir : CpxDir) (x : CpxArgs) : State × Except Exc (LineMap × LineMap) :=
  let ls (a : Nat) (g : Bool) : List Nat := if g then (List.range x.n).map fun i => a % 2 ^ 57 / 64 + i else []
  let (s1, r1) := tileLines s core c .write (ls x.dst (CpxDir.toGlobal dir))
  match r1 with
  | .error e => (s1, .error e)
  | .ok (m1, sp1) =>
    let (s2, r2) := tileLines s1 core c .read (ls x.src (CpxDir.fromGlobal dir))
    match r2 with
    | .error e => (s2, .error e)
    | .ok (m2, sp2) =>
      match sp1 ++ sp2 with
      | ln :: _ => (s2, .error (spRefusal (canon (64 * ln)).toNat))
      | [] => (s2, .ok (m1, m2))

def chkCpx (dir : CpxDir) (d a k : Nat) : Check := fun s core _ c =>
  let x := cpxArgs s c d a k
  if full s core .cp then (s, .hold)
  else
    match (cpxTests s core c dir x).find? fun t => !t.1 with
    | some t => (s, .fault t.2)
    | none =>
      match cpxLines s core c dir x with
      | (s', .error e) => (s', .fault e)
      | (s', .ok _) => (s', .go)

def execCpx (dir : CpxDir) (d a k : Nat) (s : State) : Out :=
  onTile s (chkCpx dir d a k) fun s core n c =>
    let x := cpxArgs s c d a k
    match (cpxLines s core c dir x).2 with
    | .error _ => s
    | .ok (m1, m2) =>
      let base := (winOfCtx s core c).1
      let side (g : Bool) (m : LineMap) (a i : Nat) : Space × Nat :=
        if g then (.global, kget 0 m (a % 2 ^ 57 / 64 + i)) else (.scratch core, base + a + 64 * i)
      let lane (i : Nat) : CopyLane :=
        { lane := i
          src := some (side (CpxDir.fromGlobal dir) m2 x.src i)
          dst := some (side (CpxDir.toGlobal dir) m1 x.dst i)
          len := 64 }
      (countMap (countMap s core m1) core m2).addTileCopy core n c ((List.range x.n).map lane) .cpx (kkeys m1 ++ kkeys m2)

end Sys2Proof.Machine
end

