-- ==== Sys2Proof/Machine/Engines.lean ====
section
/-! DEFINITION. The engines of the tile set: what an operation uses, when it may perform, and what it does (R161 to R168, R173 to
R180). -/

namespace Sys2Proof.Machine

/-! ### What an operation reads and writes (R161) -/

/-- The slots, banks and scratchpad ranges that an operation reads and writes. -/
structure Uses where
  rslots : List Nat := []
  wslots : List Nat := []
  rbanks : List Nat := []
  wbanks : List Nat := []
  rscr : List (Nat × Nat) := []
  wscr : List (Nat × Nat) := []
  deriving DecidableEq, Repr

/-- The scratchpad ranges of a copy's side. -/
def scratchSide (l : List CopyLane) (side : CopyLane → Option (Space × Nat)) : List (Nat × Nat) :=
  l.filterMap fun x => match side x with | some (.scratch _, a) => some (a, x.len) | _ => none

def Copy.uses (c : Copy) : Uses :=
  { rslots := c.srcSlot.toList, rscr := scratchSide c.lanes (·.src), wscr := scratchSide c.lanes (·.dst) }

/-- What a queued operation uses; a CPX's ranges stand with its copy. -/
def QOp.uses (s : State) (q : QOp) : Uses :=
  match q.op with
  | .mma d a b _ | .mmas d a b _ => { rslots := [a, b], rbanks := [d], wbanks := [d] }
  | .azero d | .anorm d | .aresc d _ _ => { rbanks := [d], wbanks := [d] }
  | .trn d a => { rslots := [a], wslots := [d] }
  | .cpin d _ _ _ => { wslots := [d] }
  | .cpout x _ _ _ => { rslots := [x] }
  | .cpx => match q.copy.bind fun i => kfind s.copies i with | some c => c.uses | none => {}
  | .tclaim n | .trel n => { wslots := [n] }
  | .tcseal => {}
  | .ardCe b d => { rbanks := [b], wslots := [d] }
  | .ard b off mode => { rbanks := [b], wscr := [(off, imageSize mode)] }
  | .awr d off mode => { rbanks := [d], wbanks := [d], rscr := [(off, awrSize mode)] }

/-- Whether two lists of byte ranges overlap. -/
def rangesMeet (a b : List (Nat × Nat)) : Bool := a.any fun x => b.any fun y => x.1 < y.1 + y.2 && y.1 < x.1 + x.2

/-- Whether a later operation must wait for an earlier one. -/
def Uses.blocks (e l : Uses) : Bool :=
  let meet (a b : List Nat) : Bool := a.any fun x => b.contains x
  meet e.wslots (l.rslots ++ l.wslots) || meet e.rslots l.wslots || meet e.wbanks (l.rbanks ++ l.wbanks) || meet e.rbanks l.wbanks ||
  rangesMeet e.wscr (l.rscr ++ l.wscr) || rangesMeet e.rscr l.wscr

/-- The queued operations of a core. -/
def Core.ops (x : Core) : List QOp := x.mxq ++ x.txq ++ x.cpq ++ x.arq ++ x.awq

/-- Whether an operation still waits for an earlier one of its context (R161). -/
def opWaits (s : State) (core : Nat) (q : QOp) : Bool :=
  let u := q.uses s
  ((s.core core).ops.any fun e => e.ctx = q.ctx && e.order < q.order && (e.uses s).blocks u) ||
  s.copies.any fun p => p.2.tileOp && p.2.core = core && p.2.frag = q.ctx && p.2.order < q.order && !copyQueued s p.1 p.2 && p.2.uses.blocks u

/-! ### The copy engine (R165 to R168) -/

/-- A byte of a CPIN's source. -/
def cpinByte (s : State) (c : Copy) (m : LineMap) (va : Nat) : Nat :=
  let ln := va / 64
  match c.lanes.find? fun l => l.lane = (kkeys m).findIdx (· = ln) with
  | some l => (copyByte s c l (va % 64)).toNat
  | none => 0

/-- A stored element of a CPIN's source (R165). -/
def cpinElem (s : State) (c : Copy) (d : CopyDesc) (m : LineMap) (r k : Nat) : Nat :=
  let at_ (i : Nat) : Nat := cpinByte s c m (d.rowAt r + i)
  match d.format.container with
  | 16 => at_ (2 * k) + 256 * at_ (2 * k + 1)
  | 8 => at_ k
  | _ => at_ (k / 2) / 16 ^ (k % 2) % 16

/-- The elements that CPIN writes, by slot position, and the flags (R167). -/
def cpinSlot (s : State) (c : Copy) (d : CopyDesc) (t : Bool) (m : LineMap) : KMap Word × Word :=
  let f := d.format
  (List.range d.rows).foldl (fun st r =>
    (List.range d.cols).foldl (fun (st : KMap Word × Word) k =>
      let sc := if f.bsz = 0 then none else some (cpinByte s c m (d.scaleAt r + k / f.block))
      let x := f.expand (cpinElem s c d m r k) sc
      (kset 0 st.1 (if t then 64 * k + r else 64 * r + k) x.1, st.2 ||| x.2)) st) ([], 0)

/-- Whether a format's elements are of 8 bits or fewer (R163). -/
def FmtReg.isNarrow (f : FmtReg) : Bool := f.kind ≤ 2

def doCpin (s : State) (core : Nat) (q : QOp) (d : Nat) (x : CopyDesc) (t : Bool) (m : LineMap) : State :=
  match q.copy.bind fun i => (kfind s.copies i).map fun c => (i, c) with
  | none => s
  | some (i, c) =>
    let r := cpinSlot s c x t m
    ((s.setSlot core d ((kget {} (s.core core).slots d).fill r.1 x.format.isNarrow)).tileFlags core q.ctx r.2).completeCopy i c

/-- A row as CPOUT writes it: its encoded elements, its scale bytes and the flags (R168); `ent` gives scale bytes that the rule does not. -/
def cpoutRow (ent : Nat → Nat) (d : CopyDesc) (t : Bool) (rm : Nat) (sl : Slot) (r : Nat) : List Nat × List Nat × Word :=
  let f := d.format
  let el (k : Nat) : Word := if t then sl.at k r else sl.at r k
  let blk (b : Nat) : List Word := ((List.range d.cols).filter fun k => k / f.block = b).map el
  let scales := (List.range d.blocks).map fun b => f.scaleByte (ent (64 * r + b)) (blk b)
  let sc (k : Nat) : Int := if f.bsz = 0 then 0 else (scales.getD (k / f.block) 127 : Int) - 127
  let xs := (List.range d.cols).map fun k => f.write rm (sc k) (el k)
  (xs.map (·.1), scales, xs.foldl (fun w x => w ||| x.2) 0)

/-- Containers packed into bytes (R165). -/
def packRow (container : Nat) : List Nat → List Byte
  | [] => []
  | [x] => if container = 16 then toBytes x 2 else toBytes x 1
  | x :: y :: l =>
    if container = 16 then toBytes x 2 ++ packRow 16 (y :: l)
    else if container = 8 then toBytes x 1 ++ packRow 8 (y :: l)
    else toBytes (x % 16 + 16 * (y % 16)) 1 ++ packRow 4 l

/-- The lanes that write bytes from a virtual address on, one for each 64-byte line, with their bytes at hand. -/
def outLanes (m : LineMap) (va : Nat) (bs : List Byte) : List CopyLane :=
  (lines64 [(va, bs.length)]).map fun ln =>
    let lo := max va (64 * ln)
    let hi := min (va + bs.length) (64 * ln + 64)
    let key := kget 0 m ln + lo % 64
    { lane := 0
      src := some (.global, key)
      dst := some (.global, key)
      len := hi - lo
      got := (List.range (hi - lo)).map fun i => (key + i, bs.getD (lo - va + i) 0) }

/-- The lanes of a row: its bytes, a last byte whose high nibble is kept, and its scales. -/
def rowLanes (d : CopyDesc) (m : LineMap) (r : Nat) (row : List Nat × List Nat × Word) : List CopyLane :=
  let cont := d.format.container
  let bs := packRow cont row.1
  let half : Bool := cont = 4 && d.cols % 2 = 1
  let body := if half then bs.take (bs.length - 1) else bs
  outLanes m (d.rowAt r) body ++
  (if half then (outLanes m (d.rowAt r + body.length) (bs.drop body.length)).map fun l => { l with low := true } else []) ++
  outLanes m (d.scaleAt r) (row.2.1.map fun x => BitVec.ofNat 8 x)

/-- CPOUT reads its slot; its lanes then make their Captures. -/
def doCpout (s : State) (core : Nat) (q : QOp) (sl : Nat) (x : CopyDesc) (t : Bool) (m : LineMap) : State :=
  match q.copy.bind fun i => (kfind s.copies i).map fun c => (i, c) with
  | none => s
  | some (i, c) =>
    let slot := kget {} (s.core core).slots sl
    let rows : List (List Nat × List Nat × Word) := (List.range x.rows).map fun r => cpoutRow (fun n => Config.freeNat s.ctr (20000 + n)) x t (profileOf q.np).acvt slot r
    let lanes := rows.zipIdx.flatMap fun p => rowLanes x m p.2 p.1
    let lanes := lanes.zipIdx.map fun p => { p.1 with lane := p.2 }
    { s with copies := kinsert s.copies i { c with lanes, srcSlot := some sl } }.tileFlags core q.ctx (rows.foldl (fun (w : Word) (r : List Nat × List Nat × Word) => w ||| r.2.2) 0)

/-! ### The other engines -/

def State.setBank (s : State) (core d : Nat) (b : Bank) : State :=
  let x := s.core core
  s.setCore core { x with banks := kset {} x.banks d b }

def bankOf (s : State) (core d : Nat) : Bank := kget {} (s.core core).banks d

/-- A bank operation: the bank, and flags into the context. -/
def bankOp (s : State) (core : Nat) (q : QOp) (d : Nat) (r : Bank × Word) : State := (s.setBank core d r.1).tileFlags core q.ctx r.2

/-- What an entry becomes whose sum leaves 64 bits although the headroom suffices: the rules do not say (R173). -/
def openEntry (s : State) (n : Nat) : Nat := Config.freeNat s.ctr (10000 + n)
/-- Which flags of the roundings to M, Q16 and P are raised, which the rules do not name (R174, R176). -/
def openFlags (s : State) : Word := Config.freeReg s.ctr 60 0

/-- An AWR's image. -/
def imageAt (s : State) (core off n : Nat) : List Byte := (List.range n).map fun i => s.rdScratch core (off + i)

/-- ARD into a window (R178, R179). -/
def doArd (s : State) (core : Nat) (q : QOp) (b off mode : Nat) : State :=
  let rm := (profileOf q.np).acvt
  let bank := bankOf s core b
  let r := match mode with
    | 1 => bank.image rm fp32 4
    | 2 => bank.image rm bf16 2
    | 3 => bank.image rm fp16 2
    | _ => (bank.raw, 0)
  (s.wrScratch core (r.1.zipIdx.map fun p => (off + p.2, p.1))).tileFlags core q.ctx r.2

/-- Whether a context holds a slot, or has issued a TCLAIM of it that has not performed: a TREL issued before that does not free it (R164). -/
def claimed (s : State) (core ctx n : Nat) : Bool :=
  ((s.ctxAt core ctx).map fun c => c.held.getLsbD n).getD false || (s.core core).cpq.any fun e => e.ctx = ctx && e.op = .tclaim n

/-- One operation performs (R164, R167, R168, R172 to R180). -/
def performOp (s : State) (core : Nat) (q : QOp) : State :=
  let p := profileOf q.np
  let slot (n : Nat) : Slot := kget {} (s.core core).slots n
  let env := FEnv.of (((s.ctxAt core q.ctx).map (·.mode)).getD 1) 0
  match q.op with
  | .mma d a b k => bankOp s core q d ((bankOf s core d).mma (openEntry s) p k (slot a) (slot b))
  | .mmas d a b k => bankOp s core q d ((bankOf s core d).mmas (openEntry s) (openFlags s) p env k (slot a) (slot b))
  | .azero d => bankOp s core q d (bankOf s core d).azero
  | .anorm d => bankOp s core q d ((bankOf s core d).anorm (openEntry s) p)
  | .aresc d mode x => bankOp s core q d ((bankOf s core d).aresc (openFlags s) p env mode x)
  | .trn d a => s.setSlot core d ((slot d).transposeOf (slot a))
  | .cpin d x t m => doCpin s core q d x t m
  | .cpout sl x t m => doCpout s core q sl x t m
  | .cpx => s
  | .tclaim n => s.setSlot core n (slot n).clear
  | .trel n =>
    if claimed s core q.ctx n then s
    else s.setSlot core n { slot n with holder := none }
  | .tcseal => s
  | .ardCe b d =>
    let r := (bankOf s core b).elements p.acvt
    (s.setSlot core d ((slot d).fill r.1 false)).tileFlags core q.ctx r.2
  | .ard b off mode => doArd s core q b off mode
  | .awr d off mode =>
    let im := imageAt s core off (awrSize mode)
    let b := bankOf s core d
    bankOp s core q d (match mode with
      | 0 => b.awrRaw im
      | 1 => b.awrAdd (openEntry s) im
      | _ => b.awrF32 p im)

/-- The operation at the head of an engine's queue performs, or starts when it is a copy, once those it must follow have completed
(R161). -/
def execEngineOperation (core : Nat) (e : Engine) (s : State) : Out :=
  machineMove s (
    match (s.core core).engq e with
    | [] => s
    | q :: r =>
      if opWaits s core q then s
      else performOp (s.setCore core ((s.core core).setEngq e r)) core q)

end Sys2Proof.Machine
end

