-- ==== Sys2Proof/Machine/Ordering.lean ====
section
/-! DEFINITION. FENCE, FWAIT, REL and ACQ with the fence's completion (R212 to R217). -/

namespace Sys2Proof.Machine

/-- The accesses of a fragment that a FENCE covers: its loads with LD, its stores and atomics with ST (R215). -/
def Wave.covered (w : Wave) (fr : Frag) (ld st : Bool) : List Nat :=
  (w.replay.filter fun e => e.frag = fr.num &&
    (match e.kind with | .load _ _ _ _ _ _ | .sumLoad _ _ _ => ld | .store _ | .atomic _ => st)).map (·.id)

/-- The copies of a fragment, sealed or not (R215). -/
def Frag.copies (f : Frag) : List Nat := f.unsealed ++ f.batches.flatMap (·.2)

/-- A token (R216). -/
def fenceToken (seq idx : Nat) : Word := BitVec.ofNat 32 (seq * 8 + idx)

def execFence (ld st cp : Bool) (d : Nat) (sc : Scope) (s : State) : Out :=
  onFrag s fun k w fr =>
    match (List.range 8).find? fun i => !(kget {} w.fences i).pending with
    | none => s
    | some i =>
      let r : FenceRec :=
        { seq := w.fenceSeq
          frag := fr.num
          pending := true
          scope := s.resolve w sc
          pub := st || cp
          entries := w.covered fr ld st
          copies := if cp then fr.copies.filter fun c => (kfind s.copies c).isSome else [] }
      let w1 := { w with
        fences := kinsert w.fences i r
        fenceSeq := if w.fenceSeq = 2 ^ 29 - 1 then 1 else w.fenceSeq + 1 }
      advance s k (w1.wrS d (fenceToken w.fenceSeq i)) fr 8

/-- A fence completes once nothing that it covers is left; with ST or CP the core then publishes its task's entries. -/
def execFenceComplete (wave idx : Nat) (s : State) : Out :=
  machineMove s (
    match kfind s.waves wave with
    | none => s
    | some w =>
      let r : FenceRec := kget {} w.fences idx
      if !w.resident || !r.pending || r.open w s.copies then s
      else
        let s1 := s.setWave wave { w with fences := kinsert w.fences idx { r with pending := false } }
        (if r.pub then s1.publish w.core r.scope w.task [fragKey wave r.frag] else s1).wake wave)

def execFwait (a : Nat) (s : State) : Out :=
  onFrag s fun k w fr =>
    let t := (rdS s w 1 a).toNat
    let r : FenceRec := kget {} w.fences (t % 8)
    if r.pending && t / 8 ≠ 0 && r.seq == t / 8 then waitAt s k fr (.fwait (t % 8) (t / 8))
    else advance s k w fr 8

def execRel (sc : Scope) (s : State) : Out :=
  onFrag s fun k w fr =>
    if fr.quiet then (advance s k w fr 8).releaseAt k w fr (s.resolve w sc) else waitAt s k fr .rel

/-- Refresh(S) for the fragment's core; at system scope it also empties the instruction cache (R255). -/
def State.acquireAt (s : State) (core : Nat) (sc : Scope) : State :=
  let s1 := s.refresh core sc
  if sc = .system then s1.setCore core { s1.core core with icache := [] } else s1

def execAcq (sc : Scope) (s : State) : Out :=
  onFrag s fun k w fr => (advance s k w fr 8).acquireAt w.core (s.resolve w sc)

end Sys2Proof.Machine
end

