-- ==== Sys2Proof/Machine/Gate.lean ====
section
/-! DEFINITION. The gate: layout maps (R187, R188), GATE and its opening (R186, R190 to R195), TRGATE (R193), and the bundle kinds
of a cushion (R236 to R238). -/

namespace Sys2Proof.Machine

/-! ### Layout maps (R187, R188) -/

/-- A layout map's fields; NREG, ROWS and COLS as counts. -/
structure MapDesc where
  kind : Nat
  ret : Bool
  vb : Nat
  nreg : Nat
  tgt : Nat
  rows : Nat
  cols : Nat
  rsel : List Nat
  csel : List Nat
  deriving DecidableEq, Repr

def mapDesc (m : LayoutMap) : MapDesc :=
  let n := m.toNat
  { kind := bits n 2 0
    ret := bit n 3
    vb := bits n 14 4
    nreg := bits n 20 15 + 1
    tgt := bits n 24 21
    rows := bits n 30 25 + 1
    cols := bits n 36 31 + 1
    rsel := (List.range 6).map fun i => bits n (41 + 5 * i) (37 + 5 * i)
    csel := (List.range 6).map fun i => bits n (71 + 5 * i) (67 + 5 * i) }

/-- Whether a map's registers come in packed pairs. -/
def MapDesc.packed (m : MapDesc) : Bool := 4 ≤ m.kind

/-- A source point: lane, gate-wave ordinal, register offset, half. -/
structure Point where
  l : Nat
  g : Nat
  q : Nat
  h : Nat
  deriving DecidableEq, Repr

/-- The source bit that a selector names. -/
def Point.src (p : Point) (sel : Nat) : Bool :=
  if sel ≤ 4 then bit p.l sel
  else if sel ≤ 10 then bit p.g (sel - 5)
  else if sel ≤ 16 then bit p.q (sel - 11)
  else if sel = 17 then p.h = 1
  else false

/-- A coordinate from its six selectors. -/
def Point.coord (p : Point) (sels : List Nat) : Nat := sels.zipIdx.foldl (fun n x => if p.src x.1 then n + 2 ^ x.2 else n) 0

/-- The tile position of a point that is mapped. -/
def MapDesc.pos (m : MapDesc) (p : Point) : Option (Nat × Nat) :=
  let r := p.coord m.rsel
  let c := p.coord m.csel
  let named (i : Nat) : Bool := m.rsel.contains i || m.csel.contains i
  if (List.range 18).all (fun i => named i || !p.src i) && r < m.rows && c < m.cols then some (r, c) else none

/-- The mapped points of one wave's masked lanes, each with its position. -/
def MapDesc.points (m : MapDesc) (g : Nat) (mask : Word) : List (Point × Nat × Nat) :=
  (lanesOf mask).flatMap fun l => (List.range m.nreg).flatMap fun q =>
    (List.range (if m.packed then 2 else 1)).filterMap fun h => (m.pos { l, g, q, h }).map fun x => ({ l, g, q, h }, x)

/-! ### The waves of a part -/

/-- The waves of a block's part on a core in ascending %wave, those that have ended too: their places are the ordinals (R188). -/
def partWaves (s : State) (core task blk : Nat) : List (Nat × Wave) :=
  s.waves.filter fun p => p.2.task = task && p.2.blk = blk && p.2.core = core

/-- A wave's gate mask (R190). -/
def gateMask (w : Wave) : Word := w.frags.foldl (fun m f => m ||| f.mask) 0

/-- Whether a wave has arrived at the GATE at `pc`. One without a fragment that has not ended, its accesses outstanding, has not: the model's
choice (log entry 84). -/
def arrived (w : Wave) (pc : DWord) : Bool := w.frags ≠ [] && w.frags.all fun f => f.st = .waiting .gate && f.pc = pc

/-! ### GATE (R186, R190) -/

/-- A wave's maps by an index of GATE; 31 names none. -/
def mapAt (s : State) (task i : Nat) : Option MapDesc := (((kfind s.tasks task).bind fun t => t.desc.maps[i]?)).map mapDesc

/-- GATE stays Issuing until the fragment's results have landed, its LC, SC and KC are 0 and a request entry is free (R56, R190). -/
def execGate (d a n : Nat) (imm : Word) (in0 in1 out0 out1 : Nat) (s : State) : Out :=
  onFrag s fun k w fr =>
    let t := fr.pc + imm.signExtend 64
    if w.trapSave.isSome then takeTrap s k w fr { kind := 0x03, detail := 1 }
    else if canon t.toNat ≠ t then takeTrap s k w fr { kind := 0x11, addr := t.toNat, detail := 1 }
    else if t.toNat % 32 ≠ 0 then takeTrap s k w fr { kind := 0x11, addr := t.toNat, detail := 3 }
    else if w.inflight ≠ [] || w.flagPend ≠ [] then s
    else if !fr.quiet || !roomFor s w.core 1 then s
    else
      let g : GateCall := { d, a, n, target := t, in0, in1, out0, out1, iw0 := s.cur.iw0, iw1 := s.cur.iw1 }
      waitAt (s.setWave k (w.modFrag fr.num fun f => { f with xc := f.xc + 1, phase := .gated g })) k fr .gate

/-! ### The opening (R191, R192, R194, R195) -/

/-- Canon: a register's element as a canonical element (R191). -/
def canonOf (m : MapDesc) (mode x : Word) (h : Nat) : Word × Word :=
  let half : Nat := (x.toNat >>> (16 * h)) % 2 ^ 16
  match m.kind with
  | 0 => ceOf 1 (fp32.read (modeF32Sub mode) x.toNat)
  | 1 | 4 => ceOf 1 (bf16.read (modeH16Sub mode) half)
  | 2 | 5 => ceOf 1 (fp16.read (modeH16Sub mode) half)
  | _ => ceOf 1 (intFVal (signed x.toNat 8))

/-- What the entry maps gather from the gating waves: elements by slot position, and the flags. -/
def gather64 (s : State) (m : MapDesc) (ws : List (Nat × Wave)) : KMap Word × Word :=
  ws.foldl (fun st p =>
    (m.points p.1 (gateMask p.2)).foldl (fun (st : KMap Word × Word) x =>
      let v := rdF s p.2 (64 * p.1 + x.1.q) (m.vb + x.1.q) x.1.l
      let e := canonOf m p.2.mode v x.1.h
      (kset 0 st.1 (64 * x.2.1 + x.2.2) e.1, st.2 ||| e.2)) st) ([], 0)

/-- Row i of a return map's bank is live when a mapped point of a gated lane has it (R192). -/
def liveRows (m : MapDesc) (ws : List (Nat × Wave)) : BitVec 64 :=
  ws.foldl (fun b p => (m.points p.1 (gateMask p.2)).foldl (fun b x => b ||| (1#64 <<< x.2.1)) b) 0

/-- The gate of a block's part on a core, ready to open: its grant, the gating waves by ordinal, and the lead's call. -/
structure Opening where
  grant : Grant
  idx : Nat
  ws : List (Nat × Nat × Wave)
  lead : Wave
  pc : DWord
  call : GateCall
  ctx : Nat
  deriving DecidableEq, Repr

def openable (s : State) (core task blk : Nat) : Option Opening :=
  match kfind s.tasks task with
  | none => none
  | some t =>
    let ws := (partWaves s core task blk).zipIdx.filterMap fun p => if p.1.2.ended then none else some (p.2, p.1.1, p.1.2)
    match ws, (t.grants.zipIdx.find? fun g => g.1.core = core && g.1.blk = blk),
        (List.range 4).find? fun n => (kfind (s.core core).ctxs n).isNone with
    | (_, _, w) :: _, some (g, idx), some n =>
      match w.frags with
      | f :: _ =>
        match f.phase with
        | .gated call =>
          let free (i : Nat) : Bool :=
            match mapAt s task i with
            | some m => (kget {} (s.core core).slots m.tgt).holder = none
            | none => true
          if t.st = .resident && t.endFault.isNone && (ws.all fun p => arrived p.2.2 f.pc) && free call.in0 && free call.in1 &&
              !((s.core core).ctxs.any fun p => p.2.task = task && p.2.blk = blk) then
            some { grant := g, idx, ws, lead := w, pc := f.pc, call, ctx := n }
          else none
        | _ => none
      | [] => none
    | _, _, _ => none

/-- The cores of a task's cushion, if it has one. -/
def cushionOf (s : State) (task : Nat) : List Nat := kget [] s.cushions task

/-- When the gates of every core have opened, the cushion is coupled at the lead's target (R236). -/
def formCushion (s : State) (task : Nat) : State :=
  let cores := cushionOf s task
  let mine := cores.flatMap fun d =>
    ((s.core d).ctxs.filter fun p => p.2.task = task && p.2.cush = .forming).map fun p => (d, p.1, p.2.pc)
  match mine with
  | (_, _, pc) :: _ =>
    if mine.length = cores.length then mine.foldl (fun s m => s.modCtx m.1 m.2.1 fun c => { c with pc, cush := .coupled }) s else s
  | [] => s

/-- The gate frame of an opening (R195). Its bytes are a write of the scheduler, to H and the views wider than a core (log entry 10). -/
def openFrame (o : Opening) (live0 live1 : BitVec 64) : GateFrame :=
  { gpc := o.pc
    wmask := o.ws.foldl (fun b p => b ||| (1#64 <<< p.1)) 0
    ctx := o.ctx
    nw := o.ws.length
    ext := bits o.call.iw1.toNat 20 0
    live0
    live1
    iw0 := o.call.iw0
    iw1 := o.call.iw1
    lmask := o.ws.foldl (fun m p => kset 0 m p.1 (gateMask p.2.2)) [] }

/-- Fills the slot of an entry map, held as a gate slot. -/
def fillEntry (s : State) (core task : Nat) (o : Opening) (i : Nat) : State × Word :=
  match mapAt s task i with
  | none => (s, 0)
  | some m =>
    let r := gather64 s m (o.ws.map fun p => (p.1, p.2.2))
    let y : Slot := kget {} (s.core core).slots m.tgt
    (s.setSlot core m.tgt { (y.fill r.1 (m.kind = 3)) with holder := some o.ctx }, r.2)

/-- Opens a gate: atomic (R191), with the release and acquire of R194. -/
def openGate (s : State) (core task : Nat) (o : Opening) : State :=
  let sc := s.resolve o.lead .block
  let whos := o.ws.flatMap fun p => p.2.2.frags.map fun f => fragKey p.2.1 f.num
  let s0 := (s.publish core sc task whos).refresh core sc
  let (s1, f0) := fillEntry s0 core task o o.call.in0
  let (s2, f1) := fillEntry s1 core task o o.call.in1
  let slotBit (i : Nat) : BitVec 16 := match mapAt s task i with | some m => 1#16 <<< m.tgt | none => 0
  let ws := o.ws.map fun p => (p.1, p.2.2)
  let live (i : Nat) : BitVec 64 := match mapAt s task i with | some m => liveRows m ws | none => BitVec.allOnes 64
  let setLive (s : State) (i : Nat) : State :=
    match mapAt s task i with
    | some m => s.setBank core (o.grant.bankBase + m.tgt) { bankOf s core (o.grant.bankBase + m.tgt) with live := live i }
    | none => s
  let s3 := setLive (setLive s2 o.call.out0) o.call.out1
  let va : DWord := ((kfind s.tasks task).map fun t => t.frame.va + BitVec.ofNat 64 (t.frame.gates + 384 * o.idx)).getD 0
  let cush := cushionOf s task
  let c : TileCtx :=
    { task
      blk := o.grant.blk
      part := o.grant.part
      x := (List.range o.call.n).foldl (fun m i => kset 0 m i (rdS2 s o.lead (16 + i) (o.call.a + 2 * i))) []
      pc := o.call.target
      mode := o.lead.mode
      flags := f0 ||| f1
      trapen := o.lead.trapen
      rank := cush.findIdx (· = core) % max 1 cush.length
      gframeVa := va
      gateSlots := slotBit o.call.in0 ||| slotBit o.call.in1
      bankBase := o.grant.bankBase
      bankCount := o.grant.nbank
      frame := openFrame o (live o.call.out0) (live o.call.out1)
      call := o.call
      waves := o.ws.map (·.2.1)
      cush := if cush = [] then .none else .forming }
  formCushion ((s3.setCtx core o.ctx c).writeGateFrame core o.ctx) task

/-- A gate opens once every wave of the part that has not ended has arrived, a context is free and the entry slots are unheld. -/
def execGateOpen (core task blk : Nat) (s : State) : Out :=
  machineMove s (match openable s core task blk with | some o => openGate s core task o | none => s)

/-! ### TRGATE (R193, R194) -/

/-- TRGATE waits for the context's operations and copies; a held slot faults. -/
def chkTrgate : Check := fun s core n c =>
  if busy s core n .mx || busy s core n .tx || busy s core n .cp || busy s core n .ar || busy s core n .aw then (s, .hold)
  else
    match lowestBit c.held.toNat 16 with
    | some i => (s, .fault (slotExc 5 i 0))
    | none => (s, .go)

/-- The scatter of a return map into one wave: its registers and the flags (R193). -/
def scatter (m : MapDesc) (b : Bank) (rm g : Nat) (mask : Word) (w : Wave) : Wave × Word :=
  (m.points g mask).foldl (fun st x =>
    let f := match m.kind with | 0 => fp32 | 1 | 4 => bf16 | _ => fp16
    let r := b.acvt rm f x.2.1 x.2.2
    let key := vkey (m.vb + x.1.q) x.1.l
    let old := (kget 0 st.1.vreg key).toNat
    let v := if !m.packed then r.1 else if x.1.h = 0 then old / 2 ^ 16 * 2 ^ 16 + r.1 else r.1 * 2 ^ 16 + old % 2 ^ 16
    ({ st.1 with vreg := kset 0 st.1.vreg key (BitVec.ofNat 32 v) }, st.2 ||| r.2)) (w, 0)

/-- A gating wave takes a return map's scatter. -/
def scatterWave (s : State) (core : Nat) (c : TileCtx) (i k : Nat) : State × Word :=
  match mapAt s c.task i, kfind s.waves k with
  | some m, some w =>
    let g := (partWaves s core c.task c.blk).findIdx fun p => p.1 = k
    let r := scatter m (bankOf s core (c.bankBase + m.tgt)) (profileOf s.cur.np).acvt g (kget 0 c.frame.lmask g) w
    (s.setWave k r.1, r.2)
  | _, _ => (s, 0)

/-- A gating fragment goes on after its GATE. -/
def regate (s : State) (k n : Nat) : State :=
  (s.modWave k fun w => w.modFrag n fun f => { (f.drop .xc) with pc := pcAdd f.pc 16, phase := .none }).ready k n

/-- A gating wave takes x0 and the context's flags, and its fragments return to Ready. -/
def releaseWave (s : State) (c : TileCtx) (fl : Word) (k : Nat) : State :=
  match kfind s.waves k with
  | none => s
  | some w =>
    let w1 := (w.wrS2 c.call.d (kget 0 c.x 0)).raiseNow (c.flags ||| fl)
    (w.frags.map (·.num)).foldl (fun s n => regate s k n) (s.setWave k w1)

/-- Frees a context with its gate slots; its banks have every row live again. -/
def freeCtx (s : State) (core n : Nat) (c : TileCtx) : State :=
  let s1 := ((List.range 16).filter fun i => c.gateSlots.getLsbD i || c.held.getLsbD i).foldl (fun s i =>
    s.setSlot core i { (kget {} (s.core core).slots i : Slot) with holder := none }) s
  let s2 := (List.range c.bankCount).foldl (fun s i =>
    s.setBank core (c.bankBase + i) { bankOf s core (c.bankBase + i) with live := BitVec.allOnes 64 }) s1
  let x := s2.core core
  s2.setCore core { x with ctxs := kerase x.ctxs n }

/-- The scope that block scope means for a context's block (R211). -/
def ctxScope (s : State) (core : Nat) (c : TileCtx) : Scope := s.resolve (noWave core c) .block

/-- When every member's line is raised the lead resumes the broadcast after its REJOIN. -/
def rejoinAll (s : State) (core n : Nat) (c : TileCtx) : State :=
  let ms := s.members core n c
  match ms with
  | [] => s
  | l :: _ =>
    match s.ctxAt l.1 l.2 with
    | none => s
    | some lead =>
      if ms.all fun m => ((s.ctxAt m.1 m.2).map (·.cush)) = some .raised then
        ms.foldl (fun s m => s.modCtx m.1 m.2 fun c => { c with pc := pcAdd lead.pc 32, cush := .coupled }) s
      else s

/-- TRGATE. A decoupled member that leaves its cushion so may leave one whose lines are all raised (R238). -/
def execTrgate (s : State) : Out :=
  onTile s chkTrgate fun s core n c =>
    let maps := [c.call.out0, c.call.out1]
    let (s1, fl) := c.waves.foldl (fun (st : State × Word) k =>
      maps.foldl (fun st i => let r := scatterWave st.1 core c i k; (r.1, st.2 ||| r.2)) st) (s, 0)
    let sc := ctxScope s core c
    let s2 := (s1.publish core sc c.task [ctxKey c.task c.blk c.part]).refresh core sc
    let s3 := freeCtx (c.waves.foldl (fun s k => releaseWave s c fl k) s2) core n c
    if c.cush = .decoupled then rejoinAll s3 core n c else s3

/-! ### DECOUPLE and REJOIN (R238) -/

/-- DECOUPLE ends the broadcast for a coupled member; elsewhere it acts as TNOP. -/
def execDecouple (s : State) : Out :=
  onTile s anyway fun s core n c =>
    s.setCtx core n { c with pc := pcAdd c.pc 32, cush := if c.cush = .coupled then .decoupled else c.cush }

/-- A decoupled member waits for its operations and copies, and then with its line raised. -/
def chkRejoin : Check := fun s core n c =>
  match c.cush with
  | .decoupled =>
    if busy s core n .mx || busy s core n .tx || busy s core n .cp || busy s core n .ar || busy s core n .aw then (s, .hold) else (s, .go)
  | .raised => (s, .hold)
  | _ => (s, .go)

def execRejoin (s : State) : Out :=
  onTile s chkRejoin fun s core n c =>
    if c.cush = .decoupled then
      let c' := { c with cush := .raised }
      rejoinAll (s.setCtx core n c') core n c'
    else s.setCtx core n { c with pc := pcAdd c.pc 32 }

end Sys2Proof.Machine
end

