-- ==== Sys2Proof/Machine/Frames.lean ====
section
/-! DEFINITION. A task's frame: its bytes (R355 to R360), and the saving and restoring of waves, windows, buffers, slots, banks and
tile contexts (R361, R362). -/

namespace Sys2Proof.Machine

/-! ### Bytes (R355 to R360) -/

/-- `n` zero bytes with fields written into them. -/
def layout (n : Nat) (fs : List (Nat × List Byte)) : List Byte :=
  let m : KMap Byte := fs.foldl (fun m f => f.2.zipIdx.foldl (fun m b => kset 0 m (f.1 + b.2) b.1) m) []
  (List.range n).map fun i => kget 0 m i

/-- A token's image (R55). -/
def Token.image (t : Token) : List Byte :=
  toBytes (t.st.toNat * 2 ^ 62 + t.exp.toNat * 2 ^ 57 + t.jpc.toNat) 8 ++ toBytes (t.arr.toNat * 2 ^ 32 + t.ipm.toNat) 8 ++
  toBytes t.ipc.toNat 8

/-- The mask of pending batches. -/
def pendingMask (s : State) (b : KMap (List Nat)) : Nat :=
  b.foldl (fun m p => if copiesDone s p.2 then m else m + 2 ^ p.1) 0

def unsealedFlag (l : List Nat) : Nat := if l = [] then 0 else 1

/-- A token's keeper (R356). -/
def keeperImage (s : State) (t : Token) : List Byte :=
  toBytes t.lc 2 ++ toBytes t.sc 2 ++ toBytes t.kc 2 ++ toBytes t.xc 2 ++ toBytes t.nums.toNat 2 ++ toBytes (t.out.getD 0xFF) 1 ++
  toBytes (pendingMask s t.batches) 1 ++ toBytes (unsealedFlag t.unsealed) 1 ++ toBytes 0 3

/-- State codes of fragment entries. -/
def FragSt.code : FragSt → Nat
  | .ready => 1 | .waiting _ => 2 | .parked _ => 3 | .parkedFree _ => 3 | .issuing => 4

/-- A fragment's entry with its queue position (R356). -/
def fragImage (s : State) (f : Frag) (qpos : Nat) : List Byte :=
  toBytes f.pc.toNat 8 ++ toBytes f.mask.toNat 4 ++ toBytes f.lc 2 ++ toBytes f.sc 2 ++ toBytes f.kc 2 ++ toBytes f.xc 2 ++
  toBytes f.num 1 ++ toBytes (FragSt.code f.st) 1 ++ toBytes qpos 1 ++ toBytes (f.tok.getD 0xFF) 1 ++ toBytes (pendingMask s f.batches) 1 ++
  toBytes (unsealedFlag f.unsealed) 1 ++ toBytes 0 6

/-- A fence record's 8 bytes (R356). -/
def fenceImage (r : FenceRec) : List Byte :=
  toBytes (r.seq + (if r.pending then 2 ^ 29 else 0) + scopeNum r.scope * 2 ^ 32 + (if r.pub then 2 ^ 35 else 0)) 8

/-- The load entries of a wave, in list order. -/
def Wave.loads (w : Wave) : List Entry :=
  w.replay.filter fun e => match e.kind with | .load _ _ _ _ _ _ | .sumLoad _ _ _ => true | _ => false

/-- The physical address of an access: a storage address is the pinned form of its line (R251). -/
def accessPa (sp : Space) (a : Nat) : Nat := match sp with | .scratch c => scratchKey c a | _ => a

def Ctr.code : Ctr → Nat
  | .lc => 0 | .sc => 1 | .kc => 2 | .xc => 3

/-- A load entry (R357); a SUMLD has no D operand (R297). -/
def entryImage (w : Wave) (e : Entry) : List Byte :=
  let parts : List LaneAcc := match e.kind with
    | .load _ _ _ _ _ p => p.flatMap (·.2)
    | .sumLoad _ a _ => [{ lane := 0, space := .global, addr := a }]
    | _ => []
  let d : Nat := match e.kind with | .load _ d _ _ _ _ => d | _ => 0
  let fences := (List.range 8).foldl (fun m i =>
    let r : FenceRec := kget {} w.fences i
    if r.pending && r.entries.contains e.id then m + 2 ^ i else m) 0
  layout 320
    ([(0, toBytes e.op 2), (2, toBytes e.mode 1), (3, toBytes e.frag 1), (4, toBytes d 2), (6, toBytes (Ctr.code e.ctr) 1), (7, toBytes fences 1),
      (8, toBytes (maskOf (parts.map (·.lane))).toNat 4), (12, toBytes (if e.cells = [] then 0 else 1) 1), (16, toBytes e.pc.toNat 8)] ++
     parts.filterMap fun p => p.addr.map fun a => (64 + 8 * p.lane, toBytes (accessPa p.space a) 8))

/-- Thirty-two lanes of registers from field `f` on. -/
def lanesImage (w : Wave) (f n : Nat) : List Byte :=
  (List.range n).flatMap fun i => (List.range 32).flatMap fun l => toBytes (w.vraw (f + i) l).toNat 4

/-- Whether a wave is the lead of a gate whose next bundle may pass the watch units once (R191, R367). -/
def State.bundleSkip (s : State) (w : Wave) : Bool :=
  s.cores.any fun c => c.2.ctxs.any fun x => x.2.wskip.isSome && (x.2.waves.head?.bind fun k => kfind s.waves k) = some w

/-- A wave record (R356). `qpos` gives a fragment's place in its partition's queue. -/
def waveImage (s : State) (w : Wave) (qpos : Nat → Nat) : List Byte :=
  let loads := w.loads
  let b (c : Bool) : Nat := if c then 1 else 0
  let tr := w.trapSave
  let saved : List Word := match w.watchRec, tr with | some l, _ => l | none, some t => t.words | none, none => []
  layout 6208
    ([(0, toBytes (6208 + 128 * w.alloc + 320 * loads.length) 8), (8, toBytes w.idx 2), (10, toBytes (w.alloc / 8) 1),
      (11, toBytes w.frags.length 1), (13, toBytes (b tr.isSome + 2 * b (w.frags.any (·.wskip.isSome) || s.bundleSkip w) + 4 * b w.step) 1),
      (14, toBytes loads.length 2), (16, toBytes w.mode.toNat 4), (20, toBytes w.flags.toNat 4), (24, toBytes w.trapen.toNat 4),
      (28, toBytes w.remain.toNat 4), (32, toBytes w.lpart 1), (33, toBytes w.cond.toNat 1), (40, toBytes w.trapbase.toNat 8),
      (48, toBytes w.fenceSeq 4), (192, imageOf saved),
      (256, (List.range 4).flatMap fun i => toBytes (w.cursor.n.getD i 0) 2),
      (264, toBytes ((List.range 4).foldl (fun m i => m + w.cursor.perm.getD i 0 * 4 ^ i) 0) 1), (266, toBytes w.cursor.pc 2),
      (272, toBytes w.cursor.i 4), (276, toBytes w.cursor.hi 4), (280, toBytes (b w.cursor.valid) 1),
      (1472, toBytes ((w.npFault.map (·.2.toNat)).getD 0) 8), (1480, toBytes ((w.npFault.map (·.1)).getD 0xFF) 1),
      (1600, (List.range 512).flatMap fun i => toBytes (w.sraw i).toNat 4), (3648, lanesImage w 1536 16), (5696, lanesImage w 1552 4)] ++
     (match tr with
      | some t => [(128, toBytes t.pc.toNat 8), (136, toBytes t.mask.toNat 4), (140, toBytes t.frag 1)]
      | none => []) ++
     (List.range 8).map (fun i => (64 + 8 * i, fenceImage (kget {} w.fences i))) ++
     (List.range 16).map (fun i => (320 + 24 * i, (w.tok i).image)) ++
     (List.range 16).map (fun i => (704 + 16 * i, keeperImage s (w.tok i))) ++
     w.frags.map (fun f => (960 + 32 * f.num, fragImage s f (qpos f.num))) ++
     (List.range 7).map fun i => (1536 + 4 * i, toBytes (kget 0 w.preds i).toNat 4)) ++
  lanesImage w 0 w.alloc ++ loads.flatMap (entryImage w)

/-- A circular-buffer descriptor (R146). -/
def CBuf.image (c : CBuf) : List Byte :=
  toBytes ((if c.v then 2 ^ 31 else 0) + c.base) 4 ++ toBytes (c.nsl * 2 ^ 12 + c.ssz) 4 ++ toBytes (c.fill * 2 ^ 16 + c.free) 4 ++
  toBytes (c.prd * 2 ^ 24 + c.cmt * 2 ^ 16 + c.cns * 2 ^ 8 + c.rlf) 4 ++ toBytes (c.rh * 2 ^ 16 + c.wh) 4 ++ toBytes 0 12 ++
  toBytes (c.marks.foldl (fun m i => m ||| 2 ^ i) 0) 32

/-- A block record (R358); the buffers of a partition that the part does not use are zero. -/
def blockImage (s : State) (t : Nat) (x : Task) (blk : Nat) : List Byte :=
  let parts := x.grants.filter fun g => g.blk = blk
  let key := barBlock t blk
  let arr := (blockWaves s t blk).foldl (fun m w => if !w.ended && w.arrivedAt key (s.barC key) then m + 2 ^ w.idx else m) 0
  let body := parts.flatMap fun g =>
    (g.cbs.flatMap fun c => (kget {} (s.core g.core).cbufs c : CBuf).image) ++
    ((List.range 4).flatMap fun p => (List.range x.desc.nsum).flatMap fun i =>
      let b : SumBuf := (((kget [] g.sums p)[i]?).map fun n => kget [] (kget {} (s.core g.core).parts p).sums n).getD []
      (List.range 4096).map fun i => kget 0 b i) ++
    (List.range g.winLen).map fun i => s.rdScratch g.core (g.winBase + i)
  toBytes (64 + body.length) 8 ++ toBytes (blockNum s t blk) 4 ++ toBytes parts.length 1 ++ toBytes x.desc.ncb 1 ++ toBytes x.desc.nsum 1 ++
  toBytes 0 1 ++ toBytes (s.barC key) 4 ++ toBytes 0 12 ++ toBytes arr 32 ++ body

/-- An operand slot's 16,640 bytes (R359). -/
def slotImage (x : Slot) : List Byte :=
  ((List.range 4096).flatMap fun i => toBytes (kget 0 x.elems i).toNat 4) ++
  ((List.range 64).flatMap fun i => toBytes (wrap (kget (-4096) x.rmax i) 16) 2) ++
  (List.range 64).flatMap fun i => toBytes (wrap (kget (-4096) x.cmax i) 16) 2

/-- A bank's 34,880 bytes (R359). -/
def bankImage (b : Bank) : List Byte := b.raw ++ toBytes b.live.toNat 8 ++ toBytes 0 56

/-- The slots that a context holds or has from its gate. -/
def TileCtx.slots (c : TileCtx) : List Nat := (List.range 16).filter fun i => c.holds i

/-- A tile-context record (R359). -/
def tileImage (s : State) (core n part : Nat) (c : TileCtx) : List Byte :=
  let b (x : Bool) : Nat := if x then 1 else 0
  let slot (i : Nat) : Slot := kget {} (s.core core).slots i
  let tags := c.slots.foldl (fun m i => if (slot i).narrow then m + 2 ^ i else m) 0
  let body := (c.slots.flatMap fun i => slotImage (slot i)) ++ (List.range c.bankCount).flatMap fun i => bankImage (bankOf s core (c.bankBase + i))
  layout 576
    [(0, toBytes (576 + body.length) 8), (8, toBytes part 1), (9, toBytes n 1), (10, toBytes c.held.toNat 2), (12, toBytes c.gateSlots.toNat 2),
     (14, toBytes c.bankCount 1),
     (15, toBytes (b c.stopped + 2 * b (c.cush = .coupled) + 4 * b (c.cush = .decoupled || c.cush = .raised) + 8 * b c.step) 1),
     (16, toBytes c.pc.toNat 8), (24, toBytes c.gframeVa.toNat 8), (32, toBytes c.mode.toNat 4), (36, toBytes c.flags.toNat 4),
     (40, toBytes c.trapen.toNat 4), (44, toBytes (pendingMask s c.batches) 1), (45, toBytes (unsealedFlag c.unsealed) 1), (48, toBytes tags 2),
     (64, (List.range 64).flatMap fun i => toBytes (kget 0 c.x i).toNat 8)] ++ body

/-- The tile contexts of a task: core, number, part index in the gang, context. -/
def taskCtxs (s : State) (t : Nat) (x : Task) : List (Nat × Nat × Nat × TileCtx) :=
  x.grants.zipIdx.flatMap fun g =>
    ((s.core g.1.core).ctxs.filter fun p => p.2.task = t && p.2.blk = g.1.blk && p.2.part = g.1.part).map fun p => (g.1.core, p.1, g.2, p.2)

/-- The waves of a task that have not ended. -/
def liveWaves (s : State) (t : Nat) : List (Nat × Wave) := s.waves.filter fun p => p.2.task = t && !p.2.ended

/-- A fragment's place in its partition's queue. -/
def queuePos (s : State) (k : Nat) (w : Wave) (n : Nat) : Nat :=
  (kget {} (s.core w.core).parts w.part).queue.findIdx fun q => q = (k, n)

/-- The running copies of a task: each with its owner's part index and its batch, or 8 (R360). -/
def runningCopies (s : State) (t : Nat) (x : Task) : List (Nat × Nat × Nat) :=
  (taskCtxs s t x).flatMap fun (p : Nat × Nat × Nat × TileCtx) =>
    let c : TileCtx := p.2.2.2
    let l : List (Nat × Nat) := (c.batches.flatMap fun (b : Nat × List Nat) => b.2.map fun i => (i, b.1)) ++ c.unsealed.map fun i => (i, 8)
    l.filterMap fun q => if (kfind s.copies q.1).isSome then some (q.1, p.2.2.1, q.2) else none

/-- CAUSE (R355). -/
def causeByte (x : Task) : Nat :=
  (if x.pf then 1 else 0) + (if x.halt then 2 else 0) + (if x.slice then 4 else 0) + (if x.stepF then 8 else 0)

/-- The frame from its header to its copy table, and the offset of the copy table. -/
def frameImage (s : State) (t : Nat) (x : Task) : List Byte × Nat :=
  let ws := liveWaves s t
  let ctxs := taskCtxs s t x
  let copies := runningCopies s t x
  let wb := ws.flatMap fun p => waveImage s p.2 (queuePos s p.1 p.2)
  let bb := (List.range x.nblk).flatMap (blockImage s t x)
  let tb := ctxs.flatMap fun p => tileImage s p.1 p.2.1 p.2.2.1 p.2.2.2
  let cb := copies.flatMap fun c => toBytes 2 1 ++ toBytes c.2.1 1 ++ toBytes 0 2 ++ toBytes c.2.2 1 ++ toBytes 0 11
  let boff := 64 + wb.length
  let toff := boff + bb.length
  let coff := toff + tb.length
  let gba := (List.range x.nblk).foldl (fun m b => if blockArrived s t b (barGang t) = some true then m + 2 ^ b else m) 0
  let hd := toBytes t 4 ++ toBytes (causeByte x) 1 ++ toBytes x.nblk 1 ++ toBytes ws.length 2 ++ toBytes ctxs.length 1 ++ toBytes 0 3 ++
    toBytes (s.barC (barGang t)) 4 ++ toBytes gba 1 ++ toBytes 0 3 ++ toBytes copies.length 4 ++ toBytes 64 8 ++ toBytes boff 8 ++
    toBytes toff 8 ++ toBytes coff 8 ++ toBytes s.time.toNat 8
  (hd ++ wb ++ bb ++ tb ++ cb, coff)

/-! ### Saving (R361) -/

/-- What a grant holds, for the frame; banks that no open context has are kept for the part's next gate (R192, log entry 80). -/
def saveGrant (s : State) (d : FrameData) (g : Grant) : FrameData :=
  let gated := (s.core g.core).ctxs.any fun p => p.2.bankBase = g.bankBase && p.2.blk = g.blk && p.2.part = g.part
  let banks : List SavedBanks :=
    if gated || g.nbank = 0 then []
    else [{ blk := g.blk, part := g.part, banks := (List.range g.nbank).map fun i => bankOf s g.core (g.bankBase + i) }]
  let win : Memory := ((s.core g.core).scratch.filter fun p => g.winBase ≤ p.1 && p.1 < g.winBase + g.winLen).map fun p => (p.1 - g.winBase, p.2)
  let x := s.core g.core
  let cb (c : Nat × Nat) : SavedCb :=
    { blk := g.blk
      part := g.part
      n := c.2
      buf := kget {} x.cbufs c.1
      writers := kget [] x.cbWriters c.1
      readers := kget [] x.cbReaders c.1 }
  let cbs := g.cbs.zipIdx.map cb
  let sums := g.sums.flatMap fun p => p.2.zipIdx.map fun n =>
    ({ blk := g.blk, part := g.part, prt := p.1, n := n.2, buf := kget [] (kget {} (s.core g.core).parts p.1).sums n.1 } : SavedSum)
  { d with
    windows := d.windows ++ [{ blk := g.blk, part := g.part, bytes := win }]
    cbufs := d.cbufs ++ cbs
    sums := d.sums ++ sums
    banks := d.banks ++ banks }

/-- A tile context with its slots and banks, for the frame. -/
def saveTile (s : State) (d : FrameData) (p : Nat × Nat × Nat × TileCtx) : FrameData :=
  let c := p.2.2.2
  let slots := c.slots.foldl (fun m i => kinsert m i (kget {} (s.core p.1).slots i)) []
  let banks := (List.range c.bankCount).map fun i => bankOf s p.1 (c.bankBase + i)
  { d with tiles := d.tiles ++ [{ blk := c.blk, part := c.part, ctx := c, slots, banks }] }

/-- Frees what a grant holds on its core (R361 step 8); the TLB sets go with the launch's last block there (R256). -/
def freeGrant (s : State) (t launch : Nat) (g : Grant) : State :=
  let x := s.core g.core
  let ctxs := x.ctxs.filter fun p => p.2.task = t && p.2.blk = g.blk && p.2.part = g.part
  let s1 := ctxs.foldl (fun s p => freeCtx s g.core p.1 p.2) s
  let others := s1.tasks.any fun p => p.1 ≠ t && p.2.launch = launch && p.2.st = .resident && p.2.grants.any fun h => h.core = g.core
  let y := s1.core g.core
  let parts := y.parts.map fun p => (p.1, { p.2 with queue := p.2.queue.filter fun q => ((kfind s1.waves q.1).map (·.task)) ≠ some t })
  let waits (m : KMap (List CbWaiter)) : KMap (List CbWaiter) := g.cbs.foldl (fun m c => kerase m c) m
  let y1 := { y with
    cbufs := g.cbs.foldl (fun m c => kerase m c) y.cbufs
    cbWriters := waits y.cbWriters
    cbReaders := waits y.cbReaders
    parts
    tlbs := if others then y.tlbs else kerase y.tlbs launch }
  s1.setCore g.core y1

/-- A wave leaves its core: parked fragments and queue waiters leave their lists. -/
def State.leaveCore (s : State) (k : Nat) : State :=
  let s1 := s.unpark k
  { s1 with qwaits := s1.qwaits.filterMap fun p =>
      let l := p.2.filter fun x => x.1 ≠ k
      if l = [] then none else some (p.1, l) }

/-- The cores of a task. -/
def taskCores (x : Task) : List Nat := (x.grants.map (·.core)).eraseDups

/-- Copies that keep a task on its cores: those with a slot or scratchpad side (R361 step 4). -/
def boundCopy (c : Copy) : Bool :=
  !c.tileOp || c.lanes.any fun l =>
    (match l.src with | some (.scratch _, _) => true | _ => false) || (match l.dst with | some (.scratch _, _) => true | _ => false) ||
    c.srcSlot.isSome

/-- Whether a task's engine operations, bound copies and atomics have all completed (R361 steps 3 to 5). -/
def settledTask (s : State) (t : Nat) (x : Task) : Bool :=
  ((taskCtxs s t x).all fun p => (s.core p.1).ops.all fun q => q.ctx ≠ p.2.1) &&
  (s.copies.all fun p => p.2.task ≠ t || !boundCopy p.2) &&
  (liveWaves s t).all fun p => p.2.replay.all fun e => match e.kind with | .atomic _ => false | _ => true

/-- Every wave's results land and its stores perform, and its cores publish at system scope (R361 steps 2, 5, 6). -/
def settleTask (s : State) (t : Nat) (x : Task) : State :=
  let ks := (liveWaves s t).map (·.1)
  let s1 := ks.foldl (fun s k => (s.modWave k Wave.land).captureAll k) s
  (taskCores x).foldl (fun s c => s.publish c .system t []) s1

/-- Writes the frame and takes the task off its cores (R361 steps 7, 8). -/
def writeFrame (s : State) (t : Nat) (x : Task) : State :=
  let (bytes, coff) := frameImage s t x
  let copies := runningCopies s t x
  let s0 := (taskCtxs s t x).foldl (fun s p => s.modCtx p.1 p.2.1 fun c => { c with frame := { c.frame with bpc := c.pc } }) s
  let ctxs := taskCtxs s0 t x
  let data := ctxs.foldl (saveTile s0) (x.grants.foldl (saveGrant s0) {})
  let queues := (liveWaves s t).flatMap fun p => p.2.frags.map fun f => (p.1, f.num, queuePos s p.1 p.2 f.num)
  let own (k : Nat) : Bool := ((kfind s.waves k).map (·.task)) = some t
  let qwaits := s.qwaits.filterMap fun p =>
    let l := p.2.filter fun q => own q.1
    if l = [] then none else some (p.1, l)
  let s1 := s0.writeFrameAt t 0 bytes
  let s2 := ctxs.foldl (fun s p => s.writeGateFrame p.1 p.2.1) s1
  let late (p : Nat × Copy) : Nat × Copy :=
    match copies.findIdx? (fun (c : Nat × Nat × Nat) => c.1 = p.1) with
    | some i => (p.1, { p.2 with ctxCore := 256, late := some (coff + 16 * i) })
    | none => p
  let s3 : State := { s2 with copies := s2.copies.map late }
  let ks := (s3.waves.filter fun p => p.2.task = t).map (·.1)
  let s4 := ks.foldl (fun s k => (s.leaveCore k).modWave k fun w => { w with resident := false }) s3
  let s5 := x.grants.foldl (fun s g => freeGrant s t x.launch g) s4
  s5.modTask t fun y => { y with grants := [], data := { data with queues, qwaits, grants := x.grants } }

/-! ### Restoring (R362) -/

/-- An offset of an old window in the new placement: the load entries that address scratchpads follow their windows. -/
def moveSpace (old new : List Grant) (sp : Space) (a : Nat) : Space × Nat :=
  match sp with
  | .scratch c =>
    match old.find? fun g => g.core = c && g.winBase ≤ a && a < g.winBase + g.winLen with
    | some g =>
      match new.find? fun h => h.blk = g.blk && h.part = g.part with
      | some h => (.scratch h.core, a - g.winBase + h.winBase)
      | none => (sp, a)
    | none => (sp, a)
  | _ => (sp, a)

/-- The number in its new partition of a summary buffer that a wave of partition `prt` had under `n`. -/
def moveSum (og ng : Option Grant) (prt n : Nat) : Nat :=
  let nums (g : Option Grant) : List Nat :=
    match g with
    | none => []
    | some g => ((kfind g.sums prt).or (g.sums.head?.map (·.2))).getD []
  (nums ng).getD ((nums og).findIdx fun i => i = n) n

/-- A load entry reissued: what had been read of it is read again, and a SUMLD fills the buffer that the block has now. -/
def reissue (old new : List Grant) (sum : Nat → Nat) (e : Entry) : Entry :=
  match e.kind with
  | .load sc d width regs t parts =>
    let lane (x : LaneAcc) : LaneAcc :=
      match x.addr with
      | some a => let r := moveSpace old new x.space a; { x with space := r.1, addr := some r.2, got := [] }
      | none => x
    { e with kind := .load sc d width regs t (parts.map fun p => (p.1, p.2.map lane)), earlier := [] }
  | .sumLoad n a _ => { e with kind := .sumLoad (sum n) a [], earlier := [] }
  | _ => e

/-- A hardware queue's key in the new placement. -/
def moveQueue (old new : List Grant) (q : Nat) : Nat :=
  match moveSpace old new (.scratch (q / 2 ^ 20)) (q % 2 ^ 20) with
  | (.scratch c, a) => scratchKey c a
  | _ => q

/-- What a restored fragment is: one that was issuing returns to its queue's head and a parked one replays its load; every other is as it
was saved (R60, R286, R356). -/
def FragSt.restored (queue : Nat → Nat) : FragSt → FragSt
  | .issuing | .parked _ | .parkedFree _ => .ready
  | .waiting (.queue q) => .waiting (.queue (queue q))
  | st => st

/-- The fragment whose watch halt a record reports: the resume lets it pass the watch units once (R367). A record of a bundle names none. -/
def haltedFrag (rec : Option (List Word)) : Option Nat :=
  match rec with
  | some (_ :: who :: _) => if bit who.toNat 18 then none else some (bits who.toNat 11 8)
  | _ => none

/-- A wave on its new core, with its faulting instructions to be accepted afresh. -/
def restoreWave (old : List Grant) (g : Grant) (new : List Grant) (w : Wave) : Wave :=
  let og := old.find? fun h => h.blk = g.blk && h.part = g.part
  { w with
    core := g.core
    resident := true
    cur := none
    npFault := none
    watchRec := none
    frags := w.frags.map fun f =>
      { f with
        st := FragSt.restored (moveQueue old new) f.st
        wskip := if haltedFrag w.watchRec = some f.num then some f.pc else f.wskip }
    replay := w.replay.map (reissue old new (moveSum og (some g) w.part)) }

/-! ### Token images read back (R55) -/

/-- `n` bytes of a frame in memory, as a number. -/
def State.frameNat (s : State) (f : FrameLoc) (o n : Nat) : Nat := ofBytes ((List.range n).map fun j => s.rdH (FrameLoc.key f (o + j)))

/-- The three words of a token's image at an offset in a frame. -/
def tokenWords (s : State) (f : FrameLoc) (o : Nat) : Nat × Nat × Nat := (s.frameNat f o 8, s.frameNat f (o + 8) 8, s.frameNat f (o + 16) 8)

/-- Whether a token's image is one that a restore refuses. -/
def badToken (x : Nat × Nat × Nat) : Bool :=
  bits x.1 63 62 = 3 || 17 ≤ bits x.1 61 57 || bits x.1 56 54 ≠ 0 || bits x.2.2 63 54 ≠ 0 ||
  (bits x.1 63 62 = 2) != (bits x.2.1 31 0 ≠ 0)

/-- A token with the fields of its image. -/
def Token.ofImage (t : Token) (x : Nat × Nat × Nat) : Token :=
  { t with
    st := BitVec.ofNat 2 (bits x.1 63 62)
    exp := BitVec.ofNat 5 (bits x.1 61 57)
    jpc := BitVec.ofNat 54 (bits x.1 53 0)
    arr := BitVec.ofNat 32 (bits x.2.1 63 32)
    ipm := BitVec.ofNat 32 (bits x.2.1 31 0)
    ipc := BitVec.ofNat 54 (bits x.2.2 53 0) }

/-- Offsets of a task's wave records from its frame's base. -/
def waveOffsets : Nat → List (Nat × Wave) → List (Nat × Nat)
  | _, [] => []
  | o, (k, w) :: l => (k, o) :: waveOffsets (o + 6208 + 128 * w.alloc + 320 * w.loads.length) l

/-- A wave's tokens as its record at offset `o` holds them, and the lowest token that a restore refuses. -/
def readTokens (s : State) (w : Wave) (f : FrameLoc) (o : Nat) : Wave × Option Nat :=
  (List.range 16).foldl (fun st i =>
    let x := tokenWords s f (o + 320 + 24 * i)
    if badToken x then (st.1, st.2.or (some i)) else (st.1.setTok i ((st.1.tok i).ofImage x), st.2)) (w, none)

/-- Token misuse found by a restore, in the lowest-numbered fragment; the rules do not say which of R117's reasons it has (R55, log entry 80). -/
def tokenTrap (s : State) (k tok : Nat) : State :=
  match kfind s.waves k with
  | none => s
  | some w =>
    match w.frags.find? fun f => w.frags.all fun g => f.num ≤ g.num with
    | none => s
    | some f =>
      let s1 := if f.st = .ready then s.dequeue w.core w.part k f.num else s
      takeTrap { s1 with cur := {} } k w f { kind := 0x21, detail := tok + 16 * (1 + Config.freeNat s.ctr 9000 % 5) }

/-- The wave records' tokens return to the waves of a task; malformed ones trap. -/
def restoreTokens (s : State) (t : Nat) (f : FrameLoc) : State :=
  let at_ := waveOffsets 64 (liveWaves s t)
  let bad := at_.filterMap fun p => (kfind s.waves p.1).bind fun w => (readTokens s w f p.2).2.map fun i => (p.1, i)
  let s1 := at_.foldl (fun st p => st.modWave p.1 fun w => (readTokens s w f p.2).1) s
  bad.foldl (fun s p => tokenTrap s p.1 p.2) s1

/-- A grant's window with every byte zero. -/
def Core.clearWindow (x : Core) (g : Grant) : Core :=
  { x with scratch := x.scratch.filter fun p => !(g.winBase ≤ p.1 && p.1 < g.winBase + g.winLen) }

/-- Loads a grant's window and buffers from the frame. -/
def restoreGrant (s : State) (d : FrameData) (g : Grant) : State :=
  let own (b p : Nat) : Bool := b = g.blk && p = g.part
  let win := (d.windows.find? fun x => own x.blk x.part).map (·.bytes)
  let s0 := s.setCore g.core ((s.core g.core).clearWindow g)
  let s1 := s0.wrScratch g.core ((win.getD []).map fun p => (g.winBase + p.1, p.2))
  let s2 := (d.cbufs.filter fun x => own x.blk x.part).foldl (fun s x =>
    let c := s.core g.core
    let n := g.cbs.getD x.n 8
    s.setCore g.core { c with
      cbufs := kset {} c.cbufs n x.buf
      cbWriters := kset [] c.cbWriters n x.writers
      cbReaders := kset [] c.cbReaders n x.readers }) s1
  let s3 := (d.banks.filter fun x => own x.blk x.part).foldl (fun s x =>
    x.banks.zipIdx.foldl (fun s b => s.setBank g.core (g.bankBase + b.2) b.1) s) s2
  (d.sums.filter fun x => own x.blk x.part).foldl (fun s x =>
    let c := s.core g.core
    let p : Part := kget {} c.parts x.prt
    s.setCore g.core { c with parts := kinsert c.parts x.prt { p with sums := kset [] p.sums ((kget [] g.sums x.prt).getD x.n 4) x.buf } }) s3

/-- Loads a tile context from the frame into the lowest free context of its core, its slots and its banks; `was` is the core that it
left, `fresh` whether a bundle that has met a not-present fault is now accepted afresh by its whole team (R239, R261). Its copies that
have gone on are the new core's from now on (R219), and an RFT of its handler finds it there (R196). -/
def restoreTile (s : State) (was : Nat) (g : Grant) (fresh : Bool) (t : SavedTile) : State :=
  match (List.range 4).find? fun n => (kfind (s.core g.core).ctxs n).isNone with
  | none => s
  | some n =>
    let s1 := t.slots.foldl (fun s p => s.setSlot g.core p.1 { p.2 with holder := some n }) s
    let s2 := t.banks.zipIdx.foldl (fun s b => s.setBank g.core (g.bankBase + b.2) b.1) s1
    let c := { t.ctx with bankBase := g.bankBase, npFault := false, frame := { t.ctx.frame with ctx := n } }
    let c := if fresh then { c with stopped := false } else c
    let ids := c.unsealed ++ c.batches.flatMap (·.2)
    let mine (p : Nat × Copy) : Nat × Copy := if ids.contains p.1 then (p.1, { p.2 with core := g.core, ctxCore := g.core, frag := n }) else p
    let s3 : State := { s2 with copies := s2.copies.map mine }
    let follows (x : TrapSave) : TrapSave := if x.tile = some (was, t.ctx.frame.ctx) then { x with tile := some (g.core, n) } else x
    c.waves.foldl (fun s k => s.modWave k fun w => { w with trapSave := w.trapSave.map follows }) ((s3.setCtx g.core n c).writeGateFrame g.core n)

/-- A tile context's number in `Task.unresolved` after the restore of its task `t` from grants `old` to `new` (R261). -/
def movedKey (s : State) (t : Nat) (d : FrameData) (old new : List Grant) (key : Nat) : Nat :=
  let own (x : SavedTile) (g : Grant) : Bool := g.blk = x.blk && g.part = x.part
  let here (x : SavedTile) : Option Nat :=
    (new.find? (own x)).bind fun g =>
      ((s.core g.core).ctxs.find? fun p => p.2.task = t && p.2.blk = x.blk && p.2.part = x.part).map fun p => tileKey g.core p.1
  match d.tiles.find? fun x => (old.find? (own x)).map (fun g => tileKey g.core x.ctx.frame.ctx) = some key with
  | some x => (here x).getD key
  | none => key

/-- The fragments of a task in the order in which they return to their queues: those that were issuing first (R356). -/
def restoreOrder (s : State) (d : FrameData) : List (Nat × Nat) :=
  let cur (k n : Nat) : Bool := ((kfind s.waves k).bind (·.frag n)).map (·.st) = some .issuing
  let ins (x : Nat × Nat × Nat) (l : List (Nat × Nat × Nat)) : List (Nat × Nat × Nat) :=
    (l.takeWhile fun y => y.2.2 ≤ x.2.2) ++ x :: l.dropWhile fun y => y.2.2 ≤ x.2.2
  let sorted := d.queues.foldl (fun l x => ins x l) []
  ((sorted.filter fun x => cur x.1 x.2.1) ++ sorted.filter fun x => !cur x.1 x.2.1).map fun x => (x.1, x.2.1)

/-- Whether a waiting fragment goes on once its task is back: its condition holds, the phase in which it has arrived has completed
(at a second arrival, that of its first), or its queue has room (R228, R231, R333). -/
def restoredOver (s : State) (w : Wave) (f : Frag) : Bool :=
  match f.st, f.phase with
  | .waiting (.barrier key), .arrived c => s.barC key ≠ c
  | .waiting (.barrier key), _ => kfind f.arrivals key ≠ some (s.barC key)
  | .waiting (.enq q), .enq _ keys => !(s.queue q).noRoom keys.length
  | _, _ => waitOver s w f

/-- Restores a task on its new grants (R362): what its copies have captured since the save is published, each core makes its Refresh, and
everything returns from the frame. -/
def restoreTask (s : State) (t : Nat) (f : FrameLoc) (d : FrameData) (new : List Grant) : State :=
  let old := d.grants
  let s0 := ((old.map (·.core)).eraseDups).foldl (fun s c => s.publish c .system t []) s
  let s1 := ((new.map (·.core)).eraseDups).foldl (fun s c => s.acquireAt c .system) s0
  let s2 := new.foldl (fun s g => restoreGrant s d g) s1
  let fresh (x : SavedTile) : Bool := x.ctx.npFault || (x.ctx.cush ≠ .none && d.tiles.any fun y => y.ctx.cush ≠ .none && y.ctx.npFault)
  let s3 := d.tiles.foldl (fun s x =>
    let own (g : Grant) : Bool := g.blk = x.blk && g.part = x.part
    match new.find? own with
    | some g => restoreTile s (((old.find? own).map (·.core)).getD g.core) g (fresh x) x
    | none => s) s2
  let s3 := s3.modTask t fun x => { x with unresolved := x.unresolved.map (movedKey s3 t d old new) }
  let order := restoreOrder s3 d
  let wpc := max 1 (((kfind s3.tasks t).map (·.desc.wpc)).getD 1)
  let back (p : Nat × Wave) : Nat × Wave :=
    if p.2.task = t then
      match new.find? (fun (g : Grant) => g.blk = p.2.blk && g.part = p.2.idx / wpc) with
      | some g => (p.1, restoreWave old g new p.2)
      | none => p
    else p
  let s4 : State := { s3 with
    waves := s3.waves.map back
    qwaits := d.qwaits.foldl (fun m p => kinsert m (moveQueue old new p.1) (kget [] m (moveQueue old new p.1) ++ p.2)) s3.qwaits }
  let s5 := order.foldl (fun s q =>
    match (kfind s.waves q.1).bind (·.frag q.2) with
    | some f => if f.st = .ready then s.ready q.1 q.2 else s
    | none => s) s4
  let due := (liveWaves s5 t).flatMap fun p => (p.2.frags.filter (restoredOver s5 p.2)).map fun f => (p.1, f.num)
  restoreTokens (due.foldl (fun s q => s.ready q.1 q.2) s5) t f

end Sys2Proof.Machine
end

