-- ==== Sys2Proof/Machine/Packets.lean ====
section
/-! DEFINITION. Queues and command processors (R316 to R321, R327 to R331, R339, R340): levels and their windows, packet errors, and
the control packets. -/

namespace Sys2Proof.Machine

/-! ### Reads and addresses of the hub (R317) -/

/-- The hub's walker number. -/
def hubCore : Nat := 256

/-- The hub as a walker of an address space. -/
def hubWalker (asid : Nat) : Walker := { asid, core := hubCore }

/-- Reads `n` bytes at a virtual address line by line, or the kind of the fault. -/
def State.hubRead (s : State) (asid va : Nat) : Nat → State × Except Nat (List Byte)
  | 0 => (s, .ok [])
  | n + 1 =>
    let (s1, r) := s.translate (hubWalker asid) va .read false
    match r with
    | .error (k, _) => (s1, .error k)
    | .ok l =>
      let (s2, rest) := s1.hubRead asid (va + 1) n
      (s2, rest.map fun bs => s1.rdH l.key :: bs)

/-- Reads `64 × n` bytes at a multiple of 64, one translation for each line. -/
def State.hubLines (s : State) (asid va : Nat) : Nat → State × Except Nat (List Byte)
  | 0 => (s, .ok [])
  | n + 1 =>
    let (s1, r) := s.translate (hubWalker asid) va .read false
    match r with
    | .error (k, _) => (s1, .error k)
    | .ok l =>
      let (s2, rest) := s1.hubLines asid (va + 64) n
      (s2, rest.map fun bs => s1.rdHs l.key 64 ++ bs)

/-! ### Levels and numbers (R318, R319, R340) -/

/-- The number of a packet position, and the position of a number. -/
def Level.num (l : Level) (p : Nat) : Nat :=
  match l.rot with
  | none => p - l.org
  | some (a, e) => if l.org ≤ p && p < e then p - l.org else if a ≤ p && p < l.org then (e - l.org) + (p - a) else p - a

def Level.posOf (l : Level) (n : Nat) : Nat :=
  match l.rot with
  | none => l.org + n
  | some (a, e) => if n < e - l.org then l.org + n else if n < e - a then a + (n - (e - l.org)) else a + n

/-- Numbers the packets afresh from the current position, with an empty window (R319, R331, R340). -/
def Level.renumber (l : Level) : Level :=
  let rot := match l.loop with
    | some x => if 1 < x.left && x.first < l.pos then some (x.first, x.first + x.n) else none
    | none => none
  { l with window := [], org := l.pos, rot, hw := 0, fenced := false }

/-- Passes one packet, in execution order (R329). -/
def Level.pass (l : Level) : Level :=
  let l := { l with hw := max l.hw (l.num l.pos + 1), pos := l.pos + 1 }
  match l.loop with
  | none => l
  | some x =>
    if l.pos < x.first + x.n then l
    else if 1 < x.left then { l with pos := x.first, loop := some { x with left := x.left - 1 } }
    else { l with loop := none }

/-- Passes up to `n` packets, ending early at the level's end (R328). -/
def Level.passN (l : Level) (e : Nat) : Nat → Level
  | 0 => l
  | n + 1 => if l.pos < e then l.pass.passN e n else l

/-- Packets of the level: those written to the ring, or the buffer's length. -/
def levelEnd (x : Queue) (l : Level) : Nat := if l.ring then x.wptr else l.len

/-- Address of a packet: physical in the ring, virtual in a buffer (R316, R327). -/
def packetAddr (x : Queue) (l : Level) (p : Nat) : Nat := if l.ring then x.ring + 64 * (p % 2 ^ x.log) else l.base + 64 * p

/-- One 64-byte read of a packet from H (R317, R319). -/
def State.packetBytes (s : State) (x : Queue) (l : Level) (p : Nat) : State × List Byte :=
  let a := packetAddr x l p
  if l.ring then (s, s.rdHs (keyOf 0 a) 64)
  else
    match s.hubLines x.asid a 1 with
    | (s', .ok bs) => (s', bs)
    | (s', .error k) => (s', [BitVec.ofNat 8 k])

/-- Reads a packet of the top level into its window, in one move. -/
def State.readPacket (s : State) (q p : Nat) : State :=
  let x := s.queue q
  match x.levels with
  | [] => s
  | l :: r =>
    let (s1, bs) := s.packetBytes x l p
    { s1 with posn := s1.posn + 1 }.setQueue q { s1.queue q with levels := { l with window := kinsert l.window p bs } :: r }

/-- Reads those packets of the top level that have a number from `hw` to `hw + k` and are not read yet. -/
def State.fillTo (s : State) (q k : Nat) : State :=
  match (s.queue q).levels with
  | [] => s
  | l :: _ =>
    (List.range (k + 1)).foldl (fun s i =>
      let p := l.posOf (l.hw + i)
      match (s.queue q).levels with
      | m :: _ => if p < levelEnd (s.queue q) m && (kfind m.window p).isNone then s.readPacket q p else s
      | [] => s) s

/-- What must have been read before the next packet starts (R319, R339). -/
def State.fill (s : State) (q : Nat) : State := s.fillTo q 16

/-- What must be read as soon as it lies before the level's end: packets up to 16 behind one that has started (R319). -/
def State.takeIn (s : State) (q : Nat) : State :=
  match (s.queue q).levels with
  | l :: _ => if l.hw = 0 then s else s.fillTo q 15
  | [] => s

/-- A level when it is entered. -/
def newLevel (ring : Bool) (base len pos : Nat) : Level := { ring, base, len, pos, org := pos }

/-- A packet of the top level is read ahead: at most 17 beyond the last finished (R319). -/
def execPacketRead (queue level pos : Nat) (s : State) : Out :=
  .next (
    let x := s.queue queue
    match x.levels with
    | l :: _ =>
      if s.hub.on && !s.hub.frozen && x.st = 1 && level + 1 = x.levels.length && pos < levelEnd x l && (kfind l.window pos).isNone &&
          l.hw ≤ l.num pos && l.num pos ≤ l.hw + 16 && l.posOf (l.num pos) = pos then s.readPacket queue pos
      else s
    | [] => s)

/-! ### Finishing, returning, failing (R318, R321) -/

/-- Every ENQ that waits on a queue completes with status 1: the queue is no longer active (R333, R338). -/
def State.endEnqs (s : State) (q : Nat) : State :=
  s.waves.foldl (fun s p =>
    (p.2.frags.filter fun f => f.st = .waiting (.enq q)).foldl (fun s f =>
      let d := match f.phase with | .enq d _ => d | _ => 0
      let s1 := s.modWave p.1 fun w => (w.wrS d 1).modFrag f.num fun f => { f with pc := pcAdd f.pc 16, phase := .none, st := .ready }
      if p.2.resident then s1.ready p.1 f.num else s1) s) s

/-- Fragments that wait at ENQ for a queue look at it again (R333). -/
def State.pokeEnq (s : State) (q : Nat) : State :=
  s.waves.foldl (fun s p =>
    (p.2.frags.filter fun f => f.st = .waiting (.enq q) && p.2.resident).foldl (fun s f => s.ready p.1 f.num) s) s

/-- RPTR after a ring packet at `done` has finished. -/
def ringDone (x : Queue) (l : Level) (done : Nat) : Nat := min x.wptr (max x.rptr (if l.loop.isSome then done + 1 else l.pos))

/-- Levels whose last packet has finished return to their callers; each return finishes an IB. -/
def returnLevels (x : Queue) : Nat → Queue
  | 0 => x
  | n + 1 =>
    match x.levels with
    | l :: c :: r =>
      if l.len ≤ l.pos && !l.ring then
        let c1 := c.pass
        let x1 := if c.ring then { x with rptr := ringDone x c1 c.pos, finished := x.finished + 1 } else { x with finished := x.finished + 1 }
        returnLevels { x1 with levels := (if c.fenced then c1.renumber else c1) :: r } n
      else x
    | _ => x

/-- The top level takes a new state after the packet at `done` has finished. -/
def State.finishAt (s : State) (q done : Nat) (l : Level) : State :=
  let x := s.queue q
  let x1 := { x with levels := l :: x.levels.drop 1, polling := false, finished := x.finished + 1 }
  let x2 := if l.ring then { x1 with rptr := ringDone x1 l done } else x1
  ((s.setQueue q (returnLevels x2 4)).takeIn q).pokeEnq q

/-- The current packet finishes and the next follows. -/
def State.finish (s : State) (q : Nat) (l : Level) : State := s.finishAt q l.pos l.pass

/-- A packet error stops the queue (R321). `kind` is that of error 8. -/
def State.packetErr (s : State) (q code kind : Nat) : State :=
  let x := s.queue q
  match x.levels with
  | [] => s
  | l :: _ =>
    let bs := (kfind l.window l.pos).getD []
    let bs := if bs.length = 64 then bs.take 48 else List.replicate 48 0
    let rc := toBytes 0xFF 1 ++ toBytes code 1 ++ toBytes (x.levels.length - 1) 1 ++ toBytes (if code = 8 then kind else 0) 1 ++
      toBytes 0 4 ++ toBytes (packetAddr x l l.pos) 8 ++ bs
    let s1 := s.log q rc
    (s1.setQueue q { s1.queue q with st := 2, polling := false }).endEnqs q

/-- The queue that the current command processor executes, and its top level. -/
def onCp (s : State) (f : Nat → Queue → Level → State) : Out :=
  match s.cur.actor with
  | .cp q =>
    match (s.queue q).levels with
    | l :: _ => .next (f q (s.queue q) l)
    | [] => .refused .noIssuer
  | _ => .refused .noIssuer

/-! ### Words in memory (R328, R330) -/

/-- The test of PRED and WAITMEM on a word read now. -/
def MemTest.holds (t : MemTest) (word : Nat) : Bool :=
  let w := if t.wide then 64 else 32
  let x := (word % 2 ^ w) &&& (t.mask.toNat % 2 ^ w)
  let y := (t.ref.toNat % 2 ^ w) &&& (t.mask.toNat % 2 ^ w)
  match t.op with
  | 0 => x == y
  | 1 => x != y
  | 2 => x < y
  | 3 => y ≤ x
  | 4 => signed x w < signed y w
  | _ => signed y w ≤ signed x w

/-- Reads the tested word from H and tests it, or the kind of the fault (R317, R328). -/
def State.testWord (s : State) (asid : Nat) (t : MemTest) : State × Except Nat Bool :=
  let (s1, r) := s.translate (hubWalker asid) t.addr.toNat .read false
  match r with
  | .error (k, _) => (s1, .error k)
  | .ok l => ({ s1 with posn := s1.posn + 1 }, .ok (MemTest.holds t (ofBytes (s1.rdHs l.key (if t.wide then 8 else 4)))))

/-- Writes a word at a packet's scope (R330). -/
def State.writeWord (s : State) (asid : Nat) (a : DWord) (v n : Nat) (sc : Scope) : State × Except Nat Unit :=
  let (s1, r) := s.translate (hubWalker asid) a.toNat .write false
  match r with
  | .error (k, _) => (s1, .error k)
  | .ok l => (s1.move { src := 5, asid } ((toBytes v n).zipIdx.map fun p => (l.key + p.2, p.1)) (viewsCp sc), .ok ())

/-! ### Control packets (R327 to R331) -/

def execPacketNop (s : State) : Out := onCp s fun q _ l => s.finish q l

def execIb (addr : DWord) (len : Nat) (s : State) : Out :=
  onCp s fun q x l =>
    if 4 ≤ x.levels.length then s.packetErr q 5 0
    else
      let l1 := { l with hw := max l.hw (l.num l.pos + 1) }
      s.setQueue q { x with levels := newLevel false addr.toNat len 0 :: l1 :: x.levels.drop 1 }

def execPred (t : MemTest) (nskip : Nat) (s : State) : Out :=
  onCp s fun q x l =>
    match s.testWord x.asid t with
    | (s1, .error k) => s1.packetErr q 8 k
    | (s1, .ok b) => if b then s1.finish q l else s1.finishAt q l.pos (l.pass.passN (levelEnd x l) nskip)

/-- LOOP: the body lies in the level, and on the ring its last packet has been written (R318, R329). -/
def execPacketLoop (count nbody : Nat) (s : State) : Out :=
  onCp s fun q x l =>
    if l.loop.isSome then s.packetErr q 6 0
    else if levelEnd x l < l.pos + 1 + nbody then (if l.ring then s else s.packetErr q 4 0)
    else
      let l1 := l.pass
      if count = 0 then s.finishAt q l.pos (l1.passN (levelEnd x l) nbody)
      else s.finishAt q l.pos { l1 with loop := some { first := l1.pos, n := nbody, left := count } }

def execWrite (addr val : DWord) (sc : Scope) (wide : Bool) (s : State) : Out :=
  onCp s fun q x l =>
    match s.writeWord x.asid addr val.toNat (if wide then 8 else 4) sc with
    | (s1, .error k) => s1.packetErr q 8 k
    | (s1, .ok _) => s1.finish q l

/-- A read of a WAITMEM: it finishes at the first that meets its test (R318, R328). -/
def State.waitRead (s : State) (q : Nat) (x : Queue) (l : Level) (t : MemTest) : State :=
  match s.testWord x.asid t with
  | (s1, .error k) => s1.packetErr q 8 k
  | (s1, .ok true) => s1.finish q l
  | (s1, .ok false) => s1.setQueue q { s1.queue q with polling := true, lastPoll := s1.time.toNat }

def execWaitmem (t : MemTest) (s : State) : Out := onCp s fun q x l => s.waitRead q x l t

/-- The next read of a WAITMEM that waits, while its command processor may serve other queues. -/
def execWaitmemPoll (queue : Nat) (s : State) : Out :=
  .next (
    let x := s.queue queue
    match x.levels with
    | l :: _ =>
      match decodePacket ((kfind l.window l.pos).getD []) with
      | .ok (.waitmem t) => if s.hub.on && !s.hub.frozen && x.st = 1 && x.polling then s.waitRead queue x l t else s
      | _ => s
    | [] => s)

/-- Whether every launch that a queue has dispatched has retired or been killed (R330). -/
def State.drained (s : State) (q : Nat) : Bool := s.launches.all fun p => p.2.queue ≠ q || p.2.done

/-- The word of a COMPL with its status, which the write clears (R330). -/
def State.complete (s : State) (q : Nat) (addr seq : DWord) (sc : Scope) : State × Except Nat Unit :=
  let x := s.queue q
  let st := (if x.sawFault then 1 else 0) + (if x.sawKill then 2 else 0)
  match s.writeWord x.asid addr (seq.toNat % 2 ^ 56 + st * 2 ^ 56) 8 sc with
  | (s1, .ok _) => (s1.setQueue q { s1.queue q with sawFault := false, sawKill := false }, .ok ())
  | r => r

def execCompl (addr seq : DWord) (sc : Scope) (s : State) : Out :=
  onCp s fun q _ l =>
    if !s.drained q then s
    else
      match s.complete q addr seq sc with
      | (s1, .error k) => s1.packetErr q 8 k
      | (s1, .ok _) => s1.finish q l

def execTimed (t : DWord) (s : State) : Out := onCp s fun q _ l => if t ≤ s.time then s.finish q l else s

/-- FFENCE empties the windows of its queue: each level reads again from where it goes on (R331). -/
def execFfence (s : State) : Out :=
  onCp s fun q x l =>
    let rest := (x.levels.drop 1).map fun c => { c with window := [], fenced := true }
    (s.setQueue q { x with levels := l :: rest }).finishAt q l.pos l.pass.renumber

end Sys2Proof.Machine
end

