-- ==== Sys2Proof/Machine/Launches.lean ====
section
/-! DEFINITION. Kernel descriptors (R323, R187, R224), group and spore tables (R225, R226, R270, R305), what a launch is read from,
the launch table (R322, R326, R334), and ENQ (R332, R333). -/

namespace Sys2Proof.Machine

/-! ### The kernel descriptor (R323) -/

/-- Bytes of a descriptor with its buffers and maps, by its header. -/
def descSize (h : List Byte) : Nat := 64 + 32 * pf h 27 1 + 16 * pf h 28 1

/-- Whether a layout map is refused (R187). -/
def badMap (vregs nbank : Nat) (m : LayoutMap) : Bool :=
  let n := m.toNat
  let kind := bits n 2 0
  let sels := (List.range 12).map fun i => bits n (41 + 5 * i) (37 + 5 * i)
  let named := sels.filter (· ≠ 31)
  6 ≤ kind || (kind = 3 && bit n 3) || vregs < bits n 14 4 + bits n 20 15 + 1 || (bit n 3 && nbank ≤ bits n 24 21) ||
  named.any (fun x => 18 ≤ x) || (named.contains 17 && kind < 4) || named.eraseDups.length ≠ named.length || bits n 127 97 ≠ 0

/-- A buffer entry: its first scalar and its four words. -/
def bufEntry (d : List Byte) (i : Nat) : Nat × List Word :=
  let l := d.drop (64 + 32 * i)
  (pf l 16 2, (List.range 4).map fun j => BitVec.ofNat 32 (pf l (4 * j) 4))

/-- Whether buffer entries are refused: their scalars, zero bytes, and overlaps. -/
def badBufs (d : List Byte) (n : Nat) : Bool :=
  let at_ (i : Nat) : Nat := pf (d.drop (64 + 32 * i)) 16 2
  (List.range n).any fun i => at_ i % 4 ≠ 0 || 508 < at_ i || pf (d.drop (64 + 32 * i)) 18 14 ≠ 0 || (List.range i).any fun j => at_ j = at_ i

/-- A descriptor's fields. -/
def kdescOf (d : List Byte) : KDesc :=
  let nb := pf d 27 1
  { entry := BitVec.ofNat 64 (pf d 0 8)
    trapb := BitVec.ofNat 64 (pf d 8 8)
    nwave := pf d 16 2
    wpc := pf d 18 1
    cw := pf d 19 1
    vregs := pf d 20 2
    win := pf d 22 1
    ncb := pf d 23 1
    nbank := pf d 24 1
    nsum := pf d 25 1
    tlbs := pf d 26 1
    remain := BitVec.ofNat 32 (pf d 32 4)
    skew := BitVec.ofNat 32 (pf d 36 4)
    bufs := (List.range nb).map (bufEntry d)
    maps := (List.range (pf d 28 1)).map fun i => BitVec.ofNat 128 (pf (d.drop (64 + 32 * nb + 16 * i)) 0 16) }

/-- Cores that a block spans (R224). -/
def KDesc.span (k : KDesc) : Nat := ceilDiv k.nwave (max 1 k.wpc)

/-- Whether a descriptor is refused by its own fields (R53, R187, R224, R323); `d` holds descSize bytes. -/
def badDescriptor (d : List Byte) (gsz : Nat) : Bool :=
  let k := kdescOf d
  k.entry.toNat % 8 ≠ 0 || k.trapb.toNat % 8 ≠ 0 || k.nwave = 0 || 256 < k.nwave || k.wpc = 0 || 64 < k.wpc || 3 < k.cw ||
  k.vregs % 8 ≠ 0 || k.vregs < 8 || 1536 < k.vregs || 127 < k.win || 8 < k.ncb || 16 < k.nbank || 4 < k.nsum || 5 < k.tlbs ||
  32 < pf d 27 1 || 16 < pf d 28 1 || pf d 29 3 ≠ 0 || !skewOk k.cw k.skew.toNat || pf d 40 24 ≠ 0 ||
  badBufs d (pf d 27 1) || k.maps.any (badMap k.vregs k.nbank) ||
  4 < k.span || 8 < k.span * gsz || 16 < ceilDiv k.wpc 4 || 3072 < ceilDiv k.wpc 4 * k.vregs

/-- A launch that cannot start: descriptor refused, or an access of it faults. -/
inductive Refuse
  | refused | fault (kind : Nat)
  deriving DecidableEq, Repr

/-- Reads and checks a kernel descriptor. -/
def State.readDesc (s : State) (asid va gsz : Nat) : State × Except Refuse KDesc :=
  match s.hubLines asid va 1 with
  | (s1, .error k) => (s1, .error (.fault k))
  | (s1, .ok h) =>
    if 32 < pf h 27 1 || 16 < pf h 28 1 then (s1, .error .refused)
    else
      match s1.hubLines asid va (ceilDiv (descSize h) 64) with
      | (s2, .error k) => (s2, .error (.fault k))
      | (s2, .ok d) => if badDescriptor d gsz then (s2, .error .refused) else (s2, .ok (kdescOf d))

/-! ### The tables (R225, R226, R270, R305) -/

/-- Whether block indices rise strictly and lie within the launch. -/
def risingBlocks (nblk : Nat) : List Nat → Bool
  | [] => true
  | [x] => x < nblk
  | x :: y :: r => x < y && risingBlocks nblk (y :: r)

/-- Reads `n` 32-bit block indices. -/
def blockList (bs : List Byte) (n : Nat) : List Nat := (List.range n).map fun i => pf bs (4 * i) 4

/-- Reads the group table: members by group (R225, R226). -/
def State.readGroups (s : State) (asid gtab nblk : Nat) : State × Except Refuse (KMap (List Nat)) :=
  if gtab = 0 then (s, .ok [])
  else
    match s.hubRead asid gtab 4096 with
    | (s1, .error k) => (s1, .error (.fault k))
    | (s1, .ok tb) =>
      let r := (List.range 256).foldl (fun (st : State × Except Refuse (KMap (List Nat))) i =>
        match st.2 with
        | .error _ => st
        | .ok m =>
          let e := tb.drop (16 * i)
          let n := pf e 8 4
          if pf e 12 4 ≠ 0 || 2 ^ 24 < n || (n ≠ 0 && !canonical (pf e 0 8)) then (st.1, .error .refused)
          else if n = 0 then st
          else
            match st.1.hubRead asid (pf e 0 8) (4 * n) with
            | (s2, .error k) => (s2, .error (.fault k))
            | (s2, .ok bs) =>
              let l := blockList bs n
              if risingBlocks nblk l then (s2, .ok (kinsert m i l)) else (s2, .error .refused)) (s1, .ok [])
      match r with
      | (s2, .ok m) =>
        let many := (m.flatMap (·.2)).any fun b => 4 < (m.filter fun g => g.2.contains b).length
        (s2, if many then .error .refused else .ok m)
      | e => e

/-- Whether an evaluator's descriptor asks for more than every die's reserve gives (R270, R305). -/
def State.badEvaluator (s : State) (k : KDesc) : Bool :=
  1 < k.nwave || k.nbank ≠ 0 || k.cw ≠ 0 || k.ncb ≠ 0 || 1 < k.nsum ||
  (List.range 4).any fun d => let (_, rv, rg) := kget (0, 8, 0) s.hub.reserves d; rv < k.vregs || rg < k.win

/-- Reads the spore table and checks the evaluators' descriptors (R270). -/
def State.readSpores (s : State) (asid stab n : Nat) : State × Except Refuse (List KDesc) :=
  if stab = 0 then (s, .ok [])
  else
    match s.hubRead asid stab (16 * n) with
    | (s1, .error k) => (s1, .error (.fault k))
    | (s1, .ok tb) =>
      (List.range n).foldl (fun (st : State × Except Refuse (List KDesc)) i =>
        match st.2 with
        | .error _ => st
        | .ok l =>
          let a := pf tb (16 * i) 8
          if !canonical a || a % 64 ≠ 0 || pf tb (16 * i + 8) 8 ≠ 0 then (st.1, .error .refused)
          else
            match st.1.readDesc asid a 1 with
            | (s2, .error e) => (s2, .error e)
            | (s2, .ok k) => if s2.badEvaluator k then (s2, .error .refused) else (s2, .ok (l ++ [k]))) (s1, .ok [])

/-! ### Launches (R322, R326) -/

/-- Whether the launch table is full: 1,024 launches of the device (R322). -/
def State.tableFull (s : State) : Bool := 1024 ≤ (s.launches.filter fun p => !p.2.done).length

/-- A launch enters the table with its tasks, one for each gang in ascending %gang (R322, R334). -/
def State.addLaunch (s : State) (l : Launch) : State :=
  let id := s.nextLaunch
  let s1 := { s with launches := kinsert s.launches id l, nextLaunch := id + 1 }
  (List.range (l.nblk / max 1 l.gsz)).foldl (fun s g =>
    let t : Task := { launch := id, gang := g, nblk := l.gsz, desc := l.desc, pendingSince := s.time.toNat }
    { s with tasks := kinsert s.tasks s.nextTask t, nextTask := s.nextTask + 1 }) s1

/-- The launch that a DISPATCH asks for, or why there is none; submission and execution make the same checks (R313, R321 to R323,
R337). -/
def State.readLaunch (s : State) (q : Nat) (p : DispatchPkt) : State × Except Refuse Launch :=
  let x := s.queue q
  match s.readDesc x.asid p.kdesc.toNat p.gsz with
  | (s1, .error e) => (s1, .error e)
  | (s1, .ok k) =>
    match s1.readGroups x.asid p.gtab.toNat p.nblk with
    | (s2, .error e) => (s2, .error e)
    | (s2, .ok gs) =>
      match s2.readSpores x.asid p.stab.toNat p.scnt with
      | (s3, .error e) => (s3, .error e)
      | (s3, .ok sp) =>
        let (s4, r) := if p.cnt then s3.translate (hubWalker x.asid) p.crec.toNat .write false else (s3, .ok { pa := 0, plc := 0, sp := false, r := false, w := false, x := false })
        match r with
        | .error (kd, _) => (s4, .error (.fault kd))
        | .ok _ =>
          (s4, .ok
            { queue := q
              proc := x.proc
              asid := x.asid
              desc := k
              kdescVa := p.kdesc
              nblk := p.nblk
              gsz := p.gsz
              prio := p.prio
              det := p.det
              cnt := p.cnt
              idem := p.idem
              aff := p.aff
              groups := gs
              spores := sp
              scnt := p.scnt
              hasStab := p.stab ≠ 0
              gtab := p.gtab
              crec := p.crec })

/-- The scheduler's reads as it places a task of a launch for the first time: the kernel descriptor with its records, and with the launch's
first task the group table (R345). What can then no longer be read, or would be refused, stands as the DISPATCH took it (log entry 79). -/
def State.reread (s : State) (t : Nat) (x : Task) (l : Launch) : State :=
  if l.bcast.isSome then s
  else
    let (s1, r) := s.readDesc l.asid l.kdescVa.toNat l.gsz
    let s2 := match r with
      | .ok k => s1.setTask t { x with desc := k }
      | .error _ => s1
    if l.placed ≠ 0 then s2
    else
      let (s3, g) := s2.readGroups l.asid l.gtab.toNat l.nblk
      match g with
      | .ok gs => s3.modLaunch x.launch fun y => { y with groups := gs }
      | .error _ => s3

/-- A BCAST's descriptor: a gang of one block with a cushion and no waves (R326). -/
def bcastDesc (p : BcastPkt) : KDesc := { nwave := 0, cw := p.cw, nbank := p.nbank, skew := BitVec.ofNat 32 p.skew }

/-- The launch of a BCAST. -/
def bcastLaunch (q : Nat) (x : Queue) (p : BcastPkt) : Launch :=
  { queue := q
    proc := x.proc
    asid := x.asid
    desc := bcastDesc p
    kdescVa := 0
    nblk := 1
    gsz := 1
    prio := p.prio
    det := p.det
    cnt := false
    idem := p.idem
    aff := false
    bcast := some p }

/-! ### ENQ (R332, R333) -/

/-- Writes packets into a queue's ring in one move, and WPTR advances (R313, R333). -/
def State.pushPackets (s : State) (q : Nat) (pkts : List (List Byte)) : State :=
  let x := s.queue q
  let bs := pkts.zipIdx.flatMap fun p => p.1.zipIdx.map fun b => (keyOf 0 (x.ring + 64 * ((x.wptr + p.2) % 2 ^ x.log)) + b.2, b.1)
  let s1 := s.move { src := 5 } bs viewsWide
  let s2 := s1.setQueue q { s1.queue q with wptr := x.wptr + pkts.length }
  if x.levels.length = 1 then s2.takeIn q else s2

/-- Step 3 of an ENQ whose packets lie at the given storage addresses (R333): the queue's case, or the wait for room. -/
def enqueue3 (s : State) (k : Nat) (w : Wave) (fr : Frag) (d c : Nat) (keys : List (Option Nat)) : State :=
  let v := (rdS s w 3 c).toNat
  let q := v % 4096
  let x := s.queue q
  let answer (s : State) (st : Word) : State :=
    match kfind s.waves k with
    | some w => advance s k ((w.wrS d st).modFrag fr.num fun f => { f with phase := .none }) fr 16
    | none => s
  if v / 4096 ≠ 0 || x.st = 0 || some x.proc ≠ (s.launchOf w.task).map (·.proc) then answer s 2
  else if x.st ≠ 1 then answer s 1
  else if x.noRoom keys.length then
    waitAt (s.modWave k fun w => w.modFrag fr.num fun f => { f with phase := .enq d keys }) k fr (.enq q)
  else answer (s.pushPackets q (keys.map fun a => match a with | some a => s.rdHs a 64 | none => List.replicate 64 0)) 0

/-- ENQ: a REL at device scope, then the acceptance of its packets, then step 3, to which alone it returns while the ring lacks room
(R333). -/
def execEnq (d a b c : Nat) (imm : Word) (n : Nat) (s : State) : Out :=
  onFrag s fun k w fr =>
    match fr.phase with
    | .enq _ keys => enqueue3 s k w fr d c keys
    | _ =>
      if !fr.quiet then waitAt s k fr .rel
      else
        let e := elemIndex (rdS s w 1 a) (some imm)
        let s1 := s.releaseAt k w fr .device
        let (s2, r) := acceptRec s1 w fr (rdRecord s w 2 b) (List.range n) (fun i => e + i) 64 .read .read false false fun _ => none
        match r with
        | .error e => refuseAt s2 k w fr e
        | .ok acc =>
          let w1 := w.noSkip fr
          enqueue3 (s2.setWave k w1) k w1 fr d c ((List.range n).map fun i => (acc.lanes.find? fun y => y.lane = i).map (·.key))

end Sys2Proof.Machine
end

