-- ==== Sys2Proof/Machine/Pages.lean ====
section
/-! DEFINITION. What the page tables of the bound address spaces map (R248 to R252), and the pages of the tasks' frames (R195, R355). -/

namespace Sys2Proof.Machine

/-! ### Mappings (R249, R251, R252) -/

/-- A valid leaf as the tables give it: address space, storage address of its entry, the entry, its level, the address it maps. -/
structure Mapping where
  asid : Nat
  key : Nat
  entry : Nat
  level : Nat
  va : Nat
  deriving DecidableEq, Repr

/-- The valid leaves below a table. -/
def State.leavesAt (s : State) (asid plc : Nat) : Nat → Nat → Nat → Nat → List Mapping
  | 0, _, _, _ => []
  | fuel + 1, l, base, va =>
    (List.range (tableSize l / 8)).flatMap fun i =>
      let key := keyOf plc (base + 8 * i)
      let e := ofBytes (s.rdHs key 8)
      let v := va + i * 2 ^ (levelBits l).2
      if !bit e 0 || badEntry l e then []
      else if bit e 4 then [{ asid, key, entry := e, level := l, va := v }]
      else s.leavesAt asid plc fuel (l - 1) (bits e 51 8 * 256) v

/-- The valid leaves below an address space's root. -/
def State.leaves (s : State) (asid : Nat) : List Mapping :=
  let x : Asid := kget {} s.asids asid
  if x.st = .bound then s.leavesAt asid x.tplc 5 4 x.root 0 else []

/-- Address spaces that are bound, and everything that they map. -/
def State.bound (s : State) : List Nat := (s.asids.filter fun p => p.2.st = .bound).map (·.1)
def State.mapped (s : State) : List Mapping := s.bound.flatMap s.leaves

/-- Whether a leaf maps main memory, and which window one maps. -/
def Mapping.main (m : Mapping) : Bool := !isWindow (bits m.entry 51 8 * 256)
def Mapping.window (m : Mapping) : Option Nat := if m.main then none else some (bits (bits m.entry 51 8 * 256) 50 40)

/-- The placement of a leaf. -/
def Mapping.plc (m : Mapping) : Nat := bits m.entry 59 57

/-- The main-memory leaves of a list as entries with their sizes, and as leaves that have been removed. -/
def mains (l : List Mapping) : List (Nat × Nat) := (l.filter Mapping.main).map fun m => (m.entry, leafSize m.level)

def olds (l : List Mapping) : List OldLeaf :=
  (l.filter Mapping.main).map fun m => { asid := m.asid, va := m.va, entry := m.entry, size := leafSize m.level }

/-- The storage of a main-memory leaf: a pinned die or none for all four, and the range of die offsets. -/
def leafStore (e size : Nat) : Option Nat × Nat × Nat :=
  let pa := bits e 51 8 * 256
  if bits e 59 57 = 0 then (none, pa / 4, (pa + size) / 4) else (some (pa / 2 ^ 37), pa % 2 ^ 37, pa % 2 ^ 37 + size)

/-- Whether two leaves reach one storage byte by different views (R252), or by the same view. -/
def mixedViews (x y : Nat × Nat) : Bool :=
  let (d1, a1, b1) := leafStore x.1 x.2
  let (d2, a2, b2) := leafStore y.1 y.2
  d1.isSome ≠ d2.isSome && a1 < b2 && a2 < b1
def shareStore (x y : Nat × Nat) : Bool :=
  let (d1, a1, b1) := leafStore x.1 x.2
  let (d2, a2, b2) := leafStore y.1 y.2
  d1 = d2 && a1 < b2 && a2 < b1

/-- Whether two of a list of leaves reach a storage byte through both views. -/
def mixes (l : List (Nat × Nat)) : Bool := l.any fun x => l.any fun y => mixedViews x y

/-- Whether a leaf's storage holds a storage byte. -/
def leafHolds (e size key : Nat) : Bool :=
  let (d, a, b) := leafStore e size
  (match d with | some x => homeDie key = x | none => true) && a ≤ key % 2 ^ 37 && key % 2 ^ 37 < b

/-! ### The pages of frames (R195, R355) -/

/-- Bytes of a frame: its records and the gate frames of at most eight parts. -/
def FrameLoc.size (f : FrameLoc) : Nat := f.gates + 8 * 384

/-- The offsets in a frame at which its pages begin. -/
def FrameLoc.pages (f : FrameLoc) : List Nat :=
  0 :: (((List.range (FrameLoc.size f / 2 ^ 16 + 1)).map fun i => 2 ^ 16 * (i + 1) - f.va.toNat % 2 ^ 16).filter fun o => o < FrameLoc.size f)

/-- Whether an address space's tables map a frame's addresses read-only to its storage. -/
def State.frameMapped (s : State) (asid : Nat) (f : FrameLoc) : Bool :=
  let va := f.va.toNat % 2 ^ 57
  let l := s.leaves asid
  canon f.va.toNat = f.va && va + FrameLoc.size f ≤ 2 ^ 57 && (FrameLoc.pages f).all fun o =>
    match l.find? fun m => m.va ≤ va + o && va + o < m.va + leafSize m.level with
    | some m =>
      m.main && (m.plc, bits m.entry 51 8 * 256 + (va + o - m.va)) = FrameLoc.place f o && bit m.entry 1 && !bit m.entry 2 && !bit m.entry 56
    | none => false

/-- Whether a mapping lets an instruction write a page in which a frame lies. -/
def State.frameWritten (s : State) (asid : Nat) (f : FrameLoc) : Bool :=
  let va := f.va.toNat % 2 ^ 57
  let own := mains ((s.leaves asid).filter fun m => m.va < va + FrameLoc.size f && va < m.va + leafSize m.level)
  (mains s.mapped).any fun m => bit m.1 2 && own.any (shareStore m)

/-- The stretches of storage of a frame, page by page: placement, physical address, length. -/
def FrameLoc.spans (f : FrameLoc) : List (Nat × Nat × Nat) :=
  (FrameLoc.pages f).map fun o => ((FrameLoc.place f o).1, (FrameLoc.place f o).2, min (FrameLoc.size f - o) (2 ^ 16 - (f.va.toNat + o) % 2 ^ 16))

/-- Whether two frames lie apart. -/
def FrameLoc.apart (f g : FrameLoc) : Bool :=
  (FrameLoc.spans f).all fun x => (FrameLoc.spans g).all fun y =>
    (x.1 = 0) ≠ (y.1 = 0) || x.2.1 + x.2.2 ≤ y.2.1 || y.2.1 + y.2.2 ≤ x.2.1

/-- Whether the pieces of a frame are whole pages of it. -/
def FrameLoc.whole (f : FrameLoc) : Bool :=
  f.pieces.all fun p => (FrameLoc.pages f).contains p.off && ((FrameLoc.pages f).contains (p.off + p.len) || FrameLoc.size f ≤ p.off + p.len)

/-- Whether a task has a frame. -/
def Task.framed (x : Task) : Bool := x.everPlaced && x.st ≠ .retired && x.st ≠ .killed

/-- Whether a frame may be task `t`'s: aligned as its records and gate frames are, the gate frames after `n` bytes of records and copy table, in
pages of the address space that no instruction may write, apart from the other tasks' (R195, R355). -/
def State.frameFits (s : State) (t asid n : Nat) (f : FrameLoc) : Bool :=
  f.va.toNat % 64 = 0 && (f.va.toNat + f.gates) % 128 = 0 && n ≤ f.gates && FrameLoc.whole f && s.frameMapped asid f && !s.frameWritten asid f &&
  s.tasks.all fun p => p.1 = t || !p.2.framed || FrameLoc.apart f p.2.frame

/-- The frames of the tasks that have one, each with its address space. -/
def State.liveFrames (s : State) : List (Nat × FrameLoc) := (s.tasks.filter fun t => t.2.framed).map fun t => (s.asidOf t.1, t.2.frame)

/-- A frame with the part of it that a leaf maps at the leaf's storage. -/
def FrameLoc.follow (f : FrameLoc) (m : Mapping) : FrameLoc :=
  let va := f.va.toNat % 2 ^ 57
  let a := max va m.va
  let b := min (va + FrameLoc.size f) (m.va + leafSize m.level)
  if b ≤ a then f
  else
    let p : FramePiece := { off := a - va, len := b - a, pa := bits m.entry 51 8 * 256 + (a - m.va), plc := m.plc }
    { f with pieces := p :: f.pieces.filter fun q => q.off < p.off || p.off + p.len < q.off + q.len }

/-- The pages of frames follow the entries at some storage addresses to the storage that these now give (R379). -/
def State.moveFrames (s : State) (keys : List Nat) : State :=
  let l := s.mapped.filter fun m => m.main && keys.contains m.key
  let put (a : Nat) (f : FrameLoc) : FrameLoc := (l.filter fun m => m.asid = a).foldl FrameLoc.follow f
  { s with tasks := s.tasks.map fun t => (t.1, if t.2.framed then { t.2 with frame := put (s.asidOf t.1) t.2.frame } else t.2) }

end Sys2Proof.Machine
end

