-- ==== Sys2Proof/Machine/Room.lean ====
section
/-! DEFINITION. The hardware scheduler's accounts (R53, R138, R146, R158, R223, R224, R236, R256, R270, R288, R334, R402): what a core
has free, where a gang fits, and the order in which tasks are offered placement (R314, R334); and DISPATCH and BCAST (R322, R326, R377). -/

namespace Sys2Proof.Machine

/-! ### Processes (R314) -/

def State.proc (s : State) (p : Nat) : Proc := kget {} s.procs p
def State.setProc (s : State) (p : Nat) (x : Proc) : State := { s with procs := kset {} s.procs p x }

/-- The process of a task. -/
def State.procOf (s : State) (x : Task) : Nat := ((kfind s.launches x.launch).map (·.proc)).getD 0

/-- Whether a process is runnable: a task of it is pending, resident or saved without a halt, or an active queue of it holds packets. -/
def State.runnableProc (s : State) (p : Nat) : Bool :=
  (s.tasks.any fun t => s.procOf t.2 = p && (t.2.st = .pending || t.2.st = .resident || t.2.st = .saved) && !t.2.halt) ||
  s.queues.any fun q => q.2.proc = p && q.2.st = 1 && q.2.rptr < q.2.wptr

/-- The least virtual time among the runnable processes. -/
def State.leastVt (s : State) : Nat :=
  ((s.procs.filter fun p => s.runnableProc p.1).map (·.2.vt)).foldl (fun m v => match m with | none => some v | some n => some (min n v)) none |>.getD 0

/-- A process that is about to become runnable catches up with the others. -/
def State.wakeProc (s : State) (p : Nat) : State :=
  if s.runnableProc p then s
  else
    let x := s.proc p
    s.setProc p { x with vt := max x.vt s.leastVt }

/-- Charges nanoseconds of work to a process. -/
def State.charge (s : State) (p t : Nat) : State :=
  let x := s.proc p
  s.setProc p { x with vt := x.vt + t * 1024 / max 1 x.weight }

/-- Charges a task's core time since it was last charged. -/
def State.chargeTask (s : State) (t : Nat) (x : Task) : State :=
  (s.charge (s.procOf x) ((s.time.toNat - x.chargedAt) * (taskCores x).length)).modTask t fun y => { y with chargedAt := s.time.toNat }

/-! ### What stands on a core -/

/-- The resident tasks that hold a grant on a core, each with that grant. -/
def occupants (s : State) (c : Nat) : List (Nat × Task × Grant) :=
  s.tasks.flatMap fun p =>
    if p.2.st = .resident then (p.2.grants.filter fun g => g.core = c).map fun g => (p.1, p.2, g) else []

/-- Those that are no evaluators: evaluators live in the reserve. -/
def ordinary (s : State) (c : Nat) : List (Nat × Task × Grant) := (occupants s c).filter fun o => o.2.1.cell.isNone

/-- Waves of a block's part on a partition (R224). -/
def partCount (k : KDesc) (part p : Nat) : Nat :=
  ((List.range k.wpc).filter fun i => part * k.wpc + i < k.nwave && (part * k.wpc + i) % 4 = p).length

def wavesOn (l : List (Nat × Task × Grant)) (p : Nat) : Nat := l.foldl (fun n o => n + partCount o.2.1.desc o.2.2.part p) 0
def regsOn (l : List (Nat × Task × Grant)) (p : Nat) : Nat := l.foldl (fun n o => n + partCount o.2.1.desc o.2.2.part p * o.2.1.desc.vregs) 0
def sumsOn (l : List (Nat × Task × Grant)) (p : Nat) : List Nat := l.flatMap fun o => kget [] o.2.2.sums p

/-- Reserve slots on a partition of a core, and on the core. -/
def reserveOn (s : State) (c p : Nat) : Nat := (s.reserveSlots (clusterOf c)).countP fun x => x = (c, p)
def reserveCore (s : State) (c : Nat) : Nat := (s.reserveSlots (clusterOf c)).countP fun x => x.1 = c

/-- The partition of an evaluator's grant. -/
def Grant.evalPart (g : Grant) : Option Nat := g.sums.head?.map (·.1)

/-- The evaluators on a partition of a core: how many, and the vector registers that they hold. -/
def evaluatorsOn (s : State) (c p : Nat) : Nat := (occupants s c).countP fun o => o.2.1.cell.isSome && o.2.2.evalPart = some p
def evaluatorRegsOn (s : State) (c p : Nat) : Nat :=
  ((occupants s c).filter fun o => o.2.1.cell.isSome && o.2.2.evalPart = some p).foldl (fun n o => n + o.2.1.desc.vregs) 0

/-- The evaluators on a partition of a core that stand on no slot there any more: theirs has moved or is gone (R402). -/
def straysOn (s : State) (c p : Nat) : List (Nat × Task × Grant) :=
  (occupants s c).filter fun o => o.2.1.cell.isSome && o.2.2.evalPart = some p &&
    match o.2.1.reserveSlot with
    | some (cl, r) => (s.reserveSlots cl)[r]? ≠ some (c, p)
    | none => true

/-- The waves that a task keeps of a block's part. -/
def keptWaves (s : State) (x : Task) (blk part : Nat) : List Wave :=
  (s.waves.filter fun p => x.waves.contains p.1 && p.2.blk = blk && p.2.idx / max 1 x.desc.wpc = part).map (·.2)

/-- Fragment-table entries that a task's part takes on a partition: those of the fragments that it has, or one for each wave that starts (R59). -/
def fragsFor (s : State) (x : Task) (blk part p : Nat) : Nat :=
  if x.waves = [] then partCount x.desc part p
  else ((keptWaves s x blk part).filter fun w => w.part = p).foldl (fun n w => n + w.frags.length) 0

/-- Request entries that a task's part holds, or takes when it comes back (R56). -/
def requestsFor (s : State) (x : Task) (blk part : Nat) : Nat := (keptWaves s x blk part).foldl (fun n w => n + w.requests) 0

/-- Fragment-table entries of a partition, and request entries of a core, that the resident tasks use. -/
def fragsOn (s : State) (c p : Nat) : Nat := (occupants s c).foldl (fun n o => n + fragsFor s o.2.1 o.2.2.blk o.2.2.part p) 0
def requestsOn (s : State) (c : Nat) : Nat := (occupants s c).foldl (fun n o => n + requestsFor s o.2.1 o.2.2.blk o.2.2.part) 0

/-- RV and RG of a core's die. -/
def reserveSize (s : State) (c : Nat) : Nat × Nat := let r := kget (0, 8, 0) s.hub.reserves (dieOf c); (r.2.1, r.2.2)

/-- Granules that ordinary windows may use: the reserve's windows lie above them. -/
def granules (s : State) (c : Nat) : Nat := 127 - reserveCore s c * (reserveSize s c).2

/-- Whether a range of granules meets no window. -/
def granulesFree (l : List (Nat × Task × Grant)) (g n : Nat) : Bool :=
  l.all fun o => 4096 * (g + n) ≤ o.2.2.winBase || o.2.2.winBase + o.2.2.winLen ≤ 4096 * g

/-- The lowest free run of granules for a window. -/
def windowRun (s : State) (c n : Nat) : Option Nat :=
  if n = 0 then some 0
  else (List.range (granules s c + 1 - n)).find? fun g => n ≤ granules s c && granulesFree (occupants s c) g n

/-- The lowest free run of banks. -/
def bankRun (s : State) (c n : Nat) : Option Nat :=
  if n = 0 then some 0
  else (List.range (17 - n)).find? fun b => (ordinary s c).all fun o => b + n ≤ o.2.2.bankBase || o.2.2.bankBase + o.2.2.nbank ≤ b

/-- Circular buffers that are free. -/
def freeCbs (s : State) (c : Nat) : List Nat := (List.range 8).filter fun n => (ordinary s c).all fun o => !o.2.2.cbs.contains n

/-- Summary buffers of a partition that are free. -/
def freeSums (s : State) (c p : Nat) : List Nat := (List.range 4).filter fun n => !(sumsOn (occupants s c) p).contains n

/-- The TLB ranges that launches with a task on the core hold there. -/
def tlbRanges (s : State) (c : Nat) : KMap (Nat × Nat) := (s.core c).tlbs.filter fun p => (occupants s c).any fun o => o.2.1.launch = p.1

/-- The range of a launch on a core: the one it holds, or the lowest aligned free one (R256). -/
def tlbRange (s : State) (c launch n : Nat) : Option (Nat × Nat) :=
  match kfind (tlbRanges s c) launch with
  | some r => some r
  | none => ((List.range (32 / n)).find? fun i => (tlbRanges s c).all fun p => n * (i + 1) ≤ p.2.1 || p.2.1 + p.2.2 ≤ n * i).map fun i => (n * i, n)

/-- The tile contexts of resident tasks on a core. -/
def liveCtxs (s : State) (c : Nat) : KMap TileCtx := (s.core c).ctxs.filter fun p => ((kfind s.tasks p.2.task).map (·.st)) = some .resident

/-- Whether the contexts and slots that a saved task brings back to a core are free (R197). -/
def tilesFit (s : State) (c : Nat) (l : List SavedTile) : Bool :=
  (liveCtxs s c).length + l.length ≤ 4 &&
  l.all fun t => (kkeys t.slots).all fun i =>
    match ((kget {} (s.core c).slots i) : Slot).holder with
    | some n => (kfind (liveCtxs s c) n).isNone
    | none => true

/-! ### Where a gang fits -/

/-- Cores that a gang takes (R223, R224, R236, R326). -/
def gangCores (k : KDesc) (nblk : Nat) : Nat := if k.nwave = 0 then 2 ^ k.cw else k.span * nblk

/-- Whether a core may take work of a launch: in service, on the clusters of the reservation that its queue is bound to, or else on none that is
reserved (R4, R399). -/
def coreOpen (s : State) (l : Launch) (c : Nat) : Bool :=
  !(s.core c).excluded && !(s.core c).quiesced &&
  match (s.queue l.queue).reserved with
  | some i => ((s.hub.reservations[i]?).map fun r => r.2.2.contains (clusterOf c)).getD false
  | none => s.hub.reservations.all fun r => !r.2.2.contains (clusterOf c)

/-- The grant of a block part on a core, if all that it asks for is free there beside the room of the reserve's slots (R402), and for a saved
one its fragments' entries and the request entries of what it will reissue (R56, R59, log entry 80). -/
def grantOn (s : State) (x : Task) (c blk part : Nat) : Option Grant :=
  let k := x.desc
  let l := ordinary s c
  let (rv, _) := reserveSize s c
  let need (p : Nat) : Nat := partCount k part p
  let parts := (List.range 4).filter fun p => need p ≠ 0
  let room (p : Nat) : Bool :=
    wavesOn l p + reserveOn s c p + (straysOn s c p).length + need p ≤ 16 &&
    regsOn l p + reserveOn s c p * rv + (straysOn s c p).foldl (fun n o => n + o.2.1.desc.vregs) 0 + need p * k.vregs ≤ 3072 &&
    (need p = 0 || (sumsOn l p).length + reserveOn s c p + (sumsOn (straysOn s c p) p).length + k.nsum ≤ 4) &&
    fragsOn s c p + fragsFor s x blk part p ≤ 48
  let tiles := x.data.tiles.filter fun t => t.blk = blk && t.part = part
  let banks :=
    match (if k.cw ≠ 0 && tiles ≠ [] then x.data.grants.find? fun g => g.blk = blk && g.part = part else none) with
    | some g => if l.all fun o => g.bankBase + g.nbank ≤ o.2.2.bankBase || o.2.2.bankBase + o.2.2.nbank ≤ g.bankBase then some g.bankBase else none
    | none => bankRun s c k.nbank
  match windowRun s c k.win, banks, tlbRange s c x.launch (2 ^ k.tlbs) with
  | some w, some b, some _ =>
    if (List.range 4).all room && requestsOn s c + requestsFor s x blk part ≤ 4096 && k.ncb ≤ (freeCbs s c).length && tilesFit s c tiles && (k.nwave ≠ 0 || tiles ≠ [] || (liveCtxs s c).length < 4) then
      some
        { core := c
          blk
          part
          winBase := 4096 * w
          winLen := 4096 * k.win
          cbs := (freeCbs s c).take k.ncb
          bankBase := b
          nbank := k.nbank
          sums := parts.map fun p => (p, (freeSums s c p).take k.nsum) }
    else none
  | _, _, _ => none

/-- The grants of a gang on the cores from `c` on. -/
def grantsFrom (s : State) (x : Task) (l : Launch) (c : Nat) : Option (List Grant) :=
  let n := gangCores x.desc x.nblk
  let w := 2 ^ x.desc.cw
  let span := n / max 1 x.nblk
  if n = 0 || 8 < c % 8 + n || (x.desc.cw ≠ 0 && (n ≠ w || c % w ≠ 0)) || (l.aff && dieOf c ≠ x.gang % 4) then none
  else (List.range n).foldr (fun i r =>
    match r with
    | some gs => if coreOpen s l (c + i) then (grantOn s x (c + i) (i / max 1 span) (i % max 1 span)).map fun g => g :: gs else none
    | none => none) (some [])

/-- Bytes of a task's frame before its gate frames: the most that its header, records and copy table can take (R355 to R360); how long a copy
table may grow no rule says (log entry 16). -/
def frameBound (x : Task) : Nat :=
  let k := x.desc
  let cores := gangCores k x.nblk
  64 + x.nblk * (64 + k.nwave * (6208 + 128 * k.vregs)) +
    cores * (320 * 4096 + 64 * k.ncb + 4 * 4096 * k.nsum + 4096 * k.win + 576 + 16640 * 16 + 34880 * k.nbank + 16 * 512)

/-- Whether R337 lets a task be placed beside what is resident. -/
def countersLet (s : State) (x : Task) (l : Launch) : Bool :=
  (!l.cnt || s.tasks.all fun t => t.2.st ≠ .resident || t.2.launch = x.launch) &&
  s.launches.all fun p => p.1 = x.launch || !p.2.cnt || p.2.done || p.2.placed = 0

/-- The placement of least (die, cluster, first core). -/
def placement (s : State) (x : Task) : Option (List Grant) :=
  match kfind s.launches x.launch with
  | none => none
  | some l => if countersLet s x l then (List.range 256).findSome? fun c => grantsFrom s x l c else none

/-! ### Victims (R231, R333, R336, R399) -/

def lexLt : List Nat → List Nat → Bool
  | a :: r, b :: t => a < b || (a = b && lexLt r t)
  | _, _ => false

/-- Whether a task has a fragment that waits at ENQ for a queue of a process. -/
def waitsEnq (s : State) (t p : Nat) : Bool :=
  s.waves.any fun w => w.2.task = t && w.2.resident && w.2.frags.any fun f => match f.st with | .waiting (.enq q) => (s.queue q).proc = p | _ => false

/-- Whether a task waits at a barrier of a group that a pending task of the same launch belongs to. -/
def waitsGroup (s : State) (t n : Nat) : Bool :=
  match kfind s.tasks t, kfind s.tasks n with
  | some x, some y =>
    x.launch = y.launch && s.waves.any fun w => w.2.task = t && w.2.frags.any fun f =>
      match f.st with
      | .waiting (.barrier key) => key % 3 = 2 && ((s.launchOf n).map fun l => (List.range y.nblk).any fun b => (groupSlots l (blockNum s n b)).contains (key / 3 % 256)).getD false
      | _ => false
  | _, _ => false

/-- The priority of a task. -/
def prioOf (s : State) (x : Task) : Nat := ((kfind s.launches x.launch).map (·.prio)).getD 0

/-- Whether a resident task may be a victim of a newcomer; `equal` admits its own priority. -/
def mayFall (s : State) (n : Nat) (y : Task) (equal : Bool) (t : Nat) (x : Task) : Bool :=
  x.st = .resident && x.cell.isNone && x.endFault.isNone &&
  (x.grants.all fun g => s.hub.reservations.all fun r => !r.2.2.contains (clusterOf g.core)) &&
  (prioOf s x < prioOf s y || (equal && prioOf s x = prioOf s y) || waitsEnq s t (s.procOf y) || waitsGroup s t n)

/-- Victims in order: ascending PRIO, then latest placement first. -/
def victims (s : State) (n : Nat) (y : Task) (equal : Bool) : List (Nat × Task) :=
  let key (x : Task) : List Nat := [prioOf s x, 2 ^ 64 - x.placedAt]
  let ins (p : Nat × Task) (l : List (Nat × Task)) : List (Nat × Task) :=
    (l.takeWhile fun q => !lexLt (key p.2) (key q.2)) ++ p :: l.dropWhile fun q => !lexLt (key p.2) (key q.2)
  (s.tasks.filter fun p => mayFall s n y equal p.1 p.2).foldl (fun l p => ins p l) []

/-- The state as the accounts would see it with a task gone. -/
def without (s : State) (t : Nat) : State := s.modTask t fun x => { x with st := .saved, grants := [] }

/-- The victims that make a placement possible: the shortest beginning of the list that does. -/
def enough (s : State) (y : Task) : List (Nat × Task) → Option (List (Nat × Task))
  | [] => none
  | v :: r =>
    let s1 := without s v.1
    if (placement s1 y).isSome then some [v] else (enough s1 y r).map fun l => v :: l

/-- Whether a newcomer that still waits has waited longer than its priority's slice, so that it may take its equals (R336). -/
def pastSlice (s : State) (y : Task) : Bool := kget 0 s.hub.slices (prioOf s y) < s.time.toNat - y.pendingSince

/-- The state as the accounts would see it with a task on the given grants. -/
def seated (s : State) (t : Nat) (gs : List Grant) : State := s.modTask t fun x => { x with st := .resident, grants := gs, placedAt := s.time.toNat }

/-- R336 applied anew for a saved task with SLICE: a newcomer that still waits would, with the task back, find no placement, and would choose
the task among its victims (R363). -/
def newcomerWaits (s : State) (t : Nat) (x : Task) : Bool :=
  match placement s x with
  | none => false
  | some gs =>
    let s1 := seated s t gs
    s.tasks.any fun p =>
      p.1 ≠ t && p.2.waiting && (p.2.st = .pending || p.2.st = .saved) && !p.2.halt && (placement s1 p.2).isNone &&
      ((enough s1 p.2 (victims s1 p.1 p.2 (pastSlice s p.2))).getD []).any fun v => v.1 = t

/-- A saved task whose only cause is SLICE is pending again once no newcomer needs its room (R363). -/
def State.sliceOver (s : State) : State :=
  let over_ (t : Nat) (x : Task) : Bool := x.st = .saved && x.slice && !x.halt && !x.pf && !newcomerWaits s t x
  { s with tasks := s.tasks.map fun p => if over_ p.1 p.2 then (p.1, { p.2 with st := .pending, slice := false }) else p }

/-! ### The order of offers (R314, R334, R335) -/

/-- The place of a task in the order. -/
def offerKey (s : State) (x : Task) : List Nat :=
  let p := s.procOf x
  [(s.proc p).vt, p, if x.first then 0 else 1, ((kfind s.launches x.launch).map (·.queue)).getD 0, x.launch, x.gang]

/-- Whether a task may be offered placement (R335, R363). -/
def offered (s : State) (t : Nat) (x : Task) : Bool :=
  (x.st = .pending || x.st = .saved) && !x.halt && !x.pf && !x.wantKill && !(x.slice && newcomerWaits s t x)

/-- The offered tasks, evaluators apart, in order. -/
def offers (s : State) : List (Nat × Task) :=
  let ins (p : Nat × Task) (l : List (Nat × Task)) : List (Nat × Task) :=
    (l.takeWhile fun q => !lexLt (offerKey s p.2) (offerKey s q.2)) ++ p :: l.dropWhile fun q => !lexLt (offerKey s p.2) (offerKey s q.2)
  (s.tasks.filter fun p => p.2.cell.isNone && offered s p.1 p.2).foldl (fun l p => ins p l) []

/-- The task that is placed next, with its grants: the first that fits; a waiting newcomer lets none behind it pass. -/
def nextPlaced (s : State) : List (Nat × Task) → Option (Nat × List Grant)
  | [] => none
  | (t, x) :: r =>
    match placement s x with
    | some gs => some (t, gs)
    | none => if x.waiting then none else nextPlaced s r

/-! ### The reserve (R280, R402) -/

/-- The window of slot number `j` among a core's slots, from the top down. -/
def reserveBase (s : State) (c j : Nat) : Nat := 4096 * (127 - (j + 1) * (reserveSize s c).2)

/-- A free window of the reserve on a core. -/
def reserveWindow (s : State) (c : Nat) : Option Nat :=
  if (reserveSize s c).2 = 0 then some 0
  else (((List.range (reserveCore s c)).map (reserveBase s c)).find? fun b => granulesFree (occupants s c) (b / 4096) (reserveSize s c).2)

/-- Fragment-table and request entries that an evaluator takes: one entry for its start, or those of the saved one (R56, R59). -/
def evalRoom (s : State) (saved : Option Task) : Nat × Nat :=
  match saved with
  | none => (1, 0)
  | some x => ((keptWaves s x 0 0).foldl (fun n w => n + w.frags.length) 0, requestsFor s x 0 0)

/-- Whether a slot on a partition of a core can take an evaluator, which needs the given entries: its core is open to the launch, and the room
of one wave is left beside what is resident there (R53, R56, R59, R256, R270, R399, R402). -/
def slotOpen (s : State) (launch : Nat) (l : Launch) (k : KDesc) (entries : Nat × Nat) (c p : Nat) : Bool :=
  let o := ordinary s c
  fragsOn s c p + entries.1 ≤ 48 && requestsOn s c + entries.2 ≤ 4096 &&
  coreOpen s l c && wavesOn o p + evaluatorsOn s c p + 1 ≤ 16 && regsOn o p + evaluatorRegsOn s c p + k.vregs ≤ 3072 &&
  k.nsum ≤ (freeSums s c p).length && (reserveWindow s c).isSome && (tlbRange s c launch (2 ^ k.tlbs)).isSome

/-- Whether an evaluator has slot `r` of a cluster, on it or saved off it because it moves (R402). -/
def slotTaken (s : State) (cluster r : Nat) : Bool :=
  s.tasks.any fun t => t.2.st ≠ .retired && t.2.st ≠ .killed && t.2.reserveSlot = some (cluster, r)

/-- A slot of the reserve: its cluster and number, and the core and partition on which it lies. -/
structure EvalSlot where
  cluster : Nat
  r : Nat
  core : Nat
  part : Nat
  deriving DecidableEq, Repr

/-- The slots of a cluster, by number. -/
def State.evalSlots (s : State) (cluster : Nat) : List EvalSlot :=
  (s.reserveSlots cluster).zipIdx.map fun x => { cluster, r := x.2, core := x.1.1, part := x.1.2 }

/-- The grant of an evaluator on a reserve slot. -/
def evaluatorGrant (s : State) (k : KDesc) (c p : Nat) : Grant :=
  { core := c
    blk := 0
    part := 0
    winBase := (reserveWindow s c).getD 0
    winLen := 4096 * k.win
    sums := [(p, (freeSums s c p).reverse.take k.nsum)] }

/-- The free reserve slot of least (die, cluster, core, partition) that a PLACE allows (R280), for a new evaluator or a saved one. -/
def freeSlot (s : State) (launch : Nat) (k : KDesc) (saved : Option Task) (place home cluster : Nat) : Option EvalSlot :=
  match kfind s.launches launch with
  | none => none
  | some l =>
    let free := ((placeClusters place home cluster).flatMap s.evalSlots).filter fun x =>
      !slotTaken s x.cluster x.r && slotOpen s launch l k (evalRoom s saved) x.core x.part
    if !countersLet s { launch, gang := 0, desc := {} } l then none
    else free.find? fun x => free.all fun y => !lexLt [y.core, y.part, y.r] [x.core, x.part, x.r]

/-- Where a saved evaluator returns to: its slot when that has moved, else a free one (R402). -/
def returnSlot (s : State) (x : Task) (place home cluster : Nat) : Option EvalSlot :=
  match x.reserveSlot, kfind s.launches x.launch with
  | some (cl, r), some l =>
    (s.evalSlots cl).find? fun e => e.r = r && countersLet s { launch := x.launch, gang := 0, desc := {} } l && slotOpen s x.launch l x.desc (evalRoom s (some x)) e.core e.part
  | _, _ => freeSlot s x.launch x.desc (some x) place home cluster

/-! ### Whether a launch fits at all, and its start (R313, R322, R326, R377) -/

/-- Whether the tasks of a launch fit the cores in service when nothing else runs (R377). -/
def State.fitsEver (s : State) (l : Launch) : Bool :=
  let s1 : State := { s with tasks := [], launches := [(0, l)], cores := s.cores.map fun (p : Nat × Core) => (p.1, { p.2 with quiesced := false }) }
  (List.range (min 4 (l.nblk / max 1 l.gsz))).all fun g => (placement s1 { launch := 0, gang := g, nblk := l.gsz, desc := l.desc }).isSome

/-- DISPATCH waits while the table is full; it finishes when the table has taken the launch. A launch that cannot fit is refused here too, whoever
has put the packet into the ring (R313, R377, log entry 88). -/
def execDispatch (p : DispatchPkt) (s : State) : Out :=
  onCp s fun q x l =>
    if s.tableFull then s
    else
      match s.readLaunch q p with
      | (s1, .error (.fault k)) => s1.packetErr q 8 k
      | (s1, .error .refused) => s1.packetErr q 7 0
      | (s1, .ok n) =>
        if !s1.fitsEver n then s1.packetErr q 7 0
        else
          let n := { n with pktAddr := packetAddr x l l.pos, pkt := (kfind l.window l.pos).getD [], pktLevel := x.levels.length - 1 }
          (s1.addLaunch n).finish q l

def execBcast (p : BcastPkt) (s : State) : Out :=
  onCp s fun q x l =>
    if s.tableFull then s
    else if !s.fitsEver (bcastLaunch q x p) then s.packetErr q 7 0
    else
      let n := { bcastLaunch q x p with
        pktAddr := packetAddr x l l.pos
        pkt := (kfind l.window l.pos).getD []
        pktLevel := x.levels.length - 1 }
      (s.addLaunch n).finish q l

end Sys2Proof.Machine
end

