-- ==== Sys2Proof/Machine/Sched.lean ====
section
/-! DEFINITION. The hardware scheduler's events: placing (R324, R325, R334), retiring, ending and killing tasks (R335), pre-emption
(R336), saves (R361, R363), charges (R314), the watchdog (R245, R287, R354), page reports (R261) and evaluators (R280, R402). -/

namespace Sys2Proof.Machine

/-! ### Placing a task for the first time (R52, R324, R325, R326) -/

/-- Clears what a grant gives (R325). -/
def clearGrant (s : State) (g : Grant) : State :=
  let x := s.core g.core
  let parts := g.sums.foldl (fun (m : KMap Part) p =>
    let q : Part := kget {} m p.1
    kinsert m p.1 { q with sums := p.2.foldl (fun b n => kerase b n) q.sums }) x.parts
  let x1 := { x.clearWindow g with
    cbufs := g.cbs.foldl (fun m n => kerase m n) x.cbufs
    cbWriters := g.cbs.foldl (fun m n => kerase m n) x.cbWriters
    cbReaders := g.cbs.foldl (fun m n => kerase m n) x.cbReaders
    parts }
  (List.range g.nbank).foldl (fun s i => s.setBank g.core (g.bankBase + i) (Bank.azero {}).1) (s.setCore g.core x1)

/-- A launch takes its TLB range on a core; a range that is new to it starts empty (R256, R325). -/
def takeTlb (s : State) (launch n c : Nat) : State :=
  match tlbRange s c launch n with
  | some r =>
    let held := (kfind (tlbRanges s c) launch).isSome
    let mine (e : Tlb) : Bool :=
      match e.place with
      | .l1 d i => d = c && r.1 ≤ i && i < r.1 + r.2
      | _ => false
    let s1 : State := if held then s else { s with tlb := s.tlb.filter fun e => !mine e }
    s1.setCore c { s1.core c with tlbs := kinsert (tlbRanges s c) launch r }
  | none => s

/-- The key of a wave. -/
def waveKey (task blk idx : Nat) : Nat := (task * 8 + blk) * 256 + idx

/-- A wave as it starts (R52 to R54). -/
def newWave (k : KDesc) (task blk idx core part : Nat) : Wave :=
  let regs := k.bufs.foldl (fun (m : KMap Word) b => b.2.zipIdx.foldl (fun m w => kset 0 m (b.1 + w.2) w.1) m) []
  { task
    blk
    idx
    core
    part
    alloc := k.vregs
    sreg := regs
    trapbase := k.trapb
    remain := k.remain
    frags := [{ num := 0, pc := k.entry, mask := 0xFFFFFFFF }] }

/-- Starts a wave at the tail of its partition's queue. -/
def startWave (s : State) (w : Wave) : State :=
  let k := waveKey w.task w.blk w.idx
  ((s.setWave k w).enqueue w.core w.part k 0).modTask w.task fun x => { x with waves := x.waves ++ [k] }

/-- The context of a member of a broadcast stream (R326). -/
def bcastCtx (s : State) (t : Nat) (p : BcastPkt) (i : Nat) (g : Grant) : State :=
  match (List.range 4).find? fun n => (kfind (s.core g.core).ctxs n).isNone with
  | none => s
  | some n => s.setCtx g.core n { task := t, blk := 0, part := g.part, pc := p.bpc, rank := i, bankBase := g.bankBase, bankCount := g.nbank, cush := .coupled }

/-- Each core of a set of grants makes its Refresh(system), and empties its instruction cache (R255, R324). -/
def refreshCores (s : State) (gs : List Grant) : State := ((gs.map (·.core)).eraseDups).foldl (fun s c => s.acquireAt c .system) s

/-- The cores of a task's cushion, by rank (R236). -/
def setCushion (s : State) (t : Nat) (x : Task) (gs : List Grant) : State :=
  if x.desc.cw = 0 then s else { s with cushions := kinsert s.cushions t (gs.map fun (g : Grant) => g.core) }

/-- A task becomes resident on its grants. -/
def State.seat (s : State) (t : Nat) (gs : List Grant) : State :=
  s.modTask t fun x => { x with
    st := .resident
    grants := gs
    data := {}
    slice := false
    first := false
    waiting := false
    stopIssue := false
    everPlaced := true
    placedAt := s.time.toNat
    chargedAt := s.time.toNat
    silent := s.cycle }

/-- A task starts as a new one; with a launch's first task the launch starts (R204). -/
def State.startTask (s : State) (t : Nat) (x : Task) (l : Launch) (gs : List Grant) : State :=
  let idle := (List.range 256).filter fun c => (occupants s c).isEmpty && (s.core c).phase.isEmpty
  let s0 := if l.placed = 0 then s.evenViews idle else s
  let s1 := if l.cnt && l.placed = 0 then { s0 with counters := [] } else s0
  let s2 := s1.modLaunch x.launch fun l => if x.everPlaced then l else { l with placed := l.placed + 1 }
  let s3 := gs.foldl (fun s g => takeTlb (clearGrant s g) x.launch (2 ^ x.desc.tlbs) g.core) (refreshCores s2 gs)
  let s4 := setCushion s3 t x gs
  let s5 := (s4.modTask t fun y => { y with waves := [] }).seat t gs
  match l.bcast with
  | some p => gs.zipIdx.foldl (fun s g => bcastCtx s t p g.2 g.1) s5
  | none =>
    (List.range x.nblk).foldl (fun s b => (List.range x.desc.nwave).foldl (fun s i =>
      match gs.find? fun g => g.blk = b && g.part = i / max 1 x.desc.wpc with
      | some g => startWave s (newWave x.desc t b i g.core (i % 4))
      | none => s) s) s5

/-- A saved task returns (R362). -/
def State.returnTask (s : State) (t : Nat) (x : Task) (gs : List Grant) : State :=
  let s1 := gs.foldl (fun s g => takeTlb s x.launch (2 ^ x.desc.tlbs) g.core) s
  restoreTask ((setCushion s1 t x gs).seat t gs) t x.frame x.data gs

/-- A task that has its turn is placed by the descriptor that has just been read for it, if that still fits (R345, log entry 79). -/
def State.placeNew (s : State) (t : Nat) (fr : FrameLoc) : State :=
  match kfind s.tasks t with
  | none => s
  | some x =>
    match placement s x, kfind s.launches x.launch with
    | some gs, some l => if s.frameFits t l.asid (frameBound x) fr then (s.modTask t fun y => { y with frame := fr }).startTask t x l gs else s
    | _, _ => s

/-- The scheduler places the task that comes next, new or saved; `fr` is the frame that the service has allocated to a new one, and what is no
frame for it places nothing (R355). A saved evaluator returns to a slot of the reserve. -/
def execTaskPlace (task : Nat) (fr : FrameLoc) (s : State) : Out :=
  machineMove s (
    let s := s.sliceOver
    match kfind s.tasks task with
    | none => s
    | some x =>
      match x.evalAt with
      | some (place, home, cl) =>
        if !offered s task x then s
        else
          match returnSlot s x place home cl with
          | some e =>
            let g := evaluatorGrant s x.desc e.core e.part
            ((toPart s task e.part).modTask task fun y => { y with reserveSlot := some (e.cluster, e.r) }).returnTask task
              { x with data := movePart x.data e.part } [g]
          | none => s
      | none =>
        match nextPlaced s (offers s) with
        | some (t, gs) =>
          if t ≠ task then s
          else if x.data.grants ≠ [] then s.returnTask t x gs
          else
            match kfind s.launches x.launch with
            | some l => (s.reread t x l).placeNew t fr
            | none => s
        | none => s)
where
  /-- An evaluator's summary buffer and its wave follow it to another partition. -/
  movePart (d : FrameData) (p : Nat) : FrameData := { d with sums := d.sums.map fun b => { b with prt := p } }
  toPart (s : State) (t p : Nat) : State :=
    { s with waves := s.waves.map fun (w : Nat × Wave) => if w.2.task = t then (w.1, { w.2 with part := p }) else w }

/-! ### Evaluators (R280, R402) -/

/-- The scalars that an evaluator receives: the cell's address, its 32 bytes, its RSCOPE. -/
def evaluatorRegs (r : EvalReq) (w : Wave) : Wave :=
  let w1 := w.wrS2 480 r.va
  let w2 := (List.range 8).foldl (fun w k => w.wrS (482 + k) (BitVec.ofNat 32 (ofBytes ((r.bytes.drop (4 * k)).take 4)))) w1
  w2.wrS 490 (BitVec.ofNat 32 (scopeNum r.rscope))

/-- Waiting requests in the order in which they are served: higher PRIO first, then oldest. -/
def evalOrder (l : List EvalReq) : List EvalReq := (List.range 16).flatMap fun i => l.filter fun r => r.prio = 15 - i

/-- A free reserve slot takes the first waiting request that it can serve. -/
def execEvaluatorPlace (req : Nat) (fr : FrameLoc) (s : State) : Out :=
  machineMove s (
    match (evalOrder s.evalReqs).find? fun r => (freeSlot s r.launch r.desc none r.place r.homeDie r.cluster).isSome with
    | none => s
    | some r =>
      let asid := ((kfind s.launches r.launch).map (·.asid)).getD 0
      if r.id ≠ req || !s.frameFits s.nextTask asid (frameBound { launch := r.launch, gang := 0, desc := r.desc }) fr then s
      else
        match freeSlot s r.launch r.desc none r.place r.homeDie r.cluster with
        | none => s
        | some e =>
          let t := s.nextTask
          let g := evaluatorGrant s r.desc e.core e.part
          let x : Task :=
            { launch := r.launch
              gang := 0
              desc := r.desc
              frame := fr
              cell := some r.cell
              reserveSlot := some (e.cluster, e.r)
              evalAt := some (r.place, r.homeDie, r.cluster) }
          let s1 := { s with tasks := kinsert s.tasks t x, nextTask := t + 1, evalReqs := s.evalReqs.filter fun q => q.id ≠ req }
          let s2 := (takeTlb (clearGrant (refreshCores s1 [g]) g) r.launch (2 ^ r.desc.tlbs) g.core).seat t [g]
          (startWave s2 (evaluatorRegs r (newWave r.desc t 0 0 e.core e.part))).modGrowth r.cell fun h => { h with evaluator := some t })

/-! ### The ends of tasks and launches (R281, R335, R337) -/

/-- The storage addresses of the 64-byte lines from a virtual address on, if the hub may write them all. -/
def State.hubTargets (s : State) (asid va : Nat) : Nat → State × Option (List Nat)
  | 0 => (s, some [])
  | n + 1 =>
    let (s1, r) := s.translate (hubWalker asid) va .write false
    match r with
    | .error _ => (s1, none)
    | .ok l =>
      let (s2, rest) := s1.hubTargets asid (va + 64) n
      (s2, rest.map fun ks => l.key :: ks)

/-- The 160 bytes of a counter record (R337). -/
def counterRecord (s : State) : List Byte :=
  (List.range 4).flatMap fun d =>
    let c : Counters := kget {} s.counters d
    toBytes c.ldloc.toNat 8 ++ toBytes c.ldrem.toNat 8 ++ toBytes c.stloc.toNat 8 ++ toBytes c.strem.toNat 8 ++ toBytes c.walk.toNat 8

/-- The counter record of a launch that has ended, or the record with code 9. -/
def State.writeCounters (s : State) (l : Launch) : State :=
  let bs := counterRecord s
  match s.hubTargets l.asid l.crec.toNat 3 with
  | (s1, some ks) => ks.zipIdx.foldl (fun s k => s.moveService k.1 ((bs.drop (64 * k.2)).take 64)) s1
  | (s1, none) =>
    s1.log l.queue (toBytes 0xFF 1 ++ toBytes 9 1 ++ toBytes l.pktLevel 1 ++ toBytes 0 5 ++ toBytes l.pktAddr 8 ++ (l.pkt ++ List.replicate 48 0).take 48)

/-- Whether every task of a launch has ended and no evaluator of it waits for room. -/
def launchOver (s : State) (l : Nat) : Bool :=
  (s.tasks.all fun t => t.2.launch ≠ l || t.2.st = .retired || t.2.st = .killed) && s.evalReqs.all fun r => r.launch ≠ l

/-- A launch is done when its last task has ended. -/
def State.launchCheck (s : State) (l : Nat) : State :=
  match kfind s.launches l with
  | none => s
  | some x =>
    if x.done || !launchOver s l then s
    else
      let s1 := s.modLaunch l fun y => { y with done := true }
      if x.cnt then s1.writeCounters x else s1

/-- An evaluator that ends leaves its cell FAILED if it is still GROWING (R281). -/
def State.evaluatorEnd (s : State) (t : Nat) (x : Task) (cause kind pc addr : Nat) : State :=
  match x.cell with
  | none => s
  | some c =>
    if s.tag c = tGROWING && s.evaluatorOf c = some t then
      s.failCell ((x.grants.head?.map (·.core)).getD 0) (s.asidOf t) t c cause kind pc addr
    else s

/-- Whether a task's engine operations and copies have completed. -/
def State.copiesOver (s : State) (t : Nat) (x : Task) : Bool :=
  ((taskCtxs s t x).all fun p => (s.core p.1).ops.all fun q => q.ctx ≠ p.2.1) && s.copies.all fun p => p.2.task ≠ t

/-- The copies that wait at a circular buffer for a slot take the next ones, whoever holds them: their task is going and nothing else will free one
(R152, R335, log entry 33). -/
def State.seatWriters (s : State) (core n : Nat) : State :=
  let s1 := (kget [] (s.core core).cbWriters n).foldl (fun s w =>
    match w with
    | .frag _ _ => s
    | .copy id =>
      match kfind s.copies id with
      | none => s
      | some c =>
        let b := s.cb core n
        let (b', slot) := b.takeFree
        { s.setCb core n b' with copies := kinsert s.copies id (c.placeIn n slot (c.winBase + b.offset slot)) }) s
  let x := s1.core core
  s1.setCore core { x with cbWriters := kerase x.cbWriters n }

/-- Whether a copy of a task waits for a slot, and all of them with slots. -/
def State.slotless (s : State) (t : Nat) : Bool := s.copies.any fun p => p.2.task = t && p.2.slotOf.isSome
def State.seatCopies (s : State) (x : Task) : State := x.grants.foldl (fun s g => g.cbs.foldl (fun s n => s.seatWriters g.core n) s) s

/-- The fragments and contexts of a task, and its copies' owners, as storing agents (R210). -/
def State.agents (s : State) (t : Nat) : List Nat :=
  (s.waves.filter fun p => p.2.task = t).flatMap (fun p => (List.range 16).map fun n => fragKey p.1 n) ++
  ((kfind s.tasks t).map fun x => x.grants.map fun g => ctxKey t g.blk g.part).getD []

/-- Takes a task off its cores for good: its entries are published, its room is freed, its waves go. -/
def State.clearTask (s : State) (t : Nat) (x : Task) : State :=
  let s1 := ((taskCores x).foldl (fun s c => s.publish c .system t (s.agents t)) s).chargeTask t x
  let ks := (s1.waves.filter fun p => p.2.task = t).map (·.1)
  let s2 := ks.foldl (fun s k => s.leaveCore k) s1
  let s3 := x.grants.foldl (fun s g => freeGrant s t x.launch g) s2
  { s3 with waves := s3.waves.filter fun p => p.2.task ≠ t, cushions := kerase s3.cushions t }.modTask t fun y =>
    { y with grants := [], waves := [], data := {}, reports := [], halt := false, slice := false, pf := false, waiting := false }

/-- A task has ended: its blocks leave their barriers, and its launch may be done. -/
def State.taskEnded (s : State) (t : Nat) (x : Task) (st : TaskSt) : State :=
  let s1 := s.modTask t fun y => { y with st }
  ((List.range x.nblk).foldl (fun s b => s.barSync t b) s1).launchCheck x.launch

/-- Forgets a task's own barriers, for a restart. -/
def State.newBarriers (s : State) (t nblk : Nat) : State :=
  { s with barriers := (List.range nblk).foldl (fun m b => kerase m (barBlock t b)) (kerase s.barriers (barGang t)) }

/-- What a killed task leaves: a task that has been placed shows in its queue's next completion (R330, R338). -/
def State.killOver (s : State) (t : Nat) (x : Task) : State :=
  let q := ((kfind s.launches x.launch).map (·.queue)).getD 0
  let s1 := if x.st = .pending && !x.everPlaced then s else s.setQueue q { s.queue q with sawKill := true }
  (s1.clearTask t x).taskEnded t x .killed

/-- A kill (R335), which comes before the end that a fault has begun (R363): no access of the task performs any more but its copies; an
evaluator's cell fails. The task is gone when its copies have completed. -/
def State.killTask (s : State) (t : Nat) (restart : Bool) : State :=
  match kfind s.tasks t with
  | none => s
  | some x =>
    if x.st = .retired || x.st = .killed then s
    else
      let restart := restart && !(x.wantKill && !x.restart)
      let s1 := if restart then s else s.evaluatorEnd t x 3 0 0 0
      let ks := (s1.waves.filter fun p => p.2.task = t).map (·.1)
      let s2 := ks.foldl (fun s k => (s.leaveCore k).modWave k fun w => { w with frags := [], replay := [], cur := none, trapSave := none, npFault := none }) s1
      let mine (r : AtomReq) : Bool :=
        match r with
        | .lane k _ _ _ _ _ _ _ _ _ _ _ => ks.contains k
        | .merge k _ _ _ _ _ _ _ => ks.contains k
        | .reduce (some (k, _)) _ _ _ _ _ _ _ => ks.contains k
        | .reduce none _ _ _ _ _ _ _ => false
        | .fold _ _ _ => false
      let s3 := { s2 with atomQ := s2.atomQ.filterMap fun q =>
        let l := q.2.filter fun r => !mine r
        if l = [] then none else some (q.1, l) }
      if x.st = .resident || s3.copies.any fun p => p.2.task = t then
        (taskCtxs s3 t x).foldl (fun s p => s.modCtx p.1 p.2.1 fun c => { c with stopped := true }) (s3.modTask t fun y =>
          { y with wantKill := true, restart, stopIssue := true })
      else s3.killOver t x

/-- A task ends: by retirement when its last wave has ended and every copy has completed, by the fault that ended it, or by a kill. -/
def execTaskRetire (task : Nat) (s : State) : Out :=
  machineMove s (
    match kfind s.tasks task with
    | none => s
    | some x =>
      let q := ((kfind s.launches x.launch).map (·.queue)).getD 0
      if x.st = .retired || x.st = .killed then s
      else if (x.wantKill || x.endFault.isSome) && s.slotless task then s.seatCopies x
      else if x.wantKill then
        if !s.copiesOver task x then s
        else if x.restart then
          ((s.clearTask task x).newBarriers task x.nblk).modTask task fun y =>
            { y with st := .pending, wantKill := false, restart := false, stopIssue := false, pages := [], unresolved := [], pendingSince := s.time.toNat }
        else s.killOver task x
      else if x.st ≠ .resident then s
      else
        match x.endFault with
        | some (kind, pc, addr) =>
          let atomics := s.waves.any fun p => p.2.task = task && p.2.replay.any fun e => match e.kind with | .atomic _ => true | _ => false
          if !s.copiesOver task x || atomics then s
          else
            let s1 := ((settleTask s task x).evaluatorEnd task x 1 kind pc.toNat addr.toNat).clearTask task x
            let s2 := s1.setQueue q { s1.queue q with sawFault := true }
            (s2.modLaunch x.launch fun l => { l with faulted := l.faulted + 1 }).taskEnded task x .retired
        | none =>
          if (s.waves.all fun p => p.2.task ≠ task || p.2.ended) && (taskCtxs s task x).isEmpty && s.copies.all fun p => p.2.task ≠ task then
            ((s.evaluatorEnd task x 2 0 0 0).clearTask task x).taskEnded task x .retired
          else s)

/-! ### Pre-emption (R336) -/

/-- The largest %remain among a task's waves; a task without waves gives the value that stands for unknown. -/
def remainOf (s : State) (t : Nat) : Nat :=
  match (s.waves.filter fun p => p.2.task = t && !p.2.ended).map (·.2.remain.toNat) with
  | [] => 0xFFFFFFFF
  | l => l.foldl max 0

/-- What becomes of a victim (R336). -/
def fell (s : State) (n : Nat) (y : Task) (v : Nat × Task) : State :=
  let l : Option Launch := kfind s.launches v.2.launch
  let b := kget 0 s.hub.budgets (prioOf s y - prioOf s v.2)
  let checkpoint := s.modTask v.1 fun x => { x with slice := true, stopIssue := true }
  if v.2.wantKill then s
  else if waitsEnq s v.1 (s.procOf y) || waitsGroup s v.1 n then checkpoint
  else if remainOf s v.1 ≤ b then s
  else if (l.map fun l => l.idem && !l.det).getD false then s.killTask v.1 true
  else checkpoint

/-- A newcomer that cannot be placed chooses its victims and waits for them. -/
def State.preempt (s : State) (n : Nat) (equal : Bool) : State :=
  match kfind s.tasks n with
  | none => s
  | some y =>
    if y.cell.isSome || !offered s n y || (placement s y).isSome then s
    else
      match enough s y (victims s n y equal) with
      | none => s
      | some vs => (vs.foldl (fun s v => fell s n y v) s).modTask n fun y => { y with waiting := true }

def execPreempt (task : Nat) (s : State) : Out := machineMove s (s.sliceOver.preempt task false)

/-- At equal priority once the newcomer has waited longer than its priority's slice. -/
def execSliceExpiry (task : Nat) (s : State) : Out :=
  machineMove s (
    let s := s.sliceOver
    match kfind s.tasks task with
    | none => s
    | some y => if pastSlice s y then s.preempt task true else s)

/-! ### Saving (R361, R363) -/

/-- Posts the reports of a halt that is delivered (R363, R368). -/
def State.postHalts (s : State) (t : Nat) : State :=
  match kfind s.tasks t with
  | none => s
  | some x =>
    if x.halt && !x.pf then
      (x.reports.foldl (fun s r => s.postCore r.1 r.2) s).modTask t fun y => { y with reports := [] }
    else s

/-- The state of a task by its causes (R335, R363). -/
def causeState (x : Task) : TaskSt := if x.pf then .paged else if x.halt || x.slice then .saved else .pending

/-- A task that issues no more is saved once its operations, copies and atomics have completed. -/
def execTaskSave (task : Nat) (s : State) : Out :=
  machineMove s (
    match kfind s.tasks task with
    | none => s
    | some x =>
      if x.st ≠ .resident || !x.stopIssue || x.wantKill || x.endFault.isSome || !settledTask s task x then s
      else
        let s1 := (settleTask s task x).chargeTask task x
        let s2 := writeFrame s1 task x
        (s2.modTask task fun y => { y with st := causeState y, stopIssue := false, pendingSince := s.time.toNat, reserveSlot := if y.moving then y.reserveSlot else none, moving := false }).postHalts task)

/-! ### Charges and the watchdog (R245, R287, R314, R354) -/

/-- A resident task's core time is charged at every millisecond. -/
def execChargeTick (task : Nat) (s : State) : Out :=
  machineMove s (
    match kfind s.tasks task with
    | some x => if x.st = .resident && 1000000 ≤ s.time.toNat - x.chargedAt then s.chargeTask task x else s
    | none => s)

/-- Whether a task has been silent for its window. -/
def silentFor (s : State) (x : Task) : Bool := x.wdN ≠ 0 && 2 ^ x.wdN ≤ s.cycle - x.silent

/-- Whether a fragment's wait counts as active: a barrier with a member queued for placement, a cell whose evaluator waits for room, an
entry-free event whose base die has an entry held by an evaluator that is not silent. -/
def activeWait (s : State) (f : Frag) : Bool :=
  match f.st with
  | .waiting (.barrier key) =>
    key % 3 = 2 && match kfind s.launches (key / 3 / 256) with
      | some l => (kget [] l.groups (key / 3 % 256)).any fun b =>
          match taskOfBlock s (key / 3 / 256) b with
          | some (t, _) => ((kfind s.tasks t).map fun x => (x.st = .pending || x.st = .saved) && !x.halt && !x.pf).getD false
          | none => false
      | none => false
  | .parked c => s.evalReqs.any fun r => r.cell = c
  | .parkedFree b => (kget [] s.growth b).any fun g =>
      match g.evaluator.bind fun e => kfind s.tasks e with
      | some x => !silentFor s x
      | none => false
  | _ => false

/-- The watchdog record of R354. -/
def watchdogRecord (s : State) (t n : Nat) : List Byte × DWord :=
  match s.lowestWave t with
  | some (k, w) =>
    match s.shown k w with
    | some f => (imageOf (faultRecord w f f.pc 0 0 { kind := 0x50, level := 4, detail := n }), f.pc)
    | none => ([], 0)
  | none =>
    let w : Wave := { task := t, blk := 0, idx := 0, core := 0, part := 0, alloc := 0 }
    (imageOf (faultRecord w { num := 0, pc := 0, mask := 0 } 0 0 0 { kind := 0x50, level := 4, detail := n }), 0)

def execWatchdogExpiry (task : Nat) (s : State) : Out :=
  machineMove s (
    match kfind s.tasks task with
    | none => s
    | some x =>
      if x.st ≠ .resident || !silentFor s x || x.endFault.isSome || x.wantKill ||
          s.waves.any (fun p => p.2.task = task && p.2.resident && p.2.frags.any (activeWait s)) then s
      else
        let r := watchdogRecord s task x.wdN
        s.endTask task [r.1] (0x50, r.2, 0))

/-! ### Pages (R261, R335) -/

/-- The not-present cause is over: the causes that are left say what the task is. -/
def State.pagesOver (s : State) (t : Nat) (x : Task) : State :=
  let y := { x with pf := false, pages := [], pendingSince := s.time.toNat, first := true }
  ((s.wakeProc (s.procOf x)).setTask t { y with st := causeState y }).postHalts t

/-- The service reports every saved page present. -/
def execPagePresentReport (task : Nat) (s : State) : Out :=
  machineMove s (
    match kfind s.tasks task with
    | some x => if x.st = .paged then s.pagesOver task x else s
    | none => s)

/-- The service reports the page of a faulting wave or context unresolvable: its fault enters the handler after the restore. -/
def execPageUnresolvable (task wave : Nat) (s : State) : Out :=
  machineMove s (
    match kfind s.tasks task with
    | some x => if x.st = .paged then s.pagesOver task { x with unresolved := x.unresolved ++ [wave] } else s
    | none => s)

end Sys2Proof.Machine
end

