-- ==== Sys2Proof/Machine/Service.lean ====
section
/-! DEFINITION. Requests to the resident service: packets and queues (R313, R316, R317, R321, R338), ASIDs and invalidations (R252, R258,
R259), windows (R385), reservations (R399), registers (R245, R265, R270, R314, R315, R336, R365), and debugger sessions (R361 to R369). -/

namespace Sys2Proof.Machine

/-! ### Requests (R313, R376) -/

/-- Answers of the service to a client. -/
def stOk : Nat := 0
def stRingFull : Nat := 1
def stRefused : Nat := 2
def stBusy : Nat := 3
def stRetiring : Nat := 4
def stNotBound : Nat := 5

def State.answer (s : State) (st : Nat) : State := { s with hub := { s.hub with status := st } }

/-- A refused request changes nothing. -/
def State.refuse (s : State) (st : Nat) : State := s.answer st

/-- Whether the service runs. -/
def State.serving (s : State) : Bool := s.hub.on && s.hub.booted && !s.hub.recovery && !s.hub.frozen

/-- A client's request: held while the service is being replaced (R376). -/
def request (i : Instr) (s f : State) : Out :=
  .next (
    if !s.serving then s
    else if s.hub.updating then { s with hub := { s.hub with held := s.hub.held ++ [i] } }
    else f)

/-- An act of the service of its own. -/
def serviceAct (s f : State) : Out := .next (if s.serving then f else s)

/-- The service-core time of a request is charged to its process; how long it takes is open (R314). -/
def State.chargeRequest (s : State) (p : Nat) : State := s.charge p (Config.freeNat s.ctr 9000)

/-! ### Submission (R313, R377) -/

/-- Whether a packet that a client submits asks for a launch that the service refuses. -/
def State.refusedPacket (s : State) (q : Nat) (bs : List Byte) : Bool :=
  match decodePacket bs with
  | .ok (.dispatch p) =>
    match (s.readLaunch q p).2 with
    | .error .refused => true
    | .error (.fault _) => false
    | .ok l => !s.fitsEver l
  | .ok (.bcast p) => !s.fitsEver (bcastLaunch q (s.queue q) p)
  | _ => false

def State.submit (s : State) (proc q : Nat) (pkts : List (List Byte)) : State :=
  let x := s.queue q
  if (x.st ≠ 1 && x.st ≠ 2) || x.proc ≠ proc || pkts.any (fun b => b.length ≠ 64) then s.refuse stRefused
  else if x.noRoom pkts.length then s.refuse stRingFull
  else if pkts.any (s.refusedPacket q) then s.refuse stRefused
  else (((s.wakeProc proc).pushPackets q pkts).chargeRequest proc).answer stOk

def execSubmitPackets (proc queue : Nat) (pkts : List (List Byte)) (s : State) : Out :=
  request (.submitPackets proc queue pkts) s (s.submit proc queue pkts)

/-! ### Queues (R316, R317, R321, R338) -/

/-- The bound ASID of a process. -/
def State.boundAsid (s : State) (p : Nat) : Option Nat := ((s.proc p).asid).filter fun a => (kget {} s.asids a).st = .bound

/-- Whether a reservation of a process has been granted: no task of a queue that is not bound to it is left on its clusters (R399). -/
def State.granted (s : State) (p i : Nat) : Bool :=
  match s.hub.reservations[i]? with
  | none => false
  | some r =>
    r.1 = p && s.tasks.all fun t => t.2.st ≠ .resident || (((kfind s.launches t.2.launch).map fun l => decide ((s.queue l.queue).reserved = some i)).getD false) ||
      t.2.grants.all fun g => !r.2.2.contains (clusterOf g.core)

/-- A queue's 64-byte descriptor (R316). -/
def Queue.image (x : Queue) : List Byte :=
  toBytes x.ring 8 ++ toBytes x.rptr 8 ++ toBytes x.wptr 8 ++ toBytes x.log 1 ++ toBytes x.st 1 ++ toBytes x.asid 2 ++ toBytes x.proc 4 ++
  toBytes x.flog 8 ++ toBytes x.flogn 1 ++ toBytes 0 3 ++ toBytes x.fidx 4 ++ toBytes x.drops 8 ++ toBytes x.ack 4 ++ toBytes 0 4

def State.createQueue (s : State) (proc q ring log flog flogn : Nat) (res : Option Nat) : State :=
  match s.boundAsid proc with
  | none => s.refuse stRefused
  | some a =>
    if 4096 ≤ q || (s.queue q).st ≠ 0 || ring % 4096 ≠ 0 || log < 4 || 16 < log || flog % 64 ≠ 0 || 12 < flogn || res.any fun i => !s.granted proc i then
      s.refuse stRefused
    else
      let x : Queue := { ring, log, st := 1, asid := a, proc, flog, flogn, levels := [newLevel true ring 0 0], reserved := res }
      ((s.setQueue q x).chargeRequest proc).answer stOk

def execCreateQueue (proc queue ring log flog flogn : Nat) (reservation : Option Nat) (s : State) : Out :=
  request (.createQueue proc queue ring log flog flogn reservation) s (s.createQueue proc queue ring log flog flogn reservation)

/-- The packet of the ring that a queue is executing: with an IB open, the IB. -/
def Queue.ringPos (x : Queue) : Nat := (x.levels.getLast?.map (·.pos)).getD x.rptr

/-- Requests for evaluators of a launch that is killed fail their cells. -/
def State.dropRequests (s : State) (l : Nat) : State :=
  (s.evalReqs.filter fun r => r.launch = l).foldl (fun s r =>
    s.failCell (8 * r.cluster) (((kfind s.launches l).map (·.asid)).getD 0) 0 r.cell 3 0 0 0) s

def State.destroyQueue (s : State) (q : Nat) (kill : Bool) : State :=
  let x := s.queue q
  if x.st ≠ 1 && x.st ≠ 2 then s.refuse stRefused
  else
    let p := x.ringPos
    let y := { x with
      st := 3
      polling := false
      levels := [newLevel true x.ring 0 p]
      drainTo := x.wptr
      drainKill := kill }
    let s1 := (s.setQueue q y).endEnqs q
    let ls := (s1.launches.filter fun l => l.2.queue = q && !l.2.done).map (·.1)
    let s2 :=
      if kill then
        ls.foldl (fun s l => ((s.tasks.filter fun t => t.2.launch = l).foldl (fun s t => s.killTask t.1 false) (s.dropRequests l)).launchCheck l) s1
      else s1
    (s2.chargeRequest x.proc).answer stOk

def execDestroyQueue (queue : Nat) (kill : Bool) (s : State) : Out := request (.destroyQueue queue kill) s (s.destroyQueue queue kill)

/-- The counts of a destroy's reply: tasks retired, killed, never placed, of every gang that the queue dispatched (R338). -/
def destroyCounts (s : State) (q : Nat) : Nat × Nat × Nat :=
  let ts := (s.tasks.filter fun t => t.2.cell.isNone && ((kfind s.launches t.2.launch).map (·.queue)) = some q).map (·.2)
  ((ts.filter fun t => t.st = .retired).length, (ts.filter fun t => t.st = .killed && t.everPlaced).length,
    (ts.filter fun t => t.st = .killed && !t.everPlaced).length)

/-- A drained queue becomes free, with the reply to its destroy; its launches and tasks are forgotten. -/
def State.freeQueue (s : State) (q : Nat) : State :=
  let (r, k, n) := destroyCounts s q
  let x := s.queue q
  let own (l : Nat) : Bool := ((kfind s.launches l).map (·.queue)) = some q
  { s.setQueue q { x with st := 0, levels := [], polling := false } with
    launches := s.launches.filter fun l => l.2.queue ≠ q
    tasks := s.tasks.filter fun t => !own t.2.launch
    hub := { s.hub with reply := toBytes r 8 ++ toBytes k 8 ++ toBytes n 8 } }

/-- Restarts a stopped queue at RPTR. -/
def State.restartQueue (s : State) (q : Nat) : State :=
  let x := s.queue q
  if x.st ≠ 2 then s.refuse stRefused
  else (((s.wakeProc x.proc).setQueue q { x with st := 1, polling := false, levels := [newLevel true x.ring 0 x.rptr] }).chargeRequest x.proc).answer stOk

def execRestartQueue (queue : Nat) (s : State) : Out := request (.restartQueue queue) s (s.restartQueue queue)

/-- ACK advances, never past FIDX. -/
def State.ackLog (s : State) (q n : Nat) : State :=
  let x := s.queue q
  if x.st = 0 then s.refuse stRefused
  else
    let open_ := (x.fidx + 2 ^ 32 - x.ack) % 2 ^ 32
    ((s.setQueue q { x with ack := (x.ack + min n open_) % 2 ^ 32 }).chargeRequest x.proc).answer stOk

def execAckFaultLog (queue n : Nat) (s : State) : Out := request (.ackFaultLog queue n) s (s.ackLog queue n)

/-! ### Invalidations (R258) -/

/-- Whether `n` bytes at an address meet a range of addresses; no range stands for all of them. -/
def inRange (va n : Nat) (range : Option (Nat × Nat)) : Bool :=
  match range with
  | none => true
  | some (a, len) => va < a + len && a < va + n

/-- The entries that an invalidation removes. -/
def State.matching (s : State) (asid : Nat) (range : Option (Nat × Nat)) : List Tlb :=
  s.tlb.filter fun t => t.asid = asid && t.gone.isNone && inRange (t.vpn * 2 ^ (levelBits t.level).2) (2 ^ (levelBits t.level).2) range

/-- The accesses of an address space, by wave and entry, that hold a line of a range and have not performed, those of saved tasks among them:
they keep the addresses that they were translated to (R144, R357). -/
def openAccesses (s : State) (asid : Nat) (range : Option (Nat × Nat)) : List (Nat × Nat) :=
  s.waves.flatMap fun p =>
    if s.asidOf p.2.task = asid then
      (p.2.replay.filter fun e => e.lines.any fun n => inRange (128 * n % 2 ^ 57) 128 range).map fun e => (p.1, e.id)
    else []

/-- The running copies of an address space that hold a line of a range. -/
def openCopies (s : State) (asid : Nat) (range : Option (Nat × Nat)) : List Nat :=
  (s.copies.filter fun p => s.asidOf p.2.task = asid && p.2.vlines.any fun n => inRange (64 * n % 2 ^ 57) 64 range).map (·.1)

/-- An invalidation starts: the matching entries are removed, but an access may still find them until it completes. `old` gives the
main-memory leaves whose mapping has been removed. -/
def State.invalidate (s : State) (asid : Nat) (range : Option (Nat × Nat)) (old : List OldLeaf) : State :=
  let l := s.matching asid range
  let id := s.nextInval
  { s with
    tlb := s.tlb.map fun t => if l.contains t then { t with gone := some id } else t
    invals := kinsert s.invals id { asid, range, waits := openAccesses s asid range, copies := openCopies s asid range, old }
    nextInval := id + 1 }

def execInvalidate (asid : Nat) (range : Option (Nat × Nat)) (s : State) : Out :=
  request (.invalidate asid range) s (((s.invalidate asid range []).chargeRequest (kget {} s.asids asid : Asid).proc).answer stOk)

/-! ### Page entries (R249, R252, R379, R380, R385, R387) -/

/-- Whether a frame touches the storage of a channel of a stack; two stacks to a die (R379). -/
def touches (e size stack chan : Nat) : Bool :=
  (List.range (size / 64)).any fun i =>
    let key := keyOf (bits e 59 57) (bits e 51 8 * 256 + 64 * i)
    homeDie key = stack / 2 && Config.channelOf (key / 64) % 64 = 32 * (stack % 2) + chan

/-- What a live group's region maps in its address space: addresses and entries (R387). -/
def State.regionOf (s : State) (g : Group) : List (Nat × Nat) :=
  match g.live, g.ranks[g.rank]? with
  | true, some r =>
    let base := r.base.toNat % 2 ^ 57
    ((s.leaves g.asid).filter fun m => m.va < base + r.len && base < m.va + leafSize m.level).map fun m => (m.va, m.entry)
  | _, _ => []

/-- Whether the service never makes a mapping: interleaved while a die is away or going (R380), on withdrawn storage (R379), or of a window
by a process that does not own it, beyond its length, with a right it lacks or with a placement or cells (R385). -/
def State.neverMaps (s : State) (m : Mapping) : Bool :=
  match m.window with
  | none => (m.plc = 0 && s.hub.dieGoing ≠ []) || s.hub.channelsOut.any fun c => touches m.entry (leafSize m.level) c.1 c.2
  | some n =>
    let x : Window := kget {} s.windows n
    !x.active || x.freeing ≠ [] || (kget {} s.asids m.asid : Asid).proc ≠ x.proc || m.plc ≠ 0 || bit m.entry 56 ||
      (bit m.entry 1 && !x.r) || (bit m.entry 2 && !x.w) || x.len < bits (bits m.entry 51 8 * 256) 39 0 + leafSize m.level

/-- The state with page entries in H, as it would be once they are written. -/
def State.withPtes (s : State) (l : List (Nat × Nat)) : State :=
  l.foldl (fun s w => s.wrH ((toBytes w.2 8).zipIdx.map fun b => (w.1 + b.2, b.1)) s.posn) s

/-- The storage address and the value that a page entry's write gives. -/
def PteWrite.at (w : PteWrite) : Nat × Nat := (keyOf w.tplc w.pa, w.val.toNat)

/-- The entries that wait to be mapped, apart from those at some storage addresses. -/
def State.pendingPtes (s : State) (l : List (Nat × Nat)) : List (Nat × Nat) :=
  (s.hub.remaps.filter fun r => l.all fun w => w.1 ≠ r.key).map fun r => (r.key, r.val.toNat)

/-- The state as it would be once every entry that waits is written. -/
def State.toCome (s : State) : State := s.withPtes (s.pendingPtes [])

/-- The leaves whose removal is not complete. -/
def State.oldLeaves (s : State) : List OldLeaf := s.invals.flatMap fun p => p.2.old

/-- Whether state `t` maps a task's frame otherwise than the service does: not where it lies, or for writing, and `s` does not (R355). -/
def State.spoilsFrame (s t : State) : Bool :=
  t.liveFrames.any fun f => (s.frameMapped f.1 f.2 && !t.frameMapped f.1 f.2) || (!s.frameWritten f.1 f.2 && t.frameWritten f.1 f.2)

/-- Whether the service refuses to make the mappings of state `t` out of its own: a mapping that it never makes, a storage byte in both
views, a change of a live group's region or of a frame's pages. -/
def State.refusesMap (s t : State) : Bool :=
  (t.mapped.any fun m => !s.mapped.contains m && s.neverMaps m) || mixes (mains t.mapped) ||
  (s.groups.any fun g => t.regionOf g.2 ≠ s.regionOf g.2) || s.spoilsFrame t

/-- Whether a leaf changes what another one gives: an address of the same address space by another placement, or a storage byte by the other
view. -/
def Mapping.replaces (m : Mapping) (o : OldLeaf) : Bool :=
  m.main && ((o.asid = m.asid && o.va < m.va + leafSize m.level && m.va < o.va + o.size && bits o.entry 59 57 ≠ m.plc) ||
    mixedViews (o.entry, o.size) (m.entry, leafSize m.level))

/-- Whether the mappings of state `t` must wait for an invalidation: one of them changes the placement of a page, or reaches storage by the
other view, of a mapping that stands or whose removal is not complete (R252). -/
def State.mustWait (s t : State) : Bool :=
  (t.mapped.filter fun m => !s.mapped.contains m).any fun m => (olds s.mapped ++ s.oldLeaves).any m.replaces

/-- Starts the invalidation of every bound address space. -/
def State.invalidateAll (s : State) (old : List OldLeaf) : State := s.bound.foldl (fun s a => s.invalidate a none old) s

/-- Writes page entries, published at device scope, and starts the invalidations (R258). -/
def State.putPtes (s : State) (l : List (Nat × Nat)) : State :=
  let s1 := l.foldl (fun s w => s.moveService w.1 (toBytes w.2 8)) s
  s1.invalidateAll ((olds s.mapped).filter fun o => !(olds s1.mapped).contains o)

/-- Writes page entries; where mappings must wait, the old ones are removed and the new ones follow the invalidations (R252). -/
def State.writePtes (s : State) (l : List (Nat × Nat)) : State :=
  let s0 : State := { s with hub := { s.hub with remaps := s.hub.remaps.filter fun r => l.all fun w => w.1 ≠ r.key } }
  if s.mustWait (s.withPtes l) then
    let s1 := s0.putPtes (l.map fun w => (w.1, 0))
    { s1 with hub := { s1.hub with remaps := s1.hub.remaps ++ l.map fun w => { waits := kkeys s1.invals, key := w.1, val := BitVec.ofNat 64 w.2 } } }
  else s0.putPtes l

/-- An entry that has waited is written when its mappings obey the rules as things stand now; it waits for the invalidations that have begun
since where they make it, and is given up when the service would not make its mappings any more (R252, R385, log entry 59). -/
def State.mapEntry (s : State) (r : Remap) : State :=
  let t := s.withPtes [(r.key, r.val.toNat)]
  if s.refusesMap t then s
  else if s.mustWait t then
    if s.invals = [] then s else { s with hub := { s.hub with remaps := s.hub.remaps ++ [{ r with waits := kkeys s.invals }] } }
  else s.moveService r.key (toBytes r.val.toNat 8)

/-- Takes up the page entries that have waited for the last of their invalidations (R252). -/
def State.mapAnew (s : State) : State :=
  let s1 : State := { s with hub := { s.hub with remaps := s.hub.remaps.filter fun r => r.waits ≠ [] } }
  (s.hub.remaps.filter fun r => r.waits = []).foldl State.mapEntry s1

/-- Whether a request of another device is to act, in a home's queue, on storage that a mapping gave (R380, R393). -/
def AtomReq.onLeaf (r : AtomReq) (o : OldLeaf) : Bool :=
  match r with
  | .reduce none _ _ _ a _ _ _ => leafHolds o.entry o.size a
  | _ => false

/-- Whether an invalidation still waits for an access, a copy, or a request in a home's queue. -/
def Inval.waiting (s : State) (x : Inval) : Bool :=
  (x.waits.any fun a => ((kfind s.waves a.1).map fun w => w.replay.any fun e => e.id = a.2).getD false) ||
  (x.copies.any fun c => (kfind s.copies c).isSome) ||
  s.atomQ.any fun q => q.2.any fun r => x.old.any r.onLeaf

/-- What follows a completed invalidation: entries are mapped anew, windows become free. -/
def State.invalidated (s : State) (id : Nat) : State :=
  let remaps := s.hub.remaps.map fun r => { r with waits := r.waits.filter (· ≠ id) }
  let windows := s.windows.map fun (p : Nat × Window) =>
    if p.2.freeing.contains id then (p.1, if p.2.freeing.all (· = id) then {} else { p.2 with freeing := p.2.freeing.filter (· ≠ id) }) else p
  { s with
    tlb := s.tlb.filter fun t => t.gone ≠ some id
    invals := kerase s.invals id
    windows
    hub := { s.hub with remaps } }.mapAnew

/-- An invalidation completes once every access translated through a removed entry has performed. -/
def execInvalidationComplete (id : Nat) (s : State) : Out :=
  machineMove s (
    match kfind s.invals id with
    | none => s
    | some x => if x.waiting s then s else s.invalidated id)

def State.registerMemory (s : State) (p : Nat) (l : List PteWrite) : State :=
  let ws := l.map PteWrite.at
  if s.refusesMap (s.withPtes (s.pendingPtes ws ++ ws)) then s.refuse stRefused else ((s.writePtes ws).chargeRequest p).answer stOk

def execMemoryRegistration (r : MemReg) (s : State) : Out := request (.memoryRegistration r) s (s.registerMemory r.proc r.ptes)

/-- Whether a live group's region of this device has a leaf at a storage address, and which groups have (R387). -/
def State.regionGroups (s : State) (key : Nat) : List Nat :=
  (s.groups.filter fun g => (s.leaves g.2.asid).any fun m => m.key = key && (s.regionOf g.2).contains (m.va, m.entry)).map (·.1)

/-! ### ASIDs (R259) -/

/-- Binds a free ASID to a root; the mappings that it brings obey the same rules (R252, R385). -/
def State.bindAsid (s : State) (proc asid root : Nat) : State :=
  let x : Asid := kget {} s.asids asid
  if 2 ^ 16 ≤ asid || root % 8192 ≠ 0 then s.refuse stRefused
  else
    match x.st with
    | .retiring => s.refuse stRetiring
    | .bound => s.refuse stBusy
    | .free =>
      let s1 := { s with asids := kinsert s.asids asid { st := .bound, root, tplc := 0, proc } }
      let t := s1.toCome
      if mixes (mains s1.mapped ++ s.oldLeaves.map fun o => (o.entry, o.size)) || mixes (mains t.mapped) || (t.leaves asid).any s1.neverMaps ||
          (s1.leaves asid).any s1.neverMaps || s.spoilsFrame s1 then s.refuse stRefused
      else ((s1.setProc proc { s1.proc proc with asid := some asid }).chargeRequest proc).answer stOk

def execBindAsid (proc asid root : Nat) (s : State) : Out := request (.bindAsid proc asid root) s (s.bindAsid proc asid root)

/-- Whether a task of an address space has not ended, or a live group's region lies in it (R387). -/
def State.asidBusy (s : State) (asid : Nat) : Bool :=
  (s.tasks.any fun t => t.2.st ≠ .retired && t.2.st ≠ .killed && s.asidOf t.1 = asid) || s.groups.any fun g => g.2.live && g.2.asid = asid

def State.freeAsid (s : State) (asid : Nat) : State :=
  let x : Asid := kget {} s.asids asid
  match x.st with
  | .free => s.refuse stNotBound
  | .retiring => s.refuse stRetiring
  | .bound =>
    if s.asidBusy asid then s.refuse stBusy
    else
      let s1 := { s with asids := kinsert s.asids asid { x with st := .retiring } }
      ((s1.invalidate asid none (olds (s.leaves asid))).chargeRequest x.proc).answer stOk

def execFreeAsid (asid : Nat) (s : State) : Out := request (.freeAsid asid) s (s.freeAsid asid)

/-- Every TLB and walk cache has acknowledged: the invalidation that the free started is complete, and no entry of the ASID is left. -/
def execAsidRetired (asid : Nat) (s : State) : Out :=
  serviceAct s (
    let x : Asid := kget {} s.asids asid
    if x.st = .retiring && s.invals.all fun p => p.2.asid ≠ asid then
      { s with asids := kerase s.asids asid, tlb := s.tlb.filter fun t => t.asid ≠ asid }
    else s)

/-! ### Windows (R385) -/

def State.registerWindow (s : State) (win ep rbase len proc : Nat) (r w : Bool) : State :=
  if 2048 ≤ win || (kget {} s.windows win).active || len % 2 ^ 16 ≠ 0 || 2 ^ 40 < len then s.refuse stRefused
  else ({ s with windows := kinsert s.windows win { ep, rbase, len, proc, r, w, active := true } }.chargeRequest proc).answer stOk

def execRegisterWindow (win : Nat) (ep rbase len proc : Nat) (r w : Bool) (s : State) : Out :=
  request (.registerWindow win ep rbase len proc r w) s (s.registerWindow win ep rbase len proc r w)

/-- The storage addresses of the leaves that map a window, or would once the waiting entries are written. -/
def State.windowKeys (s : State) (win : Nat) : List Nat :=
  (((s.mapped ++ s.toCome.mapped).filter fun m => m.window = some win).map (·.key)).eraseDups

/-- Whether a live group's region has a page of a window (R387). -/
def State.windowInRegion (s : State) (win : Nat) : Bool :=
  s.groups.any fun g => (s.regionOf g.2).any fun m => isWindow (bits m.2 51 8 * 256) && bits m.2 50 40 = win

/-- Frees a window: its pages are unmapped, and its state becomes free when the invalidations complete; one that is on its way, or in a live
group's region, is busy. -/
def State.freeWindow (s : State) (win : Nat) : State :=
  let x : Window := kget {} s.windows win
  if !x.active then s.refuse stRefused
  else if x.freeing ≠ [] || s.windowInRegion win then s.refuse stBusy
  else
    let ks := s.windowKeys win
    let s0 : State := { s with hub := { s.hub with remaps := s.hub.remaps.filter fun r => !ks.contains r.key } }
    let s1 := s0.putPtes (ks.map fun k => (k, 0))
    let ids := (List.range (s1.nextInval - s.nextInval)).map fun i => s.nextInval + i
    ({ s1 with windows := kinsert s1.windows win (if ids = [] then {} else { x with freeing := ids }) }.chargeRequest x.proc).answer stOk

def execFreeWindow (win : Nat) (s : State) : Out := request (.freeWindow win) s (s.freeWindow win)

/-! ### The reserve and reservations (R399, R402) -/

/-- Stops a task for a save as a pre-emption. -/
def State.evict (s : State) (t : Nat) : State := s.modTask t fun x => { x with slice := true, stopIssue := true }

/-- Saves every task that has a part on one of the cores. -/
def State.evictCores (s : State) (p : Nat → Bool) : State :=
  (s.tasks.filter fun t => t.2.st = .resident && t.2.grants.any fun g => p g.core).foldl (fun s t => s.evict t.1) s

/-- Waiting requests whose allowed clusters hold no reserve slot any more fail their cells (R280). -/
def State.reserveSync (s : State) : State :=
  (s.evalReqs.filter fun r => (placeClusters r.place r.homeDie r.cluster).all fun c => (s.reserveSlots c).isEmpty).foldl (fun s r =>
    s.failCell (8 * r.cluster) (((kfind s.launches r.launch).map (·.asid)).getD 0) 0 r.cell 5 0 0 0) s

/-- Where an evaluator stands: its core and partition. -/
def Task.evalPlace (x : Task) : Option (Nat × Nat) := x.grants.head?.bind fun g => g.evalPart.map fun p => (g.core, p)

/-- A resident evaluator whose slot lies elsewhere now is saved, to return on its new slot, or on any where its slot is gone. -/
def State.moveEvaluator (s : State) (t : Nat) (x : Task) : State :=
  match x.reserveSlot with
  | some (cl, r) =>
    let at_ := (s.reserveSlots cl)[r]?
    if x.st ≠ .resident || at_ = x.evalPlace then s else (s.evict t).modTask t fun y => { y with moving := at_.isSome }
  | none => s

/-- The slots are laid out again: evaluators move, the number that each cluster holds is reported (R402). -/
def State.layReserve (s : State) : State :=
  let s1 := s.tasks.foldl (fun s t => s.moveEvaluator t.1 t.2) s
  { s1 with hub := { s1.hub with slotsHeld := (List.range 32).foldl (fun m c => kset 0 m c (s1.reserveSlots c).length) s1.hub.slotsHeld } }.reserveSync

/-- Reserves whole clusters of a die, by their numbers within it; the resident tasks there are saved. -/
def State.reserve (s : State) (proc die : Nat) (cls : List Nat) : State :=
  let l := cls.map fun c => 8 * die + c
  if cls = [] || 8 < cls.length || 4 ≤ die || cls.any (fun c => 8 ≤ c) || cls.eraseDups.length ≠ cls.length ||
      s.hub.reservations.any (fun r => r.2.2.any fun c => l.contains c) then s.refuse stRefused
  else
    let s1 := { s.sliceOver with hub := { s.hub with reservations := s.hub.reservations ++ [(proc, die, l)] } }
    ((s1.evictCores fun c => l.contains (clusterOf c)).chargeRequest proc).answer stOk

def execReserveClusters (proc die : Nat) (clusters : List Nat) (s : State) : Out :=
  request (.reserveClusters proc die clusters) s (s.reserve proc die clusters)

/-! ### Registers that the service writes -/

/-- A request of process `p` for a register's write. -/
def State.writeRegister (s : State) (p : Nat) (r : SvcReg) : State :=
  let done (t : State) : State := (t.chargeRequest p).answer stOk
  match r with
  | .watchHome d u wbase wlen wctl =>
    if (kfind s.debugQs d).isNone || 16 ≤ u || wbase % 64 ≠ 0 || 2 ^ 24 < wlen || wbase / 2 ^ 37 ≠ u / 4 || s.hub.dieOff.contains (u / 4) then
      s.refuse stRefused
    else done { s with watchH := kinsert s.watchH u { sess := d, wbase, wlen, ctl := wctl } }
  | .watchCore d c u wcbase wclen wcctl =>
    if (kfind s.debugQs d).isNone || 256 ≤ c || 4 ≤ u || canon wcbase.toNat ≠ wcbase || bits wcctl.toNat 15 6 ≠ 0 then s.refuse stRefused
    else done (s.setCore c { s.core c with watch := kinsert (s.core c).watch u { sess := d, base := wcbase, len := wclen, ctl := wcctl } })
  | .reserve d rw rv rg =>
    if 4 ≤ d || rw = 0 || 64 < rw || rv % 8 ≠ 0 || rv < 8 || 1536 < rv || 127 < rg then s.refuse stRefused
    else done { s.sliceOver with hub := { s.hub with reserves := kinsert s.hub.reserves d (rw, rv, rg) } }.layReserve
  | .slice q t => if 16 ≤ q then s.refuse stRefused else done { s with hub := { s.hub with slices := kset 0 s.hub.slices q t } }
  | .drainBudget d us => if 16 ≤ d then s.refuse stRefused else done { s with hub := { s.hub with budgets := kset 0 s.hub.budgets d us } }
  | .watchdog t n =>
    if n ≠ 0 && (n < 16 || 47 < n) then s.refuse stRefused
    else done (s.modTask t fun x => { x with wdN := n, silent := s.cycle })
  | .weight q w => if w = 0 || 65535 < w then s.refuse stRefused else done (s.setProc q { s.proc q with weight := w })

def execRegisterWrite (r : RegWrite) (s : State) : Out := request (.registerWrite r) s (s.writeRegister r.proc r.reg)

def execFwshareWrite (core part val : Nat) (s : State) : Out :=
  serviceAct s (
    if 256 ≤ core || 4 ≤ part then s
    else
      let x := s.core core
      s.setCore core { x with parts := kinsert x.parts part { (kget {} x.parts part : Part) with fwshare := BitVec.ofNat 8 val } })

/-- A time packet over a network port: at the first lock device time is stepped forward once; afterwards only the estimated offset changes,
which the service reports with the lock state (R400). In recovery no network port runs (R372). -/
def execPtpFirstLock (p : PtpTime) (s : State) : Out :=
  serviceAct s (
    if s.hub.ptpLocked then { s with hub := { s.hub with ptpOffset := p.offset } }
    else { s with time := if s.time < p.t then p.t else s.time, hub := { s.hub with ptpLocked := true, ptpOffset := p.offset } })

/-- What the service reports of the clock: its lock state and the estimated offset from the grandmaster (R400). -/
def State.ptpReport (s : State) : Bool × Int := (s.hub.ptpLocked, s.hub.ptpOffset)

/-! ### Debugger sessions (R361, R363, R364, R367 to R369) -/

/-- Opens a session for a set of tasks, whose halts it enables: its queue's header is written; the reply names the session (R368). -/
def State.openDebug (s : State) (p log base : Nat) (tasks : List Nat) : State :=
  if log < 4 || 16 < log || base % 64 ≠ 0 then s.refuse stRefused
  else
    let d := s.debugQs.foldl (fun n q => max n (q.1 + 1)) 0
    let s1 := { s with debugQs := kinsert s.debugQs d { base, log } }.debugWrite base (toBytes 0 16 ++ toBytes log 1 ++ toBytes 0 47)
    let s2 := tasks.foldl (fun s t => s.modTask t fun x => { x with debug := some d }) s1
    ({ s2 with hub := { s2.hub with reply := toBytes d 8 } }.chargeRequest p).answer stOk

def execDebuggerSession (log base : Nat) (d : DebugSet) (s : State) : Out :=
  request (.debuggerSession log base d) s (s.openDebug d.proc log base d.tasks)

/-- A halt of a task whose halts are enabled: it is saved with HALT, or, when it is on no core, HALT is set there. -/
def State.debugHalt (s : State) (t : Nat) : State :=
  match kfind s.tasks t with
  | none => s.refuse stRefused
  | some x =>
    match x.debug with
    | none => s.refuse stRefused
    | some d =>
      if x.st = .retired || x.st = .killed then s.refuse stRefused
      else
        let s1 := s.chargeRequest (s.procOf x)
        if x.st = .resident then (s1.haltTask t (some d) (s.taskReport t 3)).answer stOk
        else
          let y := { x with halt := true, reports := x.reports ++ [(d, s.taskReport t 3)] }
          ((s1.setTask t { y with st := if x.st = .paged then .paged else .saved }).postHalts t).answer stOk

def execDebugHaltRequest (task : Nat) (s : State) : Out := request (.debugHaltRequest task) s (s.debugHalt task)

/-- Sets or clears a bit of a byte of a task's frame, as the debugger does. -/
def State.frameBit (s : State) (t : Nat) (f : FrameLoc) (o i : Nat) (on : Bool) : State :=
  let x := s.frameNat f o 1
  let y := if bit x i then x - 2 ^ i else x
  s.writeFrameAt t o (toBytes (if on then y + 2 ^ i else y) 1)

/-- Offsets of the records of a kind that follow one another: each holds its own length (R355). -/
def State.recordsAt (s : State) (f : FrameLoc) : Nat → Nat → List Nat
  | 0, _ => []
  | n + 1, o => o :: s.recordsAt f n (o + s.frameNat f o 8)

/-- The offsets of a saved task's wave records, by wave, and of its tile-context records. -/
def State.waveRecords (s : State) (t : Nat) (x : Task) : List (Nat × Nat) := waveOffsets (s.frameNat x.frame 24 8) (liveWaves s t)
def State.tileRecords (s : State) (x : Task) : List Nat := s.recordsAt x.frame (s.frameNat x.frame 8 1) (s.frameNat x.frame 40 8)

/-- The debugger sets STEP in a saved task's frame header and in the chosen wave and tile records, and clears it in the others (R364). -/
def State.chooseSteps (s : State) (t : Nat) (x : Task) (waves tiles : List Nat) : State :=
  let s1 := s.frameBit t x.frame 4 3 true
  let s2 := (s.waveRecords t x).foldl (fun s p => s.frameBit t x.frame (p.2 + 13) 2 (waves.contains p.1)) s1
  (s.tileRecords x).zipIdx.foldl (fun s p => s.frameBit t x.frame (p.1 + 15) 3 (tiles.contains p.2)) s2

/-- What a saved task's frame asks of its next quantum: the waves and the tile contexts whose STEP bits stand beside the header's. -/
def State.stepsOf (s : State) (t : Nat) (x : Task) : List Nat × List Nat :=
  if x.data.grants = [] || !bit (s.frameNat x.frame 4 1) 3 then ([], [])
  else
    (((s.waveRecords t x).filter fun p => bit (s.frameNat x.frame (p.2 + 13) 1) 2).map (·.1),
      ((s.tileRecords x).zipIdx.filter fun p => bit (s.frameNat x.frame (p.1 + 15) 1) 3).map (·.2))

/-- The STEP bits of a frame come with the rest of the state that it gives back: a wave or a context that has one issues one step, and while
there is one nothing else of the task issues (R364, log entry 16). -/
def State.takeSteps (s : State) (t : Nat) (x : Task) : State :=
  let (ws, ts) := s.stepsOf t x
  let waves := s.waves.map fun (p : Nat × Wave) => if p.2.task = t then (p.1, { p.2 with step := ws.contains p.1 }) else p
  { s with waves }.modTask t fun x =>
    let tl := x.data.tiles.zipIdx.map fun (p : SavedTile × Nat) => { p.1 with ctx := { p.1.ctx with step := ts.contains p.2 } }
    { x with stepF := ws ≠ [] || ts ≠ [], data := { x.data with tiles := tl } }

/-- The debugger's resume clears HALT. -/
def State.debugResume (s : State) (t : Nat) : State :=
  match kfind s.tasks t with
  | none => s.refuse stRefused
  | some x =>
    if !x.halt || (x.st ≠ .saved && x.st ≠ .paged) then s.refuse stRefused
    else
      let resumed (y : Task) : Task := { y with halt := false, pendingSince := s.time.toNat }
      let s1 := (((s.wakeProc (s.procOf x)).takeSteps t x).modTask t resumed).modTask t fun y => { y with st := causeState y }
      (s1.chargeRequest (s.procOf x)).answer stOk

def execDebugResume (task : Nat) (s : State) : Out := request (.debugResume task) s (s.debugResume task)

/-- A single step: the debugger writes the STEP bits of a task that is saved with HALT and has a frame, and resumes it. -/
def State.singleStep (s : State) (t : Nat) (waves tiles : List Nat) : State :=
  match kfind s.tasks t with
  | none => s.refuse stRefused
  | some x => if x.halt && x.st = .saved && x.data.grants ≠ [] then (s.chooseSteps t x waves tiles).debugResume t else s.refuse stRefused

def execSingleStep (task : Nat) (waves : List Nat) (tiles : List Nat) (s : State) : Out :=
  request (.singleStep task waves tiles) s (s.singleStep task waves tiles)

end Sys2Proof.Machine
end

