-- ==== Sys2Proof/Machine/Fabric.lean ====
section
/-! DEFINITION. The fabric: groups and handles (R387 to R389), RLD, RST and RRED (R390 to R393), collectives (R394 to R398), and the
messages of other devices and clients (R384, R386, R388). -/

namespace Sys2Proof.Machine

/-! ### Handles and remote records (R388, R390, R392) -/

def State.group (s : State) (g : Nat) : Group := kget {} s.groups g
def State.setGroup (s : State) (g : Nat) (x : Group) : State := { s with groups := kinsert s.groups g x }

/-- The live group that a handle names for a wave's launch. -/
def State.named (s : State) (w : Wave) (h : Nat) : Option (Nat × Group) :=
  let g := s.group (bits h 15 0)
  if g.live && g.gen = bits h 23 16 && bits h 31 24 = 0 && ((kfind s.tasks w.task).map (·.launch)) = some g.launch then some (bits h 15 0, g) else none

/-- Ranks of a handle's group; a handle that names none has no rank. -/
def ranksOf (g : Option (Nat × Group)) : List RankInfo := (g.map (·.2.ranks)).getD []

/-- A lane's failure of R392: rank and right carry no lane. -/
inductive RemoteFault
  | rank (r n : Nat) (off : Int) | right (reason acc : Nat) (off : Int) | offset (kind reason : Nat) (off : Int)
  deriving DecidableEq, Repr

/-- The checks of R392 on one lane: rank, right, bounds, alignment. `need` gives the right, its reason and its ACC. -/
def remoteCheck (ranks : List RankInfo) (rank : Nat) (need : RankInfo → Bool) (reason acc : Nat) (off : Int) (sz : Nat) : Except RemoteFault Nat :=
  match ranks[rank]? with
  | none => .error (.rank rank ranks.length off)
  | some x =>
    if !need x then .error (.right reason acc off)
    else if off < 0 || (x.len : Int) < off + sz then .error (.offset 0x10 1 off)
    else if off.toNat % sz ≠ 0 then .error (.offset 0x11 3 off)
    else .ok off.toNat

/-- The fault of the lowest failing lane, at level 5, with its region offset; the mask holds the failing lanes. -/
def remoteExc (bad : List (Nat × RemoteFault)) : Option Exc :=
  match bad with
  | [] => none
  | (l, f) :: _ =>
    some (match f with
      | .rank r n off => { kind := 0x20, level := 5, addr := wrap off 64, detail := r + n * 2 ^ 32 }
      | .right reason acc off => { kind := 0x13, level := 5, addr := wrap off 64, detail := reason + 128 * acc }
      | .offset kind reason off =>
        { kind, level := 5, lane := some l, addr := wrap off 64, detail := reason + (maskOf (bad.map (·.1))).toNat * 2 ^ 32 })

/-- The lanes of a list with their offsets, or the fault. -/
def remoteLanes (l : List (Nat × Except RemoteFault Nat)) : Except Exc (List (Nat × Nat)) :=
  match remoteExc (l.filterMap fun p => match p.2 with | .error f => some (p.1, f) | .ok _ => none) with
  | some e => .error e
  | none => .ok (l.filterMap fun p => match p.2 with | .ok a => some (p.1, a) | .error _ => none)

/-- The zero field of a remote record (R390). -/
def checkRemote (x : Nat) : Option Exc := if bits x 63 44 ≠ 0 then some { kind := 0x01, detail := 3 + 2 * 256 + 44 * 65536 } else none

/-- A remote access that has been accepted: its group and generation, the target rank, whether that is this device's own, and the lanes with
their region offsets. -/
structure RemoteAcc where
  gid : Nat
  gen : Nat
  rank : Nat
  own : Bool
  lanes : List (Nat × Nat)
  deriving DecidableEq, Repr

/-- Where the bytes of an access lie: own-rank ones by storage address, others by region offset. -/
def RemoteAcc.space (x : RemoteAcc) : Space := if x.own then .own x.gid x.gen else .remote x.gid x.gen x.rank
def RemoteAcc.home (x : RemoteAcc) : Home := if x.own then .own x.gid x.gen else .rank x.gid x.gen x.rank
def RemoteAcc.addr (x : RemoteAcc) (s : State) (off : Nat) : Nat := if x.own then (s.regionKey x.gid x.rank off).getD 0 else off

/-- Requests of an access to the own rank's region at its homes' L2 (R253, R254). -/
def RemoteAcc.count (x : RemoteAcc) (s : State) (c : Nat) (st : Bool) : State :=
  if x.own then countKeys s c st (x.lanes.map fun p => x.addr s p.2) else s

/-- Acceptance of a remote access. -/
def acceptRemote (s : State) (w : Wave) (b : Nat) (m : Word) (idx : Nat → Int) (sz : Nat) (need : RankInfo → Bool) (reason acc : Nat) :
    Except Exc RemoteAcc :=
  let x := rdRecord s w 2 b
  match checkRemote x with
  | some e => .error e
  | none =>
    let g := s.named w (bits x 31 0)
    let rank := bits x 43 32
    let stride := bits x 95 64
    let off (l : Nat) : Int := (bits x 127 96 : Int) + (if stride = 0 then idx l else idx l * stride)
    (remoteLanes ((lanesOf m).map fun l => (l, remoteCheck (ranksOf g) rank need reason acc (off l) sz))).map fun ls =>
      { gid := (g.map (·.1)).getD 0, gen := (g.map (·.2.gen)).getD 0, rank, own := (g.map (·.2.rank)) = some rank, lanes := ls }

/-! ### RLD, RST and RRED (R391, R393) -/

def execRld (g : Guard) (t : Ty) (cnt : Nat) (d : VOp) (b : Nat) (a : VOp) (off : Option Word) (s : State) : Out :=
  onFrag s fun k w fr =>
    let m := sel s w fr g
    let width := memBytes t
    let regs := 2 ^ cnt
    match acceptRemote s w b m (fun l => elemIndex (rdV s w 1 a l) off) (width * regs) (·.r) 1 0 with
    | .error e => takeTrap s k w fr e
    | .ok x =>
      if !roomFor s w.core 1 then s
      else
        let acc := x.lanes.map fun p => ({ lane := p.1, space := x.space, addr := some (x.addr s p.2) } : LaneAcc)
        acceptLoad (x.count s w.core false) k w fr .lc 0x248 (memMod t cnt 0) (lenOf off) true (VOp.field d) width regs t m acc [] []

def execRst (g : Guard) (t : Ty) (cnt : Nat) (d : VOp) (b : Nat) (a : VOp) (off : Option Word) (s : State) : Out :=
  onFrag s fun k w fr =>
    let width := memBytes t
    let regs := 2 ^ cnt
    match acceptRemote s w b (sel s w fr g) (fun l => elemIndex (rdV s w 1 a l) off) (width * regs) (·.w) 2 1 with
    | .error e => takeTrap s k w fr e
    | .ok x =>
      if !roomFor s w.core 1 then s
      else
        let bs := x.lanes.flatMap fun p => (storeBytes width regs (dataReg s w d cnt p.1)).zipIdx.map fun b => (x.space, x.addr s p.2 + b.2, b.1)
        acceptStore (x.count s w.core true) k w fr .sc 0x249 (memMod t cnt 0) (lenOf off) [] false bs

/-- RRED: an atomic without a return at the target's home. -/
def execRred (g : Guard) (op : AtomOp) (t : Ty) (d : VOp) (b : Nat) (a : VOp) (imm : Word) (sc : Scope) (s : State) : Out :=
  onFrag s fun k w fr =>
    match acceptRemote s w b (sel s w fr g) (fun l => elemIndex (rdV s w 1 a l) (some imm)) 4 (·.a) 2 2 with
    | .error e => takeTrap s k w fr e
    | .ok x =>
      if !roomFor s w.core 1 then s
      else
        let id := w.nextEntry
        let w1 := (w.noSkip fr).accept fr .sc 0x24A (t.code * 16 + AtomOp.code op) [] [] (.atomic x.lanes.length)
        let who := { s.writer k fr.num 1 with gid := x.gid }
        let s1 := x.lanes.foldl (fun s p =>
          let queue := if x.own then homeDie (x.addr s p.2) else awayQueue
          s.joinAtom queue (.reduce (some (k, id)) x.home op t (x.addr s p.2) (rdV s w 0 d p.1) (sc = .system) who)) s
        let s2 := advance s1 k w1 fr 16
        if x.lanes = [] then s2.perform k id else s2

/-! ### Collectives (R394 to R398) -/

/-- A call's key: the calls of each generation are numbered on their own. -/
def callKey (gen call : Nat) : Nat := gen * 2 ^ 40 + call

/-- The rest of a collective once its call has completed: the acquire, the signature, the next instruction. -/
def collDone (s : State) (k : Nat) (fr : Frag) (sig : Nat) (sc : Scope) (z : DWord) : State :=
  match kfind s.waves k with
  | none => s
  | some w => (advance s k ((w.wrS2 sig z).modFrag fr.num fun f => { f with phase := .none }) fr 16).acquireAt w.core sc

/-- A COLL or its bar: REL, contribution, wait, ACQ, signature. `data` gives the contributions of the accepted lanes: lane, peer, element,
value. -/
def collective (s : State) (k : Nat) (w : Wave) (fr : Frag) (g : Guard) (h sig : Nat) (sc : Scope) (bar : Bool)
    (lanes : List RankInfo → Except Exc (List (Nat × Nat × Nat × Word))) (op : AtomOp) (t : Ty) : State :=
  if g.p = 7 && g.neg then advance s k w fr 16
  else
    let n := s.named w h
    match fr.phase with
    | .signed z => collDone s k fr sig sc z
    | .called gid call => waitAt s k fr (.coll gid call)
    | _ =>
      match lanes (ranksOf n) with
      | .error e => takeTrap s k w fr e
      | .ok ls =>
        if !fr.quiet then
          let phase : Phase := match n with | some (gid, x) => .calling gid x.gen | none => .none
          waitAt (s.modWave k fun w => w.modFrag fr.num fun f => { f with phase }) k fr .rel
        else
          let s1 := s.releaseAt k w fr sc
          match n with
          | none => collDone s1 k fr sig sc 0
          | some (gid, _) =>
            let x := s1.group gid
            let call := callKey x.gen x.nextCall
            let mine := (ls.filter fun l => l.2.1 = x.rank).map fun l =>
              ({ rank := x.rank, lane := l.1, peer := l.2.1, elem := l.2.2.1, op, t, v := l.2.2.2, sys := sc = .system } : Contrib)
            let s2 := (s1.setGroup gid { x with nextCall := x.nextCall + 1 }).modCall gid call fun c =>
              { c with
                made := kinsert c.made x.rank mine.length
                contribs := c.contribs ++ mine
                remoteDone := c.remoteDone || bar || x.ranks.length ≤ 1 }
            let s3 := s2.modWave k fun w => w.modFrag fr.num fun f => { f with phase := .called gid call }
            (s3.hold k fr.num (.waiting (.coll gid call))).collQueue gid call

def execColl (g : Guard) (op : AtomOp) (t : Ty) (d a b : VOp) (c : Nat) (imm : Word) (sig : Nat) (sc : Scope) (s : State) : Out :=
  onFrag s fun k w fr =>
    let elem (l : Nat) : Int := elemIndex (rdV s w 1 a l) (some imm)
    let peer (l : Nat) : Nat := (rdV s w 2 b l).toNat
    let lanes (rs : List RankInfo) : Except Exc (List (Nat × Nat × Nat × Word)) :=
      (remoteLanes ((lanesOf (sel s w fr g)).map fun l => (l, remoteCheck rs (peer l) (·.a) 2 2 (4 * elem l) 4))).map fun ls =>
        ls.map fun p => (p.1, peer p.1, p.2 / 4, rdV s w 0 d p.1)
    collective s k w fr g (rdS s w 3 c).toNat sig sc false lanes op t

def execCollBar (g : Guard) (c sig : Nat) (sc : Scope) (s : State) : Out :=
  onFrag s fun k w fr => collective s k w fr g (rdS s w 3 c).toNat sig sc true (fun _ => .ok []) .add .i32

/-- The fold of an element at the head of its home's queue. -/
def execCollFold (gid call peer elem : Nat) (s : State) : Out :=
  machineMove s (
    let g := s.group gid
    let key := callKey g.gen call
    match if peer = g.rank then s.regionKey gid g.rank (4 * elem) else none with
    | none => s
    | some x =>
      match kget [] s.atomQ (homeDie x) with
      | r :: rest => if r = .fold gid key elem then { s with atomQ := kset [] s.atomQ (homeDie x) rest }.foldElem gid key elem else s
      | [] => s)

/-! ### Groups (R387 to R389, R396) -/

/-- The ring plan of N ranks. -/
def ringPlan (n : Nat) : List (List Nat) := (List.range n).map fun q => (List.range n).map fun i => (q + 1 + i) % n

/-- Whether a rank's region is acceptable on this device: aligned, of at most 2^32 bytes, present, without spore cells. -/
def State.regionOk (s : State) (asid : Nat) (r : RankInfo) : Bool :=
  let x : Asid := kget {} s.asids asid
  x.st = .bound &&
  r.base.toNat % 2 ^ 16 = 0 && canon r.base.toNat = r.base && r.len % 2 ^ 16 = 0 && r.len ≤ 2 ^ 32 &&
  (List.range (r.len / 2 ^ 16)).all fun i =>
    match (s.walk (hubWalker asid) ((r.base.toNat + i * 2 ^ 16) % 2 ^ 57) x.tplc 5 4 x.root).1 with
    | .ok l => !l.sp
    | .error _ => false

def State.registerGroup (s : State) (gid launch rank : Nat) (ranks : List RankInfo) : State :=
  let g := s.group gid
  match ranks[rank]?, kfind s.launches launch with
  | some r, some l =>
    let early := match g.freedAt with
      | some t => s.time.toNat < t + 100000000
      | none => false
    if 2 ^ 16 ≤ gid || 4096 < ranks.length || g.live || early || l.done || !s.regionOk l.asid r then s.refuse stRefused
    else
      let x : Group := { g with live := true, launch, asid := l.asid, rank, ranks, plan := ringPlan ranks.length, nextCall := 0, calls := [] }
      ((s.setGroup gid x).chargeRequest l.proc).answer stOk
  | _, _ => s.refuse stRefused

def execRegisterGroup (gid launch rank : Nat) (ranks : List RankInfo) (s : State) : Out :=
  request (.registerGroup gid launch rank ranks) s (s.registerGroup gid launch rank ranks)

/-- Freeing a group advances its generation. -/
def State.endGroup (s : State) (gid : Nat) : State :=
  let g := s.group gid
  s.setGroup gid { g with live := false, gen := (g.gen + 1) % 256, freedAt := some s.time.toNat, calls := [] }

def State.freeGroup (s : State) (gid : Nat) : State :=
  let g := s.group gid
  if g.live then ((s.endGroup gid).chargeRequest (kget {} s.asids g.asid : Asid).proc).answer stOk else s.refuse stRefused

def execFreeGroup (gid : Nat) (s : State) : Out := request (.freeGroup gid) s (s.freeGroup gid)

/-- Where an access that has not performed lies. -/
def entrySpaces (s : State) (k : Nat) (e : Entry) : List Space :=
  match e.kind with
  | .load _ _ _ _ _ parts => parts.flatMap fun p => p.2.map (·.space)
  | _ => (entryBytes s k e).map (·.1)

/-- Whether a task has an unperformed access of a group, or a fragment that waits in a collective of it, at its release or at its completion. -/
def usesGroup (s : State) (gid t : Nat) : Bool :=
  let gen := (s.group gid).gen
  let of (sp : Space) : Bool := match sp with | .remote g n _ | .own g n => g = gid && n = gen | _ => false
  s.waves.any fun p => p.2.task = t &&
    ((p.2.frags.any fun f => match f.phase with | .called g c => g = gid && c / 2 ^ 40 = gen | .calling g n => g = gid && n = gen | _ => false) ||
     p.2.replay.any fun e => (entrySpaces s p.1 e).any of)

/-- A rank is unreachable past the timeout: the group is freed, and the tasks of its launch that depend on it are killed. -/
def execPeerUnreachable (gid rank : Nat) (s : State) : Out :=
  serviceAct s (
    let g := s.group gid
    if !g.live || rank = g.rank || g.ranks.length ≤ rank then s
    else
      let ts := (s.tasks.filter fun t => t.2.launch = g.launch && usesGroup s gid t.1).map (·.1)
      ts.foldl (fun s t => s.killTask t false) (s.endGroup gid))

/-- Whether a plan gives each rank an order of all ranks. -/
def planOk (n : Nat) (plan : List (List Nat)) : Bool :=
  plan.length = n && plan.all fun o => o.length = n && (List.range n).all o.contains

/-- Another plan is installed at a call boundary: no call of the group is open (R396). -/
def execRouteChange (gid : Nat) (plan : List (List Nat)) (s : State) : Out :=
  serviceAct s (
    let g := s.group gid
    if g.live && planOk g.ranks.length plan && g.calls = [] then s.setGroup gid { g with plan } else s)

/-! ### Messages (R384, R386, R388, R393, R395) -/

/-- Handles a group packet of the current generation; any other is dropped and counted. -/
def State.groupPacket (s : State) (gid gen : Nat) (f : Group → State) : State :=
  let g := s.group gid
  if g.live && g.gen = gen then f g else { s with hub := { s.hub with late := s.hub.late + 1 } }

/-- A fabric packet as a home-side watch unit sees its writer. -/
def fabricWriter (gid dev : Nat) : Writer := { src := 4, gid, gdev := dev }

/-- The storage addresses of a range of the own rank's region. -/
def State.regionKeys (s : State) (gid rank off n : Nat) : List Nat := (List.range n).filterMap fun i => s.regionKey gid rank (off + i)

def State.receive (s : State) (m : FabricMsg) : State :=
  match m with
  | .unsupported => { s with hub := { s.hub with droppedPkts := s.hub.droppedPkts + 1 } }
  | .write gid gen dev off bytes =>
    s.groupPacket gid gen fun g =>
      let bs := bytes.zipIdx.filterMap fun b => (s.regionKey gid g.rank (off + b.2)).map fun x => (x, b.1)
      countKeys (s.move (fabricWriter gid dev) bs viewsWide) hubCore true (bs.map (·.1))
  | .read gid gen off n => s.groupPacket gid gen fun g => countKeys s hubCore false (s.regionKeys gid g.rank off n)
  | .reduce gid gen dev off op t v sys =>
    s.groupPacket gid gen fun g =>
      match s.regionKey gid g.rank off with
      | some x => s.joinAtom (homeDie x) (.reduce none .here op t x v sys (fabricWriter gid dev))
      | none => s
  | .contrib gid gen call rank lane peer elem op t v sys =>
    s.groupPacket gid gen fun g =>
      if peer ≠ g.rank then s
      else
        (s.modCall gid (callKey gen call) fun c =>
          { c with contribs := c.contribs ++ [{ rank, lane, peer, elem, op, t, v, sys }] }).collQueue gid (callKey gen call)
  | .made gid gen call rank sent =>
    s.groupPacket gid gen fun _ =>
      (s.modCall gid (callKey gen call) fun c => { c with made := kinsert c.made rank sent }).collQueue gid (callKey gen call)
  | .folded gid gen call =>
    s.groupPacket gid gen fun _ => (s.modCall gid (callKey gen call) fun c => { c with remoteDone := true }).collCheck gid (callKey gen call)
  | .peerBytes gid rank off bytes =>
    { s with peers := kinsert s.peers (peerKey gid rank) (Memory.writes (kget [] s.peers (peerKey gid rank)) (bytes.zipIdx.map fun b => (off + b.2, b.1))) }
  | .clientBytes win off bytes =>
    { s with client := Memory.writes s.client (bytes.zipIdx.map fun b => (2 ^ 51 + win * 2 ^ 40 + off + b.2, b.1)) }

def execFabricPacketReceive (m : FabricMsg) (s : State) : Out := .next (if s.hub.on && !s.hub.frozen && !s.hub.recovery then s.receive m else s)

end Sys2Proof.Machine
end

