-- ==== Sys2Proof/Machine/Boot.lean ====
section
/-! DEFINITION. Power and boot (R2, R370 to R373), attestation (R374, R375), live servicing (R376 to R380), freeze and read-out (R381,
R382), and the limits (R383). -/

namespace Sys2Proof.Machine

/-! ### Images (R371) -/

/-- A slice of bytes. -/
def slice (l : List Byte) (a n : Nat) : List Byte := (l.drop a).take n

/-- SVN and body of an image. -/
def imageSvn (l : List Byte) : Nat := pf l 4 4
def imageBody (l : List Byte) : List Byte := slice l 4096 (pf l 8 8)

/-- Whether a slot is valid. -/
def slotValid (h : Hub) (l : List Byte) : Bool :=
  let svn := imageSvn l
  let len := pf l 8 8
  pf l 0 4 = 0x4F564E53 && 1 ≤ svn && svn ≤ 255 && h.minSvn ≤ svn && 1 ≤ len && len ≤ 60 * 2 ^ 20 && 4096 + len ≤ l.length &&
  slice l 16 32 = sha3 (imageBody l) && pf l 48 16 = 0 && sha3 (slice l 64 1312) = h.rootHash &&
  mldsaVerify (slice l 64 1312) (sha3 (slice l 0 1376)) (slice l 1376 2420) && pf l 3796 300 = 0

/-- The bytes of a slot of the flash (R370). -/
def slotSize : Nat := 63 * 2 ^ 20

/-! ### Attestation (R374, R375) -/

/-- Extends the log and its chain, unless 1,024 entries stand in it. -/
def Hub.extend (h : Hub) (time : DWord) (type svn : Nat) (hash : List Byte) : Option Hub :=
  if 1024 ≤ h.attest.length then none
  else
    let e := toBytes h.attest.length 2 ++ toBytes type 1 ++ toBytes svn 1 ++ toBytes 0 4 ++ toBytes time.toNat 8 ++ hash ++ toBytes 0 16
    some { h with attest := h.attest ++ [e], chain := sha3 (h.chain ++ e) }

/-- The digest of the boot ROM, and that of a fused change, whose measured item the spec does not give. -/
def romDigest : List Byte := (List.range 32).map Config.romHash
def fuseDigest (ctr : Nat) : List Byte := (List.range 32).map fun i => Config.freeByte ctr (500 + i)

/-- The report on a nonce. -/
def attestReport (h : Hub) (nonce : List Byte) : List Byte :=
  h.attest.flatten ++ h.chain ++ (List.range 2420).map (Config.mldsaSign (sha3 (nonce ++ h.chain ++ toBytes h.attest.length 4)))

def State.attest (s : State) (nonce : List Byte) : State :=
  if nonce.length ≠ 32 then s.refuse stRefused else ({ s with hub := { s.hub with reply := attestReport s.hub nonce } }).answer stOk

def execAttestationReport (nonce : List Byte) (s : State) : Out := request (.attestationReport nonce) s (s.attest nonce)

/-! ### Power and boot (R370, R372, R373) -/

/-- The slot that the boot ROM chooses: 0 for A, 1 for B. -/
def bootChoice (h : Hub) : Option Nat :=
  match slotValid h h.slotA, slotValid h h.slotB with
  | false, false => none
  | true, false => some 0
  | false, true => some 1
  | true, true =>
    if imageSvn h.slotB < imageSvn h.slotA then some 0
    else if imageSvn h.slotA < imageSvn h.slotB then some 1
    else some (if h.selector = 1 then 1 else 0)

/-- Measures what has been started: ROM, header, body. -/
def Hub.measure (h : Hub) (time : DWord) (img : List Byte) : Hub :=
  ((((h.extend time 1 0 romDigest).bind fun h => h.extend time 2 (imageSvn img) (sha3 (slice img 0 4096))).bind fun h =>
    h.extend time 3 (imageSvn img) (sha3 (imageBody img))).getD h)

/-- The boot ROM's steps: it starts the chosen body, or enters recovery. -/
def State.boot (s : State) : State :=
  let h := { s.hub with on := true, attest := [], chain := List.replicate 32 0 }
  match bootChoice h with
  | none => { s with hub := { h with recovery := true, booted := false } }
  | some n =>
    let img := if n = 0 then h.slotA else h.slotB
    let h1 := { h with
      recovery := false
      booted := true
      runningSlot := n
      runningSvn := imageSvn img
      service := imageBody img }
    { s with hub := h1.measure s.time img }

def execPowerOn (s : State) : Out := .next (if s.hub.on then s else s.boot)

/-- In recovery the management port accepts an image that slot A holds, and the ROM starts again. -/
def execRecoveryImage (img : List Byte) (s : State) : Out :=
  .next (if s.hub.on && s.hub.recovery && !s.hub.frozen && img.length ≤ slotSize then { s with hub := { s.hub with slotA := img } }.boot else s)

/-- Power goes: only the flash, the fuses and what lies outside the module stay. -/
def execPowerOff (s : State) : Out :=
  .next
    { State.reset with
      agenda := s.agenda
      ctr := s.ctr
      client := s.client
      peers := s.peers
      hub := { State.reset.hub with selector := s.hub.selector, slotA := s.hub.slotA, slotB := s.hub.slotB, minSvn := s.hub.minSvn, rootHash := s.hub.rootHash } }

/-- Raises the fused minimum to the running image's SVN, unless both slots would become invalid. -/
def State.raiseSvn (s : State) : State :=
  let h := { s.hub with minSvn := max s.hub.minSvn s.hub.runningSvn }
  if !slotValid h h.slotA && !slotValid h h.slotB then s.refuse stRefused
  else
    match h.extend s.time 5 h.minSvn (fuseDigest s.ctr) with
    | some h' => { s with hub := h' }.answer stOk
    | none => s.refuse stRefused

def execRaiseSvn (s : State) : Out := request .raiseSvn s s.raiseSvn

/-! ### Cores (R4, R377, R402) -/

def State.quiesce (s : State) (c : Nat) : State := let s := s.sliceOver; (s.setCore c { s.core c with quiesced := true }).evictCores (· = c)

def State.exclude (s : State) (c : Nat) : State := let s := s.sliceOver; ((s.setCore c { s.core c with excluded := true }).evictCores (· = c)).layReserve

def execQuiesceCore (core : Nat) (s : State) : Out := serviceAct s (if core < 256 then s.quiesce core else s)

def execExcludeCore (core : Nat) (s : State) : Out := serviceAct s (if core < 256 then s.exclude core else s)

def execRestoreCore (core : Nat) (s : State) : Out :=
  serviceAct s (if core < 256 then (s.setCore core { s.core core with excluded := false, quiesced := false }).layReserve else s)

/-! ### Lanes of the die-to-die links (R378) -/

def execRecalibrateLane (link lane : Nat) (s : State) : Out :=
  serviceAct s (
    if lane < 64 && (kfind s.hub.lanesOut link).isNone then { s with hub := { s.hub with lanesOut := kinsert s.hub.lanesOut link lane } } else s)

def execLaneRecalibrationDone (link : Nat) (s : State) : Out :=
  serviceAct s { s with hub := { s.hub with lanesOut := kerase s.hub.lanesOut link } }

/-! ### Migration (R252, R379, R380) -/

/-- The entry at a storage address, and what a bound address space maps by it. -/
def State.entryAt (s : State) (key : Nat) : Nat := ofBytes (s.rdHs key 8)
def State.leafAt (s : State) (key : Nat) : Option Mapping := s.mapped.find? fun m => m.main && m.key = key

/-- The storage addresses of the bytes of a leaf's frame. -/
def frameKeys (e size : Nat) : List Nat := (List.range size).map fun i => keyOf (bits e 59 57) (bits e 51 8 * 256 + i)

/-- Whether a cell of a leaf's frame is GROWING. -/
def State.frameGrows (s : State) (e size : Nat) : Bool :=
  s.tags.any fun t => t.2 = tGROWING && (frameKeys e size).contains (32 * t.1)

/-- Copies a page with the tags of its cells to its new frame. -/
def State.copyPage (s : State) (old new size : Nat) : State :=
  let src := frameKeys old size
  let dst := frameKeys new size
  let s1 := s.move { src := 5 } ((src.zip dst).map fun p => (p.2, s.rdH p.1)) viewsWide
  if !bit old 56 then s1
  else
    let tags := (src.zip dst).filterMap fun p => if p.1 % 32 = 0 then some (p.2 / 32, s.tag (p.1 / 32), p.1 / 32) else none
    tags.foldl (fun s t => (s.setTag t.2.2 tVALUE).setTag t.1 t.2.1) s1

/-- The storage addresses of the entries that map some of a page's storage. -/
def State.pageKeys (s : State) (e size : Nat) : List Nat :=
  ((s.mapped.filter fun m => m.main && shareStore (e, size) (m.entry, leafSize m.level)).map (·.key)).eraseDups

/-- The moves of a page that has been unmapped: those of the entries that mapped some of its storage. -/
def State.unmapped (s : State) (moves : List (Nat × Nat)) (old : Nat × Nat) : List (Nat × Nat) :=
  moves.filter fun w => ((kfind s.hub.migrating w.1).map fun o => shareStore (old.1, leafSize old.2) (o.1, leafSize o.2)).getD false

/-- The state with page entries written, and the frames in their pages moved with them. -/
def State.remapped (s : State) (l : List (Nat × Nat)) : State := (s.withPtes l).moveFrames (l.map (·.1))

/-- Whether the next step of a move can be made: a page is unmapped when every entry that maps it is to move, none of a live group's
region or with a growing cell; its copy is mapped when the invalidations have completed; the service makes both mappings. -/
def State.canMove (s : State) (moves : List (Nat × Nat)) (w : Nat × Nat) : Bool :=
  match kfind s.hub.migrating w.1, s.leafAt w.1 with
  | some o, _ => (s.invals.all fun p => !s.bound.contains p.2.asid) && !s.refusesMap (s.remapped (s.unmapped moves o))
  | none, some m =>
    let ks := s.pageKeys m.entry (leafSize m.level)
    (ks.all fun k => (moves.any fun x => x.1 = k) && s.regionGroups k = []) && !s.frameGrows m.entry (leafSize m.level) &&
      !s.refusesMap (s.remapped (moves.filter fun x => ks.contains x.1))
  | none, none => false

/-- One step of a page's migration: every entry that maps it is cleared and the invalidation started; or, once that is complete, the page is
copied and mapped again. -/
def State.migrate (s : State) (moves : List (Nat × Nat)) (w : Nat × Nat) : State :=
  match kfind s.hub.migrating w.1, s.leafAt w.1 with
  | some o, _ =>
    let ws := s.unmapped moves o
    let frames := (ws.filterMap fun x => (kfind s.hub.migrating x.1).map fun o => (o.1, x.2, leafSize o.2)).eraseDups
    let s1 := frames.foldl (fun s f => s.copyPage f.1 f.2.1 f.2.2) s
    let s2 := ws.foldl (fun s x =>
      let s' := s.moveService x.1 (toBytes x.2 8)
      { s' with hub := { s'.hub with migrating := kerase s'.hub.migrating x.1 } }) s1
    s2.moveFrames (ws.map (·.1))
  | none, some m =>
    let ks := s.pageKeys m.entry (leafSize m.level)
    let old := ks.filterMap fun k => (s.leafAt k).map fun m => (k, m.entry, m.level)
    let s1 : State := { s with hub := { s.hub with migrating := old.foldl (fun t o => kinsert t o.1 o.2) s.hub.migrating } }
    s1.putPtes (ks.map fun k => (k, 0))
  | none, none => s

/-- The moves of a list that are not yet made. -/
def State.toMove (s : State) (moves : List (Nat × Nat)) : List (Nat × Nat) := moves.filter fun w => s.entryAt w.1 ≠ w.2

/-- The next step of a list of moves, with the live groups that it waits for reported (R379). -/
def State.moveOn (s : State) (moves : List (Nat × Nat)) : State :=
  let todo := s.toMove moves
  let s1 : State := { s with hub := { s.hub with awaited := (todo.flatMap fun w => s.regionGroups w.1).eraseDups } }
  match todo.find? (s1.canMove moves) with
  | some w => s1.migrate moves w
  | none => s1

/-- Whether a page touches a channel's storage: one that is mapped or waits to be, or one on its way. -/
def State.onChannel (s : State) (stack chan : Nat) : Bool :=
  ((s.mapped ++ s.toCome.mapped).any fun m => m.main && touches m.entry (leafSize m.level) stack chan) ||
  s.hub.migrating.any fun o => touches o.2.1 (leafSize o.2.2) stack chan

/-- Each event makes one step of the moves; when no page touches the channel any more, its storage is withdrawn. -/
def execRetireChannel (stack chan : Nat) (moves : List PteWrite) (s : State) : Out :=
  serviceAct s (
    let ws := moves.map PteWrite.at
    if 8 ≤ stack || 32 ≤ chan || s.hub.channelsOut.contains (stack, chan) then s
    else if s.toMove ws ≠ [] then s.moveOn ws
    else if s.onChannel stack chan then s
    else { s with hub := { s.hub with awaited := [], channelsOut := s.hub.channelsOut ++ [(stack, chan)] } })

/-- Whether a leaf of a bound address space, or a page on its way, must leave a die: interleaved, or pinned to it. -/
def State.onDie (s : State) (d : Nat) : Bool :=
  ((s.mapped ++ s.toCome.mapped).any fun m => m.main && (m.plc = 0 || m.plc = 4 + d)) || s.hub.migrating.any fun o => bits o.2.1 59 57 = 0 || bits o.2.1 59 57 = 4 + d

/-- Whether new tables may take the place of an address space's: they map what the old ones map, their writes change no other mapping, and no
entry waits to be written into the old ones. -/
def State.tablesAgree (s : State) (t : TableMove) : Bool :=
  let x : Asid := kget {} s.asids t.asid
  let s1 := s.withPtes (t.writes.map PteWrite.at)
  let maps (l : List Mapping) : List (Nat × Nat × Nat) := l.map fun m => (m.va, m.entry, m.level)
  x.st = .bound && 4 ≤ t.tplc && maps (s1.leavesAt t.asid t.tplc 5 4 t.root 0) = maps (s.leaves t.asid) && s1.mapped = s.mapped &&
  s.hub.remaps = [] && s.hub.migrating = []

/-- The tables of an address space move when the new ones may take their place. -/
def State.moveTables (s : State) (t : TableMove) : State :=
  if s.tablesAgree t then
    let s1 := t.writes.foldl (fun s w => s.moveService (PteWrite.at w).1 (toBytes (PteWrite.at w).2 8)) s
    let x : Asid := kget {} s.asids t.asid
    { s1 with asids := kinsert s1.asids t.asid { x with root := t.root, tplc := t.tplc } }.invalidate t.asid none []
  else s

/-- Whether an address space's tables still lie on a die. -/
def State.tablesOn (s : State) (d a : Nat) : Bool := let x : Asid := kget {} s.asids a; x.tplc = 0 || x.tplc = 4 + d

/-- Each event makes the next step of taking a die offline: no interleaved mappings; pages; tables; cores and watch units. -/
def execDieOffline (die : Nat) (moves : List PteWrite) (tables : List TableMove) (s : State) : Out :=
  serviceAct s (
    let ws := moves.map PteWrite.at
    if 4 ≤ die || s.hub.dieOff.contains die then s
    else if !s.hub.dieGoing.contains die then { s with hub := { s.hub with dieGoing := s.hub.dieGoing ++ [die] } }
    else if s.toMove ws ≠ [] then s.moveOn ws
    else if s.onDie die then s
    else
      match tables.find? fun t => s.tablesOn die t.asid with
      | some t => s.moveTables t
      | none =>
        if s.bound.any (s.tablesOn die) || s.invals ≠ [] then s
        else
          let s1 := (List.range 64).foldl (fun s i => (s.quiesce (64 * die + i)).exclude (64 * die + i)) s
          { s1 with
            watchH := s1.watchH.filter fun u => u.1 / 4 ≠ die
            hub := { s1.hub with awaited := [], dieOff := s1.hub.dieOff ++ [die] } })

/-- A die returns: mappings with PLC 000 are accepted again once no die is away or going. -/
def execDieReturn (die : Nat) (s : State) : Out :=
  serviceAct s (
    if s.hub.dieOff.contains die then
      { s with hub := { s.hub with dieOff := s.hub.dieOff.filter (· ≠ die), dieGoing := s.hub.dieGoing.filter (· ≠ die) } }
    else s)

/-! ### Live update (R376) -/

/-- The handover record of the running service: its run tree with the virtual times, queues, ASIDs and registrations. -/
def State.record (s : State) : Handover := { procs := s.procs, queues := s.queues, asids := s.asids, windows := s.windows, groups := s.groups }

/-- Writes the new image into the inactive slot; when it is valid, requests are held, the record is written and the new body starts. -/
def State.liveUpdate (s : State) (img : List Byte) : State :=
  let h := if s.hub.runningSlot = 0 then { s.hub with slotB := img } else { s.hub with slotA := img }
  if 1024 ≤ h.attest.length || slotSize < img.length then s.refuse stRefused
  else if !slotValid h img then { s with hub := h }.answer stRefused
  else
    { s with hub := { h with
      updating := true
      updateAt := s.time.toNat
      newSvn := imageSvn img
      handover := some s.record } }.answer stOk

def execLiveUpdate (img : List Byte) (s : State) : Out := request (.liveUpdate img) s (s.liveUpdate img)

/-- Serves a request that was held. -/
def serve (s : State) (i : Instr) : State :=
  match i with
  | .submitPackets p q l => s.submit p q l
  | .createQueue p q r l f n v => s.createQueue p q r l f n v
  | .destroyQueue q k => s.destroyQueue q k
  | .restartQueue q => s.restartQueue q
  | .ackFaultLog q n => s.ackLog q n
  | .bindAsid p a r => s.bindAsid p a r
  | .freeAsid a => s.freeAsid a
  | .invalidate a r => ((s.invalidate a r []).chargeRequest (kget {} s.asids a : Asid).proc).answer stOk
  | .registerWindow w e b l p r x => s.registerWindow w e b l p r x
  | .freeWindow w => s.freeWindow w
  | .registerGroup g l r rs => s.registerGroup g l r rs
  | .freeGroup g => s.freeGroup g
  | .reserveClusters p d c => s.reserve p d c
  | .registerWrite r => s.writeRegister r.proc r.reg
  | .memoryRegistration r => s.registerMemory r.proc r.ptes
  | .debuggerSession l b d => s.openDebug d.proc l b d.tasks
  | .debugHaltRequest t => s.debugHalt t
  | .debugResume t => s.debugResume t
  | .singleStep t w x => s.singleStep t w x
  | .attestationReport n => s.attest n
  | .raiseSvn => s.raiseSvn
  | .liveUpdate img => s.liveUpdate img
  | _ => s

/-- The end of an update: the body that runs on takes the run tree from the record (log entry 82), and held requests are served in arrival
order; after a further update among them the rest is held again. -/
def State.updateOver (s : State) : State :=
  let procs := (s.hub.handover.map (·.procs)).getD s.procs
  s.hub.held.foldl (fun s i => if s.hub.updating then { s with hub := { s.hub with held := s.hub.held ++ [i] } } else serve s i)
    { s with procs, hub := { s.hub with updating := false, handover := none, held := [] } }

/-- The new body accepts the record within 1 s. -/
def execHandoverAccept (s : State) : Out :=
  serviceAct s (
    let h := s.hub
    let n := 1 - h.runningSlot
    let img := if n = 0 then h.slotA else h.slotB
    if !h.updating || h.updateAt + 1000000000 < s.time.toNat then s
    else
      match h.extend s.time 4 h.newSvn (sha3 (imageBody img)) with
      | none => s
      | some h' => { s with hub := { h' with selector := n, runningSlot := n, runningSvn := h.newSvn, service := imageBody img } }.updateOver)

/-- The old body resumes. -/
def execHandoverTimeout (s : State) : Out :=
  serviceAct s (if s.hub.updating && s.hub.updateAt + 1000000000 < s.time.toNat then s.updateOver else s)

/-! ### Freeze, read-out and limits (R381 to R383) -/

/-- FREEZE: every clock but the management controller's stops. -/
def State.freeze (s : State) : State := if s.hub.on then { s with hub := { s.hub with frozen := true } } else s

def execFreezePin (s : State) : Out := .next s.freeze

def execFreezeCommand (s : State) : Out := .next s.freeze

/-- A core's scratchpad with the descriptors of its circular buffers at the top (R138, R146). -/
def scratchImage (s : State) (c : Nat) : List Byte :=
  ((List.range 0x7FE00).map fun i => s.rdScratch c i) ++ (List.range 8).flatMap fun n => (kget {} (s.core c).cbufs n : CBuf).image

/-- A line of the L1: its storage address, the sectors it holds, whether it is streaming, and its 128 bytes as the core reads them. -/
def l1Image (s : State) (c : Nat) (l : Nat × L1Line) : List Byte :=
  toBytes (128 * l.1) 8 ++ toBytes l.2.sectors.toNat 1 ++ [if l.2.streaming then 1 else 0] ++
    (List.range 128).map fun i => (s.rdV (vSnap c) (128 * l.1 + i)).1

/-- A line of the L2: its storage address and its bytes. -/
def l2Image (s : State) (line : Nat) : List Byte := toBytes (128 * line) 8 ++ s.rdHs (128 * line) 128

/-- A phase-buffer entry: the task, whether it is a residue, then its scope and position (R204), the number of its bytes, and each byte's address
and value. -/
def phaseImage (e : PEntry) : List Byte :=
  let residue : List Byte := match e.residue with
    | some (sc, n) => toBytes 1 1 ++ toBytes (scopeNum sc) 1 ++ toBytes n 8
    | none => toBytes 0 10
  toBytes e.task 4 ++ residue ++ toBytes e.bytes.length 4 ++ e.bytes.flatMap fun b => toBytes b.1 8 ++ [b.2]

/-- A cached page entry. -/
def tlbImage (t : Tlb) : List Byte := toBytes t.asid 2 ++ toBytes t.level 1 ++ toBytes t.vpn 8 ++ toBytes t.entry.toNat 8

/-- A growth entry (R279). -/
def growthImage (g : Growth) : List Byte :=
  toBytes (32 * g.cell) 8 ++ toBytes g.va.toNat 8 ++ toBytes (scopeNum g.rscope) 1 ++ toBytes g.place 1 ++ toBytes g.launch 4 ++
  toBytes g.wave 8 ++ toBytes g.cluster 1 ++ toBytes ((g.evaluator.map (· + 1)).getD 0) 4 ++ toBytes g.waiters.length 4 ++
  g.waiters.flatMap fun w => toBytes w.1 8 ++ toBytes w.2 1

/-- The index in its gang of the part that a tile context on a core belongs to (R359). -/
def ctxPart (s : State) (core : Nat) (x : TileCtx) : Nat :=
  ((kfind s.tasks x.task).bind fun t => t.grants.findIdx? fun g => g.core = core && g.blk = x.blk && g.part = x.part).getD 0

/-- The bytes of a region (R382, log entry 62); memory ends with the four dies' storage. -/
def readRegion (s : State) (r : ReadRegion) : List Byte :=
  match r with
  | .wave k => ((kfind s.waves k).map fun w => waveImage s w (queuePos s k w)).getD []
  | .tile c n => ((s.ctxAt c n).map fun x => tileImage s c n (ctxPart s c x) x).getD []
  | .core c =>
    scratchImage s c ++ (s.core c).l1.flatMap (l1Image s c) ++ (s.core c).phase.flatMap phaseImage ++
      (s.tlb.filter fun t => t.gone.isNone && match t.place with | .l1 d _ => d = c | _ => false).flatMap tlbImage
  | .die d =>
    let c : Counters := kget {} s.counters d
    ((s.l2.filter fun x => x.1 / 49152 = d).flatMap fun x => x.2.flatMap (l2Image s)) ++
      toBytes c.ldloc.toNat 8 ++ toBytes c.ldrem.toNat 8 ++ toBytes c.stloc.toNat 8 ++ toBytes c.strem.toNat 8 ++ toBytes c.walk.toNat 8 ++
      (kget [] s.growth (2 * d) ++ kget [] s.growth (2 * d + 1)).flatMap growthImage
  | .mem a len => s.rdHs a (min len (2 ^ 39 - a))
  | .hub => (s.queues.flatMap fun q => q.2.image) ++ s.hub.attest.flatten ++ toBytes s.hub.minSvn 4 ++ s.hub.rootHash

/-- After FREEZE the management controller reads a region; nothing else changes. -/
def execStateReadout (r : ReadRegion) (s : State) : Out :=
  .next (if s.hub.on && s.hub.frozen then { s with hub := { s.hub with readout := readRegion s r } } else s)

/-- Above the hot limit the issue share falls: timing only. -/
def execHotLimit (share : Nat) (s : State) : Out := serviceAct s { s with hub := { s.hub with hot := some share } }

/-- The module asks the board to remove power. -/
def execCriticalLimit (s : State) : Out := .next (if s.hub.on then { s with hub := { s.hub with powerRequest := true } } else s)

end Sys2Proof.Machine
end

