-- ==== Sys2Proof/Machine/Scalar.lean ====
section
/-! DEFINITION. Scalar and predicate instructions (R104 to R106), and SRD, SWR and SPART (R118, R124, R125). -/

namespace Sys2Proof.Machine

/-- A wave-level instruction that writes one scalar within LAT; `f` gives the value and the flags. -/
def scaOp (s : State) (lat len d : Nat) (f : Wave → Word × Word) : Out :=
  onFrag s fun k w fr =>
    let r := f w
    let due := s.cycle + lat
    advance s k (((w.wrS d r.1).mark (.sca d) 1 due).raise r.2 due) fr len

/-- Integer arithmetic on one value, as the lanes do it with PK = 0 (R105). -/
def scaInt (s : State) (lat : Nat) (t : Ty) (sat : Bool) (f : Int → Int → Int → Int) (d a b : Nat) : Out :=
  scaOp s lat 8 d fun w => elemWise t sat false f (rdS s w 1 a) (rdS s w 2 b) 0

def execSadd (lat : Nat) (t : Ty) (sat : Bool) (d a b : Nat) (s : State) : Out :=
  scaInt s lat t sat (fun x y _ => x + y) d a b

def execSsub (lat : Nat) (t : Ty) (sat : Bool) (d a b : Nat) (s : State) : Out :=
  scaInt s lat t sat (fun x y _ => x - y) d a b

def execSmul (lat : Nat) (t : Ty) (sat : Bool) (d a b : Nat) (s : State) : Out :=
  scaInt s lat t sat (fun x y _ => x * y) d a b

def execSmin (lat : Nat) (t : Ty) (d a b : Nat) (s : State) : Out :=
  scaInt s lat t false (fun x y _ => min x y) d a b

def execSmax (lat : Nat) (t : Ty) (d a b : Nat) (s : State) : Out :=
  scaInt s lat t false (fun x y _ => max x y) d a b

def execSmulh (lat : Nat) (t : Ty) (d a b : Nat) (s : State) : Out :=
  scaOp s lat 8 d fun w => (mulHigh t (rdS s w 1 a) (rdS s w 2 b), 0)

def execSand (lat d a b : Nat) (s : State) : Out :=
  scaOp s lat 8 d fun w => (rdS s w 1 a &&& rdS s w 2 b, 0)

def execSor (lat d a b : Nat) (s : State) : Out :=
  scaOp s lat 8 d fun w => (rdS s w 1 a ||| rdS s w 2 b, 0)

def execSxor (lat d a b : Nat) (s : State) : Out :=
  scaOp s lat 8 d fun w => (rdS s w 1 a ^^^ rdS s w 2 b, 0)

def execSnot (lat d a : Nat) (s : State) : Out :=
  scaOp s lat 8 d fun w => (~~~rdS s w 1 a, 0)

def execSshl (lat d a b : Nat) (s : State) : Out :=
  scaOp s lat 8 d fun w => (shl (rdS s w 1 a) (amount (rdS s w 2 b)), 0)

def execSshr (lat d a b : Nat) (s : State) : Out :=
  scaOp s lat 8 d fun w => (shr (rdS s w 1 a) (amount (rdS s w 2 b)), 0)

def execSsar (lat d a b : Nat) (s : State) : Out :=
  scaOp s lat 8 d fun w => (sar (rdS s w 1 a) (amount (rdS s w 2 b)), 0)

def execSmov (lat d a : Nat) (s : State) : Out :=
  scaOp s lat 8 d fun w => (rdS s w 1 a, 0)

def execSmovi (lat d : Nat) (imm : Word) (s : State) : Out :=
  scaOp s lat 16 d fun _ => (imm, 0)

/-- SCMP's condition (R105): R78 for integers, R85 for f32. -/
def scmpVal (v : FEnv) (t : Ty) (cc : SCond) (a b : Word) : Bool × Word :=
  match cc with
  | .int c => (icmp c (elem a t 0) (elem b t 0), 0)
  | .flt c => fcmpLane v .f32 c a b

def execScmp (lat : Nat) (t : Ty) (cc : SCond) (c a b : Nat) (s : State) : Out :=
  onFrag s fun k w fr =>
    let r := scmpVal (fenv w .mode) t cc (rdS s w 1 a) (rdS s w 2 b)
    let due := s.cycle + lat
    advance s k (((w.wrC c r.1).mark (.cond c) 1 due).raise r.2 due) fr 8

def execSsel (lat d a b n : Nat) (s : State) : Out :=
  scaOp s lat 8 d fun w => (if rdC s w 5 n then rdS s w 1 a else rdS s w 2 b, 0)

def execSfadd (lat : Nat) (r : Rnd) (d a b : Nat) (s : State) : Out :=
  scaOp s lat 8 d fun w => fWise (fenv w r) .f32 (fun f v x y _ => f.add v x y) (rdS s w 1 a) (rdS s w 2 b) 0

def execSfmul (lat : Nat) (r : Rnd) (d a b : Nat) (s : State) : Out :=
  scaOp s lat 8 d fun w => fWise (fenv w r) .f32 (fun f v x y _ => f.mul v x y) (rdS s w 1 a) (rdS s w 2 b) 0

def execScvt (lat : Nat) (r : Rnd) (td ts : Ty) (d a : Nat) (s : State) : Out :=
  scaOp s lat 8 d fun w => cvt (fenv w r) td ts (rdS s w 1 a)

/-! ### Predicates (R106) -/

def execPand (h : Hdr) (d a b : Nat) (s : State) : Out :=
  predOp s h 8 d fun w l => (rdP s w 1 a l && rdP s w 2 b l, 0)

def execPor (h : Hdr) (d a b : Nat) (s : State) : Out :=
  predOp s h 8 d fun w l => (rdP s w 1 a l || rdP s w 2 b l, 0)

def execPxor (h : Hdr) (d a b : Nat) (s : State) : Out :=
  predOp s h 8 d fun w l => (rdP s w 1 a l != rdP s w 2 b l, 0)

def execPnot (h : Hdr) (d a : Nat) (s : State) : Out :=
  predOp s h 8 d fun w l => (!rdP s w 1 a l, 0)

def execPmov (h : Hdr) (d a : Nat) (s : State) : Out :=
  predOp s h 8 d fun w l => (rdP s w 1 a l, 0)

def execPbal (h : Hdr) (d a : Nat) (s : State) : Out :=
  predOp s h 8 d fun w l => ((rdS s w 1 a).getLsbD l, 0)

/-! ### Special registers (R54, R124, R125) -/

/-- The core's rank within the cushion of a task, or 0 (R54, R236). -/
def State.rankOf (s : State) (task core : Nat) : Nat :=
  match kfind s.cushions task with
  | some l => if l.contains core then l.findIdx (· = core) else 0
  | none => 0

/-- A special register's value as a lane reads it (R17, R54). -/
def special (s : State) (w : Wave) (fr : Frag) (n lane : Nat) : Word :=
  let t := (kfind s.tasks w.task)
  let nat (x : Nat) : Word := BitVec.ofNat 32 x
  match n with
  | 512 => nat lane
  | 513 => nat w.idx
  | 514 => nat fr.num
  | 515 => nat (((t.map (·.gang)).getD 0) * (((s.launchOf w.task).map (·.gsz)).getD 1) + w.blk)
  | 516 => nat (32 * ((t.map (·.desc.nwave)).getD 1))
  | 517 => nat ((t.map (·.gang)).getD 0)
  | 518 => nat (w.core % 8)
  | 519 => nat (clusterOf w.core % 8)
  | 520 => nat (dieOf w.core)
  | 521 => nat (s.rankOf w.task w.core)
  | 522 => nat w.lpart
  | 523 => fr.mask
  | 524 => w.mode
  | 525 => w.flags
  | 526 => w.trapen
  | 527 => w.remain
  | 528 => w.trapbase.setWidth 32
  | 529 => nat (w.trapbase.toNat >>> 32)
  | 530 => s.time.setWidth 32
  | 531 => nat (s.time.toNat >>> 32)
  | _ => 0

/-- SRD; a flag of %flags that it sees has landed for good (R58). -/
def execSrd (lat : Nat) (f : SrdForm) (dv : VOp) (ds : Nat) (a : Nat) (s : State) : Out :=
  onFrag s fun k w0 fr =>
    let w := if a = 525 then w0.landFlags s.cycle s.ctr else w0
    let due := s.cycle + lat
    match f with
    | .scalar => advance s k ((w.wrS ds (special s w fr a 0)).mark (.sca ds) 1 due) fr 8
    | .pair =>
      let w' := (w.wrS ds (special s w fr a 0)).wrS (ds + 1) (special s w fr (a + 1) 0)
      advance s k ((w'.mark (.sca ds) 1 due).mark (.sca (ds + 1)) 1 due) fr 8
    | .vector =>
      advance s k ((w.wrV dv fr.mask fun l => special s w fr a l).mark (.vec (VOp.field dv)) fr.mask due) fr 8

/-- The refusals of R57: kind 0x02, cause 0x09, with 128 plus a bit position of the value. -/
def modeRefusal (v : Word) : Option Nat :=
  if modeRM v = 0 || 5 < modeRM v then some 0 else (lowestBit (v.toNat >>> 7) 25).map (· + 7)
def flagRefusal (v : Word) : Option Nat := (lowestBit (v.toNat >>> 8) 24).map (· + 8)

/-- A transfer target's fault (R12): not canonical, or misaligned. -/
def badTarget (t : DWord) : Option Nat :=
  if canon t.toNat ≠ t then some 1 else if t.toNat % 8 ≠ 0 then some 3 else none

/-- The address-form fault of a target. -/
def targetExc (t : DWord) (r : Nat) : Exc := { kind := 0x11, addr := t.toNat, detail := r }

def execSwr (pair : Bool) (d a : Nat) (s : State) : Out :=
  onFrag s fun k w fr =>
    let v := rdS s w 1 a
    let refused (n : Nat) : State := takeTrap s k w fr { kind := 0x02, detail := 0x09 + 256 * (128 + n) }
    if pair then
      let x := rdS2 s w 1 a
      match badTarget x with
      | some r => takeTrap s k w fr (targetExc x r)
      | none => advance s k { w with trapbase := x } fr 8
    else
      match d with
      | 524 => match modeRefusal v with
        | some n => refused n
        | none => advance s k { w with mode := v } fr 8
      | 525 => match flagRefusal v with
        | some n => refused n
        | none => advance s k (w.setFlags v s.cycle s.ctr) fr 8
      | 526 => match flagRefusal v with
        | some n => refused n
        | none => advance s k { w with trapen := v } fr 8
      | 527 => advance s k { w with remain := v } fr 8
      | _ => takeTrap s k w fr { kind := 0x03, detail := 0x0B + 256 * (d - 512) }

def execSpart (n : Nat) (s : State) : Out :=
  onFrag s fun k w fr => advance s k { w with lpart := n } fr 8

end Sys2Proof.Machine
end

