-- ==== Sys2Proof/Machine/Control.lean ====
section
/-! DEFINITION. Branches, calls, waits, divergence and reconvergence (R107 to R117). -/

namespace Sys2Proof.Machine

/-! ### Targets (R12, R107) -/

/-- The instruction's own address plus a signed byte offset. -/
def target (pc : DWord) (off : Word) : DWord := pc + off.signExtend 64

/-- The fragment goes on at a program counter. -/
def jump (s : State) (k : Nat) (w : Wave) (fr : Frag) (pc : DWord) : State :=
  s.setWave k (w.modFrag fr.num fun g => { g with pc })

/-- Checks a target before the effect. -/
def toTarget (s : State) (k : Nat) (w : Wave) (fr : Frag) (t : DWord) (eff : State) : State :=
  match badTarget t with
  | some r => takeTrap s k w fr (targetExc t r)
  | none => eff

/-! ### Uniform control (R108, R109) -/

def execBra (imm : Word) (s : State) : Out :=
  onFrag s fun k w fr => let t := target fr.pc imm; toTarget s k w fr t (jump s k w fr t)

def execBrc (n : Nat) (neg : Bool) (imm : Word) (s : State) : Out :=
  onFrag s fun k w fr =>
    let t := target fr.pc imm
    toTarget s k w fr t (jump s k w fr (if rdC s w 5 n != neg then t else pcAdd fr.pc 16))

def execCall (d : Nat) (imm : Word) (s : State) : Out :=
  onFrag s fun k w fr =>
    let t := target fr.pc imm
    toTarget s k w fr t (jump s k (w.wrS2 d (pcAdd fr.pc 16)) fr t)

def execRet (a : Nat) (s : State) : Out :=
  onFrag s fun k w fr => let t := rdS2 s w 1 a; toTarget s k w fr t (jump s k w fr t)

def execLoop (a : Nat) (imm : Word) (s : State) : Out :=
  onFrag s fun k w fr =>
    let t := target fr.pc imm
    let x := rdS s w 1 a - 1
    toTarget s k w fr t (jump s k (w.wrS a x) fr (if x ≠ 0 then t else pcAdd fr.pc 16))

def execNop (s : State) : Out := onFrag s fun k w fr => advance s k w fr 8

/-- The fragment enters its queue's tail as Ready (R103, R108). -/
def execYield (s : State) : Out :=
  onFrag s fun k w fr => (advance s k { w with cur := if w.cur = some fr.num then none else w.cur } fr 8).ready k fr.num

/-- A threshold of WAITC as the largest count that passes: an untested counter always does (R109). -/
def threshold (x none : Nat) : Nat := if x = none then 2 ^ 13 else x

/-- Lifts the marks that a completing WAITC covers: those of the fragment's accesses that have performed, of the counters
that it tests (R20, R61). -/
def Wave.cover (w : Wave) (fr : Frag) (lc sc kc xc : Bool) : Wave :=
  let tested (c : Ctr) : Bool := match c with | .lc => lc | .sc => sc | .kc => kc | .xc => xc
  { w with undef := w.undef.filter fun u =>
      !(u.holder = .frag fr.num && tested u.ctr && !(w.replay.any fun e => e.id = u.entry)) }

def execWaitc (lc sc kc xc : Nat) (s : State) : Out :=
  onFrag s fun k w fr =>
    let tl := threshold lc 2047
    let ts := threshold sc 2047
    let tk := threshold kc 2047
    let tx := threshold xc 255
    if fr.lc ≤ tl && fr.sc ≤ ts && fr.kc ≤ tk && fr.xc ≤ tx then
      advance s k (w.cover fr (lc ≠ 2047) (sc ≠ 2047) (kc ≠ 2047) (xc ≠ 255)) fr 8
    else waitAt s k fr (.waitc tl ts tk tx)

/-! ### Tokens (R55, R110 to R112) -/

/-- Program counter bits [56:3], and the program counter they rebuild (R55). -/
def pcBits (pc : DWord) : BitVec 54 := BitVec.ofNat 54 (pc.toNat >>> 3)
def pcOf (x : BitVec 54) : DWord := canon (8 * x.toNat)

/-- The token-misuse trap (R117). -/
def tokenExc (k reason : Nat) : Exc := { kind := 0x21, detail := k + 16 * reason }

/-- Whether token `k` is reached from token `t` through OUT links. -/
def Wave.encloses (w : Wave) (k : Nat) : Nat → Option Nat → Bool
  | 0, _ => false
  | _ + 1, none => false
  | n + 1, some t => t = k || w.encloses k n (w.tok t).out

/-- Fragment numbers that arrived fragments reserve (R110). -/
def Wave.reserved (w : Wave) : BitVec 16 := w.toks.foldl (fun m p => m ||| p.2.nums) 0

/-- The lowest fragment number that is free, when the wave has fewer than 16 fragments and reserved numbers. -/
def Wave.freeNum (w : Wave) : Option Nat :=
  (List.range 16).find? fun n => !(w.frags.any fun f => f.num = n) && !w.reserved.getLsbD n

/-- Entries of a partition's fragment table in use (R59). -/
def State.fragsIn (s : State) (core part : Nat) : Nat :=
  s.waves.foldl (fun n p => if p.2.core = core && p.2.part = part && p.2.resident then n + p.2.frags.length else n) 0

/-- A group of lanes with one target. -/
structure Split where
  lanes : Word
  pc : DWord
  deriving DecidableEq, Repr

/-- Detaches groups in order while a table entry and a number are free: the wave and the groups left over (R111). -/
def detach (room : Nat) (k : Nat) : Nat → Wave → List Split → Wave × List Split × List Nat
  | _, w, [] => (w, [], [])
  | used, w, g :: r =>
    match w.freeNum with
    | some n =>
      if used < room then
        let w' := { w with frags := w.frags ++ [({ num := n, pc := g.pc, mask := g.lanes, tok := some k } : Frag)] }
        let w' := w'.setTok k { w'.tok k with exp := (w'.tok k).exp + 1 }
        let (w'', rest, ns) := detach room k (used + 1) w' r
        (w'', rest, n :: ns)
      else (w, g :: r, [])
    | none => (w, g :: r, [])

/-- The inline slot takes the groups left over (R112): the wave and the group that F continues as, or no way. -/
def inline (w : Wave) (k : Nat) (own : DWord) (g0 : Split) (rest : List Split) : Option (Wave × Split) :=
  let t := w.tok k
  match rest with
  | [] => some (w, g0)
  | g :: more =>
    let all := rest.foldl (fun m x => m ||| x.lanes) 0
    if t.st = 1 then
      some (w.setTok k { t with st := 2, ipm := all, ipc := pcBits (if more = [] then g.pc else own) }, g0)
    else if rest.all fun x => pcBits x.pc = t.ipc then some (w.setTok k { t with ipm := t.ipm ||| all }, g0)
    else if more = [] && pcBits g0.pc = t.ipc then some (w.setTok k { t with ipm := t.ipm ||| g0.lanes }, g)
    else none

/-- The split of BRX and JMPT (R111): the first group continues, the others detach. -/
def splitAt (s : State) (k : Nat) (w : Wave) (fr : Frag) (tk : Nat) (g0 : Split) (gs : List Split) (w0 : Wave) : State :=
  let t := w.tok tk
  let go (w1 : Wave) : State :=
    let free := 48 - s.fragsIn w.core w.part
    let (w2, rest, ns) := detach free tk 0 w1 gs
    match inline w2 tk fr.pc g0 rest with
    | none => takeTrap s k w fr (tokenExc tk 4)
    | some (w3, g) =>
      let s' := s.setWave k (w3.modFrag fr.num fun f => { f with mask := g.lanes, pc := g.pc, tok := some tk })
      ns.foldl (fun s n => s.enqueue w.core w.part k n) s'
  if t.st = 0 then go (w0.setTok tk { st := 1, exp := 1, out := fr.tok })
  else if fr.tok = some tk then go w0
  else if w.encloses tk 17 fr.tok then takeTrap s k w fr (tokenExc tk 3)
  else waitAt s k fr (.token tk)

/-- The number of lanes of a mask. -/
def count (m : Word) : Nat := (lanesOf m).length

def execBrx (g : Guard) (k : Nat) (imm : Word) (s : State) : Out :=
  onFrag s fun key w fr =>
    let t := target fr.pc imm
    let m := sel s w fr g
    let taken : Split := { lanes := m, pc := t }
    let other : Split := { lanes := fr.mask &&& ~~~m, pc := pcAdd fr.pc 16 }
    toTarget s key w fr t
      (if m = 0 then splitAt s key w fr k other [] w
       else if other.lanes = 0 then splitAt s key w fr k taken [] w
       else if count m ≤ count other.lanes then splitAt s key w fr k other [taken] w
       else splitAt s key w fr k taken [other] w)

/-! ### JMPT (R113) -/

/-- Adds a lane to the group of its target, which keeps the lowest rank. -/
def addLane (gs : List (Nat × Split)) (rank : Nat) (pc : DWord) (lane : Nat) : List (Nat × Split) :=
  if gs.any fun g => g.2.pc = pc then
    gs.map fun g => if g.2.pc = pc then (min g.1 rank, { g.2 with lanes := g.2.lanes ||| (1#32 <<< lane) }) else g
  else gs ++ [(rank, { lanes := 1#32 <<< lane, pc })]

/-- Inserts by rising rank. -/
def byRank (g : Nat × Split) : List (Nat × Split) → List (Nat × Split)
  | [] => [g]
  | h :: r => if g.1 < h.1 then g :: h :: r else h :: byRank g r

/-- The continuing group, with the most lanes and the lowest rank among those, and the others by rising rank. -/
def orderGroups (gs : List (Nat × Split)) : Option (Split × List Split) :=
  let l := gs.foldl (fun l g => byRank g l) []
  let most := l.foldl (fun n g => max n (count g.2.lanes)) 0
  (l.find? fun g => count g.2.lanes = most).map fun g => (g.2, (l.filter fun h => h ≠ g).map (·.2))

/-- JMPT. The redirect of an RFT serves the run that the RFT restarts; lanes that go to the inline slot with the JMPT's own address use
their indices when they run it again: the model's choice (R112, R129, log entry 74). -/
def execJmpt (g : Guard) (k : Nat) (a : VOp) (b n : Nat) (s : State) : Out :=
  onFrag s fun key w fr =>
    let m := sel s w fr g
    let rd := fr.redirect.filter fun r => r.pc = fr.pc
    let redir : Word := match rd with | some r => r.mask &&& m | none => 0
    let idx (l : Nat) : Nat := (rdV s w 1 a l).toNat
    let lanes := lanesOf m
    let bad := lanes.filter fun l => !redir.getLsbD l && n ≤ idx l
    let entry (l : Nat) : DWord := target fr.pc (rdS s w (16 + idx l) (b + idx l))
    let pcAt (l : Nat) : DWord := if redir.getLsbD l then (rd.map (·.target)).getD 0 else entry l
    match bad with
    | l :: _ => takeTrap s key w fr { kind := 0x20, lane := some l, detail := idx l + (maskOf bad).toNat * 2 ^ 32 }
    | [] =>
      match lanes.find? fun l => !redir.getLsbD l && (badTarget (entry l)).isSome with
      | some l =>
        takeTrap s key w fr { targetExc (entry l) ((badTarget (entry l)).getD 0) with lane := some l }
      | none =>
        let gs := lanes.foldl (fun gs l => addLane gs (if redir.getLsbD l then n else idx l) (pcAt l) l) []
        let gs := (lanesOf (fr.mask &&& ~~~m)).foldl (fun gs l => addLane gs (n + 1) (pcAdd fr.pc 16) l) gs
        match orderGroups gs with
        | some (g0, rest) => splitAt s key w fr k g0 rest (if rd.isSome then w.modFrag fr.num fun f => { f with redirect := none } else w)
        | none => splitAt s key w fr k { lanes := 0, pc := pcAdd fr.pc 16 } [] w

/-! ### JOIN and EXIT (R115, R116) -/

/-- Unites two batch tables. -/
def mergeBatches (a b : KMap (List Nat)) : KMap (List Nat) :=
  b.foldl (fun m p => kset [] m p.1 (kget [] m p.1 ++ p.2)) a

/-- Moves the holders of entries and marks. -/
def Wave.rehold (w : Wave) (a b : Holder) : Wave :=
  { w with
    replay := w.replay.map fun e => if e.holder = a then { e with holder := b } else e
    undef := w.undef.map fun u => if u.holder = a then { u with holder := b } else u }

/-- F's counters, copies and batches go into the token's keeper (R110, R153). -/
def Wave.keep (w : Wave) (fr : Frag) (k : Nat) : Wave :=
  let t := w.tok k
  let t' := { t with
    lc := t.lc + fr.lc
    sc := t.sc + fr.sc
    kc := t.kc + fr.kc
    xc := t.xc + fr.xc
    unsealed := t.unsealed ++ fr.unsealed
    batches := mergeBatches t.batches fr.batches }
  (w.setTok k t').rehold (.frag fr.num) (.tok k)

/-- F with the keeper's counters, copies and batches added. -/
def Frag.take (fr : Frag) (t : Token) : Frag :=
  { fr with
    lc := fr.lc + t.lc
    sc := fr.sc + t.sc
    kc := fr.kc + t.kc
    xc := fr.xc + t.xc
    unsealed := fr.unsealed ++ t.unsealed
    batches := mergeBatches fr.batches t.batches }

/-- Frees the entry of an arrived or retired fragment. -/
def Wave.dropFrag (w : Wave) (n : Nat) : Wave :=
  { w with frags := w.frags.filter fun f => f.num ≠ n, cur := if w.cur = some n then none else w.cur }

/-- F serves the inline slot of token `k`: its counters go to the keeper and it takes the slot's lanes (R115). -/
def Wave.serveInline (w : Wave) (fr : Frag) (k : Nat) : Wave :=
  let w1 := w.keep fr k
  let t := w1.tok k
  (w1.setTok k { t with st := 1, exp := 1, ipm := 0 }).modFrag fr.num fun f =>
    { f with mask := t.ipm, pc := pcOf t.ipc, lc := 0, sc := 0, kc := 0, xc := 0, unsealed := [], batches := [] }

/-- The accesses and fence records of merging fragments become those of fragment `n` (R59). -/
def Wave.renumber (w : Wave) (nums : List Nat) (n : Nat) : Wave :=
  { w with
    replay := w.replay.map fun e => if nums.contains e.frag then { e with frag := n } else e
    fences := w.fences.map fun p => (p.1, if nums.contains p.2.frag then { p.2 with frag := n } else p.2) }

/-- F becomes the merged fragment of token `k`, under the lowest of the merging numbers (R59, R115). -/
def Wave.merge (w : Wave) (fr : Frag) (k : Nat) : Wave :=
  let t := w.tok k
  let nums := (List.range 16).filter fun n => t.nums.getLsbD n
  let n := nums.foldl min fr.num
  let f' := { fr.take t with num := n, mask := t.arr, pc := pcOf t.jpc, tok := t.out }
  let w1 := (w.setTok k {}).rehold (.tok k) (.frag n)
  let w2 := (w1.rehold (.frag fr.num) (.frag n)).renumber (fr.num :: nums) n
  { w2 with
    frags := w2.frags.map fun f => if f.num = fr.num then f' else f
    cur := if w2.cur = some fr.num then some n else w2.cur
    trapSave := w2.trapSave.map fun x =>
      { x with frag := if x.frag = fr.num then n else x.frag, live := x.live.map fun y => if y = fr.num then n else y } }

/-- The numbers of a wave's fragments, live or reserved (R110). -/
def Wave.numbers (w : Wave) : List Nat := (List.range 16).filter fun n => (w.frags.any fun f => f.num = n) || w.reserved.getLsbD n

/-- Once a JOIN or EXIT of fragment `n` has turned wave `w` into `w'`, the fragments whose numbers have become free go on as the one that
they have merged into, with their copies, stores and releases (R59, R115, R210, log entry 26). -/
def State.unite (s : State) (k n : Nat) (w w' : Wave) : State :=
  let gone := w.numbers.filter fun x => !w'.numbers.contains x
  let heir := if w'.numbers.contains n then n else w'.cur.getD n
  if gone = [] || w'.numbers = [] then s
  else
    { s.uniteAgents (gone.map fun x => fragKey k x) (fragKey k heir) with
      copies := s.copies.map fun p => (p.1, if p.2.wave = some k && gone.contains p.2.frag then { p.2 with frag := heir } else p.2) }

def execJoin (k : Nat) (s : State) : Out :=
  onFrag s fun key w fr =>
    let t := w.tok k
    if t.st = 0 then takeTrap s key w fr (tokenExc k 1)
    else if fr.tok ≠ some k then takeTrap s key w fr (tokenExc k 2)
    else
      let t' := { t with jpc := if t.arr = 0 then pcBits (pcAdd fr.pc 8) else t.jpc, arr := t.arr ||| fr.mask, exp := t.exp - 1 }
      let w1 := w.setTok k t'
      if t'.exp ≠ 0 then
        let w2 := w1.keep fr k
        (s.setWave key ((w2.setTok k { w2.tok k with nums := (w2.tok k).nums ||| (1#16 <<< fr.num) }).dropFrag fr.num)).barSync w.task w.blk
      else if t'.st = 2 then s.setWave key (w1.serveInline fr k)
      else ((s.setWave key (w1.merge fr k)).unite key fr.num w (w1.merge fr k)).wake key

/-- F retires as an arrival with no lanes, at its token and then at the tokens outside it (R116); the tokens that become
free are those whose waiters are looked at again. -/
def Wave.retire (w : Wave) (fr : Frag) : Nat → Wave
  | 0 => w.dropFrag fr.num
  | n + 1 =>
    match fr.tok with
    | none => w.dropFrag fr.num
    | some k =>
      let t := w.tok k
      let w1 := w.setTok k { t with exp := t.exp - 1 }
      if t.exp ≠ 1 then
        let w2 := w1.keep fr k
        (w2.setTok k { w2.tok k with nums := (w2.tok k).nums ||| (1#16 <<< fr.num) }).dropFrag fr.num
      else if t.st = 2 then w1.serveInline fr k
      else if t.arr ≠ 0 then w1.merge fr k
      else
        let fr' := { fr.take t with tok := t.out }
        let nums := (List.range 16).filter fun x => t.nums.getLsbD x
        Wave.retire ((((w1.setTok k {}).rehold (.tok k) (.frag fr.num)).renumber nums fr.num).setFrag fr') fr' n

def execExit (g : Guard) (s : State) : Out :=
  onFrag s fun key w fr =>
    let m := sel s w fr g
    let rest := fr.mask &&& ~~~m
    if rest ≠ 0 then advance s key (w.modFrag fr.num fun f => { f with mask := rest }) fr 8
    else ((((s.setWave key (w.retire fr 17)).unite key fr.num w (w.retire fr 17)).wake key).barSync w.task w.blk).endWave key

end Sys2Proof.Machine
end

