-- ==== Sys2Proof/Machine/Cluster.lean ====
section
/-! DEFINITION. Cluster memory (R221, R222), barriers (R225 to R231), hardware queues (R232 to R235) and the loop sequencer
(R241 to R243). -/

namespace Sys2Proof.Machine

/-! ### Cluster addresses (R221) -/

/-- The window that a cluster address names, by block and part of the wave's gang. -/
def clusterWindow (s : State) (w : Wave) (a : Nat) : Option Grant :=
  if bits a 31 24 ≠ 0 then none
  else (kfind s.tasks w.task).bind fun t => t.grants.find? fun g => g.blk = bits a 23 21 && g.part = bits a 20 19

/-- A lane's cluster address with a signed offset: core and scratchpad offset, or the fault. -/
def placeCluster (s : State) (w : Wave) (a : Nat) (off : Int) (sz : Nat) : Except LaneFault (Nat × Nat) :=
  let o : Int := (bits a 18 0 : Int) + off
  let addr := wrap ((a : Int) + off) 64
  match clusterWindow s w a with
  | none => .error { kind := 0x10, reason := 2, addr }
  | some g =>
    if o < 0 ∨ (g.winLen : Int) < o + sz then .error { kind := 0x10, reason := 2, addr }
    else if o.toNat % sz ≠ 0 then .error { kind := 0x11, reason := 3, addr }
    else .ok (g.core, g.winBase + o.toNat)

/-- The lanes of an LDC or STC. -/
def clusterLanes (s : State) (w : Wave) (m : Word) (a : VOp) (off : Option Word) (sz : Nat) : Except Exc (List (Nat × Nat × Nat)) :=
  gather ((lanesOf m).map fun l =>
    (l, placeCluster s w (rdV s w 1 a l).toNat (signed ((off.map (·.toNat)).getD 0) 32) sz)) true 2

def execLdc (g : Guard) (t : Ty) (cnt : Nat) (d a : VOp) (off : Option Word) (s : State) : Out :=
  onFrag s fun k w fr =>
    let m := sel s w fr g
    match clusterLanes s w m a off (memBytes t * 2 ^ cnt) with
    | .error e => takeTrap s k w fr e
    | .ok l => scratchLoad s k w fr 0x220 (lenOf off) t cnt (VOp.field d) m l

def execStc (g : Guard) (t : Ty) (cnt : Nat) (d a : VOp) (off : Option Word) (s : State) : Out :=
  onFrag s fun k w fr =>
    let m := sel s w fr g
    match clusterLanes s w m a off (memBytes t * 2 ^ cnt) with
    | .error e => takeTrap s k w fr e
    | .ok l => scratchStore s k w fr 0x221 (lenOf off) t cnt d l

/-! ### Barriers (R225 to R231) -/

/-- The arrival of BAR and BARA: the release, then the arrival (R228, R230). `after` goes on from the phase of arrival. -/
def arriveAt (s : State) (k : Nat) (w : Wave) (fr : Frag) (tgt : BarTarget) (sc : Scope) (after : State → Nat → Nat → State) : State :=
  match barOfTarget s w tgt with
  | none => takeTrap s k w fr { kind := 0x20, level := 2, detail := match tgt with | .slot n => n | _ => 0 }
  | some key =>
    let c := s.barC key
    if kfind fr.arrivals key = some c then waitAt s k fr (.barrier key)
    else if !fr.quiet then waitAt s k fr .rel
    else
      let s1 := s.releaseAt k w fr (s.resolve w sc)
      let s2 := s1.modWave k fun w => w.modFrag fr.num fun f => { f with arrivals := kinsert f.arrivals key c }
      after (s2.barCheck key) key c

/-- The departure: the acquire at the instruction's scope, then the next instruction (R230). -/
def depart (s : State) (k : Nat) (fr : Frag) (sc : Scope) : State :=
  match kfind s.waves k with
  | none => s
  | some w =>
    (advance s k (w.modFrag fr.num fun f => { f with phase := .none, st := .issuing }) fr 8).acquireAt w.core (s.resolve w sc)

/-- A fragment that has arrived by BAR waits for the phase that it arrived in. -/
def barWait (s : State) (k : Nat) (fr : Frag) (sc : Scope) (key c : Nat) : State :=
  if s.barC key ≠ c then depart s k fr sc
  else (s.modWave k fun w => w.modFrag fr.num fun f => { f with phase := .arrived c }).hold k fr.num (.waiting (.barrier key))

def execBar (tgt : BarTarget) (sc : Scope) (s : State) : Out :=
  onFrag s fun k w fr =>
    match fr.phase, barOfTarget s w tgt with
    | .arrived c, some key => barWait s k fr sc key c
    | _, _ => arriveAt s k w fr tgt sc fun s key c => barWait s k fr sc key c

/-- A barrier token (R229). -/
def barToken (c : Nat) (last : Bool) : Word := BitVec.ofNat 32 (c + (if last then 2 ^ 31 else 0))

def execBara (d : Nat) (tgt : BarTarget) (sc : Scope) (s : State) : Out :=
  onFrag s fun k w fr =>
    arriveAt s k w fr tgt sc fun s key c =>
      match kfind s.waves k with
      | some w => advance s k (w.wrS d (barToken c (s.barC key ≠ c))) fr 8
      | none => s

/-- The phase that a BARW waits for: its token's, kept while the fragment waits (R229). -/
def barwPhase (fr : Frag) (token : Word) : Nat := match fr.phase with | .arrived c => c | _ => token.toNat % 2 ^ 31

/-- BARW waits while the phase of its token is open. -/
def execBarw (a : Nat) (tgt : BarTarget) (sc : Scope) (s : State) : Out :=
  onFrag s fun k w fr =>
    match barOfTarget s w tgt with
    | none => takeTrap s k w fr { kind := 0x20, level := 2, detail := match tgt with | .slot n => n | _ => 0 }
    | some key =>
      barWait s k fr sc key (barwPhase fr (rdS s w 1 a))

/-! ### Queues (R232 to R235) -/

/-- A queue as an operation finds it. -/
structure HwQueue where
  core : Nat
  at_ : Nat
  head : Nat
  tail : Nat
  cap : Nat
  deriving DecidableEq, Repr

def HwQueue.occ (q : HwQueue) : Nat := (q.tail + 2 ^ 32 - q.head) % 2 ^ 32
def HwQueue.free (q : HwQueue) : Nat := q.cap - q.occ
def HwQueue.slot (q : HwQueue) (i : Nat) : Nat := q.at_ + 16 + 4 * (i % q.cap)

/-- A 32-bit word of a scratchpad. -/
def scratchWord (s : State) (c a : Nat) : Nat := ofBytes ((List.range 4).map fun i => s.rdScratch c (a + i))

/-- Finds the queue at a cluster address (R232, R233). -/
def findQueue (s : State) (w : Wave) (q : Nat) : Except LaneFault HwQueue :=
  if q % 16 ≠ 0 then .error { kind := 0x11, reason := 3, addr := q }
  else
    match placeCluster s w q 0 16, clusterWindow s w q with
    | .error f, _ => .error f
    | .ok _, none => .error { kind := 0x10, reason := 2, addr := q }
    | .ok (c, a), some g =>
      let log := max 5 (min 12 (scratchWord s c (a + 8) % 16))
      if g.winBase + g.winLen < a + 16 + 4 * 2 ^ log then .error { kind := 0x10, reason := 2, addr := q }
      else .ok { core := c, at_ := a, head := scratchWord s c a, tail := scratchWord s c (a + 4), cap := 2 ^ log }

/-- A queue address's fault; every selected lane names it. -/
def queueExc (m : Word) (f : LaneFault) : Exc :=
  { kind := f.kind, level := 2, lane := (lanesOf m).head?, addr := f.addr, detail := f.reason + m.toNat * 2 ^ 32 }

/-- Bytes of 32-bit words at their addresses. -/
def wordBytes (l : List (Nat × Nat)) : List (Nat × Byte) :=
  l.flatMap fun p => (List.range 4).map fun i => (p.1 + i, BitVec.ofNat 8 (p.2 >>> (8 * i)))

/-- A fragment that waits at no queue any more: its operation is made, or it has gone past it. -/
def State.leaveQueues (s : State) (k n : Nat) : State :=
  { s with qwaits := s.qwaits.filterMap fun p =>
      match p.2.filter fun x => !(x.1 = k && x.2.1 = n) with
      | [] => none
      | l => some (p.1, l) }

/-- A fragment joins a queue's waiters, once, and then waits at no other; `push` tells the two orders apart (R234). -/
def State.joinQueue (s : State) (q k n : Nat) (push : Bool) : State :=
  if (kget [] s.qwaits q).contains (k, n, push) then s
  else
    let s1 := s.leaveQueues k n
    { s1 with qwaits := kset [] s1.qwaits q (kget [] s1.qwaits q ++ [(k, n, push)]) }

/-- Whether a blocking operation has to let an earlier waiter of its kind go first (R234, log entry 77). -/
def State.behind (s : State) (q k n : Nat) (push : Bool) : Bool :=
  match (kget [] s.qwaits q).find? fun p => p.2.2 == push with
  | some p => !(p.1 = k && p.2.1 = n)
  | none => false

/-- p[B] of a non-blocking operation that does not serve every selected lane: 1 in the lanes served, 0 in the others; one that serves them
all leaves p[B] as it is (R234). -/
def servedPred (w : Wave) (nb : Option Nat) (m : Word) (ls : List Nat) : Wave :=
  match nb with
  | some p => if ls.length < count m then w.wrP p m fun l => ls.contains l else w
  | none => w

def execQpush (g : Guard) (nb : Option Nat) (sc : Scope) (d : VOp) (a : Nat) (s : State) : Out :=
  onFrag s fun k w fr =>
    let m := sel s w fr g
    if m = 0 then (advance s k w fr 8).leaveQueues k fr.num
    else
      match findQueue s w (rdS s w 1 a).toNat with
      | .error f => takeTrap s k w fr (queueExc m f)
      | .ok q =>
        if !fr.quiet then waitAt s k fr .rel
        else
          let s1 := s.releaseAt k w fr (s.resolve w sc)
          let key := scratchKey q.core q.at_
          let n := if nb.isSome then min q.free (count m) else count m
          if q.free < n || (nb.isNone && s1.behind key k fr.num true) then (s1.joinQueue key k fr.num true).hold k fr.num (.waiting (.queue key))
          else
            let ls := (lanesOf m).take n
            let data := ls.zipIdx.map fun p => (q.slot (q.tail + p.2), (rdV s w 0 d p.1).toNat)
            let bs := wordBytes (data ++ [(q.at_ + 4, (q.tail + n) % 2 ^ 32)])
            let s2 := (advance s1 k (servedPred w nb m ls) fr 8).leaveQueues k fr.num
            if n = 0 then s2 else s2.wrScratch q.core bs

def execQpop (g : Guard) (nb : Option Nat) (sc : Scope) (d : VOp) (a : Nat) (s : State) : Out :=
  onFrag s fun k w fr =>
    let m := sel s w fr g
    if m = 0 then (advance s k w fr 8).leaveQueues k fr.num
    else
      match findQueue s w (rdS s w 1 a).toNat with
      | .error f => takeTrap s k w fr (queueExc m f)
      | .ok q =>
        let key := scratchKey q.core q.at_
        let have_ := q.occ
        let n := if nb.isSome then min have_ (count m) else count m
        if have_ < n || (nb.isNone && s.behind key k fr.num false) then (s.joinQueue key k fr.num false).hold k fr.num (.waiting (.queue key))
        else
          let ls := (lanesOf m).take n
          let val (l : Nat) : Word := BitVec.ofNat 32 (scratchWord s q.core (q.slot (q.head + ls.findIdx (· = l))))
          let w1 := servedPred (w.wrV d (maskOf ls) val) nb m ls
          let s1 := (advance s k w1 fr 8).leaveQueues k fr.num
          let s2 := if n = 0 then s1 else s1.wrScratch q.core (wordBytes [(q.at_, (q.head + n) % 2 ^ 32)])
          s2.acquireAt w.core (s.resolve w sc)

/-! ### The loop sequencer (R241 to R243) -/

/-- The bit position of a refused field of a nest descriptor (R242). -/
def badNest (b : List Byte) : Option Nat :=
  let n (i : Nat) : Nat := ofBytes ((b.drop (2 * i)).take 2)
  let perm := (b.getD 8 0).toNat
  let ps := (List.range 4).map fun i => bits perm (2 * i + 1) (2 * i)
  if n 0 = 0 then some 0 else if n 1 = 0 then some 16 else if n 2 = 0 then some 32 else if n 3 = 0 then some 48
  else if !((List.range 4).all fun i => ps.contains i) then some 64
  else if b.getD 9 0 ≠ 0 then some 72
  else if n 5 = 0 then some 80
  else if (b.drop 12).any (· ≠ 0) then some 96
  else none

/-- Reads aligned bytes as a load of the wave, at once (R242). -/
def waveRead (s : State) (w : Wave) (fr : Frag) (x : LaneAddr) (n : Nat) : List Byte :=
  (List.range n).map fun i => s.loadByte w.core (w.ownBytes (w.openStores fr.num)) .global (x.key + i) x.sp

/-- The loop cursor that an init leaves (R243), its bounds as exact numbers: the model's choice where they pass 32 bits (log entry 39). -/
def nestCursor (b : List Byte) (lam : Nat) : Cursor :=
  let n := (List.range 4).map fun i => ofBytes ((b.drop (2 * i)).take 2)
  let perm := (b.getD 8 0).toNat
  let pc := ofBytes ((b.drop 10).take 2)
  let t := n.foldl (· * ·) 1
  { valid := true
    n
    perm := (List.range 4).map fun i => bits perm (2 * i + 1) (2 * i)
    pc
    i := lam * t / pc
    hi := (lam + 1) * t / pc }

/-- TLOOP.INIT. An address that is neither canonical nor aligned is reported as not canonical, and s(D) holds the low 32 bits of a longer
slice: the model's choices (log entry 39). -/
def execTloopInit (d a b : Nat) (imm : Word) (s : State) : Out :=
  onFrag s fun k w fr =>
    let x := rdS2 s w 1 a + imm.signExtend 64
    let va := x.toNat % 2 ^ 57
    let lam := (rdS s w 2 b).toNat
    if canon x.toNat ≠ x then takeTrap s k w fr { kind := 0x11, addr := x.toNat, detail := 1 }
    else if va % 32 ≠ 0 then takeTrap s k w fr { kind := 0x11, addr := x.toNat, detail := 3 }
    else
      let (s1, t) := translateLines s (s.walker w) .read false false [(0, va)]
      match t with
      | .error e => takeTrap s1 k w fr e
      | .ok la =>
        match watchTest s1 w fr .read false [(0, va)] 32 with
        | some e => refuseAt s1 k w fr e
        | none =>
          if heldBack s1 k w fr.num w.nextEntry true (la.map fun y => (Space.global, y.key, 32)) then s1
          else
          match s1.meetCells k w fr false (cellsOf la) with
          | (s2, .held) => s2
          | (s2, .trap e) => takeTrap s2 k w fr e
          | (s2, .pass) =>
            match la with
            | [] => s2
            | y :: _ =>
              let bs := waveRead s2 w fr y 32
              match badNest bs with
              | some p => takeTrap s2 k w fr { kind := 0x01, level := 1, detail := 0x03 + 256 + 65536 * p }
              | none =>
                let cu := nestCursor bs lam
                if cu.pc ≤ lam then takeTrap s2 k w fr { kind := 0x20, level := 2, detail := lam + cu.pc * 2 ^ 32 }
                else
                  let w1 := { (w.noSkip fr).wrS d (BitVec.ofNat 32 (cu.hi - cu.i)) with cursor := cu }
                  advance (countLoads s2 w.core 0 la) k w1 fr 16

/-- The coordinate of loop `m` at linear index `i`, the innermost loop of PERM varying fastest (R243). -/
def nestCoord (c : Cursor) (i m : Nat) : Nat :=
  (c.perm.reverse.foldl (fun (st : Nat × Nat) p =>
    let n := c.n.getD p 1
    (st.1 / n, if p = m then st.1 % n else st.2)) (i, 0)).2

def execTloopNext (d c : Nat) (s : State) : Out :=
  onFrag s fun k w fr =>
    let cu := w.cursor
    if cu.valid && cu.i < cu.hi then
      let w1 := (List.range 4).foldl (fun w m => w.wrS (d + m) (BitVec.ofNat 32 (nestCoord cu cu.i m))) w
      advance s k { w1.wrC c true with cursor := { cu with i := cu.i + 1 } } fr 16
    else advance s k (w.wrC c false) fr 16

end Sys2Proof.Machine
end

