-- ==== Sys2Proof/Machine/Summary.lean ====
section
/-! DEFINITION. The summary instructions (R288, R289, R297 to R302). The lichen unit performs a buffer's operations in issue
order: an operation behind a SUMLD of its buffer that has not performed waits to issue. -/

namespace Sys2Proof.Machine

/-- The partition's number of a block's buffer `n` (R288). -/
def sumOf (s : State) (w : Wave) (n : Nat) : Nat := ((s.grant w).map fun g => (kget [] g.sums w.part).getD n 4).getD 4

/-- Whether a SUMLD of a partition's buffer has not performed. -/
def sumBusy (s : State) (w : Wave) (p : Nat) : Bool :=
  s.waves.any fun x => x.2.core = w.core && x.2.part = w.part && x.2.resident && x.2.replay.any fun e =>
    match e.kind with
    | .sumLoad n _ _ => n = p
    | _ => false

/-- A summary operation on the block's buffer `n`, made once nothing before it is due (R289). -/
def onSum (s : State) (n : Nat) (f : Nat → Wave → Frag → Nat → State) : Out :=
  onFrag s fun k w fr => let p := sumOf s w n; if sumBusy s w p then s else f k w fr p

/-- The record in a buffer, none when it is invalid (R291). -/
def State.sketch (s : State) (w : Wave) (p : Nat) : Option Sketch := Sketch.decode (s.detOf w.task) (s.sumBuf w.core w.part p).image

def State.putSketch (s : State) (w : Wave) (p : Nat) (t : Sketch) : State :=
  s.setSumBuf w.core w.part p (SumBuf.ofImage t.encode)

/-- Codes of the kinds (R290). -/
def SumKind.num : SumKind → Nat
  | .qs => sQS | .hh => sHH | .dc => sDC

def execSuminit (k : SumKind) (coin n a : Nat) (s : State) : Out :=
  onSum s n fun key w fr p =>
    (advance s key w fr 8).putSketch w p (Sketch.fresh (SumKind.num k) coin (rdS2 s w 1 a).toNat)

def execSumadd (g : Guard) (n : Nat) (a : VOp) (s : State) : Out :=
  onSum s n fun key w fr p =>
    let m := sel s w fr g
    if m = 0 then advance s key w fr 8
    else
      match s.sketch w p with
      | none => advance s key (w.raise fNV (s.cycle + Config.freeNat s.ctr 7000)) fr 8
      | some t =>
        let t' := (lanesOf m).foldl (fun t l => t.insert (fun i => Config.freeBool s.ctr (6000 + i)) (rdV s w 1 a l).toNat) t
        (advance s key w fr 8).putSketch w p t'

/-- Acceptance of the record access of SUMLD, SUMST and SUMMRG (R298); all three are refused on pages with SP = 1. -/
def sumRecord (s : State) (w : Wave) (fr : Frag) (b a : Nat) (acc seen : Acc) : State × Except Exc Accepted :=
  acceptRec s w fr (rdRecord s w 2 b) [0] (fun _ => elemIndex (rdS s w 1 a) none) 4096 acc seen false false refuseCells

/-- The 128-byte lines of a record's access, and its accesses, one for each sector. -/
def recordLines (l : List LaneAddr) : List Nat := l.flatMap fun y => (List.range 32).map fun i => y.va / 128 + i
def recordLanes (l : List LaneAddr) : List LaneAddr := l.flatMap fun y => (List.range 128).map fun i => { y with key := y.key + 32 * i }

def execSumld (n b a : Nat) (s : State) : Out :=
  onSum s n fun key w fr p =>
    let (s1, r) := sumRecord s w fr b a .read .read
    match r with
    | .error e => refuseAt s1 key w fr e
    | .ok x =>
      if !roomFor s1 w.core (recordLines x.lanes).length then s1
      else
        let w1 := (w.noSkip fr).accept fr .xc 0x242 n (recordLines x.lanes) [] (.sumLoad p (x.lanes.head?.map (·.key)) [])
        advance (countLoads s1 w.core 0 (recordLanes x.lanes)) key w1 fr 8

def execSumst (n b a : Nat) (s : State) : Out :=
  onSum s n fun key w fr p =>
    let (s1, r) := sumRecord s w fr b a .write .write
    match r with
    | .error e => refuseAt s1 key w fr e
    | .ok x =>
      if !roomFor s1 w.core (recordLines x.lanes).length then s1
      else
        match s1.sketch w p with
        | none => acceptStore s1 key (w.raiseNow fNV) fr .xc 0x243 n 8 (recordLines x.lanes) false []
        | some t =>
          let im := t.encode
          let bs := x.lanes.flatMap fun y => im.zipIdx.map fun q => ((.global : Space), y.key + q.2, q.1)
          acceptStore (countStores s1 w.core (recordLanes x.lanes)) key w fr .xc 0x243 n 8 (recordLines x.lanes) false bs

/-- SUMMRG (R302); where its record has no access, it changes no target, and an invalid buffer sets NV all the same (R291). -/
def execSummrg (n b a : Nat) (sc : Scope) (s : State) : Out :=
  onSum s n fun key w fr p =>
    let (s1, r) := sumRecord s w fr b a .atomic .atomic
    match r with
    | .error e => refuseAt s1 key w fr e
    | .ok x =>
      if !roomFor s1 w.core (recordLines x.lanes).length then s1
      else
        let id := w.nextEntry
        let w1 := (w.noSkip fr).accept fr .xc 0x244 n (recordLines x.lanes) [] (.atomic x.lanes.length)
        let s2 := x.lanes.foldl (fun s y =>
          s.joinAtom (homeDie y.key)
            (.merge key id (s1.sumBuf w.core w.part p) y.key (s1.resolve w sc) w.core (s1.detOf w.task) (s1.writer key fr.num 1))) s1
        let s3 := advance s2 key w1 fr 8
        if x.lanes ≠ [] then s3
        else (if (s1.sketch w p).isNone then s3.modWave key fun w => w.raiseNow fNV else s3).perform key id

def execSumqry (m : SumMode) (d n a : Nat) (imm : Option Word) (s : State) : Out :=
  onSum s n fun key w fr p =>
    let arg := match imm with | some x => x | none => rdS s w 1 a
    let (l, nv) := Sketch.query (s.sketch w p) m arg.toNat
    let w1 := l.zipIdx.foldl (fun (w : Wave) x => (w.wrS (d + x.2) x.1).markUndef (.sca (d + x.2)) 1 .xc fr.num) w
    let w2 := if nv then w1.raiseNow fNV else w1
    advance s key { w2 with nextEntry := w2.nextEntry + 1 } fr (lenOf imm)

end Sys2Proof.Machine
end

