-- ==== Sys2Proof/Machine/Traps.lean ====
section
/-! DEFINITION. TRAP, TFENCE, BKPT, the illegal-instruction trap and the three forms of RFT (R32, R126, R129, R196, R239, R367). -/

namespace Sys2Proof.Machine

def execTrap (n : Nat) (s : State) : Out := onFrag s fun k w fr => takeTrap s k w fr { kind := 0x70, detail := n + 256 }

/-- TFENCE waits for the landing of the wave's results, and then traps on an enabled flag (R126). -/
def execTfence (s : State) : Out :=
  onFrag s fun k w fr =>
    if w.inflight ≠ [] || w.flagPend ≠ [] then s
    else
      let f := (w.flags &&& w.trapen).toNat % 256
      if f = 0 then advance s k w fr 8 else takeTrap s k w fr { kind := 0x60, detail := f }

/-- BKPT halts its task when a debugger has enabled halts, and goes on after the resume; else it traps (R126). -/
def execBkpt (n : Nat) (s : State) : Out :=
  onFrag s fun k w fr =>
    if ((kfind s.tasks w.task).bind (·.debug)).isSome then
      (advance s k w fr 8).haltTask w.task none (haltReport s w.task w.core w.part fr.pc 0 1 w.idx fr.num n)
    else takeTrap s k w fr { kind := 0x70, detail := n }

/-- Words that decode to no instruction: the trap of R32 and R33, at the fragment, or at the bundle of a tile context. -/
def execIllegalInstruction (e : DecErr) (s : State) : Out :=
  match s.cur.actor with
  | .tile core n =>
    match s.ctxAt core n with
    | some c => .next (s.tileFault core n c { DecErr.exc e with level := 1 })
    | none => .refused .noIssuer
  | _ => onFrag s fun k w fr => takeTrap s k w fr (DecErr.exc e)

/-! ### RFT (R129) -/

/-- A misuse of RFT. -/
def rftExc : Exc := { kind := 0x21, detail := 5 * 16 }

/-- Whether a fragment detached in the handler is still live. -/
def Wave.detached (w : Wave) (t : TrapSave) : Bool := w.frags.any fun f => !t.live.contains f.num

/-- A member of a cushion, or a lone context, may issue again (R196, R239). -/
def resumeTeam (s : State) (core n : Nat) : State :=
  match s.ctxAt core n with
  | some c => (s.members core n c).foldl (fun s m => s.modCtx m.1 m.2 fun c => { c with stopped := false }) s
  | none => s

/-- The faulting bundle is passed over: a coupled member leaves it out when the cushion issues it next (R239). -/
def skipBundle (s : State) (core n : Nat) : State :=
  s.modCtx core n fun c => if c.cush = .coupled then { c with skip := true } else { c with pc := pcAdd c.pc 32 }

/-- The fragment of a tile fault returns to Waiting at its GATE (R196). -/
def backToGate (s : State) (k : Nat) (t : TrapSave) : State := s.hold k t.frag (.waiting .gate)

/-- The return from a handler: `next` passes over the faulting instruction, which then waits at no queue any more. -/
def rftTo (next : Bool) (s : State) : Out :=
  onFrag s fun k w fr =>
    match w.trapSave with
    | none => takeTrap s k w fr { kind := 0x03 }
    | some t =>
      if w.detached t then takeTrap s k w fr rftExc
      else
        match t.tile with
        | some (core, n) =>
          let s1 := backToGate (leaveHandler s k w t t.pc) k t
          let skip : Bool := !next && t.kind = 0x71
          let s2 := if skip then s1.modCtx core n fun c => { c with wskip := some c.pc } else s1
          resumeTeam (if next then skipBundle s2 core n else s2) core n
        | none =>
          let s0 := leaveHandler s k w t (if next then pcAdd t.pc t.len else t.pc)
          let s1 := if next then s0.leaveQueues k t.frag else s0
          if !next && t.kind = 0x71 then s1.modWave k fun w => w.modFrag t.frag fun f => { f with wskip := some t.pc } else s1

def execRftRestart (s : State) : Out := rftTo false s
def execRftNext (s : State) : Out := rftTo true s

/-- RFT.redir restarts the faulting JMPT with a redirect of its lanes (R113, R129). A misuse comes before a bad target: the model's choice
(log entry 74). -/
def execRftRedir (a b : Nat) (s : State) : Out :=
  onFrag s fun k w fr =>
    match w.trapSave with
    | none => takeTrap s k w fr { kind := 0x03 }
    | some t =>
      let tgt := rdS2 s w 1 a
      let m := rdS s w 2 b &&& t.mask
      if w.detached t || t.tile.isSome || !t.isJmpt then takeTrap s k w fr rftExc
      else
        match badTarget tgt with
        | some r => takeTrap s k w fr (targetExc tgt r)
        | none =>
          (leaveHandler s k w t t.pc).modWave k fun w => w.modFrag t.frag fun f => { f with redirect := some { pc := t.pc, mask := m, target := tgt } }

end Sys2Proof.Machine
end

