-- ==== Sys2Proof/Machine/Dispatch.lean ====
section
/-! DEFINITION. What each instruction, packet, event and request does: one arm per constructor of Instr. -/

namespace Sys2Proof.Machine

open Sys2Proof

def exec (i : Instr) (s : State) : Host.Outcome State Fault Refusal :=
  match i with
  | .viadd h t sat pk d a b => Sys2Proof.Machine.execViadd h t sat pk d a b s
  | .visub h t sat pk d a b => Sys2Proof.Machine.execVisub h t sat pk d a b s
  | .vimul h t sat pk d a b => Sys2Proof.Machine.execVimul h t sat pk d a b s
  | .vimulh h t d a b => Sys2Proof.Machine.execVimulh h t d a b s
  | .vimad h t sat pk d a b c => Sys2Proof.Machine.execVimad h t sat pk d a b c s
  | .vimin h t pk d a b => Sys2Proof.Machine.execVimin h t pk d a b s
  | .vimax h t pk d a b => Sys2Proof.Machine.execVimax h t pk d a b s
  | .viabs h t sat pk d a => Sys2Proof.Machine.execViabs h t sat pk d a s
  | .vineg h t sat pk d a => Sys2Proof.Machine.execVineg h t sat pk d a s
  | .vicmp h t cc p a b => Sys2Proof.Machine.execVicmp h t cc p a b s
  | .vlea h sh d a b => Sys2Proof.Machine.execVlea h sh d a b s
  | .vand h d a b => Sys2Proof.Machine.execVand h d a b s
  | .vor h d a b => Sys2Proof.Machine.execVor h d a b s
  | .vxor h d a b => Sys2Proof.Machine.execVxor h d a b s
  | .vnot h d a => Sys2Proof.Machine.execVnot h d a s
  | .vshl h d a b => Sys2Proof.Machine.execVshl h d a b s
  | .vshr h d a b => Sys2Proof.Machine.execVshr h d a b s
  | .vsar h d a b => Sys2Proof.Machine.execVsar h d a b s
  | .vrot h d a b => Sys2Proof.Machine.execVrot h d a b s
  | .vbfx h t d a b => Sys2Proof.Machine.execVbfx h t d a b s
  | .vbfi h d a b c => Sys2Proof.Machine.execVbfi h d a b c s
  | .vpopc h d a => Sys2Proof.Machine.execVpopc h d a s
  | .vclz h d a => Sys2Proof.Machine.execVclz h d a s
  | .vbrev h d a => Sys2Proof.Machine.execVbrev h d a s
  | .vfadd h r t d a b => Sys2Proof.Machine.execVfadd h r t d a b s
  | .vfsub h r t d a b => Sys2Proof.Machine.execVfsub h r t d a b s
  | .vfmul h r t d a b => Sys2Proof.Machine.execVfmul h r t d a b s
  | .vfma h r t d a b c => Sys2Proof.Machine.execVfma h r t d a b c s
  | .vfmin h r t d a b => Sys2Proof.Machine.execVfmin h r t d a b s
  | .vfmax h r t d a b => Sys2Proof.Machine.execVfmax h r t d a b s
  | .vfcmp h r t cc p a b => Sys2Proof.Machine.execVfcmp h r t cc p a b s
  | .vfclass h r t d a => Sys2Proof.Machine.execVfclass h r t d a s
  | .vfrint h r t x d a => Sys2Proof.Machine.execVfrint h r t x d a s
  | .vfdiv h r d a b => Sys2Proof.Machine.execVfdiv h r d a b s
  | .vfsqrt h r d a => Sys2Proof.Machine.execVfsqrt h r d a s
  | .vfrcp h r d a => Sys2Proof.Machine.execVfrcp h r d a s
  | .vfrsq h r d a => Sys2Proof.Machine.execVfrsq h r d a s
  | .vfexp h r d a => Sys2Proof.Machine.execVfexp h r d a s
  | .vfexp2 h r d a => Sys2Proof.Machine.execVfexp2 h r d a s
  | .vflog2 h r d a => Sys2Proof.Machine.execVflog2 h r d a s
  | .vfsin h r d a => Sys2Proof.Machine.execVfsin h r d a s
  | .vfcos h r d a => Sys2Proof.Machine.execVfcos h r d a s
  | .vftanh h r d a => Sys2Proof.Machine.execVftanh h r d a s
  | .vcvt h r td ts d a => Sys2Proof.Machine.execVcvt h r td ts d a s
  | .vpack h r t d a b => Sys2Proof.Machine.execVpack h r t d a b s
  | .vunpack h r t e d a => Sys2Proof.Machine.execVunpack h r t e d a s
  | .vdot2 h r t d a b c => Sys2Proof.Machine.execVdot2 h r t d a b c s
  | .vdot4 h t sat mix d a b c => Sys2Proof.Machine.execVdot4 h t sat mix d a b c s
  | .vcmprs h t d a b => Sys2Proof.Machine.execVcmprs h t d a b s
  | .vsel h n d a b => Sys2Proof.Machine.execVsel h n d a b s
  | .vmov h d a => Sys2Proof.Machine.execVmov h d a s
  | .vmovi h t d imm => Sys2Proof.Machine.execVmovi h t d imm s
  | .s2v h idx d a => Sys2Proof.Machine.execS2v h idx d a s
  | .v2s h d a b => Sys2Proof.Machine.execV2s h d a b s
  | .fusedSoftmax f => Sys2Proof.Machine.execFusedSoftmax f s
  | .sadd lat t sat d a b => Sys2Proof.Machine.execSadd lat t sat d a b s
  | .ssub lat t sat d a b => Sys2Proof.Machine.execSsub lat t sat d a b s
  | .smul lat t sat d a b => Sys2Proof.Machine.execSmul lat t sat d a b s
  | .smulh lat t d a b => Sys2Proof.Machine.execSmulh lat t d a b s
  | .sand lat d a b => Sys2Proof.Machine.execSand lat d a b s
  | .sor lat d a b => Sys2Proof.Machine.execSor lat d a b s
  | .sxor lat d a b => Sys2Proof.Machine.execSxor lat d a b s
  | .snot lat d a => Sys2Proof.Machine.execSnot lat d a s
  | .sshl lat d a b => Sys2Proof.Machine.execSshl lat d a b s
  | .sshr lat d a b => Sys2Proof.Machine.execSshr lat d a b s
  | .ssar lat d a b => Sys2Proof.Machine.execSsar lat d a b s
  | .smin lat t d a b => Sys2Proof.Machine.execSmin lat t d a b s
  | .smax lat t d a b => Sys2Proof.Machine.execSmax lat t d a b s
  | .smov lat d a => Sys2Proof.Machine.execSmov lat d a s
  | .smovi lat d imm => Sys2Proof.Machine.execSmovi lat d imm s
  | .scmp lat t cc c a b => Sys2Proof.Machine.execScmp lat t cc c a b s
  | .ssel lat d a b n => Sys2Proof.Machine.execSsel lat d a b n s
  | .sfadd lat r d a b => Sys2Proof.Machine.execSfadd lat r d a b s
  | .sfmul lat r d a b => Sys2Proof.Machine.execSfmul lat r d a b s
  | .scvt lat r td ts d a => Sys2Proof.Machine.execScvt lat r td ts d a s
  | .pand h d a b => Sys2Proof.Machine.execPand h d a b s
  | .por h d a b => Sys2Proof.Machine.execPor h d a b s
  | .pxor h d a b => Sys2Proof.Machine.execPxor h d a b s
  | .pnot h d a => Sys2Proof.Machine.execPnot h d a s
  | .pmov h d a => Sys2Proof.Machine.execPmov h d a s
  | .pbal h d a => Sys2Proof.Machine.execPbal h d a s
  | .bra imm => Sys2Proof.Machine.execBra imm s
  | .brc n neg imm => Sys2Proof.Machine.execBrc n neg imm s
  | .brx g k imm => Sys2Proof.Machine.execBrx g k imm s
  | .join k => Sys2Proof.Machine.execJoin k s
  | .jmpt g k a b n => Sys2Proof.Machine.execJmpt g k a b n s
  | .call d imm => Sys2Proof.Machine.execCall d imm s
  | .ret a => Sys2Proof.Machine.execRet a s
  | .loop a imm => Sys2Proof.Machine.execLoop a imm s
  | .exit g => Sys2Proof.Machine.execExit g s
  | .yield => Sys2Proof.Machine.execYield s
  | .nop => Sys2Proof.Machine.execNop s
  | .waitc lc sc kc xc => Sys2Proof.Machine.execWaitc lc sc kc xc s
  | .spart n => Sys2Proof.Machine.execSpart n s
  | .vshfl h m d a b => Sys2Proof.Machine.execVshfl h m d a b s
  | .vvote h m d a => Sys2Proof.Machine.execVvote h m d a s
  | .vbal h d a => Sys2Proof.Machine.execVbal h d a s
  | .vred h t op d a => Sys2Proof.Machine.execVred h t op d a s
  | .vscan h t op excl d a => Sys2Proof.Machine.execVscan h t op excl d a s
  | .trap n => Sys2Proof.Machine.execTrap n s
  | .tfence => Sys2Proof.Machine.execTfence s
  | .rftRestart => Sys2Proof.Machine.execRftRestart s
  | .rftNext => Sys2Proof.Machine.execRftNext s
  | .rftRedir a b => Sys2Proof.Machine.execRftRedir a b s
  | .srd lat f dv ds a => Sys2Proof.Machine.execSrd lat f dv ds a s
  | .swr pair d a => Sys2Proof.Machine.execSwr pair d a s
  | .bkpt n => Sys2Proof.Machine.execBkpt n s
  | .illegalInstruction e => Sys2Proof.Machine.execIllegalInstruction e s
  | .vld g t cnt ch d b a off => Sys2Proof.Machine.execVld g t cnt ch d b a off s
  | .vst g t cnt ch d b a off => Sys2Proof.Machine.execVst g t cnt ch d b a off s
  | .vpref g l2 b a off => Sys2Proof.Machine.execVpref g l2 b a off s
  | .sld t cnt ch d b a off => Sys2Proof.Machine.execSld t cnt ch d b a off s
  | .sst t cnt ch d b a off => Sys2Proof.Machine.execSst t cnt ch d b a off s
  | .ldl g t cnt d a off => Sys2Proof.Machine.execLdl g t cnt d a off s
  | .stl g t cnt d a off => Sys2Proof.Machine.execStl g t cnt d a off s
  | .cbinit n a b => Sys2Proof.Machine.execCbinit n a b s
  | .cbacqFull n d => Sys2Proof.Machine.execCbacqFull n d s
  | .cbacqFree n d => Sys2Proof.Machine.execCbacqFree n d s
  | .cbrelFull n a => Sys2Proof.Machine.execCbrelFull n a s
  | .cbrelFree n a => Sys2Proof.Machine.execCbrelFree n a s
  | .cpy g sz out cb d b a imm => Sys2Proof.Machine.execCpy g sz out cb d b a imm s
  | .cseal n => Sys2Proof.Machine.execCseal n s
  | .cwait n => Sys2Proof.Machine.execCwait n s
  | .gate d a n imm in0 in1 out0 out1 => Sys2Proof.Machine.execGate d a n imm in0 in1 out0 out1 s
  | .fence ld st cp d sc => Sys2Proof.Machine.execFence ld st cp d sc s
  | .fwait a => Sys2Proof.Machine.execFwait a s
  | .rel sc => Sys2Proof.Machine.execRel sc s
  | .acq sc => Sys2Proof.Machine.execAcq sc s
  | .ldc g t cnt d a off => Sys2Proof.Machine.execLdc g t cnt d a off s
  | .stc g t cnt d a off => Sys2Proof.Machine.execStc g t cnt d a off s
  | .bar tgt sc => Sys2Proof.Machine.execBar tgt sc s
  | .bara d tgt sc => Sys2Proof.Machine.execBara d tgt sc s
  | .barw a tgt sc => Sys2Proof.Machine.execBarw a tgt sc s
  | .qpush g nb sc d a => Sys2Proof.Machine.execQpush g nb sc d a s
  | .qpop g nb sc d a => Sys2Proof.Machine.execQpop g nb sc d a s
  | .tloopInit d a b imm => Sys2Proof.Machine.execTloopInit d a b imm s
  | .tloopNext d c => Sys2Proof.Machine.execTloopNext d c s
  | .vatom g op t d b a ext => Sys2Proof.Machine.execVatom g op t d b a ext s
  | .vcas g t d b a c imm sc => Sys2Proof.Machine.execVcas g t d b a c imm sc s
  | .satom op t d b a ext => Sys2Proof.Machine.execSatom op t d b a ext s
  | .cellset g d b a imm sc => Sys2Proof.Machine.execCellset g d b a imm sc s
  | .cellput g d b a => Sys2Proof.Machine.execCellput g d b a s
  | .cellclr g b a sc => Sys2Proof.Machine.execCellclr g b a sc s
  | .cellq g d b a => Sys2Proof.Machine.execCellq g d b a s
  | .suminit k coin n a => Sys2Proof.Machine.execSuminit k coin n a s
  | .sumadd g n a => Sys2Proof.Machine.execSumadd g n a s
  | .sumld n b a => Sys2Proof.Machine.execSumld n b a s
  | .sumst n b a => Sys2Proof.Machine.execSumst n b a s
  | .summrg n b a sc => Sys2Proof.Machine.execSummrg n b a sc s
  | .sumqry m d n a imm => Sys2Proof.Machine.execSumqry m d n a imm s
  | .enq d a b c imm n => Sys2Proof.Machine.execEnq d a b c imm n s
  | .coll g op t d a b c imm sig sc => Sys2Proof.Machine.execColl g op t d a b c imm sig sc s
  | .collBar g c sig sc => Sys2Proof.Machine.execCollBar g c sig sc s
  | .rld g t cnt d b a off => Sys2Proof.Machine.execRld g t cnt d b a off s
  | .rst g t cnt d b a off => Sys2Proof.Machine.execRst g t cnt d b a off s
  | .rred g op t d b a imm sc => Sys2Proof.Machine.execRred g op t d b a imm sc s
  | .tnop => Sys2Proof.Machine.execTnop s
  | .tjmp off => Sys2Proof.Machine.execTjmp off s
  | .tbr cc a off => Sys2Proof.Machine.execTbr cc a off s
  | .tset d src => Sys2Proof.Machine.execTset d src s
  | .tadd d a src => Sys2Proof.Machine.execTadd d a src s
  | .twait mx tx cp ar aw => Sys2Proof.Machine.execTwait mx tx cp ar aw s
  | .ttrap n => Sys2Proof.Machine.execTtrap n s
  | .tileTfence => Sys2Proof.Machine.execTileTfence s
  | .mma d a b k => Sys2Proof.Machine.execMma d a b k s
  | .mmas d a b k => Sys2Proof.Machine.execMmas d a b k s
  | .azero d => Sys2Proof.Machine.execAzero d s
  | .anorm d => Sys2Proof.Machine.execAnorm d s
  | .aresc d m => Sys2Proof.Machine.execAresc d m s
  | .trn d a => Sys2Proof.Machine.execTrn d a s
  | .cpin d a t off => Sys2Proof.Machine.execCpin d a t off s
  | .cpout t_ a t off => Sys2Proof.Machine.execCpout t_ a t off s
  | .cpx dir d t_ n => Sys2Proof.Machine.execCpx dir d t_ n s
  | .tclaim n => Sys2Proof.Machine.execTclaim n s
  | .trel n => Sys2Proof.Machine.execTrel n s
  | .tcseal n => Sys2Proof.Machine.execTcseal n s
  | .tcwait n => Sys2Proof.Machine.execTcwait n s
  | .ardCe t_ d => Sys2Proof.Machine.execArdCe t_ d s
  | .ardF32 t_ o => Sys2Proof.Machine.execArdF32 t_ o s
  | .ardBf16 t_ o => Sys2Proof.Machine.execArdBf16 t_ o s
  | .ardF16 t_ o => Sys2Proof.Machine.execArdF16 t_ o s
  | .ardRaw t_ o => Sys2Proof.Machine.execArdRaw t_ o s
  | .awrRaw d o => Sys2Proof.Machine.execAwrRaw d o s
  | .awrAdd d o => Sys2Proof.Machine.execAwrAdd d o s
  | .awrF32 d o => Sys2Proof.Machine.execAwrF32 d o s
  | .decouple => Sys2Proof.Machine.execDecouple s
  | .rejoin => Sys2Proof.Machine.execRejoin s
  | .trgate => Sys2Proof.Machine.execTrgate s
  | .packetNop => Sys2Proof.Machine.execPacketNop s
  | .dispatch p => Sys2Proof.Machine.execDispatch p s
  | .bcast p => Sys2Proof.Machine.execBcast p s
  | .ib addr len => Sys2Proof.Machine.execIb addr len s
  | .pred t nskip => Sys2Proof.Machine.execPred t nskip s
  | .packetLoop count nbody => Sys2Proof.Machine.execPacketLoop count nbody s
  | .write addr val sc wide => Sys2Proof.Machine.execWrite addr val sc wide s
  | .waitmem t => Sys2Proof.Machine.execWaitmem t s
  | .compl addr seq sc => Sys2Proof.Machine.execCompl addr seq sc s
  | .timed t => Sys2Proof.Machine.execTimed t s
  | .ffence => Sys2Proof.Machine.execFfence s
  | .submitPackets proc queue pkts => Sys2Proof.Machine.execSubmitPackets proc queue pkts s
  | .createQueue proc queue ring log flog flogn reservation => Sys2Proof.Machine.execCreateQueue proc queue ring log flog flogn reservation s
  | .destroyQueue queue kill => Sys2Proof.Machine.execDestroyQueue queue kill s
  | .restartQueue queue => Sys2Proof.Machine.execRestartQueue queue s
  | .ackFaultLog queue n => Sys2Proof.Machine.execAckFaultLog queue n s
  | .bindAsid proc asid root => Sys2Proof.Machine.execBindAsid proc asid root s
  | .freeAsid asid => Sys2Proof.Machine.execFreeAsid asid s
  | .invalidate asid range => Sys2Proof.Machine.execInvalidate asid range s
  | .registerWindow win ep rbase len proc r w => Sys2Proof.Machine.execRegisterWindow win ep rbase len proc r w s
  | .freeWindow win => Sys2Proof.Machine.execFreeWindow win s
  | .registerGroup gid launch rank ranks => Sys2Proof.Machine.execRegisterGroup gid launch rank ranks s
  | .freeGroup gid => Sys2Proof.Machine.execFreeGroup gid s
  | .peerUnreachable gid rank => Sys2Proof.Machine.execPeerUnreachable gid rank s
  | .reserveClusters proc die clusters => Sys2Proof.Machine.execReserveClusters proc die clusters s
  | .ptpFirstLock p => Sys2Proof.Machine.execPtpFirstLock p s
  | .fwshareWrite core part val => Sys2Proof.Machine.execFwshareWrite core part val s
  | .registerWrite r => Sys2Proof.Machine.execRegisterWrite r s
  | .debugHaltRequest task => Sys2Proof.Machine.execDebugHaltRequest task s
  | .debugResume task => Sys2Proof.Machine.execDebugResume task s
  | .singleStep task waves tiles => Sys2Proof.Machine.execSingleStep task waves tiles s
  | .powerOn => Sys2Proof.Machine.execPowerOn s
  | .recoveryImage img => Sys2Proof.Machine.execRecoveryImage img s
  | .powerOff => Sys2Proof.Machine.execPowerOff s
  | .raiseSvn => Sys2Proof.Machine.execRaiseSvn s
  | .attestationReport nonce => Sys2Proof.Machine.execAttestationReport nonce s
  | .liveUpdate img => Sys2Proof.Machine.execLiveUpdate img s
  | .handoverAccept => Sys2Proof.Machine.execHandoverAccept s
  | .handoverTimeout => Sys2Proof.Machine.execHandoverTimeout s
  | .quiesceCore core => Sys2Proof.Machine.execQuiesceCore core s
  | .excludeCore core => Sys2Proof.Machine.execExcludeCore core s
  | .restoreCore core => Sys2Proof.Machine.execRestoreCore core s
  | .recalibrateLane link lane => Sys2Proof.Machine.execRecalibrateLane link lane s
  | .retireChannel stack chan moves => Sys2Proof.Machine.execRetireChannel stack chan moves s
  | .dieOffline die moves tables => Sys2Proof.Machine.execDieOffline die moves tables s
  | .freezePin => Sys2Proof.Machine.execFreezePin s
  | .freezeCommand => Sys2Proof.Machine.execFreezeCommand s
  | .stateReadout r => Sys2Proof.Machine.execStateReadout r s
  | .hotLimit share => Sys2Proof.Machine.execHotLimit share s
  | .criticalLimit => Sys2Proof.Machine.execCriticalLimit s
  | .dieReturn die => Sys2Proof.Machine.execDieReturn die s
  | .routeChange gid plan => Sys2Proof.Machine.execRouteChange gid plan s
  | .memoryRegistration r => Sys2Proof.Machine.execMemoryRegistration r s
  | .debuggerSession log base d => Sys2Proof.Machine.execDebuggerSession log base d s
  | .laneRecalibrationDone link => Sys2Proof.Machine.execLaneRecalibrationDone link s
  | .loadSectorReturn wave entry part early => Sys2Proof.Machine.execLoadSectorReturn wave entry part early s
  | .capture src => Sys2Proof.Machine.execCapture src s
  | .copyComplete id => Sys2Proof.Machine.execCopyComplete id s
  | .gateOpen core task blk => Sys2Proof.Machine.execGateOpen core task blk s
  | .fenceComplete wave idx => Sys2Proof.Machine.execFenceComplete wave idx s
  | .atomicPerform die => Sys2Proof.Machine.execAtomicPerform die s
  | .evaluatorPlace req fr => Sys2Proof.Machine.execEvaluatorPlace req fr s
  | .collFold gid call peer elem => Sys2Proof.Machine.execCollFold gid call peer elem s
  | .engineOperation core e => Sys2Proof.Machine.execEngineOperation core e s
  | .packetRead queue level pos => Sys2Proof.Machine.execPacketRead queue level pos s
  | .waitmemPoll queue => Sys2Proof.Machine.execWaitmemPoll queue s
  | .taskPlace task fr => Sys2Proof.Machine.execTaskPlace task fr s
  | .taskRetire task => Sys2Proof.Machine.execTaskRetire task s
  | .preempt task => Sys2Proof.Machine.execPreempt task s
  | .sliceExpiry task => Sys2Proof.Machine.execSliceExpiry task s
  | .taskSave task => Sys2Proof.Machine.execTaskSave task s
  | .chargeTick task => Sys2Proof.Machine.execChargeTick task s
  | .watchdogExpiry task => Sys2Proof.Machine.execWatchdogExpiry task s
  | .pagePresentReport task => Sys2Proof.Machine.execPagePresentReport task s
  | .pageUnresolvable task wave => Sys2Proof.Machine.execPageUnresolvable task wave s
  | .asidRetired asid => Sys2Proof.Machine.execAsidRetired asid s
  | .invalidationComplete id => Sys2Proof.Machine.execInvalidationComplete id s
  | .fabricPacketReceive m => Sys2Proof.Machine.execFabricPacketReceive m s

end Sys2Proof.Machine
end

