-- ==== Sys2Proof/Machine/Issue.lean ====
section
/-! DEFINITION. Which instruction an agent issues and how it is fetched (R12, R34, R99, R101 to R103, R159, R160, R255). -/

namespace Sys2Proof.Machine

/-! ### Fetch (R12, R255) -/

/-- Puts a line into a core's instruction cache: of 512 lines when it is full, and possibly before that, another goes (R255). -/
def fillCode (l : KMap (List Byte)) (ln : Nat) (bs : List Byte) (drop : Bool) (choice : Nat) : KMap (List Byte) :=
  kinsert (if 512 ≤ l.length || drop then evict l (fun _ => true) choice else l) ln bs

/-- Reads `n` bytes of one line of code through a core's instruction cache: a held line serves as it was filled; a miss takes the line from H
through its home die's L2, which does not count it (R254, R255). -/
def State.codeAt (s : State) (c key n : Nat) : State × Nat :=
  let x := s.core c
  let ln := key / 128
  let word (l : List Byte) : Nat := ofBytes ((l.drop (key % 128)).take n)
  match kfind x.icache ln with
  | some l => (s, word l)
  | none =>
    let l := s.rdHs (128 * ln) 128
    let lines := fillCode x.icache ln l (Config.freeBool s.ctr (100000 + 2 * ln)) (Config.freeNat s.ctr (100001 + 2 * ln))
    ((s.fillL2 ln).setCore c { x with icache := lines }, word l)

/-- Fetches `n` bytes, of one line, at a virtual address with execute permission. -/
def State.fetch (s : State) (w : Walker) (va n : Nat) : State × Except Exc Nat :=
  let (s', r) := s.translate w va .fetch false
  match r with
  | .error (k, d) => (s', .error { kind := k, level := 3, addr := (canon va).toNat, detail := d })
  | .ok l =>
    let (s'', x) := s'.codeAt w.core l.key n
    (s'', .ok x)

/-! ### The current fragment of a wave (R103) -/

/-- The fragment a wave issues next, taken from its partition's queue when none is current; in a trap handler only the
trapped fragment is served (R103, R127). -/
def pickFrag (s : State) (k : Nat) (w : Wave) : Option (State × Wave × Frag) :=
  let take (n : Nat) : Option (State × Wave × Frag) :=
    (w.frag n).bind fun f =>
      match f.st with
      | .issuing => some (s, w, f)
      | .ready =>
        let f' := { f with st := .issuing }
        let w' := { (w.setFrag f') with cur := some n }
        some (((s.dequeue w.core w.part k n).setWave k w'), w', f')
      | _ => none
  match w.trapSave with
  | some t => take t.frag
  | none =>
    match w.cur with
    | some n => take n
    | none => ((kget {} (s.core w.core).parts w.part).queue.find? fun q => q.1 = k).bind fun q => take q.2

/-- Whether a wave's task lets it issue (R335, R361, R364). -/
def mayIssue (s : State) (w : Wave) : Bool :=
  s.hub.on && !s.hub.frozen && w.resident && !w.ended && w.npFault.isNone &&
  match kfind s.tasks w.task with
  | some t => t.st == .resident && !t.stopIssue && (!t.stepF || w.step)
  | none => false

/-- The fused sequence at the words fetched so far, if they and the words that follow meet R99's conditions: a further word is fetched only
while they do, and its fault is that of the fused operation (R100, log entry 83). -/
def fusedFrom (s : State) (wk : Walker) (pc : Nat) (l : Limits) (ws : List DWord) : Nat → State × Except Exc (Option FusedOps)
  | 0 =>
    match ws with
    | [w0, w1, w2, w3] => (s, .ok (decodeFused l w0 w1 w2 w3))
    | _ => (s, .ok none)
  | n + 1 =>
    if !fusedPrefix l ws then (s, .ok none)
    else
      match s.fetch wk (pc + 8 * ws.length) 8 with
      | (s', .error e) => (s', .error e)
      | (s', .ok x) => fusedFrom s' wk pc l (ws ++ [BitVec.ofNat 64 x]) n

/-- The instruction that two fetched words stand for: the decoded one, or the illegal-instruction trap. -/
def decoded (l : Limits) (w0 w1 : DWord) : Instr :=
  match decodeThread l w0 w1 with
  | .ok i => i
  | .error e => .illegalInstruction e

/-- Whether an instruction may leave its fragment where it was when it has issued. -/
def jumps : Instr → Bool
  | .bra _ | .brc _ _ _ | .brx _ _ _ | .call _ _ | .ret _ | .loop _ _ | .jmpt _ _ _ _ _ => true
  | _ => false

/-- After a turn of fragment `n`: whether it has issued, which what has become of the wave shows, or the instruction tells (R245); an
instruction that the fragment has passed has used up its WSKIP (R367); a single-stepped wave has had its step (R364). -/
def afterIssue (k n : Nat) (before : Wave) (o : Out) : Out :=
  match o with
  | .next t =>
    let issued := t.cur.issued || kfind t.waves k ≠ some before
    let s : State := { t with cur := { t.cur with issued } }
    match kfind s.waves k with
    | some w =>
      let pc := (before.frag n).map (·.pc)
      let passed := w.trapSave = before.trapSave && (t.cur.issued || (w.frag n).map (·.pc) ≠ pc)
      let w1 := if passed then w.modFrag n fun f => if f.wskip = pc then { f with wskip := none } else f else w
      if w1.step && issued then
        let s1 := s.setWave k { w1 with step := false }
        .next (s1.stepDone w1.task (s1.waveReport k w1 4))
      else .next (if w1 = w then s else s.setWave k w1)
    | none => .next s
  | o => o

/-- Fetches an instruction's first word, and with it the word at PC + 8 where one line holds both (R12, R34). -/
def State.firstWord (s : State) (wk : Walker) (pc : Nat) : State × Except Exc (DWord × Option DWord) :=
  let both := pc % 128 ≤ 112
  let (s1, r) := s.fetch wk pc (if both then 16 else 8)
  (s1, r.map fun x => (BitVec.ofNat 64 x, if both then some (BitVec.ofNat 64 (x >>> 64)) else none))

/-- The second word of a T128: read with the first one, or fetched now; that of a T64 is zero. -/
def State.secondWord (s : State) (wk : Walker) (pc : Nat) (w0 : DWord) (read : Option DWord) : State × Except Exc DWord :=
  if !bit w0.toNat 53 then (s, .ok 0)
  else
    match read with
    | some x => (s, .ok x)
    | none =>
      let (s1, r) := s.fetch wk (pc + 8) 8
      (s1, r.map fun x => BitVec.ofNat 64 x)

/-- Fetches, decodes and executes the current fragment's instruction: the first word, its watch test, the words that follow (R12, R32 to R34,
R99, R366). -/
def issueFrag (s : State) (k : Nat) (w : Wave) (f : Frag) : Out :=
  let wk := s.walker w
  let pc := f.pc.toNat
  let cur : Cur := { actor := .frag k f.num }
  let (s1, r) := s.firstWord wk pc
  match r with
  | .error e => .next (takeTrap { s1 with cur } k w f e)
  | .ok (w0, read) =>
    let cur := { cur with iw0 := w0 }
    let (s2, fu) := fusedFrom s1 wk pc (s.limits w) [w0] 3
    match watchTest s2 w f .fetch false [(0, pc % 2 ^ 57)] 8 with
    | some e =>
      let (s3, r1) := s2.secondWord wk pc w0 read
      let iw1 := match r1 with | .ok x => x | .error _ => 0
      let fused := match fu with | .ok none => false | _ => true
      .next (refuseAt { s3 with cur := { cur with iw1, fused } } k w f e)
    | none =>
      match fu with
      | .error e => .next (takeTrap { s2 with cur := { cur with fused := true } } k w f e)
      | .ok (some ops) => exec (.fusedSoftmax ops) { s2 with cur := { cur with fused := true } }
      | .ok none =>
        match s2.secondWord wk pc w0 read with
        | (s3, .error e) => .next (takeTrap { s3 with cur } k w f e)
        | (s3, .ok w1) =>
          let i := decoded (s.limits w) w0 w1
          exec i { s3 with cur := { cur with iw1 := w1, issued := jumps i } }

/-- One issue by a wave: its current fragment's instruction, when it may issue. -/
def issueWave (s : State) (k : Nat) : Out :=
  match kfind s.waves k with
  | none => .next s
  | some w0 =>
    if !mayIssue s w0 then .next s
    else
      match pickFrag s k (w0.settle s.cycle) with
      | none => .next s
      | some (s1, w, f) => afterIssue k f.num w (issueFrag (s1.setWave k w) k w f)

end Sys2Proof.Machine
end

