-- ==== Sys2Proof/Machine/Commands.lean ====
section
/-! DEFINITION. The four command processors: which queue a command processor serves, its next packet, and draining (R314, R318 to R321,
R328 to R331, R338). -/

namespace Sys2Proof.Machine

/-- The command processor of a queue (R316). -/
def cpOf (q : Nat) : Nat := q / 1024

/-! ### The next packet (R318, R320) -/

/-- What the next packet of a queue in execution is, as far as it has been read. -/
inductive Next
  /-- the level's end -/
  | nothing
  /-- before the level's end, and not read yet -/
  | unread
  /-- the read failed with a fault kind -/
  | failed (kind : Nat)
  /-- a packet error -/
  | wrong (code : Nat)
  | packet (i : Instr)
  deriving DecidableEq, Repr

/-- The next packet, from its window copy. -/
def nextPacket (x : Queue) : Next :=
  match x.levels with
  | [] => .nothing
  | l :: _ =>
    if levelEnd x l ≤ l.pos then .nothing
    else
      match kfind l.window l.pos with
      | none => .unread
      | some [k] => .failed k.toNat
      | some bs =>
        match decodePacket bs with
        | .error e => .wrong e
        | .ok i => .packet i

/-- Whether a packet can start (R318). -/
def canStart (s : State) (q : Nat) (x : Queue) : Next → Bool
  | .nothing => false
  | .packet (.compl _ _ _) => s.drained q
  | .packet (.timed t) => t ≤ s.time
  | .packet (.dispatch _) => !s.tableFull
  | .packet (.bcast _) => !s.tableFull
  | .packet (.packetLoop _ n) =>
    match x.levels with
    | l :: _ => l.loop.isSome || !l.ring || l.pos + 1 + n ≤ levelEnd x l
    | [] => false
  | .packet (.waitmem _) => !x.polling
  | _ => true

/-- The next ring packet that a draining queue reads, below the end of its drain (R338). -/
def drainPacket (s : State) (x : Queue) : Next :=
  match x.levels with
  | l :: _ =>
    if x.drainTo ≤ l.pos then .nothing
    else
      match decodePacket (s.rdHs (keyOf 0 (packetAddr x l l.pos)) 64) with
      | .error e => .wrong e
      | .ok i => .packet i
  | [] => .nothing

/-- Whether a queue has an executable packet. -/
def hasWork (s : State) (q : Nat) : Bool :=
  let x := s.queue q
  if x.st = 1 then canStart s q x (nextPacket x)
  else if x.st = 3 then
    match drainPacket s x with
    | .nothing => s.drained q
    | .packet (.compl _ _ _) => s.drained q
    | _ => true
  else false

/-- Whether a command processor may serve a queue next: it serves it already, or no executable queue of it has a process that comes
earlier (R314, R318). -/
def mayServe (s : State) (q : Nat) : Bool :=
  let key (x : Queue) : Nat × Nat := ((s.proc x.proc).vt, x.proc)
  kfind s.cpQueue (cpOf q) = some q ||
  s.queues.all fun p =>
    p.1 = q || cpOf p.1 ≠ cpOf q || !hasWork s p.1 ||
      let a := key p.2
      let b := key (s.queue q)
      b.1 < a.1 || (b.1 = a.1 && b.2 ≤ a.2)

/-! ### Execution -/

/-- One packet of a queue in execution starts, and finishes if it need not wait. -/
def runPacket (s : State) (q : Nat) : Out :=
  let s1 := s.fill q
  let x := s1.queue q
  let nx := nextPacket x
  if !canStart s1 q x nx then .next s1
  else
    let s2 := { s1 with cur := { actor := .cp q } }
    match nx with
    | .failed k => .next (s2.packetErr q 8 k)
    | .wrong e => .next (s2.packetErr q e 0)
    | .packet i => exec i s2
    | _ => .next s2

/-- A draining queue passes its packet at `pos`. -/
def State.drainPast (s : State) (q : Nat) : State :=
  let x := s.queue q
  match x.levels with
  | l :: _ => s.setQueue q { x with rptr := max x.rptr (l.pos + 1), finished := x.finished + 1, levels := [{ l with pos := l.pos + 1, window := [] }] }
  | [] => s

/-- The record of a COMPL in draining whose write fails; the drain goes on. -/
def State.drainErr (s : State) (q kind : Nat) : State :=
  let x := s.queue q
  match x.levels with
  | l :: _ =>
    let a := packetAddr x l l.pos
    s.log q (toBytes 0xFF 1 ++ toBytes 8 1 ++ toBytes 0 1 ++ toBytes kind 1 ++ toBytes 0 4 ++ toBytes a 8 ++ s.rdHs (keyOf 0 a) 48)
  | [] => s

/-- One packet of a draining queue: a COMPL waits and writes, every other is skipped; at the end the queue becomes free (R338). -/
def drainStep (s : State) (q : Nat) : State :=
  match drainPacket s (s.queue q) with
  | .nothing => if s.drained q then s.freeQueue q else s
  | .packet (.compl addr seq sc) =>
    if !s.drained q then s
    else
      match s.complete q addr seq sc with
      | (s1, .ok _) => s1.drainPast q
      | (s1, .error k) => (s1.drainErr q k).drainPast q
  | _ => s.drainPast q

/-- The command processor of queue `q` serves it. -/
def issueCp (s : State) (q : Nat) : Out :=
  if !s.hub.on || s.hub.frozen || s.hub.recovery || !mayServe s q || !hasWork s q then .next s
  else
    let s1 := { s with cpQueue := kinsert s.cpQueue (cpOf q) q }
    if (s1.queue q).st = 3 then .next (drainStep s1 q) else runPacket s1 q

end Sys2Proof.Machine
end

