-- ==== Sys2Proof/Machine/TileIssue.lean ====
section
/-! DEFINITION. The tile sequencers: fetch, decode, acceptance and issue of a bundle, alone or by a coupled cushion (R34, R102, R159 to
R161, R236 to R239, R364). -/

namespace Sys2Proof.Machine

/-! ### Acceptance of a bundle (R160) -/

/-- The acceptance checks of a slot operation. -/
def checkOf : Instr → Check
  | .twait mx tx cp ar aw => chkTwait mx tx cp ar aw
  | .ttrap n => chkTtrap n
  | .tileTfence => chkTfence
  | .mma d a b _ => chkMma d a b
  | .mmas d a b _ => chkMma d a b
  | .azero d => chkBank d
  | .anorm d => chkBank d
  | .aresc d _ => chkBank d
  | .trn d a => chkTrn d a
  | .cpin d a _ off => chkDesc d a off false
  | .cpout b a _ off => chkDesc b a off true
  | .cpx dir d a k => chkCpx dir d a k
  | .tclaim k => chkTclaim k
  | .trel k => chkTrel k
  | .tcseal _ => chkRoom
  | .tcwait b => chkTcwait b
  | .ardCe b d => chkArdCe b d
  | .ardF32 b o => chkArd b o 1
  | .ardBf16 b o => chkArd b o 2
  | .ardF16 b o => chkArd b o 3
  | .ardRaw b o => chkArd b o 4
  | .awrRaw d o => chkAwr d o 0
  | .awrAdd d o => chkAwr d o 1
  | .awrF32 d o => chkAwr d o 2
  | .trgate => chkTrgate
  | .rejoin => chkRejoin
  | _ => anyway

/-- A member of the team that issues, with its context. -/
abbrev Member := Nat × Nat × TileCtx

/-- What one operation answers for one member. -/
def verdict (s : State) (m : Member) (i : Instr) : State × Verdict :=
  checkOf i { s with cur := { s.cur with actor := .tile m.1 m.2.1, xs := none, accepted := false } } m.1 m.2.1 m.2.2

/-- Whether some operation of the bundle holds it for a member (R160). -/
def holds (s : State) (ms : List Member) (is : List Instr) : Bool := ms.any fun m => is.any fun i => (verdict s m i).2 = .hold

/-- The first fault in slot order, of the lowest-ranked member that has one (R160, R239). -/
def firstFault (s : State) (ms : List Member) (is : List Instr) : State × Option (Member × Exc) :=
  ms.foldl (fun st m => is.foldl (fun (st : State × Option (Member × Exc)) i =>
    match st.2 with
    | some _ => st
    | none =>
      match verdict st.1 m i with
      | (s', .fault e) => (s', some (m, e))
      | (s', _) => (s', none)) st) (s, none)

/-! ### Effects (R161, R237) -/

/-- The operations that a bundle issues, in slot order; an idle control slot is TNOP (R26). -/
def opsOf (b : Bundle) : List Instr :=
  match b.kind with
  | .decouple => [.decouple]
  | .rejoin => [.rejoin]
  | .trgate => [.trgate]
  | .normal => if b.slots.any (fun p => p.1 = 0) then b.slots.map (·.2) else .tnop :: b.slots.map (·.2)

/-- Runs accepted operations for one member; its x registers are read as they stood before the bundle. -/
def runMember (m : Member) (is : List Instr) (s : State) : Out :=
  is.foldl (fun (o : Out) i =>
    match o with
    | .next s =>
      let xs := match s.cur.xs with | some x => some x | none => some m.2.2.x
      exec i { s with cur := { s.cur with actor := .tile m.1 m.2.1, accepted := true, xs } }
    | o => o) (.next { s with cur := { s.cur with xs := none } })

/-- Runs them for every member in rank order. -/
def runMembers (ms : List Member) (is : List Instr) (s : State) : Out :=
  ms.foldl (fun (o : Out) m => match o with | .next s => runMember m is s | o => o) (.next s)

/-- The program counter at which a member stands after the operations. -/
def pcAfter (s : State) (m : Member) (is : List Instr) : DWord :=
  match runMember m (is.take 1) s with
  | .next t => ((t.ctxAt m.1 m.2.1).map (·.pc)).getD (pcAdd m.2.2.pc 32)
  | _ => pcAdd m.2.2.pc 32

/-- Every member that stays coupled goes where the lead goes; one that left the bundle out has now done so (R237, R239). -/
def follow (ms : List Member) (pc : DWord) (s : State) : State :=
  ms.foldl (fun s m => s.modCtx m.1 m.2.1 fun c => { c with pc, skip := false }) s

/-- Members that single-step have had their bundle (R364). -/
def stepMembers (ms : List Member) (s : State) : State :=
  (ms.filter fun m => m.2.2.step).foldl (fun s m =>
    let s1 := s.modCtx m.1 m.2.1 fun c => { c with step := false }
    s1.stepDone m.2.2.task (s1.tileReport m.1 ((s1.ctxAt m.1 m.2.1).getD m.2.2) 4 0 0)) s

/-- The fetch of a bundle tests the watch units, which the bundle that a watch stop has stopped passes once, and the one that the lead leaves
out does not meet again (R239, R366, R367). -/
def bundleWatch (s : State) (core : Nat) (c : TileCtx) : Option Exc :=
  if c.wskip = some c.pc || c.skip then none
  else (watchHit s core (s.asidOf c.task) .fetch false [(0, c.pc.toNat % 2 ^ 57)] 32).map fun e => { e with level := 1 }

/-- A bundle has issued: every member has had its step, and the lead has passed its WSKIP. -/
def bundleIssued (ms : List Member) (core n : Nat) (t : State) : State :=
  stepMembers ms ({ t with cur := { t.cur with issued := true } }.modCtx core n fun c => { c with wskip := none })

/-! ### One context's bundle -/

/-- Whether a context takes part in the rotation: a coupled member does through its lead (R159, R237). -/
def inRotation (s : State) (core n : Nat) (c : TileCtx) : Bool :=
  !c.stopped && c.cush ≠ .forming && (c.cush ≠ .coupled || (s.team core n c).head? = some (core, n)) &&
  match kfind s.tasks c.task with
  | some t => t.st == .resident && !t.stopIssue && (!t.stepF || c.step)
  | none => false

/-- The members that issue with a context. -/
def teamOf (s : State) (core n : Nat) (c : TileCtx) : List Member :=
  (s.team core n c).filterMap fun m => (s.ctxAt m.1 m.2).map fun x => (m.1, m.2, x)

/-- A fault of the team's bundle, reported for a member; every single-stepped member has had its step. -/
def teamFault (ms : List Member) (m : Member) (e : Exc) (s : State) : Out := .next (stepMembers ms (s.tileFault m.1 m.2.1 m.2.2 e))

/-- A bundle that every member leaves out is passed over (R239). -/
def passBundle (ms : List Member) (core n : Nat) (c : TileCtx) (s : State) : State :=
  stepMembers ms ((follow ms (pcAdd c.pc 32) s).modCtx core n fun c => { c with wskip := none })

/-- The broadcast ends for a member that has left DECOUPLE out as for the others (R238, R239). -/
def uncouple (ms : List Member) (s : State) : State :=
  ms.foldl (fun s m => s.modCtx m.1 m.2.1 fun c => { c with cush := .decoupled }) s

/-- Issues the next bundle of context `n` if it can issue: none while something holds it (R160). A fault of the fetch or of the decoding is
reported for the lowest-ranked member that does not leave the bundle out (R239). -/
def issueBundle (s : State) (core n : Nat) : Option Out :=
  match s.ctxAt core n with
  | none => none
  | some c =>
    let ms := teamOf s core n c
    let act := ms.filter fun m => !m.2.2.skip
    if !inRotation s core n c then none
    else if act = [] then some (.next (passBundle ms core n c s))
    else
      let lead := act.head?.getD (core, n, c)
      let (s1, r) := s.fetch (s.walkerOf c.task core) c.pc.toNat 32
      let at_ (iw0 iw1 : DWord) (np : Nat) : State :=
        { s1 with cur := { actor := .tile lead.1 lead.2.1, iw0, iw1, np } }
      match r with
      | .error e => some (teamFault ms lead e (at_ 0 0 1))
      | .ok w =>
        let iw0 := BitVec.ofNat 64 (w >>> 128)
        let iw1 := BitVec.ofNat 64 (w >>> 192)
        match bundleWatch s1 core c, decodeBundle w with
        | some e, _ =>
          if bit e.detail 4 then some (.next (stepMembers ms ((at_ iw0 iw1 1).tileHalt core n c e)))
          else some (teamFault ms (core, n, c) e (at_ iw0 iw1 1))
        | none, .error e =>
          some (match exec (.illegalInstruction e) (at_ iw0 iw1 1) with
            | .next t => .next (stepMembers ms t)
            | o => o)
        | none, .ok b =>
          let s2 := at_ iw0 iw1 b.np
          let is := opsOf b
          if holds s2 act is then none
          else
            match firstFault s2 act is with
            | (s3, some (m, e)) => some (teamFault ms m e s3)
            | (s3, none) =>
              let pc := pcAfter s3 (core, n, c) is
              some (match runMembers act is s3 with
                | .next t =>
                  let t' := if c.cush = .coupled then follow ms pc t else t
                  .next (bundleIssued ms core n (if c.cush = .coupled && b.kind = .decouple then uncouple ms t' else t'))
                | o => o)

/-- A core's sequencer keeps to its current context while that can issue, else takes the next in the rotation that can (R159). -/
def issueCore (s : State) (core : Nat) : Out :=
  if !s.hub.on || s.hub.frozen then .next s
  else
    let cur := (s.core core).curCtx
    match (List.range 4).findSome? fun i => (issueBundle s core ((cur + i) % 4)).map fun o => ((cur + i) % 4, o) with
    | some (n, .next t) => .next (t.setCore core { t.core core with curCtx := n })
    | some (_, o) => o
    | none => .next s

end Sys2Proof.Machine
end

