-- ==== Sys2Proof/Machine/Pulse.lean ====
section
/-! DEFINITION. The pulses that tasks' watchdogs receive (R245, R287, R333). -/

namespace Sys2Proof.Machine

/-- The tasks of the waves whose record a step has changed in a way that `f` shows. -/
def changedWaves {α : Type} [DecidableEq α] (f : Wave → α) (s t : State) : List Nat :=
  s.waves.filterMap fun p =>
    match kfind t.waves p.1 with
    | some w => if f w = f p.2 then none else some w.task
    | none => none

/-- The tasks with a fragment that waits at ENQ for a queue. -/
def enqTasks (s : State) (q : Nat) : List Nat :=
  s.waves.filterMap fun p => if p.2.frags.any (fun f => f.st = .waiting (.enq q)) then some p.2.task else none

/-- The tasks that wait at ENQ for a queue of which a packet has finished (R333). -/
def packetPulses (s t : State) : List Nat :=
  t.queues.flatMap fun q => if q.2.finished = (s.queue q.1).finished then [] else enqTasks s q.1

/-- The tasks that an agent's action pulses itself. -/
def ownPulses (a : Agent) (s t : State) : List Nat :=
  packetPulses s t ++
  match a with
  | .wave k => if t.cur.issued then ((kfind s.waves k).map (·.task)).toList else []
  | .ctx core => if t.cur.issued then ((s.ctxAt core (t.core core).curCtx).map (·.task)).toList else []
  | .event (.loadSectorReturn wave _ _ []) =>
    if kfind s.waves wave = kfind t.waves wave then [] else ((kfind s.waves wave).map (·.task)).toList
  | .event (.capture (.copy id _)) => if kfind s.copies id = kfind t.copies id then [] else ((kfind s.copies id).map (·.task)).toList
  | .event (.engineOperation core e) =>
    match (s.core core).engq e with
    | q :: _ => if (t.core core).engq e = (s.core core).engq e then [] else ((s.ctxAt core q.ctx).map (·.task)).toList
    | [] => []
  | .event (.atomicPerform _) => changedWaves (fun w => w.replay) s t
  | _ => []

/-- The tasks whose members have yet to arrive at a barrier. -/
def tardy (s : State) (key : Nat) : List Nat :=
  let i := key / 3
  let behind (b : Option Bool) : Bool := b = some false
  match key % 3 with
  | 0 => if (barMembers s key).all id then [] else [i / 8]
  | 1 => if (barMembers s key).all id then [] else [i]
  | _ =>
    match kfind s.launches (i / 256) with
    | some l => (kget [] l.groups (i % 256)).filterMap fun b =>
        (taskOfBlock s (i / 256) b).bind fun p => if behind (blockArrived s p.1 p.2 key) then some p.1 else none
    | none => []

/-- The tasks from which a fragment's wait takes pulses: those a barrier waits for, the evaluator of its cell. -/
def sources (s : State) (f : Frag) : List Nat :=
  match f.st with
  | .waiting (.barrier key) => tardy s key
  | .parked cell => s.growth.flatMap fun p => (p.2.filter fun g => g.cell = cell).filterMap (·.evaluator)
  | _ => []

/-- The tasks that wait for one of some tasks. -/
def waitersOf (s : State) (l : List Nat) : List Nat :=
  s.waves.filterMap fun p => if p.2.frags.any (fun f => (sources s f).any l.contains) then some p.2.task else none

/-- Every task that is pulsed: those that acted, those that wait for one of them, and so on. -/
def pulsed (s : State) (own : List Nat) : Nat → List Nat
  | 0 => own
  | n + 1 =>
    let more := (waitersOf s own).filter fun t => !own.contains t
    if more = [] then own else pulsed s (own ++ more.eraseDups) n

/-- The tasks that count as active in their waits. -/
def activeTasks (s : State) : List Nat :=
  s.waves.filterMap fun p => if p.2.frags.any (activeWait s) then some p.2.task else none

/-- The watchdogs hear the action that led from `s` to `t`. -/
def hear (a : Agent) (s t : State) : State :=
  match ownPulses a s t ++ activeTasks s with
  | [] => t
  | own => (pulsed t own t.tasks.length).foldl (fun u k => u.modTask k fun x => { x with silent := u.cycle }) t

end Sys2Proof.Machine
end

