-- ==== Sys2Proof/Machine/Step.lean ====
section
/-! DEFINITION. One step of the machine, and how the host places an instruction where the next step runs it. -/

namespace Sys2Proof.Machine

/-- Which agent acts, or which request arrives, once the agenda has been used up: nothing is known of it (log entry 11). -/
opaque nextAgent : Nat → Agent

/-- Time passes before a step (R6); it stands still while power is off or the Z9 is frozen (R381). -/
def tick (s : State) : State :=
  if !s.hub.on || s.hub.frozen then { s with ctr := s.ctr + 1 }
  else
    { s with
      ctr := s.ctr + 1
      cycle := s.cycle + 1 + Config.elapsedCycles s.ctr
      time := s.time + BitVec.ofNat 64 (Config.elapsedNs s.ctr) }

/-- The agent whose turn it is. -/
def turn (s : State) : Agent := s.agenda.head?.getD (nextAgent s.ctr)

/-- The state in which it acts; nothing has been issued in it yet. -/
def ready (s : State) : State := { tick s with agenda := s.agenda.drop 1, cur := {} }

/-- One action of an agent. -/
def runAgent (a : Agent) (s : State) : Host.Outcome State Fault Refusal :=
  match a with
  | .wave k => issueWave s k
  | .ctx core => issueCore s core
  | .cp q => issueCp s q
  | .event i => exec i s

/-- The accesses and copies that a step has accepted, or has taken up again with a task's return, by wave and entry, and by number. -/
def newAccesses (s t : State) : List (Nat × Nat) :=
  t.waves.flatMap fun p =>
    let was : List Nat := match kfind s.waves p.1 with
      | some w => if w.resident then w.replay.map (fun e => e.id) else []
      | none => []
    if p.2.resident then (p.2.replay.filter fun e => !was.contains e.id).map fun e => (p.1, e.id) else []
def newCopies (s t : State) : List Nat := (kkeys t.copies).filter fun c => (kfind s.copies c).isNone

/-- An invalidation waits also for what is translated by an entry that it has removed, while it is in progress (R258). -/
def noteUsed (s t : State) : State :=
  match (t.tlb.filter (·.used)).filterMap (·.gone) with
  | [] => t
  | ids =>
    { t with
      tlb := t.tlb.map fun e => if e.used then { e with used := false } else e
      invals := t.invals.map fun (p : Nat × Inval) =>
        if ids.contains p.1 then (p.1, { p.2 with waits := p.2.waits ++ newAccesses s t, copies := p.2.copies ++ newCopies s t }) else p }

/-- One step: an agent acts, and the watchdogs hear it. -/
def step (s : State) : Host.Outcome State Fault Refusal :=
  match runAgent (turn s) (ready s) with
  | .next t => .next (hear (turn s) (ready s) (noteUsed (ready s) t))
  | o => o

/-! ### Placing an instruction (log entry 11) -/

/-- The virtual and physical address at which a placed instruction stands. -/
def codeAddr : Nat := 2 ^ 20

/-- The page tables of a placed instruction's address space: a 512 MiB leaf with every permission at address 0. -/
def placedTables : List (Nat × Nat) := [(2 ^ 16, 2 ^ 17 + 1), (2 ^ 17, 2 ^ 18 + 1), (2 ^ 18, 0x1F)]

/-- Writes an `n`-byte number at a physical address, as a load of memory from outside does. -/
def loadMem (m : Memory) (pa n v : Nat) : Memory := Memory.writes m ((toBytes v n).zipIdx.map fun p => (keyOf 0 (pa + p.2), p.1))

/-- The address space of a placed instruction. -/
def placedAsid : Nat := 65535

/-- The descriptor of the kernel that a placed instruction belongs to. -/
def placedDesc : KDesc := { entry := BitVec.ofNat 64 codeAddr, vregs := 1536, win := 127, ncb := 8, nbank := 16, nsum := 4 }

/-- Its task's grant on core 0. -/
def placedGrant : Grant :=
  { core := 0, blk := 0, part := 0, winBase := 0, winLen := 127 * 4096, cbs := List.range 8, nbank := 16, sums := [(0, List.range 4)] }

/-- Power is on and a task of one block and one wave is resident on core 0, with `n` bytes of program `v` in memory. -/
def placeTask (s : State) (n v : Nat) : State :=
  let t := s.nextTask
  let l : Launch :=
    { queue := 0, proc := 0, asid := placedAsid, desc := placedDesc, kdescVa := 0, nblk := 1, gsz := 1, prio := 0, det := false, cnt := false,
      idem := false, aff := false, placed := 1 }
  let x : Task :=
    { launch := s.nextLaunch, gang := 0, st := .resident, desc := placedDesc, grants := [placedGrant], waves := [t * 2048], everPlaced := true }
  let c := s.core 0
  { s with
    hub := { s.hub with on := true, booted := true, frozen := false, recovery := false }
    mem := loadMem (placedTables.foldl (fun m p => loadMem m p.1 8 p.2) s.mem) codeAddr n v
    asids := kinsert s.asids placedAsid { st := .bound, root := 2 ^ 16 }
    tlb := s.tlb.filter fun e => e.asid ≠ placedAsid
    cores := kinsert s.cores 0 { c with icache := [], ctxs := [], watch := [] }
    launches := kinsert s.launches s.nextLaunch l
    nextLaunch := s.nextLaunch + 1
    tasks := kinsert s.tasks t x
    nextTask := t + 1
    waves := kinsert s.waves (t * 2048)
      { task := t, blk := 0, idx := 0, core := 0, part := 0, alloc := 1536, cur := some 0,
        frags := [{ num := 0, pc := BitVec.ofNat 64 codeAddr, mask := BitVec.allOnes 32, st := .issuing }] } }

/-- A tile context of that task on core 0, which holds every slot. -/
def placeCtx (s : State) (w : Nat) : State :=
  let t := placeTask s 32 w
  let c := t.core 0
  { t with
    cores := kinsert t.cores 0
      { c with
        curCtx := 0
        ctxs := [(0, { task := s.nextTask, blk := 0, part := 0, pc := BitVec.ofNat 64 codeAddr, held := BitVec.allOnes 16, bankCount := 16 })] }
    agenda := [.ctx 0] }

/-- A packet at the head of queue 0's ring. -/
def placePacket (s : State) (w : Nat) : State :=
  let t := placeTask s 64 w
  { t with
    queues := kinsert t.queues 0
      { ring := codeAddr, wptr := 1, st := 1, asid := placedAsid, levels := [newLevel true codeAddr 0 0] }
    cpQueue := kinsert t.cpQueue 0 0
    agenda := [.cp 0] }

/-- The bundle that a 24-bit slot word of the opcode table stands for (log entry 12). -/
def slotBundle (w : Nat) : Nat :=
  2 ^ 248 + w * 2 ^ (slotPos (((decodeSlot24 w).map (·.1)).getD 4)).1

/-- Places an instruction where the next step fetches it. -/
def State.withFetchWord (s : State) (nbits w : Nat) : State :=
  if nbits = 24 then placeCtx s (slotBundle w)
  else if nbits = 256 then placeCtx s w
  else if nbits = 512 then placePacket s w
  else { placeTask s 32 w with agenda := [.wave (s.nextTask * 2048)] }

end Sys2Proof.Machine
end

