-- ==== Sys2Proof/Certificates/Slice0/Obligations.lean ====
section
/-! DEFINITION. The statements for the provers, and the words they are said in. Rule numbers are of spec/. -/

namespace Sys2Proof.Claim

open Sys2Proof Sys2Proof.Machine

/-! ### Who issues, and what stays -/

/-- Fragment `fr` of wave `k`, which is `w`, is the one that issues. -/
def Issues (s : State) (k : Nat) (w : Wave) (fr : Frag) : Prop :=
  s.cur.actor = .frag k fr.num ∧ kfind s.waves k = some w ∧ w.frag fr.num = some fr

/-- The fragments of `w` once `fr` stands at `pc`. -/
def at_ (w : Wave) (fr : Frag) (pc : DWord) : List Frag := w.frags.map fun g => if g.num = fr.num then { g with pc } else g

/-- `t` is `s` but for the record of wave `k`, which is `w'`; every byte of memory reads as before. -/
def OnlyWave (s : State) (k : Nat) (w' : Wave) (t : State) : Prop :=
  t = { s with waves := kinsert s.waves k w' } ∧ ∀ a, t.rdH a = s.rdH a

/-- A fragment's entries, and no others, are gone from the waiters of the queues (R234, log entry 77). -/
def LeavesQueues (k n : Nat) (s z : State) : Prop :=
  ∀ q x, (∃ l, (q, l) ∈ z.qwaits ∧ x ∈ l) ↔ (∃ l, (q, l) ∈ s.qwaits ∧ x ∈ l) ∧ ¬(x.1 = k ∧ x.2.1 = n)

/-- A lane that a guard selects (R19): live in the fragment, its predicate not equal to the guard's negation. -/
def Picked (s : State) (w : Wave) (fr : Frag) (g : Guard) (l : Nat) : Prop :=
  l < 32 ∧ fr.mask.getLsbD l = true ∧ rdP s w 4 g.p l ≠ g.neg

/-- The operands A, B and C of a lane (R16, R20). -/
abbrev inA (s : State) (w : Wave) (a : VOp) (l : Nat) : Word := rdV s w 1 a l
abbrev inB (s : State) (w : Wave) (b : VOp) (l : Nat) : Word := rdV s w 2 b l
abbrev inC (s : State) (w : Wave) (c : VOp) (l : Nat) : Word := rdV s w 3 c l

/-- Flags raised by cycle `due`: those that stood, and bit `i` wherever `F i` holds. None lands at once (R58). -/
def Raises (w w' : Wave) (due : Nat) (F : Nat → Prop) : Prop :=
  w'.flags = w.flags ∧ (∀ p ∈ w'.flagPend, p ∈ w.flagPend ∨ p.2 = due) ∧
  ∀ i, w'.flagsAll.getLsbD i = true ↔ w.flagsAll.getLsbD i = true ∨ F i

/-- What a lane-wise instruction with vector destination `d` leaves: in each selected lane a value `R` allows, lanes not selected and
every other register as they were, flags `F l` of the selected lanes raised, the pc `len` bytes on; nothing else changes. -/
def LaneWrites (s : State) (k : Nat) (w : Wave) (fr : Frag) (h : Hdr) (len : Nat) (d : VOp) (R : Nat → Word → Prop)
    (F : Nat → Nat → Prop) (t : State) : Prop :=
  ∃ w' : Wave, OnlyWave s k w' t ∧
    (∀ l, Picked s w fr h.g l → R l (w'.vraw (VOp.field d) l)) ∧
    (∀ f l, l < 32 → ¬(f = VOp.field d ∧ Picked s w fr h.g l) → w'.vraw f l = w.vraw f l) ∧
    Raises w w' (s.cycle + h.lat) (fun i => ∃ l, Picked s w fr h.g l ∧ F l i) ∧
    w' = { w with
      vreg := w'.vreg
      flagPend := w'.flagPend
      inflight := w.inflight ++ [{ reg := .vec (VOp.field d), lanes := sel s w fr h.g, due := s.cycle + h.lat }]
      frags := at_ w fr (pcAdd fr.pc len) }

/-- No lane raises a flag. -/
abbrev quiet : Nat → Nat → Prop := fun _ _ => False

/-- The same with predicate `p` as the destination; p7 takes no write (R52). -/
def LaneTests (s : State) (k : Nat) (w : Wave) (fr : Frag) (h : Hdr) (p : Nat) (R : Nat → Bool) (F : Nat → Nat → Prop) (t : State) :
    Prop :=
  ∃ w' : Wave, OnlyWave s k w' t ∧
    (∀ l, p < 7 → Picked s w fr h.g l → (kget 0 w'.preds p).getLsbD l = R l) ∧
    (∀ q l, l < 32 → ¬(q = p ∧ p < 7 ∧ Picked s w fr h.g l) → (kget 0 w'.preds q).getLsbD l = (kget 0 w.preds q).getLsbD l) ∧
    Raises w w' (s.cycle + h.lat) (fun i => ∃ l, Picked s w fr h.g l ∧ F l i) ∧
    w' = { w with
      preds := w'.preds
      flagPend := w'.flagPend
      inflight := w.inflight ++ [{ reg := .pred p, lanes := sel s w fr h.g, due := s.cycle + h.lat }]
      frags := at_ w fr (pcAdd fr.pc 8) }

/-- What a wave-level instruction with scalar destination `d` leaves: the value `v` there, every other register as it was. -/
def ScalarWrites (s : State) (k : Nat) (w : Wave) (fr : Frag) (lat len d : Nat) (v : Word) (F : Nat → Prop) (t : State) : Prop :=
  ∃ w' : Wave, OnlyWave s k w' t ∧
    (∀ n, w'.sraw n = if n = d then v else w.sraw n) ∧
    Raises w w' (s.cycle + lat) F ∧
    w' = { w with
      sreg := w'.sreg
      flagPend := w'.flagPend
      inflight := w.inflight ++ [{ reg := .sca d, lanes := 1, due := s.cycle + lat }]
      frags := at_ w fr (pcAdd fr.pc len) }

/-- The integer types of R24. -/
def isIntTy (t : Ty) : Prop := t ∈ [Ty.i32, .u32, .i16, .u16, .i8, .u8, .i4, .u4]

/-- Element `e` of a register in `n`-bit elements. -/
abbrev slice (n e : Nat) (x : Word) : BitVec n := x.extractLsb' (n * e) n

/-- The low `n` bits extended to a register by the type's sign (R66). -/
def extended (t : Ty) (x : Word) : Word :=
  if tySigned t then (slice (tyWidth t) 0 x).signExtend 32 else (slice (tyWidth t) 0 x).zeroExtend 32

/-- Element `e` of a register as the exact number that its type gives it (R66). -/
def elemInt (t : Ty) (x : Word) (e : Nat) : Int :=
  if tySigned t then (slice (tyWidth t) e x).toInt else ((slice (tyWidth t) e x).toNat : Int)

/-- The least and the greatest number of an integer type (R66). -/
def lowest (t : Ty) : Int := if tySigned t then -(2 ^ (tyWidth t - 1)) else 0
def greatest (t : Ty) : Int := if tySigned t then 2 ^ (tyWidth t - 1) - 1 else 2 ^ tyWidth t - 1

/-- The number of elements (R73). -/
def elemCount (t : Ty) (pk : Bool) : Nat := if pk then 32 / tyWidth t else 1

/-- A wrapping element-wise result (R73): each element is `op` of the elements modulo 2^width; an unpacked one is extended. -/
def WrapsTo (t : Ty) (pk : Bool) (op : (n : Nat) → BitVec n → BitVec n → BitVec n → BitVec n) (a b c v : Word) : Prop :=
  (∀ e, e < elemCount t pk → slice (tyWidth t) e v = op (tyWidth t) (slice (tyWidth t) e a) (slice (tyWidth t) e b) (slice (tyWidth t) e c)) ∧
  (pk = false → v = extended t v)

/-- The exact number `f` of the elements lies outside the type's range. -/
def Outside (t : Ty) (f : Int → Int → Int → Int) (a b c : Word) (e : Nat) : Prop :=
  let x := f (elemInt t a e) (elemInt t b e) (elemInt t c e)
  x < lowest t ∨ greatest t < x

/-- A saturating element-wise result (R73): each element is the exact number brought into the type's range. -/
def SaturatesTo (t : Ty) (pk : Bool) (f : Int → Int → Int → Int) (a b c v : Word) : Prop :=
  (∀ e, e < elemCount t pk →
    elemInt t v e = max (lowest t) (min (greatest t) (f (elemInt t a e) (elemInt t b e) (elemInt t c e)))) ∧
  (pk = false → v = extended t v)

/-- SAT is raised where an element of a selected lane lies outside the range. -/
def satFlag (t : Ty) (pk : Bool) (f : Int → Int → Int → Int) (a b c : Word) (i : Nat) : Prop :=
  i = 7 ∧ ∃ e, e < elemCount t pk ∧ Outside t f a b c e

end Sys2Proof.Claim

open Sys2Proof Sys2Proof.Machine Sys2Proof.Claim

/-! ### Integer lanes (R72 to R80) -/

/-- R73, R76: VIADD, VISUB, VIMUL and VIMAD without SAT write each element of op(a, b, c) modulo 2^width, extended when not packed, in
every selected lane; no flag, nothing else changes. -/
def Sys2Proof.Claim.IntegerWrap : Prop :=
  ∀ (s : State) (k : Nat) (w : Wave) (fr : Frag), Issues s k w fr → ∀ (h : Hdr) (t : Ty) (pk : Bool) (d a b c : VOp), isIntTy t →
    (∃ u, exec (.viadd h t false pk d a b) s = .next u ∧
      LaneWrites s k w fr h 8 d (fun l v => WrapsTo t pk (fun _ x y _ => x + y) (inA s w a l) (inB s w b l) 0 v) quiet u) ∧
    (∃ u, exec (.visub h t false pk d a b) s = .next u ∧
      LaneWrites s k w fr h 8 d (fun l v => WrapsTo t pk (fun _ x y _ => x - y) (inA s w a l) (inB s w b l) 0 v) quiet u) ∧
    (∃ u, exec (.vimul h t false pk d a b) s = .next u ∧
      LaneWrites s k w fr h 8 d (fun l v => WrapsTo t pk (fun _ x y _ => x * y) (inA s w a l) (inB s w b l) 0 v) quiet u) ∧
    (∃ u, exec (.vimad h t false pk d a b c) s = .next u ∧
      LaneWrites s k w fr h 16 d (fun l v => WrapsTo t pk (fun _ x y z => x * y + z) (inA s w a l) (inB s w b l) (inC s w c l) v) quiet u) ∧
    (∃ u, exec (.viabs h t false pk d a) s = .next u ∧
      LaneWrites s k w fr h 8 d
        (fun l v => WrapsTo t pk (fun _ x _ _ => if tySigned t && x.msb then -x else x) (inA s w a l) 0 0 v) quiet u) ∧
    (∃ u, exec (.vineg h t false pk d a) s = .next u ∧
      LaneWrites s k w fr h 8 d (fun l v => WrapsTo t pk (fun _ x _ _ => -x) (inA s w a l) 0 0 v) quiet u)

/-- R73, R76: with SAT each element is the exact result brought into the type's range, and SAT is raised where it lay outside. -/
def Sys2Proof.Claim.IntegerSaturate : Prop :=
  ∀ (s : State) (k : Nat) (w : Wave) (fr : Frag), Issues s k w fr → ∀ (h : Hdr) (t : Ty) (pk : Bool) (d a b c : VOp), isIntTy t →
    let Is (i : Instr) (len : Nat) (f : Int → Int → Int → Int) (y z : Nat → Word) : Prop :=
      ∃ u, exec i s = .next u ∧
        LaneWrites s k w fr h len d (fun l v => SaturatesTo t pk f (inA s w a l) (y l) (z l) v)
          (fun l => satFlag t pk f (inA s w a l) (y l) (z l)) u
    Is (.viadd h t true pk d a b) 8 (fun x y _ => x + y) (inB s w b) (fun _ => 0) ∧
    Is (.visub h t true pk d a b) 8 (fun x y _ => x - y) (inB s w b) (fun _ => 0) ∧
    Is (.vimul h t true pk d a b) 8 (fun x y _ => x * y) (inB s w b) (fun _ => 0) ∧
    Is (.vimad h t true pk d a b c) 16 (fun x y z => x * y + z) (inB s w b) (inC s w c) ∧
    Is (.viabs h t true pk d a) 8 (fun x _ _ => |x|) (fun _ => 0) (fun _ => 0) ∧
    Is (.vineg h t true pk d a) 8 (fun x _ _ => -x) (fun _ => 0) (fun _ => 0)

/-- R76 to R78: VIMIN and VIMAX choose an element by its exact number; VIMULH writes the high half of the 64-bit product; VLEA writes
a + (b << sh); VICMP tests the exact numbers of element 0. -/
def Obligations.IntegerChoose : Prop :=
  ∀ (s : State) (k : Nat) (w : Wave) (fr : Frag), Issues s k w fr → ∀ (h : Hdr) (t : Ty) (pk : Bool) (sh p : Nat) (d a b : VOp), isIntTy t →
    (∃ u, exec (.vimin h t pk d a b) s = .next u ∧
      LaneWrites s k w fr h 8 d (fun l v => SaturatesTo t pk (fun x y _ => min x y) (inA s w a l) (inB s w b l) 0 v) quiet u) ∧
    (∃ u, exec (.vimax h t pk d a b) s = .next u ∧
      LaneWrites s k w fr h 8 d (fun l v => SaturatesTo t pk (fun x y _ => max x y) (inA s w a l) (inB s w b l) 0 v) quiet u) ∧
    (∃ u, exec (.vimulh h .i32 d a b) s = .next u ∧
      LaneWrites s k w fr h 8 d
        (fun l v => v = ((inA s w a l).signExtend 64 * (inB s w b l).signExtend 64).extractLsb' 32 32) quiet u) ∧
    (∃ u, exec (.vimulh h .u32 d a b) s = .next u ∧
      LaneWrites s k w fr h 8 d
        (fun l v => v = ((inA s w a l).zeroExtend 64 * (inB s w b l).zeroExtend 64).extractLsb' 32 32) quiet u) ∧
    (∃ u, exec (.vlea h sh d a b) s = .next u ∧
      LaneWrites s k w fr h 8 d (fun l v => v = inA s w a l + (inB s w b l) * BitVec.ofNat 32 (2 ^ sh)) quiet u) ∧
    (∀ cc, ∃ u, exec (.vicmp h t cc p a b) s = .next u ∧
      LaneTests s k w fr h p (fun l =>
        let x := elemInt t (inA s w a l) 0
        let y := elemInt t (inB s w b l) 0
        match cc with
        | .eq => decide (x = y) | .ne => decide (x ≠ y) | .lt => decide (x < y)
        | .le => decide (x ≤ y) | .gt => decide (y < x) | .ge => decide (y ≤ x)) quiet u)

/-- Bit `i` of a lane's result. -/
abbrev Sys2Proof.Claim.bitsAre (f : Nat → Bool) (v : Word) : Prop := ∀ i, i < 32 → v.getLsbD i = f i

/-- R80: the bitwise instructions, the shifts by B[7:0] (amounts of 32 and more empty the register, or fill it with the sign; a rotation
is modulo 32), the field instructions by the control word, and the bit counts. -/
def Obligations.BitsAndShifts : Prop :=
  ∀ (s : State) (k : Nat) (w : Wave) (fr : Frag), Issues s k w fr → ∀ (h : Hdr) (d a b c : VOp),
    let Is (i : Instr) (len : Nat) (R : Nat → Word → Prop) : Prop := ∃ u, exec i s = .next u ∧ LaneWrites s k w fr h len d R quiet u
    let A := inA s w a
    let B := inB s w b
    let n (l : Nat) : Nat := (B l).toNat % 256
    let off (x : Word) : Nat := x.toNat % 32
    let wid (x : Word) : Nat := min (x.toNat / 256 % 64) (32 - off x)
    Is (.vand h d a b) 8 (fun l => bitsAre fun i => (A l).getLsbD i && (B l).getLsbD i) ∧
    Is (.vor h d a b) 8 (fun l => bitsAre fun i => (A l).getLsbD i || (B l).getLsbD i) ∧
    Is (.vxor h d a b) 8 (fun l => bitsAre fun i => (A l).getLsbD i != (B l).getLsbD i) ∧
    Is (.vnot h d a) 8 (fun l => bitsAre fun i => !(A l).getLsbD i) ∧
    Is (.vshl h d a b) 8 (fun l => bitsAre fun i => decide (n l ≤ i) && (A l).getLsbD (i - n l)) ∧
    Is (.vshr h d a b) 8 (fun l => bitsAre fun i => (A l).getLsbD (i + n l)) ∧
    Is (.vsar h d a b) 8 (fun l => bitsAre fun i => if i + n l < 32 then (A l).getLsbD (i + n l) else (A l).getLsbD 31) ∧
    Is (.vrot h d a b) 8 (fun l v => ∀ i, i < 32 → v.getLsbD ((i + n l) % 32) = (A l).getLsbD i) ∧
    Is (.vbfx h .u32 d a b) 8 (fun l => bitsAre fun i => decide (i < wid (B l)) && (A l).getLsbD (i + off (B l))) ∧
    Is (.vbfx h .i32 d a b) 8 (fun l => bitsAre fun i =>
      decide (0 < wid (B l)) && (A l).getLsbD (min i (wid (B l) - 1) + off (B l))) ∧
    Is (.vbfi h d a b c) 16 (fun l => bitsAre fun i =>
      let x := inC s w c l
      if off x ≤ i ∧ i < off x + wid x then (B l).getLsbD (i - off x) else (A l).getLsbD i) ∧
    Is (.vpopc h d a) 8 (fun l v => v.toNat = (List.range 32).countP fun i => (A l).getLsbD i) ∧
    Is (.vclz h d a) 8 (fun l v => v.toNat ≤ 32 ∧ (A l).toNat < 2 ^ (32 - v.toNat) ∧ (v.toNat < 32 → 2 ^ (31 - v.toNat) ≤ (A l).toNat)) ∧
    Is (.vbrev h d a) 8 (fun l => bitsAre fun i => (A l).getLsbD (31 - i))

/-- R94: VDOT4 adds to the accumulator the exact products of the elements, B's of the opposite sign with MIX, wrapping to 32 bits or
brought into INT32's range with SAT. -/
def Obligations.DotInteger : Prop :=
  ∀ (s : State) (k : Nat) (w : Wave) (fr : Frag), Issues s k w fr → ∀ (h : Hdr) (t tb : Ty) (mix : Bool) (d a b c : VOp),
    (t, tb, mix) ∈ [(Ty.i8, Ty.i8, false), (.u8, .u8, false), (.i4, .i4, false), (.u4, .u4, false), (.i8, .u8, true), (.u8, .i8, true),
      (.i4, .u4, true), (.u4, .i4, true)] →
    let x (l : Nat) : Int := (inC s w c l).toInt +
      ((List.range (32 / tyWidth t)).map fun e => elemInt t (inA s w a l) e * elemInt tb (inB s w b l) e).sum
    (∃ u, exec (.vdot4 h t false mix d a b c) s = .next u ∧
      LaneWrites s k w fr h 16 d (fun l v => v = BitVec.ofInt 32 (x l)) quiet u) ∧
    (∃ u, exec (.vdot4 h t true mix d a b c) s = .next u ∧
      LaneWrites s k w fr h 16 d (fun l v => v.toInt = max (-2 ^ 31) (min (2 ^ 31 - 1) (x l)))
        (fun l i => i = 7 ∧ (x l < -2 ^ 31 ∨ 2 ^ 31 ≤ x l)) u)

/-! ### Floating lanes (R62 to R65, R81 to R93) -/

/-- The fields of %mode and the rounding code that an instruction of a wave reads (R81). -/
abbrev Sys2Proof.Claim.envOf (w : Wave) (r : Rnd) : FEnv := FEnv.of w.mode r.code

/-- Element `e` of a register as an encoding, and as Src reads it (R62, R81). -/
abbrev Sys2Proof.Claim.encAt (t : Ty) (x : Word) (e : Nat) : Nat := (slice (fmtOf t).width e x).toNat
abbrev Sys2Proof.Claim.srcAt (v : FEnv) (t : Ty) (x : Word) (e : Nat) : FVal := v.src (fmtOf t) (encAt t x e)

/-- A lane's result whose elements are the encodings `res e`, and the flags they raise (R83). -/
def Sys2Proof.Claim.FloatIs (t : Ty) (res : Nat → Nat × Word) (v : Word) : Prop := v = fPut t ((List.range (fElems t)).map fun e => (res e).1)
def Sys2Proof.Claim.floatFlag (t : Ty) (res : Nat → Nat × Word) (i : Nat) : Prop := ∃ e, e < fElems t ∧ (res e).2.getLsbD i = true

/-- R81 to R87: every floating arithmetic instruction completes in every selected lane with the operation of R83, R84 or R87 on each
element, as Src reads it and rounded once by Mode(RND), raises the flags of the selected lanes' elements, and changes nothing else. -/
def Obligations.FloatArithmetic : Prop :=
  ∀ (s : State) (k : Nat) (w : Wave) (fr : Frag), Issues s k w fr → ∀ (h : Hdr) (r : Rnd) (t : Ty) (x : Bool) (d a b c : VOp),
    let v := envOf w r
    let Is (i : Instr) (len : Nat) (u : Ty) (res : Nat → Nat → Nat × Word) : Prop :=
      ∃ z, exec i s = .next z ∧ LaneWrites s k w fr h len d (fun l => FloatIs u (res l)) (fun l => floatFlag u (res l)) z
    let A (u : Ty) (l e : Nat) := srcAt v u (inA s w a l) e
    let B (u : Ty) (l e : Nat) := srcAt v u (inB s w b l) e
    let C (u : Ty) (l e : Nat) := srcAt v u (inC s w c l) e
    Is (.vfadd h r t d a b) 8 t (fun l e => (fmtOf t).add v (A t l e) (B t l e)) ∧
    Is (.vfsub h r t d a b) 8 t (fun l e => (fmtOf t).sub v (A t l e) (B t l e)) ∧
    Is (.vfmul h r t d a b) 8 t (fun l e => (fmtOf t).mul v (A t l e) (B t l e)) ∧
    Is (.vfma h r t d a b c) 16 t (fun l e => (fmtOf t).fma v (A t l e) (B t l e) (C t l e)) ∧
    Is (.vfmin h r t d a b) 8 t (fun l e => (fmtOf t).minmax v false (A t l e) (B t l e)) ∧
    Is (.vfmax h r t d a b) 8 t (fun l e => (fmtOf t).minmax v true (A t l e) (B t l e)) ∧
    Is (.vfrint h r t x d a) 8 t (fun l e => (fmtOf t).rint v x (A t l e)) ∧
    Is (.vfdiv h r d a b) 8 .f32 (fun l e => fp32.div v (A .f32 l e) (B .f32 l e)) ∧
    Is (.vfsqrt h r d a) 8 .f32 (fun l e => fp32.sqrt v (A .f32 l e))

/-- The fields of an encoding of a format (R62). -/
abbrev Sys2Proof.Claim.expOf (f : Fmt) (x : Nat) : Nat := x / 2 ^ f.mb % 2 ^ f.eb
abbrev Sys2Proof.Claim.fracOf (f : Fmt) (x : Nat) : Nat := x % 2 ^ f.mb
abbrev Sys2Proof.Claim.isNaN (f : Fmt) (x : Nat) : Prop := expOf f x = 2 ^ f.eb - 1 ∧ fracOf f x ≠ 0
abbrev Sys2Proof.Claim.isQuiet (f : Fmt) (x : Nat) : Prop := 2 ^ (f.mb - 1) ≤ fracOf f x

/-- The canonical NaN (R62): sign 0, exponent all ones, the fraction's top bit. -/
abbrev Sys2Proof.Claim.canonicalNaN (f : Fmt) : Nat := (2 ^ f.eb - 1) * 2 ^ f.mb + 2 ^ (f.mb - 1)

/-- R64: under NANM = 0 a lane of VFADD, VFSUB, VFMUL, VFMA, VFDIV, VFSQRT or VFRINT with a NaN source gets the canonical NaN of its
format; under either mode a signalling NaN source of a selected lane raises NV. -/
def Sys2Proof.Claim.FloatNaN : Prop :=
  ∀ (s : State) (k : Nat) (w : Wave) (fr : Frag), Issues s k w fr → ∀ (h : Hdr) (r : Rnd) (t : Ty) (x : Bool) (d a b c : VOp),
    t ∈ [Ty.f32, .f16, .bf16] →
    let f := fmtOf t
    let Is (i : Instr) (u : Ty) (src : List (Nat → Nat)) : Prop :=
      ∃ z w', exec i s = .next z ∧ kfind z.waves k = some w' ∧
        ∀ l, Picked s w fr h.g l →
          (modeNanm w.mode = false → (∃ y ∈ src, isNaN (fmtOf u) (y l)) → (w'.vraw (VOp.field d) l).toNat = canonicalNaN (fmtOf u)) ∧
          ((∃ y ∈ src, isNaN (fmtOf u) (y l) ∧ ¬isQuiet (fmtOf u) (y l)) → w'.flagsAll.getLsbD 0 = true)
    let A (l : Nat) : Nat := (inA s w a l).toNat % 2 ^ f.width
    let B (l : Nat) : Nat := (inB s w b l).toNat % 2 ^ f.width
    let C (l : Nat) : Nat := (inC s w c l).toNat % 2 ^ f.width
    Is (.vfadd h r t d a b) t [A, B] ∧ Is (.vfsub h r t d a b) t [A, B] ∧ Is (.vfmul h r t d a b) t [A, B] ∧
    Is (.vfma h r t d a b c) t [A, B, C] ∧ Is (.vfrint h r t x d a) t [A] ∧
    Is (.vfdiv h r d a b) .f32 [fun l => (inA s w a l).toNat, fun l => (inB s w b l).toNat] ∧
    Is (.vfsqrt h r d a) .f32 [fun l => (inA s w a l).toNat]

/-- The place of an encoding that is no NaN in the order of its value, −0 below +0. -/
def Sys2Proof.Claim.place_ (f : Fmt) (x : Nat) : Int :=
  let m := x % 2 ^ (f.eb + f.mb)
  if 2 ^ (f.eb + f.mb) ≤ x then -(m : Int) - 1 else m

/-- Its place with both zeros at 0. -/
def Sys2Proof.Claim.value_ (f : Fmt) (x : Nat) : Int :=
  let m := x % 2 ^ (f.eb + f.mb)
  if 2 ^ (f.eb + f.mb) ≤ x then -(m : Int) else m

/-- The lesser or the greater of two encodings: the number beside a NaN, −0 below +0 (R84). -/
def Sys2Proof.Claim.pick_ (f : Fmt) (max : Bool) (x y : Nat) : Nat :=
  if isNaN f x then (if isNaN f y then canonicalNaN f else y)
  else if isNaN f y then x
  else if place_ f x < place_ f y then (if max then y else x) else (if max then x else y)

/-- R84, R85 with subnormals kept: VFMIN and VFMAX give the number beside a NaN, order −0 below +0 and return a source's own encoding;
VFCMP compares by value with −0 = +0, and with a NaN only .ne and .un hold. -/
def Sys2Proof.Claim.FloatOrder : Prop :=
  ∀ (s : State) (k : Nat) (w : Wave) (fr : Frag), Issues s k w fr → ∀ (h : Hdr) (r : Rnd) (t : Ty) (p : Nat) (d a b : VOp),
    t ∈ [Ty.f32, .f16, .bf16] → modeF32Sub w.mode = false → modeH16Sub w.mode = false → modeNanm w.mode = false →
    let f := fmtOf t
    let A (l : Nat) : Nat := (inA s w a l).toNat % 2 ^ f.width
    let B (l : Nat) : Nat := (inB s w b l).toNat % 2 ^ f.width
    let signalling (l i : Nat) : Prop :=
      i = 0 ∧ ((isNaN f (A l) ∧ ¬isQuiet f (A l)) ∨ (isNaN f (B l) ∧ ¬isQuiet f (B l)))
    (∃ z, exec (.vfmin h r t d a b) s = .next z ∧
      LaneWrites s k w fr h 8 d (fun l v => v.toNat = pick_ f false (A l) (B l)) signalling z) ∧
    (∃ z, exec (.vfmax h r t d a b) s = .next z ∧
      LaneWrites s k w fr h 8 d (fun l v => v.toNat = pick_ f true (A l) (B l)) signalling z) ∧
    (∀ cc, ∃ z, exec (.vfcmp h r t cc p a b) s = .next z ∧
      LaneTests s k w fr h p (fun l =>
        let un : Bool := decide (isNaN f (A l)) || decide (isNaN f (B l))
        let x := value_ f (A l)
        let y := value_ f (B l)
        match cc with
        | .eq => !un && decide (x = y) | .ne => un || decide (x ≠ y) | .lt => !un && decide (x < y) | .le => !un && decide (x ≤ y)
        | .gt => !un && decide (y < x) | .ge => !un && decide (y ≤ x) | .un => un | .ord => !un) signalling z)

/-- R86: VFCLASS sets exactly the bit of the source's class: 0 −∞, 1 −normal, 2 −subnormal, 3 −0, 4 +0, 5 +subnormal, 6 +normal, 7 +∞,
8 signalling NaN, 9 quiet NaN; it raises no flag. -/
def Obligations.FloatClass : Prop :=
  ∀ (s : State) (k : Nat) (w : Wave) (fr : Frag), Issues s k w fr → ∀ (h : Hdr) (r : Rnd) (t : Ty) (d a : VOp),
    t ∈ [Ty.f32, .f16, .bf16] →
    let f := fmtOf t
    ∃ z, exec (.vfclass h r t d a) s = .next z ∧
      LaneWrites s k w fr h 8 d (fun l v =>
        let x := (inA s w a l).toNat % 2 ^ f.width
        let neg : Prop := 2 ^ (f.eb + f.mb) ≤ x
        let top : Prop := expOf f x = 2 ^ f.eb - 1
        ∃ c, v = BitVec.ofNat 32 (2 ^ c) ∧ c < 10 ∧
          (c = 0 ↔ neg ∧ top ∧ fracOf f x = 0) ∧ (c = 1 ↔ neg ∧ ¬top ∧ expOf f x ≠ 0) ∧
          (c = 2 ↔ neg ∧ expOf f x = 0 ∧ fracOf f x ≠ 0) ∧ (c = 3 ↔ neg ∧ expOf f x = 0 ∧ fracOf f x = 0) ∧
          (c = 4 ↔ ¬neg ∧ expOf f x = 0 ∧ fracOf f x = 0) ∧ (c = 5 ↔ ¬neg ∧ expOf f x = 0 ∧ fracOf f x ≠ 0) ∧
          (c = 6 ↔ ¬neg ∧ ¬top ∧ expOf f x ≠ 0) ∧ (c = 7 ↔ ¬neg ∧ top ∧ fracOf f x = 0) ∧
          (c = 8 ↔ isNaN f x ∧ ¬isQuiet f x) ∧ (c = 9 ↔ isNaN f x ∧ isQuiet f x)) quiet z

/-- R65: rounding the exact value of a finite encoding gives that encoding back, with no flag, in every rounding mode. -/
def Sys2Proof.Claim.RoundingExact : Prop :=
  ∀ (f : Fmt), f ∈ [fp32, fp16, bf16] → ∀ (x rm : Nat) (csat : Bool), x < 2 ^ f.width → expOf f x ≠ 2 ^ f.eb - 1 →
    ∃ sg m e, f.read false x = .fin sg m e ∧ f.round rm false csat sg m e false = (x, 0)

/-- The number that a finite encoding of a format stands for (R62). -/
def Sys2Proof.Claim.finOf (f : Fmt) (y : Nat) : ℚ :=
  let m : ℚ := if expOf f y = 0 then (fracOf f y : ℚ) else ((2 ^ f.mb + fracOf f y : Nat) : ℚ)
  let e : Int := (max 1 (expOf f y) : Nat) - (2 ^ (f.eb - 1) - 1 : Nat) - f.mb
  (if 2 ^ (f.eb + f.mb) ≤ y then -1 else 1) * m * (2 : ℚ) ^ e

/-- An encoding of a finite number (R62). -/
abbrev Sys2Proof.Claim.isFin (f : Fmt) (y : Nat) : Prop := y < 2 ^ f.width ∧ expOf f y ≠ 2 ^ f.eb - 1

/-- The largest finite number of a format (R62), and the number half an ulp above it, from which rounding to nearest overflows. -/
def Sys2Proof.Claim.maxOf (f : Fmt) : ℚ := (2 - (2 : ℚ) ^ (-(f.mb : Int))) * (2 : ℚ) ^ (2 ^ (f.eb - 1) - 1)
def Sys2Proof.Claim.overOf (f : Fmt) : ℚ := (2 - (2 : ℚ) ^ (-(f.mb : Int) - 1)) * (2 : ℚ) ^ (2 ^ (f.eb - 1) - 1)

/-- `y` is the encoding to which rounding mode `rm` (codes 1 .rn, 2 .rz, 3 .rp, 4 .rm, 5 .ra) takes the exact number `x`, with
subnormals kept (R65). -/
def Sys2Proof.Claim.Rounded (f : Fmt) (rm : Nat) (x : ℝ) (y : Nat) : Prop :=
  let v (z : Nat) : ℝ := finOf f z
  y < 2 ^ f.width ∧
  (isFin f y → ∀ z, isFin f z → match rm with
    | 1 => |x - v y| ≤ |x - v z| ∧ (|x - v y| = |x - v z| → v z ≠ v y → y % 2 = 0)
    | 2 => |v y| ≤ |x| ∧ 0 ≤ x * v y ∧ (|v z| ≤ |x| → 0 ≤ x * v z → |v z| ≤ |v y|)
    | 3 => x ≤ v y ∧ (x ≤ v z → v y ≤ v z)
    | 4 => v y ≤ x ∧ (v z ≤ x → v z ≤ v y)
    | _ => |x - v y| ≤ |x - v z| ∧ (|x - v y| = |x - v z| → |v z| ≤ |v y|)) ∧
  (¬isFin f y → fracOf f y = 0 ∧ (2 ^ (f.eb + f.mb) ≤ y ↔ x < 0)) ∧
  (isFin f y ↔ match rm with
    | 2 => True
    | 3 => x ≤ maxOf f
    | 4 => -(maxOf f : ℝ) ≤ x
    | _ => |x| < overOf f)

/-- R65, R81, R83 with subnormals kept: the encoding of an exact dyadic number is the one its rounding mode chooses, with the number's sign;
NX is raised exactly when it differs from the number, OF on an infinity; under CSAT the largest finite number stands for an infinity;
under flush a subnormal result becomes a zero of its sign with UF and NX. VFADD, VFSUB, VFMUL, VFMA, VFDIV and VFSQRT of finite sources round
the exact result so; an exact zero sum of opposite signs is +0, under .rm −0. -/
def Sys2Proof.Claim.RoundingChooses : Prop :=
  ∀ (f : Fmt), f ∈ [fp32, fp16, bf16] →
    (∀ (rm : Nat) (sg : Bool) (m : Nat) (e : Int), 1 ≤ rm → rm ≤ 5 →
      let x : ℚ := (if sg then -1 else 1) * m * (2 : ℚ) ^ e
      let r := f.round rm false false sg m e false
      Rounded f rm x r.1 ∧ (2 ^ (f.eb + f.mb) ≤ r.1 ↔ sg = true) ∧
      (r.2.getLsbD 4 = true ↔ ¬(isFin f r.1 ∧ finOf f r.1 = x)) ∧ (¬isFin f r.1 → r.2.getLsbD 2 = true) ∧
      (|x| ≤ maxOf f → r.2.getLsbD 2 = false) ∧
      (f.round rm false true sg m e false).1 =
        (if expOf f r.1 = 2 ^ f.eb - 1 then (if sg then 2 ^ (f.eb + f.mb) else 0) + (2 ^ f.eb - 1) * 2 ^ f.mb - 1 else r.1) ∧
      (expOf f r.1 = 0 → m ≠ 0 → f.round rm true false sg m e false = (if sg then 2 ^ (f.eb + f.mb) else 0, fUF ||| fNX))) ∧
    (∀ (v : FEnv) (a b c : Nat), 1 ≤ v.rm → v.rm ≤ 5 → v.f32sub = false → v.h16sub = false → isFin f a → isFin f b → isFin f c →
      let A := f.read false a
      let B := f.read false b
      let C := f.read false c
      let x := finOf f a
      let y := finOf f b
      Rounded f v.rm (x + y : ℚ) (f.add v A B).1 ∧ Rounded f v.rm (x - y : ℚ) (f.sub v A B).1 ∧
      Rounded f v.rm (x * y : ℚ) (f.mul v A B).1 ∧ Rounded f v.rm (x * y + finOf f c : ℚ) (f.fma v A B C).1 ∧
      (y ≠ 0 → Rounded f v.rm (x / y : ℚ) (f.div v A B).1) ∧ (0 ≤ x → Rounded f v.rm (Real.sqrt x) (f.sqrt v A).1) ∧
      (x + y = 0 → (2 ^ (f.eb + f.mb) ≤ a ↔ b < 2 ^ (f.eb + f.mb)) →
        (f.add v A B).1 = if v.rm = 4 then 2 ^ (f.eb + f.mb) else 0))

/-- R88, R89: the special functions complete in every selected lane; their results at NaN, infinities and zeros are the table's, whatever
RND holds. The bounded results between are the model's confined value (log entry 4). -/
def Obligations.SpecialFunctions : Prop :=
  ∀ (s : State) (k : Nat) (w : Wave) (fr : Frag), Issues s k w fr → ∀ (h : Hdr) (r : Rnd) (d a : VOp),
    let X (l : Nat) : Nat := (inA s w a l).toNat
    let Is (i : Instr) (f : Sfu) (table : List (Nat × Nat)) : Prop :=
      ∃ z, exec i s = .next z ∧
        LaneWrites s k w fr h 8 d (fun l v =>
            v = (f.apply (envOf w r) (inA s w a l)).1 ∧ (∀ p ∈ table, X l = p.1 → v.toNat = p.2) ∧
            (isNaN fp32 (X l) → modeNanm w.mode = false → v.toNat = 0x7FC00000))
          (fun l i => (f.apply (envOf w r) (inA s w a l)).2.getLsbD i = true) z
    Is (.vfrcp h r d a) .rcp [(0, 0x7F800000), (0x80000000, 0xFF800000), (0x7F800000, 0), (0xFF800000, 0x80000000)] ∧
    Is (.vfrsq h r d a) .rsq [(0, 0x7F800000), (0x80000000, 0xFF800000), (0x7F800000, 0), (0xFF800000, 0x7FC00000)] ∧
    Is (.vfexp h r d a) .exp [(0, 0x3F800000), (0x80000000, 0x3F800000), (0x7F800000, 0x7F800000), (0xFF800000, 0)] ∧
    Is (.vfexp2 h r d a) .exp2 [(0, 0x3F800000), (0x80000000, 0x3F800000), (0x7F800000, 0x7F800000), (0xFF800000, 0), (0x3F800000, 0x40000000)] ∧
    Is (.vflog2 h r d a) .log2 [(0, 0xFF800000), (0x80000000, 0xFF800000), (0x7F800000, 0x7F800000), (0xFF800000, 0x7FC00000), (0x3F800000, 0), (0x41000000, 0x40400000)] ∧
    Is (.vfsin h r d a) .sin [(0, 0), (0x80000000, 0x80000000), (0x7F800000, 0x7FC00000), (0xFF800000, 0x7FC00000)] ∧
    Is (.vfcos h r d a) .cos [(0, 0x3F800000), (0x80000000, 0x3F800000), (0x7F800000, 0x7FC00000), (0xFF800000, 0x7FC00000)] ∧
    Is (.vftanh h r d a) .tanh [(0, 0), (0x80000000, 0x80000000), (0x7F800000, 0x3F800000), (0xFF800000, 0xBF800000)]

/-- A magnitude beyond which a result of a format overflows in a rounding mode (R65). -/
def Sys2Proof.Claim.Overflows (f : Fmt) (rm : Nat) (x : ℝ) : Prop :=
  let top : ℝ := 2 ^ (2 ^ (f.eb - 1))
  match rm with
  | 2 => top ≤ |x|
  | 3 => (maxOf f : ℝ) < x ∨ x ≤ -top
  | 4 => x < -(maxOf f : ℝ) ∨ top ≤ x
  | _ => (overOf f : ℝ) ≤ |x|

/-- A number that is tiny after rounding: below the least normal number of the format when it is rounded with an unbounded exponent (R57, R63). -/
def Sys2Proof.Claim.Tiny (f : Fmt) (rm : Nat) (x : ℝ) : Prop :=
  let least : ℝ := (2 : ℝ) ^ (2 - (2 ^ (f.eb - 1) : Nat) : Int)
  let ulp : ℝ := least * (2 : ℝ) ^ (-(f.mb : Int) - 1)
  x ≠ 0 ∧ match rm with
  | 2 => |x| < least
  | 3 => -least < x ∧ x ≤ least - ulp
  | 4 => ulp - least ≤ x ∧ x < least
  | _ => |x| < least - ulp / 2

/-- `y` is RoundTo of the exact number `x` (R63, R65, R81): the encoding that the mode chooses, a zero of its sign for a tiny one under flush, the largest
finite number for an infinity under CSAT. -/
def Sys2Proof.Claim.RoundsTo (f : Fmt) (flush csat : Bool) (rm : Nat) (x : ℝ) (y : Nat) : Prop :=
  (flush = true ∧ Tiny f rm x → y = if x < 0 then 2 ^ (f.eb + f.mb) else 0) ∧
  (¬(flush = true ∧ Tiny f rm x) → ∃ r, Rounded f rm x r ∧ y = if csat = true ∧ ¬isFin f r then r - 1 else r) ∧
  (x ≠ 0 → (2 ^ (f.eb + f.mb) ≤ y ↔ x < 0))

/-- The flags of RoundTo: 2 OF, 3 UF, 4 NX (R57, R63, R65). -/
def Sys2Proof.Claim.RoundFlag (f : Fmt) (flush : Bool) (rm : Nat) (x : ℝ) (i : Nat) : Prop :=
  let inexact : Prop := ∀ y, isFin f y → (finOf f y : ℝ) ≠ x
  (i = 2 ∧ Overflows f rm x) ∨ (i = 3 ∧ Tiny f rm x ∧ (flush = true ∨ inexact)) ∨ (i = 4 ∧ ((flush = true ∧ Tiny f rm x) ∨ inexact))

/-- `n` is the integer to which a rounding mode takes `x` (R65). -/
def Sys2Proof.Claim.IntOf (rm : Nat) (x : ℚ) (n : Int) : Prop :=
  match rm with
  | 2 => |(n : ℚ)| ≤ |x| ∧ |x| < |(n : ℚ)| + 1 ∧ 0 ≤ x * n
  | 3 => x ≤ n ∧ (n : ℚ) < x + 1
  | 4 => (n : ℚ) ≤ x ∧ x < n + 1
  | 5 => |x - n| ≤ 1 / 2 ∧ (|x - n| = 1 / 2 → |x| < |(n : ℚ)|)
  | _ => |x - n| ≤ 1 / 2 ∧ (|x - n| = 1 / 2 → n % 2 = 0)

/-- Encodings of infinities, of negative sign, and the infinity of a sign (R62). -/
abbrev Sys2Proof.Claim.isInf (f : Fmt) (x : Nat) : Prop := expOf f x = 2 ^ f.eb - 1 ∧ fracOf f x = 0
abbrev Sys2Proof.Claim.isNeg (f : Fmt) (x : Nat) : Prop := 2 ^ (f.eb + f.mb) ≤ x
abbrev Sys2Proof.Claim.infOf (f : Fmt) (neg : Prop) [Decidable neg] : Nat := (if neg then 2 ^ (f.eb + f.mb) else 0) + (2 ^ f.eb - 1) * 2 ^ f.mb

/-- The number that Src reads from a finite encoding: a subnormal is zero where the format's subnormals are flushed (R63, R81). -/
def Sys2Proof.Claim.readOf (v : FEnv) (f : Fmt) (x : Nat) : ℚ := if v.flush f = true ∧ expOf f x = 0 then 0 else finOf f x

/-- `y` is the conversion of the encoding `x` from one format to another (R64, R91), `csat` telling whether CSAT bears on it. -/
def Sys2Proof.Claim.Converts (v : FEnv) (src dst : Fmt) (x y : Nat) : Prop :=
  (isNaN src x → v.nanm = false → y = canonicalNaN dst) ∧
  (isNaN src x → v.nanm = true →
    let q := if isQuiet src x then fracOf src x else fracOf src x + 2 ^ (src.mb - 1)
    y = infOf dst (isNeg src x) + if dst.mb ≤ src.mb then q / 2 ^ (src.mb - dst.mb) else q * 2 ^ (dst.mb - src.mb)) ∧
  (isInf src x → y = infOf dst (isNeg src x)) ∧
  (isFin src x → RoundsTo dst (v.flush dst) v.csat v.rm (readOf v src x : ℝ) y ∧ (isNeg dst y ↔ isNeg src x))

/-- The flags of a conversion: 0 NV for a signalling NaN, those of RoundTo for a number. -/
def Sys2Proof.Claim.ConvertFlag (v : FEnv) (src dst : Fmt) (x i : Nat) : Prop :=
  (i = 0 ∧ isNaN src x ∧ ¬isQuiet src x) ∨ (isFin src x ∧ RoundFlag dst (v.flush dst) v.rm (readOf v src x : ℝ) i)

/-- R91 to R93: VCVT between integers brings the number into the destination's range with SAT; to an integer it rounds by the mode and clamps, a NaN gives 0, +∞ the
greatest and −∞ the least number, with NV, and NX where a number in range is rounded; to a float it rounds once; VPACK puts the conversions of A and B
in the halves, VUNPACK widens half E, and VDOT2 rounds c + a0 b0 + a1 b1 once, an infinity among the terms gives that infinity, and opposite ones or 0 × ∞ the canonical NaN
with NV. All complete in every selected lane. Which flags VDOT2 raises beside a NaN source is the model's reading (log entry 73). -/
def Sys2Proof.Claim.ConvertValues : Prop :=
  ∀ (s : State) (k : Nat) (w : Wave) (fr : Frag), Issues s k w fr → ∀ (h : Hdr) (r : Rnd) (td ts t : Ty) (e : Bool) (d a b c : VOp),
    let v := envOf w r
    let A := inA s w a
    let B := inB s w b
    (isIntTy ts → isIntTy td → ∃ z, exec (.vcvt h r td ts d a) s = .next z ∧
      LaneWrites s k w fr h 8 d
        (fun l y => elemInt td y 0 = max (lowest td) (min (greatest td) (elemInt ts (A l) 0)) ∧ y = extended td y)
        (fun l i => i = 7 ∧ (elemInt ts (A l) 0 < lowest td ∨ greatest td < elemInt ts (A l) 0)) z) ∧
    (¬isIntTy ts → isIntTy td →
      let F := fmtOf ts
      let x (l : Nat) := encAt ts (A l) 0
      ∃ z, exec (.vcvt h r td ts d a) s = .next z ∧ LaneWrites s k w fr h 8 d (fun l y =>
          (isNaN F (x l) → elemInt td y 0 = 0) ∧
          (isInf F (x l) → elemInt td y 0 = if isNeg F (x l) then lowest td else greatest td) ∧
          (isFin F (x l) → ∀ n, IntOf v.rm (readOf v F (x l)) n → elemInt td y 0 = max (lowest td) (min (greatest td) n)) ∧
          y = extended td y)
        (fun l i => (i = 0 ∧ (¬isFin F (x l) ∨ ∃ n, IntOf v.rm (readOf v F (x l)) n ∧ (n < lowest td ∨ greatest td < n))) ∨
          (i = 4 ∧ isFin F (x l) ∧ ∃ n, IntOf v.rm (readOf v F (x l)) n ∧ lowest td ≤ n ∧ n ≤ greatest td ∧ (n : ℚ) ≠ readOf v F (x l))) z) ∧
    (1 ≤ v.rm → v.rm ≤ 5 → isIntTy ts → ¬isIntTy td →
      let F := fmtOf td
      let x (l : Nat) : ℝ := elemInt ts (A l) 0
      ∃ z, exec (.vcvt h r td ts d a) s = .next z ∧
        LaneWrites s k w fr h 8 d (fun l y => RoundsTo F (v.flush F) v.csat v.rm (x l) y.toNat ∧ (x l = 0 → y = 0))
          (fun l i => RoundFlag F (v.flush F) v.rm (x l) i) z) ∧
    (1 ≤ v.rm → v.rm ≤ 5 → ¬isIntTy ts → ¬isIntTy td → ∃ z, exec (.vcvt h r td ts d a) s = .next z ∧
      LaneWrites s k w fr h 8 d (fun l y => Converts v (fmtOf ts) (fmtOf td) (encAt ts (A l) 0) y.toNat)
        (fun l i => ConvertFlag v (fmtOf ts) (fmtOf td) (encAt ts (A l) 0) i) z) ∧
    (1 ≤ v.rm → v.rm ≤ 5 →
      let F := fmtOf t
      ∃ z, exec (.vpack h r t d a b) s = .next z ∧
        LaneWrites s k w fr h 8 d
          (fun l y => ∃ lo hi, Converts v fp32 F (A l).toNat lo ∧ Converts v fp32 F (B l).toNat hi ∧ y.toNat = (lo + hi * 2 ^ F.width) % 2 ^ 32)
          (fun l i => ConvertFlag v fp32 F (A l).toNat i ∨ ConvertFlag v fp32 F (B l).toNat i) z) ∧
    (1 ≤ v.rm → v.rm ≤ 5 →
      let x (l : Nat) := encAt t (A l) (if e then 1 else 0)
      ∃ z, exec (.vunpack h r t e d a) s = .next z ∧
        LaneWrites s k w fr h 8 d (fun l y => Converts v (fmtOf t) fp32 (x l) y.toNat) (fun l i => ConvertFlag v (fmtOf t) fp32 (x l) i) z) ∧
    (1 ≤ v.rm → v.rm ≤ 5 →
      let F := fmtOf t
      let p (l e : Nat) := encAt t (A l) e
      let q (l e : Nat) := encAt t (B l) e
      let u (l : Nat) := (inC s w c l).toNat
      let nan (l : Nat) : Prop := isNaN fp32 (u l) ∨ ∃ e, e < 2 ∧ (isNaN F (p l e) ∨ isNaN F (q l e))
      let signalling (l : Nat) : Prop := (isNaN fp32 (u l) ∧ ¬isQuiet fp32 (u l)) ∨
        ∃ e, e < 2 ∧ ((isNaN F (p l e) ∧ ¬isQuiet F (p l e)) ∨ (isNaN F (q l e) ∧ ¬isQuiet F (q l e)))
      let zeroInf (x y : Nat) : Prop := isFin F x ∧ readOf v F x = 0 ∧ isInf F y
      let bad (l : Nat) : Prop := ∃ e, e < 2 ∧ (zeroInf (p l e) (q l e) ∨ zeroInf (q l e) (p l e))
      let neg (l e : Nat) : Prop := ¬(isNeg F (p l e) ↔ isNeg F (q l e))
      let infs (l : Nat) (sg : Prop) : Prop := (isInf fp32 (u l) ∧ (isNeg fp32 (u l) ↔ sg)) ∨
        ∃ e, e < 2 ∧ (isInf F (p l e) ∨ isInf F (q l e)) ∧ (neg l e ↔ sg)
      let sum (l : Nat) : ℚ := readOf v fp32 (u l) + readOf v F (p l 0) * readOf v F (q l 0) + readOf v F (p l 1) * readOf v F (q l 1)
      let finite (l : Nat) : Prop := isFin fp32 (u l) ∧ ∀ e, e < 2 → isFin F (p l e) ∧ isFin F (q l e)
      let minus (l : Nat) : Prop := (isNeg fp32 (u l) ∧ neg l 0 ∧ neg l 1) ∨
        (v.rm = 4 ∧ ¬(¬isNeg fp32 (u l) ∧ ¬neg l 0 ∧ ¬neg l 1))
      ∃ z, exec (.vdot2 h r t d a b c) s = .next z ∧
        LaneWrites s k w fr h 16 d
          (fun l y => (nan l → v.nanm = false → y.toNat = canonicalNaN fp32) ∧
            (¬nan l → bad l ∨ (infs l True ∧ infs l False) → y.toNat = canonicalNaN fp32) ∧
            (¬nan l → ¬bad l → infs l False → ¬infs l True → y = 0x7F800000) ∧
            (¬nan l → ¬bad l → infs l True → ¬infs l False → y = 0xFF800000) ∧
            (finite l → RoundsTo fp32 v.f32sub false v.rm (sum l : ℝ) y.toNat ∧ (sum l = 0 → (minus l → y = 0x80000000) ∧ (¬minus l → y = 0))))
          (fun l i => (i = 0 ∧ (signalling l ∨ bad l ∨ (¬nan l ∧ infs l True ∧ infs l False))) ∨
            (finite l ∧ RoundFlag fp32 v.f32sub v.rm (sum l : ℝ) i)) z)

/-- R83, R87: VFRINT gives the integer that the mode chooses with the source's sign, an infinity and a zero as they are, NX with X = 1 where it differs; an infinity
among the sources of VFADD, VFSUB, VFMUL, VFMA, VFDIV or VFSQRT gives the infinity, the zero or the NaN with NV that IEEE 754 gives; a number over zero is an infinity with DZ. -/
def Sys2Proof.Claim.FloatEdges : Prop :=
  ∀ (s : State) (k : Nat) (w : Wave) (fr : Frag), Issues s k w fr → ∀ (h : Hdr) (r : Rnd) (t : Ty) (x : Bool) (d a b c : VOp),
    t ∈ [Ty.f32, .f16, .bf16, .pf16, .pbf16] →
    let v := envOf w r
    let F := fmtOf t
    let Is (i : Instr) (u : Ty) (R : Nat → Nat → Nat → (Nat → Prop) → Prop) : Prop :=
      ∃ z w', exec i s = .next z ∧ kfind z.waves k = some w' ∧
        ∀ l e, Picked s w fr h.g l → e < fElems u → R l e (encAt u (w'.vraw (VOp.field d) l) e) fun i => w'.flagsAll.getLsbD i = true
    let A (u : Ty) (l e : Nat) := encAt u (inA s w a l) e
    let B (u : Ty) (l e : Nat) := encAt u (inB s w b l) e
    let C (l e : Nat) := encAt t (inC s w c l) e
    let zero (f : Fmt) (y : Nat) : Prop := isFin f y ∧ readOf v f y = 0
    let signs (f : Fmt) (y z : Nat) : Prop := ¬(isNeg f y ↔ isNeg f z)
    let zeroOf (f : Fmt) (neg : Prop) (y : Nat) : Prop := (neg → y = 2 ^ (f.eb + f.mb)) ∧ (¬neg → y = 0)
    let inf (f : Fmt) (neg : Prop) (y : Nat) : Prop := isInf f y ∧ (isNeg f y ↔ neg)
    let bad (f : Fmt) (y : Nat) (flag : Nat → Prop) : Prop := y = canonicalNaN f ∧ flag 0
    let plus (y z : Nat) (sub : Bool) (o : Nat) (flag : Nat → Prop) : Prop :=
      let opposite : Prop := if sub then (isNeg F y ↔ isNeg F z) else signs F y z
      ¬isNaN F y → ¬isNaN F z →
        (isInf F y → isInf F z → opposite → bad F o flag) ∧ (isInf F y → ¬(isInf F z ∧ opposite) → o = y) ∧
        (¬isInf F y → isInf F z → inf F (if sub then ¬isNeg F z else isNeg F z) o)
    Is (.vfrint h r t x d a) t (fun l e o flag => ¬isNaN F (A t l e) →
      (isInf F (A t l e) → o = A t l e) ∧
      (isFin F (A t l e) → isFin F o ∧ (isNeg F o ↔ isNeg F (A t l e)) ∧ ∀ n, IntOf v.rm (readOf v F (A t l e)) n → finOf F o = n ∧
        (x = true → (n : ℚ) ≠ readOf v F (A t l e) → flag 4))) ∧
    Is (.vfadd h r t d a b) t (fun l e o flag => plus (A t l e) (B t l e) false o flag) ∧
    Is (.vfsub h r t d a b) t (fun l e o flag => plus (A t l e) (B t l e) true o flag) ∧
    Is (.vfmul h r t d a b) t (fun l e o flag => ¬isNaN F (A t l e) → ¬isNaN F (B t l e) →
      ((isInf F (A t l e) ∧ zero F (B t l e)) ∨ (zero F (A t l e) ∧ isInf F (B t l e)) → bad F o flag) ∧
      ((isInf F (A t l e) ∧ ¬zero F (B t l e)) ∨ (¬zero F (A t l e) ∧ isInf F (B t l e)) → inf F (signs F (A t l e) (B t l e)) o)) ∧
    Is (.vfma h r t d a b c) t (fun l e o flag =>
      let none_ : Prop := ¬isNaN F (A t l e) ∧ ¬isNaN F (B t l e)
      let wrong : Prop := (isInf F (A t l e) ∧ zero F (B t l e)) ∨ (zero F (A t l e) ∧ isInf F (B t l e))
      let big : Prop := isInf F (A t l e) ∨ isInf F (B t l e)
      (none_ → wrong → flag 0 ∧ (¬isNaN F (C l e) → o = canonicalNaN F)) ∧
      (none_ → ¬isNaN F (C l e) → ¬wrong → big →
        (isInf F (C l e) → ¬(signs F (A t l e) (B t l e) ↔ isNeg F (C l e)) → bad F o flag) ∧
        (¬(isInf F (C l e) ∧ ¬(signs F (A t l e) (B t l e) ↔ isNeg F (C l e))) → inf F (signs F (A t l e) (B t l e)) o)) ∧
      (none_ → ¬big → isInf F (C l e) → o = C l e)) ∧
    Is (.vfdiv h r d a b) .f32 (fun l e o flag => ¬isNaN fp32 (A .f32 l e) → ¬isNaN fp32 (B .f32 l e) →
      let opp := signs fp32 (A .f32 l e) (B .f32 l e)
      ((isInf fp32 (A .f32 l e) ∧ isInf fp32 (B .f32 l e)) ∨ (zero fp32 (A .f32 l e) ∧ zero fp32 (B .f32 l e)) → bad fp32 o flag) ∧
      (isInf fp32 (A .f32 l e) → ¬isInf fp32 (B .f32 l e) → inf fp32 opp o) ∧
      (¬isInf fp32 (A .f32 l e) → isInf fp32 (B .f32 l e) → zeroOf fp32 opp o) ∧
      (isFin fp32 (A .f32 l e) → ¬zero fp32 (A .f32 l e) → zero fp32 (B .f32 l e) → inf fp32 opp o ∧ flag 1)) ∧
    Is (.vfsqrt h r d a) .f32 (fun l e o flag => ¬isNaN fp32 (A .f32 l e) →
      (isNeg fp32 (A .f32 l e) → ¬zero fp32 (A .f32 l e) → bad fp32 o flag) ∧
      (zero fp32 (A .f32 l e) → zeroOf fp32 (isNeg fp32 (A .f32 l e)) o) ∧
      (isInf fp32 (A .f32 l e) → ¬isNeg fp32 (A .f32 l e) → o = A .f32 l e))

/-- The root of a binary tree of 2^n positions, of which some hold a value: two values combine by `f`, one stands for itself (R122). -/
def Sys2Proof.Claim.rootOf (f : Word → Word → Word) : Nat → (Nat → Option Word) → Option Word
  | 0, g => g 0
  | n + 1, g => rootOf f n fun i =>
    match g (2 * i), g (2 * i + 1) with
    | some x, some y => some (f x y)
    | some x, none => some x
    | none, y => y

/-- R122: VRED.add of f32 writes in each selected lane the root of the fixed tree over its tile's positions, of which the selected lanes' are held, each sum rounded
to FP32 by %mode. -/
def Sys2Proof.Claim.ReduceTree : Prop :=
  ∀ (s : State) (k : Nat) (w : Wave) (fr : Frag), Issues s k w fr → w.lpart ≤ 5 → ∀ (h : Hdr) (d a : VOp),
    let v := envOf w .mode
    let z := 32 / 2 ^ w.lpart
    let sum (x y : Word) : Word := BitVec.ofNat 32 (fp32.add v (srcAt v .f32 x 0) (srcAt v .f32 y 0)).1
    ∃ u w', exec (.vred h .f32 .add d a) s = .next u ∧ kfind u.waves k = some w' ∧ ∀ l, Picked s w fr h.g l →
      let base := l / z * z
      some (w'.vraw (VOp.field d) l) = rootOf sum (5 - w.lpart) fun j =>
        if (sel s w fr h.g).getLsbD (base + j) = true then some (inA s w a (base + j)) else none

/-! ### Selection, movement and exchange (R95 to R100, R118 to R123) -/

/-- R97, R98: VSEL takes A where p[N] holds (p7 always), VMOV copies, VMOVI writes its immediate, S2V broadcasts s(A) or spreads s(A + L);
V2S writes A of lane M to a scalar, M the lowest selected lane or s(B)[4:0], and with no lane selected only goes on. -/
def Sys2Proof.Claim.Moves : Prop :=
  ∀ (s : State) (k : Nat) (w : Wave) (fr : Frag), Issues s k w fr → ∀ (h : Hdr) (t : Ty) (d a b : VOp) (n sd sa sb : Nat) (imm : Word),
    let Is (i : Instr) (len : Nat) (val : Nat → Word) : Prop :=
      ∃ z, exec i s = .next z ∧ LaneWrites s k w fr h len d (fun l v => v = val l) quiet z
    Is (.vsel h n d a b) 8 (fun l => if n = 7 ∨ rdP s w 5 n l = true then inA s w a l else inB s w b l) ∧
    Is (.vmov h d a) 8 (inA s w a) ∧
    Is (.vmovi h t d imm) 16 (fun _ => imm) ∧
    Is (.s2v h false d sa) 8 (fun _ => rdS s w 1 sa) ∧
    Is (.s2v h true d sa) 8 (fun l => rdS s w 1 (sa + l)) ∧
    (∀ m, Picked s w fr h.g m → (∀ l, Picked s w fr h.g l → m ≤ l) →
      ∃ z, exec (.v2s h sd a none) s = .next z ∧ ScalarWrites s k w fr h.lat 8 sd (inA s w a m) (fun _ => False) z) ∧
    ((∃ m, Picked s w fr h.g m) →
      ∃ z, exec (.v2s h sd a (some sb)) s = .next z ∧
        ScalarWrites s k w fr h.lat 8 sd (inA s w a ((rdS s w 2 sb).toNat % 32)) (fun _ => False) z) ∧
    (∀ o, (¬∃ m, Picked s w fr h.g m) →
      ∃ z, exec (.v2s h sd a o) s = .next z ∧ OnlyWave s k { w with frags := at_ w fr (pcAdd fr.pc 8) } z)

/-- R95: VCMPRS keeps two distinct elements in ascending index order, each at least as large as every element left out and, where equal, of
a lower index; the index mask has just their bits. -/
def Sys2Proof.Claim.Compress : Prop :=
  ∀ (s : State) (k : Nat) (w : Wave) (fr : Frag), Issues s k w fr → ∀ (h : Hdr) (a b : VOp) (d : VOp) (n : Nat),
    let Keeps (key : Nat → Nat) (i j : Nat) : Prop :=
      i < j ∧ j < 4 ∧ ∀ x, (x = i ∨ x = j) → ∀ y, y < 4 → y ≠ i → y ≠ j → key y < key x ∨ (key y = key x ∧ x < y)
    (let el (l i : Nat) : BitVec 8 := slice 8 i (inA s w a l)
     ∃ z, exec (.vcmprs h .i8 d a none) s = .next z ∧
      LaneWrites s k w fr h 8 d (fun l v => ∃ i j, Keeps (fun x => (el l x).toInt.natAbs) i j ∧
        slice 8 0 v = el l i ∧ slice 8 1 v = el l j ∧ v.toNat / 2 ^ 16 = 2 ^ i + 2 ^ j) quiet z) ∧
    (∀ t, t = .pf16 ∨ t = .pbf16 →
     let el (l i : Nat) : BitVec 16 := if i < 2 then slice 16 i (inA s w a l) else slice 16 (i - 2) (inB s w b l)
     let key (l i : Nat) : Nat :=
       if isNaN (fmtOf t) (el l i).toNat then 0x8000 else (el l i).toNat % 2 ^ 15
     ∃ z w', exec (.vcmprs h t (.v n) a (some b)) s = .next z ∧ OnlyWave s k w' z ∧
      (∀ l, Picked s w fr h.g l → ∃ i j, Keeps (key l) i j ∧
        slice 16 0 (w'.vraw n l) = el l i ∧ slice 16 1 (w'.vraw n l) = el l j ∧ (w'.vraw (n + 1) l).toNat = 2 ^ i + 2 ^ j) ∧
      (∀ f l, l < 32 → ¬((f = n ∨ f = n + 1) ∧ Picked s w fr h.g l) → w'.vraw f l = w.vraw f l) ∧
      w' = { w with
        vreg := w'.vreg
        inflight := w.inflight ++ [n, n + 1].map fun f => { reg := .vec f, lanes := sel s w fr h.g, due := s.cycle + h.lat }
        frags := at_ w fr (pcAdd fr.pc 8) })

/-- Lane `j` is a selected lane of lane `l`'s tile (R118). -/
def Sys2Proof.Claim.InTile (s : State) (w : Wave) (fr : Frag) (g : Guard) (l j : Nat) : Prop :=
  Picked s w fr g j ∧ j / (32 / 2 ^ w.lpart) = l / (32 / 2 ^ w.lpart)

/-- R118 to R121: VSHFL reads the lane that its mode gives within the tile, VVOTE and VBAL combine a predicate over the tile's selected
lanes. -/
def Obligations.Exchange : Prop :=
  ∀ (s : State) (k : Nat) (w : Wave) (fr : Frag), Issues s k w fr → w.lpart ≤ 5 → ∀ (h : Hdr) (d a b : VOp) (p q : Nat),
    let z := 32 / 2 ^ w.lpart
    let base (l : Nat) : Nat := l / z * z
    let B (l : Nat) : Nat := (inB s w b l).toNat
    let Reads (m : ShflMode) (from_ : Nat → Nat) : Prop :=
      ∃ u, exec (.vshfl h m d a b) s = .next u ∧ LaneWrites s k w fr h 8 d (fun l v => v = inA s w a (from_ l)) quiet u
    let Votes (m : VoteMode) (V : Nat → Prop) : Prop :=
      ∃ u w', exec (.vvote h m p q) s = .next u ∧ OnlyWave s k w' u ∧
        (p < 7 → ∀ l, Picked s w fr h.g l → ((kget 0 w'.preds p).getLsbD l = true ↔ V l)) ∧
        (∀ x l, l < 32 → ¬(x = p ∧ p < 7 ∧ Picked s w fr h.g l) → (kget 0 w'.preds x).getLsbD l = (kget 0 w.preds x).getLsbD l) ∧
        w' = { w with
          preds := w'.preds
          inflight := w.inflight ++ [{ reg := .pred p, lanes := sel s w fr h.g, due := s.cycle + h.lat }]
          frags := at_ w fr (pcAdd fr.pc 8) }
    let P (j : Nat) : Bool := rdP s w 1 q j
    Reads .idx (fun l => base l + B l % z) ∧
    Reads .up (fun l => if B l ≤ l - base l then l - B l else l) ∧
    Reads .down (fun l => if l + B l < base l + z then l + B l else l) ∧
    Reads .xor (fun l => base l + ((l - base l) ^^^ (B l % z))) ∧
    Votes .any (fun l => ∃ j, InTile s w fr h.g l j ∧ P j = true) ∧
    Votes .all (fun l => ∀ j, InTile s w fr h.g l j → P j = true) ∧
    Votes .eq (fun l => (∀ j, InTile s w fr h.g l j → P j = true) ∨ ∀ j, InTile s w fr h.g l j → P j = false) ∧
    (∃ u, exec (.vbal h d q) s = .next u ∧
      LaneWrites s k w fr h 8 d (fun l v => ∀ i, i < 32 → (v.getLsbD i = true ↔
        i < z ∧ InTile s w fr h.g l (base l + i) ∧ P (base l + i) = true)) quiet u)

/-- The selected lanes of a lane's tile, ascending (R118). -/
def Sys2Proof.Claim.tileLanes (s : State) (w : Wave) (fr : Frag) (g : Guard) (l : Nat) : List Nat :=
  (List.range 32).filter fun j => (sel s w fr g).getLsbD j && j / (32 / 2 ^ w.lpart) == l / (32 / 2 ^ w.lpart)

/-- R122, R123 for integers: VRED writes in each selected lane the fold of its tile's selected lanes, VSCAN the fold of those up to the
lane or, exclusive, of those before it, with the identity in the tile's first. -/
def Sys2Proof.Claim.ReduceInteger : Prop :=
  ∀ (s : State) (k : Nat) (w : Wave) (fr : Frag), Issues s k w fr → w.lpart ≤ 5 → ∀ (h : Hdr) (t : Ty) (d a : VOp), t = .i32 ∨ t = .u32 →
    let A := inA s w a
    let n (x : Word) : Int := if t = .i32 then x.toInt else x.toNat
    let Is (i : Instr) (val : Nat → Word) : Prop := ∃ u, exec i s = .next u ∧ LaneWrites s k w fr h 8 d (fun l v => v = val l) quiet u
    let Q (l : Nat) := tileLanes s w fr h.g l
    ∀ op : RedOp,
      let f (x y : Word) : Word :=
        match op with
        | .add => x + y | .and => x &&& y | .or => x ||| y | .xor => x ^^^ y
        | .min => if n x ≤ n y then x else y
        | .max => if n x ≤ n y then y else x
      let e : Word :=
        match op with
        | .and => 0xFFFFFFFF
        | .min => if t = .i32 then 0x7FFFFFFF else 0xFFFFFFFF
        | .max => if t = .i32 then 0x80000000 else 0
        | _ => 0
      Is (.vred h t op d a) (fun l => ((Q l).map A).foldl f e) ∧
      Is (.vscan h t op false d a) (fun l => (((Q l).filter (· ≤ l)).map A).foldl f e) ∧
      Is (.vscan h t op true d a) (fun l => (((Q l).filter (· < l)).map A).foldl f e)

/-- R122, R123 for f32: VRED and VSCAN complete with the model's tree and folds (R122's fixed tree for add); the fold of a tile with one
selected lane is that lane's element bit for bit, with no flag. -/
def Sys2Proof.Claim.ReduceFloat : Prop :=
  ∀ (s : State) (k : Nat) (w : Wave) (fr : Frag), Issues s k w fr → w.lpart ≤ 5 → ∀ (h : Hdr) (op : RedOp) (excl : Bool) (d a : VOp),
    op ∈ [RedOp.add, .min, .max] →
    let v := envOf w .mode
    let z := 32 / 2 ^ w.lpart
    let A := inA s w a
    let Q (l : Nat) := tileLanes s w fr h.g l
    let red (l : Nat) := redTile v .f32 op z (l / z * z) (Q l) A
    let scan (l : Nat) := scanLane v .f32 op excl (Q l) A l
    (∃ u, exec (.vred h .f32 op d a) s = .next u ∧
      LaneWrites s k w fr h 8 d (fun l x => x = (red l).1 ∧ (Q l = [l] → x = A l)) (fun l i => (red l).2.getLsbD i = true) u) ∧
    (∃ u, exec (.vscan h .f32 op excl d a) s = .next u ∧
      LaneWrites s k w fr h 8 d (fun l x => x = (scan l).1 ∧ (excl = false → (Q l).head? = some l → x = A l))
        (fun l i => (scan l).2.getLsbD i = true) u) ∧
    (∀ l, Q l = [l] → (red l).2 = 0 ∧ (scan l).2 = 0)

/-- R45, R99, R100: a fused softmax sequence completes in one step of 32 bytes, which takes the issue cycles of its four words, with the
results that they give over landed results: the tile's maximum, the difference, its exponential and the tile's sum of the exponentials;
all land at most 31 cycles after the last word's issue; nothing but the four destinations, the flags, the pc and the cycle changes. How
many cycles lie between the four words is the model's free value (log entry 2). -/
def Obligations.FusedSoftmax : Prop :=
  ∀ (s : State) (k : Nat) (w : Wave) (fr : Frag), Issues s k w fr → w.lpart ≤ 5 → ∀ (f : FusedOps),
    let v := envOf w .mode
    let z := 32 / 2 ^ w.lpart
    let Q (l : Nat) := tileLanes s w fr f.g l
    let m (l : Nat) := redTile v .f32 .max z (l / z * z) (Q l) (inA s w f.a1)
    let y2 (l : Nat) : Word := if f.a2 = f.d1 then (m l).1 else inA s w f.a2 l
    let x (l : Nat) := fp32.sub (envOf w f.rnd2) (srcAt (envOf w f.rnd2) .f32 (y2 l) 0) (srcAt (envOf w f.rnd2) .f32 (m l).1 0)
    let e (l : Nat) := Sfu.exp.apply v (BitVec.ofNat 32 (x l).1)
    let r (l : Nat) := redTile v .f32 .add z (l / z * z) (Q l) fun j => (e j).1
    ∃ u w' last, exec (.fusedSoftmax f) s = .next u ∧ s.cycle + 3 ≤ last ∧ OnlyWave { s with cycle := last } k w' u ∧
      (∀ y l, l < 32 → (Picked s w fr f.g l →
        w'.vraw y l = if y = VOp.field f.d4 then (r l).1 else if y = VOp.field f.d3 then (e l).1
          else if y = VOp.field f.d2 then BitVec.ofNat 32 (x l).1 else if y = VOp.field f.d1 then (m l).1 else w.vraw y l) ∧
        (¬Picked s w fr f.g l → w'.vraw y l = w.vraw y l)) ∧
      Raises w w' (last + 31) (fun i => ∃ l, Picked s w fr f.g l ∧
        ((m l).2 ||| (x l).2 ||| (e l).2 ||| (r l).2).getLsbD i = true) ∧
      w' = { w with
        vreg := w'.vreg
        flagPend := w'.flagPend
        inflight := w.inflight ++ [f.d1, f.d2, f.d3, f.d4].map fun d => { reg := .vec (VOp.field d), lanes := sel s w fr f.g, due := last + 31 }
        frags := at_ w fr (pcAdd fr.pc 32) }

/-! ### Scalars, predicates and special registers (R104 to R106, R118, R124, R125) -/

/-- R105: the scalar integer, logic, shift, choice and move instructions write one scalar with the result of the lane instruction of the
same name on one value, and nothing else changes. -/
def Sys2Proof.Claim.ScalarInteger : Prop :=
  ∀ (s : State) (k : Nat) (w : Wave) (fr : Frag), Issues s k w fr → ∀ (lat : Nat) (t : Ty) (d a b n : Nat) (imm : Word), isIntTy t →
    let A := rdS s w 1 a
    let B := rdS s w 2 b
    let Is (i : Instr) (len : Nat) (R : Word → Prop) (F : Nat → Prop) : Prop :=
      ∃ z v, exec i s = .next z ∧ R v ∧ ScalarWrites s k w fr lat len d v F z
    let Wrap (i : Instr) (op : (n : Nat) → BitVec n → BitVec n → BitVec n → BitVec n) : Prop :=
      Is i 8 (WrapsTo t false op A B 0) (fun _ => False)
    let Sat (i : Instr) (f : Int → Int → Int → Int) : Prop := Is i 8 (SaturatesTo t false f A B 0) (satFlag t false f A B 0)
    let Val (i : Instr) (v : Word) : Prop := Is i 8 (· = v) (fun _ => False)
    let Bits (i : Instr) (f : Nat → Bool) : Prop := Is i 8 (bitsAre f) (fun _ => False)
    let m : Nat := B.toNat % 256
    Wrap (.sadd lat t false d a b) (fun _ x y _ => x + y) ∧ Sat (.sadd lat t true d a b) (fun x y _ => x + y) ∧
    Wrap (.ssub lat t false d a b) (fun _ x y _ => x - y) ∧ Sat (.ssub lat t true d a b) (fun x y _ => x - y) ∧
    Wrap (.smul lat t false d a b) (fun _ x y _ => x * y) ∧ Sat (.smul lat t true d a b) (fun x y _ => x * y) ∧
    Is (.smin lat t d a b) 8 (SaturatesTo t false (fun x y _ => min x y) A B 0) (fun _ => False) ∧
    Is (.smax lat t d a b) 8 (SaturatesTo t false (fun x y _ => max x y) A B 0) (fun _ => False) ∧
    Val (.smulh lat .i32 d a b) ((A.signExtend 64 * B.signExtend 64).extractLsb' 32 32) ∧
    Val (.smulh lat .u32 d a b) ((A.zeroExtend 64 * B.zeroExtend 64).extractLsb' 32 32) ∧
    Bits (.sand lat d a b) (fun i => A.getLsbD i && B.getLsbD i) ∧ Bits (.sor lat d a b) (fun i => A.getLsbD i || B.getLsbD i) ∧
    Bits (.sxor lat d a b) (fun i => A.getLsbD i != B.getLsbD i) ∧ Bits (.snot lat d a) (fun i => !A.getLsbD i) ∧
    Bits (.sshl lat d a b) (fun i => decide (m ≤ i) && A.getLsbD (i - m)) ∧ Bits (.sshr lat d a b) (fun i => A.getLsbD (i + m)) ∧
    Bits (.ssar lat d a b) (fun i => if i + m < 32 then A.getLsbD (i + m) else A.getLsbD 31) ∧
    Val (.smov lat d a) A ∧ Is (.smovi lat d imm) 16 (· = imm) (fun _ => False) ∧
    Val (.ssel lat d a b n) (if rdC s w 5 n then A else B)

/-- R105: SFADD, SFMUL and SCVT write one scalar with the lane instruction's result and flags; SCMP writes condition register c alone. -/
def Sys2Proof.Claim.ScalarFloatAndCompare : Prop :=
  ∀ (s : State) (k : Nat) (w : Wave) (fr : Frag), Issues s k w fr → ∀ (lat : Nat) (r : Rnd) (t td ts : Ty) (d a b c : Nat), c < 4 →
    let v := envOf w r
    let A := rdS s w 1 a
    let B := rdS s w 2 b
    let Is (i : Instr) (res : Word × Word) : Prop :=
      ∃ z, exec i s = .next z ∧ ScalarWrites s k w fr lat 8 d res.1 (fun i => res.2.getLsbD i = true) z
    let sum := fp32.add v (srcAt v .f32 A 0) (srcAt v .f32 B 0)
    let prod := fp32.mul v (srcAt v .f32 A 0) (srcAt v .f32 B 0)
    Is (.sfadd lat r d a b) (BitVec.ofNat 32 sum.1, sum.2) ∧ Is (.sfmul lat r d a b) (BitVec.ofNat 32 prod.1, prod.2) ∧
    Is (.scvt lat r td ts d a) (cvt v td ts A) ∧
    (∀ cc : SCond,
      let holds : Bool :=
        match cc with
        | .int i =>
          let x := elemInt t A 0
          let y := elemInt t B 0
          match i with
          | .eq => decide (x = y) | .ne => decide (x ≠ y) | .lt => decide (x < y)
          | .le => decide (x ≤ y) | .gt => decide (y < x) | .ge => decide (y ≤ x)
        | .flt f => fcmp f (srcAt (envOf w .mode) .f32 A 0) (srcAt (envOf w .mode) .f32 B 0)
      isIntTy t → ∃ z w', exec (.scmp lat t cc c a b) s = .next z ∧ OnlyWave s k w' z ∧
        (∀ i, i < 4 → w'.cond.getLsbD i = if i = c then holds else w.cond.getLsbD i) ∧
        w' = { w with
          cond := w'.cond
          flagPend := w'.flagPend
          inflight := w.inflight ++ [{ reg := .cond c, lanes := 1, due := s.cycle + lat }]
          frags := at_ w fr (pcAdd fr.pc 8) } ∧
        Raises w w' (s.cycle + lat) (fun i => ∃ f, cc = .flt f ∧ i = 0 ∧
          ((isNaN fp32 A.toNat ∧ ¬isQuiet fp32 A.toNat) ∨ (isNaN fp32 B.toNat ∧ ¬isQuiet fp32 B.toNat))))

/-- R106: the predicate instructions write each selected lane of pD, and a scalar's bit L with PBAL; p7 takes no write. -/
def Sys2Proof.Claim.PredicateLogic : Prop :=
  ∀ (s : State) (k : Nat) (w : Wave) (fr : Frag), Issues s k w fr → ∀ (h : Hdr) (d a b : Nat),
    let P (l : Nat) : Bool := rdP s w 1 a l
    let Q (l : Nat) : Bool := rdP s w 2 b l
    let Is (i : Instr) (V : Nat → Bool) : Prop := ∃ z, exec i s = .next z ∧ LaneTests s k w fr h d V quiet z
    Is (.pand h d a b) (fun l => P l && Q l) ∧ Is (.por h d a b) (fun l => P l || Q l) ∧ Is (.pxor h d a b) (fun l => P l != Q l) ∧
    Is (.pnot h d a) (fun l => !P l) ∧ Is (.pmov h d a) P ∧ Is (.pbal h d a) (fun l => (rdS s w 1 a).getLsbD l)

/-- R19, R52: a guard selects the live lanes in which its predicate differs from its negation, p7 reading 1 in every lane. -/
def Sys2Proof.Claim.GuardSelects : Prop :=
  ∀ (s : State) (w : Wave) (fr : Frag) (g : Guard) (l : Nat),
    ((sel s w fr g).getLsbD l = true ↔ Picked s w fr g l) ∧
    (g.p = 7 → ((sel s w fr g).getLsbD l = true ↔ l < 32 ∧ fr.mask.getLsbD l = true ∧ g.neg = false))

/-- R54, R124: SRD writes special register A to a scalar, to an even scalar pair, or to every live lane of a vector register; a read of
%flags (525) gives the flags that have landed, those whose latency has passed among them, and what it has seen stays landed (R58). -/
def Sys2Proof.Claim.ReadSpecial : Prop :=
  ∀ (s : State) (k : Nat) (w : Wave) (fr : Frag), Issues s k w fr → ∀ (lat : Nat) (dv : VOp) (ds a : Nat),
    (a ≠ 525 → ∃ z, exec (.srd lat .scalar dv ds a) s = .next z ∧ ScalarWrites s k w fr lat 8 ds (special s w fr a 0) (fun _ => False) z) ∧
    (a ≠ 525 → ∃ z w', exec (.srd lat .pair dv ds a) s = .next z ∧ OnlyWave s k w' z ∧
      (∀ n, w'.sraw n = if n = ds + 1 then special s w fr (a + 1) 0 else if n = ds then special s w fr a 0 else w.sraw n) ∧
      w' = { w with
        sreg := w'.sreg
        inflight := w.inflight ++ [{ reg := .sca ds, lanes := 1, due := s.cycle + lat }, { reg := .sca (ds + 1), lanes := 1, due := s.cycle + lat }]
        frags := at_ w fr (pcAdd fr.pc 8) }) ∧
    (a ≠ 525 → ∃ z, exec (.srd lat .vector dv ds a) s = .next z ∧
      LaneWrites s k w fr { lat, g := { p := 7, neg := false } } 8 dv (fun l v => v = special s w fr a l) quiet z) ∧
    (∃ z w', exec (.srd lat .scalar dv ds 525) s = .next z ∧ OnlyWave s k w' z ∧
      (∀ n, w'.sraw n = if n = ds then w'.flags else w.sraw n) ∧ w'.flagsAll = w.flagsAll ∧
      (∀ i, (w.flagsPast s.cycle).getLsbD i = true → w'.flags.getLsbD i = true) ∧
      w'.flagPend.Sublist w.flagPend ∧ (∀ p ∈ w'.flagPend, s.cycle ≤ p.2) ∧
      w' = { w with
        sreg := w'.sreg
        flags := w'.flags
        flagPend := w'.flagPend
        inflight := w.inflight ++ [{ reg := .sca ds, lanes := 1, due := s.cycle + lat }]
        frags := at_ w fr (pcAdd fr.pc 8) }) ∧
    special s w fr 512 0 = 0 ∧ (∀ l, l < 32 → (special s w fr 512 l).toNat = l) ∧ special s w fr 513 0 = BitVec.ofNat 32 w.idx ∧
    special s w fr 514 0 = BitVec.ofNat 32 fr.num ∧ special s w fr 523 0 = fr.mask ∧ special s w fr 524 0 = w.mode ∧
    special s w fr 526 0 = w.trapen ∧ special s w fr 527 0 = w.remain ∧ special s w fr 522 0 = BitVec.ofNat 32 w.lpart ∧
    (special s w fr 529 0 ++ special s w fr 528 0 = w.trapbase) ∧ (special s w fr 531 0 ++ special s w fr 530 0 = s.time)

/-- R12, R17, R57, R118, R125: SWR writes %mode, %trapen, %remain or %trapbase and SPART %part, each alone; a %flags write replaces the landed
flags. A value that R57 refuses traps with 128 plus the bit it names, RM before the zero field, and a %trapbase that is not canonical or not
aligned traps with kind 0x11, reason 1 before 3 (R12), with nothing written. The other special
registers are privileged; 528 and 529 without the pair form, and numbers that name no special register, are no legal words. -/
def Sys2Proof.Claim.WriteSpecial : Prop :=
  ∀ (s : State) (k : Nat) (w : Wave) (fr : Frag), Issues s k w fr → ∀ (a n : Nat),
    let v := rdS s w 1 a
    let x := rdS2 s w 1 a
    let on := at_ w fr (pcAdd fr.pc 8)
    (1 ≤ v.toNat % 8 → v.toNat % 8 ≤ 5 → v.toNat < 128 →
      ∃ z, exec (.swr false 524 a) s = .next z ∧ OnlyWave s k { w with mode := v, frags := on } z) ∧
    (v.toNat < 256 → ∃ z w', exec (.swr false 525 a) s = .next z ∧ OnlyWave s k w' z ∧
      w' = { w with flags := v, flagPend := w'.flagPend, frags := on } ∧ w'.flagPend.Sublist w.flagPend ∧
      ∀ p ∈ w'.flagPend, s.cycle ≤ p.2) ∧
    (v.toNat < 256 → ∃ z, exec (.swr false 526 a) s = .next z ∧ OnlyWave s k { w with trapen := v, frags := on } z) ∧
    (∃ z, exec (.swr false 527 a) s = .next z ∧ OnlyWave s k { w with remain := v, frags := on } z) ∧
    (x.toNat % 8 = 0 → (x.setWidth 57).signExtend 64 = x →
      ∃ z, exec (.swr true 528 a) s = .next z ∧ OnlyWave s k { w with trapbase := x, frags := on } z) ∧
    (∃ z, exec (.spart n) s = .next z ∧ OnlyWave s k { w with lpart := n, frags := on } z) ∧
    let Refuses (d i : Nat) : Prop := exec (.swr false d a) s = .next (takeTrap s k w fr { kind := 0x02, detail := 0x09 + 256 * (128 + i) })
    let lowestFrom (z i : Nat) : Prop := z ≤ i ∧ i < 32 ∧ v.getLsbD i = true ∧ ∀ j, z ≤ j → j < i → v.getLsbD j = false
    (v.toNat % 8 = 0 ∨ 5 < v.toNat % 8 → Refuses 524 0) ∧
    (1 ≤ v.toNat % 8 → v.toNat % 8 ≤ 5 → ∀ i, lowestFrom 7 i → Refuses 524 i) ∧ (∀ i, lowestFrom 8 i → Refuses 525 i ∧ Refuses 526 i) ∧
    (¬((x.setWidth 57).signExtend 64 = x ∧ x.toNat % 8 = 0) →
      exec (.swr true 528 a) s = .next (takeTrap s k w fr
        { kind := 0x11, addr := x.toNat, detail := if (x.setWidth 57).signExtend 64 = x then 3 else 1 })) ∧
    (∀ d, 512 ≤ d → d ≤ 531 → d ∉ [524, 525, 526, 527, 528, 529] →
      exec (.swr false d a) s = .next (takeTrap s k w fr { kind := 0x03, detail := 0x0B + 256 * (d - 512) })) ∧
    (∀ (c : Limits) (d : Nat), d < 2048 → a < 512 → ∃ y, encode (.swr false d a) = [y] ∧ ∀ y1, decodeThread c y y1 =
      if d < 512 ∨ (532 ≤ d ∧ d < 768) then .error { kind := 0x01, cause := 0x0A, hi := 0 }
      else if 768 ≤ d then .error { kind := 0x01, cause := 0x03, hi := 0 }
      else if d = 528 ∨ d = 529 then .error { kind := 0x01, cause := 0x07, hi := 1 }
      else .ok (.swr false d a))

/-! ### Control flow (R12, R55, R107 to R117) -/

/-- Fragment `fr` of wave `k` goes to `pc`, and nothing else of the machine changes. -/
abbrev Sys2Proof.Claim.Goes (s : State) (k : Nat) (w : Wave) (fr : Frag) (pc : DWord) (z : State) : Prop :=
  OnlyWave s k { w with frags := at_ w fr pc } z

/-- A transfer target that R107 accepts: canonical and a multiple of 8. -/
def Sys2Proof.Claim.GoodTarget (t : DWord) : Prop := t.toNat % 8 = 0 ∧ (t.setWidth 57).signExtend 64 = t

/-- The issuing fragment waits at its instruction for `l`, current no more; nothing else of the machine changes. -/
def Sys2Proof.Claim.Waits (s : State) (k : Nat) (w : Wave) (fr : Frag) (l : Wait) (z : State) : Prop :=
  OnlyWave s k { w with
    cur := if w.cur = some fr.num then none else w.cur
    frags := w.frags.map fun g => if g.num = fr.num then { g with st := .waiting l } else g } z

/-- R108: BRA, BRC, CALL, RET, LOOP and NOP move the fragment as the table of R108 says, CALL writes the link pair and LOOP its counter;
no other register, no other fragment and no memory changes. -/
def Sys2Proof.Claim.UniformControl : Prop :=
  ∀ (s : State) (k : Nat) (w : Wave) (fr : Frag), Issues s k w fr → ∀ (imm : Word) (n a d : Nat) (neg : Bool),
    let t := fr.pc + imm.signExtend 64
    let x := rdS s w 1 a - 1
    let ret := rdS2 s w 1 a
    let Writes (i : Instr) (pc : DWord) (R : (Nat → Word) → Prop) : Prop :=
      ∃ z w', exec i s = .next z ∧ OnlyWave s k w' z ∧ R w'.sraw ∧ w' = { w with sreg := w'.sreg, frags := at_ w fr pc }
    (∃ z, exec .nop s = .next z ∧ Goes s k w fr (pcAdd fr.pc 8) z) ∧
    (GoodTarget t →
      (∃ z, exec (.bra imm) s = .next z ∧ Goes s k w fr t z) ∧
      (∃ z, exec (.brc n neg imm) s = .next z ∧ Goes s k w fr (if rdC s w 5 n = neg then pcAdd fr.pc 16 else t) z) ∧
      Writes (.call d imm) t (fun r => r (d + 1) ++ r d = pcAdd fr.pc 16 ∧ ∀ m, m ≠ d → m ≠ d + 1 → r m = w.sraw m) ∧
      Writes (.loop a imm) (if x = 0 then pcAdd fr.pc 16 else t) (fun r => r a = x ∧ ∀ m, m ≠ a → r m = w.sraw m)) ∧
    (GoodTarget ret → ∃ z, exec (.ret a) s = .next z ∧ Goes s k w fr ret z)

/-- R107: a target that is not canonical, or not a multiple of 8, raises kind 0x11 with reason 1 or 3 at the branch, before any effect. -/
def Sys2Proof.Claim.BadTargetTraps : Prop :=
  ∀ (s : State) (k : Nat) (w : Wave) (fr : Frag), Issues s k w fr → ∀ (imm : Word) (n a d : Nat) (neg : Bool) (g : Guard) (tk : Nat),
    let Traps (i : Instr) (t : DWord) : Prop :=
      ¬GoodTarget t → exec i s =
        .next (takeTrap s k w fr { kind := 0x11, addr := t.toNat, detail := if (t.setWidth 57).signExtend 64 = t then 3 else 1 })
    let t := fr.pc + imm.signExtend 64
    Traps (.bra imm) t ∧ Traps (.brc n neg imm) t ∧ Traps (.call d imm) t ∧ Traps (.loop a imm) t ∧ Traps (.brx g tk imm) t ∧
    Traps (.ret a) (rdS2 s w 1 a)

/-- R103, R108: YIELD sends the fragment 8 bytes on to the tail of its partition's queue as Ready, and the wave has no current fragment
any more. -/
def Sys2Proof.Claim.YieldQueues : Prop :=
  ∀ (s : State) (k : Nat) (w : Wave) (fr : Frag), Issues s k w fr → w.cur = some fr.num →
    ∃ z w', exec .yield s = .next z ∧ kfind z.waves k = some w' ∧
      w' = { w with
        cur := none
        frags := w.frags.map fun g => if g.num = fr.num then { g with pc := pcAdd fr.pc 8, st := .ready } else g } ∧
      (kget {} (z.core w.core).parts w.part).queue = (kget {} (s.core w.core).parts w.part).queue ++ [(k, fr.num)] ∧
      z = { s with waves := kinsert s.waves k w', cores := z.cores } ∧ ∀ a, z.rdH a = s.rdH a

/-- R56, R61, R109: WAITC goes on when every tested counter, of 13 bits, is at or below its threshold, and makes the destinations of the
performed accesses of the tested counters defined; otherwise the fragment waits at the instruction. A threshold of all ones is not tested.
That it is the performed accesses of that fragment whose destinations become defined is the model's reading (log entry 27). -/
def Sys2Proof.Claim.WaitCounters : Prop :=
  ∀ (s : State) (k : Nat) (w : Wave) (fr : Frag), Issues s k w fr → ∀ (lc sc kc xc : Nat), lc ≤ 2047 → sc ≤ 2047 → kc ≤ 2047 → xc ≤ 255 →
    fr.lc < 2 ^ 13 → fr.sc < 2 ^ 13 → fr.kc < 2 ^ 13 → fr.xc < 2 ^ 13 →
    let pass : Prop := (lc = 2047 ∨ fr.lc ≤ lc) ∧ (sc = 2047 ∨ fr.sc ≤ sc) ∧ (kc = 2047 ∨ fr.kc ≤ kc) ∧ (xc = 255 ∨ fr.xc ≤ xc)
    (pass → ∃ z w', exec (.waitc lc sc kc xc) s = .next z ∧ OnlyWave s k w' z ∧
      w' = { w with undef := w'.undef, frags := at_ w fr (pcAdd fr.pc 8) } ∧
      ∀ u, u ∈ w'.undef ↔ u ∈ w.undef ∧ ¬(u.holder = .frag fr.num ∧ (∀ e ∈ w.replay, e.id ≠ u.entry) ∧
        ((u.ctr = .lc ∧ lc ≠ 2047) ∨ (u.ctr = .sc ∧ sc ≠ 2047) ∨ (u.ctr = .kc ∧ kc ≠ 2047) ∨ (u.ctr = .xc ∧ xc ≠ 255)))) ∧
    (¬pass → ∃ z l, exec (.waitc lc sc kc xc) s = .next z ∧ Waits s k w fr l z)

/-- Tokens reached from a token through `n` OUT links. -/
def Sys2Proof.Claim.outs (w : Wave) : Nat → Option Nat → Option Nat
  | 0, x => x
  | n + 1, x => (outs w n x).bind fun t => (w.tok t).out

/-- The numbers that a wave's new fragments may take, ascending: no live fragment's, none reserved (R59, R110). -/
def Sys2Proof.Claim.freeNums (w : Wave) : List Nat :=
  (List.range 16).filter fun n => !(w.frags.any fun f => f.num = n) && !w.reserved.getLsbD n

/-- The lanes of some groups. -/
def Sys2Proof.Claim.unionOf (gs : List Split) : Word := gs.foldl (fun m g => m ||| g.lanes) 0

/-- What the split procedure of R111 and R112 leaves, when `g0` is to continue and `gs` to detach, in order, on token `t`: as many of them as
find a table entry and a number become new fragments at the queue's tail, and the rest goes to the inline slot. `clear` takes the
fragment's redirect away. -/
def Sys2Proof.Claim.SplitGives (s : State) (k : Nat) (w : Wave) (fr : Frag) (t : Nat) (g0 : Split) (gs : List Split) (clear : Bool) (i : Instr) : Prop :=
  let a := w.tok t
  let opened : Token := if a = {} then { st := 1, exp := 1, out := fr.tok } else a
  let nums := (freeNums w).take (min gs.length (48 - s.fragsIn w.core w.part))
  let rest := gs.drop nums.length
  let more := { opened with exp := opened.exp + BitVec.ofNat 5 nums.length }
  let Divides (g : Split) (tk : Token) : Prop :=
    ∃ z w', exec i s = .next z ∧ kfind z.waves k = some w' ∧ w'.tok t = tk ∧ (∀ j, j ≠ t → w'.tok j = w.tok j) ∧
      w' = { w with
        toks := w'.toks
        frags := (w.frags.map fun f => if f.num = fr.num then
            { f with mask := g.lanes, pc := g.pc, tok := some t, redirect := if clear then none else f.redirect } else f) ++
          (nums.zip gs).map fun p => { num := p.1, pc := p.2.pc, mask := p.2.lanes, tok := some t } } ∧
      (kget {} (z.core w.core).parts w.part).queue = (kget {} (s.core w.core).parts w.part).queue ++ (nums.map fun n => (k, n)) ∧
      z = { s with waves := kinsert s.waves k w', cores := z.cores } ∧ ∀ a, z.rdH a = s.rdH a
  let Misuse (reason : Nat) : Prop := exec i s = .next (takeTrap s k w fr { kind := 0x21, detail := t + 16 * reason })
  (a = {} ∨ (fr.tok = some t ∧ (a.st = 1 ∨ a.st = 2)) →
    (rest = [] → Divides g0 more) ∧
    (rest ≠ [] → opened.st = 1 → ∀ g, rest.head? = some g →
      Divides g0 { more with st := 2, ipm := unionOf rest, ipc := pcBits (if rest.length = 1 then g.pc else fr.pc) }) ∧
    (rest ≠ [] → opened.st = 2 → (∀ g ∈ rest, pcBits g.pc = a.ipc) → Divides g0 { more with ipm := a.ipm ||| unionOf rest }) ∧
    (∀ g, rest = [g] → opened.st = 2 → pcBits g.pc ≠ a.ipc → pcBits g0.pc = a.ipc → Divides g { more with ipm := a.ipm ||| g0.lanes }) ∧
    (rest ≠ [] → opened.st = 2 → (∃ g ∈ rest, pcBits g.pc ≠ a.ipc) → (rest.length ≠ 1 ∨ pcBits g0.pc ≠ a.ipc) → Misuse 4)) ∧
  (a.st ≠ 0 → fr.tok ≠ some t → (∃ n < 17, outs w n fr.tok = some t) → Misuse 3) ∧
  (a.st ≠ 0 → fr.tok ≠ some t → (¬∃ n < 17, outs w n fr.tok = some t) → ∃ z, exec i s = .next z ∧ Waits s k w fr (.token t) z)

/-- R111, R112, R117: BRX forms the taken lanes and the rest into two groups, of which the smaller detaches (the taken lanes when they are
equal), or goes on as one group when all lanes go one way, by the split procedure: on a free token, on the fragment's own, on an
enclosing token (reason 3), with the inline slot empty or taken (reason 4). -/
def Sys2Proof.Claim.BranchDiverges : Prop :=
  ∀ (s : State) (k : Nat) (w : Wave) (fr : Frag), Issues s k w fr → ∀ (g : Guard) (t : Nat) (imm : Word),
    let target := fr.pc + imm.signExtend 64
    let taken : Split := { lanes := sel s w fr g, pc := target }
    let other : Split := { lanes := fr.mask &&& ~~~sel s w fr g, pc := pcAdd fr.pc 16 }
    let size (x : Split) : Nat := (lanesOf x.lanes).length
    let Gives (g0 : Split) (gs : List Split) : Prop := SplitGives s k w fr t g0 gs false (.brx g t imm)
    GoodTarget target → fr.mask ≠ 0 →
      (taken.lanes = 0 → Gives other []) ∧ (other.lanes = 0 → Gives taken []) ∧
      (taken.lanes ≠ 0 → other.lanes ≠ 0 → if size taken ≤ size other then Gives other [taken] else Gives taken [other])

/-- R113, R117, R129: JMPT sends each selected lane to the table entry of its index, a redirected lane to the redirect's target and the other
lanes of the mask 16 bytes on; the group with the most lanes continues, ties to the lower rank, and the others detach by rising rank, by
the split procedure; the redirect is used up. An index of n or more raises kind 0x20, and else a bad target kind 0x11, at the lowest such
lane. -/
def Sys2Proof.Claim.JumpTable : Prop :=
  ∀ (s : State) (k : Nat) (w : Wave) (fr : Frag), Issues s k w fr → ∀ (g : Guard) (t : Nat) (a : VOp) (b n : Nat),
    let Redirected (l : Nat) : Prop := ∃ r, fr.redirect = some r ∧ r.pc = fr.pc ∧ r.mask.getLsbD l = true
    let idx (l : Nat) : Nat := (inA s w a l).toNat
    let entry (l : Nat) : DWord := fr.pc + (rdS s w (16 + idx l) (b + idx l)).signExtend 64
    let Over (l : Nat) : Prop := Picked s w fr g l ∧ ¬Redirected l ∧ n ≤ idx l
    let Bad (l : Nat) : Prop := Picked s w fr g l ∧ ¬Redirected l ∧ ¬GoodTarget (entry l)
    let Goes_ (l : Nat) (pc : DWord) (rank : Nat) : Prop :=
      l < 32 ∧ fr.mask.getLsbD l = true ∧
      ((Picked s w fr g l ∧ ¬Redirected l ∧ pc = entry l ∧ rank = idx l) ∨
       (Picked s w fr g l ∧ (∃ r, fr.redirect = some r ∧ r.pc = fr.pc ∧ r.mask.getLsbD l = true ∧ pc = r.target) ∧ rank = n) ∨
       (¬Picked s w fr g l ∧ pc = pcAdd fr.pc 16 ∧ rank = n + 1))
    let Group (x : Split) : Prop := x.lanes ≠ 0 ∧ ∀ l, l < 32 → (x.lanes.getLsbD l = true ↔ ∃ r, Goes_ l x.pc r)
    let Lower (x y : Split) : Prop := ∃ l r, Goes_ l x.pc r ∧ ∀ j q, Goes_ j y.pc q → r < q
    let size (x : Split) : Nat := (lanesOf x.lanes).length
    (∀ l, Over l → (∀ j, Over j → l ≤ j) → ∃ m : Word, (∀ j, j < 32 → (m.getLsbD j = true ↔ Over j)) ∧
      exec (.jmpt g t a b n) s = .next (takeTrap s k w fr { kind := 0x20, lane := some l, detail := idx l + m.toNat * 2 ^ 32 })) ∧
    ((∀ l, ¬Over l) → ∀ l, Bad l → (∀ j, Bad j → l ≤ j) → exec (.jmpt g t a b n) s = .next (takeTrap s k w fr
      { kind := 0x11, lane := some l, addr := (entry l).toNat, detail := if ((entry l).setWidth 57).signExtend 64 = entry l then 3 else 1 })) ∧
    ((∀ l, ¬Over l) → (∀ l, ¬Bad l) → fr.mask ≠ 0 → ∃ g0 gs, (∀ x ∈ g0 :: gs, Group x) ∧
      (∀ l pc r, Goes_ l pc r → ∃ x ∈ g0 :: gs, x.pc = pc) ∧ (gs.Pairwise Lower) ∧
      (∀ x ∈ gs, size x ≤ size g0 ∧ (size x = size g0 → Lower g0 x)) ∧
      SplitGives s k w fr t g0 gs (fr.redirect.any fun r => decide (r.pc = fr.pc)) (.jmpt g t a b n))

/-- The registers of a wave as they were. -/
def Sys2Proof.Claim.SameRegs (w w' : Wave) : Prop :=
  w'.vreg = w.vreg ∧ w'.sreg = w.sreg ∧ w'.preds = w.preds ∧ w'.cond = w.cond ∧ w'.flags = w.flags ∧ w'.mode = w.mode

/-- A token's counters once a fragment's have been added to its keeper's, and the reverse. -/
def Sys2Proof.Claim.KeeperSum (a : Token) (fr : Frag) (b : Token) : Prop :=
  b.lc = a.lc + fr.lc ∧ b.sc = a.sc + fr.sc ∧ b.kc = a.kc + fr.kc ∧ b.xc = a.xc + fr.xc
def Sys2Proof.Claim.FragSum (fr : Frag) (a : Token) (f : Frag) : Prop :=
  f.lc = fr.lc + a.lc ∧ f.sc = fr.sc + a.sc ∧ f.kc = fr.kc + a.kc ∧ f.xc = fr.xc + a.xc

/-- What an arrival of `fr` with lanes `m` at token `t` leaves (R115, R116): `a` is the token as it stood, `jpc` its join point. -/
def Sys2Proof.Claim.Arrives (k : Nat) (w : Wave) (fr : Frag) (t : Nat) (m : Word) (jpc : BitVec 54) (z : State) : Prop :=
  let a := w.tok t
  ∃ w', kfind z.waves k = some w' ∧ SameRegs w w' ∧
    (a.exp ≠ 1 → a.exp ≠ 0 →
      (w'.tok t).arr = a.arr ||| m ∧ (w'.tok t).exp = a.exp - 1 ∧ (w'.tok t).st = a.st ∧ (w'.tok t).ipm = a.ipm ∧ (w'.tok t).ipc = a.ipc ∧
      (w'.tok t).out = a.out ∧ (w'.tok t).nums = a.nums ||| (1#16 <<< fr.num) ∧ KeeperSum a fr (w'.tok t) ∧
      w'.frags.map (·.num) = (w.frags.map (·.num)).filter (· ≠ fr.num)) ∧
    (a.exp = 1 → a.st = 2 → ∃ f, w'.frag fr.num = some f ∧ f.mask = a.ipm ∧ f.pc = pcOf a.ipc ∧ f.tok = some t ∧
      f.lc = 0 ∧ f.sc = 0 ∧ f.kc = 0 ∧ f.xc = 0 ∧ (w'.tok t).st = 1 ∧ (w'.tok t).exp = 1 ∧ (w'.tok t).ipm = 0 ∧
      (w'.tok t).arr = a.arr ||| m ∧ KeeperSum a fr (w'.tok t)) ∧
    (a.exp = 1 → a.st = 1 → a.arr ||| m ≠ 0 → (∀ g ∈ w.frags, g.num ≠ fr.num → a.nums.getLsbD g.num = false) →
      ∀ n, (n = fr.num ∨ a.nums.getLsbD n = true) → n ≤ fr.num → (∀ j, a.nums.getLsbD j = true → n ≤ j) →
      ∃ f, w'.frag n = some f ∧ w'.tok t = {} ∧ f.mask = a.arr ||| m ∧ f.pc = pcOf jpc ∧ f.tok = a.out ∧ FragSum fr a f)

/-- R59, R110, R115: a JOIN that is not the last expected arrival leaves its lanes, counters and number with the token and frees its entry;
the last one serves an inline side, with its counters left with the token; with none, it takes every arrived lane under the lowest of the
merging numbers and goes to the first arrival's join point, and the token becomes free. -/
def Sys2Proof.Claim.JoinMerges : Prop :=
  ∀ (s : State) (k : Nat) (w : Wave) (fr : Frag), Issues s k w fr → ∀ (t : Nat), (w.tok t).st ≠ 0 → fr.tok = some t → fr.mask ≠ 0 →
    ∃ z, exec (.join t) s = .next z ∧
      Arrives k w fr t fr.mask (if (w.tok t).arr = 0 then pcBits (pcAdd fr.pc 8) else (w.tok t).jpc) z

/-- R117: a JOIN on a free token, or on one that is not its fragment's, raises kind 0x21 with reason 1 or 2. -/
def Sys2Proof.Claim.JoinMisuse : Prop :=
  ∀ (s : State) (k : Nat) (w : Wave) (fr : Frag), Issues s k w fr → ∀ (t : Nat),
    ((w.tok t).st = 0 → exec (.join t) s = .next (takeTrap s k w fr { kind := 0x21, detail := t + 16 * 1 })) ∧
    ((w.tok t).st ≠ 0 → fr.tok ≠ some t → exec (.join t) s = .next (takeTrap s k w fr { kind := 0x21, detail := t + 16 * 2 }))

/-- R110, R116: EXIT takes the selected lanes out of the fragment, which goes on while lanes remain. Else it retires: with a token, as an
arrival with no lanes, and where no lane ever arrived the token is freed and the fragment retires at the token outside it; without one,
its entry is freed, and the last fragment's exit ends a wave that has no access or copy left. -/
def Obligations.ExitLanes : Prop :=
  ∀ (s : State) (k : Nat) (w : Wave) (fr : Frag), Issues s k w fr → ∀ (g : Guard),
    let rest := fr.mask &&& ~~~sel s w fr g
    let others := (w.frags.map (·.num)).filter (· ≠ fr.num)
    let spent : Prop := w.replay = [] ∧ ∀ c ∈ s.copies, c.2.wave ≠ some k
    (rest ≠ 0 → ∃ z, exec (.exit g) s = .next z ∧
      OnlyWave s k { w with frags := w.frags.map fun f => if f.num = fr.num then { f with mask := rest, pc := pcAdd fr.pc 8 } else f } z) ∧
    (rest = 0 → fr.tok = none → w.ended = false → (∀ x, kfind s.tasks w.task = some x → x.wantKill = false) →
      ∃ z w', exec (.exit g) s = .next z ∧ kfind z.waves k = some w' ∧ w'.frags.map (·.num) = others ∧ SameRegs w w' ∧
        (w'.ended = true ↔ others = [] ∧ spent) ∧ ∀ a, z.rdH a = s.rdH a) ∧
    (rest = 0 → ∀ t, fr.tok = some t → ((w.tok t).st = 1 ∨ (w.tok t).st = 2) →
      ((w.tok t).exp ≠ 1 ∨ (w.tok t).st = 2 ∨ (w.tok t).arr ≠ 0) →
      ∃ z, exec (.exit g) s = .next z ∧ Arrives k w fr t 0 (w.tok t).jpc z) ∧
    (rest = 0 → ∀ t o, fr.tok = some t → (w.tok t).st = 1 → (w.tok t).exp = 1 → (w.tok t).arr = 0 → (w.tok t).out = some o → o ≠ t →
      (w.tok o).exp ≠ 1 → (w.tok o).exp ≠ 0 →
      ∃ z w', exec (.exit g) s = .next z ∧ kfind z.waves k = some w' ∧ w'.tok t = {} ∧ w'.frags.map (·.num) = others ∧ SameRegs w w' ∧
        (w'.tok o).exp = (w.tok o).exp - 1 ∧ (w'.tok o).arr = (w.tok o).arr ∧
        (w'.tok o).nums = (w.tok o).nums ||| (1#16 <<< fr.num) ∧
        (w'.tok o).lc = (w.tok o).lc + (fr.lc + (w.tok t).lc) ∧ (w'.tok o).sc = (w.tok o).sc + (fr.sc + (w.tok t).sc) ∧
        (w'.tok o).kc = (w.tok o).kc + (fr.kc + (w.tok t).kc) ∧ (w'.tok o).xc = (w.tok o).xc + (fr.xc + (w.tok t).xc))

/-! ### Exceptions (R22, R126 to R129) -/

/-- The wave takes exception `e` of fragment `fr` at `pc` (R127): every result lands; the fragment's pc and mask and s496 to s511 are saved;
the record of R128 stands in s496 to s511; the fragment is at %trapbase, its mask as it was; nothing else changes. -/
def Sys2Proof.Claim.Enters (s : State) (k : Nat) (w : Wave) (fr : Frag) (e : Exc) (z : State) : Prop :=
  ∃ w' t, OnlyWave s k w' z ∧ w'.trapSave = some t ∧
    t.frag = fr.num ∧ t.pc = fr.pc ∧ t.mask = fr.mask ∧ t.kind = e.kind ∧ t.tile = none ∧ t.phase = fr.phase ∧
    t.words = (List.range 16).map (fun i => w.sraw (496 + i)) ∧
    (w'.sraw 496).toNat % 256 = e.kind % 256 ∧ (w'.sraw 496).toNat / 256 % 8 = e.level % 8 ∧
    (w'.sraw 497).toNat % 256 = w.idx % 256 ∧ (w'.sraw 497).getLsbD 17 = e.lane.isSome ∧ (w'.sraw 497).getLsbD 18 = false ∧
    w'.sraw 499 ++ w'.sraw 498 = fr.pc ∧ w'.sraw 505 ++ w'.sraw 504 = BitVec.ofNat 64 e.addr ∧
    w'.sraw 507 ++ w'.sraw 506 = s.cur.iw0 ∧ w'.sraw 509 ++ w'.sraw 508 = s.cur.iw1 ∧
    w'.sraw 511 ++ w'.sraw 510 = BitVec.ofNat 64 e.detail ∧
    (∀ n, n < 496 ∨ 511 < n → w'.sraw n = w.sraw n) ∧
    w' = { w with
      sreg := w'.sreg
      flags := w.flagsAll
      flagPend := []
      inflight := []
      cur := some fr.num
      trapSave := some t
      frags := w.frags.map fun g => if g.num = fr.num then { g with pc := w.trapbase, st := .issuing, redirect := none, phase := .none } else g }

/-- R127, R128: outside a handler and with %trapbase set, a precise exception other than not-present enters the handler; TRAP, BKPT without
a debugger and a word that decodes to nothing take that entry, with the kinds and details of R126 and R33. -/
def Sys2Proof.Claim.TrapEntry : Prop :=
  ∀ (s : State) (k : Nat) (w : Wave) (fr : Frag), Issues s k w fr → w.trapSave = none → w.trapbase ≠ 0 → w.idx < 256 → fr.num < 16 →
    (∀ e : Exc, e.kind < 256 → e.kind ≠ 0x12 → e.level < 6 → (∀ l, e.lane = some l → l < 32) → e.tile = none →
      Enters s k w fr e (takeTrap s k w fr e)) ∧
    (∀ n, ∃ z, exec (.trap n) s = .next z ∧ Enters s k w fr { kind := 0x70, detail := n + 256 } z) ∧
    (∀ n, (∀ x, kfind s.tasks w.task = some x → x.debug = none) →
      ∃ z, exec (.bkpt n) s = .next z ∧ Enters s k w fr { kind := 0x70, detail := n } z) ∧
    (∀ e : DecErr, e.kind < 256 → e.kind ≠ 0x12 → ∃ z, exec (.illegalInstruction e) s = .next z ∧
      Enters s k w fr { kind := e.kind, detail := e.cause + 256 * e.hi + 65536 * e.pos } z)

/-- R127: with %trapbase zero, or in a handler, a precise exception ends the task: it issues nothing more, and one record, or the handler's
own registers and then the new record, go to its queue's fault log; no register of the wave but those that land changes. -/
def Sys2Proof.Claim.FaultEndsTask : Prop :=
  ∀ (s : State) (k : Nat) (w : Wave) (fr : Frag) (e : Exc) (x : Task) (l : Launch), Issues s k w fr → e.kind ≠ 0x12 →
    kfind s.tasks w.task = some x → kfind s.launches x.launch = some l →
    (w.trapSave ≠ none ∨ w.trapbase = 0) →
    let z := takeTrap s k w fr e
    let q := s.queue l.queue
    let n := if w.trapSave = none then 1 else 2
    (∃ x', kfind z.tasks w.task = some x' ∧ x'.stopIssue = true ∧ x'.endFault = some (e.kind, fr.pc, BitVec.ofNat 64 e.addr)) ∧
    (kfind z.waves k = some w.land) ∧
    ((q.fidx + 2 ^ 32 - q.ack) % 2 ^ 32 + n ≤ 2 ^ q.flogn → q.fidx < 2 ^ 32 → q.flogn ≤ 16 →
      (z.queue l.queue).fidx = (q.fidx + n) % 2 ^ 32 ∧ (z.queue l.queue).drops = q.drops) ∧
    ((q.fidx + 2 ^ 32 - q.ack) % 2 ^ 32 = 2 ^ q.flogn → (z.queue l.queue).fidx = q.fidx ∧ (z.queue l.queue).drops = q.drops + n)

/-- R129: RFT restores the saved mask and s496 to s511, clears the trap-active state and resumes at the faulting instruction or past it;
`rft.redir` restarts a faulting JMPT with its redirect set. That a restart goes on from where the instruction had come in its waiting is the
model's reading (log entry 85), and so is that a fragment that goes past a queue operation waits at no queue (log entry 77). -/
def Sys2Proof.Claim.TrapReturn : Prop :=
  ∀ (s : State) (k : Nat) (w : Wave) (fr : Frag) (t : TrapSave), Issues s k w fr → w.trapSave = some t → t.frag = fr.num → t.tile = none →
    t.words.length = 16 → (∀ f ∈ w.frags, f.num ∈ t.live) →
    let Back (i : Instr) (pc : DWord) (r : Option Redirect) (skip : Option DWord) : Prop :=
      ∃ z w', exec i s = .next z ∧ OnlyWave s k w' { z with qwaits := s.qwaits } ∧
        (if i = .rftNext then LeavesQueues k fr.num s z else z.qwaits = s.qwaits) ∧ (∀ n, n < 16 → some (w'.sraw (496 + n)) = t.words[n]?) ∧ (∀ n, n < 496 ∨ 511 < n → w'.sraw n = w.sraw n) ∧
        w' = { w with
          sreg := w'.sreg
          trapSave := none
          frags := w.frags.map fun g => if g.num = fr.num then
            { g with pc, mask := t.mask, phase := if pc = t.pc then t.phase else .none, wskip := skip.or g.wskip, redirect := r.or g.redirect } else g }
    Back .rftRestart t.pc none (if t.kind = 0x71 then some t.pc else none) ∧ Back .rftNext (pcAdd t.pc t.len) none none ∧
    (∀ a b, t.isJmpt = true → GoodTarget (rdS2 s w 1 a) →
      Back (.rftRedir a b) t.pc
        (some { pc := t.pc, mask := rdS s w 2 b &&& t.mask, target := rdS2 s w 1 a }) none)

/-- R126, R129: outside a handler an RFT raises privilege; TFENCE waits for landing, then goes on, or raises kind 0x60 with the enabled
flags that are set; BKPT under a debugger halts its task and goes on past itself, which
is the model's reading (log entry 43). -/
def Sys2Proof.Claim.TrapControl : Prop :=
  ∀ (s : State) (k : Nat) (w : Wave) (fr : Frag), Issues s k w fr →
    (w.trapSave = none → ∀ a b,
      exec .rftRestart s = .next (takeTrap s k w fr { kind := 0x03 }) ∧ exec .rftNext s = .next (takeTrap s k w fr { kind := 0x03 }) ∧
      exec (.rftRedir a b) s = .next (takeTrap s k w fr { kind := 0x03 })) ∧
    (w.inflight ≠ [] ∨ w.flagPend ≠ [] → exec .tfence s = .next s) ∧
    (w.inflight = [] → w.flagPend = [] → (w.flags &&& w.trapen).toNat % 256 = 0 →
      ∃ z, exec .tfence s = .next z ∧ Goes s k w fr (pcAdd fr.pc 8) z) ∧
    (w.inflight = [] → w.flagPend = [] → (w.flags &&& w.trapen).toNat % 256 ≠ 0 →
      exec .tfence s = .next (takeTrap s k w fr { kind := 0x60, detail := (w.flags &&& w.trapen).toNat % 256 })) ∧
    (∀ n x, kfind s.tasks w.task = some x → x.debug ≠ none → ∃ z x', exec (.bkpt n) s = .next z ∧
      kfind z.waves k = some { w with frags := at_ w fr (pcAdd fr.pc 8) } ∧ kfind z.tasks w.task = some x' ∧
      x' = { x with halt := true, stopIssue := true, reports := x'.reports } ∧ x'.reports.length = x.reports.length + 1)

/-! ### Memory (R66, R130 to R145, R204 to R209, R246 to R260) -/

/-- Power is on and the device is not frozen. -/
abbrev Sys2Proof.Claim.Running (s : State) : Prop := s.hub.on = true ∧ s.hub.frozen = false

/-- `z` is `s` but for wave `k`'s record, which is `w'`, and for cached translations, the contents of the L1s and L2s and the request
counts (R253 to R257); every byte of memory reads as before. -/
def Sys2Proof.Claim.OnlyAccess (s : State) (k : Nat) (w' : Wave) (z : State) : Prop :=
  z = { s with waves := kinsert s.waves k w', cores := z.cores, tlb := z.tlb, counters := z.counters, l2 := z.l2 } ∧
  (∀ c, z.core c = { s.core c with l1 := (z.core c).l1 }) ∧ ∀ a, z.rdH a = s.rdH a

/-- The fragments of `w` once `fr` has gone `len` bytes on with its counter `c` raised; its leave to pass the watch units at that address is
used up (R56, R367). -/
def Sys2Proof.Claim.accepted (w : Wave) (fr : Frag) (c : Ctr) (len : Nat) : List Frag :=
  w.frags.map fun g => if g.num = fr.num then { g.bump c with pc := pcAdd fr.pc len, wskip := if fr.wskip = some fr.pc then none else g.wskip } else g

/-- An access of `fr` enters the replay list as its newest entry (R144), holding counter `c` (R56); the registers `und` are undefined in
lanes `m` until a WAITC covers it (R20); no register's stored value changes. -/
def Sys2Proof.Claim.Accepts (s : State) (k : Nat) (w : Wave) (fr : Frag) (c : Ctr) (len : Nat) (kind : EntryKind) (lines : List Nat) (und : List RegId)
    (m : Word) (z : State) : Prop :=
  ∃ (w' : Wave) (e : Entry), OnlyAccess s k w' z ∧ e.kind = kind ∧ e.id = w.nextEntry ∧ e.frag = fr.num ∧ e.holder = .frag fr.num ∧
    e.ctr = c ∧ e.pc = fr.pc ∧ e.earlier = w.openStores fr.num ∧ e.lines = lines ∧ e.cells = [] ∧
    w' = { w with
      replay := w.replay ++ [e]
      nextEntry := w.nextEntry + 1
      undef := w.undef ++ und.map fun r => { reg := r, lanes := m, entry := w.nextEntry, ctr := c, holder := .frag fr.num }
      frags := accepted w fr c len }

/-- Acceptance of a record access has passed with lanes `a`: no page has SP = 1, and the core has room for the request entries (R140). -/
def Sys2Proof.Claim.Passes (w : Wave) (r : State × Except Exc Accepted) (s1 : State) (a : Accepted) : Prop :=
  r = (s1, .ok a) ∧ (∀ x ∈ a.lanes, x.sp = false) ∧ roomFor s1 w.core (heldLines a.lanes).length = true

/-- The accesses of an accepted load: those with an address, and the lanes without an access, which read zero (R135). -/
def Sys2Proof.Claim.loadLanes (a : Accepted) : List LaneAcc :=
  a.lanes.map (fun x => { lane := x.lane, space := .global, addr := some x.key, sp := x.sp }) ++
    a.nones.map fun l => { lane := l, space := .global, addr := none }

/-- R133 to R135, R138, R140, R144, R221: an accepted VLD, SLD, LDL or LDC of 2^CNT registers enters the replay list with the lanes that
acceptance gives, raises LC (KC for SLD) and goes on; its destinations are undefined until a WAITC covers it; nothing else changes. -/
def Sys2Proof.Claim.LoadsAccepted : Prop :=
  ∀ (s : State) (k : Nat) (w : Wave) (fr : Frag), Issues s k w fr →
    ∀ (g : Guard) (t : Ty) (cnt ch b ds as : Nat) (d a : VOp) (off : Option Word),
    let m := sel s w fr g
    let n := memBytes t * 2 ^ cnt
    let vecs := (List.range (2 ^ cnt)).map fun j => RegId.vec (VOp.field d + j)
    (∀ s1 x, w.spEntry fr = none →
      Passes w (acceptRec s w fr (rdRecord s w 2 b) (lanesOf m) (fun l => elemIndex (inA s w a l) off) n .read .read true false
        fun _ => none) s1 x →
      ∃ z, exec (.vld g t cnt ch d b a off) s = .next z ∧
        Accepts s k w fr .lc (lenOf off) (.load false (VOp.field d) (memBytes t) (2 ^ cnt) t (partsOf (loadLanes x))) (heldLines x.lanes)
          vecs m z) ∧
    (∀ s1 x, w.spEntry fr = none →
      Passes w (acceptRec s w fr (rdRecord s w 2 b) [0] (fun _ => elemIndex (rdS s w 1 as) off) n .read .read false false
        fun _ => none) s1 x →
      ∃ z, exec (.sld t cnt ch ds b as off) s = .next z ∧
        Accepts s k w fr .kc (lenOf off) (.load true ds (memBytes t) (2 ^ cnt) t (partsOf (loadLanes x))) (heldLines x.lanes)
          ((List.range (2 ^ cnt)).map fun j => .sca (ds + j)) 1 z) ∧
    (∀ l, acceptScratch s w (lanesOf m) (fun l => scratchOff (inA s w a l) off) n true = .ok l → roomFor s w.core 1 = true →
      ∃ z, exec (.ldl g t cnt d a off) s = .next z ∧
        Accepts s k w fr .lc (lenOf off) (.load false (VOp.field d) (memBytes t) (2 ^ cnt) t
          (partsOf (l.map fun p => { lane := p.1, space := .scratch w.core, addr := some p.2 }))) [] vecs m z) ∧
    (∀ l, clusterLanes s w m a off n = .ok l → roomFor s w.core 1 = true →
      ∃ z, exec (.ldc g t cnt d a off) s = .next z ∧
        Accepts s k w fr .lc (lenOf off) (.load false (VOp.field d) (memBytes t) (2 ^ cnt) t
          (partsOf (l.map fun p => { lane := p.1, space := .scratch p.2.1, addr := some p.2.2 }))) [] vecs m z)

/-- The bytes that lanes store, each lane's at its address: byte i of register j is bits 8i+7..8i (R136). -/
def Sys2Proof.Claim.storedBytes (l : List (Nat × Space × Nat)) (width regs : Nat) (data : Nat → Nat → Word) : List (Space × Nat × Byte) :=
  l.flatMap fun x => (List.range regs).flatMap fun j => (List.range width).map fun i =>
    (x.2.1, x.2.2 + (j * width + i), (data x.1 j).extractLsb' (8 * i) 8)

/-- R133, R134, R136, R138, R140, R144, R221: an accepted VST, SST, STL or STC enters the replay list with the low bytes of its data registers
at the addresses that acceptance gives, raises SC (KC for SST) and goes on; no byte of memory or scratchpad changes yet. -/
def Sys2Proof.Claim.StoresAccepted : Prop :=
  ∀ (s : State) (k : Nat) (w : Wave) (fr : Frag), Issues s k w fr →
    ∀ (g : Guard) (t : Ty) (cnt ch b ds as : Nat) (d a : VOp) (off : Option Word),
    let m := sel s w fr g
    let n := memBytes t * 2 ^ cnt
    let data := dataReg s w d cnt
    (∀ s1 x,
      Passes w (acceptRec s w fr (rdRecord s w 2 b) (lanesOf m) (fun l => elemIndex (inA s w a l) off) n .write .write true false
        fun _ => none) s1 x →
      ∃ z, exec (.vst g t cnt ch d b a off) s = .next z ∧
        Accepts s k w fr .sc (lenOf off)
          (.store (storedBytes (x.lanes.map fun y => (y.lane, .global, y.key)) (memBytes t) (2 ^ cnt) data)) (heldLines x.lanes) [] m z) ∧
    (∀ s1 x,
      Passes w (acceptRec s w fr (rdRecord s w 2 b) [0] (fun _ => elemIndex (rdS s w 1 as) off) n .write .write false false
        fun _ => none) s1 x →
      ∃ z, exec (.sst t cnt ch ds b as off) s = .next z ∧
        Accepts s k w fr .kc (lenOf off)
          (.store (storedBytes (x.lanes.map fun y => (y.lane, .global, y.key)) (memBytes t) (2 ^ cnt) fun _ j => rdS s w (8 * j) (ds + j)))
          (heldLines x.lanes) [] 1 z) ∧
    (∀ l, acceptScratch s w (lanesOf m) (fun l => scratchOff (inA s w a l) off) n true = .ok l → roomFor s w.core 1 = true →
      ∃ z, exec (.stl g t cnt d a off) s = .next z ∧
        Accepts s k w fr .sc (lenOf off)
          (.store (storedBytes (l.map fun p => (p.1, .scratch w.core, p.2)) (memBytes t) (2 ^ cnt) data)) [] [] m z) ∧
    (∀ l, clusterLanes s w m a off n = .ok l → roomFor s w.core 1 = true →
      ∃ z, exec (.stc g t cnt d a off) s = .next z ∧
        Accepts s k w fr .sc (lenOf off)
          (.store (storedBytes (l.map fun p => (p.1, .scratch p.2.1, p.2.2)) (memBytes t) (2 ^ cnt) data)) [] [] m z)

/-- R137: VPREF goes on whatever its lanes' addresses are, unless its record has a reserved field; it changes no register and no byte. -/
def Sys2Proof.Claim.Prefetch : Prop :=
  ∀ (s : State) (k : Nat) (w : Wave) (fr : Frag), Issues s k w fr → ∀ (g : Guard) (l2 : Bool) (b : Nat) (a : VOp) (off : Option Word),
    (∀ e, checkRecord (rdRecord s w 2 b) = .error e → e.kind = 0x11) →
    ∃ z, exec (.vpref g l2 b a off) s = .next z ∧ OnlyAccess s k { w with frags := at_ w fr (pcAdd fr.pc (lenOf off)) } z

/-- R66, R135, R141, R143: when a part that no earlier access holds back of a load returns, every lane that it covers gets its registers, each the bytes that R206 reads
extended by the type (zero without an access); no other register and no byte, of memory or of a scratchpad, changes, and the access has performed with its last part. -/
def Sys2Proof.Claim.LoadReturns : Prop :=
  ∀ (s : State) (k : Nat) (w : Wave) (e : Entry) (p d width regs : Nat) (sc : Bool) (t : Ty) (parts : KMap (List LaneAcc))
    (ls : List LaneAcc), Running s → kfind s.waves k = some w → w.resident = true →
    (w.replay.find? fun x => x.id = e.id && x.cells = []) = some e → e.kind = .load sc d width regs t parts → kfind parts p = some ls →
    heldBack s k w e.frag e.id true (ls.flatMap fun x => x.due (width * regs)) = false → (∀ x ∈ ls, s.answers x.space = true) →
    (ls.map (·.lane)).Nodup → (∀ x ∈ ls, x.lane < 32) → (sc = true → ls.length ≤ 1) →
    let val (x : LaneAcc) (j : Nat) : Word :=
      match x.addr with
      | none => 0
      | some a => extendMem t (ofBytes ((List.range width).map fun i => laneByte s w e x (a + j * width + i)))
    ∃ z w', exec (.loadSectorReturn k e.id p []) s = .next z ∧ kfind z.waves k = some w' ∧
      (∀ x ∈ ls, ∀ j, j < regs → (if sc then w'.sraw (d + j) else w'.vraw (d + j) x.lane) = val x j) ∧
      (∀ f l, l < 32 → sc = true ∨ (∀ x ∈ ls, x.lane ≠ l) ∨ f < d ∨ d + regs ≤ f → w'.vraw f l = w.vraw f l) ∧
      (∀ n, sc = false ∨ ls = [] ∨ n < d ∨ d + regs ≤ n → w'.sraw n = w.sraw n) ∧
      w'.preds = w.preds ∧ w'.cond = w.cond ∧ w'.flags = w.flags ∧ w'.mode = w.mode ∧ w'.trapSave = w.trapSave ∧
      (kerase parts p = [] → ∀ y ∈ w'.replay, y.id ≠ e.id) ∧
      (kerase parts p ≠ [] → ∃ y ∈ w'.replay, y.id = e.id ∧ y.kind = .load sc d width regs t (kerase parts p)) ∧
      (∀ c a, z.rdScratch c a = s.rdScratch c a) ∧ ∀ a, z.rdH a = s.rdH a

/-- The last byte that a store gives an address of a space. -/
def Sys2Proof.Claim.lastByte (bs : List (Space × Nat × Byte)) (sp : Space) (a : Nat) (old : Byte) : Byte :=
  bs.foldl (fun r b => if b.1 = sp ∧ b.2.1 = a then b.2.2 else r) old

/-- R136, R206, R209: a store's Capture writes its scratchpad bytes in place, lets later loads of its core see its other bytes, and performs it;
no other scratchpad byte and no register changes, and memory reads as before until a Publish. -/
def Sys2Proof.Claim.StoreCaptures : Prop :=
  ∀ (s : State) (k : Nat) (w : Wave) (e : Entry) (bs : List (Space × Nat × Byte)), Running s → kfind s.waves k = some w →
    (w.replay.find? fun x => x.id = e.id) = some e → e.kind = .store bs →
    heldBack s k w e.frag e.id false (bs.map fun b => (b.1, b.2.1, 1)) = false → (∀ b ∈ bs, ∀ g n, b.1 ≠ .own g n) →
    ∃ z w', exec (.capture (.store k e.id)) s = .next z ∧ kfind z.waves k = some w' ∧
      (∀ c a, z.rdScratch c a = lastByte bs (.scratch c) a (s.rdScratch c a)) ∧
      (∀ a, isWindow a = false → z.readByte w.core [] .global a false = lastByte bs .global a (s.readByte w.core [] .global a false)) ∧
      (∀ a, z.rdH a = s.rdH a) ∧ w'.vreg = w.vreg ∧ w'.sreg = w.sreg ∧ w'.preds = w.preds ∧ w'.cond = w.cond ∧ w'.flags = w.flags ∧
      w'.replay = w.replay.filter fun x => x.id ≠ e.id

/-- R206: a load reads the last byte of its fragment's earlier uncaptured stores, else what the core has captured since its last Publish, else
its core's snapshot; and H where its page has SP = 1 and no such store or capture holds the byte. R210: where a store and an atomic have
fallen in one phase, it reads that value or any of the values noted for the byte. -/
def Sys2Proof.Claim.LoadSees : Prop :=
  ∀ (s : State) (c a : Nat) (b : Byte) (own : List (List (Space × Nat × Byte))) (fromH : Bool), isWindow a = false →
    s.readByte c (own ++ [[(.global, a, b)]]) .global a fromH = b ∧
    (∀ task who, (s.captureBytes c task who [(.global, a, b)]).readByte c [] .global a fromH = b) ∧
    ((∀ e ∈ (s.core c).phase, e.residue = none → e.home.main = true → ∀ x ∈ e.bytes, x.1 ≠ a) →
      s.readByte c [] .global a fromH = if fromH then s.rdH a else (s.rdV (vSnap c) a).1) ∧
    (kfind s.mixed a = none → s.loadByte c own .global a fromH = s.readByte c own .global a fromH) ∧
    (∀ l, kfind s.mixed a = some l → s.loadByte c own .global a fromH ∈ s.readByte c own .global a fromH :: l)

/-- R207, R208: the last captured byte that a core publishes at a scope is its home value, and a core whose view of that scope is the same one
reads it in its snapshot after a Refresh at that scope, whatever it held from before. -/
def Obligations.PublishRefresh : Prop :=
  ∀ (s : State) (c c' task a : Nat) (whos : List Nat) (sc : Scope) (b : Byte) (pre : List PEntry) (e : PEntry), isWindow a = false →
    s.debugQs = [] →
    (s.core c).phase = pre ++ [e] → e.task = task → e.home = .here → e.residue = none → e.bytes = [(a, b)] →
    viewAt sc c = viewAt sc c' → c < 256 → c' < 256 → (s.rdV (vSnap c') a).2 ≤ s.posn →
    kwf (unlisted, 0) (kget [] s.views (viewAt sc c)) = true →
    (s.publish c sc task whos).rdH a = b ∧ (((s.publish c sc task whos).refresh c' sc).rdV (vSnap c') a).1 = b

/-- R130, R132: within the limit an element's address is BASE plus the swizzled offset, and it must end within the address space and be aligned
to the access size; outside, POL gives no access, a fault, or the nearest element; swizzle mode m XORs bits 4 to 6 with the three from 4 + 3m on. -/
def Sys2Proof.Claim.Placement : Prop :=
  ∀ (r : BufRec) (e : Int) (sz : Nat), 0 < sz →
    let raw : Prop := r.stride = 0
    let lim : Int := if raw then (r.extent : Int) - sz + 1 else r.extent
    let addr (e : Nat) : Nat := r.base + swizzle r.swz (if raw then e else e * r.stride)
    let At (a : Nat) (x : Except LaneFault (Option Nat)) : Prop :=
      (a + sz ≤ 2 ^ 57 → a % sz = 0 → x = .ok (some a)) ∧
      (2 ^ 57 < a + sz → ∃ f, x = .error f ∧ f.kind = 0x11 ∧ f.reason = 2) ∧
      (a + sz ≤ 2 ^ 57 → a % sz ≠ 0 → x = .error { kind := 0x11, reason := 3, addr := a })
    (0 ≤ e → e < lim → At (addr e.toNat) (place r e sz)) ∧
    (e < 0 ∨ lim ≤ e →
      (r.pol = 0 ∨ lim ≤ 0 → place r e sz = .ok none) ∧
      (r.pol = 1 → 0 < lim → ∃ f, place r e sz = .error f ∧ f.kind = 0x10 ∧ f.reason = 1) ∧
      (r.pol = 2 → 0 < lim → raw → e < 0 → At (addr 0) (place r e sz)) ∧
      (r.pol = 2 → 0 < lim → ¬raw → e < 0 → At (addr 0) (place r e sz)) ∧
      (r.pol = 2 → 0 < lim → ¬raw → lim ≤ e → At (addr (r.extent - 1)) (place r e sz)) ∧
      (r.pol = 2 → 0 < lim → raw → lim ≤ e → At (addr ((r.extent - sz) - (r.extent - sz) % sz)) (place r e sz))) ∧
    (∀ o, swizzle 0 o = o) ∧
    (∀ m o i, 1 ≤ m → (swizzle m o).testBit i = if 4 ≤ i ∧ i ≤ 6 then o.testBit i ^^ o.testBit (i + 3 * m) else o.testBit i)

/-- R22, R140: an access whose lowest failing lane has no address traps there before any effect, naming that lane (but for reason 1) and every
failing one; a scalar access names none. Alignment and range are tested before translation. -/
def Sys2Proof.Claim.LaneFaults : Prop :=
  ∀ (s : State) (k : Nat) (w : Wave) (fr : Frag), Issues s k w fr → w.spEntry fr = none →
    ∀ (g : Guard) (t : Ty) (cnt ch b : Nat) (d a : VOp) (off : Option Word) (r : BufRec) (l : Nat) (f : LaneFault),
    let m := sel s w fr g
    let n := memBytes t * 2 ^ cnt
    let at_ (l : Nat) := place r (elemIndex (inA s w a l) off) n
    let bad : Word := maskOf ((lanesOf m).filter fun j => match at_ j with | .error _ => true | .ok _ => false)
    checkRecord (rdRecord s w 2 b) = .ok r → Picked s w fr g l → at_ l = .error f →
    (∀ j, j < l → Picked s w fr g j → ∃ x, at_ j = .ok x) →
    let e : Exc :=
      { kind := f.kind, lane := if f.kind = 0x11 ∧ f.reason = 1 then none else some l, addr := f.addr, detail := f.reason + bad.toNat * 2 ^ 32 }
    exec (.vld g t cnt ch d b a off) s = .next (takeTrap s k w fr e) ∧
    exec (.vst g t cnt ch d b a off) s = .next (takeTrap s k w fr e)

/-- Bits `hi` to `lo` of a page entry. -/
abbrev Sys2Proof.Claim.fld (e hi lo : Nat) : Nat := e / 2 ^ lo % 2 ^ (hi + 1 - lo)

/-- R248: where the index bits of a level start (a leaf's page has that size), and how many entries its table has. -/
def Sys2Proof.Claim.levelAt : Nat → Nat × Nat
  | 4 => (47, 1024) | 3 => (38, 512) | 2 => (29, 512) | 1 => (21, 256) | _ => (16, 32)

/-- A leaf's frame is no storage: an address outside main memory and the windows, a pinned frame of another die, a window that is not active, or
a window page with a placement or with cells (R247, R251, R267, R385). -/
def Sys2Proof.Claim.FrameBad (s : State) (e : Nat) : Prop :=
  let pa := fld e 51 8 * 256
  if 2 ^ 51 ≤ pa then fld e 59 57 ≠ 0 ∨ fld e 56 56 = 1 ∨ (kget {} s.windows (fld pa 50 40)).active = false
  else 2 ^ 39 ≤ pa ∨ (fld e 59 57 ≠ 0 ∧ fld pa 38 37 ≠ fld e 58 57)

/-- A valid entry of a level is malformed (R249). -/
def Sys2Proof.Claim.Malformed (l e : Nat) : Prop :=
  let pa := fld e 51 8 * 256
  fld e 63 60 ≠ 0 ∨ fld e 55 52 ≠ 0 ∨ fld e 7 5 ≠ 0 ∨
  (fld e 4 4 = 1 ∧ (3 ≤ l ∨ pa % 2 ^ (levelAt l).1 ≠ 0 ∨ fld e 59 57 ∈ [1, 2, 3] ∨ (fld e 56 56 = 1 ∧ fld e 3 3 = 1))) ∨
  (fld e 4 4 = 0 ∧ (l = 0 ∨ fld e 3 1 ≠ 0 ∨ fld e 59 57 ≠ 0 ∨ fld e 56 56 = 1 ∨ pa % (8 * (levelAt (l - 1)).2) ≠ 0))

/-- The translation that a well-formed leaf of a level gives an address (R249, R250). -/
def Sys2Proof.Claim.leafAt (l e v : Nat) : Leaf :=
  { pa := fld e 51 8 * 256 + v % 2 ^ (levelAt l).1, plc := fld e 59 57, sp := decide (fld e 56 56 = 1), r := decide (fld e 1 1 = 1),
    w := decide (fld e 2 2 = 1), x := decide (fld e 3 3 = 1) }

/-- R248 to R260: a translation goes by a cached leaf or, with none, by the walk of the tables from the root of its address space, whose entries
come from H or a walk cache. A walk ends with kind 0x12 at an entry with V = 0, with kind 0x13 reason 4 at a malformed one or at a leaf whose
frame is no storage, with the page at another leaf, and else goes one level down. The leaf's page is the answer where it has the permission;
else kind 0x13 with reason 1 (read), 2 (write), 3 (execute) or 5 (an atomic in a window); a fault names its level, access and engine. An address space that is not
bound gives kind 0x12, the model's reading (log entry 71). Only cached translations, the L2s' contents and walk counts change. -/
def Sys2Proof.Claim.Translation : Prop :=
  ∀ (s : State) (wk : Walker) (va : Nat) (acc : Acc) (eng : Bool),
    let x : Asid := kget {} s.asids wk.asid
    let v := va % 2 ^ 57
    let z := (s.translate wk va acc eng).1
    let r := (s.translate wk va acc eng).2
    let look := (s.lookup wk v).2
    let code := match acc with | .read => 0 | .write => 1 | .atomic => 2 | .cell => 2 | .fetch => 3
    let No (kind reason lvl : Nat) : Prop := r = .error (kind, reason + 16 * lvl + 128 * code + if eng then 512 else 0)
    z = { s with tlb := z.tlb, counters := z.counters, l2 := z.l2 } ∧
    (x.st ≠ .bound → No 0x12 1 4) ∧
    (s.heldLeaf wk v = none → look.map (·.1) = (s.walk wk v x.tplc 5 4 x.root).1) ∧
    (∀ t, s.heldLeaf wk v = some t → t ∈ s.tlb ∧ s.fits wk v t = true ∧ fld t.entry.toNat 4 4 = 1 ∧
      (t.level ≤ 2 → (FrameBad s t.entry.toNat → look = .error { kind := 0x13, reason := 4, lvl := t.level }) ∧
        (¬FrameBad s t.entry.toNat → look = .ok (leafAt t.level t.entry.toNat v, t.level)))) ∧
    (∀ (fuel l base plc : Nat), l ≤ 4 →
      let addr := base + 8 * (v / 2 ^ (levelAt l).1 % (levelAt l).2)
      let e := (s.pte wk l v addr plc).1
      let ends (o : Except WalkFault Leaf) : Prop := (s.walk wk v plc (fuel + 1) l base).1 = o
      (e = ofBytes (s.rdHs (keyOf plc addr) 8) ∨
        ∃ t ∈ s.tlb, t.level = l ∧ fld t.entry.toNat 4 4 = 0 ∧ s.fits wk v t = true ∧ e = t.entry.toNat) ∧
      ((∀ t ∈ s.tlb, t.level = l → fld t.entry.toNat 4 4 = 0 → s.fits wk v t = false) → e = ofBytes (s.rdHs (keyOf plc addr) 8)) ∧
      (fld e 0 0 = 0 → ends (.error { kind := 0x12, reason := 1, lvl := l })) ∧
      (fld e 0 0 = 1 → Malformed l e ∨ (fld e 4 4 = 1 ∧ FrameBad s e) → ends (.error { kind := 0x13, reason := 4, lvl := l })) ∧
      (fld e 0 0 = 1 → ¬Malformed l e →
        (fld e 4 4 = 1 → ¬FrameBad s e → ends (.ok (leafAt l e v))) ∧
        (fld e 4 4 = 0 → ends (s.walk wk v plc fuel (l - 1) (fld e 51 8 * 256)).1))) ∧
    (x.st = .bound →
      (∀ f, look = .error f → No f.kind f.reason f.lvl) ∧
      (∀ l n, look = .ok (l, n) →
        (acc = .read → if l.r then r = .ok l else No 0x13 1 n) ∧
        (acc = .write → if l.w then r = .ok l else No 0x13 2 n) ∧
        (acc = .fetch → if l.x then r = .ok l else No 0x13 3 n) ∧
        (acc = .atomic ∨ acc = .cell → if l.r then (if l.w then (if acc = .atomic ∧ isWindow l.pa = true then No 0x13 5 0 else r = .ok l) else No 0x13 2 n)
          else No 0x13 1 n)))

/-! ### Circular buffers, copies, fences, barriers and queues (R146 to R153, R212 to R243) -/

/-- `z` is `s` but for wave `k`'s record, which is `w'`, and for buffer `p` of the wave's core, which is `b`; memory reads as before. -/
def Sys2Proof.Claim.OnlyBuffer (s : State) (k : Nat) (w w' : Wave) (p : Nat) (b : CBuf) (z : State) : Prop :=
  z = { s with waves := kinsert s.waves k w', cores := z.cores } ∧
  (∀ c, z.core c = { s.core c with cbufs := (z.core c).cbufs }) ∧
  (∀ c j, z.cb c j = if c = w.core ∧ j = p then b else s.cb c j) ∧ ∀ a, z.rdH a = s.rdH a

/-- Nobody waits for a slot of buffer `p` of a core. -/
def Sys2Proof.Claim.NoWaiters (s : State) (c p : Nat) : Prop := kget [] (s.core c).cbWriters p = [] ∧ kget [] (s.core c).cbReaders p = []

/-- R146 to R150: CBINIT sets an idle buffer up, all its slots free; CBACQ takes slot PRD or CNS and writes its offset, or waits when none is
there; CBREL of the oldest held slot commits or frees it, of a later one marks it; an unset buffer, a slot that is not held and a ring outside the window trap. That a bad CBINIT names lane 0
is the model's reading (log entry 33). -/
def Sys2Proof.Claim.CircularBuffers : Prop :=
  ∀ (s : State) (k : Nat) (w : Wave) (fr : Frag), Issues s k w fr → ∀ (n d a b : Nat),
    let p := cbOf s w n
    let c := s.cb w.core p
    let on := at_ w fr (pcAdd fr.pc 8)
    let base := (rdS s w 1 a).toNat
    let word := (rdS s w 2 b).toNat
    let next (i : Nat) : Nat := (i + 1) % (c.nsl + 1)
    let ssz := word % 2 ^ 12
    let nsl := word / 2 ^ 12 % 2 ^ 8
    let fits : Prop := word < 2 ^ 20 ∧ ssz ≠ 0 ∧ base % 16 = 0 ∧ base + 16 * ssz * (nsl + 1) ≤ (winOf s w).2
    let Takes (i : Instr) (slot : Nat) (c' : CBuf) : Prop :=
      ∃ z w', exec i s = .next z ∧ OnlyBuffer s k w w' p c' z ∧
        (∀ m, w'.sraw m = if m = d then BitVec.ofNat 32 (c.base + 16 * c.ssz * slot) else w.sraw m) ∧
        w' = { w with sreg := w'.sreg, frags := on }
    let Gives (i : Instr) (c' : CBuf) : Prop := ∃ z, exec i s = .next z ∧ OnlyBuffer s k w { w with frags := on } p c' z
    let Traps (i : Instr) (reason : Nat) : Prop :=
      exec i s = .next (takeTrap s k w fr { kind := 0x40, level := 1, detail := reason + n * 256 + 2 ^ 12 })
    (fits → c.wh = 0 → c.rh = 0 → NoWaiters s w.core p → Gives (.cbinit n a b) { v := true, base, ssz, nsl, free := nsl + 1 }) ∧
    (¬fits → exec (.cbinit n a b) s = .next (takeTrap s k w fr { kind := 0x10, level := 1, lane := some 0, addr := base, detail := 4 })) ∧
    (fits → c.wh ≠ 0 ∨ c.rh ≠ 0 → Traps (.cbinit n a b) 1) ∧
    (c.v = false → Traps (.cbacqFull n d) 3 ∧ Traps (.cbacqFree n d) 3) ∧
    (c.v = true → c.free ≠ 0 → kget [] (s.core w.core).cbWriters p = [] →
      Takes (.cbacqFree n d) c.prd { c with prd := next c.prd, wh := c.wh + 1, free := c.free - 1 }) ∧
    (c.v = true → c.fill ≠ 0 → kget [] (s.core w.core).cbReaders p = [] →
      Takes (.cbacqFull n d) c.cns { c with cns := next c.cns, rh := c.rh + 1, fill := c.fill - 1 }) ∧
    (c.v = true → c.free = 0 → ∃ z w', exec (.cbacqFree n d) s = .next z ∧ kfind z.waves k = some w' ∧
      w'.frags = w.frags.map (fun g => if g.num = fr.num then { g with st := .waiting (.cbWriter n d) } else g) ∧
      kget [] (z.core w.core).cbWriters p = kget [] (s.core w.core).cbWriters p ++ [.frag k fr.num] ∧ ∀ j, z.cb w.core j = s.cb w.core j) ∧
    (c.v = true → c.fill = 0 → ∃ z w', exec (.cbacqFull n d) s = .next z ∧ kfind z.waves k = some w' ∧
      w'.frags = w.frags.map (fun g => if g.num = fr.num then { g with st := .waiting (.cbReader n d) } else g) ∧
      kget [] (z.core w.core).cbReaders p = kget [] (s.core w.core).cbReaders p ++ [.frag k fr.num] ∧ ∀ j, z.cb w.core j = s.cb w.core j) ∧
    (∀ i, c.v = true → (∀ e ∈ w.replay, e.frag = fr.num → e.op ≠ 0x205 ∧ e.op ≠ 0x206) → c.slotAt base = some i → NoWaiters s w.core p →
      c.marks = [] →
      (i = c.cmt → c.wh ≠ 0 → Gives (.cbrelFree n a) { c with cmt := next c.cmt, wh := c.wh - 1, fill := c.fill + 1 }) ∧
      (i = c.rlf → c.rh ≠ 0 → Gives (.cbrelFull n a) { c with rlf := next c.rlf, rh := c.rh - 1, free := c.free + 1 }) ∧
      (i ≠ c.cmt → c.inRun c.cmt c.wh i = true → Gives (.cbrelFree n a) { c with marks := [i] }) ∧
      (i ≠ c.rlf → c.inRun c.rlf c.rh i = true → Gives (.cbrelFull n a) { c with marks := [i] }) ∧
      (c.inRun c.cmt c.wh i = false → Traps (.cbrelFree n a) 2) ∧ (c.inRun c.rlf c.rh i = false → Traps (.cbrelFull n a) 2))

/-- `z` is `s` but for wave `k`'s record `w'`, the copies, and what an accepted access changes besides (R152). -/
def Sys2Proof.Claim.OnlyCopies (s : State) (k : Nat) (w' : Wave) (z : State) : Prop :=
  z = { s with waves := kinsert s.waves k w', copies := z.copies, nextCopy := z.nextCopy, cores := z.cores, tlb := z.tlb, counters := z.counters, l2 := z.l2 } ∧
  (∀ c, z.core c = { s.core c with l1 := (z.core c).l1, cbufs := (z.core c).cbufs, cbWriters := (z.core c).cbWriters, cbReaders := (z.core c).cbReaders }) ∧
  (∀ c j, c ≠ w'.core → z.cb c j = s.cb c j) ∧ ∀ a, z.rdH a = s.rdH a

/-- R151 to R153: an accepted CPY enters the copy table with its lanes' two sides, and its fragment's unsealed copies, and goes on; with a
circular buffer it takes slot PRD when one is free and nobody waits. CSEAL moves the unsealed copies to batch n; CWAIT goes on once a
batch's copies have completed, freeing the batch, else it waits. No byte changes. That V is tested after the record and before the lanes is
the model's reading (log entry 33). -/
def Sys2Proof.Claim.Copies : Prop :=
  ∀ (s : State) (k : Nat) (w : Wave) (fr : Frag), Issues s k w fr →
    ∀ (g : Guard) (sz n b : Nat) (out : Bool) (d a : VOp) (imm : Word) (r : BufRec) (s1 : State) (la : List LaneAddr)
      (pl : List (Nat × Option Nat × Nat)),
    let ls := lanesOf (sel s w fr g)
    let len := 4 * 2 ^ sz
    let win := winOf s w
    let p := cbOf s w n
    let c := s.cb w.core p
    let idx (l : Nat) : Int := elemIndex (inA s w a l) (some imm)
    let off (l : Nat) : Nat := (rdV s w 0 d l).toNat
    let vas := pl.filterMap fun x => x.2.1.map fun v => (x.1, v)
    let key (l : Nat) : Option (Space × Nat) := (la.find? fun x => x.lane = l).map fun x => (Space.global, x.key)
    let side (o : Nat) : Option (Space × Nat) := some (Space.scratch w.core, o)
    let Ok (put : Nat → Except LaneFault Nat) : Prop :=
      checkRecord (rdRecord s w 2 b) = .ok r ∧ gather (ls.map fun l => (l, copySides r (idx l) len (put l))) true 1 = .ok pl ∧
      translateLines s (s.walker w) (if out then .write else .read) true true vas = (s1, .ok la) ∧ (∀ x ∈ la, x.sp = false) ∧
      roomFor s1 w.core (heldLines la).length = true ∧ s1.copiesOn w.core < 512
    let on := w.frags.map fun f => if f.num = fr.num then { f with pc := pcAdd fr.pc 16, unsealed := f.unsealed ++ [s.nextCopy] } else f
    (Ok (fun l => placeScratch win.2 (off l) len) →
      ∃ z y, exec (.cpy g sz out none d b a imm) s = .next z ∧ OnlyCopies s k { w with frags := on } z ∧
        kfind z.copies s.nextCopy = some y ∧ (∀ i, i ≠ s.nextCopy → kfind z.copies i = kfind s.copies i) ∧
        y.lanes = pl.map (fun x => { lane := x.1, src := if out then side (win.1 + x.2.2) else key x.1,
                                     dst := if out then key x.1 else side (win.1 + x.2.2), len }) ∧
        y.core = w.core ∧ y.task = w.task ∧ y.wave = some k ∧ y.cb = none ∧ y.slotOf = none ∧ ∀ c j, z.cb c j = s.cb c j) ∧
    (Ok (fun l => placeSlot (16 * c.ssz) (off l) len) → c.v = true → out = false → c.free ≠ 0 → NoWaiters s w.core p →
      ∃ z y, exec (.cpy g sz out (some n) d b a imm) s = .next z ∧ OnlyCopies s k { w with frags := on } z ∧
        kfind z.copies s.nextCopy = some y ∧ (∀ i, i ≠ s.nextCopy → kfind z.copies i = kfind s.copies i) ∧
        y.cb = some (p, c.prd) ∧ y.slotOf = none ∧ y.lanes.map (·.src) = pl.map (fun x => key x.1) ∧
        z.cb w.core p = { c with prd := (c.prd + 1) % (c.nsl + 1), wh := c.wh + 1, free := c.free - 1 } ∧
        ∀ j, j ≠ p → z.cb w.core j = s.cb w.core j) ∧
    (∃ z, exec (.cseal n) s = .next z ∧ OnlyWave s k { w with frags := w.frags.map fun f => if f.num = fr.num then
        { f with pc := pcAdd fr.pc 8, batches := kset [] f.batches n (kget [] f.batches n ++ f.unsealed), unsealed := [] } else f } z) ∧
    ((∀ i ∈ kget [] fr.batches n, kfind s.copies i = none) → ∃ z, exec (.cwait n) s = .next z ∧
      OnlyWave s k { w with frags := w.frags.map fun f => if f.num = fr.num then
        { f with pc := pcAdd fr.pc 8, batches := kset [] f.batches n [] } else f } z) ∧
    ((∃ i ∈ kget [] fr.batches n, kfind s.copies i ≠ none) → ∃ z, exec (.cwait n) s = .next z ∧
      OnlyWave s k { w with
        frags := w.frags.map fun f => if f.num = fr.num then { f with st := .waiting (.cwait n) } else f
        cur := if w.cur = some fr.num then none else w.cur } z)

/-- R152, R206: a copy lane's Capture puts its source's bytes, zeros without a source, at its destination; reads ahead and completion change
no byte, and a completed copy is no longer in the table. -/
def Sys2Proof.Claim.CopyMoves : Prop :=
  ∀ (s : State) (id : Nat) (c : Copy) (l : CopyLane), Running s → kfind s.copies id = some c → c.tileOp = false →
    let byte (i : Nat) : Byte := copyByte s c l i
    let Due : Prop := (c.lanes.find? fun x => x.lane = l.lane && !x.done) = some l
    (Due → c.slotOf = none → copyHeld s c l = false → l.low = false →
      ∃ z c', exec (.capture (.copy id l.lane)) s = .next z ∧ kfind z.copies id = some c' ∧
        c'.lanes = (c.lanes.map fun x => if x.lane = l.lane then { x with done := true } else x) ∧
        (∀ a, z.rdH a = s.rdH a) ∧
        (∀ core o, l.dst = some (.scratch core, o) → ∀ q x, z.rdScratch q x =
          if q = core ∧ o ≤ x ∧ x < o + l.len then byte (x - o) else s.rdScratch q x) ∧
        (∀ o, l.dst = some (.global, o) → (∀ i, i < l.len → isWindow (o + i) = false) →
          (∀ i, i < l.len → z.readByte c.core [] .global (o + i) false = byte i) ∧ ∀ q x, z.rdScratch q x = s.rdScratch q x)) ∧
    (∀ sp a addrs, Due → l.src = some (sp, a) → ∃ z, exec (.capture (.copyRead id l.lane addrs)) s = .next z ∧
      z = { s with copies := z.copies } ∧ (∀ i, i ≠ id → kfind z.copies i = kfind s.copies i) ∧
      ∀ q x, z.rdScratch q x = s.rdScratch q x) ∧
    (c.slotOf = none → (∀ x ∈ c.lanes, x.done = true) → c.late = none → c.cb = none →
      ∃ z, exec (.copyComplete id) s = .next z ∧ kfind z.copies id = none ∧ (∀ i, i ≠ id → kfind z.copies i = kfind s.copies i) ∧
        (∀ a, z.rdH a = s.rdH a) ∧ ∀ q x, z.rdScratch q x = s.rdScratch q x)

/-- R212 to R216: FENCE takes the lowest free record, its token is record + 8 times the sequence number, and waits for none of what it covers;
a fence completes once that is all performed, and with ST or CP its core then publishes its task's entries at its scope; FWAIT waits for the record of its token only; REL publishes once its fragment's counters
are zero, ACQ refreshes; none of them changes another register. -/
def Sys2Proof.Claim.Fences : Prop :=
  ∀ (s : State) (k : Nat) (w : Wave) (fr : Frag), Issues s k w fr → ∀ (ld st cp : Bool) (d a i : Nat) (sc : Scope),
    let on := at_ w fr (pcAdd fr.pc 8)
    let rec_ (j : Nat) : FenceRec := kget {} w.fences j
    let tok := (rdS s w 1 a).toNat
    let waits (x : Wait) : Wave := { w with
      frags := w.frags.map fun f => if f.num = fr.num then { f with st := .waiting x } else f
      cur := if w.cur = some fr.num then none else w.cur }
    (i < 8 → (rec_ i).pending = false → (∀ j, j < i → (rec_ j).pending = true) →
      ∃ z w', exec (.fence ld st cp d sc) s = .next z ∧ OnlyWave s k w' z ∧
        (∀ n, w'.sraw n = if n = d then BitVec.ofNat 32 (w.fenceSeq * 8 + i) else w.sraw n) ∧
        w'.fenceSeq = (if w.fenceSeq = 2 ^ 29 - 1 then 1 else w.fenceSeq + 1) ∧
        (∀ j, j ≠ i → kget {} w'.fences j = rec_ j) ∧
        (kget {} w'.fences i).pending = true ∧ (kget {} w'.fences i).pub = (st || cp) ∧ (kget {} w'.fences i).seq = w.fenceSeq ∧ (kget {} w'.fences i).scope = s.resolve w sc ∧
        (∀ e ∈ w.replay, e.frag = fr.num → (∃ bs, e.kind = .store bs) ∨ (∃ q, e.kind = .atomic q) → st = true →
          e.id ∈ (kget {} w'.fences i).entries) ∧
        (∀ e ∈ w.replay, e.frag = fr.num → (∃ x1 x2 x3 x4 x5 x6, e.kind = .load x1 x2 x3 x4 x5 x6) ∨ (∃ x1 x2 x3, e.kind = .sumLoad x1 x2 x3) → ld = true →
          e.id ∈ (kget {} w'.fences i).entries) ∧
        (∀ x ∈ fr.unsealed, cp = true → kfind s.copies x ≠ none → x ∈ (kget {} w'.fences i).copies) ∧
        w' = { w with sreg := w'.sreg, fences := w'.fences, fenceSeq := w'.fenceSeq, frags := on }) ∧
    ((∀ j, j < 8 → (rec_ j).pending = true) → exec (.fence ld st cp d sc) s = .next s) ∧
    ((rec_ (tok % 8)).pending = false ∨ tok / 8 = 0 ∨ (rec_ (tok % 8)).seq ≠ tok / 8 →
      ∃ z, exec (.fwait a) s = .next z ∧ Goes s k w fr (pcAdd fr.pc 8) z) ∧
    ((rec_ (tok % 8)).pending = true → tok / 8 ≠ 0 → (rec_ (tok % 8)).seq = tok / 8 →
      ∃ z, exec (.fwait a) s = .next z ∧ OnlyWave s k (waits (.fwait (tok % 8) (tok / 8))) z) ∧
    (fr.lc = 0 → fr.sc = 0 → fr.kc = 0 →
      exec (.rel sc) s = .next ({ s with waves := kinsert s.waves k { w with frags := on } }.publish w.core (s.resolve w sc) w.task [fragKey k fr.num])) ∧
    (fr.lc ≠ 0 ∨ fr.sc ≠ 0 ∨ fr.kc ≠ 0 → ∃ z, exec (.rel sc) s = .next z ∧ OnlyWave s k (waits .rel) z) ∧
    (∃ z, exec (.acq sc) s = .next z ∧ kfind z.waves k = some { w with frags := on } ∧ (∀ a, z.rdH a = s.rdH a) ∧
      ∀ v, v ≠ vSnap w.core → kget [] z.views v = kget [] s.views v) ∧
    (Running s → w.resident = true → (rec_ i).pending = true →
      ((rec_ i).open w s.copies = true → exec (.fenceComplete k i) s = .next s) ∧
      ((rec_ i).open w s.copies = false → (rec_ i).pub = false →
        ∃ z w', exec (.fenceComplete k i) s = .next z ∧ kfind z.waves k = some w' ∧ (kget {} w'.fences i).pending = false ∧
          w'.vreg = w.vreg ∧ w'.sreg = w.sreg ∧ ∀ a, z.rdH a = s.rdH a) ∧
      ((rec_ i).open w s.copies = false → (rec_ i).pub = true →
        let p := ({ s with waves := kinsert s.waves k { w with fences := kinsert w.fences i { rec_ i with pending := false } } }).publish
          w.core (rec_ i).scope w.task [fragKey k (rec_ i).frag]
        ∃ z w', exec (.fenceComplete k i) s = .next z ∧ kfind z.waves k = some w' ∧ (kget {} w'.fences i).pending = false ∧
          w'.vreg = w.vreg ∧ w'.sreg = w.sreg ∧ (∀ a, z.rdH a = p.rdH a) ∧ z.views = p.views ∧ ∀ c, (z.core c).phase = (p.core c).phase))

/-- The keys of a map rise strictly. -/
abbrev Sys2Proof.Claim.Rising {α : Type} (m : KMap α) : Prop := (kkeys m).Pairwise (· < ·)

/-- The members of a barrier as blocks of tasks (R225 to R227): the block, the blocks of the gang, the blocks of the group. -/
def Sys2Proof.Claim.membersOf (s : State) (key : Nat) : List (Nat × Nat) :=
  let i := key / 3
  match key % 3 with
  | 0 => [(i / 8, i % 8)]
  | 1 => (List.range (((kfind s.tasks i).map (·.nblk)).getD 0)).map fun b => (i, b)
  | _ => (kget [] (((kfind s.launches (i / 256)).map (·.groups)).getD []) (i % 256)).filterMap (taskOfBlock s (i / 256))

/-- A member that no longer keeps the open phase of a barrier from completing once fragment `n` of wave `k` has arrived (R228): its task has
ended, or its waves are there and every fragment of each that has not ended has arrived in this phase. -/
def Sys2Proof.Claim.Done (s : State) (key k n : Nat) (m : Nat × Nat) : Prop :=
  ∀ x, kfind s.tasks m.1 = some x → x.st = .retired ∨ x.st = .killed ∨
    ((x.st ≠ .pending ∧ x.st ≠ .saved ∨ ∃ p ∈ s.waves, p.2.task = m.1 ∧ p.2.blk = m.2) ∧
      ∀ p ∈ s.waves, p.2.task = m.1 → p.2.blk = m.2 → p.2.ended = false →
        p.2.frags ≠ [] ∧ ∀ f ∈ p.2.frags, (p.1 = k ∧ f.num = n) ∨ kfind f.arrivals key = some (s.barC key))

/-- R225 to R230: BARA and BAR arrive at a block's, a gang's or a group's barrier; the phase completes, and the count advances, exactly
when every member is then done; BARA gives the phase's token, with bit 31 set by the last arrival, and goes on; BAR goes on when the phase
has completed and else waits. BARW goes on once the count differs from its token's phase, else it waits; a target that names no barrier traps. That a waiting BARW keeps
that phase, whatever is written to its scalar, is the model's reading (log entry 85). -/
def Sys2Proof.Claim.Barriers : Prop :=
  ∀ (s : State) (k : Nat) (w : Wave) (fr : Frag), Issues s k w fr → ∀ (d a : Nat) (sc : Scope) (tgt : BarTarget) (key : Nat),
    let c := s.barC key
    let quiet : Prop := fr.lc = 0 ∧ fr.sc = 0 ∧ fr.kc = 0
    let e : Exc := { kind := 0x20, level := 2, detail := match tgt with | .slot n => n | _ => 0 }
    let all : Prop := ∀ m ∈ membersOf s key, Done s key k fr.num m
    (barOfTarget s w tgt = none → (∀ c, fr.phase ≠ .arrived c) →
      exec (.bar tgt sc) s = .next (takeTrap s k w fr e) ∧ exec (.bara d tgt sc) s = .next (takeTrap s k w fr e) ∧
      exec (.barw a tgt sc) s = .next (takeTrap s k w fr e)) ∧
    (barOfTarget s w tgt = some key → kfind fr.arrivals key ≠ some c → (∀ c, fr.phase ≠ .arrived c) → quiet → Rising s.waves → w.ended = false →
      (∀ x, kfind s.tasks w.task = some x → x.st = .resident) → (w.task, w.blk) ∈ membersOf s key → (∃ x, kfind s.tasks w.task = some x) →
      (∃ z w' f, exec (.bara d tgt sc) s = .next z ∧ kfind z.waves k = some w' ∧ w'.frag fr.num = some f ∧ f.pc = pcAdd fr.pc 8 ∧
        kfind f.arrivals key = some c ∧ (∀ j, j ≠ key → z.barC j = s.barC j) ∧ w'.vreg = w.vreg ∧ w'.preds = w.preds ∧ w'.cond = w.cond ∧
        (all → z.barC key = (c + 1) % 2 ^ 31 ∧ ∀ m, w'.sraw m = if m = d then BitVec.ofNat 32 (c + 2 ^ 31) else w.sraw m) ∧
        (¬all → z.barC key = c ∧ ∀ m, w'.sraw m = if m = d then BitVec.ofNat 32 c else w.sraw m)) ∧
      (∃ z w' f, exec (.bar tgt sc) s = .next z ∧ kfind z.waves k = some w' ∧ w'.frag fr.num = some f ∧
        (∀ j, j ≠ key → z.barC j = s.barC j) ∧ w'.vreg = w.vreg ∧ w'.sreg = w.sreg ∧ w'.preds = w.preds ∧ w'.cond = w.cond ∧
        (all → z.barC key = (c + 1) % 2 ^ 31 ∧ f.pc = pcAdd fr.pc 8) ∧
        (¬all → z.barC key = c ∧ f.pc = fr.pc ∧ f.st = .waiting (.barrier key)))) ∧
    (barOfTarget s w tgt = some key →
      ∀ p, fr.phase = .arrived p ∨ ((∀ c, fr.phase ≠ .arrived c) ∧ p = (rdS s w 1 a).toNat % 2 ^ 31) →
      (c ≠ p → ∃ z, exec (.barw a tgt sc) s = .next z ∧
        kfind z.waves k = some { w with frags := w.frags.map fun f => if f.num = fr.num then
          { f with pc := pcAdd fr.pc 8, phase := .none, st := .issuing } else f } ∧ ∀ a, z.rdH a = s.rdH a) ∧
      (c = p → ∃ z, exec (.barw a tgt sc) s = .next z ∧
        OnlyWave s k { w with
          frags := w.frags.map fun f => if f.num = fr.num then { f with phase := .arrived c, st := .waiting (.barrier key) } else f
          cur := if w.cur = some fr.num then none else w.cur } z))

/-- A 32-bit word of a scratchpad is `v`, little-endian. -/
def Sys2Proof.Claim.WordIs (z : State) (c a v : Nat) : Prop := ∀ i, i < 4 → z.rdScratch c (a + i) = BitVec.ofNat 8 (v / 2 ^ (8 * i))

/-- R232 to R235: QPUSH with room stores the selected lanes' elements, lowest lane first, from TAIL on and advances TAIL; QPOP with enough
elements gives them to the selected lanes from HEAD on and advances HEAD; every other scratchpad byte stays. A blocking operation that
lacks room or elements, or comes after another of its kind that waits, waits and changes no byte; NB serves as many lanes as it can and, where it
serves not all, tells which. An address that is not a multiple of 16 traps; a QPUSH waits for its own accesses as a REL does. With no lane
selected both only go on. That last point, that the order holds among operations of one kind, and that a fragment that goes on waits no more, are
the model's readings (log entries 34 and 77). -/
def Sys2Proof.Claim.HardwareQueues : Prop :=
  ∀ (s : State) (k : Nat) (w : Wave) (fr : Frag), Issues s k w fr →
    ∀ (g : Guard) (nb : Option Nat) (sc : Scope) (d : VOp) (a : Nat) (q : HwQueue),
    let m := sel s w fr g
    let key := scratchKey q.core q.at_
    let all := lanesOf m
    let n (have_ : Nat) : Nat := if nb.isSome then min have_ all.length else all.length
    let entry (i : Nat) : Nat := q.at_ + 16 + 4 * (i % q.cap)
    let served (w' : Wave) (n : Nat) : Prop :=
      ∀ p l, p < 7 → l < 32 → (kget 0 w'.preds p).getLsbD l =
        if nb = some p ∧ n < all.length ∧ l ∈ all then decide (l ∈ all.take n) else (kget 0 w.preds p).getLsbD l
    let First (push : Bool) : Prop :=
      nb ≠ none ∨ ∀ p, (kget [] s.qwaits key).find? (fun p => p.2.2 == push) = some p → p.1 = k ∧ p.2.1 = fr.num
    let Done (i : Instr) (P : State → Wave → Prop) : Prop :=
      ∃ z w' f, exec i s = .next z ∧ kfind z.waves k = some w' ∧ w'.frag fr.num = some f ∧ f.pc = pcAdd fr.pc 8 ∧ w'.sreg = w.sreg ∧
        LeavesQueues k fr.num s z ∧ P z w'
    let Waits (i : Instr) (x : Wait) : Prop :=
      ∃ z w' f, exec i s = .next z ∧ kfind z.waves k = some w' ∧ w'.frag fr.num = some f ∧ f.st = .waiting x ∧ f.pc = fr.pc ∧
        w'.vreg = w.vreg ∧ w'.preds = w.preds ∧ (∀ c x, z.rdScratch c x = s.rdScratch c x) ∧
        ∀ push, i = .qpush g nb sc d a ∧ push = true ∨ i = .qpop g nb sc d a ∧ push = false → x = .queue key →
          ∃ l, (key, l) ∈ z.qwaits ∧ (k, fr.num, push) ∈ l
    (∀ i ∈ [Instr.qpush g nb sc d a, .qpop g nb sc d a],
      (m = 0 → ∃ z, exec i s = .next z ∧ z = { s with waves := kinsert s.waves k { w with frags := at_ w fr (pcAdd fr.pc 8) }, qwaits := z.qwaits } ∧
        LeavesQueues k fr.num s z) ∧
      (∀ l, m ≠ 0 → (rdS s w 1 a).toNat % 16 ≠ 0 → all.head? = some l →
        exec i s = .next (takeTrap s k w fr
          { kind := 0x11, level := 2, lane := some l, addr := (rdS s w 1 a).toNat, detail := 3 + m.toNat * 2 ^ 32 }))) ∧
    (m ≠ 0 → findQueue s w (rdS s w 1 a).toNat = .ok q →
      (WordIs s q.core q.at_ q.head ∧ WordIs s q.core (q.at_ + 4) q.tail ∧ ∃ e, 5 ≤ e ∧ e ≤ 12 ∧ q.cap = 2 ^ e) ∧
      (fr.quiet = false → Waits (.qpush g nb sc d a) .rel) ∧
      (fr.quiet = true →
        (n q.free ≤ q.free → First true → Done (.qpush g nb sc d a) fun z w' =>
          w'.vreg = w.vreg ∧ served w' (n q.free) ∧
          (∀ i, i < n q.free → ∀ l, all[i]? = some l → WordIs z q.core (entry (q.tail + i)) (rdV s w 0 d l).toNat) ∧
          (n q.free ≠ 0 → WordIs z q.core (q.at_ + 4) ((q.tail + n q.free) % 2 ^ 32)) ∧
          (∀ c x, (c = q.core → (n q.free = 0 ∨ x < q.at_ + 4 ∨ q.at_ + 8 ≤ x) ∧
              ∀ i, i < n q.free → x < entry (q.tail + i) ∨ entry (q.tail + i) + 4 ≤ x) → z.rdScratch c x = s.rdScratch c x)) ∧
        (q.free < n q.free ∨ ¬First true → Waits (.qpush g nb sc d a) (.queue key))) ∧
      (n q.occ ≤ q.occ → First false → Done (.qpop g nb sc d a) fun z w' =>
        served w' (n q.occ) ∧
        (∀ i, i < n q.occ → ∀ l, all[i]? = some l → w'.vraw (VOp.field d) l = BitVec.ofNat 32 (scratchWord s q.core (q.slot (q.head + i)))) ∧
        (∀ f l, l < 32 → ¬(f = VOp.field d ∧ l ∈ all.take (n q.occ)) → w'.vraw f l = w.vraw f l) ∧
        (n q.occ ≠ 0 → WordIs z q.core q.at_ ((q.head + n q.occ) % 2 ^ 32)) ∧
        (∀ c x, c = q.core → n q.occ = 0 ∨ x < q.at_ ∨ q.at_ + 4 ≤ x → z.rdScratch c x = s.rdScratch c x) ∧
        (∀ c x, c ≠ q.core → z.rdScratch c x = s.rdScratch c x)) ∧
      (q.occ < n q.occ ∨ ¬First false → Waits (.qpop g nb sc d a) (.queue key)))

/-- R241 to R243: TLOOP.init of a well-formed nest with LAMBDA below PC gives the wave its share [LAMBDA·T/PC, (LAMBDA+1)·T/PC) of the T
iterations and writes their number; TLOOP.next writes the four coordinates of the next iteration and sets its condition, or clears the
condition when none is left. -/
def Sys2Proof.Claim.LoopNests : Prop :=
  ∀ (s : State) (k : Nat) (w : Wave) (fr : Frag), Issues s k w fr → ∀ (d a b c : Nat) (imm : Word) (s1 : State) (y : LaneAddr),
    let x := rdS2 s w 1 a + imm.signExtend 64
    let va := x.toNat % 2 ^ 57
    let lam := (rdS s w 2 b).toNat
    let bs := waveRead s1 w fr y 32
    let n (i : Nat) : Nat := ofBytes ((bs.drop (2 * i)).take 2)
    let total := n 0 * n 1 * n 2 * n 3
    let lo := lam * total / n 5
    let hi := (lam + 1) * total / n 5
    (canon x.toNat = x → va % 32 = 0 →
      translateLines s (s.walker w) .read false false [(0, va)] = (s1, .ok [y]) → y.sp = false →
      watchTest s1 w fr .read false [(0, va)] 32 = none → heldBack s1 k w fr.num w.nextEntry true [(.global, y.key, 32)] = false → badNest bs = none → lam < n 5 →
      ∃ z w', exec (.tloopInit d a b imm) s = .next z ∧ OnlyAccess s k w' z ∧
        (∀ m, w'.sraw m = if m = d then BitVec.ofNat 32 (hi - lo) else w.sraw m) ∧
        w'.cursor.valid = true ∧ w'.cursor.i = lo ∧ w'.cursor.hi = hi ∧ w'.cursor.n = [n 0, n 1, n 2, n 3] ∧
        w' = { w with sreg := w'.sreg, cursor := w'.cursor, frags := w'.frags } ∧
        ∀ f, w'.frag fr.num = some f → f.pc = pcAdd fr.pc 16 ∧ f.mask = fr.mask) ∧
    (canon x.toNat ≠ x → exec (.tloopInit d a b imm) s = .next (takeTrap s k w fr { kind := 0x11, addr := x.toNat, detail := 1 })) ∧
    (canon x.toNat = x → va % 32 ≠ 0 →
      exec (.tloopInit d a b imm) s = .next (takeTrap s k w fr { kind := 0x11, addr := x.toNat, detail := 3 })) ∧
    (c < 4 → w.cursor.valid = true → w.cursor.i < w.cursor.hi →
      ∃ z w', exec (.tloopNext d c) s = .next z ∧ OnlyWave s k w' z ∧
        (∀ m, m < 4 → w'.sraw (d + m) = BitVec.ofNat 32 (nestCoord w.cursor w.cursor.i m)) ∧
        (∀ m, m < d ∨ d + 4 ≤ m → w'.sraw m = w.sraw m) ∧ (∀ i, i < 4 → w'.cond.getLsbD i = (decide (i = c) || w.cond.getLsbD i)) ∧
        w' = { w with
          sreg := w'.sreg
          cond := w'.cond
          cursor := { w.cursor with i := w.cursor.i + 1 }
          frags := at_ w fr (pcAdd fr.pc 16) }) ∧
    (c < 4 → w.cursor.valid = false ∨ w.cursor.hi ≤ w.cursor.i →
      ∃ z w', exec (.tloopNext d c) s = .next z ∧ OnlyWave s k w' z ∧
        (∀ i, i < 4 → w'.cond.getLsbD i = (decide (i ≠ c) && w.cond.getLsbD i)) ∧
        w' = { w with cond := w'.cond, frags := at_ w fr (pcAdd fr.pc 16) })

/-! ### Atomics, cells and summaries (R210, R262 to R264, R267 to R302) -/

/-- `z` is `s` but for wave `k`'s record, the homes' atomic queues, cached translations, the L2s' contents and the request counts; memory
reads as before. -/
def Sys2Proof.Claim.OnlyAtoms (s : State) (k : Nat) (w' : Wave) (z : State) : Prop :=
  z = { s with waves := kinsert s.waves k w', atomQ := z.atomQ, tlb := z.tlb, counters := z.counters, l2 := z.l2 } ∧ ∀ a, z.rdH a = s.rdH a

/-- R262 to R264: an accepted VATOM, VCAS or SATOM enters the replay list, and its lanes join the queues of their homes in ascending order;
with a destination, lanes without an access get 0, and no other register changes. RET makes VATOM count in LC, else in SC; VCAS counts in
LC, SATOM in KC. -/
def Sys2Proof.Claim.AtomicsAccepted : Prop :=
  ∀ (s : State) (k : Nat) (w : Wave) (fr : Frag), Issues s k w fr →
    ∀ (g : Guard) (op : AtomOp) (t : Ty) (d a c : VOp) (b ds as : Nat) (imm : Word) (sc : Scope) (ret : Bool) (s1 : State) (x : Accepted),
    let m := sel s w fr g
    let Joins (i : Instr) (ctr : Ctr) (len : Nat) (kind : Option AtomOp) (sc : Scope) (dst : Option RegId) (lanes : Word)
        (dat cmp : Nat → Word) : Prop :=
      ∃ z w' e, exec i s = .next z ∧ OnlyAtoms s k w' z ∧ e.kind = .atomic x.lanes.length ∧ e.id = w.nextEntry ∧ e.frag = fr.num ∧
        e.holder = .frag fr.num ∧ e.ctr = ctr ∧ e.earlier = w.openStores fr.num ∧ e.lines = heldLines x.lanes ∧ e.cells = [] ∧
        (∀ f l, l < 32 → w'.vraw f l = if dst = some (.vec f) ∧ l ∈ x.nones then 0 else w.vraw f l) ∧
        (∀ n, w'.sraw n = if dst = some (.sca n) ∧ x.nones ≠ [] then 0 else w.sraw n) ∧
        (∀ h, kget [] z.atomQ h = kget [] s.atomQ h ++ (x.lanes.filter fun y => homeDie y.key = h).map fun y =>
          .lane k w.nextEntry y.lane kind t y.key (dat y.lane) (cmp y.lane) (s.resolve w sc) w.core dst (s1.writer k fr.num 1)) ∧
        w' = { w with
          vreg := w'.vreg
          sreg := w'.sreg
          replay := w.replay ++ [e]
          nextEntry := w.nextEntry + 1
          undef := w.undef ++ dst.toList.map fun r => { reg := r, lanes, entry := w.nextEntry, ctr, holder := .frag fr.num }
          frags := accepted w fr ctr len }
    let Ok (r : State × Except Exc Accepted) : Prop := Passes w r s1 x ∧ x.lanes ≠ []
    let vec (off : Option Word) := acceptRec s w fr (rdRecord s w 2 b) (lanesOf m) (fun l => elemIndex (inA s w a l) off) 4 .atomic .atomic
      true false refuseCells
    let sca (off : Option Word) := acceptRec s w fr (rdRecord s w 2 b) [0] (fun _ => elemIndex (rdS s w 1 as) off) 4 .atomic .atomic
      false false refuseCells
    (∀ l ∈ x.nones, l < 32) →
    (Ok (vec none) → Joins (.vatom g op t d b a none) .sc 8 (some op) .device none m (rdV s w 0 d) fun _ => 0) ∧
    (Ok (vec (some imm)) → Joins (.vatom g op t d b a (some (imm, sc, ret))) (if ret then .lc else .sc) 16 (some op) sc
      (if ret then some (.vec (VOp.field d)) else none) m (rdV s w 0 d) fun _ => 0) ∧
    (Ok (vec (some imm)) → Joins (.vcas g t d b a c imm sc) .lc 16 none sc (some (.vec (VOp.field d))) m (rdV s w 0 d) (inC s w c)) ∧
    (Ok (sca none) → Joins (.satom op t ds b as none) .kc 8 (some op) .device none 1 (fun _ => rdS s w 0 ds) fun _ => 0) ∧
    (Ok (sca (some imm)) → Joins (.satom op t ds b as (some (imm, sc, ret))) .kc 16 (some op) sc
      (if ret then some (.sca ds) else none) 1 (fun _ => rdS s w 0 ds) fun _ => 0)

/-- R65, R84, R210, R263: the lane atomic at the head of a home's queue reads its word of memory, writes the operation's result there in the same move,
and gives its destination the old word; every other byte reads as before. FP32 sums are rounded to nearest with subnormals kept. -/
def Sys2Proof.Claim.AtomicPerforms : Prop :=
  ∀ (s : State) (h k id lane a core : Nat) (op : Option AtomOp) (t : Ty) (d c : Word) (sc : Scope) (dst : Option RegId) (who : Writer)
    (rest : List AtomReq) (w : Wave), Running s → s.debugQs = [] → t = .i32 ∨ t = .u32 ∨ t = .f32 →
    kget [] s.atomQ h = .lane k id lane op t a d c sc core dst who :: rest → atomHeld s k id .global a 4 = false →
    kfind s.waves k = some w → (∃ e ∈ w.replay, e.id = id) → lane < 32 →
    let old := s.word a
    let lt (x y : Word) : Prop := if t = .i32 then x.toInt < y.toInt else x.toNat < y.toNat
    ∃ z w' v, exec (.atomicPerform h) s = .next z ∧ kfind z.waves k = some w' ∧ kget [] z.atomQ h = rest ∧
      (op = none → v = if old = c then d else old) ∧ (t ≠ .f32 → op = some .add → v = old + d) ∧ (op = some .and → v = old &&& d) ∧
      (op = some .or → v = old ||| d) ∧ (op = some .xor → v = old ^^^ d) ∧ (op = some .xchg → v = d) ∧
      (t ≠ .f32 → (op = some .min → (v = old ∨ v = d) ∧ ¬lt old v ∧ ¬lt d v) ∧ (op = some .max → (v = old ∨ v = d) ∧ ¬lt v old ∧ ¬lt v d)) ∧
      (t = .f32 → (op = some .min → v.toNat = pick_ fp32 false old.toNat d.toNat) ∧ (op = some .max → v.toNat = pick_ fp32 true old.toNat d.toNat) ∧
        (op = some .add → (isNaN fp32 old.toNat ∨ isNaN fp32 d.toNat → v.toNat = canonicalNaN fp32) ∧
          (isFin fp32 old.toNat → isFin fp32 d.toNat → Rounded fp32 1 (finOf fp32 old.toNat + finOf fp32 d.toNat : ℚ) v.toNat))) ∧
      (∀ i, i < 4 → z.rdH (a + i) = v.extractLsb' (8 * i) 8) ∧ (∀ x, x < a ∨ a + 4 ≤ x → z.rdH x = s.rdH x) ∧
      (∀ f l, l < 32 → w'.vraw f l = if dst = some (.vec f) ∧ l = lane then old else w.vraw f l) ∧
      ∀ n, w'.sraw n = if dst = some (.sca n) then old else w.sraw n

/-- R267, R271 to R276: with every check passed, CELLSET publishes and makes each lane's cell a SPORE of its record, CELLCLR a VALUE of zeros,
CELLPUT a VALUE of its group where the task grows the cell, each after its release; with no lane selected they change nothing (R19); CELLQ writes each lane's tag, all ones without an access.
Other cells, other bytes and the other registers stay. -/
def Sys2Proof.Claim.CellWrites : Prop :=
  ∀ (s : State) (k : Nat) (w : Wave) (fr : Frag), Issues s k w fr → s.debugQs = [] →
    ∀ (g : Guard) (d a : VOp) (b : Nat) (imm : Word) (sc : Scope) (s1 : State) (x : Accepted),
    let m := sel s w fr g
    let acc (off : Option Word) := acceptRec s w fr (rdRecord s w 2 b) (lanesOf m) (fun l => elemIndex (inA s w a l) off) 32 .cell .cell
      true false (cellStages true)
    let Ok (r : State × Except Exc Accepted) : Prop :=
      m ≠ 0 ∧ r = (s1, .ok x) ∧ roomFor s1 w.core (heldLines x.lanes).length = true ∧ fr.lc = 0 ∧ fr.sc = 0 ∧ fr.kc = 0 ∧
      (x.lanes.map fun y => y.key / 32).Nodup
    let count := match s.launchOf w.task with | some l => if l.hasStab then l.scnt else 0 | none => 0
    let Writes (i : Instr) (len : Nat) (s2 : State) (tag : Nat) (bytes : Nat → List Byte) : Prop :=
      ∃ z w', exec i s = .next z ∧ kfind z.waves k = some w' ∧
        (∀ f, w'.frag fr.num = some f → f.pc = pcAdd fr.pc len) ∧ w'.vreg = w.vreg ∧ w'.sreg = w.sreg ∧ w'.preds = w.preds ∧
        w'.cond = w.cond ∧ w'.flags = w.flags ∧
        (∀ y ∈ x.lanes, z.tag (y.key / 32) = tag ∧ ∀ j, j < 32 → some (z.rdH (32 * (y.key / 32) + j)) = (bytes y.lane)[j]?) ∧
        (∀ c, (∀ y ∈ x.lanes, y.key / 32 ≠ c) → z.tag c = s.tag c ∧ ∀ j, j < 32 → z.rdH (32 * c + j) = s2.rdH (32 * c + j))
    (Ok (acc (some imm)) → (∀ y ∈ x.lanes, s.tag (y.key / 32) ≠ tGROWING ∧ badRecord (groupBytes s w d y.lane) count = none) →
      Writes (.cellset g d b a imm sc) 16 (s1.publish w.core (s.resolve w sc) w.task [fragKey k fr.num]) tSPORE (groupBytes s w d)) ∧
    (Ok (acc none) → (∀ y ∈ x.lanes, s.tag (y.key / 32) ≠ tGROWING) →
      Writes (.cellclr g b a sc) 8 (s1.publish w.core (s.resolve w sc) w.task [fragKey k fr.num]) tVALUE fun _ => List.replicate 32 0) ∧
    (Ok (acc none) → x.lanes ≠ [] → (∀ y ∈ x.lanes, (s.ownGrowth w (y.key / 32)).isSome) →
      ∃ wide, Writes (.cellput g d b a) 8 (s1.publish w.core wide w.task [fragKey k fr.num]) tVALUE (groupBytes s w d)) ∧
    (let Skips (off : Option Word) (i : Instr) : Prop := acc off = (s1, .ok x) → ∃ z w', exec i s = .next z ∧ OnlyAccess s k w' z ∧
        w' = { w with frags := w'.frags } ∧ ∀ f, w'.frag fr.num = some f → f.pc = pcAdd fr.pc (lenOf off)
     m = 0 → Skips (some imm) (.cellset g d b a imm sc) ∧ Skips none (.cellclr g b a sc) ∧ Skips none (.cellput g d b a)) ∧
    (acceptRec s w fr (rdRecord s w 2 b) (lanesOf m) (fun l => elemIndex (inA s w a l) none) 32 .read .atomic true false (cellStages false) =
        (s1, .ok x) → roomFor s1 w.core (heldLines x.lanes).length = true →
      ∃ z w', exec (.cellq g d b a) s = .next z ∧ OnlyAccess s k w' z ∧
        (∀ l, Picked s w fr g l → w'.vraw (VOp.field d) l =
          match x.lanes.find? fun y => y.lane = l with | some y => BitVec.ofNat 32 (s.tag (y.key / 32)) | none => 0xFFFFFFFF) ∧
        (∀ f l, l < 32 → ¬(f = VOp.field d ∧ Picked s w fr g l) → w'.vraw f l = w.vraw f l) ∧
        w' = { w with vreg := w'.vreg, undef := w'.undef, nextEntry := w'.nextEntry, frags := w'.frags } ∧
        ∀ f, w'.frag fr.num = some f → f.pc = pcAdd fr.pc 8)

/-- R278, R282, R284: a load that meets cells performs at once when all are VALUEs; with no SPORE and no FAILED cell among them but a GROWING one,
its fragment parks on the lowest such cell and keeps its pc; a FAILED cell traps with kind 0x31; a store to a cell that is no VALUE traps with
kind 0x32. -/
def Sys2Proof.Claim.CellsOfLoads : Prop :=
  ∀ (s : State) (k : Nat) (w : Wave) (fr : Frag), Issues s k w fr → ∀ (lv : Bool) (cells : List (Nat × Nat × Nat)),
    ((∀ c ∈ cells, s.tag c.2.1 = tVALUE) → s.meetCells k w fr lv cells = (s, .pass)) ∧
    (∀ va c lane pre post, cells = pre ++ (va, c, lane) :: post → (∀ x ∈ pre, s.tag x.2.1 = tVALUE) →
      (∀ x ∈ cells, s.tag x.2.1 ≠ tSPORE ∧ s.tag x.2.1 ≠ tFAILED) → s.tag c = tGROWING → s.chain w.task 17 1 (s.evaluatorOf c) = none →
      ∃ z w', s.meetCells k w fr lv cells = (z, .held) ∧ kfind z.waves k = some w' ∧
        w' = { w with
          frags := w.frags.map fun f => if f.num = fr.num then { f with st := .parked c } else f
          cur := if w.cur = some fr.num then none else w.cur } ∧
        z = { s with waves := kinsert s.waves k w', growth := z.growth } ∧
        ∀ g, s.growthOf c = some g → ∃ g', z.growthOf c = some g' ∧ g' = { g with waiters := g.waiters ++ [(k, fr.num)] }) ∧
    (∀ va c lane pre post, cells = pre ++ (va, c, lane) :: post → (∀ x ∈ pre, s.tag x.2.1 ≠ tSPORE ∧ s.tag x.2.1 ≠ tFAILED) →
      s.tag c = tFAILED → ∃ e, s.meetCells k w fr lv cells = (s, .trap e) ∧ e.kind = 0x31 ∧ e.addr = (canon va).toNat ∧
        e.lane = (if lv then some lane else none)) ∧
    (∀ (l : List LaneAddr) (y : LaneAddr), y ∈ l → y.sp = true → s.tag (y.key / 32) ≠ tVALUE →
      ∃ e, storeCells s lv l = some e ∧ e.kind = 0x32 ∧ e.detail % 256 = 1)

/-- `z` is `s` but for wave `k`'s record, which is `w'`, and for summary buffer `p` of its partition, which is `b`; memory reads as before. -/
def Sys2Proof.Claim.OnlySummary (s : State) (k : Nat) (w w' : Wave) (p : Nat) (b : SumBuf) (z : State) : Prop :=
  z = { s with waves := kinsert s.waves k w', cores := z.cores } ∧
  (∀ c q n, z.sumBuf c q n = if c = w.core ∧ q = w.part ∧ n = p then b else s.sumBuf c q n) ∧ ∀ a, z.rdH a = s.rdH a

/-- R288 to R302: SUMINIT makes a fresh record of its kind, SUMADD inserts the selected lanes' items in ascending lane order, SUMQRY writes the
answer's scalars, SUMLD, SUMST and SUMMRG enter the replay list under XC; an invalid record sets NV and changes nothing in the buffer. That
they stay unissued, a SUMADD with no lane too, while a SUMLD of the buffer is due, and that the NV of a SUMQRY shows at once, is the
model's reading of R58 and R289 (log entry 37). -/
def Obligations.Summaries : Prop :=
  ∀ (s : State) (k : Nat) (w : Wave) (fr : Frag), Issues s k w fr →
    ∀ (g : Guard) (kind : SumKind) (coin n a b d : Nat) (v : VOp) (sc : Scope) (md : SumMode) (imm : Option Word) (s1 : State) (x : Accepted),
    let p := sumOf s w n
    let m := sel s w fr g
    let on := at_ w fr (pcAdd fr.pc 8)
    let buf := s.sumBuf w.core w.part p
    let image (t : Sketch) : SumBuf := SumBuf.ofImage t.encode
    let rec_ (acc : Acc) := acceptRec s w fr (rdRecord s w 2 b) [0] (fun _ => elemIndex (rdS s w 1 a) none) 4096 acc acc false false
      refuseCells
    let Ok (acc : Acc) : Prop := rec_ acc = (s1, .ok x) ∧ roomFor s1 w.core (recordLines x.lanes).length = true
    (sumBusy s w p = true → exec (.suminit kind coin n a) s = .next s ∧ exec (.sumadd g n v) s = .next s ∧
      exec (.sumqry md d n a imm) s = .next s ∧ exec (.sumld n b a) s = .next s ∧ exec (.sumst n b a) s = .next s ∧
      exec (.summrg n b a sc) s = .next s) ∧
    (sumBusy s w p = false →
      (∃ z, exec (.suminit kind coin n a) s = .next z ∧
        OnlySummary s k w { w with frags := on } p (image (Sketch.fresh (SumKind.num kind) coin (rdS2 s w 1 a).toNat)) z) ∧
      (∀ t, s.sketch w p = some t → m ≠ 0 → ∃ z, exec (.sumadd g n v) s = .next z ∧
        OnlySummary s k w { w with frags := on } p (image ((lanesOf m).foldl
          (fun t l => t.insert (fun i => Config.freeBool s.ctr (6000 + i)) (inA s w v l).toNat) t)) z) ∧
      (s.sketch w p = none → m ≠ 0 → ∃ z w', exec (.sumadd g n v) s = .next z ∧ OnlyWave s k w' z ∧ w'.flagsAll.getLsbD 0 = true ∧
        w' = { w with flagPend := w'.flagPend, frags := on }) ∧
      (m = 0 → ∃ z, exec (.sumadd g n v) s = .next z ∧ Goes s k w fr (pcAdd fr.pc 8) z) ∧
      (let arg : Word := match imm with | some y => y | none => rdS s w 1 a
       let ans := Sketch.query (s.sketch w p) md arg.toNat
       ∃ z w', exec (.sumqry md d n a imm) s = .next z ∧ OnlyWave s k w' z ∧
        (∀ i y, ans.1[i]? = some y → w'.sraw (d + i) = y) ∧ (∀ j, j < d ∨ d + ans.1.length ≤ j → w'.sraw j = w.sraw j) ∧
        w'.flags = (if ans.2 then w.flags ||| fNV else w.flags) ∧
        w' = { w with sreg := w'.sreg, flags := w'.flags, undef := w'.undef, nextEntry := w.nextEntry + 1,
                      frags := at_ w fr (pcAdd fr.pc (lenOf imm)) }) ∧
      (Ok .read → ∃ z, exec (.sumld n b a) s = .next z ∧
        Accepts s k w fr .xc 8 (.sumLoad p (x.lanes.head?.map (·.key)) []) (recordLines x.lanes) [] 0 z) ∧
      (Ok .write → ∀ t, s1.sketch w p = some t → ∃ z, exec (.sumst n b a) s = .next z ∧
        Accepts s k w fr .xc 8 (.store (x.lanes.flatMap fun y => t.encode.zipIdx.map fun q => (.global, y.key + q.2, q.1)))
          (recordLines x.lanes) [] 0 z) ∧
      (Ok .atomic → ∀ y, x.lanes = [y] → ∃ z w' e, exec (.summrg n b a sc) s = .next z ∧ OnlyAtoms s k w' z ∧ e.kind = .atomic 1 ∧
        e.id = w.nextEntry ∧ e.ctr = .xc ∧
        (∀ h, kget [] z.atomQ h = kget [] s.atomQ h ++
          if homeDie y.key = h then [.merge k w.nextEntry buf y.key (s.resolve w sc) w.core (s.detOf w.task) (s1.writer k fr.num 1)] else []) ∧
        w' = { w with replay := w.replay ++ [e], nextEntry := w.nextEntry + 1, frags := accepted w fr .xc 8 }) ∧
      (Ok .atomic → x.lanes = [] → s.sketch w p = none → ∃ z w', exec (.summrg n b a sc) s = .next z ∧ kfind z.waves k = some w' ∧
        w'.flags = w.flags ||| fNV ∧ w'.vreg = w.vreg ∧ w'.sreg = w.sreg ∧ ∀ a, z.rdH a = s.rdH a))

/-- A fragment parks on a cell: it keeps its pc, and its wave may issue for another. -/
def Sys2Proof.Claim.parksOn (w : Wave) (fr : Frag) (st : FragSt) : Wave :=
  { w with
    frags := w.frags.map fun f => if f.num = fr.num then { f with st } else f
    cur := if w.cur = some fr.num then none else w.cur }

/-- R278 to R280: a load that meets a SPORE cell turns it GROWING, enters it into its base die's growth table with the loader's launch, wave and
cluster, asks for the evaluator that its launch's table names, with the record's bytes, scope, place and priority, and parks its fragment on the
cell. With the table full the cell stays a SPORE and the fragment parks on the entry-free event (an evaluator's stays issuing, log entry 75); an
entry that the launch does not have, or a place without a reserve slot, turns the cell FAILED with cause 4 or 5, and the load traps. -/
def Sys2Proof.Claim.CellTriggers : Prop :=
  ∀ (s : State) (k : Nat) (w : Wave) (fr : Frag), Issues s k w fr → ∀ (lv : Bool) (va c lane : Nat) (x : Task) (l : Launch),
    s.tag c = tSPORE → s.growthOf c = none → kfind s.tasks w.task = some x → kfind s.launches x.launch = some l →
    let bs := s.rdHs (32 * c) 32
    let entry := ofBytes (bs.take 2)
    let b2 := (bs.getD 2 0).toNat
    let place := b2 % 4
    let rscope := scopeCode (b2 / 4 % 8)
    let table := kget [] s.growth (baseDie c)
    let none_ : Prop := ∀ d ∈ placeClusters place (homeDie (32 * c)) (clusterOf w.core), s.reserveSlots d = []
    let has : Prop := l.hasStab = true ∧ entry < l.scnt
    let Fails (cause : Nat) : Prop := s.debugQs = [] →
      ∃ z e, s.meetCells k w fr lv [(va, c, lane)] = (z, .trap e) ∧ e.kind = 0x31 ∧ e.addr = (canon va).toNat ∧
        e.lane = (if lv then some lane else none) ∧ z.tag c = tFAILED ∧ (∀ d, d ≠ c → z.tag d = s.tag d) ∧ z.growth = s.growth ∧
        z.evalReqs = s.evalReqs ∧ z.waves = s.waves ∧
        (∀ i, i < 32 → z.rdH (32 * c + i) = if i < 2 then s.rdH (32 * c + i) else if i = 2 then BitVec.ofNat 8 cause else 0) ∧
        ∀ a, a < 32 * c ∨ 32 * c + 32 ≤ a → z.rdH a = s.rdH a
    (has → ¬none_ → table.length < 4096 → ∃ z, s.meetCells k w fr lv [(va, c, lane)] = (z, .held) ∧
      z = { s with
        waves := kinsert s.waves k (parksOn w fr (.parked c))
        tags := z.tags
        growth := z.growth
        evalReqs := s.evalReqs ++ [{
          id := s.nextReq, cell := c, prio := (bs.getD 3 0).toNat % 16, launch := x.launch, desc := l.spores.getD entry {}, place
          homeDie := homeDie (32 * c), cluster := clusterOf w.core, rscope, va := canon va, bytes := bs }]
        nextReq := s.nextReq + 1 } ∧
      z.tag c = tGROWING ∧ (∀ d, d ≠ c → z.tag d = s.tag d) ∧
      z.growthOf c = some {
        cell := c, va := canon va, rscope, place, launch := x.launch, wave := k, cluster := clusterOf w.core, waiters := [(k, fr.num)] } ∧
      ∀ d, d ≠ c → z.growthOf d = s.growthOf d) ∧
    (has → 4096 ≤ table.length → ∃ z, s.meetCells k w fr lv [(va, c, lane)] = (z, .held) ∧
      (x.cell ≠ none → z = s) ∧
      (x.cell = none → z = { s with waves := kinsert s.waves k (parksOn w fr (.parkedFree (baseDie c))), freeWait := z.freeWait } ∧
        ∀ b, kget [] z.freeWait b = if b = baseDie c then kget [] s.freeWait b ++ [(k, fr.num)] else kget [] s.freeWait b)) ∧
    (¬has → Fails 4) ∧ (has → none_ → table.length < 4096 → Fails 5)

/-- R274, R279, R281, R282: when a cell stops growing its entry and its request are gone, every waiter is Ready, and its core's snapshot holds nothing
older than its view at the recorded scope, block counting as core; so it is after a CELLPUT of the evaluator and after a failure, which leaves
the record of R281 and the tag FAILED. -/
def Sys2Proof.Claim.CellWakes : Prop :=
  ∀ (s : State) (c : Nat) (g : Growth), s.growthOf c = some g → (∀ q ∈ s.waves, q.2.core < 256) → (∀ v, kwf (unlisted, 0) (kget [] s.views v) = true) → s.debugQs = [] →
    let Woken (z : State) : Prop :=
      z.growthOf c = none ∧ (∀ r ∈ z.evalReqs, r.cell ≠ c) ∧ (∀ r ∈ s.evalReqs, r.cell ≠ c → r ∈ z.evalReqs) ∧
      ∀ p ∈ g.waiters, ∀ u, kfind s.waves p.1 = some u → (u.frag p.2).isSome → ∃ u' f, kfind z.waves p.1 = some u' ∧ u'.frag p.2 = some f ∧
        f.st = .ready ∧ u'.vreg = u.vreg ∧
        ∀ a, (z.rdV (viewAt (asCore g.rscope) u.core) a).2 ≤ (z.rdV (vSnap u.core) a).2
    (∀ (k : Nat) (w : Wave) (fr : Frag) (gd : Guard) (d a : VOp) (b : Nat) (s1 : State) (y : LaneAddr) (nones : List Nat), Issues s k w fr →
      sel s w fr gd ≠ 0 → fr.lc = 0 → fr.sc = 0 → fr.kc = 0 → s.tag c = tGROWING → g.evaluator = some w.task → y.key / 32 = c →
      acceptRec s w fr (rdRecord s w 2 b) (lanesOf (sel s w fr gd)) (fun l => elemIndex (inA s w a l) none) 32 .cell .cell
        true false (cellStages true) = (s1, .ok { lanes := [y], nones }) → roomFor s1 w.core (heldLines [y]).length = true →
      (∀ p ∈ g.waiters, p.1 ≠ k) →
      ∃ z, exec (.cellput gd d b a) s = .next z ∧ Woken z ∧ z.tag c = tVALUE) ∧
    (∀ core asid task cause kind pc addr : Nat, cause < 256 → kind < 256 → pc < 2 ^ 64 → addr < 2 ^ 64 →
      let z := s.failCell core asid task c cause kind pc addr
      Woken z ∧ z.tag c = tFAILED ∧ (∀ i, i < 2 → z.rdH (32 * c + i) = s.rdH (32 * c + i)) ∧ (z.rdH (32 * c + 2)).toNat = cause ∧
      (z.rdH (32 * c + 3)).toNat = kind ∧ (∀ i, i < 4 → z.rdH (32 * c + 4 + i) = 0) ∧ ofBytes (z.rdHs (32 * c + 8) 8) = pc ∧
      ofBytes (z.rdHs (32 * c + 16) 8) = addr ∧ (∀ i, i < 8 → z.rdH (32 * c + 24 + i) = 0) ∧
      ∀ a, a < 32 * c ∨ 32 * c + 32 ≤ a → z.rdH a = s.rdH a)

/-- What an integer operation of R263 stores over an old word. -/
def Sys2Proof.Claim.Combines (op : AtomOp) (t : Ty) (old d v : Word) : Prop :=
  let lt (x y : Word) : Prop := if t = .i32 then x.toInt < y.toInt else x.toNat < y.toNat
  match op with
  | .add => v = old + d
  | .and => v = old &&& d
  | .or => v = old ||| d
  | .xor => v = old ^^^ d
  | .xchg => v = d
  | .min => (v = old ∨ v = d) ∧ ¬lt old v ∧ ¬lt d v
  | .max => (v = old ∨ v = d) ∧ ¬lt v old ∧ ¬lt v d

/-- R302, R303, R393: a SUMMRG at the head of its home's queue merges its image into the record there in one move, by kind, keeping the record's seed and coin;
with an invalid record or another kind it leaves the record and sets NV. An RRED at its home changes its word by its operation, or another
device's bytes; one to a group that has gone is dropped. No other byte changes, and the access has performed but for the dropped one. -/
def Sys2Proof.Claim.HomeRequests : Prop :=
  ∀ (s : State) (h k id a : Nat) (who : Writer) (rest : List AtomReq) (w : Wave) (e : Entry), Running s → s.debugQs = [] →
    kfind s.waves k = some w → (w.replay.find? fun x => x.id = id) = some e → e.kind = .atomic 1 →
    let Performs (z : State) (P : Wave → Prop) : Prop := exec (.atomicPerform h) s = .next z ∧ kget [] z.atomQ h = rest ∧
      ∃ w', kfind z.waves k = some w' ∧ (∀ x ∈ w'.replay, x.id ≠ id) ∧ w'.vreg = w.vreg ∧ w'.sreg = w.sreg ∧ P w'
    (∀ (src : SumBuf) (sc : Scope) (core : Nat) (det : Bool), kget [] s.atomQ h = .merge k id src a sc core det who :: rest →
      atomHeld s k id .global a 4096 = false →
      let t := Sketch.decode det (s.rdHs a 4096)
      let u := Sketch.decode det src.image
      (∀ x y, t = some x → u = some y → x.kind = y.kind →
        ∃ (z : State) (m : Sketch), Performs z (fun w' => w'.flagsAll = w.flagsAll) ∧
          (∀ i b, m.encode[i]? = some b → z.rdH (a + i) = b) ∧ (∀ p, p < a ∨ a + m.encode.length ≤ p → z.rdH p = s.rdH p) ∧
          m.kind = x.kind ∧ m.seed = x.seed ∧ m.coin = x.coin ∧ m.n = (x.n + y.n) % 2 ^ 64 ∧
          (x.kind = sQS → m.nanc = min (x.nanc + y.nanc) (2 ^ 32 - 1) ∧
            (m.least = x.least ∨ m.least = y.least) ∧ rank32 m.least ≤ rank32 x.least ∧ rank32 m.least ≤ rank32 y.least ∧
            (m.greatest = x.greatest ∨ m.greatest = y.greatest) ∧ rank32 x.greatest ≤ rank32 m.greatest ∧ rank32 y.greatest ≤ rank32 m.greatest) ∧
          (x.kind = sHH → (y.hitters = [] → m.hitters = x.hitters) ∧ ∀ e, y.hitters = [e] → (∀ f ∈ x.hitters, f.key ≠ e.key) →
            x.hitters.length < 64 → m.hitters = x.hitters ++ [e]) ∧
          (x.kind = sDC → m.encode.length = 4096 ∧ ∀ j, j < 1024 → m.regs[j]? = some (max (x.regs.getD j 0) (y.regs.getD j 0)))) ∧
      (t = none ∨ u = none ∨ (∃ x y, t = some x ∧ u = some y ∧ x.kind ≠ y.kind) →
        ∃ z, Performs z (fun w' => w'.flagsAll.getLsbD 0 = true) ∧ ∀ p, z.rdH p = s.rdH p)) ∧
    (∀ (home : Home) (op : AtomOp) (t : Ty) (d : Word) (sys : Bool), kget [] s.atomQ h = .reduce (some (k, id)) home op t a d sys who :: rest →
      atomHeld s k id home.space a 4 = false → t = .i32 ∨ t = .u32 →
      (s.reaches home = true → home.main = true →
        ∃ z v, Performs z (fun w' => w'.flagsAll = w.flagsAll) ∧ Combines op t (s.word a) d v ∧ z.peers = s.peers ∧
          (∀ i, i < 4 → z.rdH (a + i) = v.extractLsb' (8 * i) 8) ∧ ∀ p, p < a ∨ a + 4 ≤ p → z.rdH p = s.rdH p) ∧
      (∀ g gen r, home = .rank g gen r → s.reaches home = true →
        let at_ (z : State) (p : Nat) : Byte := kget unlisted (kget [] z.peers (peerKey g r)) p
        ∃ z v, Performs z (fun w' => w'.flagsAll = w.flagsAll) ∧
          Combines op t (at_ s (a + 3) ++ at_ s (a + 2) ++ at_ s (a + 1) ++ at_ s a) d v ∧ (∀ p, z.rdH p = s.rdH p) ∧
          (∀ i, i < 4 → at_ z (a + i) = v.extractLsb' (8 * i) 8) ∧ ∀ p, p < a ∨ a + 4 ≤ p → at_ z p = at_ s p) ∧
      (s.reaches home = false → ∃ z, exec (.atomicPerform h) s = .next z ∧ z = { s with atomQ := z.atomQ } ∧ kget [] z.atomQ h = rest))

/-- R206, R291, R298: a SUMLD that nothing holds back fills its buffer with the record that its 4,096 bytes hold, each the one that R206 reads, or,
where they are none or no valid record, leaves it zero and sets NV; XC's access has performed, and no other buffer and no byte changes. -/
def Sys2Proof.Claim.SummaryReturns : Prop :=
  ∀ (s : State) (k : Nat) (w : Wave) (e : Entry) (n p : Nat) (addr : Option Nat) (got : List (Nat × Byte)), Running s → kfind s.waves k = some w →
    w.resident = true → (w.replay.find? fun x => x.id = e.id && x.cells = []) = some e → (w.replay.find? fun x => x.id = e.id) = some e →
    e.kind = .sumLoad n addr got → heldBack s k w e.frag e.id true (entryBytes s k e) = false →
    let byte (a : Nat) : Byte := match got.find? fun q => q.1 = a with
      | some q => q.2
      | none => s.loadByte w.core (w.ownBytes e.earlier) .global a false
    let record : Option Sketch := match addr with
      | some a => Sketch.decode (s.detOf w.task) ((List.range 4096).map fun i => byte (a + i))
      | none => none
    ∃ z w', exec (.loadSectorReturn k e.id p []) s = .next z ∧ kfind z.waves k = some w' ∧ (∀ x ∈ w'.replay, x.id ≠ e.id) ∧
      w'.vreg = w.vreg ∧ w'.sreg = w.sreg ∧ w'.preds = w.preds ∧
      (∀ t, record = some t → z.sumBuf w.core w.part n = SumBuf.ofImage t.encode ∧ w'.flagsAll = w.flagsAll) ∧
      (record = none → z.sumBuf w.core w.part n = [] ∧ w'.flagsAll.getLsbD 0 = true) ∧
      (∀ c q m, ¬(c = w.core ∧ q = w.part ∧ m = n) → z.sumBuf c q m = s.sumBuf c q m) ∧
      (∀ c a, z.rdScratch c a = s.rdScratch c a) ∧ ∀ a, z.rdH a = s.rdH a

/-! ### ENQ and the fabric (R332, R333, R384 to R398) -/

/-- R390 to R393: an accepted RLD or RST enters the replay list with its lanes' places in the named rank's region, under LC or SC; an accepted
RRED sends each lane's reduction to the home of its word, or to the other device, in lane order, under SC. No byte changes yet. Bytes of the
own rank's region are kept by their storage addresses (log entry 78). -/
def Sys2Proof.Claim.RemoteAccesses : Prop :=
  ∀ (s : State) (k : Nat) (w : Wave) (fr : Frag), Issues s k w fr → roomFor s w.core 1 = true →
    ∀ (g : Guard) (op : AtomOp) (t : Ty) (cnt b : Nat) (d a : VOp) (off : Option Word) (imm : Word) (sc : Scope)
      (x : RemoteAcc),
    let m := sel s w fr g
    let n := memBytes t * 2 ^ cnt
    let idx (l : Nat) : Int := elemIndex (inA s w a l) off
    (acceptRemote s w b m idx n (·.r) 1 0 = .ok x →
      ∃ z, exec (.rld g t cnt d b a off) s = .next z ∧
        Accepts s k w fr .lc (lenOf off) (.load false (VOp.field d) (memBytes t) (2 ^ cnt) t
          (partsOf (x.lanes.map fun p => { lane := p.1, space := x.space, addr := some (x.addr s p.2) }))) []
          ((List.range (2 ^ cnt)).map fun j => .vec (VOp.field d + j)) m z) ∧
    (acceptRemote s w b m idx n (·.w) 2 1 = .ok x →
      ∃ z, exec (.rst g t cnt d b a off) s = .next z ∧
        Accepts s k w fr .sc (lenOf off)
          (.store (storedBytes (x.lanes.map fun p => (p.1, x.space, x.addr s p.2)) (memBytes t) (2 ^ cnt) (dataReg s w d cnt))) [] [] m z) ∧
    (acceptRemote s w b m (fun l => elemIndex (inA s w a l) (some imm)) 4 (·.a) 2 2 = .ok x → x.lanes ≠ [] →
      ∃ z w' e, exec (.rred g op t d b a imm sc) s = .next z ∧ OnlyAtoms s k w' z ∧ e.kind = .atomic x.lanes.length ∧ e.id = w.nextEntry ∧
        e.ctr = .sc ∧ w' = { w with replay := w.replay ++ [e], nextEntry := w.nextEntry + 1, frags := accepted w fr .sc 16 } ∧
        ∀ h, kget [] z.atomQ h = kget [] s.atomQ h ++
          (x.lanes.filter fun p => (if x.own then homeDie (x.addr s p.2) else awayQueue) = h).map fun p =>
            .reduce (some (k, w.nextEntry)) x.home op t (x.addr s p.2) (rdV s w 0 d p.1) (sc = .system)
              { s.writer k fr.num 1 with gid := x.gid })

/-- R390, R392: a rank that the group does not have, a right that the rank does not give, an offset outside the region and a misaligned one trap at
level 5 with kinds 0x20, 0x13, 0x10 and 0x11, tested in this order, and ADDR holds the region offset of the failing lane. -/
def Sys2Proof.Claim.RemoteFaults : Prop :=
  ∀ (s : State) (k : Nat) (w : Wave) (fr : Frag), Issues s k w fr →
    ∀ (g : Guard) (t : Ty) (cnt b : Nat) (d a : VOp) (off : Option Word) (l : Nat),
    let m := sel s w fr g
    let n := memBytes t * 2 ^ cnt
    let x := rdRecord s w 2 b
    let rank : Nat := x / 2 ^ 32 % 2 ^ 12
    let stride : Nat := x / 2 ^ 64 % 2 ^ 32
    let base : Nat := x / 2 ^ 96 % 2 ^ 32
    let o : Int := base + (if stride = 0 then elemIndex (inA s w a l) off else elemIndex (inA s w a l) off * stride)
    let ranks := ranksOf (s.named w (x % 2 ^ 32))
    let Traps (i : Instr) (kind : Nat) : Prop := ∃ e, exec i s = .next (takeTrap s k w fr e) ∧ e.kind = kind ∧ e.level = 5 ∧ e.addr = (BitVec.ofInt 64 o).toNat
    x / 2 ^ 44 % 2 ^ 20 = 0 → m = BitVec.ofNat 32 (2 ^ l) → l < 32 →
    (ranks[rank]? = none → Traps (.rld g t cnt d b a off) 0x20 ∧ Traps (.rst g t cnt d b a off) 0x20) ∧
    (∀ r, ranks[rank]? = some r →
      (r.r = false → Traps (.rld g t cnt d b a off) 0x13) ∧ (r.w = false → Traps (.rst g t cnt d b a off) 0x13) ∧
      (r.r = true → o < 0 ∨ (r.len : Int) < o + n → Traps (.rld g t cnt d b a off) 0x10) ∧
      (r.r = true → 0 ≤ o → o + n ≤ r.len → o.toNat % n ≠ 0 → Traps (.rld g t cnt d b a off) 0x11))

/-- R332, R333: ENQ writes status 2 for a queue that is not the process's, 1 for a stopped one, and 0 once it has put its packets, read from H, at the
tail of the queue's ring, whose WPTR advances by their number; no other byte of memory changes; while the ring lacks room it waits. It comes to
this once its REL has been made and its packets have been accepted, and again, from here alone, each time it has waited. That the owner
(status 2) is tested before the queue's state (status 1), and that an element without an address gives zeros, is the model's reading (log entry 46). -/
def Sys2Proof.Claim.EnqStatuses : Prop :=
  ∀ (s : State) (k : Nat) (w : Wave) (fr : Frag), Issues s k w fr →
    ∀ (d a b c n : Nat) (imm : Word) (h : State) (keys : List (Option Nat)),
    let v := (rdS s w 3 c).toNat
    let q := v % 4096
    let y := s.queue q
    let own : Prop := v / 4096 = 0 ∧ y.st ≠ 0 ∧ some y.proc = (s.launchOf w.task).map (·.proc)
    let Fresh : Prop := (∀ d keys, fr.phase ≠ .enq d keys) ∧ fr.lc = 0 ∧ fr.sc = 0 ∧ fr.kc = 0 ∧ h = s.releaseAt k w fr .device ∧ ∃ s1 x,
      acceptRec h w fr (rdRecord s w 2 b) (List.range n) (fun i => elemIndex (rdS s w 1 a) (some imm) + i) 64
        .read .read false false (fun _ => none) = (s1, .ok x) ∧
      keys = (List.range n).map fun i => (x.lanes.find? fun u => u.lane = i).map (·.key)
    let Again : Prop := (∃ d', fr.phase = .enq d' keys) ∧ keys.length = n ∧ h = s
    let Answers (st : Word) (z : State) : Prop :=
      ∃ w', kfind z.waves k = some w' ∧ (∀ m, w'.sraw m = if m = d then st else w.sraw m) ∧
        (∀ f, w'.frag fr.num = some f → f.pc = pcAdd fr.pc 16 ∧ f.phase = .none) ∧ w'.vreg = w.vreg ∧ w'.preds = w.preds ∧
        w'.cond = w.cond ∧ w'.flags = w.flags
    let place (i : Nat) : Nat := keyOf 0 (y.ring + 64 * ((y.wptr + i) % 2 ^ y.log))
    Fresh ∨ Again →
    (¬own → ∃ z, exec (.enq d a b c imm n) s = .next z ∧ Answers 2 z ∧ z.queues = s.queues ∧ ∀ a, z.rdH a = h.rdH a) ∧
    (own → y.st ≠ 1 → ∃ z, exec (.enq d a b c imm n) s = .next z ∧ Answers 1 z ∧ z.queues = s.queues ∧ ∀ a, z.rdH a = h.rdH a) ∧
    (own → y.st = 1 → y.wptr - y.rptr + n ≤ 2 ^ y.log →
      ∃ z, exec (.enq d a b c imm n) s = .next z ∧ Answers 0 z ∧ (z.queue q).wptr = y.wptr + n ∧ (∀ j, j ≠ q → z.queue j = s.queue j) ∧
        (s.debugQs = [] → y.ring % 64 = 0 → y.ring + 64 * 2 ^ y.log ≤ 2 ^ 39 →
          (∀ i j, i < n → j < 64 → z.rdH (place i + j) = match keys[i]? with | some (some e) => h.rdH (e + j) | _ => 0) ∧
          (∀ a, (∀ i, i < n → a < place i ∨ place i + 64 ≤ a) → z.rdH a = h.rdH a))) ∧
    (own → y.st = 1 → 2 ^ y.log < y.wptr - y.rptr + n →
      ∃ z w' f, exec (.enq d a b c imm n) s = .next z ∧ kfind z.waves k = some w' ∧ w'.frag fr.num = some f ∧
        f.st = .waiting (.enq q) ∧ f.phase = .enq d keys ∧ f.pc = fr.pc ∧ w'.sreg = w.sreg ∧ z.queues = s.queues ∧ ∀ a, z.rdH a = h.rdH a)

/-- R394 to R396: COLL and COLL.bar make one call of the named group, with those of the selected lanes' contributions that name their own rank kept here,
and wait (first, while earlier accesses are open, for their REL); the call completes when every rank has made it and every fold is written; its fragment then gets the plan's signature and goes on. A
handle that names no group completes at once when no lane contributes, with signature 0, which R396 gives for the N = 0 of R388 (the model's
reading, log entry 60), and a lane of it traps with kind 0x20; under [!p7] both only go on. -/
def Sys2Proof.Claim.CollectiveCalls : Prop :=
  ∀ (s : State) (k : Nat) (w : Wave) (fr : Frag), Issues s k w fr →
    ∀ (g : Guard) (op : AtomOp) (t : Ty) (d a b : VOp) (c sig : Nat) (imm : Word) (sc : Scope),
    let h := (rdS s w 3 c).toNat
    let gid := h % 2 ^ 16
    let quiet : Prop := fr.lc = 0 ∧ fr.sc = 0 ∧ fr.kc = 0
    let coll : Instr := .coll g op t d a b c imm sig sc
    let bar : Instr := .collBar g c sig sc
    let Ends (sg : DWord) (i : Instr) : Prop :=
      ∃ z w', exec i s = .next z ∧ kfind z.waves k = some w' ∧ w'.sraw (sig + 1) ++ w'.sraw sig = sg ∧
        (∀ n, n ≠ sig → n ≠ sig + 1 → w'.sraw n = w.sraw n) ∧ w'.vreg = w.vreg ∧ w'.preds = w.preds ∧ w'.cond = w.cond ∧
        ∀ f, w'.frag fr.num = some f → f.pc = pcAdd fr.pc 16 ∧ f.phase = .none
    let Calls (i : Instr) (x : Group) (mine : List Contrib) (alone : Bool) : Prop :=
      let call := callKey x.gen x.nextCall
      let old : CollCall := kget {} x.calls call
      let new : CollCall := { old with
        made := kinsert old.made x.rank mine.length
        contribs := old.contribs ++ mine
        remoteDone := old.remoteDone || alone || decide (x.ranks.length ≤ 1) }
      let full : Prop := new.arrived x.ranks.length = true
      let complete : Prop := (∀ e ∈ new.elems, e ∈ new.folded) ∧ new.remoteDone = true
      old.queued = false →
      ∃ z w' f, exec i s = .next z ∧ kfind z.waves k = some w' ∧ w'.frag fr.num = some f ∧ f.pc = fr.pc ∧ w'.sreg = w.sreg ∧
        w'.vreg = w.vreg ∧ (z.group gid).nextCall = x.nextCall + 1 ∧
        (¬full → f.phase = .called gid call ∧ f.st = .waiting (.coll gid call) ∧ kfind (z.group gid).calls call = some new) ∧
        (full → ¬complete → f.phase = .called gid call ∧ f.st = .waiting (.coll gid call) ∧
          kfind (z.group gid).calls call = some { new with queued := true }) ∧
        (full → complete → f.phase = .signed (planSig x.plan))
    (g.p = 7 → g.neg = true → ∀ i, i = coll ∨ i = bar → ∃ z, exec i s = .next z ∧ Goes s k w fr (pcAdd fr.pc 16) z) ∧
    (¬(g.p = 7 ∧ g.neg = true) → ∀ i, i = coll ∨ i = bar →
      (∀ sg, fr.phase = .signed sg → Ends sg i) ∧
      (∀ gid' call, fr.phase = .called gid' call → ∃ z w' f, exec i s = .next z ∧ kfind z.waves k = some w' ∧ w'.frag fr.num = some f ∧
        f.st = .waiting (.coll gid' call) ∧ f.phase = fr.phase ∧ f.pc = fr.pc ∧ w'.sreg = w.sreg ∧ w'.vreg = w.vreg)) ∧
    (¬(g.p = 7 ∧ g.neg = true) → (∀ g' call, fr.phase ≠ .called g' call) → (∀ sg, fr.phase ≠ .signed sg) →
      (¬quiet → ∃ z w' f, exec bar s = .next z ∧ kfind z.waves k = some w' ∧ w'.frag fr.num = some f ∧ f.st = .waiting .rel ∧ f.pc = fr.pc ∧
        w'.sreg = w.sreg ∧ w'.vreg = w.vreg ∧
        f.phase = match s.named w h with | some (gid, x) => .calling gid x.gen | none => .none) ∧
      (quiet → ∀ x, s.named w h = some (gid, x) → x = s.group gid →
        let peer (l : Nat) : Nat := (inB s w b l).toNat
        let elem (l : Nat) : Int := elemIndex (inA s w a l) (some imm)
        Calls bar x [] true ∧
        ((∀ l, Picked s w fr g l → ∃ r, x.ranks[peer l]? = some r ∧ r.a = true ∧ 0 ≤ elem l ∧ 4 * elem l + 4 ≤ r.len) →
          Calls coll x (((lanesOf (sel s w fr g)).filter fun l => peer l = x.rank).map fun l =>
            { rank := x.rank, lane := l, peer := peer l, elem := (elem l).toNat, op, t, v := rdV s w 0 d l, sys := sc = .system }) false)) ∧
      (s.named w h = none →
        (quiet → Ends 0 bar ∧ (sel s w fr g = 0 → Ends 0 coll)) ∧
        (sel s w fr g ≠ 0 → ∃ e, exec coll s = .next (takeTrap s k w fr e) ∧ e.kind = 0x20)))

/-- The service takes requests. -/
abbrev Sys2Proof.Claim.Serving (s : State) : Prop := s.serving = true ∧ s.hub.updating = false

/-- R387 to R389, R396, R397: a group that can be registered becomes live with the ring plan and no call; a live one that is freed leaves with the next
generation; another plan of the right shape is installed while no call is open; a lost rank ends the group; the fold of an element at the head
of its queue writes the contributions' fold in plan order over the word. A refused request changes nothing but the answer, and a served one
charges its time to the process. -/
def Sys2Proof.Claim.Groups : Prop :=
  ∀ (s : State) (gid launch rank : Nat) (ranks : List RankInfo) (r : RankInfo) (l : Launch) (plan : List (List Nat)), Serving s →
    let g := s.group gid
    let ok : Prop := gid < 2 ^ 16 ∧ ranks.length ≤ 4096 ∧ g.live = false ∧ (∀ t, g.freedAt = some t → t + 100000000 ≤ s.time.toNat) ∧
      l.done = false ∧ s.regionOk l.asid r = true
    let Becomes (i : Instr) (x : Group) : Prop :=
      ∃ z, exec i s = .next z ∧ z = { s with hub := { s.hub with status := 0 }, groups := kinsert s.groups gid x, procs := z.procs }
    (ranks[rank]? = some r → kfind s.launches launch = some l → ok → Becomes (.registerGroup gid launch rank ranks)
      { g with live := true, launch, asid := l.asid, rank, ranks, plan := ringPlan ranks.length, nextCall := 0, calls := [] }) ∧
    (ranks[rank]? = some r → kfind s.launches launch = some l → ¬ok →
      exec (.registerGroup gid launch rank ranks) s = .next { s with hub := { s.hub with status := 2 } }) ∧
    (g.live = true → Becomes (.freeGroup gid)
      { g with live := false, gen := (g.gen + 1) % 256, freedAt := some s.time.toNat, calls := [] }) ∧
    (g.live = false → exec (.freeGroup gid) s = .next { s with hub := { s.hub with status := 2 } }) ∧
    (g.live = true → planOk g.ranks.length plan = true → g.calls = [] →
      exec (.routeChange gid plan) s = .next { s with groups := kinsert s.groups gid { g with plan } }) ∧
    (g.calls ≠ [] → exec (.routeChange gid plan) s = .next s) ∧
    (g.live = true → rank ≠ g.rank → rank < g.ranks.length →
      ∃ z, exec (.peerUnreachable gid rank) s = .next z ∧ (z.group gid).live = false ∧ (z.group gid).gen = (g.gen + 1) % 256) ∧
    (∀ call elem x rest c, s.debugQs = [] → s.regionKey gid g.rank (4 * elem) = some x → kfind g.calls (callKey g.gen call) = some c →
      kget [] s.atomQ (homeDie x) = .fold gid (callKey g.gen call) elem :: rest →
      ∃ z, exec (.collFold gid call g.rank elem) s = .next z ∧ kget [] z.atomQ (homeDie x) = rest ∧
        (∀ i, i < 4 → z.rdH (x + i) =
          ((c.inOrder (g.plan.getD g.rank []) elem).foldl (fun t y => atomNew y.op y.t t y.v) (s.word x)).extractLsb' (8 * i) 8) ∧
        ∀ a, a < x ∨ x + 4 ≤ a → z.rdH a = s.rdH a)

/-- R253, R384, R386, R388: an unsupported packet is dropped and counted; a group packet of another generation is dropped and counted as late; a write of
the current one puts its bytes at their homes in this device's region, and a read of it changes no byte; a client's bytes appear in its window,
another rank's in its region. -/
def Sys2Proof.Claim.FabricPackets : Prop :=
  ∀ (s : State), s.hub.on = true → s.hub.frozen = false → s.hub.recovery = false → s.debugQs = [] →
    ∀ (gid gen dev off win rank x n : Nat) (b : Byte),
    let g := s.group gid
    let late : State := { s with hub := { s.hub with late := s.hub.late + 1 } }
    exec (.fabricPacketReceive .unsupported) s = .next { s with hub := { s.hub with droppedPkts := s.hub.droppedPkts + 1 } } ∧
    (g.live = false ∨ g.gen ≠ gen → exec (.fabricPacketReceive (.write gid gen dev off [b])) s = .next late ∧
      exec (.fabricPacketReceive (.read gid gen off n)) s = .next late) ∧
    (g.live = true → g.gen = gen → s.regionKey gid g.rank off = some x →
      ∃ z, exec (.fabricPacketReceive (.write gid gen dev off [b])) s = .next z ∧ z.rdH x = b ∧ ∀ a, a ≠ x → z.rdH a = s.rdH a) ∧
    (g.live = true → g.gen = gen → ∃ z, exec (.fabricPacketReceive (.read gid gen off n)) s = .next z ∧
      z = { s with counters := z.counters, l2 := z.l2 }) ∧
    (off < 2 ^ 40 → win < 2048 → ∃ z, exec (.fabricPacketReceive (.clientBytes win off [b])) s = .next z ∧
      z.rdH (2 ^ 51 + win * 2 ^ 40 + off) = b ∧ ∀ a, a ≠ 2 ^ 51 + win * 2 ^ 40 + off → z.rdH a = s.rdH a) ∧
    (∃ z, exec (.fabricPacketReceive (.peerBytes gid rank off [b])) s = .next z ∧ (∀ a, z.rdH a = s.rdH a) ∧
      kget unlisted (kget [] z.peers (peerKey gid rank)) off = b)

/-! ### Queues and packets (R313 to R340) -/

/-- The command processor acts for queue `q`, whose record is `x` and whose top level is `l`. -/
def Sys2Proof.Claim.AtPacket (s : State) (q : Nat) (x : Queue) (l : Level) : Prop := s.cur.actor = .cp q ∧ s.queue q = x ∧ x.levels.head? = some l

/-- The test of a PRED or WAITMEM reads its word at the hub and gives `b`; only a position passes and translations are kept. -/
def Sys2Proof.Claim.Tests (s : State) (x : Queue) (t : MemTest) (s1 : State) (b : Bool) : Prop := s.testWord x.asid t = (s1, .ok b)

/-- R327 to R331: what each control packet does: NOP and a passed PRED finish, a failed PRED passes over NSKIP more packets, IB enters its buffer (error 5
beyond three), LOOP repeats its body COUNT times (error 6 in a loop, 4 beyond the buffer), WAITMEM waits until its word meets the test, TIMED until
its time, FFENCE numbers the packets afresh; a fault of an access is error 8 with its kind. -/
def Sys2Proof.Claim.ControlPackets : Prop :=
  ∀ (s : State) (q : Nat) (x : Queue) (l : Level), AtPacket s q x l →
    ∀ (t : MemTest) (s1 : State) (addr time : DWord) (n count kind : Nat),
    let done := s.finish q l
    let fits : Prop := l.pos + 1 + n ≤ levelEnd x l
    exec .packetNop s = .next done ∧
    (x.levels.length < 4 → ∃ z, exec (.ib addr n) s = .next z ∧ z = { s with queues := z.queues } ∧
      (∀ j, j ≠ q → z.queue j = s.queue j) ∧
      z.queue q = { x with levels := { ring := false, base := addr.toNat, len := n, pos := 0 } ::
        { l with hw := max l.hw (l.num l.pos + 1) } :: x.levels.drop 1 }) ∧
    (4 ≤ x.levels.length → exec (.ib addr n) s = .next (s.packetErr q 5 0)) ∧
    (Tests s x t s1 true → exec (.pred t n) s = .next (s1.finish q l) ∧ exec (.waitmem t) s = .next (s1.finish q l)) ∧
    (Tests s x t s1 false → exec (.pred t n) s = .next (s1.finishAt q l.pos (l.pass.passN (levelEnd x l) n)) ∧
      exec (.waitmem t) s = .next (s1.setQueue q { s1.queue q with polling := true, lastPoll := s1.time.toNat })) ∧
    (s.testWord x.asid t = (s1, .error kind) → exec (.pred t n) s = .next (s1.packetErr q 8 kind) ∧
      exec (.waitmem t) s = .next (s1.packetErr q 8 kind)) ∧
    (l.loop ≠ none → exec (.packetLoop count n) s = .next (s.packetErr q 6 0)) ∧
    (l.loop = none → ¬fits → exec (.packetLoop count n) s = .next (if l.ring then s else s.packetErr q 4 0)) ∧
    (l.loop = none → fits → count = 0 → exec (.packetLoop count n) s = .next (s.finishAt q l.pos (l.pass.passN (levelEnd x l) n))) ∧
    (l.loop = none → fits → count ≠ 0 → exec (.packetLoop count n) s = .next (s.finishAt q l.pos
      { l.pass with loop := some { first := l.pos + 1, n, left := count } })) ∧
    exec (.timed time) s = .next (if time ≤ s.time then done else s) ∧
    (∃ z, exec .ffence s = .next z ∧ z.mem = s.mem ∧ z.launches = s.launches ∧ z.tasks = s.tasks ∧
      (l.loop = none → x.levels = [l] → l.ring = true → ∃ l', (z.queue q).levels = [l'] ∧ l'.pos = l.pos + 1 ∧ l'.org = l.pos + 1 ∧ l'.hw = 0))

/-- R318, R329: a finished packet of the ring outside a loop moves on by one and RPTR follows it; the last packet of a buffer that its caller's ring level
holds returns and finishes the IB; the last packet of a loop's body goes back while passes are left. A packet error stops the queue, keeps RPTR and
adds one record to the fault log if it has room. -/
def Sys2Proof.Claim.PacketFlow : Prop :=
  ∀ (s : State) (q : Nat) (x : Queue) (l : Level), s.queue q = x → x.levels.head? = some l →
    let z := s.finish q l
    (x.levels = [l] → l.ring = true → l.loop = none → l.pos < x.wptr →
      ∃ l', (z.queue q).levels = [l'] ∧ l'.pos = l.pos + 1 ∧ l'.loop = none ∧ (z.queue q).rptr = min x.wptr (max x.rptr (l.pos + 1)) ∧
        (z.queue q).wptr = x.wptr ∧ (z.queue q).st = x.st ∧ ∀ a, z.rdH a = s.rdH a) ∧
    (∀ c, x.levels = [l, c] → l.ring = false → l.loop = none → l.len = l.pos + 1 → c.ring = true → c.loop = none → c.fenced = false →
      ∃ c', (z.queue q).levels = [c'] ∧ c'.pos = c.pos + 1 ∧ c'.ring = true) ∧
    (∀ p, x.levels = [l] → l.ring = true → l.loop = some p → l.pos + 1 = p.first + p.n → 1 < p.left →
      ∃ l', (z.queue q).levels = [l'] ∧ l'.pos = p.first ∧ l'.loop = some { p with left := p.left - 1 }) ∧
    (∀ code kind, let e := s.packetErr q code kind
      (e.queue q).st = 2 ∧ (e.queue q).rptr = x.rptr ∧ (e.queue q).polling = false ∧ e.launches = s.launches ∧ e.tasks = s.tasks ∧
      (x.fidx < 2 ^ 32 → (x.fidx + 2 ^ 32 - x.ack) % 2 ^ 32 ≠ 2 ^ x.flogn → (e.queue q).fidx = (x.fidx + 1) % 2 ^ 32 ∧ (e.queue q).drops = x.drops) ∧
      ((x.fidx + 2 ^ 32 - x.ack) % 2 ^ 32 = 2 ^ x.flogn → (e.queue q).fidx = x.fidx ∧ (e.queue q).drops = x.drops + 1))

/-- R330: WRITE puts its value, of 4 or 8 bytes, at its address and finishes; COMPL waits until every launch of its queue is done, then writes SEQ with
the status of the launches in bits 63..56, clears it and finishes: the queue goes on as after any packet that finishes, on the ring outside a loop to
the next packet, with RPTR behind it. No other byte changes. -/
def Sys2Proof.Claim.WritePackets : Prop :=
  ∀ (s : State) (q : Nat) (x : Queue) (l : Level), AtPacket s q x l → s.debugQs = [] →
    ∀ (addr val : DWord) (sc : Scope) (wide : Bool) (s1 : State) (f : Leaf), s.translate (hubWalker x.asid) addr.toNat .write false = (s1, .ok f) →
    let n := if wide then 8 else 4
    let Puts (i : Instr) (n v : Nat) (z : State) : Prop :=
      exec i s = .next z ∧ (∀ j, j < n → z.rdH (f.key + j) = BitVec.ofNat 8 (v / 2 ^ (8 * j))) ∧
      ∀ a, a < f.key ∨ f.key + n ≤ a → z.rdH a = s.rdH a
    let Goes (z : State) : Prop :=
      (∃ y : State, y.launches = s.launches ∧ y.tasks = s.tasks ∧ z = y.finish q l) ∧ z.launches = s.launches ∧ (z.queue q).st = x.st ∧
      (z.queue q).polling = false ∧ (∀ j, j ≠ q → z.queue j = s.queue j) ∧
      (x.levels = [l] → l.ring = true → l.loop = none → l.pos < x.wptr → ∃ l', (z.queue q).levels = [l'] ∧ l'.pos = l.pos + 1 ∧ l'.loop = none ∧
        (z.queue q).rptr = min x.wptr (max x.rptr (l.pos + 1)) ∧ (z.queue q).finished = x.finished + 1)
    let status : Nat := (if x.sawFault then 1 else 0) + if x.sawKill then 2 else 0
    (∃ z, Puts (.write addr val sc wide) n val.toNat z ∧ Goes z) ∧
    (s.drained q = true → ∃ z, Puts (.compl addr val sc) 8 (val.toNat % 2 ^ 56 + status * 2 ^ 56) z ∧ Goes z ∧
      (z.queue q).sawFault = false ∧ (z.queue q).sawKill = false) ∧
    (s.drained q = false → exec (.compl addr val sc) s = .next s)

/-- R322, R326, R334: a DISPATCH or BCAST waits while the launch table is full; otherwise a readable launch enters it with one pending task for each gang, in
ascending %gang, and the packet finishes; a refused descriptor is error 7 and a fault of an access error 8. A launch that no placement could ever hold is
refused too, the model's choice for packets that are not submitted by a client (log entry 88). -/
def Obligations.Launching : Prop :=
  ∀ (s : State) (q : Nat) (x : Queue) (l : Level), AtPacket s q x l → ∀ (p : DispatchPkt) (b : BcastPkt) (s1 : State) (n : Launch) (kind : Nat),
    let Starts (i : Instr) (n : Launch) : Prop :=
      ∃ z n', exec i s = .next z ∧ kfind z.launches s.nextLaunch = some n' ∧ z.nextLaunch = s.nextLaunch + 1 ∧
        n' = { n with pktAddr := n'.pktAddr, pkt := n'.pkt, pktLevel := n'.pktLevel } ∧
        z.nextTask = s.nextTask + n.nblk / max 1 n.gsz ∧ (∀ j, j ≠ s.nextLaunch → kfind z.launches j = kfind s.launches j) ∧
        (∀ j, j < s.nextTask → kfind z.tasks j = kfind s.tasks j) ∧
        (∀ g, g < n.nblk / max 1 n.gsz → ∃ t, kfind z.tasks (s.nextTask + g) = some t ∧ t.launch = s.nextLaunch ∧ t.gang = g ∧
          t.st = .pending ∧ t.nblk = n.gsz ∧ t.desc = n.desc) ∧ ∀ a, z.rdH a = s.rdH a
    (s.tableFull = true → exec (.dispatch p) s = .next s ∧ exec (.bcast b) s = .next s) ∧
    (s.tableFull = false →
      (s.readLaunch q p = (s1, .ok n) → s1.fitsEver n = true → Starts (.dispatch p) n) ∧
      (s.readLaunch q p = (s1, .ok n) → s1.fitsEver n = false → exec (.dispatch p) s = .next (s1.packetErr q 7 0)) ∧
      (s.readLaunch q p = (s1, .error .refused) → exec (.dispatch p) s = .next (s1.packetErr q 7 0)) ∧
      (s.readLaunch q p = (s1, .error (.fault kind)) → exec (.dispatch p) s = .next (s1.packetErr q 8 kind)) ∧
      (s.fitsEver (bcastLaunch q x b) = true → Starts (.bcast b) (bcastLaunch q x b)) ∧
      (s.fitsEver (bcastLaunch q x b) = false → exec (.bcast b) s = .next (s.packetErr q 7 0)))

/-- R316, R317, R321, R333, R338: a queue is created for a process with a bound ASID, active, empty and with its registered ring and log; a stopped queue restarts
at RPTR; ACK never passes FIDX; a destroyed queue drains from where it stands, and an ENQ that waits on it completes with status 1. A request that the service refuses changes only the answer. -/
def Sys2Proof.Claim.QueueRequests : Prop :=
  ∀ (s : State), Serving s → ∀ (proc q ring log flog flogn n a : Nat) (res : Option Nat),
    let x := s.queue q
    let refused : State := { s with hub := { s.hub with status := 2 } }
    let okForm : Prop := q < 4096 ∧ x.st = 0 ∧ ring % 4096 = 0 ∧ 4 ≤ log ∧ log ≤ 16 ∧ flog % 64 = 0 ∧ flogn ≤ 12 ∧
      ∀ i, res = some i → s.granted proc i = true
    let Makes (i : Instr) (y : Queue) : Prop :=
      ∃ z, exec i s = .next z ∧ z.queue q = y ∧ (∀ j, j ≠ q → z.queue j = s.queue j) ∧ z.hub = { s.hub with status := 0 } ∧
        z.launches = s.launches ∧ z.tasks = s.tasks ∧ z.waves = s.waves ∧ ∀ a, z.rdH a = s.rdH a
    (s.boundAsid proc = some a → okForm → Makes (.createQueue proc q ring log flog flogn res)
      { ring, log, st := 1, asid := a, proc, flog, flogn, reserved := res, levels := [{ ring := true, base := ring, len := 0, pos := 0 }] }) ∧
    (s.boundAsid proc = none ∨ ¬okForm → exec (.createQueue proc q ring log flog flogn res) s = .next refused) ∧
    (x.st = 2 → Makes (.restartQueue q) { x with
      st := 1
      polling := false
      levels := [{ ring := true, base := x.ring, len := 0, pos := x.rptr, org := x.rptr }] }) ∧
    (x.st ≠ 2 → exec (.restartQueue q) s = .next refused) ∧
    (x.st ≠ 0 → Makes (.ackFaultLog q n) { x with ack := (x.ack + min n ((x.fidx + 2 ^ 32 - x.ack) % 2 ^ 32)) % 2 ^ 32 }) ∧
    (x.st = 0 → exec (.ackFaultLog q n) s = .next refused) ∧
    (x.st = 1 ∨ x.st = 2 → ∃ z y, exec (.destroyQueue q false) s = .next z ∧ z.queue q = y ∧ y.st = 3 ∧ y.drainTo = x.wptr ∧ y.rptr = x.rptr ∧
      y.drainKill = false ∧ z.launches = s.launches ∧ z.tasks = s.tasks ∧ ∀ a, z.rdH a = s.rdH a) ∧
    (x.st = 1 ∨ x.st = 2 → ∀ k w f d keys, s.waves.filter (fun p => p.1 = k) = [(k, w)] → w.frags.filter (fun g => g.num = f.num) = [f] →
      f.st = .waiting (.enq q) → f.phase = .enq d keys → ∃ z w' f', exec (.destroyQueue q false) s = .next z ∧ kfind z.waves k = some w' ∧
        w'.sraw d = 1 ∧ w'.frag f.num = some f' ∧ f'.pc = pcAdd f.pc 16 ∧ f'.phase = .none) ∧
    (x.st = 1 ∨ x.st = 2 → ∃ z, exec (.destroyQueue q true) s = .next z ∧ (z.queue q).st = 3 ∧ (z.queue q).drainKill = true) ∧
    (x.st ≠ 1 → x.st ≠ 2 → ∀ k, exec (.destroyQueue q k) s = .next refused)

/-- R313, R377: packets of 64 bytes that the service accepts are written to the ring after WPTR, which advances by their number; without room the answer is 1, and a
queue that is not the process's or cannot run takes none. That a stopped queue takes packets, and which packets are
checked, is the model's reading (log entry 53). -/
def Sys2Proof.Claim.Submission : Prop :=
  ∀ (s : State), Serving s → ∀ (proc q : Nat) (pkts : List (List Byte)),
    let x := s.queue q
    let said (n : Nat) : State := { s with hub := { s.hub with status := n } }
    let slot (i : Nat) : Nat := keyOf 0 (x.ring + 64 * ((x.wptr + i) % 2 ^ x.log))
    let mine : Prop := (x.st = 1 ∨ x.st = 2) ∧ x.proc = proc ∧ ∀ b ∈ pkts, b.length = 64
    (¬mine → exec (.submitPackets proc q pkts) s = .next (said 2)) ∧
    (mine → 2 ^ x.log < x.wptr - x.rptr + pkts.length → exec (.submitPackets proc q pkts) s = .next (said 1)) ∧
    (mine → x.wptr - x.rptr + pkts.length ≤ 2 ^ x.log → (∃ b ∈ pkts, s.refusedPacket q b = true) →
      exec (.submitPackets proc q pkts) s = .next (said 2)) ∧
    (mine → x.wptr - x.rptr + pkts.length ≤ 2 ^ x.log → (∀ b ∈ pkts, s.refusedPacket q b = false) →
      ∃ z, exec (.submitPackets proc q pkts) s = .next z ∧ (z.queue q).wptr = x.wptr + pkts.length ∧ (z.queue q).rptr = x.rptr ∧
        z.hub.status = 0 ∧ (∀ j, j ≠ q → z.queue j = s.queue j) ∧
        (s.debugQs = [] → (∀ u v c d, u < pkts.length → v < pkts.length → c < 64 → d < 64 → slot u + c = slot v + d → u = v) →
          ∀ i p j b, pkts[i]? = some p → p[j]? = some b → z.rdH (slot i + j) = b))

/-! ### The tile set (R158 to R193, R236 to R239) -/

/-- Context `n` of a core, which is `c`, issues an operation of its bundle. -/
def Sys2Proof.Claim.InBundle (s : State) (core n : Nat) (c : TileCtx) : Prop := s.cur.actor = .tile core n ∧ s.ctxAt core n = some c

/-- `z` is `s` but for context `n` of a core, which is `c'`; memory and scratchpads read as before. -/
def Sys2Proof.Claim.OnlyCtx (s : State) (core n : Nat) (c' : TileCtx) (z : State) : Prop :=
  z = { s with cores := z.cores } ∧ (∀ j, j ≠ core → z.core j = s.core j) ∧
  z.core core = { s.core core with ctxs := (z.core core).ctxs } ∧
  z.ctxAt core n = some c' ∧ (∀ m, m ≠ n → z.ctxAt core m = s.ctxAt core m) ∧ ∀ a, z.rdH a = s.rdH a

/-- An x register as it stood before the bundle (R161). -/
abbrev Sys2Proof.Claim.xBefore (s : State) (c : TileCtx) (r : Nat) : DWord := kget 0 (s.cur.xs.getD c.x) r

/-- The context has no operation of these engines that has not completed. -/
def Sys2Proof.Claim.Idle (s : State) (core n : Nat) (l : List Engine) : Prop :=
  (∀ e ∈ l, ∀ q ∈ (s.core core).engq e, q.ctx ≠ n) ∧
  (Engine.cp ∈ l → ∀ p ∈ s.copies, ¬(p.2.tileOp = true ∧ p.2.ctxCore = core ∧ p.2.frag = n))

/-- R181, R182: the control slot's instructions: where each leaves the bundle program counter, and which x register it writes; TWAIT and TFENCE
hold their bundle while an engine they name works for the context. Nothing else changes. That the x registers are read as they stood before
the bundle is the model's reading (log entry 38). -/
def Sys2Proof.Claim.TileControl : Prop :=
  ∀ (s : State) (core n : Nat) (c : TileCtx), InBundle s core n c →
    ∀ (off : BitVec 24) (cc : TCond) (a b d k : Nat) (v : BitVec 26) (i : BitVec 21) (mx tx cp ar aw : Bool),
    let x := xBefore s c
    let on := pcAdd c.pc 32
    let jump := ((c.pc + 32 * off.signExtend 64).setWidth 57).signExtend 64
    let meets : Prop := match cc with
      | .eq => (x a).toInt = 0 | .ne => (x a).toInt ≠ 0 | .lt => (x a).toInt < 0
      | .ge => 0 ≤ (x a).toInt | .gt => 0 < (x a).toInt | .le => (x a).toInt ≤ 0
    let Goes (i : Instr) (pc : DWord) : Prop := ∃ z, exec i s = .next z ∧ OnlyCtx s core n { c with pc } z
    let Sets (i : Instr) (v : DWord) : Prop := ∃ z c', exec i s = .next z ∧ OnlyCtx s core n c' z ∧ c' = { c with x := c'.x, pc := on } ∧
      ∀ r, kget 0 c'.x r = if r = d then v else kget 0 c.x r
    let named := (if mx then [Engine.mx] else []) ++ (if tx then [Engine.tx] else []) ++ (if cp then [Engine.cp] else []) ++
      (if ar then [Engine.ar] else []) ++ if aw then [Engine.aw] else []
    let flags := (c.flags &&& c.trapen).toNat % 256
    Goes .tnop on ∧ Goes (.tjmp off) jump ∧ (meets → Goes (.tbr cc a off) jump) ∧ (¬meets → Goes (.tbr cc a off) on) ∧
    Sets (.tset d (.imm v)) (v.signExtend 64) ∧ Sets (.tset d (.sh v)) (x d <<< 26 ||| v.zeroExtend 64) ∧ Sets (.tset d (.mov a)) (x a) ∧
    Sets (.tset d (.special 0)) (BitVec.ofNat 64 n) ∧ Sets (.tset d (.special 1)) (BitVec.ofNat 64 c.rank) ∧
    Sets (.tset d (.special 2)) c.gframeVa ∧
    Sets (.tadd d a (.inl b)) (x a + x b) ∧ Sets (.tadd d a (.inr i)) (x a + i.signExtend 64) ∧
    (s.cur.accepted = true ∨ Idle s core n named → Goes (.twait mx tx cp ar aw) on) ∧
    (s.cur.accepted = false → ¬Idle s core n named → exec (.twait mx tx cp ar aw) s = .next s) ∧
    (s.cur.accepted = true ∨ (Idle s core n [.mx, .ar, .aw] ∧ flags = 0) → Goes .tileTfence on) ∧
    (s.cur.accepted = false → ¬Idle s core n [.mx, .ar, .aw] → exec .tileTfence s = .next s) ∧
    (s.cur.accepted = false → Idle s core n [.mx, .ar, .aw] → flags ≠ 0 →
      exec .tileTfence s = .next (s.tileFault core n c { kind := 0x60, level := 1, detail := flags })) ∧
    (s.cur.accepted = false → exec (.ttrap k) s = .next (s.tileFault core n c { kind := 0x70, level := 1, detail := k + 256 }))

/-- The context is `c'` and engine `e` of its core has one operation more, the last, in the order of issue; no other queue, slot, bank or byte changes. -/
def Sys2Proof.Claim.Queues (s : State) (core n : Nat) (c' : TileCtx) (e : Engine) (copy : Option Nat) (op : EngOp) (z : State) : Prop :=
  let x := s.core core
  let y := z.core core
  y.engq e = x.engq e ++ [{ order := x.nextOrder, ctx := n, np := s.cur.np, copy, op }] ∧ (∀ f, f ≠ e → y.engq f = x.engq f) ∧
  y.nextOrder = x.nextOrder + 1 ∧ z.ctxAt core n = some c' ∧ (∀ m, m ≠ n → z.ctxAt core m = s.ctxAt core m) ∧
  y = { x with mxq := y.mxq, txq := y.txq, cpq := y.cpq, arq := y.arq, awq := y.awq, nextOrder := y.nextOrder, ctxs := y.ctxs, slots := y.slots } ∧
  (∀ j, j ≠ core → z.core j = s.core j) ∧ z.waves = s.waves ∧ z.tasks = s.tasks ∧ (∀ a, z.rdH a = s.rdH a)

/-- R160, R163, R172, R177, R178, R180, R185: an operation of the matrix, transpose, read and write engines joins its engine's queue when its bundle has been
accepted, or when the queue has room and its slots and banks are the context's and its image lies in the window on a 64-byte boundary; a full
queue holds it; else kind 0x40 with reason 4 for a bank and 3 for a slot, or 0x11 reason 3, or 0x10 reason 2, in operand order. That a hold comes before
a fault is the model's reading (log entry 38). -/
def Sys2Proof.Claim.TileEngines : Prop :=
  ∀ (s : State) (core n : Nat) (c : TileCtx), InBundle s core n c → ∀ (d a b o : Nat) (k : Depth) (m : RescMode),
    let x := xBefore s c
    let depthK := match k with | .const i => i | .reg r => (x r).toNat % 64 + 1
    let bank (i : Nat) : Prop := i < c.bankCount
    let slot (i : Nat) : Prop := c.held.getLsbD i = true ∨ c.gateSlots.getLsbD i = true
    let room (e : Engine) : Prop := ((s.core core).engq e).length < (match e with | .mx => 4 | .cp => 16 | _ => 2)
    let Misuse (i : Instr) (reason j no : Nat) : Prop :=
      exec i s = .next (s.tileFault core n c { kind := 0x40, level := 1, detail := reason + 256 * j + 2 ^ 13 * no })
    let Joins (i : Instr) (e : Engine) (ok : Prop) (op : EngOp) : Prop :=
      (s.cur.accepted = true ∨ (room e ∧ ok) → ∃ z, exec i s = .next z ∧ Queues s core n c e none op z ∧ (z.core core).slots = (s.core core).slots ∧
        z.copies = s.copies) ∧
      (s.cur.accepted = false → ¬room e → exec i s = .next s)
    let off := (x o).toNat
    let Image (i : Instr) (e : Engine) (no bk size : Nat) (op : EngOp) : Prop :=
      Joins i e (bank bk ∧ off % 64 = 0 ∧ off + size ≤ (winOfCtx s core c).2) op ∧
      (s.cur.accepted = false → room e →
        (¬bank bk → Misuse i 4 bk no) ∧
        (bank bk → off % 64 ≠ 0 → exec i s = .next (s.tileFault core n c { kind := 0x11, level := 1, addr := off, detail := 3 })) ∧
        (bank bk → off % 64 = 0 → (winOfCtx s core c).2 < off + size →
          exec i s = .next (s.tileFault core n c { kind := 0x10, level := 1, addr := off, detail := 2 })))
    let at_ := (winOfCtx s core c).1 + off
    let bk := c.bankBase + d
    let Bank (i : Instr) (op : EngOp) : Prop := Joins i .mx (bank d) op ∧ (s.cur.accepted = false → room .mx → ¬bank d → Misuse i 4 d 1)
    let Matrix (i : Instr) (op : EngOp) : Prop :=
      Joins i .mx (bank d ∧ slot a ∧ slot b) op ∧
      (s.cur.accepted = false → room .mx → (¬bank d → Misuse i 4 d 1) ∧ (bank d → ¬slot a → Misuse i 3 a 1) ∧ (bank d → slot a → ¬slot b → Misuse i 3 b 1))
    Matrix (.mma d a b k) (.mma bk a b depthK) ∧ Matrix (.mmas d a b k) (.mmas bk a b depthK) ∧
    Bank (.azero d) (.azero bk) ∧ Bank (.anorm d) (.anorm bk) ∧
    Bank (.aresc d m) (match m with | .sum => .aresc bk 0 0 | .pow2 r => .aresc bk 1 (x r) | .mul r => .aresc bk 2 (x r)) ∧
    Joins (.trn d a) .tx (slot d ∧ slot a) (.trn d a) ∧
    (s.cur.accepted = false → room .tx → (¬slot d → Misuse (.trn d a) 3 d 2) ∧ (slot d → ¬slot a → Misuse (.trn d a) 3 a 2)) ∧
    Joins (.ardCe b d) .ar (bank b ∧ slot d) (.ardCe (c.bankBase + b) d) ∧
    (s.cur.accepted = false → room .ar → (¬bank b → Misuse (.ardCe b d) 4 b 4) ∧ (bank b → ¬slot d → Misuse (.ardCe b d) 3 d 4)) ∧
    Image (.ardF32 b o) .ar 4 b 16384 (.ard (c.bankBase + b) at_ 1) ∧ Image (.ardBf16 b o) .ar 4 b 8192 (.ard (c.bankBase + b) at_ 2) ∧
    Image (.ardF16 b o) .ar 4 b 8192 (.ard (c.bankBase + b) at_ 3) ∧ Image (.ardRaw b o) .ar 4 b 34816 (.ard (c.bankBase + b) at_ 4) ∧
    Image (.awrRaw d o) .aw 5 d 34816 (.awr bk at_ 0) ∧ Image (.awrAdd d o) .aw 5 d 34816 (.awr bk at_ 1) ∧
    Image (.awrF32 d o) .aw 5 d 16384 (.awr bk at_ 2)

/-- R164, R170: TCLAIM holds its bundle while another context has the slot, else takes it at once and queues its clearing; TREL gives up the mask bit and
queues the release; misuse is reason 1 or 2; TCSEAL moves the unsealed copies into its batch; TCWAIT holds its bundle until the batch's copies have
completed, then frees the batch. That a TCWAIT needs room in the
queue first, and that a hold comes before a fault, are the model's readings (log entry 38). -/
def Sys2Proof.Claim.TileClaims : Prop :=
  ∀ (s : State) (core n : Nat) (c : TileCtx), InBundle s core n c → ∀ k : Nat,
    let slot (i : Nat) : Slot := kget {} (s.core core).slots i
    let mine : Prop := c.held.getLsbD k = true ∨ c.gateSlots.getLsbD k = true
    let room : Prop := (s.core core).cpq.length < 16
    let theirs : Prop := (slot k).holder ≠ none ∧ (slot k).holder ≠ some n
    let Misuse (i : Instr) (reason : Nat) : Prop :=
      exec i s = .next (s.tileFault core n c { kind := 0x40, level := 1, detail := reason + 256 * k + 2 ^ 13 * 3 })
    let acc : Prop := s.cur.accepted = true
    let batch := kget [] c.batches k
    let allDone : Prop := ∀ i ∈ batch, kfind s.copies i = none
    (acc ∨ (room ∧ ¬theirs ∧ ¬mine) → ∃ z, exec (.tclaim k) s = .next z ∧
      Queues s core n { c with held := c.held ||| (1#16 <<< k) } .cp none (.tclaim k) z ∧
      ∀ i, kget {} (z.core core).slots i = if i = k then { slot i with holder := some n } else slot i) ∧
    (¬acc → ¬room ∨ theirs → exec (.tclaim k) s = .next s) ∧
    (¬acc → room → ¬theirs → mine → Misuse (.tclaim k) 1) ∧
    (acc ∨ (room ∧ c.held.getLsbD k = true) → ∃ z, exec (.trel k) s = .next z ∧
      Queues s core n { c with held := c.held &&& ~~~(1#16 <<< k) } .cp none (.trel k) z ∧ (z.core core).slots = (s.core core).slots) ∧
    (¬acc → room → c.held.getLsbD k = false → Misuse (.trel k) 2) ∧
    (acc ∨ room → ∃ z c', exec (.tcseal k) s = .next z ∧ Queues s core n c' .cp none .tcseal z ∧
      c' = { c with batches := c'.batches, unsealed := [] } ∧ (∀ i, kget [] c'.batches i = if i = k then batch ++ c.unsealed else kget [] c.batches i)) ∧
    (¬acc → ¬room → exec (.trel k) s = .next s ∧ exec (.tcseal k) s = .next s ∧ exec (.tcwait k) s = .next s) ∧
    (¬acc → ¬allDone → exec (.tcwait k) s = .next s) ∧
    (acc ∨ (room ∧ allDone) → ∃ z c', exec (.tcwait k) s = .next z ∧ OnlyCtx s core n c' z ∧ c' = { c with batches := c'.batches } ∧
      ∀ i, kget [] c'.batches i = if i = k then [] else kget [] c.batches i)

/-- R165, R166, R169: an accepted CPIN, CPOUT or CPX starts one copy, the last of the unsealed set, and queues it on the copy engine; each address is a multiple
of 64 (reason 3), global ones canonical (reason 1); a CPX of no lines copies nothing and still joins the set. That reason 3 comes before reason 1, and a hold before a fault,
are the model's readings (log entries 39 and 38). -/
def Sys2Proof.Claim.TileCopies : Prop :=
  ∀ (s : State) (core n : Nat) (c : TileCtx), InBundle s core n c → ∀ (t a d k : Nat) (tr : Bool) (off : Option Nat) (dir : CpxDir),
    let x := xBefore s c
    let room : Prop := (s.core core).cpq.length < 16
    let held : Prop := c.held.getLsbD t = true ∨ c.gateSlots.getLsbD t = true
    let acc : Prop := s.cur.accepted = true
    let Bad (i : Instr) (addr detail : Nat) : Prop := exec i s = .next (s.tileFault core n c { kind := 0x11, level := 1, addr, detail })
    let Starts (i : Instr) (op : EngOp) (lanes : List CopyLane) : Prop :=
      ∃ z y, exec i s = .next z ∧ Queues s core n { c with unsealed := c.unsealed ++ [s.nextCopy] } .cp (some s.nextCopy) op z ∧
        kfind z.copies s.nextCopy = some y ∧ y.lanes = lanes ∧ y.tileOp = true ∧ y.frag = n ∧ y.ctxCore = core ∧ y.core = core ∧ y.task = c.task ∧
        y.order = (s.core core).nextOrder ∧ (∀ i, i ≠ s.nextCopy → kfind z.copies i = kfind s.copies i) ∧ (z.core core).slots = (s.core core).slots
    let line (m : LineMap) : List CopyLane := m.zipIdx.map fun p => { lane := p.2, src := some (.global, p.1.2), dst := none, len := 64 }
    (∀ e m, acc → (acceptDesc s core c a off false).2 = .ok (e, m) → Starts (.cpin t a tr off) (.cpin t e tr m) (line m)) ∧
    (∀ e m, acc → (acceptDesc s core c a off true).2 = .ok (e, m) → Starts (.cpout t a tr off) (.cpout t e tr m) []) ∧
    (¬acc → ¬room → exec (.cpin t a tr off) s = .next s ∧ exec (.cpout t a tr off) s = .next s ∧ exec (.cpx dir d a k) s = .next s) ∧
    (¬acc → room → ¬held →
      let e : Exc := { kind := 0x40, level := 1, detail := 3 + 256 * t + 2 ^ 13 * 3 }
      exec (.cpin t a tr off) s = .next (s.tileFault core n c e) ∧ exec (.cpout t a tr off) s = .next (s.tileFault core n c e)) ∧
    (¬acc → room → held →
      ((x a).toNat % 64 ≠ 0 → Bad (.cpin t a tr off) (x a).toNat 3 ∧ Bad (.cpout t a tr off) (x a).toNat 3) ∧
      ((x a).toNat % 64 = 0 → ((x a).setWidth 57).signExtend 64 ≠ x a → Bad (.cpin t a tr off) (x a).toNat 1 ∧ Bad (.cpout t a tr off) (x a).toNat 1)) ∧
    (¬acc → room → (x d).toNat % 64 ≠ 0 → Bad (.cpx dir d a k) (x d).toNat 3) ∧
    (¬acc → room → (x d).toNat % 64 = 0 → (x a).toNat % 64 ≠ 0 → Bad (.cpx dir d a k) (x a).toNat 3) ∧
    (acc → (x k).toNat % 2 ^ 16 = 0 → Starts (.cpx dir d a k) .cpx []) ∧
    (∀ m1 m2, acc → (cpxLines s core c dir (cpxArgs s c d a k)).2 = .ok (m1, m2) →
      let win := (winOfCtx s core c).1
      let glob (m : LineMap) (r i : Nat) : Space × Nat := (.global, kget 0 m ((x r).toNat % 2 ^ 57 / 64 + i))
      let pad (r i : Nat) : Space × Nat := (.scratch core, win + (x r).toNat + 64 * i)
      Starts (.cpx dir d a k) .cpx ((List.range ((x k).toNat % 2 ^ 16)).map fun i =>
        { lane := i
          src := some (match dir with | .sg => pad a i | _ => glob m2 a i)
          dst := some (match dir with | .gs => pad d i | _ => glob m1 d i)
          len := 64 }))

/-- The 64 × 64 elements of an operand slot and the entries of a bank. -/
abbrev Sys2Proof.Claim.elem (x : Slot) (i j : Nat) : Word := x.at i j

/-- The operation at the head of an engine's queue, before `r`, performs with result `R`; other queues, cores, waves, tasks and memory stay. -/
def Sys2Proof.Claim.Performs (s : State) (core : Nat) (e : Engine) (r : List QOp) (R : State → Prop) : Prop :=
  ∃ z, exec (.engineOperation core e) s = .next z ∧ (z.core core).engq e = r ∧
    (∀ f, f ≠ e → (z.core core).engq f = (s.core core).engq f) ∧ (∀ a, z.rdH a = s.rdH a) ∧ (∀ j, j ≠ core → z.core j = s.core j) ∧
    z.waves = s.waves ∧ z.tasks = s.tasks ∧ R z

/-- R161, R164, R173, R175, R177: the operation at the head of an engine's queue waits for the earlier ones of its context that it must follow; otherwise it leaves the queue
and performs: TRN transposes, TCLAIM clears, TREL frees a slot that its context has not claimed again, AZERO resets every live row and the headroom, ANORM restores the headroom, MMA charges it and keeps
what lies outside the live rows, ROWMAX and ROWSUM. -/
def Sys2Proof.Claim.EngineResults : Prop :=
  ∀ (s : State) (core : Nat) (e : Engine) (q : QOp) (r : List QOp), Running s → (s.core core).engq e = q :: r →
    let slot (z : State) (i : Nat) : Slot := kget {} (z.core core).slots i
    let bank (z : State) (i : Nat) : Bank := kget {} (z.core core).banks i
    let Does (R : State → Prop) : Prop := Performs s core e r R
    (opWaits s core q = true → exec (.engineOperation core e) s = .next s) ∧
    (opWaits s core q = false →
      (∀ d a, q.op = .trn d a → Does fun z => (∀ i j, i < 64 → j < 64 → elem (slot z d) j i = elem (slot s a) i j) ∧
        (slot z d).narrow = (slot s a).narrow ∧ (∀ i, i < 64 → (slot z d).rowMax i = (slot s a).colMax i ∧ (slot z d).colMax i = (slot s a).rowMax i) ∧
        (∀ i, i ≠ d → slot z i = slot s i) ∧ ∀ i, bank z i = bank s i) ∧
      (∀ k, q.op = .tclaim k → Does fun z => (∀ i j, elem (slot z k) i j = 0) ∧ (slot z k).narrow = true ∧ (slot z k).holder = (slot s k).holder ∧
        (∀ i, i ≠ k → slot z i = slot s i) ∧ ∀ i, bank z i = bank s i) ∧
      (∀ k, q.op = .trel k → (∀ c, s.ctxAt core q.ctx = some c → c.held.getLsbD k = false) →
        (∀ o ∈ (s.core core).cpq, o.ctx = q.ctx → o.op ≠ .tclaim k) →
        Does fun z => slot z k = { slot s k with holder := none } ∧ (∀ i, i ≠ k → slot z i = slot s i) ∧ ∀ i, bank z i = bank s i) ∧
      (∀ d, q.op = .azero d → Does fun z => (bank z d).hr = 16 ∧ (bank z d).live = (bank s d).live ∧ (∀ i, i ≠ d → bank z i = bank s i) ∧
        (∀ i, slot z i = slot s i) ∧
        ∀ i j, i < 64 → j < 64 →
          if (bank s d).live.getLsbD i = true then
            (bank z d).M i j = 0 ∧ (bank z d).tag i j = 0 ∧ (bank z d).E i = -32768 ∧ (bank z d).maxOf i = 0xFF800000 ∧ (bank z d).sumOf i = 0
          else (bank z d).M i j = (bank s d).M i j ∧ (bank z d).tag i j = (bank s d).tag i j ∧ (bank z d).E i = (bank s d).E i ∧
            (bank z d).maxOf i = (bank s d).maxOf i ∧ (bank z d).sumOf i = (bank s d).sumOf i) ∧
      (∀ d, q.op = .anorm d → Does fun z => (bank z d).hr = 16 ∧ (∀ i, i ≠ d → bank z i = bank s i) ∧ (∀ i, slot z i = slot s i) ∧
        ∀ i j, i < 64 → j < 64 → (bank z d).maxOf i = (bank s d).maxOf i ∧ (bank z d).sumOf i = (bank s d).sumOf i ∧
          ((bank s d).live.getLsbD i = false → (bank z d).M i j = (bank s d).M i j ∧ (bank z d).tag i j = (bank s d).tag i j ∧
            (bank z d).E i = (bank s d).E i)) ∧
      (∀ d a b k, q.op = .mma d a b k → 0 < k → k ≤ 64 →
        let need := (if k ≤ 1 then 0 else Nat.log2 (k - 1) + 1) + 1
        Does fun z => (bank z d).hr = (bank s d).hr - need ∧ (∀ i, i ≠ d → bank z i = bank s i) ∧ (∀ i, slot z i = slot s i) ∧
          (∀ c, s.ctxAt core q.ctx = some c → (bank s d).hr < need → ∃ c', z.ctxAt core q.ctx = some c' ∧ c'.flags.getLsbD 6 = true) ∧
          ∀ i j, i < 64 → j < 64 → (bank z d).maxOf i = (bank s d).maxOf i ∧ (bank z d).sumOf i = (bank s d).sumOf i ∧
            ((bank s d).live.getLsbD i = false → (bank z d).M i j = (bank s d).M i j ∧ (bank z d).tag i j = (bank s d).tag i j ∧
              (bank z d).E i = (bank s d).E i)) ∧
      (q.op = .tcseal → Does fun z => z.core core = (s.core core).setEngq e r))

/-- A profile's columns (R183): the margin, Trunc toward zero or by floor, τ, and the code of its rescale rounding. -/
abbrev Sys2Proof.Claim.marginOf (np : Nat) : Int := if np = 4 then 3 else 2
abbrev Sys2Proof.Claim.tauOf (np : Nat) : Nat := if np = 5 then 8 else 0
abbrev Sys2Proof.Claim.rescOf (np : Nat) : Nat := if np = 3 then 2 else if np = 6 then 5 else 1

/-- `n` is the integer to which a rounding mode takes `x`: to nearest even, toward zero, or to nearest with ties away (R65). -/
def Sys2Proof.Claim.ToInt (rm : Nat) (x : ℚ) (n : Int) : Prop :=
  match rm with
  | 2 => |(n : ℚ)| ≤ |x| ∧ |x| < |(n : ℚ)| + 1 ∧ 0 ≤ x * n
  | 5 => |x - n| ≤ 1 / 2 ∧ (|x - n| = 1 / 2 → |x| < |(n : ℚ)|)
  | _ => |x - n| ≤ 1 / 2 ∧ (|x - n| = 1 / 2 → n % 2 = 0)

/-- What the product of two elements adds at scale `t` under a profile (R173): its truncated value, zero unless both are finite and not zero. -/
def Sys2Proof.Claim.productAt (np : Nat) (t : Int) (a b : Word) : Int :=
  let v : ℚ := (if ceS a = ceS b then 1 else -1) * ceSig a * ceSig b * (2 : ℚ) ^ (ceExp a + ceExp b + 16 - t - tauOf np)
  if ceCls a = 1 ∧ ceCls b = 1 then (if np = 3 ∧ v < 0 then ⌈v⌉ else ⌊v⌋) * 2 ^ tauOf np else 0

/-- The tag that a product of two elements gives: 3 NaN, 1 or 2 an infinity of its sign, 0 none (R173). -/
def Sys2Proof.Claim.productTag (a b : Word) : Nat :=
  if ceCls a = 3 ∨ ceCls b = 3 ∨ (ceCls a = 2 ∧ ceCls b = 0) ∨ (ceCls a = 0 ∧ ceCls b = 2) then 3
  else if ceCls a = 2 ∨ ceCls b = 2 then (if ceS a = ceS b then 1 else 2)
  else 0

/-- The join of tags: a NaN, or infinities of both signs, give NaN (R173). -/
def Sys2Proof.Claim.joinOf (l : List Nat) : Nat := if 3 ∈ l ∨ (1 ∈ l ∧ 2 ∈ l) then 3 else if 1 ∈ l then 1 else if 2 ∈ l then 2 else 0

/-- Row `i` of bank `y` holds, at the exponent `t`, its entries `M` of exponent `E` with tags `tag` plus the products of the row `a` and the columns of
`b` to depth `k` (R173): exact while they fit 64 bits, clamped where the headroom does not suffice. -/
def Sys2Proof.Claim.Accumulated (np k : Nat) (clamp : Bool) (a : Nat → Word) (amax top : Int) (b : Nat → Nat → Word) (M : Nat → Int) (E : Int) (tag : Nat → Nat)
    (y : Bank) (i : Nat) : Prop :=
  let t := max E (amax + top + marginOf np)
  y.E i = t ∧ ∀ j, j < 64 →
    let m : Int := ⌊(M j : ℚ) / 2 ^ (t - E)⌋ + ((List.range k).map fun n => productAt np t (a n) (b n j)).sum
    (clamp = true → y.M i j = max (-2 ^ 63) (min m (2 ^ 63 - 1))) ∧ (clamp = false → -2 ^ 63 ≤ m → m < 2 ^ 63 → y.M i j = m) ∧
    y.tag i j = joinOf (tag j :: (List.range k).map fun n => productTag (a n) (b n j))

/-- A row of exponent `E` and entries `M` times a factor `f` by a rescale rounding (step 3 of R174). -/
def Sys2Proof.Claim.Rescaled (rm : Nat) (f : ℚ) (M : Nat → Int) (E : Int) (M' : Nat → Int) (E' : Int) : Prop :=
  (f = 0 → E' = E ∧ ∀ j, j < 64 → M' j = 0) ∧
  ∀ q Q : Int, (2 : ℚ) ^ (q - 1) < f → f ≤ (2 : ℚ) ^ q → ToInt rm (f * (2 : ℚ) ^ (16 - q)) Q →
    (E + q < -32768 → E' = -32768 ∧ ∀ j, j < 64 → M' j = 0) ∧
    (-32768 ≤ E + q → E' = E + q ∧ ∀ j, j < 64 → ToInt rm (M j * Q / 2 ^ 16) (M' j))

/-- R63, R173, R174, R176: what MMA, MMAS and ARESC leave in a live row. MMA adds the truncated products; MMAS takes the larger maximum, rescales the row and its
sum by VFEXP of the difference, and adds the products of the probabilities; ARESC shifts the exponent, or rescales by a factor in (0, 1], any other
of which makes every tag NaN and sets NV. -/
def Sys2Proof.Claim.EngineRows : Prop :=
  ∀ (s : State) (core : Nat) (e : Engine) (q : QOp) (r : List QOp), Running s → (s.core core).engq e = q :: r → opWaits s core q = false →
    1 ≤ q.np → q.np ≤ 6 →
    ∀ (d a b k i : Nat) (x : DWord) (top : Int), 0 < k → k ≤ 64 → i < 64 →
    let A : Slot := kget {} (s.core core).slots a
    let B : Slot := kget {} (s.core core).slots b
    let y : Bank := kget {} (s.core core).banks d
    let bank (z : State) : Bank := kget {} (z.core core).banks d
    let clamp : Bool := decide (y.hr < (if k ≤ 1 then 0 else Nat.log2 (k - 1) + 1) + 1)
    let rm := rescOf q.np
    let v := FEnv.of (((s.ctxAt core q.ctx).map (·.mode)).getD 1) 0
    let as (c : Nat) : FEnv := { v with rm := c, csat := false }
    let read (u : Nat) : ℚ := if v.f32sub = true ∧ expOf fp32 u = 0 then 0 else finOf fp32 u
    y.live.getLsbD i = true → (∀ j, y.tag i j ≤ 3) → (∃ j, j < 64 ∧ B.colMax j = top) → (∀ j, j < 64 → B.colMax j ≤ top) →
    (q.op = .mma d a b k → Performs s core e r fun z =>
      Accumulated q.np k clamp (A.at i) (A.rowMax i) top B.at (y.M i) (y.E i) (y.tag i) (bank z) i) ∧
    (q.op = .mmas d a b k →
      let row := (List.range k).map (A.at i)
      let old := val32 v (y.maxOf i)
      let new := (row.filter fun x => ceCls x ≤ 1).foldl (fun m x => fMax m (ceVal x)) old
      let exp (u : FVal) : Word := (Sfu.apply .exp v (diff32 v u new).1).1
      let f := if y.maxOf i = 0xFF800000 then 0 else exp old
      let P (n : Nat) : Word := (ceOf rm (val32 v (exp (ceVal (A.at i n))))).1
      (isNaN fp32 (y.maxOf i).toNat ∨ (∃ n, n < k ∧ ceCls (A.at i n) = 3) → Performs s core e r fun z =>
        (bank z).maxOf i = 0x7FC00000 ∧ (bank z).sumOf i = y.sumOf i ∧ (bank z).E i = y.E i ∧
        ∀ j, j < 64 → (bank z).tag i j = 3 ∧ (bank z).M i j = y.M i j) ∧
      (¬isNaN fp32 (y.maxOf i).toNat → (∀ n, n < k → ceCls (A.at i n) ≠ 3) → isFin fp32 f.toNat → Performs s core e r fun z =>
        (bank z).maxOf i = BitVec.ofNat 32 (fp32.convert (as 1) new).1 ∧
        (bank z).sumOf i = BitVec.ofNat 32 ((List.range k).foldl (fun u n => (fp32.add (as rm) (fp32.read v.f32sub u) (ceVal (P n))).1)
          (fp32.mul (as rm) (val32 v (y.sumOf i)) (val32 v f)).1) ∧
        ∃ M' E' amax, Rescaled rm (read f.toNat) (y.M i) (y.E i) M' E' ∧
          (∀ n, n < k → ceCls (P n) = 1 → ceExp (P n) ≤ amax) ∧ (amax = -4096 ∨ ∃ n, n < k ∧ ceCls (P n) = 1 ∧ ceExp (P n) = amax) ∧
          Accumulated q.np k clamp P amax top B.at M' E' (y.tag i) (bank z) i)) ∧
    (let Times (g : Nat) : Prop :=
        let w := read g
        (isFin fp32 g → 0 < w → w ≤ 1 → Performs s core e r fun z =>
          Rescaled rm w (y.M i) (y.E i) ((bank z).M i) ((bank z).E i) ∧ (∀ j, j < 64 → (bank z).tag i j = y.tag i j) ∧
          (bank z).hr = y.hr - 1 ∧ (bank z).maxOf i = y.maxOf i ∧ (bank z).sumOf i = y.sumOf i) ∧
        (¬(isFin fp32 g ∧ 0 < w ∧ w ≤ 1) → Performs s core e r fun z =>
          (∀ j, j < 64 → (bank z).tag i j = 3) ∧ (bank z).hr = y.hr - 1 ∧
          ∀ c, s.ctxAt core q.ctx = some c → ∃ c', z.ctxAt core q.ctx = some c' ∧ c'.flags.getLsbD 0 = true)
      let e' := y.E i + (x.extractLsb' 0 16).toInt
      (q.op = .aresc d 1 x → Performs s core e r fun z => (bank z).hr = y.hr - 1 ∧ ∀ j, j < 64 →
        (-32768 ≤ e' → e' ≤ 32767 → (bank z).E i = e' ∧ (bank z).M i j = y.M i j ∧ (bank z).tag i j = y.tag i j) ∧
        (e' < -32768 → (bank z).E i = -32768 ∧ (bank z).M i j = 0 ∧ (bank z).tag i j = y.tag i j) ∧
        (32767 < e' → (bank z).E i = 32767 ∧ (bank z).M i j = 0 ∧
          (bank z).tag i j = if y.tag i j = 0 ∧ y.M i j ≠ 0 then (if y.M i j < 0 then 2 else 1) else y.tag i j)) ∧
      (q.op = .aresc d 2 x → Times (x.toNat % 2 ^ 32)) ∧
      (q.op = .aresc d 0 x →
        let u := (y.sumOf i).toNat
        let ratio : ℚ := 1 / finOf fp32 u
        (isFin fp32 u → 0 < read u → (v.f32sub = true → (2 : ℚ) ^ (-126 : Int) ≤ ratio) → ∀ g, Rounded fp32 1 (ratio : ℝ) g → Times g) ∧
        (isFin fp32 u → 0 < read u → v.f32sub = true → ratio < (2 : ℚ) ^ (-126 : Int) → Times 0) ∧
        (¬(isFin fp32 u ∧ 0 < read u) → Times 0)))

/-- The row of largest exponents and the column of a slot's side table (R163), with its width tag. -/
def Sys2Proof.Claim.SideTable (y : Slot) (narrow : Bool) : Prop :=
  let top (l : Nat → Word) (m : Int) : Prop := (∀ j, j < 64 → ceCls (l j) = 1 → ceExp (l j) ≤ m) ∧
    (m = -4096 ∨ ∃ j, j < 64 ∧ ceCls (l j) = 1 ∧ ceExp (l j) = m)
  y.narrow = narrow ∧ ∀ i, i < 64 → top (fun j => y.at i j) (y.rowMax i) ∧ top (fun j => y.at j i) (y.colMax i)

/-- A canonical element holds the number `v`, with the sign `neg`, to the 16 bits that a rounding mode gives it (R70, R71, R178). -/
def Sys2Proof.Claim.HoldsNumber (rm : Nat) (neg : Bool) (v : ℚ) (y : Word) : Prop :=
  (v = 0 → y = if neg then 0x80000000 else 0) ∧
  ∀ g Q : Int, (2 : ℚ) ^ g ≤ |v| → |v| < (2 : ℚ) ^ (g + 1) → ToInt rm (|v| * (2 : ℚ) ^ (15 - g)) Q →
    let e := if Q = 2 ^ 16 then g + 1 else g
    (4095 < e → y = if neg then 0xC0000000 else 0x40000000) ∧
    (e < -4096 → y = if neg then 0x80000000 else 0) ∧
    (-4096 ≤ e → e ≤ 4095 → ceS y = neg ∧ ceCls y = 1 ∧ ceExp y = e ∧ (ceSig y : Int) = if Q = 2 ^ 16 then 2 ^ 15 else Q)

/-- Of the ACVT column of a profile (R183), the code of its rounding. -/
abbrev Sys2Proof.Claim.acvtOf (np : Nat) : Nat := if np = 2 ∨ np = 3 then 2 else if np = 6 then 5 else 1

/-- The number whose little-endian bytes are `f 0` to `f (n - 1)`. -/
def Sys2Proof.Claim.littleEndian (n : Nat) (f : Nat → Byte) : Nat := ((List.range n).map fun i => (f i).toNat * 256 ^ i).sum

/-- Every slot of a core stays. -/
abbrev Sys2Proof.Claim.slotsStay (s z : State) (core : Nat) : Prop := ∀ i, kget {} (z.core core).slots i = kget {} (s.core core).slots i

/-- R178, R179, R180, R183: ARD reads a whole bank: into a slot as canonical elements with their side table and the wide tag, or into the window as FP32, BF16,
FP16 or the raw image, each finite entry M × 2^(E − 46) rounded once under the profile's ACVT mode, a tagged one an infinity or the canonical NaN. AWR writes
the live rows of a bank: the raw image, its sum with the bank, or FP32 numbers under a common exponent. Nothing else of the core's slots, banks and scratchpad
changes. The M beside a tag that awr.f32 sets, and the flags raised, are not stated here. Which queue waiters a window's bytes wake is not either: no wave waits at a
queue. -/
def Sys2Proof.Claim.EngineReads : Prop :=
  ∀ (s : State) (core : Nat) (e : Engine) (q : QOp) (r : List QOp), Running s → (s.core core).engq e = q :: r → opWaits s core q = false →
    1 ≤ q.np → q.np ≤ 6 → ∀ (b d off mode : Nat),
    let x : Bank := kget {} (s.core core).banks b
    let y (z : State) : Bank := kget {} (z.core core).banks b
    let rm := acvtOf q.np
    let value (i j : Nat) : ℚ := x.M i j * (2 : ℚ) ^ (x.E i - 46)
    let Does (R : State → Prop) : Prop := Performs s core e r R
    let byte (v n : Nat) : Byte := BitVec.ofNat 8 (v / 256 ^ n)
    (∀ i j, i < 64 → j < 64 → x.tag i j ≤ 3) →
    (q.op = .ardCe b d → Does fun z =>
      let t := kget {} (z.core core).slots d
      SideTable t false ∧ t.holder = (kget {} (s.core core).slots d).holder ∧
      (∀ i, i ≠ d → kget {} (z.core core).slots i = kget {} (s.core core).slots i) ∧ (∀ i, kget {} (z.core core).banks i = kget {} (s.core core).banks i) ∧
      (∀ a, z.rdScratch core a = s.rdScratch core a) ∧
      ∀ i j, i < 64 → j < 64 →
        (x.tag i j = 0 → HoldsNumber rm (decide (x.M i j < 0)) (value i j) (t.at i j)) ∧ (x.tag i j = 1 → t.at i j = 0x40000000) ∧
        (x.tag i j = 2 → t.at i j = 0xC0000000) ∧ (x.tag i j = 3 → t.at i j = 0x60000000)) ∧
    (q.op = .ard b off mode → s.qwaits = [] →
      let Window (size : Nat) (R : (Nat → Byte) → Prop) : Prop := Does fun z =>
        R (fun a => z.rdScratch core (off + a)) ∧ (∀ a, ¬(off ≤ a ∧ a < off + size) → z.rdScratch core a = s.rdScratch core a) ∧
        slotsStay s z core ∧ ∀ i, kget {} (z.core core).banks i = kget {} (s.core core).banks i
      let Floats (f : Fmt) (n : Nat) : Prop := Window (4096 * n) fun im => ∀ i j, i < 64 → j < 64 →
        let v := littleEndian n fun a => im (n * (64 * i + j) + a)
        (x.tag i j = 0 → Rounded f rm (value i j : ℝ) v ∧ (isFin f v → (2 ^ (f.eb + f.mb) ≤ v ↔ x.M i j < 0))) ∧
        (x.tag i j = 1 → v = (2 ^ f.eb - 1) * 2 ^ f.mb) ∧ (x.tag i j = 2 → v = (2 ^ (f.eb + 1) - 1) * 2 ^ f.mb) ∧ (x.tag i j = 3 → v = canonicalNaN f)
      (mode = 1 → Floats fp32 4) ∧ (mode = 2 → Floats bf16 2) ∧ (mode = 3 → Floats fp16 2) ∧
      (mode = 4 → Window 34816 fun im => ∀ i j, i < 64 → j < 64 →
        (∀ n, n < 8 → im (8 * (64 * i + j) + n) = (BitVec.ofInt 64 (x.M i j)).extractLsb' (8 * n) 8) ∧
        let rec_ (n : Nat) : Byte := im (32768 + 32 * i + n)
        (∀ n, n < 2 → rec_ n = (BitVec.ofInt 16 (x.E i)).extractLsb' (8 * n) 8) ∧ rec_ 2 = byte x.hr 0 ∧ rec_ 3 = 0 ∧
        (∀ n, n < 4 → rec_ (4 + n) = (x.maxOf i).extractLsb' (8 * n) 8 ∧ rec_ (8 + n) = (x.sumOf i).extractLsb' (8 * n) 8 ∧ rec_ (12 + n) = 0) ∧
        (rec_ (16 + j / 4)).toNat / 4 ^ (j % 4) % 4 = x.tag i j)) ∧
    (q.op = .awr b off mode →
      let im (a : Nat) : Byte := s.rdScratch core (off + a)
      let row (i a : Nat) : Byte := im (32768 + 32 * i + a)
      let m (i j : Nat) : Int := (BitVec.ofNat 64 (littleEndian 8 fun a => im (8 * (64 * i + j) + a))).toInt
      let ex (i : Nat) : Int := (BitVec.ofNat 16 (littleEndian 2 (row i))).toInt
      let tg (i j : Nat) : Nat := (row i (16 + j / 4)).toNat / 4 ^ (j % 4) % 4
      let f (i j : Nat) : Nat := littleEndian 4 fun a => im (4 * (64 * i + j) + a)
      let Writes (hr : Nat) (R : Bank → Nat → Prop) : Prop := Does fun z =>
        (y z).hr = hr ∧ (y z).live = x.live ∧ slotsStay s z core ∧ (∀ i, i ≠ b → kget {} (z.core core).banks i = kget {} (s.core core).banks i) ∧
        (∀ a, z.rdScratch core a = s.rdScratch core a) ∧
        ∀ i, i < 64 → if x.live.getLsbD i = true then R (y z) i else
          (y z).E i = x.E i ∧ (y z).maxOf i = x.maxOf i ∧ (y z).sumOf i = x.sumOf i ∧
          ∀ j, j < 64 → (y z).M i j = x.M i j ∧ (y z).tag i j = x.tag i j
      ∀ low : Nat, (∀ i, i < 64 → low ≤ (row i 2).toNat) → (∃ i, i < 64 ∧ (row i 2).toNat = low) →
        (mode = 0 → Writes (min low 16) fun b' i => b'.E i = ex i ∧ b'.maxOf i = BitVec.ofNat 32 (littleEndian 4 fun a => row i (4 + a)) ∧
          b'.sumOf i = BitVec.ofNat 32 (littleEndian 4 fun a => row i (8 + a)) ∧ ∀ j, j < 64 → b'.M i j = m i j ∧ b'.tag i j = tg i j) ∧
        (mode = 1 →
          (Writes (min x.hr low - 1) fun b' i =>
            let t := max (x.E i) (ex i)
            b'.E i = t ∧ b'.maxOf i = x.maxOf i ∧ b'.sumOf i = x.sumOf i ∧ ∀ j, j < 64 →
              let sum : Int := ⌊(x.M i j : ℚ) / 2 ^ (t - x.E i)⌋ + ⌊(m i j : ℚ) / 2 ^ (t - ex i)⌋
              b'.tag i j = joinOf [x.tag i j, tg i j] ∧ (min x.hr low = 0 → b'.M i j = max (-2 ^ 63) (min sum (2 ^ 63 - 1))) ∧
              (0 < min x.hr low → -2 ^ 63 ≤ sum → sum < 2 ^ 63 → b'.M i j = sum)) ∧
          (min x.hr low = 0 → ∀ c, s.ctxAt core q.ctx = some c → Does fun z => ∃ c', z.ctxAt core q.ctx = some c' ∧ c'.flags.getLsbD 6 = true)) ∧
        (mode = 2 → Writes 16 fun b' i =>
          b'.maxOf i = x.maxOf i ∧ b'.sumOf i = x.sumOf i ∧
          let some_ (j : Nat) : Prop := j < 64 ∧ isFin fp32 (f i j) ∧ finOf fp32 (f i j) ≠ 0
          (∀ g : Int, (∃ j, some_ j ∧ (2 : ℚ) ^ g ≤ |finOf fp32 (f i j)|) → (∀ j, some_ j → |finOf fp32 (f i j)| < (2 : ℚ) ^ (g + 1)) → b'.E i = g + 2) ∧
          ((∀ j, ¬some_ j) → b'.E i = -32768) ∧
          ∀ j, j < 64 →
            (isFin fp32 (f i j) → b'.tag i j = 0 ∧
              let v : ℚ := finOf fp32 (f i j) * (2 : ℚ) ^ (46 - b'.E i)
              b'.M i j = if q.np = 3 ∧ v < 0 then ⌈v⌉ else ⌊v⌋) ∧
            (isNaN fp32 (f i j) → b'.tag i j = 3) ∧
            (¬isFin fp32 (f i j) → ¬isNaN fp32 (f i j) → b'.tag i j = if 2 ^ 31 ≤ f i j then 2 else 1)))

/-- The magnitude that exponent and fraction fields of a narrow float encode, in `mw` bits of fraction (R68). -/
def Sys2Proof.Claim.narrowNum (mw : Nat) (bias : Int) (y : Nat) : ℚ :=
  if y / 2 ^ mw = 0 then y * (2 : ℚ) ^ (1 - bias - mw) else (2 ^ mw + y % 2 ^ mw : Nat) * (2 : ℚ) ^ ((y / 2 ^ mw : Nat) - bias - mw)

/-- The floating formats of a format register as narrow floats: the widths of exponent and fraction, the bias and the specials (R62, R67). -/
abbrev Sys2Proof.Claim.fmtEw (f : FmtReg) : Nat := match f.kind with | 0 => f.ew | 3 => 5 | _ => 8
abbrev Sys2Proof.Claim.fmtMw (f : FmtReg) : Nat := match f.kind with | 0 => f.mw | 3 => 10 | _ => 7
abbrev Sys2Proof.Claim.fmtBias (f : FmtReg) : Int := match f.kind with | 0 => f.bias | 3 => 15 | _ => 127
abbrev Sys2Proof.Claim.fmtSpec (f : FmtReg) : Nat := match f.kind with | 0 => f.spec | _ => 1
abbrev Sys2Proof.Claim.fmtSigned (f : FmtReg) : Prop := f.kind ≠ 0 ∨ f.s = true

/-- The class of a stored element, 1 finite, 2 infinity, 3 NaN, its sign, and the number that a finite one stands for (R62, R66, R68). -/
def Sys2Proof.Claim.storedClass (f : FmtReg) (x : Nat) : Nat :=
  if f.kind = 1 ∨ f.kind = 2 then 1
  else
    let top := 2 ^ fmtEw f - 1
    let e := x / 2 ^ fmtMw f % 2 ^ fmtEw f
    let m := x % 2 ^ fmtMw f
    if fmtSpec f = 1 ∧ e = top then (if m = 0 then 2 else 3) else if fmtSpec f = 2 ∧ e = top ∧ m = 2 ^ fmtMw f - 1 then 3 else 1
def Sys2Proof.Claim.storedNeg (f : FmtReg) (x : Nat) : Bool :=
  if f.kind = 1 then decide (128 ≤ x) else if f.kind = 2 then decide (8 ≤ x)
  else (f.kind ≠ 0 || f.s) && decide (x / 2 ^ (fmtEw f + fmtMw f) % 2 = 1)
def Sys2Proof.Claim.storedNum (f : FmtReg) (x : Nat) : ℚ :=
  if f.kind = 1 then ((BitVec.ofNat 8 x).toInt : ℚ) else if f.kind = 2 then ((BitVec.ofNat 4 x).toInt : ℚ)
  else
    let y := x % 2 ^ (fmtEw f + fmtMw f)
    if f.kind = 0 ∧ f.sub = false ∧ y / 2 ^ fmtMw f = 0 then 0 else (if storedNeg f x then -1 else 1) * narrowNum (fmtMw f) (fmtBias f) y

/-- The width of a container in bits, and the elements of a block (R67, R68). -/
abbrev Sys2Proof.Claim.containerOf (f : FmtReg) : Nat :=
  match f.kind with | 0 => if (if f.s then 1 else 0) + f.ew + f.mw ≤ 4 then 4 else 8 | 1 => 8 | 2 => 4 | _ => 16
abbrev Sys2Proof.Claim.blockOf (f : FmtReg) : Nat := match f.bsz with | 1 => 16 | 2 => 32 | _ => 64

/-- `y` is the encoding without its sign to which a rounding mode takes a positive number in a floating format (R65, R168): tiny numbers go where
subnormals are off, and numbers too large to the infinity or the largest finite number `big`. -/
def Sys2Proof.Claim.NarrowedTo (f : FmtReg) (rm : Nat) (big : Nat) (v : ℚ) (y : Nat) : Prop :=
  let mw := fmtMw f
  let least := 1 - fmtBias f
  ∀ g P Q : Int, (2 : ℚ) ^ g ≤ v → v < (2 : ℚ) ^ (g + 1) → ToInt rm (v / (2 : ℚ) ^ (g - mw)) P →
    let u := max (g - mw) (least - mw)
    ToInt rm (v / (2 : ℚ) ^ u) Q →
    let flushed : Prop := f.sub = false ∧ P * (2 : ℚ) ^ (g - mw) < (2 : ℚ) ^ least
    (flushed → y = 0) ∧
    (¬flushed → narrowNum mw (fmtBias f) big < Q * (2 : ℚ) ^ u → y = if fmtSpec f = 1 ∧ rm ≠ 2 then (2 ^ fmtEw f - 1) * 2 ^ mw else big) ∧
    (¬flushed → Q * (2 : ℚ) ^ u ≤ narrowNum mw (fmtBias f) big → y ≤ big ∧ narrowNum mw (fmtBias f) y = Q * (2 : ℚ) ^ u)

/-- The stored element `y` that CPOUT makes of a canonical element divided by 2^`sc` (R168). -/
def Sys2Proof.Claim.NarrowsTo (f : FmtReg) (rm : Nat) (sc : Int) (x : Word) (y : Nat) : Prop :=
  let ew := fmtEw f
  let mw := fmtMw f
  let sign := if ceS x ∧ fmtSigned f then 2 ^ (ew + mw) else 0
  let v : ℚ := if ceCls x = 1 then ceSig x * (2 : ℚ) ^ (ceExp x - 15 - sc) else 0
  let top := if fmtSpec f = 0 then 2 ^ (ew + mw) - 1 else if fmtSpec f = 1 then (2 ^ ew - 1) * 2 ^ mw - 1
    else if mw = 0 then 2 ^ ew - 2 else 2 ^ (ew + mw) - 2
  let big := if f.sub = false ∧ top / 2 ^ mw = 0 then 0 else top
  if f.kind = 1 ∨ f.kind = 2 then
    let w := containerOf f
    let hi : Int := 2 ^ (w - 1) - 1
    (ceCls x = 3 → y = 0) ∧ (ceCls x = 2 → y = if ceS x then 2 ^ (w - 1) else 2 ^ (w - 1) - 1) ∧
    (ceCls x ≤ 1 → ∀ n : Int, ToInt rm (if ceS x then -v else v) n → y = (BitVec.ofInt w (max (-2 ^ (w - 1)) (min n hi))).toNat)
  else
    (ceCls x = 3 → y = if f.kind = 3 then 0x7E00 else if f.kind = 4 then 0x7FC0 else if fmtSpec f = 0 then 0 else 2 ^ (ew + mw) - 1) ∧
    (ceCls x = 2 → y = if ceS x ∧ ¬fmtSigned f then 0 else sign + if fmtSpec f = 1 then (2 ^ ew - 1) * 2 ^ mw else big) ∧
    (ceCls x ≤ 1 →
      (v = 0 → y = sign) ∧ (v ≠ 0 → ceS x → ¬fmtSigned f → y = 0) ∧
      (v ≠ 0 → ¬(ceS x ∧ ¬fmtSigned f) → ∃ m, y = sign + m ∧ NarrowedTo f rm big v m))

/-- R163, R165, R167 to R169, R183: CPIN expands each element within the rows and columns of its descriptor, times its block's scale, into its place of the slot or the
transposed one, leaves +0 elsewhere, writes the side table and the tag, and its copy completes. CPOUT makes of each such element of the slot the element of the format, divided by
its block's scale, and the copy's lanes then write exactly the bytes of these elements and of the scales, a last lone nibble with the
other kept. CPX only leaves its queue. The flags raised are not stated here, nor the scale of a format whose largest number is zero, for which R168 gives no logarithm
(log entry 87). That a NaN a scale makes takes the element's sign is the model's choice (log entry 73). -/
def Sys2Proof.Claim.EngineCopies : Prop :=
  ∀ (s : State) (core : Nat) (e : Engine) (q : QOp) (r : List QOp), Running s → (s.core core).engq e = q :: r → opWaits s core q = false →
    1 ≤ q.np → q.np ≤ 6 → ∀ (d : Nat) (x : CopyDesc) (t : Bool) (m : LineMap) (id : Nat) (c : Copy),
    let f := x.format
    let A : Slot := kget {} (s.core core).slots d
    let base (r : Nat) : Nat := x.base.toNat % 2 ^ 57 + r * x.rstr
    let scaleAt (r b : Nat) : Nat := x.sbase.toNat % 2 ^ 57 + r * x.sstr + b
    let banksStay (z : State) : Prop := (∀ i, kget {} (z.core core).banks i = kget {} (s.core core).banks i) ∧ ∀ a, z.rdScratch core a = s.rdScratch core a
    badFormat x.fmt = none → 1 ≤ x.rows → x.rows ≤ 64 → 1 ≤ x.cols → x.cols ≤ 64 →
    (q.op = .cpx → Performs s core e r fun z => z.core core = (s.core core).setEngq e r ∧ z.copies = s.copies) ∧
    (q.copy = some id → kfind s.copies id = some c → c.cb = none → c.wave = none →
      (q.op = .cpin d x t m → Performs s core e r fun z =>
        let y : Slot := kget {} (z.core core).slots d
        let byte (va : Nat) : Nat := cpinByte s c m va
        let stored (r k : Nat) : Nat := match containerOf f with
          | 16 => byte (base r + 2 * k) + 256 * byte (base r + 2 * k + 1)
          | 8 => byte (base r + k)
          | _ => if k % 2 = 0 then byte (base r + k / 2) % 16 else byte (base r + k / 2) / 16
        let scale (r k : Nat) : Nat := byte (scaleAt r (k / blockOf f))
        let factor (r k : Nat) : ℚ := if f.bsz = 0 then 1 else if f.bsf then narrowNum (8 - f.sew) (2 ^ (f.sew - 1) - 1) (scale r k)
          else (2 : ℚ) ^ ((scale r k : Int) - 127)
        kfind z.copies id = none ∧ (∀ i, i ≠ id → kfind z.copies i = kfind s.copies i) ∧
        SideTable y (decide (f.kind = 1 ∨ f.kind = 2 ∨ f.kind = 0)) ∧ y.holder = A.holder ∧
        (∀ i, i ≠ d → kget {} (z.core core).slots i = kget {} (s.core core).slots i) ∧ banksStay z ∧
        ∀ i j, i < 64 → j < 64 →
          let r := if t then j else i
          let k := if t then i else j
          let neg := storedNeg f (stored r k)
          let nan : Prop := storedClass f (stored r k) = 3 ∨ (f.bsz ≠ 0 ∧ scale r k = 255) ∨ (storedClass f (stored r k) = 2 ∧ factor r k = 0)
          (¬(r < x.rows ∧ k < x.cols) → y.at i j = 0) ∧
          (r < x.rows → k < x.cols →
            (nan → y.at i j = if neg then 0xE0000000 else 0x60000000) ∧
            (¬nan → storedClass f (stored r k) = 2 → y.at i j = if neg then 0xC0000000 else 0x40000000) ∧
            (¬nan → storedClass f (stored r k) = 1 → HoldsNumber 1 neg (storedNum f (stored r k) * factor r k) (y.at i j)))) ∧
      (q.op = .cpout d x t m → Performs s core e r fun z => ∃ (c' : Copy) (y : Nat → Nat → Nat) (sc : Nat → Nat → Nat),
        kfind z.copies id = some c' ∧ c' = { c with lanes := c'.lanes, srcSlot := some d } ∧ (∀ i, i ≠ id → kfind z.copies i = kfind s.copies i) ∧
        slotsStay s z core ∧ banksStay z ∧
        let elem (r k : Nat) : Word := if t then A.at k r else A.at r k
        let inBlock (b k : Nat) : Prop := k < x.cols ∧ k / blockOf f = b
        let blocks := if f.bsz = 0 then 0 else (x.cols + blockOf f - 1) / blockOf f
        (∀ r k, r < x.rows → k < x.cols → NarrowsTo f (acvtOf q.np) (if f.bsz = 0 then 0 else (sc r (k / blockOf f) : Int) - 127) (elem r k) (y r k)) ∧
        (∀ r b, r < x.rows → b < blocks →
          ((∀ k, inBlock b k → ceCls (elem r k) ≠ 1) → sc r b = 127) ∧
          ∀ a, (∃ k, inBlock b k ∧ ceCls (elem r k) = 1 ∧ ceExp (elem r k) = a) →
            (∀ k, inBlock b k → ceCls (elem r k) = 1 → ceExp (elem r k) ≤ a) →
            (f.kind = 1 → (sc r b : Int) = min (max (a - 6 + 127) 0) 254) ∧ (f.kind = 2 → (sc r b : Int) = min (max (a - 2 + 127) 0) 254) ∧
            (f.kind ≠ 1 → f.kind ≠ 2 → ∀ (top : Nat) (g : Int),
              storedClass f top = 1 → (∀ n, n < 2 ^ (fmtEw f + fmtMw f) → storedClass f n = 1 → storedNum f n ≤ storedNum f top) →
              (2 : ℚ) ^ g ≤ storedNum f top → storedNum f top < (2 : ℚ) ^ (g + 1) → (sc r b : Int) = min (max (a - g + 127) 0) 254)) ∧
        let Writes (va : Nat) (v : Byte) (low : Bool) : Prop := ∃ l ∈ c'.lanes, l.low = low ∧ ∃ a i, l.dst = some (.global, a) ∧ i < l.len ∧
          a + i = kget 0 m (va / 64) + va % 64 ∧ copyByte z c' l i = v
        (∀ r k, r < x.rows → k < x.cols → match containerOf f with
          | 16 => Writes (base r + 2 * k) (BitVec.ofNat 8 (y r k)) false ∧ Writes (base r + 2 * k + 1) (BitVec.ofNat 8 (y r k / 256)) false
          | 8 => Writes (base r + k) (BitVec.ofNat 8 (y r k)) false
          | _ => k % 2 = 0 → if k + 1 = x.cols then Writes (base r + k / 2) (BitVec.ofNat 8 (y r k)) true
              else Writes (base r + k / 2) (BitVec.ofNat 8 (y r k + 16 * y r (k + 1))) false) ∧
        (∀ r b, r < x.rows → b < blocks → Writes (scaleAt r b) (BitVec.ofNat 8 (sc r b)) false) ∧
        ∀ l ∈ c'.lanes, ∀ i, i < l.len → ∃ a va r, l.dst = some (.global, a) ∧ r < x.rows ∧ a + i = kget 0 m (va / 64) + va % 64 ∧
          ((base r ≤ va ∧ 8 * (va - base r) < x.cols * containerOf f) ∨ (∃ b, b < blocks ∧ va = scaleAt r b ∧ l.low = false))))

/-! ### The gate (R186 to R196, R236 to R239) -/

/-- R56, R186, R190: GATE in a handler raises privilege with detail 1; a target that is not canonical or not a multiple of 32 raises kind 0x11 with reason 1 or 3; else it waits
for the landing of the wave's results, for its fragment's LC, SC and KC and for a free request entry, still issuing, and then raises XC and waits at the gate
with its operands kept. -/
def Sys2Proof.Claim.GateArrives : Prop :=
  ∀ (s : State) (k : Nat) (w : Wave) (fr : Frag), Issues s k w fr → ∀ (d a n in0 in1 out0 out1 : Nat) (imm : Word),
    let i : Instr := .gate d a n imm in0 in1 out0 out1
    let t := fr.pc + imm.signExtend 64
    let proper : Prop := (t.setWidth 57).signExtend 64 = t
    let landed : Prop := w.inflight = [] ∧ w.flagPend = []
    let Waits (f : Frag → Frag) : Prop := ∃ z, exec i s = .next z ∧
      OnlyWave s k { w with
        frags := w.frags.map fun g => if g.num = fr.num then f g else g
        cur := if w.cur = some fr.num then none else w.cur } z
    (w.trapSave ≠ none → exec i s = .next (takeTrap s k w fr { kind := 0x03, detail := 1 })) ∧
    (w.trapSave = none →
      (¬proper → exec i s = .next (takeTrap s k w fr { kind := 0x11, addr := t.toNat, detail := 1 })) ∧
      (proper → t.toNat % 32 ≠ 0 → exec i s = .next (takeTrap s k w fr { kind := 0x11, addr := t.toNat, detail := 3 })) ∧
      (proper → t.toNat % 32 = 0 →
        let ready : Prop := landed ∧ fr.lc = 0 ∧ fr.sc = 0 ∧ fr.kc = 0 ∧ roomFor s w.core 1 = true
        (¬ready → exec i s = .next s) ∧
        (ready → Waits fun g => { g with
          xc := g.xc + 1
          st := .waiting .gate
          phase := .gated { d, a, n, target := t, in0, in1, out0, out1, iw0 := s.cur.iw0, iw1 := s.cur.iw1 } })))

/-- Point `p` of a map, of the wave of ordinal `g`, lies in its mask and is mapped to position (r, c) (R187, R188). -/
def Sys2Proof.Claim.Maps (m : MapDesc) (g : Nat) (mask : Word) (p : Point) (r c : Nat) : Prop :=
  p.g = g ∧ p.l < 32 ∧ mask.getLsbD p.l = true ∧ p.q < m.nreg ∧ p.h < (if m.packed then 2 else 1) ∧ m.pos p = some (r, c)

/-- R190, R191: a gate opens only when every wave of the part that has not ended has all its fragments waiting at it, into the lowest free context; that context gets the
lead wave's argument pairs, %mode and %trapen, no held slot, every batch free, the grant's banks and the GATE's target. An unopenable gate changes nothing. Each entry map fills its slot, held as a gate slot: a position has the canonical element of the one point that is
mapped to it, or is zero, and the side table holds the maxima. -/
def Sys2Proof.Claim.GateOpens : Prop :=
  ∀ (s : State) (core task blk : Nat) (o : Opening), Running s →
    (openable s core task blk = none → exec (.gateOpen core task blk) s = .next s) ∧
    (openable s core task blk = some o →
      kfind (s.core core).ctxs o.ctx = none ∧ (∀ j, j < o.ctx → kfind (s.core core).ctxs j ≠ none) ∧
      (∀ p ∈ s.waves, p.2.task = task → p.2.blk = blk → p.2.core = core → p.2.ended = false →
        p.2.frags ≠ [] ∧ ∀ f ∈ p.2.frags, f.st = .waiting .gate ∧ f.pc = o.pc) ∧
      ∃ z c, exec (.gateOpen core task blk) s = .next z ∧ z.ctxAt core o.ctx = some c ∧ z.waves = s.waves ∧
        c.task = task ∧ c.blk = o.grant.blk ∧ c.mode = o.lead.mode ∧ c.trapen = o.lead.trapen ∧ c.held = 0 ∧ c.unsealed = [] ∧ c.batches = [] ∧
        c.bankBase = o.grant.bankBase ∧ c.bankCount = o.grant.nbank ∧ c.stopped = false ∧ c.frame.gpc = o.pc ∧
        c.waves = o.ws.map (·.2.1) ∧ (kget [] s.cushions task = [] → c.pc = o.call.target ∧ c.cush = .none ∧ c.rank = 0) ∧
        (∀ r, kget 0 c.x r = if r < o.call.n then rdS2 s o.lead (16 + r) (o.call.a + 2 * r) else 0) ∧
        ∀ i j m, ((i = o.call.in0 ∧ j = o.call.in1) ∨ (i = o.call.in1 ∧ j = o.call.in0)) → mapAt s task i = some m →
          (∀ m', mapAt s task j = some m' → m'.tgt ≠ m.tgt) →
          let slot : Slot := kget {} (z.core core).slots m.tgt
          slot.holder = some o.ctx ∧ slot.narrow = decide (m.kind = 3) ∧
          (∀ r c, r < 64 → c < 64 →
            ((∀ g k w p, (g, k, w) ∈ o.ws → ¬Maps m g (gateMask w) p r c) → slot.at r c = 0) ∧
            (∀ g k w p, (g, k, w) ∈ o.ws → Maps m g (gateMask w) p r c →
              (∀ g' k' w' p', (g', k', w') ∈ o.ws → Maps m g' (gateMask w') p' r c → g' = g ∧ w' = w ∧ p' = p) →
              slot.at r c = (canonOf m w.mode (rdF s w (64 * g + p.q) (m.vb + p.q) p.l) p.h).1) ∧
            (ceCls (slot.at r c) = 1 → ceExp (slot.at r c) ≤ slot.rowMax r ∧ ceExp (slot.at r c) ≤ slot.colMax c)))

/-- R193: TRGATE holds its bundle while the context has an operation or copy, faults with kind 0x40 reason 5 on the lowest slot still held, else frees the context: every
gating wave gets x0 in its pair and the context's flags, and its fragments are Ready past their GATE with XC lowered. A return map's
points of gated lanes get their bank entries in its format, and no other register element changes. -/
def Sys2Proof.Claim.GateReturns : Prop :=
  ∀ (s : State) (core n : Nat) (c : TileCtx), InBundle s core n c →
    let acc : Prop := s.cur.accepted = true
    let idle : Prop := Idle s core n [.mx, .tx, .cp, .ar, .aw]
    (¬acc → ¬idle → exec .trgate s = .next s) ∧
    (∀ i, ¬acc → idle → i < 16 → c.held.getLsbD i = true → (∀ j, j < i → c.held.getLsbD j = false) →
      exec .trgate s = .next (s.tileFault core n c { kind := 0x40, level := 1, detail := 5 + 256 * i })) ∧
    (acc ∨ (idle ∧ c.held = 0) → c.waves.Nodup → c.call.d < 511 → ∃ z, exec .trgate s = .next z ∧ z.ctxAt core n = none ∧
      (∀ m, m ≠ n → c.cush ≠ .decoupled ∨ (s.ctxAt core m).map (·.cush) ≠ some .raised → z.ctxAt core m = s.ctxAt core m) ∧ (∀ k, k ∉ c.waves → kfind z.waves k = kfind s.waves k) ∧
      (∀ k w, k ∈ c.waves → kfind s.waves k = some w → ∃ w', kfind z.waves k = some w' ∧
        w'.sraw (c.call.d + 1) ++ w'.sraw c.call.d = kget 0 c.x 0 ∧
        (∀ i, i ≠ c.call.d → i ≠ c.call.d + 1 → w'.sraw i = w.sraw i) ∧
        (∀ i, w.flags.getLsbD i = true ∨ c.flags.getLsbD i = true → w'.flags.getLsbD i = true) ∧
        w'.preds = w.preds ∧ w'.cond = w.cond ∧ w'.mode = w.mode ∧
        ((w.frags.map (·.num)).Nodup → w'.frags = w.frags.map fun f => { f with
          pc := pcAdd f.pc 16, xc := f.xc - 1, phase := .none, st := .ready }) ∧
        (c.call.out0 = 31 → c.call.out1 = 31 → (kfind s.tasks c.task).bind (fun t => t.desc.maps[31]?) = none →
          w'.vreg = w.vreg ∧ w'.flags = w.flags ||| c.flags) ∧
        ∀ m, mapAt s c.task c.call.out0 = some m → mapAt s c.task c.call.out1 = none →
          let g := (partWaves s core c.task c.blk).findIdx fun p => p.1 = k
          let mask := kget 0 c.frame.lmask g
          let fmt := match m.kind with | 0 => fp32 | 1 | 4 => bf16 | _ => fp16
          (∀ p i j, Maps m g mask p i j →
            let v := ((kget {} (s.core core).banks (c.bankBase + m.tgt) : Bank).acvt (profileOf s.cur.np).acvt fmt i j).1
            let x := (w'.vraw (m.vb + p.q) p.l).toNat
            (m.packed = false → x = v) ∧ (m.packed = true → x / 2 ^ (16 * p.h) % 2 ^ 16 = v)) ∧
          ∀ f l h, f < 512 → l < 32 → h < 2 →
            (∀ p i j, Maps m g mask p i j → ¬(m.vb + p.q = f ∧ p.l = l ∧ (m.packed = true → p.h = h))) →
            slice 16 h (w'.vraw f l) = slice 16 h (w.vraw f l)))

/-- R238: DECOUPLE ends the broadcast for its member alone and goes on, elsewhere it only goes on; REJOIN of a decoupled member waits for its operations and then raises the
member's line: while a line of another member is down it holds there, and when every other line is up all members go on coupled at the address
after the lead's own, and so they do when the last one whose line is down leaves by TRGATE; elsewhere it only goes on. -/
def Sys2Proof.Claim.Cushions : Prop :=
  ∀ (s : State) (core n : Nat) (c : TileCtx), InBundle s core n c →
    let on := pcAdd c.pc 32
    let acc : Prop := s.cur.accepted = true
    let idle : Prop := Idle s core n [.mx, .tx, .cp, .ar, .aw]
    (∃ z, exec .decouple s = .next z ∧ OnlyCtx s core n { c with pc := on, cush := if c.cush = .coupled then .decoupled else c.cush } z) ∧
    (c.cush ≠ .decoupled → c.cush ≠ .raised → ∃ z, exec .rejoin s = .next z ∧ OnlyCtx s core n { c with pc := on } z) ∧
    (¬acc → c.cush = .raised ∨ (c.cush = .decoupled ∧ ¬idle) → exec .rejoin s = .next s) ∧
    let ms := s.members core n c
    let up : Prop := ∀ m ∈ ms, m ≠ (core, n) → (s.ctxAt m.1 m.2).map (·.cush) = some .raised
    (c.cush = .decoupled → acc ∨ idle →
      (¬up → ∃ z, exec .rejoin s = .next z ∧ OnlyCtx s core n { c with cush := .raised } z) ∧
      (up → (core, n) ∈ ms → Rising (s.core core).ctxs → ∀ l lead, ms.head? = some l → s.ctxAt l.1 l.2 = some lead →
        ∃ z, exec .rejoin s = .next z ∧ z = { s with cores := z.cores } ∧ (∀ a, z.rdH a = s.rdH a) ∧
          (∀ m ∈ ms, ∀ y, s.ctxAt m.1 m.2 = some y → z.ctxAt m.1 m.2 = some { y with pc := pcAdd lead.pc 32, cush := .coupled }) ∧
          ∀ i j, (i, j) ∉ ms → z.ctxAt i j = s.ctxAt i j)) ∧
    (c.cush = .decoupled → acc ∨ (idle ∧ c.held = 0) → up → ∀ l lead, (ms.filter fun m => m ≠ (core, n)).head? = some l → s.ctxAt l.1 l.2 = some lead →
      ∃ z, exec .trgate s = .next z ∧ z.ctxAt core n = none ∧ ∀ m ∈ ms, m ≠ (core, n) → ∀ y, s.ctxAt m.1 m.2 = some y →
        z.ctxAt m.1 m.2 = some { y with pc := pcAdd lead.pc 32, cush := .coupled })

/-- R196: a tile fault of a lone context stops it and enters the handler of its lead wave, whose record gives the GATE's and the bundle's address; an undecodable bundle
faults so; RFT then puts the fragment back to its GATE and lets the context go on, at the bundle (past a watchpoint that it has met, R367) or after it. -/
def Sys2Proof.Claim.TileFaults : Prop :=
  ∀ (s : State) (core n : Nat) (c : TileCtx) (k : Nat) (w : Wave) (fr : Frag), s.ctxAt core n = some c → c.cush = .none → c.waves = [k] →
    kfind s.waves k = some w → w.frags = [fr] →
    (∀ e : Exc, w.trapSave = none → w.trapbase ≠ 0 → e.kind < 256 → e.kind ≠ 0x12 → e.level < 6 → e.lane = none → w.idx < 256 → fr.num < 16 →
      let z := s.tileFault core n c e
      ∃ w' t f c', kfind z.waves k = some w' ∧ w'.trapSave = some t ∧ t.tile = some (core, n) ∧ t.frag = fr.num ∧ t.pc = fr.pc ∧ t.mask = fr.mask ∧ t.phase = fr.phase ∧
        w'.frags = [f] ∧ f.num = fr.num ∧ f.pc = w.trapbase ∧ f.st = .issuing ∧ w'.cur = some fr.num ∧
        (w'.sraw 496).toNat % 256 = e.kind ∧ (w'.sraw 496).toNat / 256 % 8 = e.level ∧ (w'.sraw 497).getLsbD 18 = true ∧
        w'.sraw 499 ++ w'.sraw 498 = c.frame.gpc ∧ w'.sraw 501 ++ w'.sraw 500 = c.frame.gpc ∧ w'.sraw 503 ++ w'.sraw 502 = c.pc ∧
        w'.sraw 505 ++ w'.sraw 504 = BitVec.ofNat 64 e.addr ∧ w'.sraw 507 ++ w'.sraw 506 = s.cur.iw0 ∧ w'.sraw 509 ++ w'.sraw 508 = s.cur.iw1 ∧
        w'.sraw 511 ++ w'.sraw 510 = BitVec.ofNat 64 e.detail ∧ (∀ i, i < 496 ∨ 511 < i → w'.sraw i = w.sraw i) ∧ w'.vreg = w.vreg ∧
        z.ctxAt core n = some c' ∧ c' = { c with stopped := true, frame := c'.frame } ∧ c'.frame.bpc = c.pc ∧ c'.frame.gpc = c.frame.gpc) ∧
    (∀ e : DecErr, s.cur.actor = .tile core n → exec (.illegalInstruction e) s =
      .next (s.tileFault core n c { kind := e.kind, level := 1, detail := e.cause + 256 * e.hi + 65536 * e.pos })) ∧
    (∀ t, s.cur.actor = .frag k fr.num → w.trapSave = some t → t.tile = some (core, n) → t.frag = fr.num → t.words.length = 16 → fr.num ∈ t.live →
      let Back (i : Instr) (pc : DWord) (skip : Bool) : Prop := ∃ z w' f, exec i s = .next z ∧ kfind z.waves k = some w' ∧ w'.trapSave = none ∧
        w'.frags = [f] ∧ f = { fr with pc := t.pc, mask := t.mask, phase := t.phase, st := .waiting .gate } ∧
        (∀ j, j < 16 → some (w'.sraw (496 + j)) = t.words[j]?) ∧ (∀ j, j < 496 ∨ 511 < j → w'.sraw j = w.sraw j) ∧
        z.ctxAt core n = some { c with stopped := false, pc, wskip := if skip = true then some c.pc else c.wskip }
      Back .rftRestart c.pc (t.kind = 0x71) ∧ Back .rftNext (pcAdd c.pc 32) false)

/-! ### The scheduler (R245, R261, R280, R314, R318, R319, R328, R324, R334 to R336, R354, R361, R363) -/

/-- The registers of a wave stay as they were. -/
def Sys2Proof.Claim.KeptRegs (w w' : Wave) : Prop :=
  w'.vreg = w.vreg ∧ w'.sreg = w.sreg ∧ w'.preds = w.preds ∧ w'.cond = w.cond ∧ w'.mode = w.mode ∧ w'.trapen = w.trapen ∧
  w'.trapbase = w.trapbase ∧ w'.trapSave = w.trapSave ∧ w'.frags.map (·.num) = w.frags.map (·.num) ∧
  w'.task = w.task ∧ w'.blk = w.blk ∧ w'.idx = w.idx

/-- R52 to R54, R195, R280, R324, R325, R334, R355: TASK_PLACE acts only for the task that comes next; a new one becomes resident on its grants, their windows zero, with each of its waves at the
kernel's entry in one Ready fragment of all lanes and every register but the kernel's buffers at reset; the descriptor is the one then read (the
model's reading of R345, log entry 79). What the service gives as its frame must be one: a multiple of 64 with its gate frames at a multiple of 128, in pages of the launch's
address space that it maps read-only there and nowhere writable; else the task is not placed. A free reserve slot takes the first waiting
request it can serve: the evaluator's wave finds the cell's address, its 32 bytes and RSCOPE in s480 to s490. -/
def Sys2Proof.Claim.Placing : Prop :=
  ∀ (s : State) (fr : FrameLoc), Running s →
    (∀ t asid n, s.frameFits t asid n fr = true →
      fr.va.toNat % 64 = 0 ∧ (fr.va.toNat + fr.gates) % 128 = 0 ∧ n ≤ fr.gates ∧ (fr.va.setWidth 57).signExtend 64 = fr.va ∧
      ∀ o ∈ FrameLoc.pages fr, ∃ m ∈ s.leaves asid, m.va ≤ fr.va.toNat % 2 ^ 57 + o ∧ fr.va.toNat % 2 ^ 57 + o < m.va + leafSize m.level ∧
        FrameLoc.place fr o = (m.plc, bits m.entry 51 8 * 256 + (fr.va.toNat % 2 ^ 57 + o - m.va)) ∧ m.entry.testBit 1 = true ∧
        (∀ w ∈ s.mapped, w.main = true → shareStore (w.entry, leafSize w.level) (m.entry, leafSize m.level) = true → w.entry.testBit 2 = false)) ∧
    (let u := s.sliceOver
    ∀ task x l, kfind u.tasks task = some x → kfind s.launches x.launch = some l → x.evalAt = none →
      ((∀ g, nextPlaced u (offers u) ≠ some (task, g)) → exec (.taskPlace task fr) s = .next u) ∧
      (∀ gs' gs y m, nextPlaced u (offers u) = some (task, gs') → x.data.grants = [] → l.bcast = none →
        kfind (u.reread task x l).tasks task = some y → kfind (u.reread task x l).launches x.launch = some m →
        placement (u.reread task x l) y = some gs →
        ((u.reread task x l).frameFits task m.asid (frameBound y) fr = false → exec (.taskPlace task fr) s = .next (u.reread task x l)) ∧
        ((u.reread task x l).frameFits task m.asid (frameBound y) fr = true → ∃ z x', exec (.taskPlace task fr) s = .next z ∧ kfind z.tasks task = some x' ∧ x'.st = .resident ∧ x'.grants = gs ∧ x'.frame = fr ∧
          x'.everPlaced = true ∧ x'.stopIssue = false ∧ (∀ j, j ≠ task → kfind z.tasks j = kfind u.tasks j) ∧ (∀ a, z.rdH a = s.rdH a) ∧
          (∀ g ∈ gs, ∀ a, g.winBase ≤ a → a < g.winBase + g.winLen → z.rdScratch g.core a = 0) ∧
          (x.nblk ≤ 8 → y.desc.nwave ≤ 256 → ∀ b i g, b < x.nblk → i < y.desc.nwave →
            (gs.find? fun g => g.blk = b && g.part = i / max 1 y.desc.wpc) = some g →
            ∃ w, kfind z.waves ((task * 8 + b) * 256 + i) = some w ∧
              w = { task, blk := b, idx := i, core := g.core, part := i % 4, alloc := y.desc.vregs, sreg := w.sreg, trapbase := y.desc.trapb,
                    remain := y.desc.remain, frags := [{ num := 0, pc := y.desc.entry, mask := 0xFFFFFFFF }] } ∧
              (y.desc.bufs = [] → w.sreg = []))))) ∧
    (∀ req, let next := (evalOrder s.evalReqs).find? fun r => (freeSlot s r.launch r.desc none r.place r.homeDie r.cluster).isSome
      let Fits (r : EvalReq) : Bool :=
        s.frameFits s.nextTask (((kfind s.launches r.launch).map (·.asid)).getD 0) (frameBound { launch := r.launch, gang := 0, desc := r.desc }) fr
      (next = none → exec (.evaluatorPlace req fr) s = .next s) ∧
      (∀ r, next = some r → r.id ≠ req ∨ Fits r = false → exec (.evaluatorPlace req fr) s = .next s) ∧
      (∀ r e, next = some r → r.id = req → Fits r = true → freeSlot s r.launch r.desc none r.place r.homeDie r.cluster = some e →
        ∃ z t w, exec (.evaluatorPlace req fr) s = .next z ∧ kfind z.tasks s.nextTask = some t ∧ t.st = .resident ∧ t.cell = some r.cell ∧
          t.launch = r.launch ∧ t.reserveSlot = some (e.cluster, e.r) ∧ t.frame = fr ∧ kfind z.waves (s.nextTask * 2048) = some w ∧ w.core = e.core ∧ w.part = e.part ∧
          w.frags = [{ num := 0, pc := r.desc.entry, mask := 0xFFFFFFFF }] ∧ w.sraw 481 ++ w.sraw 480 = r.va ∧
          (∀ i, i < 8 → w.sraw (482 + i) = BitVec.ofNat 32 (ofBytes ((r.bytes.drop (4 * i)).take 4))) ∧
          w.sraw 490 = BitVec.ofNat 32 (scopeNum r.rscope) ∧ (∀ q ∈ z.evalReqs, q.id ≠ req) ∧ ∀ a, z.rdH a = s.rdH a))

/-- R245, R261, R335, R354: a resident task retires when its last wave has ended and nothing of it is left, after a fault with the queue's fault status set, after a kill with its kill status
set or, for a restart, pending again; its waves and grants go. A task silent for its watchdog window ends by a fault of kind 0x50. A paged task
whose pages are present, or one of whose pages is unresolvable, is pending or, with another cause, saved. -/
def Sys2Proof.Claim.TasksEnd : Prop :=
  ∀ (s : State) (task : Nat) (x : Task), Running s → kfind s.tasks task = some x →
    let q := ((kfind s.launches x.launch).map (·.queue)).getD 0
    let Leaves (st : TaskSt) (R : State → Prop) : Prop := ∃ z x', exec (.taskRetire task) s = .next z ∧ kfind z.tasks task = some x' ∧ x'.st = st ∧
      x'.grants = [] ∧ x'.waves = [] ∧ (∀ p ∈ z.waves, p.2.task ≠ task) ∧ R z
    let mine (p : Nat × Wave) : Prop := p ∈ s.waves ∧ p.2.task = task
    (x.st = .retired ∨ x.st = .killed ∨ (x.st ≠ .resident ∧ x.wantKill = false ∧ x.endFault = none) → exec (.taskRetire task) s = .next s) ∧
    (x.st = .resident → x.wantKill = false → x.endFault = none → (∃ p, mine p ∧ p.2.ended = false) → exec (.taskRetire task) s = .next s) ∧
    (x.st = .resident → x.wantKill = false → x.endFault = none → x.cell = none → (∀ p, mine p → p.2.ended = true) → taskCtxs s task x = [] →
      (∀ p ∈ s.copies, p.2.task ≠ task) → Leaves .retired fun _ => True) ∧
    (x.st = .resident → x.wantKill = false → x.endFault ≠ none → x.cell = none → s.copiesOver task x = true →
      (∀ p, mine p → ∀ e ∈ p.2.replay, ∀ a, e.kind ≠ .atomic a) → Leaves .retired fun z => (z.queue q).sawFault = true) ∧
    (x.wantKill = true → (∃ p ∈ s.copies, p.2.task = task ∧ p.2.slotOf = none) → (∀ p ∈ s.copies, p.2.task = task → p.2.slotOf = none) →
      x.st ≠ .retired → x.st ≠ .killed → exec (.taskRetire task) s = .next s) ∧
    (x.st = .resident → x.wantKill = true → s.copiesOver task x = true →
      (x.restart = false → Leaves .killed fun z => (z.queue q).sawKill = true) ∧ (x.restart = true → Leaves .pending fun _ => True)) ∧
    (x.wdN = 0 ∨ s.cycle - x.silent < 2 ^ x.wdN → exec (.watchdogExpiry task) s = .next s) ∧
    (x.st = .resident → x.wdN ≠ 0 → 2 ^ x.wdN ≤ s.cycle - x.silent → x.endFault = none → x.wantKill = false →
      (∀ p, mine p → p.2.frags.any (activeWait s) = false) → kfind s.launches x.launch ≠ none →
      ∃ z x' pc, exec (.watchdogExpiry task) s = .next z ∧ kfind z.tasks task = some x' ∧
        x' = { x with endFault := some (0x50, pc, 0), stopIssue := true } ∧ z.waves = s.waves) ∧
    (x.st ≠ .paged → ∀ k, exec (.pagePresentReport task) s = .next s ∧ exec (.pageUnresolvable task k) s = .next s) ∧
    (x.st = .paged →
      let Back (i : Instr) (u : List Nat) : Prop := ∃ z x', exec i s = .next z ∧ kfind z.tasks task = some x' ∧ x'.pf = false ∧ x'.pages = [] ∧
        x'.st = (if x.halt = true ∨ x.slice = true then .saved else .pending) ∧ x'.unresolved = u ∧ x'.halt = x.halt ∧ x'.data = x.data ∧ z.waves = s.waves
      Back (.pagePresentReport task) x.unresolved ∧ ∀ k, Back (.pageUnresolvable task k) (x.unresolved ++ [k]))

/-- R314, R336, R361, R363: a task that issues no more and has settled is saved: it leaves its cores and every register of its waves is kept; one that has not settled stays. A newcomer that fits
chooses no victim; one that needs victims gets the shortest beginning of the victims' order and waits: a victim that will end within the drain budget
is let run, an idempotent one is restarted, any other saved. A task saved with SLICE alone whose room no newcomer needs is pending again first. Core time is charged each millisecond by the process's weight. -/
def Sys2Proof.Claim.Saving : Prop :=
  ∀ (s : State) (task : Nat) (x : Task), Running s → kfind s.tasks task = some x →
    let may : Prop := x.st = .resident ∧ x.stopIssue = true ∧ x.wantKill = false ∧ x.endFault = none ∧ settledTask s task x = true
    let age := s.time.toNat - x.pendingSince
    let prio := ((kfind s.launches x.launch).map (·.prio)).getD 0
    let proc := ((kfind s.launches x.launch).map (·.proc)).getD 0
    let u := s.sliceOver
    let Asks (i : Instr) (equal : Bool) : Prop := ∀ x, kfind u.tasks task = some x →
      (x.cell ≠ none ∨ offered u task x = false ∨ placement u x ≠ none ∨ enough u x (victims u task x equal) = none → exec i s = .next u) ∧
      (∀ v y l, x.cell = none → offered u task x = true → placement u x = none → enough u x (victims u task x equal) = some [(v, y)] → v ≠ task →
        waitsEnq u v (u.procOf x) = false → waitsGroup u v task = false → kfind u.tasks v = some y → y.wantKill = false →
        kfind s.launches y.launch = some l →
        ∃ z x' y', exec i s = .next z ∧ kfind z.tasks task = some x' ∧ x' = { x with waiting := true } ∧ kfind z.tasks v = some y' ∧
          let b := kget 0 s.hub.budgets (prioOf u x - prioOf u y)
          (remainOf u v ≤ b → y' = y) ∧
          (b < remainOf u v → l.idem = false ∨ l.det = true → y' = { y with slice := true, stopIssue := true }) ∧
          (b < remainOf u v → l.idem = true → l.det = false → y.st = .resident → y.endFault = none →
            y' = { y with wantKill := true, restart := true, stopIssue := true }))
    (¬may → exec (.taskSave task) s = .next s) ∧
    (may → ∃ z x', exec (.taskSave task) s = .next z ∧ kfind z.tasks task = some x' ∧ x'.stopIssue = false ∧ x'.grants = [] ∧
      x'.data.grants = x.grants ∧ x'.st = (if x.pf = true then .paged else if x.halt = true ∨ x.slice = true then .saved else .pending) ∧
      ∀ k w, kfind s.waves k = some w → ∃ w', kfind z.waves k = some w' ∧ KeptRegs w w' ∧ (w.task = task → w'.resident = false)) ∧
    (∀ t y, kfind s.tasks t = some y → kfind u.tasks t =
      some (if y.st = .saved ∧ y.slice = true ∧ y.halt = false ∧ y.pf = false ∧ newcomerWaits s t y = false then { y with st := .pending, slice := false } else y)) ∧
    Asks (.preempt task) false ∧
    (age ≤ kget 0 s.hub.slices prio → exec (.sliceExpiry task) s = .next u) ∧
    (kget 0 s.hub.slices prio < age → Asks (.sliceExpiry task) true) ∧
    (x.st ≠ .resident ∨ s.time.toNat - x.chargedAt < 1000000 → exec (.chargeTick task) s = .next s) ∧
    (x.st = .resident → 1000000 ≤ s.time.toNat - x.chargedAt → ∃ z, exec (.chargeTick task) s = .next z ∧
      (z.proc proc).vt = (s.proc proc).vt + (s.time.toNat - x.chargedAt) * (x.grants.map (·.core)).eraseDups.length * 1024 / max 1 (s.proc proc).weight ∧
      (∀ p, p ≠ proc → z.proc p = s.proc p) ∧ kfind z.tasks task = some { x with chargedAt := s.time.toNat } ∧
      z = { s with procs := z.procs, tasks := z.tasks })

/-- The first `n` bytes of a frame lie in main memory, no two at one place. -/
def Sys2Proof.Claim.InPlace (f : FrameLoc) (n : Nat) : Prop :=
  (∀ i, i < n → FrameLoc.key f i < 2 ^ 39) ∧ ∀ i j, i < n → j < n → FrameLoc.key f i = FrameLoc.key f j → i = j

/-- R355, R356: what a save writes into the frame of a task without an open tile context: the header's counts and offsets, and for each wave that has not ended, one
record after the other, its registers, its tokens and its fragments, as the wave stands once it is off its core. -/
def Sys2Proof.Claim.SavedFrame : Prop :=
  ∀ (s : State) (task : Nat) (x : Task), Running s → kfind s.tasks task = some x →
    x.st = .resident → x.stopIssue = true → x.wantKill = false → x.endFault = none → settledTask s task x = true → taskCtxs s task x = [] →
    s.debugQs = [] → (s.waves.Pairwise fun p q => p.1 < q.1) → 
    InPlace x.frame (frameImage ((settleTask s task x).chargeTask task x) task x).1.length →
    ∃ z, exec (.taskSave task) s = .next z ∧
      let at_ (n o : Nat) : Nat := ofBytes ((List.range n).map fun j => z.rdH (FrameLoc.key x.frame (o + j)))
      let live := liveWaves z task
      at_ 4 0 = task % 2 ^ 32 ∧ at_ 1 4 = (if x.pf then 1 else 0) + (if x.halt then 2 else 0) + (if x.slice then 4 else 0) + (if x.stepF then 8 else 0) ∧
      at_ 1 5 = x.nblk % 256 ∧ at_ 2 6 = live.length % 2 ^ 16 ∧ at_ 1 8 = 0 ∧ at_ 4 20 = 0 ∧ at_ 8 24 = 64 ∧ at_ 8 56 = s.time.toNat ∧
      at_ 8 32 = (64 + (live.map fun p => 6208 + 128 * p.2.alloc + 320 * p.2.loads.length).sum) % 2 ^ 64 ∧
      ∀ i k w, live[i]? = some (k, w) → (∀ f ∈ w.frags, f.num < 16) → (w.frags.map (·.num)).Nodup →
        let o := 64 + ((live.take i).map fun p => 6208 + 128 * p.2.alloc + 320 * p.2.loads.length).sum
        at_ 8 o = (6208 + 128 * w.alloc + 320 * w.loads.length) % 2 ^ 64 ∧ at_ 2 (o + 8) = w.idx % 2 ^ 16 ∧ at_ 1 (o + 10) = w.alloc / 8 % 256 ∧
        at_ 1 (o + 11) = w.frags.length % 256 ∧ at_ 2 (o + 14) = w.loads.length % 2 ^ 16 ∧ at_ 4 (o + 16) = w.mode.toNat ∧
        at_ 4 (o + 20) = w.flags.toNat ∧ at_ 4 (o + 24) = w.trapen.toNat ∧ at_ 4 (o + 28) = w.remain.toNat ∧ at_ 8 (o + 40) = w.trapbase.toNat ∧
        (∀ t, w.trapSave = some t → at_ 1 (o + 13) % 2 = 1 ∧ at_ 8 (o + 128) = t.pc.toNat ∧ at_ 4 (o + 136) = t.mask.toNat) ∧
        (w.trapSave = none → at_ 1 (o + 13) % 2 = 0) ∧
        (∀ j, j < 7 → at_ 4 (o + 1536 + 4 * j) = (kget 0 w.preds j).toNat) ∧
        (∀ j, j < 512 → at_ 4 (o + 1600 + 4 * j) = (w.sraw j).toNat) ∧
        (∀ j l, j < 20 → l < 32 → at_ 4 (o + 3648 + 128 * j + 4 * l) = (w.vraw (1536 + j) l).toNat) ∧
        (∀ j l, j < w.alloc → l < 32 → at_ 4 (o + 6208 + 128 * j + 4 * l) = (w.vraw j l).toNat) ∧
        (∀ j, j < 16 → let t := w.tok j
          at_ 8 (o + 320 + 24 * j) = t.st.toNat * 2 ^ 62 + t.exp.toNat * 2 ^ 57 + t.jpc.toNat ∧
          at_ 8 (o + 328 + 24 * j) = t.arr.toNat * 2 ^ 32 + t.ipm.toNat ∧ at_ 8 (o + 336 + 24 * j) = t.ipc.toNat) ∧
        ∀ f ∈ w.frags, at_ 8 (o + 960 + 32 * f.num) = f.pc.toNat ∧ at_ 4 (o + 968 + 32 * f.num) = f.mask.toNat ∧
          at_ 2 (o + 972 + 32 * f.num) = f.lc % 2 ^ 16 ∧ at_ 2 (o + 974 + 32 * f.num) = f.sc % 2 ^ 16 ∧ at_ 2 (o + 976 + 32 * f.num) = f.kc % 2 ^ 16 ∧
          at_ 2 (o + 978 + 32 * f.num) = f.xc % 2 ^ 16 ∧ at_ 1 (o + 980 + 32 * f.num) = f.num ∧
          at_ 1 (o + 983 + 32 * f.num) = (match f.tok with | some t => t % 256 | none => 0xFF)

/-- R362: a saved task without tile contexts that comes next is placed on its new grants with every register, window byte and fragment as it was saved; its tokens are
those of its frame, of which none is malformed; its load entries stay in their order; memory stays. -/
def Sys2Proof.Claim.Restoring : Prop :=
  ∀ (s u : State) (task : Nat) (x : Task) (fr : FrameLoc) (gs : List Grant), Running s → u = s.sliceOver → kfind u.tasks task = some x → x.evalAt = none →
    nextPlaced u (offers u) = some (task, gs) → x.data.grants ≠ [] → x.data.tiles = [] →
    (s.waves.Pairwise fun p q => p.1 < q.1) → (∀ c, ∀ e ∈ (s.core c).phase, e.task ≠ task) →
    (∀ p ∈ waveOffsets 64 (liveWaves s task), ∀ i, i < 16 → badToken (tokenWords s x.frame (p.2 + 320 + 24 * i)) = false) →
    ∃ z x', exec (.taskPlace task fr) s = .next z ∧ kfind z.tasks task = some x' ∧ x'.st = .resident ∧ x'.grants = gs ∧ x'.frame = x.frame ∧
      (∀ j, j ≠ task → kfind z.tasks j = kfind u.tasks j) ∧ (∀ a, z.rdH a = s.rdH a) ∧
      (∀ g y, g ∈ gs → (x.data.windows.find? fun y => y.blk = g.blk && y.part = g.part) = some y → Memory.wf y.bytes = true →
        (∀ p ∈ y.bytes, p.1 < g.winLen) → ∀ a, a < g.winLen → z.rdScratch g.core (g.winBase + a) = kget unlisted y.bytes a) ∧
      (∀ k w, kfind s.waves k = some w → w.task ≠ task → (w.frags.map (·.num)).Nodup → kfind z.waves k = some w) ∧
      ∀ k w, kfind s.waves k = some w → w.task = task → ∃ w', kfind z.waves k = some w' ∧ KeptRegs w w' ∧
        w'.flags = w.flags ∧ w'.remain = w.remain ∧ w'.fences = w.fences ∧ w'.fenceSeq = w.fenceSeq ∧ w'.cursor = w.cursor ∧
        w'.replay.map (fun e => (e.id, e.pc, e.ctr)) = w.replay.map (fun e => (e.id, e.pc, e.ctr)) ∧
        w'.frags.map (fun f => (f.num, f.pc, f.mask, f.lc, f.sc, f.kc, f.xc, f.tok)) =
          w.frags.map (fun f => (f.num, f.pc, f.mask, f.lc, f.sc, f.kc, f.xc, f.tok)) ∧
        (∀ g, (gs.find? fun g => g.blk = w.blk && g.part = w.idx / max 1 x.desc.wpc) = some g → w'.core = g.core ∧ w'.resident = true) ∧
        ∀ o, (k, o) ∈ waveOffsets 64 (liveWaves s task) → ∀ i, i < 16 →
          w'.tok i = (w.tok i).ofImage (tokenWords s x.frame (o + 320 + 24 * i))

/-- R318, R319, R328: a packet of the top level that lies within the 17 after the last started one and has not been read is read whole into its window copy; a WAITMEM that waits reads
its word again and finishes when it meets its test. -/
def Sys2Proof.Claim.PacketReads : Prop :=
  ∀ (s : State) (q pos : Nat) (x : Queue) (l : Level), Running s → s.queue q = x → x.st = 1 → x.levels = [l] → l.ring = true →
    l.org = 0 → l.rot = none → l.loop = none →
    (pos < x.wptr → kfind l.window pos = none → l.hw ≤ pos → pos ≤ l.hw + 16 →
      ∃ z, exec (.packetRead q 0 pos) s = .next z ∧ (∀ j, j ≠ q → z.queue j = s.queue j) ∧ (∀ a, z.rdH a = s.rdH a) ∧
        z.queue q = { x with levels := [{ l with window := kinsert l.window pos (s.rdHs (keyOf 0 (x.ring + 64 * (pos % 2 ^ x.log))) 64) }] }) ∧
    (x.wptr ≤ pos ∨ kfind l.window pos ≠ none ∨ pos < l.hw → exec (.packetRead q 0 pos) s = .next s) ∧
    (∀ bs t s1, kfind l.window l.pos = some bs → decodePacket bs = .ok (.waitmem t) → x.polling = true →
      (Tests s x t s1 true → exec (.waitmemPoll q) s = .next (s1.finish q l)) ∧
      (Tests s x t s1 false → exec (.waitmemPoll q) s = .next (s1.setQueue q { s1.queue q with polling := true, lastPoll := s1.time.toNat }))) ∧
    (x.polling = false → exec (.waitmemPoll q) s = .next s)

/-! ### The service: address spaces, windows, registers, debugging (R252, R258, R259, R265, R270, R314, R336, R361 to R369, R385, R399, R400) -/

/-- The machine with nothing changed but the answer to the client. -/
abbrev Sys2Proof.Claim.Said (s : State) (n : Nat) : State := { s with hub := { s.hub with status := n } }

/-- While the service is being replaced, a request is held (R376). -/
def Sys2Proof.Claim.HeldRequest (i : Instr) : Prop := ∀ s : State, s.serving = true → s.hub.updating = true →
  exec i s = .next { s with hub := { s.hub with held := s.hub.held ++ [i] } }

/-- The service core's time is charged to a process (R314): no weight and no ASID changes, and no virtual time falls. -/
def Sys2Proof.Claim.Charged (s z : State) : Prop := ∀ p, z.proc p = { s.proc p with vt := (z.proc p).vt } ∧ (s.proc p).vt ≤ (z.proc p).vt

/-- `n` bytes at an address meet a range; no range stands for every address. -/
def Sys2Proof.Claim.Meets (range : Option (Nat × Nat)) (va n : Nat) : Prop := ∀ r, range = some r → va < r.1 + r.2 ∧ r.1 < va + n

/-- A started invalidation: the entries that it removes are marked with its number; it waits for the accesses, of saved tasks too, and the copies that
hold a line of its range and have not performed. -/
def Sys2Proof.Claim.Invalidates (s z : State) (asid : Nat) (range : Option (Nat × Nat)) : Prop :=
  let id := s.nextInval
  (∃ y, kfind z.invals id = some y ∧ y.asid = asid ∧ y.range = range ∧
    (∀ a, a ∈ y.waits ↔ ∃ w e, (a.1, w) ∈ s.waves ∧ s.asidOf w.task = asid ∧ e ∈ w.replay ∧ e.id = a.2 ∧ ∃ n ∈ e.lines, Meets range (128 * n % 2 ^ 57) 128) ∧
    (∀ c, c ∈ y.copies ↔ ∃ x, (c, x) ∈ s.copies ∧ s.asidOf x.task = asid ∧ ∃ n ∈ x.vlines, Meets range (64 * n % 2 ^ 57) 64)) ∧
  (∀ j, j ≠ id → kfind z.invals j = kfind s.invals j) ∧ z.nextInval = id + 1 ∧
  z.tlb = s.tlb.map fun t =>
    if t.asid = asid ∧ t.gone = none ∧ inRange (t.vpn * 2 ^ (levelBits t.level).2) (2 ^ (levelBits t.level).2) range = true then { t with gone := some id } else t

/-- What an invalidation waits for: an access or a copy that it noted and that has not performed, or a reduction of another device that stands in a
home's queue for storage of a removed mapping. -/
def Sys2Proof.Claim.InvalOpen (s : State) (v : Inval) : Prop :=
  (∃ a ∈ v.waits, ∃ w, kfind s.waves a.1 = some w ∧ ∃ e ∈ w.replay, e.id = a.2) ∨ (∃ c ∈ v.copies, kfind s.copies c ≠ none) ∨
  ∃ q ∈ s.atomQ, ∃ h op t a y sys who, AtomReq.reduce none h op t a y sys who ∈ q.2 ∧ ∃ o ∈ v.old, leafHolds o.entry o.size a = true

/-- R252, R258, R259, R385: BIND gives a free ASID its tables and its process, unless they map what the service never maps or bring both views of a
storage byte, and is refused by name for a busy or retiring one; FREE retires a bound ASID of which no task is left
and no group lives, and starts its invalidation; an invalidation completes, and its entries leave the TLBs, once the accesses and copies translated
through them have performed: then a window whose last invalidation it was is free, and an entry that waited for it is mapped, if the service still makes its mappings and no
other removal is in their way; the ASID is free
when no invalidation of it runs. That an invalidation waits for
just these accesses, that a bound ASID is answered busy and a root is aligned to 8 KiB, and that a BIND's tables are checked, are the model's readings (log entries 19 and 54). -/
def Sys2Proof.Claim.AddressSpaces : Prop :=
  ∀ (s : State) (proc asid root id : Nat) (range : Option (Nat × Nat)),
    let x : Asid := kget {} s.asids asid
    let busy : Prop := (∃ t ∈ s.tasks, t.2.st ≠ .retired ∧ t.2.st ≠ .killed ∧ s.asidOf t.1 = asid) ∨ ∃ g ∈ s.groups, g.2.live = true ∧ g.2.asid = asid
    let ok : Prop := asid < 2 ^ 16 ∧ root % 8192 = 0
    let s1 : State := { s with asids := kinsert s.asids asid { st := .bound, root, tplc := 0, proc } }
    let clean : Prop := mixes (mains s1.mapped ++ s.oldLeaves.map fun o => (o.entry, o.size)) = false ∧ mixes (mains s1.toCome.mapped) = false ∧
      (∀ m, m ∈ s1.leaves asid ∨ m ∈ s1.toCome.leaves asid → s1.neverMaps m = false) ∧ s.spoilsFrame s1 = false
    (Serving s →
      (¬ok → exec (.bindAsid proc asid root) s = .next (Said s 2)) ∧
      (ok → x.st = .retiring → exec (.bindAsid proc asid root) s = .next (Said s 4)) ∧
      (ok → x.st = .bound → exec (.bindAsid proc asid root) s = .next (Said s 3)) ∧
      (ok → x.st = .free → ¬clean → exec (.bindAsid proc asid root) s = .next (Said s 2)) ∧
      (ok → x.st = .free → clean → ∃ z, exec (.bindAsid proc asid root) s = .next z ∧
        (∀ a, kget {} z.asids a = if a = asid then { st := .bound, root, tplc := 0, proc } else kget {} s.asids a) ∧
        (z.proc proc).asid = some asid ∧ (z.proc proc).weight = (s.proc proc).weight ∧ (∀ p, p ≠ proc → z.proc p = s.proc p) ∧
        z = { s with asids := z.asids, procs := z.procs, hub := { s.hub with status := 0 } }) ∧
      (x.st = .free → exec (.freeAsid asid) s = .next (Said s 5)) ∧
      (x.st = .retiring → exec (.freeAsid asid) s = .next (Said s 4)) ∧
      (x.st = .bound → busy → exec (.freeAsid asid) s = .next (Said s 3)) ∧
      (x.st = .bound → ¬busy → ∃ z, exec (.freeAsid asid) s = .next z ∧
        (∀ a, kget {} z.asids a = if a = asid then { x with st := .retiring } else kget {} s.asids a) ∧
        Invalidates s z asid none ∧ Charged s z ∧
        z = { s with asids := z.asids, tlb := z.tlb, invals := z.invals, nextInval := z.nextInval, procs := z.procs, hub := { s.hub with status := 0 } }) ∧
      (∃ z, exec (.invalidate asid range) s = .next z ∧ Invalidates s z asid range ∧ Charged s z ∧
        z = { s with tlb := z.tlb, invals := z.invals, nextInval := z.nextInval, procs := z.procs, hub := { s.hub with status := 0 } })) ∧
    (s.serving = true →
      (x.st = .retiring → (∀ p ∈ s.invals, p.2.asid ≠ asid) → ∃ z, exec (.asidRetired asid) s = .next z ∧ z = { s with asids := z.asids, tlb := z.tlb } ∧
        (∀ t, t ∈ z.tlb ↔ t ∈ s.tlb ∧ t.asid ≠ asid) ∧ ∀ a, kget {} z.asids a = if a = asid then {} else kget {} s.asids a) ∧
      (x.st ≠ .retiring ∨ (∃ p ∈ s.invals, p.2.asid = asid) → exec (.asidRetired asid) s = .next s)) ∧
    (Running s →
      (kfind s.invals id = none → exec (.invalidationComplete id) s = .next s) ∧
      (∀ v, kfind s.invals id = some v →
        (InvalOpen s v → exec (.invalidationComplete id) s = .next s) ∧
        (¬InvalOpen s v → ∃ z, exec (.invalidationComplete id) s = .next z ∧
          (∀ t, t ∈ z.tlb ↔ t ∈ s.tlb ∧ t.gone ≠ some id) ∧ kfind z.invals id = none ∧ (∀ j, j ≠ id → kfind z.invals j = kfind s.invals j) ∧
          (∀ j y, kfind s.windows j = some y → kfind z.windows j = some (
            if id ∈ y.freeing then (if ∀ i ∈ y.freeing, i = id then {} else { y with freeing := y.freeing.filter (· ≠ id) }) else y)) ∧
          (s.hub.remaps = [] → z = { s with tlb := z.tlb, invals := z.invals, windows := z.windows }) ∧
          (∀ r, s.hub.remaps = [r] → s.debugQs = [] → if ∀ i ∈ r.waits, i = id
            then
              let u : State := { s with tlb := z.tlb, invals := z.invals, windows := z.windows, hub := { s.hub with remaps := [] } }
              let t := u.withPtes [(r.key, r.val.toNat)]
              (u.refusesMap t = true → z.hub.remaps = [] ∧ ∀ a, z.rdH a = s.rdH a) ∧
              (u.refusesMap t = false → u.mustWait t = true → z.hub.remaps = (if z.invals = [] then [] else [{ r with waits := kkeys z.invals }]) ∧
                ∀ a, z.rdH a = s.rdH a) ∧
              (u.refusesMap t = false → u.mustWait t = false → z.hub.remaps = [] ∧
                ∀ j, j < 8 → z.rdH (r.key + j) = BitVec.ofNat 8 (r.val.toNat / 2 ^ (8 * j)))
            else z.hub.remaps = [{ r with waits := r.waits.filter (· ≠ id) }] ∧ ∀ a, z.rdH a = s.rdH a)))) ∧
    HeldRequest (.bindAsid proc asid root) ∧ HeldRequest (.freeAsid asid) ∧ HeldRequest (.invalidate asid range)

/-- R252, R385, R399: a window below 2,048 that is not active is registered with a length of 64 KiB units up to 2^40; freeing clears its pages' entries and
leaves the window on its way until the invalidations complete, drops the entries for it that wait, and answers busy while it is on its way or a live group's region has a page of it; page entries that the rules refuse are not written; others are, at
once, or, where a placement changes or storage changes its view, the old ones are cleared now and the new ones follow the invalidations; whole clusters of one die
that nobody has reserved are reserved, and the tasks there are to be saved. The answers, when entries
are cleared and written, and when a reservation begins, are the model's readings (log entries 54 and 55). -/
def Sys2Proof.Claim.Windows : Prop :=
  ∀ (s : State) (win ep rbase len proc die c : Nat) (r w : Bool) (e : PteWrite), Serving s →
    let x : Window := kget {} s.windows win
    let ok : Prop := win < 2048 ∧ x.active = false ∧ len % 2 ^ 16 = 0 ∧ len ≤ 2 ^ 40
    let key := keyOf e.tplc e.pa
    let refused := s.refusesMap (s.withPtes (s.pendingPtes [PteWrite.at e] ++ [PteWrite.at e]))
    let waits := s.mustWait (s.withPtes [PteWrite.at e])
    let leaf (m : Mapping) : Prop := (m ∈ s.mapped ∨ m ∈ s.toCome.mapped) ∧ m.window = some win
    let lived : Prop := ∃ g ∈ s.groups, ∃ m ∈ s.regionOf g.2, m.2.testBit 51 = true ∧ m.2 / 2 ^ 40 % 2 ^ 11 = win
    (¬ok → exec (.registerWindow win ep rbase len proc r w) s = .next (Said s 2)) ∧
    (ok → ∃ z, exec (.registerWindow win ep rbase len proc r w) s = .next z ∧
      (∀ j, kget {} z.windows j = if j = win then { ep, rbase, len, proc, r, w, active := true } else kget {} s.windows j) ∧ Charged s z ∧
      z = { s with windows := z.windows, procs := z.procs, hub := { s.hub with status := 0 } }) ∧
    (x.active = false → exec (.freeWindow win) s = .next (Said s 2)) ∧
    (x.active = true → x.freeing ≠ [] ∨ lived → exec (.freeWindow win) s = .next (Said s 3)) ∧
    (x.active = true → x.freeing = [] → ¬lived → s.debugQs = [] → ∃ z, exec (.freeWindow win) s = .next z ∧ z.hub.status = 0 ∧ Charged s z ∧
      (∀ j, j ≠ win → kget {} z.windows j = kget {} s.windows j) ∧
      (s.bound = [] → kget {} z.windows win = {}) ∧
      (s.bound ≠ [] → ∃ l, l ≠ [] ∧ kget {} z.windows win = { x with freeing := l }) ∧
      (∀ m, leaf m → ∀ j, j < 8 → z.rdH (m.key + j) = 0) ∧ (∀ q, q ∈ z.hub.remaps ↔ q ∈ s.hub.remaps ∧ ∀ m, leaf m → q.key ≠ m.key) ∧
      (∀ a, (∀ m, leaf m → a < m.key ∨ m.key + 8 ≤ a) → z.rdH a = s.rdH a)) ∧
    (refused = true → exec (.memoryRegistration { proc, ptes := [e] }) s = .next (Said s 2)) ∧
    (refused = false → s.debugQs = [] → ∃ z, exec (.memoryRegistration { proc, ptes := [e] }) s = .next z ∧ z.hub.status = 0 ∧ Charged s z ∧
      (∀ j, j < 8 → z.rdH (key + j) = if waits = true then 0 else BitVec.ofNat 8 (e.val.toNat / 2 ^ (8 * j))) ∧
      (∀ a, a < key ∨ key + 8 ≤ a → z.rdH a = s.rdH a) ∧
      (∀ q ∈ z.hub.remaps, q ∈ s.hub.remaps ∧ q.key ≠ key ∨ waits = true ∧ q = { waits := kkeys z.invals, key, val := e.val }) ∧
      (waits = true → { waits := kkeys z.invals, key, val := e.val } ∈ z.hub.remaps) ∧ ∀ q ∈ s.hub.remaps, q.key ≠ key → q ∈ z.hub.remaps) ∧
    (4 ≤ die ∨ 8 ≤ c ∨ (∃ q ∈ s.hub.reservations, 8 * die + c ∈ q.2.2) → exec (.reserveClusters proc die [c]) s = .next (Said s 2)) ∧
    (die < 4 → c < 8 → (∀ q ∈ s.hub.reservations, 8 * die + c ∉ q.2.2) → ∃ z, exec (.reserveClusters proc die [c]) s = .next z ∧ z.hub.status = 0 ∧
      z.hub.reservations = s.hub.reservations ++ [(proc, die, [8 * die + c])] ∧ z.waves = s.waves ∧ Charged s z ∧
      ∀ t y, kfind s.sliceOver.tasks t = some y → ∃ y', kfind z.tasks t = some y' ∧ y'.st = y.st ∧ y'.grants = y.grants ∧
        (y.st = .resident → (∃ g ∈ y.grants, clusterOf g.core = 8 * die + c) → y'.slice = true ∧ y'.stopIssue = true)) ∧
    HeldRequest (.registerWindow win ep rbase len proc r w) ∧ HeldRequest (.freeWindow win) ∧ HeldRequest (.memoryRegistration { proc, ptes := [e] }) ∧
    HeldRequest (.reserveClusters proc die [c])

/-- R245, R265, R270, R314, R315, R336, R365, R400, R402: what each register that the service writes accepts and holds, and the number of reserve slots that it reports; the
share of a partition; device time steps forward at the first lock only, and the estimated offset is held for the report. That unit u belongs to die u / 4 is the model's
reading (log entry 15). -/
def Sys2Proof.Claim.ServiceRegisters : Prop :=
  ∀ (s : State) (proc u a b d v : Nat) (base : DWord) (len ctl : Word) (offset : Int), Serving s →
    let Puts (r : SvcReg) (ok : Prop) (R : State → Prop) : Prop :=
      (ok → ∃ z, exec (.registerWrite { proc, reg := r }) s = .next z ∧ z.hub.status = 0 ∧ (s.evalReqs = [] → ∀ x, z.rdH x = s.rdH x) ∧ R z) ∧
      (¬ok → exec (.registerWrite { proc, reg := r }) s = .next (Said s 2)) ∧ HeldRequest (.registerWrite { proc, reg := r })
    Puts (.watchHome d u a b ctl)
      (kfind s.debugQs d ≠ none ∧ u < 16 ∧ a % 64 = 0 ∧ b ≤ 2 ^ 24 ∧ a / 2 ^ 37 = u / 4 ∧ u / 4 ∉ s.hub.dieOff)
      (fun z => kfind z.watchH u = some { sess := d, wbase := a, wlen := b, ctl } ∧ ∀ j, j ≠ u → kfind z.watchH j = kfind s.watchH j) ∧
    Puts (.watchCore d a u base len ctl)
      (kfind s.debugQs d ≠ none ∧ a < 256 ∧ u < 4 ∧ (base.setWidth 57).signExtend 64 = base ∧ ctl.toNat / 2 ^ 6 % 2 ^ 10 = 0)
      (fun z => kfind (z.core a).watch u = some { sess := d, base, len, ctl } ∧ ∀ j, j ≠ a → z.core j = s.core j) ∧
    Puts (.reserve d a b v) (d < 4 ∧ 0 < a ∧ a ≤ 64 ∧ b % 8 = 0 ∧ 8 ≤ b ∧ b ≤ 1536 ∧ v ≤ 127)
      (fun z => kfind z.hub.reserves d = some (a, b, v) ∧ (s.evalReqs = [] → ∀ c, c < 32 → kget 0 z.hub.slotsHeld c = (z.reserveSlots c).length)) ∧
    Puts (.slice a b) (a < 16) (fun z => kget 0 z.hub.slices a = b ∧ ∀ j, j ≠ a → kget 0 z.hub.slices j = kget 0 s.hub.slices j) ∧
    Puts (.drainBudget a b) (a < 16) (fun z => kget 0 z.hub.budgets a = b ∧ ∀ j, j ≠ a → kget 0 z.hub.budgets j = kget 0 s.hub.budgets j) ∧
    Puts (.watchdog a b) (b = 0 ∨ (16 ≤ b ∧ b ≤ 47))
      (fun z => ∀ x, kfind s.tasks a = some x → kfind z.tasks a = some { x with wdN := b, silent := s.cycle }) ∧
    Puts (.weight a b) (1 ≤ b ∧ b ≤ 65535)
      (fun z => (z.proc a).weight = b ∧ ∀ p, (z.proc p).asid = (s.proc p).asid ∧ (p ≠ a → (z.proc p).weight = (s.proc p).weight)) ∧
    (a < 256 → b < 4 → ∃ z, exec (.fwshareWrite a b v) s = .next z ∧ (kget {} (z.core a).parts b : Part).fwshare = BitVec.ofNat 8 v ∧
      (∀ j, j ≠ a → z.core j = s.core j) ∧ z = { s with cores := z.cores }) ∧
    (s.hub.ptpLocked = false → exec (.ptpFirstLock { t := base, offset }) s = .next { s with
      time := if s.time < base then base else s.time
      hub := { s.hub with ptpLocked := true, ptpOffset := offset } }) ∧
    (s.hub.ptpLocked = true → exec (.ptpFirstLock { t := base, offset }) s = .next { s with hub := { s.hub with ptpOffset := offset } })

/-- R361, R363 to R369, R382: each session gets a queue of its own, empty, and enables halts of its tasks; a halt stops a resident task, or marks one that is on no core; a resume clears the halt and
the step marks but for those that the frame's STEP bits give; a single step sets STEP in the frame's header and in the records of the chosen waves and clears it in the others, and nothing
else of memory; the read-out, once the device is frozen, changes nothing but what has been read. That a halt
of a pending task saves it unplaced, and that a header's STEP bit with no record's asks for no step, are the model's readings (log entries 43 and 16), and the read-out's form is presumed (log entry 62). -/
def Sys2Proof.Claim.Debugging : Prop :=
  ∀ (s : State) (proc task log base : Nat) (x : Task) (ws : List Nat) (r : ReadRegion), kfind s.tasks task = some x →
    let Marks (z : State) (P : Nat → Prop) : Prop :=
      ∀ k w, kfind s.waves k = some w → ∃ w', kfind z.waves k = some w' ∧ w' = { w with step := w'.step } ∧ (w.task ≠ task → w' = w) ∧
        (w.task = task → (w'.step = true ↔ P k))
    let num (n o : Nat) : Nat := ofBytes ((List.range n).map fun j => s.rdH (FrameLoc.key x.frame (o + j)))
    let recs := waveOffsets (num 8 24) (liveWaves s task)
    let stepping : Prop := x.data.grants ≠ [] ∧ (num 1 4).testBit 3 = true
    let Asked (k : Nat) : Prop := stepping ∧ ∃ o, (k, o) ∈ recs ∧ (num 1 (o + 13)).testBit 2 = true
    (Serving s →
      (log < 4 ∨ 16 < log ∨ base % 64 ≠ 0 → exec (.debuggerSession log base { proc, tasks := [task] }) s = .next (Said s 2)) ∧
      (4 ≤ log → log ≤ 16 → base % 64 = 0 → ∃ z d, exec (.debuggerSession log base { proc, tasks := [task] }) s = .next z ∧ z.hub.status = 0 ∧
        z.hub.reply = toBytes d 8 ∧ kfind s.debugQs d = none ∧ kfind z.debugQs d = some { base, log, tail := 0, held := [], dropped := 0 } ∧
        (∀ j, j ≠ d → kfind z.debugQs j = kfind s.debugQs j) ∧ kfind z.tasks task = some { x with debug := some d } ∧
        ∀ j, j < 64 → z.rdH (base + j) = if j = 16 then BitVec.ofNat 8 log else 0) ∧
      (x.debug = none ∨ x.st = .retired ∨ x.st = .killed → exec (.debugHaltRequest task) s = .next (Said s 2)) ∧
      (x.debug ≠ none → x.st = .resident → ∃ z x', exec (.debugHaltRequest task) s = .next z ∧ z.hub.status = 0 ∧ kfind z.tasks task = some x' ∧
        x' = { x with halt := true, stopIssue := true, reports := x'.reports } ∧ z.waves = s.waves) ∧
      (x.debug ≠ none → x.st = .pending ∨ x.st = .saved → ∃ z x', exec (.debugHaltRequest task) s = .next z ∧ kfind z.tasks task = some x' ∧
        x'.halt = true ∧ x'.st = .saved ∧ z.waves = s.waves) ∧
      (x.halt = false ∨ (x.st ≠ .saved ∧ x.st ≠ .paged) → exec (.debugResume task) s = .next (Said s 2)) ∧
      (x.halt = true → x.st = .saved → ∃ z x', exec (.debugResume task) s = .next z ∧ z.hub.status = 0 ∧ kfind z.tasks task = some x' ∧
        x'.halt = false ∧ x'.st = (if x.pf = true then .paged else if x.slice = true then .saved else .pending) ∧
        (∀ (i : Nat) (q : SavedTile), x'.data.tiles[i]? = some q → (q.ctx.step = true ↔ stepping ∧ ∃ o, (s.tileRecords x)[i]? = some o ∧ (num 1 (o + 15)).testBit 3 = true)) ∧
        (num 1 8 = 0 → (x'.stepF = true ↔ ∃ k, Asked k)) ∧ Marks z Asked ∧ ∀ a, z.rdH a = s.rdH a) ∧
      (x.halt = true → x.st = .saved → x.data.grants ≠ [] → num 1 8 = 0 → num 8 24 = 64 → s.debugQs = [] →
        (∀ n, 64 ≤ n → (∀ k o, (k, o) ∈ recs → o + 14 ≤ n) → InPlace x.frame n → ∃ z x', exec (.singleStep task ws []) s = .next z ∧
          kfind z.tasks task = some x' ∧ x'.halt = false ∧ (x'.stepF = true ↔ ∃ k o, (k, o) ∈ recs ∧ k ∈ ws) ∧
          Marks z (fun k => k ∈ ws ∧ ∃ o, (k, o) ∈ recs) ∧
          (z.rdH (FrameLoc.key x.frame 4)).toNat = num 1 4 ||| 8 ∧
          (∀ k o, (k, o) ∈ recs → (z.rdH (FrameLoc.key x.frame (o + 13))).toNat =
            if k ∈ ws then num 1 (o + 13) ||| 4 else num 1 (o + 13) &&& 251) ∧
          ∀ a, a ≠ FrameLoc.key x.frame 4 → (∀ k o, (k, o) ∈ recs → a ≠ FrameLoc.key x.frame (o + 13)) → z.rdH a = s.rdH a)) ∧
      (x.halt = false ∨ x.st ≠ .saved ∨ x.data.grants = [] → exec (.singleStep task ws []) s = .next (Said s 2))) ∧
    (s.hub.on = true → exec .freezePin s = .next { s with hub := { s.hub with frozen := true } } ∧
      exec .freezeCommand s = .next { s with hub := { s.hub with frozen := true } }) ∧
    (s.hub.on = true → s.hub.frozen = true → ∃ z, exec (.stateReadout r) s = .next z ∧ z = { s with hub := { s.hub with readout := z.hub.readout } } ∧
      (∀ pa n, r = .mem pa n → z.hub.readout = (List.range (min n (2 ^ 39 - pa))).map fun i => s.rdH (pa + i))) ∧
    (s.hub.frozen = false → exec (.stateReadout r) s = .next s)

/-! ### Power, boot, attestation, servicing (R370 to R383) -/

/-- R370 to R375, R381, R383: at power-on the ROM starts the valid slot of the higher SVN, the selector deciding a tie, or enters recovery; in recovery an image no longer than the slot
is put into slot A; power-off keeps only the flash, the fuses and what lies outside;
a raise of the minimum is never above the running image's SVN and never invalidates both slots, and is refused with the log full; the report on a 32-byte nonce is the log, the chain and a signature
over the SHA3-256 digest of nonce, chain and count; the limits set only their own field. That memory is empty after power-off is the
model's choice (log entry 5), and the hash and the signature check are
presumed from their standards (log entry 81). -/
def Sys2Proof.Claim.PowerAndBoot : Prop :=
  ∀ (s : State) (img nonce : List Byte) (share : Nat),
    let a := slotValid s.hub s.hub.slotA
    let b := slotValid s.hub s.hub.slotB
    let svn (l : List Byte) : Nat := ofBytes ((l.drop 4).take 4)
    let Boots (z : State) (n : Nat) (l : List Byte) : Prop :=
      exec .powerOn s = .next z ∧ z.hub.on = true ∧ z.hub.booted = true ∧ z.hub.recovery = false ∧ z.hub.runningSlot = n ∧ z.hub.runningSvn = svn l ∧
      z.hub.service = (l.drop 4096).take (ofBytes ((l.drop 8).take 8)) ∧ z = { s with hub := z.hub }
    (s.hub.on = true → exec .powerOn s = .next s) ∧
    (s.hub.on = false →
      (a = true → b = false ∨ svn s.hub.slotB < svn s.hub.slotA → ∃ z, Boots z 0 s.hub.slotA) ∧
      (b = true → a = false ∨ svn s.hub.slotA < svn s.hub.slotB → ∃ z, Boots z 1 s.hub.slotB) ∧
      (a = true → b = true → svn s.hub.slotA = svn s.hub.slotB →
        if s.hub.selector = 1 then ∃ z, Boots z 1 s.hub.slotB else ∃ z, Boots z 0 s.hub.slotA) ∧
      (a = false → b = false → ∃ z, exec .powerOn s = .next z ∧ z.hub.recovery = true ∧ z.hub.booted = false ∧ z.serving = false)) ∧
    (¬(s.hub.on = true ∧ s.hub.recovery = true ∧ s.hub.frozen = false ∧ img.length ≤ 63 * 2 ^ 20) → exec (.recoveryImage img) s = .next s) ∧
    (s.hub.on = true → s.hub.recovery = true → s.hub.frozen = false → img.length ≤ 63 * 2 ^ 20 →
      ∃ z, exec (.recoveryImage img) s = .next z ∧ z.hub.slotA = img ∧ z.hub.slotB = s.hub.slotB ∧ z.hub.selector = s.hub.selector ∧
        (slotValid s.hub img = true → z.hub.booted = true)) ∧
    (∃ z, exec .powerOff s = .next z ∧ z.hub.on = false ∧ z.hub.slotA = s.hub.slotA ∧ z.hub.slotB = s.hub.slotB ∧ z.hub.minSvn = s.hub.minSvn ∧
      z.hub.rootHash = s.hub.rootHash ∧ z.hub.selector = s.hub.selector ∧ z.waves = [] ∧ z.tasks = [] ∧ z.queues = [] ∧ z.mem = [] ∧ z.client = s.client) ∧
    (Serving s →
      (∃ z, exec .raiseSvn s = .next z ∧ s.hub.minSvn ≤ z.hub.minSvn ∧ z.hub.minSvn ≤ max s.hub.minSvn s.hub.runningSvn ∧
        (z.hub.minSvn ≠ s.hub.minSvn → (slotValid z.hub s.hub.slotA = true ∨ slotValid z.hub s.hub.slotB = true) ∧
          z.hub.attest.length = s.hub.attest.length + 1) ∧ z = { s with hub := z.hub }) ∧
      (1024 ≤ s.hub.attest.length → exec .raiseSvn s = .next (Said s 2)) ∧
      (nonce.length = 32 → ∃ z, exec (.attestationReport nonce) s = .next z ∧ z = { s with hub := z.hub } ∧ z.hub.status = 0 ∧
        z.hub.reply = s.hub.attest.flatten ++ s.hub.chain ++
          (List.range 2420).map (Config.mldsaSign (sha3 (nonce ++ s.hub.chain ++ toBytes s.hub.attest.length 4)))) ∧
      (nonce.length ≠ 32 → exec (.attestationReport nonce) s = .next (Said s 2))) ∧
    (s.serving = true → exec (.hotLimit share) s = .next { s with hub := { s.hub with hot := some share } }) ∧
    (s.hub.on = true → exec .criticalLimit s = .next { s with hub := { s.hub with powerRequest := true } })

/-- R376 to R380: a valid new image makes the service write its record and hold requests until the new body accepts, which moves the selector, or the second is over; either way
the run tree is the record's (log entry 82); an invalid one leaves the running service; a
quiesced or excluded core takes no new task and its tasks are to be saved; a lane leaves its link and returns; a channel, and in steps a die, goes when nothing is left to move;
a die returns. That each event makes one step of a
retirement, and the channel or die leaves at the event that finds nothing on it, is the model's reading (log entry 59). -/
def Sys2Proof.Claim.Servicing : Prop :=
  ∀ (s : State) (img : List Byte) (core link lane stack chan die : Nat),
    let n := 1 - s.hub.runningSlot
    let other := if n = 0 then s.hub.slotA else s.hub.slotB
    let late : Prop := s.hub.updateAt + 1000000000 < s.time.toNat
    let h : Hub := if s.hub.runningSlot = 0 then { s.hub with slotB := img } else { s.hub with slotA := img }
    let fits : Prop := s.hub.attest.length < 1024 ∧ img.length ≤ 63 * 2 ^ 20
    let tree : KMap Proc := match s.hub.handover with | some r => r.procs | none => s.procs
    let Stopped (i : Instr) (R : Core → Prop) : Prop := ∃ z, exec i s = .next z ∧ R (z.core core) ∧ (z.core core).scratch = (s.core core).scratch ∧
      ∀ t x, kfind s.tasks t = some x → x.st = .resident → (∃ g ∈ x.grants, g.core = core) →
        ∃ x', kfind z.tasks t = some x' ∧ x'.slice = true ∧ x'.stopIssue = true ∧ x'.st = .resident
    (Serving s →
      (¬fits → exec (.liveUpdate img) s = .next (Said s 2)) ∧
      (fits → slotValid h img = false → exec (.liveUpdate img) s = .next { s with hub := { h with status := 2 } }) ∧
      (fits → slotValid h img = true → exec (.liveUpdate img) s = .next { s with
        hub := { h with
          updating := true
          updateAt := s.time.toNat
          newSvn := ofBytes ((img.drop 4).take 4)
          handover := some { procs := s.procs, queues := s.queues, asids := s.asids, windows := s.windows, groups := s.groups }
          status := 0 } })) ∧
    HeldRequest (.liveUpdate img) ∧
    (s.serving = true →
      (s.hub.updating = false ∨ late → exec .handoverAccept s = .next s) ∧
      (s.hub.updating = true → ¬late → s.hub.attest.length < 1024 → s.hub.held = [] → ∃ z, exec .handoverAccept s = .next z ∧ z.hub.selector = n ∧
        z.hub.runningSlot = n ∧ z.hub.runningSvn = s.hub.newSvn ∧ z.hub.updating = false ∧ z.hub.handover = none ∧ z.hub.service = imageBody other ∧
        z.hub.attest.length = s.hub.attest.length + 1 ∧ z = { s with procs := tree, hub := z.hub }) ∧
      (s.hub.updating = true → late → s.hub.held = [] →
        exec .handoverTimeout s = .next { s with procs := tree, hub := { s.hub with updating := false, handover := none, held := [] } }) ∧
      (s.hub.updating = false ∨ ¬late → exec .handoverTimeout s = .next s) ∧
      (core < 256 → Stopped (.quiesceCore core) fun c => c.quiesced = true) ∧
      (core < 256 → Stopped (.excludeCore core) fun c => c.excluded = true) ∧
      (core < 256 → ∃ z, exec (.restoreCore core) s = .next z ∧ (z.core core).excluded = false ∧ (z.core core).quiesced = false) ∧
      (lane < 64 → kfind s.hub.lanesOut link = none → ∃ z, exec (.recalibrateLane link lane) s = .next z ∧ kfind z.hub.lanesOut link = some lane ∧
        z = { s with hub := { s.hub with lanesOut := z.hub.lanesOut } }) ∧
      (∃ z, exec (.laneRecalibrationDone link) s = .next z ∧ kfind z.hub.lanesOut link = none ∧ z = { s with hub := { s.hub with lanesOut := z.hub.lanesOut } }) ∧
      (stack < 8 → chan < 32 → (stack, chan) ∉ s.hub.channelsOut → s.onChannel stack chan = true → exec (.retireChannel stack chan []) s = .next s) ∧
      (stack < 8 → chan < 32 → (stack, chan) ∉ s.hub.channelsOut → s.onChannel stack chan = false → exec (.retireChannel stack chan []) s =
        .next { s with hub := { s.hub with awaited := [], channelsOut := s.hub.channelsOut ++ [(stack, chan)] } }) ∧
      (die < 4 → die ∉ s.hub.dieOff → die ∉ s.hub.dieGoing → exec (.dieOffline die [] []) s =
        .next { s with hub := { s.hub with dieGoing := s.hub.dieGoing ++ [die] } }) ∧
      (die < 4 → die ∉ s.hub.dieOff → die ∈ s.hub.dieGoing → s.onDie die = true → exec (.dieOffline die [] []) s = .next s) ∧
      (die < 4 → die ∉ s.hub.dieOff → die ∈ s.hub.dieGoing → s.onDie die = false → s.bound = [] → s.invals = [] →
        ∃ z, exec (.dieOffline die [] []) s = .next z ∧ z.hub.dieOff = s.hub.dieOff ++ [die] ∧
          (∀ c, c < 64 → (z.core (64 * die + c)).excluded = true ∧ (z.core (64 * die + c)).quiesced = true) ∧
          (∀ u, kfind z.watchH u ≠ none → u / 4 ≠ die)) ∧
      (die ∈ s.hub.dieOff → exec (.dieReturn die) s = .next { s with
        hub := { s.hub with dieOff := s.hub.dieOff.filter (· ≠ die), dieGoing := s.hub.dieGoing.filter (· ≠ die) } }) ∧
      (die ∉ s.hub.dieOff → exec (.dieReturn die) s = .next s))

/-! ### Steps (R6, R12, R32 to R34, R99, R102, R159 to R161, R318, R340) -/

/-- The agent's answer, with what it has translated noted by the running invalidations (R258), heard by the watchdogs (R198, R245). -/
def Sys2Proof.Claim.Heard (s : State) (o : Out) : Out := match o with | .next t => .next (hear (turn s) (ready s) (noteUsed (ready s) t)) | o => o

/-- R12, R32 to R34, R99, R100, R103, R366: a step of a wave that may issue fetches its current fragment's first word, which are the bytes at the pc, tests the watch units, and runs exec of the
instruction that its words decode to, of the fused sequence that they begin, or of the illegal-instruction trap, at the state in which the words stand; the second word is read only
for a 128-bit instruction; the words of a sequence are those that follow, and they fuse exactly when R99's conditions hold of them; a fetch fault is taken, that of a
sequence's words as the sequence's (log entry 83). -/
def Sys2Proof.Claim.StepRunsWave : Prop :=
  ∀ (s : State) (k : Nat) (w0 w : Wave) (f : Frag) (s1 : State), turn s = .wave k →
    let r := ready s
    kfind r.waves k = some w0 → mayIssue r w0 = true → pickFrag r k (w0.settle r.cycle) = some (s1, w, f) →
    let at1 := s1.setWave k w
    let wk := at1.walker w
    let pc := f.pc.toNat
    let Answers (o : Out) : Prop := step s = Heard s (afterIssue k f.num w o)
    let me : Actor := .frag k f.num
    (∀ t e, at1.firstWord wk pc = (t, .error e) → Answers (.next (takeTrap { t with cur := { actor := me } } k w f e))) ∧
    (∀ t i0 read, at1.firstWord wk pc = (t, .ok (i0, read)) →
      ∀ t2 fu, fusedFrom t wk pc (at1.limits w) [i0] 3 = (t2, fu) →
        let test := watchTest t2 w f .fetch false [(0, pc % 2 ^ 57)] 8
        (∀ e, test = some e → ∃ (i1 : DWord) (fused : Bool) (t3 : State), Answers (.next (refuseAt { t3 with cur := { actor := me, iw0 := i0, iw1 := i1, fused } } k w f e)) ∧
          (fused = false ↔ fu = .ok none)) ∧
        (test = none →
          (∀ e, fu = .error e → Answers (.next (takeTrap { t2 with cur := { actor := me, iw0 := i0, fused := true } } k w f e))) ∧
          (∀ ops, fu = .ok (some ops) → Answers (exec (.fusedSoftmax ops) { t2 with cur := { actor := me, iw0 := i0, fused := true } })) ∧
          (fu = .ok none →
            (∀ t3 e, t2.secondWord wk pc i0 read = (t3, .error e) → Answers (.next (takeTrap { t3 with cur := { actor := me, iw0 := i0 } } k w f e))) ∧
            (∀ t3 i1, t2.secondWord wk pc i0 read = (t3, .ok i1) → ∃ issued, let at_ := { t3 with cur := { actor := me, iw0 := i0, iw1 := i1, issued } }
              (∀ i, decodeThread (at1.limits w) i0 i1 = .ok i → Answers (exec i at_)) ∧
              (∀ e, decodeThread (at1.limits w) i0 i1 = .error e → Answers (exec (.illegalInstruction e) at_)))))) ∧
    (∀ (t : State) (i0 : DWord) (read : Option DWord), i0.toNat / 2 ^ 53 % 2 = 0 → t.secondWord wk pc i0 read = (t, .ok 0)) ∧
    (∀ (t : State) l i0 b x y t1 t2 t3, t.fetch wk (pc + 8) 8 = (t1, .ok b) → t1.fetch wk (pc + 16) 8 = (t2, .ok x) → t2.fetch wk (pc + 24) 8 = (t3, .ok y) →
      (fusedFrom t wk pc l [i0] 3).2 = .ok (decodeFused l i0 (BitVec.ofNat 64 b) (BitVec.ofNat 64 x) (BitVec.ofNat 64 y))) ∧
    (∀ (t : State) va n x, t.fetch wk va n = x → (∀ t1 e, t.translate wk va .fetch false = (t1, .error e) →
        x = (t1, .error { kind := e.1, level := 3, addr := (canon va).toNat, detail := e.2 })) ∧
      (∀ t1 l, t.translate wk va .fetch false = (t1, .ok l) → x.2 = .ok (t1.codeAt wk.core l.key n).2)) ∧
    (∀ c key n, key % 128 + n ≤ 128 → kfind (s.core c).icache (key / 128) = none → (s.codeAt c key n).2 = ofBytes (s.rdHs key n))

/-- R102, R159 to R161, R237, R239, R364, R366: a step of a core's sequencer issues the bundle of the first context from the current one on that can issue, for itself or, in a coupled
cushion, for every member that has not passed it: when it decodes, nothing holds it and no check refuses it, exec of its operations in slot order, member by
member, with the x registers as they stood before, after which coupled members stand where the lead does, decoupled by a DECOUPLE; the first fault stops the team, one of the
fetch or of the decoding for the lowest-ranked member that has not passed the bundle (R239); a bundle that all have passed is left out; a held bundle issues nothing. -/
def Sys2Proof.Claim.StepRunsBundle : Prop :=
  ∀ (s : State) (core n j : Nat) (c : TileCtx) (s1 s2 : State) (v : Nat) (b : Bundle), turn s = .ctx core →
    let r := ready s
    let cc := (r.core core).curCtx
    r.hub.on = true → r.hub.frozen = false →
    ((∀ i, i < 4 → issueBundle r core ((cc + i) % 4) = none) → step s = Heard s (.next r)) ∧
    (j < 4 → n = (cc + j) % 4 → (∀ i, i < j → issueBundle r core ((cc + i) % 4) = none) → r.ctxAt core n = some c → inRotation r core n c = true →
      let ms := teamOf r core n c
      let act := ms.filter fun m => !m.2.2.skip
      let lead : Member := act.head?.getD (core, n, c)
      let me : Member := (core, n, c)
      let got := r.fetch (r.walkerOf c.task core) c.pc.toNat 32
      let at_ (iw0 iw1 : DWord) (np : Nat) : State := { s1 with cur := { actor := .tile lead.1 lead.2.1, iw0, iw1, np } }
      let hit := bundleWatch s1 core c
      let i0 := BitVec.ofNat 64 (v / 2 ^ 128)
      let i1 := BitVec.ofNat 64 (v / 2 ^ 192)
      let Ends (o : Out) : Prop := ∀ t, o = .next t → step s = Heard s (.next (t.setCore core { t.core core with curCtx := n }))
      (act = [] → Ends (.next (passBundle ms core n c r))) ∧
      (act ≠ [] → ∀ e, got = (s1, .error e) → Ends (teamFault ms lead e (at_ 0 0 1))) ∧
      (act ≠ [] → got = (s1, .ok v) →
        (∀ e, hit = some e → e.detail / 16 % 2 = 0 → Ends (teamFault ms me e (at_ i0 i1 1))) ∧
        (∀ e, hit = some e → e.detail / 16 % 2 = 1 → Ends (.next (stepMembers ms ((at_ i0 i1 1).tileHalt core n c e)))) ∧
        (∀ e, hit = none → decodeBundle v = .error e → ∀ t, exec (.illegalInstruction e) (at_ i0 i1 1) = .next t → Ends (.next (stepMembers ms t))) ∧
        (hit = none → decodeBundle v = .ok b →
          (holds (at_ i0 i1 b.np) act (opsOf b) = true → issueBundle r core n = none) ∧
          (holds (at_ i0 i1 b.np) act (opsOf b) = false →
            (∀ m e, firstFault (at_ i0 i1 b.np) act (opsOf b) = (s2, some (m, e)) → Ends (teamFault ms m e s2)) ∧
            (firstFault (at_ i0 i1 b.np) act (opsOf b) = (s2, none) → ∀ t, runMembers act (opsOf b) s2 = .next t →
              let u := if c.cush = .coupled then follow ms (pcAfter s2 me (opsOf b)) t else t
              Ends (.next (bundleIssued ms core n (if c.cush = .coupled ∧ b.kind = .decouple then uncouple ms u else u)))))))) ∧
    (∀ (m : Member) i, runMember m [i] s2 = exec i { s2 with cur := { s2.cur with actor := .tile m.1 m.2.1, accepted := true, xs := some m.2.2.x } }) ∧
    (∀ (m : Member) is i t, runMember m is s2 = .next t → runMember m (is ++ [i]) s2 = exec i { t with
      cur := { t.cur with actor := .tile m.1 m.2.1, accepted := true, xs := (t.cur.xs).or (some m.2.2.x) } }) ∧
    (∀ (m : Member) ms is t, runMembers ms is s2 = .next t → runMembers (ms ++ [m]) is s2 = runMember m is t)

/-- R318, R319: a step of a command processor reads ahead and runs exec of the queue's next packet when it can start; a packet that failed to read or does not decode stops the
queue by its error. A step of an event runs exec of that event. -/
def Sys2Proof.Claim.StepRunsRest : Prop :=
  ∀ (s : State) (q : Nat), let r := ready s
    (turn s = .cp q → r.hub.on = true → r.hub.frozen = false → r.hub.recovery = false → mayServe r q = true → hasWork r q = true →
      (r.queue q).st = 1 →
      let t := { r with cpQueue := kinsert r.cpQueue (cpOf q) q }.fill q
      let nx := nextPacket (t.queue q)
      canStart t q (t.queue q) nx = true →
      let at_ : State := { t with cur := { actor := .cp q } }
      (∀ i, nx = .packet i → step s = Heard s (exec i at_)) ∧ (∀ k, nx = .failed k → step s = Heard s (.next (at_.packetErr q 8 k))) ∧
      (∀ e, nx = .wrong e → step s = Heard s (.next (at_.packetErr q e 0)))) ∧
    (∀ i, turn s = .event i → step s = Heard s (exec i r))

/-- No step of an agent (a wave, a core's sequencer, a command processor) ever ends in a fault or a refusal: every word, bundle and packet has an effect in every state. -/
def Obligations.StepsComplete : Prop := ∀ s : State, (∀ i, turn s ≠ .event i) → ∃ t, step s = .next t

/-- What every step keeps: memories list each address once, in rising order, and nothing that reads as unlisted; so do the views; the waves' keys rise; a task has at most
eight blocks and a wave's block is one of them. -/
def Sys2Proof.Claim.Inv (s : State) : Prop :=
  kwf unlisted s.mem = true ∧ kwf unlisted s.client = true ∧ (∀ p ∈ s.cores, kwf unlisted p.2.scratch = true) ∧
  (∀ p ∈ s.peers, kwf unlisted p.2 = true) ∧ (∀ p ∈ s.views, kwf ((unlisted, 0) : Byte × Nat) p.2 = true) ∧ Rising s.waves ∧
  (∀ t ∈ s.tasks, t.2.nblk ≤ 8) ∧ ∀ w ∈ s.waves, w.2.blk < 8

/-- Every step keeps the canonical forms (log entry 5) and the block numbers of R52 and R322. -/
def Obligations.StepKeepsForms : Prop := ∀ s t : State, Inv s → step s = .next t → Inv t

/-- The state after reset has them. -/
def Obligations.ResetHasForms : Prop := Inv State.reset

/-! ### Encodings (R13 to R16, R25 to R28, R320 to R331) -/

/-- R13 to R33, R99: every well-formed thread-set instruction, fused sequences among them, is what its own words decode to, for any wave; and what words decode to is well formed. -/
def Obligations.EncodeThread : Prop :=
  ∀ (c : Limits) (i : Instr), (i.wf c = true →
      (∀ w, encode i = [w] → decodeThread c w 0 = .ok i) ∧ (∀ w v, encode i = [w, v] → decodeThread c w v = .ok i) ∧
      (∀ f, i = .fusedSoftmax f → ∃ a b x y, encode i = [a, b, x, y] ∧ decodeFused c a b x y = some f)) ∧
    ∀ w v, decodeThread c w v = .ok i → i.wf c = true

/-- R25 to R28, R172 to R182: the bundle of every well-formed slot operation, under each profile, decodes to that operation alone in its slot; the special bundles to their kinds. -/
def Obligations.EncodeTile : Prop :=
  ∀ (np : Nat) (i : Instr) (w : Nat), i.wf {} = true → 1 ≤ np → np ≤ 6 → encodeBundle np i = some w →
    ∃ b, decodeBundle w = .ok b ∧ b.np = np ∧
      match i with
      | .decouple => b.kind = .decouple ∧ b.slots = []
      | .rejoin => b.kind = .rejoin ∧ b.slots = []
      | .trgate => b.kind = .trgate ∧ b.slots = []
      | .tnop => b.kind = .normal ∧ b.slots = []
      | i => b.kind = .normal ∧ b.slots.map (·.2) = [i]

/-- R320 to R331: the 64 bytes of every well-formed packet decode to it. -/
def Obligations.EncodePacket : Prop := ∀ (i : Instr) (p : List Byte), i.wf {} = true → encodePacket i = some p → p.length = 64 ∧ decodePacket p = .ok i

/-- Words of the spec's own examples and of its encoding tables, read bit by bit (R30, R79, R107, R25, R172, R186, R320). -/
def Obligations.WordsDecode : Prop :=
  let g : Guard := { p := 7, neg := false }
  -- the worked GATE of R186, for a kernel with maps 0 (entry, slot 0) and 1 (return, bank 0)
  decodeThread { maps := [(false, 0), (true, 0)] } 0x8420703C08000001 0x00000000400F87E0 = .ok (.gate 30 32 1 0x200 0 31 1 31) ∧
  -- BRA +16: OP 0x120, L 1, PSEL 7
  decodeThread {} 0x4820700000000000 0x0000000002000000 = .ok (.bra 0x10) ∧
  -- NOP: OP 0x12A, PSEL 7
  decodeThread {} 0x4A80700000000000 0 = .ok .nop ∧
  -- VAND v2, v0, v1, LAT 4: OP 0x010
  decodeThread {} 0x0404700400000800 0 = .ok (.vand ⟨4, g⟩ (.v 2) (.v 0) (.v 1)) ∧
  -- an unknown opcode: cause 0x01
  decodeThread {} 0xFFC0700000000000 0 = .error { kind := 0x01, cause := 0x01, hi := 0 } ∧
  -- the worked bundle of R185's section: mma ab2, os0, os1, k2 || tclaim os3
  decodeBundle 0x010000000000004804100000000000010C000000000000000000000000000000 =
    .ok { np := 1, kind := .normal, slots := [(1, .mma 2 0 1 (.const 2)), (3, .tclaim 3)] } ∧
  -- a bundle of zeros: profile 0 is refused
  decodeBundle 0 = .error { kind := 0x01, cause := 0x10, hi := 0 } ∧
  -- packets by TYPE
  decodePacket (1 :: List.replicate 63 0) = .ok .packetNop ∧ decodePacket (11 :: List.replicate 63 0) = .ok .ffence ∧
  decodePacket (List.replicate 64 0) = .error 1 ∧ decodePacket (11 :: 0 :: 0 :: 1 :: List.replicate 60 0) = .error 2

/-- R2, R316, R322, R325, R370, R400: right after reset the power is off and nothing runs: no task, wave, launch, queue or session, device time 0, no ASID bound, every memory unlisted. That power is off and
that memory lists nothing, and so reads zero, are the model's choices (log entries 8 and 5). -/
def Obligations.ResetValues : Prop :=
  let s := State.reset
  s.hub.on = false ∧ s.hub.booted = false ∧ s.hub.recovery = false ∧ s.hub.frozen = false ∧ s.time = 0 ∧ s.waves = [] ∧ s.tasks = [] ∧
  s.launches = [] ∧ s.queues = [] ∧ s.asids = [] ∧ s.windows = [] ∧ s.groups = [] ∧ s.copies = [] ∧ s.tlb = [] ∧ s.debugQs = [] ∧
  s.mem = [] ∧ s.cores = [] ∧ s.hub.attest = [] ∧ s.hub.chain = List.replicate 32 0 ∧ (s.queue 0).st = 0 ∧ (s.proc 0).weight = 1024

/-! ### Statements of several parts -/

/-- The element-wise integer arithmetic, wrapping and saturating. -/
def Obligations.IntegerArithmetic : Prop := Sys2Proof.Claim.IntegerWrap ∧ Sys2Proof.Claim.IntegerSaturate

/-- NaN results and the order of VFMIN, VFMAX and VFCMP. -/
def Obligations.FloatOrderAndNaN : Prop := Sys2Proof.Claim.FloatNaN ∧ Sys2Proof.Claim.FloatOrder

/-- Which encoding a rounded result is. -/
def Obligations.Rounding : Prop := Sys2Proof.Claim.RoundingExact ∧ Sys2Proof.Claim.RoundingChooses

/-- Conversions, VDOT2, VFRINT and the infinities of floating arithmetic, and the tree of a floating sum. -/
def Obligations.Conversions : Prop := Sys2Proof.Claim.ConvertValues ∧ Sys2Proof.Claim.FloatEdges ∧ Sys2Proof.Claim.ReduceTree

/-- Selection, movement and compression. -/
def Obligations.MovesAndCompress : Prop := Sys2Proof.Claim.Moves ∧ Sys2Proof.Claim.Compress

/-- VREDX and VSCAN. -/
def Obligations.Reductions : Prop := Sys2Proof.Claim.ReduceInteger ∧ Sys2Proof.Claim.ReduceFloat

/-- The scalar instructions. -/
def Obligations.ScalarArithmetic : Prop := Sys2Proof.Claim.ScalarInteger ∧ Sys2Proof.Claim.ScalarFloatAndCompare

/-- Predicates and the lanes a guard selects. -/
def Obligations.PredicatesAndGuards : Prop := Sys2Proof.Claim.PredicateLogic ∧ Sys2Proof.Claim.GuardSelects

/-- SRD, SWR and SPART. -/
def Obligations.SpecialRegisters : Prop := Sys2Proof.Claim.ReadSpecial ∧ Sys2Proof.Claim.WriteSpecial

/-- The uniform branches, and the targets that trap. -/
def Obligations.BranchesAndTargets : Prop := Sys2Proof.Claim.UniformControl ∧ Sys2Proof.Claim.BadTargetTraps

/-- YIELD and WAITC. -/
def Obligations.YieldAndWait : Prop := Sys2Proof.Claim.YieldQueues ∧ Sys2Proof.Claim.WaitCounters

/-- BRX and JMPT on a free token. -/
def Obligations.Divergence : Prop := Sys2Proof.Claim.BranchDiverges ∧ Sys2Proof.Claim.JumpTable

/-- JOIN, and the two ways it is misused. -/
def Obligations.Joining : Prop := Sys2Proof.Claim.JoinMerges ∧ Sys2Proof.Claim.JoinMisuse

/-- A precise exception enters the handler or ends the task. -/
def Obligations.TrapsTaken : Prop := Sys2Proof.Claim.TrapEntry ∧ Sys2Proof.Claim.FaultEndsTask

/-- RFT, TFENCE and BKPT. -/
def Obligations.TrapsLeft : Prop := Sys2Proof.Claim.TrapReturn ∧ Sys2Proof.Claim.TrapControl

/-- What acceptance of a load, a store or a prefetch leaves. -/
def Obligations.AccessesAccepted : Prop := Sys2Proof.Claim.LoadsAccepted ∧ Sys2Proof.Claim.StoresAccepted ∧ Sys2Proof.Claim.Prefetch

/-- What performing an access leaves. -/
def Obligations.AccessesPerform : Prop := Sys2Proof.Claim.LoadReturns ∧ Sys2Proof.Claim.StoreCaptures ∧ Sys2Proof.Claim.LoadSees

/-- From a lane's index to its physical bytes, and the faults on the way. -/
def Obligations.LanePlaces : Prop := Sys2Proof.Claim.Placement ∧ Sys2Proof.Claim.LaneFaults ∧ Sys2Proof.Claim.Translation

/-- Circular buffers and thread copies. -/
def Obligations.BuffersAndCopies : Prop := Sys2Proof.Claim.CircularBuffers ∧ Sys2Proof.Claim.Copies ∧ Sys2Proof.Claim.CopyMoves

/-- Fences, acquires and barriers. -/
def Obligations.FencesAndBarriers : Prop := Sys2Proof.Claim.Fences ∧ Sys2Proof.Claim.Barriers

/-- Hardware queues and loop nests. -/
def Obligations.QueuesAndLoops : Prop := Sys2Proof.Claim.HardwareQueues ∧ Sys2Proof.Claim.LoopNests

/-- Atomics accepted and performed. -/
def Obligations.Atomics : Prop := Sys2Proof.Claim.AtomicsAccepted ∧ Sys2Proof.Claim.AtomicPerforms

/-- Cell instructions and the cells that loads meet. -/
def Obligations.SporeCells : Prop := Sys2Proof.Claim.CellWrites ∧ Sys2Proof.Claim.CellsOfLoads

/-- Cells triggered and woken, and merges, reductions and summary loads performed. -/
def Obligations.RequestsAtHomes : Prop := Sys2Proof.Claim.CellTriggers ∧ Sys2Proof.Claim.CellWakes ∧ Sys2Proof.Claim.HomeRequests ∧ Sys2Proof.Claim.SummaryReturns

/-- Remote accesses and their faults. -/
def Obligations.RemoteRanks : Prop := Sys2Proof.Claim.RemoteAccesses ∧ Sys2Proof.Claim.RemoteFaults

/-- ENQ and COLL. -/
def Obligations.EnqueueAndCollectives : Prop := Sys2Proof.Claim.EnqStatuses ∧ Sys2Proof.Claim.CollectiveCalls

/-- Groups of ranks, and what the fabric delivers. -/
def Obligations.GroupsOfRanks : Prop := Sys2Proof.Claim.Groups ∧ Sys2Proof.Claim.FabricPackets

/-- The packets a command processor runs. -/
def Obligations.PacketEffects : Prop := Sys2Proof.Claim.ControlPackets ∧ Sys2Proof.Claim.WritePackets

/-- How a queue reads and goes through its packets. -/
def Obligations.PacketMovement : Prop := Sys2Proof.Claim.PacketFlow ∧ Sys2Proof.Claim.PacketReads

/-- What the resident service does when asked. -/
def Obligations.Requests : Prop := Sys2Proof.Claim.QueueRequests ∧ Sys2Proof.Claim.Submission

/-- Tile operations issued. -/
def Obligations.TileEngineOperations : Prop := Sys2Proof.Claim.TileEngines ∧ Sys2Proof.Claim.TileClaims

/-- The copy and control slots. -/
def Obligations.TileCopiesAndControl : Prop := Sys2Proof.Claim.TileCopies ∧ Sys2Proof.Claim.TileControl

/-- What the tile engines compute. -/
def Obligations.EngineEffects : Prop := Sys2Proof.Claim.EngineResults ∧ Sys2Proof.Claim.EngineRows ∧ Sys2Proof.Claim.EngineReads ∧ Sys2Proof.Claim.EngineCopies

/-- Gates arrive, open and return. -/
def Obligations.Gates : Prop := Sys2Proof.Claim.GateArrives ∧ Sys2Proof.Claim.GateOpens ∧ Sys2Proof.Claim.GateReturns

/-- Cushions, and faults of tile code. -/
def Obligations.CushionsAndTileFaults : Prop := Sys2Proof.Claim.Cushions ∧ Sys2Proof.Claim.TileFaults

/-- Tasks placed, ended, saved and restored. -/
def Obligations.TaskLife : Prop := Sys2Proof.Claim.Placing ∧ Sys2Proof.Claim.TasksEnd ∧ Sys2Proof.Claim.Saving ∧ Sys2Proof.Claim.SavedFrame ∧ Sys2Proof.Claim.Restoring

/-- Address spaces, and windows of client memory. -/
def Obligations.SpacesAndWindows : Prop := Sys2Proof.Claim.AddressSpaces ∧ Sys2Proof.Claim.Windows

/-- Service registers and the debugger. -/
def Obligations.RegistersAndDebugging : Prop := Sys2Proof.Claim.ServiceRegisters ∧ Sys2Proof.Claim.Debugging

/-- Power, boot and live servicing. -/
def Obligations.PowerBootServicing : Prop := Sys2Proof.Claim.PowerAndBoot ∧ Sys2Proof.Claim.Servicing

/-- A step runs exec of what the bytes at the agent's place decode to. -/
def Obligations.StepRunsWhatItReads : Prop := Sys2Proof.Claim.StepRunsWave ∧ Sys2Proof.Claim.StepRunsBundle ∧ Sys2Proof.Claim.StepRunsRest
end

