-- ==== Sys2Proof/Laws/Map.lean ====
section
/-! SUPPORT. Laws of the sparse maps: a read after a write, reads elsewhere, and that writes keep the canonical form. -/

namespace Sys2Proof.Machine

variable {α : Type}

/-! ### Reads after inserts and erasures -/

@[simp] theorem kfind_kinsert_self (m : KMap α) (k : Nat) (v : α) : kfind (kinsert m k v) k = some v := by
  induction m with
  | nil => simp [kinsert, kfind]
  | cons p r ih =>
    obtain ⟨a, w⟩ := p
    by_cases h1 : k < a
    · simp [kinsert, h1, kfind]
    · by_cases h2 : a = k
      · simp [kinsert, h2, kfind]
      · simp [kinsert, h1, h2, kfind, ih]

theorem kfind_kinsert_ne (m : KMap α) {k j : Nat} (v : α) (h : j ≠ k) : kfind (kinsert m k v) j = kfind m j := by
  induction m with
  | nil => simp [kinsert, kfind, Ne.symm h]
  | cons p r ih =>
    obtain ⟨a, w⟩ := p
    by_cases h1 : k < a
    · simp [kinsert, h1, kfind, Ne.symm h]
    · by_cases h2 : a = k
      · subst h2; simp [kinsert, kfind, Ne.symm h]
      · simp [kinsert, h1, h2, kfind, ih]

theorem kfind_kinsert (m : KMap α) (k j : Nat) (v : α) : kfind (kinsert m k v) j = if j = k then some v else kfind m j := by
  by_cases h : j = k
  · subst h; simp
  · simp [h, kfind_kinsert_ne m v h]

@[simp] theorem kfind_kerase_self (m : KMap α) (k : Nat) : kfind (kerase m k) k = none := by
  induction m with
  | nil => rfl
  | cons p r ih =>
    obtain ⟨a, w⟩ := p
    by_cases h : a = k
    · simp [kerase, h, ih]
    · simp [kerase, h, kfind, ih]

theorem kfind_kerase_ne (m : KMap α) {k j : Nat} (h : j ≠ k) : kfind (kerase m k) j = kfind m j := by
  induction m with
  | nil => rfl
  | cons p r ih =>
    obtain ⟨a, w⟩ := p
    by_cases h2 : a = k
    · subst h2; simp [kerase, ih, kfind, Ne.symm h]
    · simp [kerase, h2, kfind, ih]

@[simp] theorem kget_kset_self [DecidableEq α] (d : α) (m : KMap α) (k : Nat) (v : α) : kget d (kset d m k v) k = v := by
  unfold kget kset
  split
  · next h => simp [h]
  · simp

theorem kget_kset_ne [DecidableEq α] (d : α) (m : KMap α) {k j : Nat} (v : α) (h : j ≠ k) : kget d (kset d m k v) j = kget d m j := by
  unfold kget kset
  split
  · simp [kfind_kerase_ne m h]
  · simp [kfind_kinsert_ne m v h]

theorem kget_kset [DecidableEq α] (d : α) (m : KMap α) (k j : Nat) (v : α) :
    kget d (kset d m k v) j = if j = k then v else kget d m j := by
  by_cases h : j = k
  · subst h; simp
  · simp [h, kget_kset_ne d m v h]

/-! ### The canonical form -/

/-- Every key lies above a bound, and no entry is the default. -/
def kabove [DecidableEq α] (d : α) (lo : Nat) : KMap α → Prop
  | [] => True
  | (a, v) :: r => lo < a ∧ v ≠ d ∧ kabove d a r

theorem kwf_cons [DecidableEq α] (d : α) (a : Nat) (v : α) (r : KMap α) : kwf d ((a, v) :: r) = true ↔ v ≠ d ∧ kabove d a r := by
  induction r generalizing a v with
  | nil => simp [kwf, kabove]
  | cons p r ih =>
    obtain ⟨b, w⟩ := p
    simp only [kwf, kabove, Bool.and_eq_true, decide_eq_true_eq, ih]
    tauto

theorem kabove_mono [DecidableEq α] (d : α) {lo lo' : Nat} (h : lo' ≤ lo) {m : KMap α} (hm : kabove d lo m) : kabove d lo' m := by
  cases m with
  | nil => trivial
  | cons p r => obtain ⟨a, v⟩ := p; exact ⟨Nat.lt_of_le_of_lt h hm.1, hm.2⟩

theorem kabove_kinsert [DecidableEq α] (d : α) {lo k : Nat} {v : α} {m : KMap α} (hk : lo < k) (hv : v ≠ d) (hm : kabove d lo m) :
    kabove d lo (kinsert m k v) := by
  induction m generalizing lo with
  | nil => exact ⟨hk, hv, trivial⟩
  | cons p r ih =>
    obtain ⟨a, w⟩ := p
    obtain ⟨h1, h2, h3⟩ := hm
    by_cases c1 : k < a
    · simp only [kinsert, c1, if_true]; exact ⟨hk, hv, c1, h2, h3⟩
    · by_cases c2 : a = k
      · subst c2; simp only [kinsert, c1, if_false, if_true]; exact ⟨h1, hv, h3⟩
      · simp only [kinsert, c1, c2, if_false]; exact ⟨h1, h2, ih (by omega) h3⟩

theorem kabove_kerase [DecidableEq α] (d : α) {lo k : Nat} {m : KMap α} (hm : kabove d lo m) : kabove d lo (kerase m k) := by
  induction m generalizing lo with
  | nil => trivial
  | cons p r ih =>
    obtain ⟨a, w⟩ := p
    obtain ⟨h1, h2, h3⟩ := hm
    by_cases c : a = k
    · simp only [kerase, c, if_true]; exact kabove_mono d (by omega) (ih h3)
    · simp only [kerase, c, if_false]; exact ⟨h1, h2, ih h3⟩

/-- Insertion keeps the canonical form. -/
theorem kwf_kinsert [DecidableEq α] (d : α) {m : KMap α} {k : Nat} {v : α} (hv : v ≠ d) (h : kwf d m = true) :
    kwf d (kinsert m k v) = true := by
  cases m with
  | nil => simp [kinsert, kwf, hv]
  | cons p r =>
    obtain ⟨a, w⟩ := p
    obtain ⟨h1, h2⟩ := (kwf_cons d a w r).1 h
    by_cases c1 : k < a
    · simp only [kinsert, c1, if_true]; exact (kwf_cons d _ _ _).2 ⟨hv, c1, h1, h2⟩
    · by_cases c2 : a = k
      · subst c2; simp only [kinsert, c1, if_false, if_true]; exact (kwf_cons d _ _ _).2 ⟨hv, h2⟩
      · simp only [kinsert, c1, c2, if_false]; exact (kwf_cons d _ _ _).2 ⟨h1, kabove_kinsert d (by omega) hv h2⟩

/-- Erasure keeps the canonical form. -/
theorem kwf_kerase [DecidableEq α] (d : α) {m : KMap α} (k : Nat) (h : kwf d m = true) : kwf d (kerase m k) = true := by
  induction m with
  | nil => rfl
  | cons p r ih =>
    obtain ⟨a, w⟩ := p
    obtain ⟨h1, h2⟩ := (kwf_cons d a w r).1 h
    have hr : kwf d r = true := by
      cases r with
      | nil => rfl
      | cons q r => obtain ⟨b, x⟩ := q; exact (kwf_cons d b x r).2 ⟨h2.2.1, h2.2.2⟩
    by_cases c : a = k
    · simpa only [kerase, c, if_true] using ih hr
    · simp only [kerase, c, if_false]; exact (kwf_cons d _ _ _).2 ⟨h1, kabove_kerase d h2⟩

/-- A write keeps the canonical form. -/
theorem kwf_kset [DecidableEq α] (d : α) {m : KMap α} (k : Nat) (v : α) (h : kwf d m = true) : kwf d (kset d m k v) = true := by
  unfold kset
  split
  · exact kwf_kerase d k h
  · next c => exact kwf_kinsert d c h

/-- Dropping entries keeps the canonical form. -/
theorem kabove_filter [DecidableEq α] (d : α) {lo : Nat} {m : KMap α} (p : Nat × α → Bool) (h : kabove d lo m) : kabove d lo (m.filter p) := by
  induction m generalizing lo with
  | nil => trivial
  | cons q r ih =>
    obtain ⟨a, v⟩ := q
    obtain ⟨h1, h2, h3⟩ := h
    by_cases c : p (a, v)
    · simp only [List.filter, c]; exact ⟨h1, h2, ih h3⟩
    · simp only [List.filter, c]; exact kabove_mono d (by omega) (ih h3)

theorem kwf_filter [DecidableEq α] (d : α) {m : KMap α} (p : Nat × α → Bool) (h : kwf d m = true) : kwf d (m.filter p) = true := by
  induction m with
  | nil => rfl
  | cons q r ih =>
    obtain ⟨a, v⟩ := q
    obtain ⟨h1, h2⟩ := (kwf_cons d a v r).1 h
    have hr : kwf d r = true := by
      cases r with
      | nil => rfl
      | cons q r => obtain ⟨b, x⟩ := q; exact (kwf_cons d b x r).2 ⟨h2.2.1, h2.2.2⟩
    by_cases c : p (a, v)
    · simp only [List.filter, c]; exact (kwf_cons d _ _ _).2 ⟨h1, kabove_filter d p h2⟩
    · simpa only [List.filter, c] using ih hr

end Sys2Proof.Machine
end

