-- ==== Sys2Proof/Laws/Lanes.lean ====
section
/-! SUPPORT. What the shared register operations do: lane masks, guards, writes of registers and predicates, raised flags, and
the issuing fragment. -/

namespace Sys2Proof.Machine

/-! ### Masks -/

theorem mem_lanesOf {m : Word} {l : Nat} : l ∈ lanesOf m ↔ l < 32 ∧ m.getLsbD l = true := by
  simp [lanesOf]

theorem getLsbD_lane_bit (l i : Nat) : (1#32 <<< l).getLsbD i = decide (i = l ∧ i < 32) := by
  simp only [BitVec.getLsbD_shiftLeft, BitVec.getLsbD_one]
  rcases Nat.lt_trichotomy i l with h | h | h
  · have : i ≠ l := by omega
    simp [h, this]
  · subst h; simp
  · have h1 : ¬i < l := by omega
    have h2 : i - l ≠ 0 := by omega
    have h3 : i ≠ l := by omega
    simp [h1, h2, h3]

theorem getLsbD_foldl_maskOf (ls : List Nat) (m : Word) (i : Nat) :
    (ls.foldl (fun m l => m ||| (1#32 <<< l)) m).getLsbD i = (m.getLsbD i || decide (i ∈ ls ∧ i < 32)) := by
  induction ls generalizing m with
  | nil => simp
  | cons a r ih =>
    rw [List.foldl_cons, ih, BitVec.getLsbD_or, getLsbD_lane_bit, Bool.or_assoc]
    congr 1
    by_cases h : i = a <;> by_cases h2 : i < 32 <;> simp [h, h2]

theorem getLsbD_maskOf (ls : List Nat) (i : Nat) : (maskOf ls).getLsbD i = decide (i ∈ ls ∧ i < 32) := by
  simp [maskOf, getLsbD_foldl_maskOf]

/-- R19: the lanes that a guard selects. -/
theorem getLsbD_sel (s : State) (w : Wave) (fr : Frag) (g : Guard) (l : Nat) :
    (sel s w fr g).getLsbD l = true ↔ l < 32 ∧ fr.mask.getLsbD l = true ∧ rdP s w 4 g.p l ≠ g.neg := by
  simp only [sel, getLsbD_maskOf, List.mem_filter, mem_lanesOf, bne_iff_ne, decide_eq_true_eq]
  exact ⟨fun h => ⟨h.1.1.1, h.1.1.2, h.1.2⟩, fun h => ⟨⟨⟨h.1, h.2.1⟩, h.2.2⟩, h.1⟩⟩

/-- An OR over a list has a bit where some member has it. -/
theorem getLsbD_foldl_or {α : Type} (f : α → Word) (l : List α) (a : Word) (i : Nat) :
    (l.foldl (fun x y => x ||| f y) a).getLsbD i = true ↔ a.getLsbD i = true ∨ ∃ y ∈ l, (f y).getLsbD i = true := by
  induction l generalizing a with
  | nil => simp
  | cons b r ih => rw [List.foldl_cons, ih]; simp [or_assoc]

/-! ### Registers -/

theorem vkey_inj {f l g m : Nat} (hl : l < 32) (hm : m < 32) : vkey f l = vkey g m ↔ f = g ∧ l = m := by
  simp only [vkey]; omega

theorem kget_foldl_kset {α : Type} [DecidableEq α] (d : α) (key : Nat → Nat) (f : Nat → α) (ls : List Nat) (m : KMap α) (j : Nat)
    (inj : ∀ a ∈ ls, ∀ b ∈ ls, key a = key b → a = b) :
    kget d (ls.foldl (fun r l => kset d r (key l) (f l)) m) j =
      match ls.find? fun l => key l = j with
      | some l => f l
      | none => kget d m j := by
  induction ls generalizing m with
  | nil => rfl
  | cons a r ih =>
    rw [List.foldl_cons, ih _ (fun x hx y hy => inj x (by simp [hx]) y (by simp [hy]))]
    by_cases h : key a = j
    · subst h
      rw [List.find?_cons_of_pos (by simp)]
      cases h2 : r.find? fun l => key l = key a with
      | none => simp [kget_kset_self]
      | some b =>
        have h3 := List.find?_some h2
        have h4 := List.mem_of_find?_eq_some h2
        have : b = a := inj b (by simp [h4]) a (by simp) (by simpa using h3)
        rw [this]
    · rw [List.find?_cons_of_neg (by simpa using h)]
      cases r.find? fun l => key l = j with
      | some b => rfl
      | none => simp [kget_kset_ne d m (f a) (Ne.symm h)]

/-- The lanes of a mask take the values, every other lane of every register stays (R19, R72). -/
theorem vraw_wrV (w : Wave) (d : VOp) (m : Word) (f : Nat → Word) (g l : Nat) (hl : l < 32) :
    (w.wrV d m f).vraw g l = if g = VOp.field d ∧ m.getLsbD l = true then f l else w.vraw g l := by
  unfold Wave.vraw Wave.wrV
  rw [kget_foldl_kset]
  · by_cases h : g = VOp.field d ∧ m.getLsbD l = true
    · obtain ⟨rfl, h2⟩ := h
      have hm : l ∈ lanesOf m := mem_lanesOf.2 ⟨hl, h2⟩
      cases h3 : (lanesOf m).find? fun x => vkey (VOp.field d) x = vkey (VOp.field d) l with
      | none => exact absurd (List.find?_eq_none.1 h3 l hm) (by simp)
      | some x =>
        have h4 := List.find?_some h3
        have h5 := (mem_lanesOf.1 (List.mem_of_find?_eq_some h3)).1
        have : x = l := ((vkey_inj h5 hl).1 (by simpa using h4)).2
        simp [h2, this]
    · rw [if_neg h]
      cases h3 : (lanesOf m).find? fun x => vkey (VOp.field d) x = vkey g l with
      | none => rfl
      | some x =>
        exfalso
        have h4 := List.find?_some h3
        have h5 := mem_lanesOf.1 (List.mem_of_find?_eq_some h3)
        obtain ⟨h6, h7⟩ := (vkey_inj h5.1 hl).1 (by simpa using h4)
        exact h ⟨h6.symm, h7 ▸ h5.2⟩
  · intro a ha b hb h
    exact ((vkey_inj (mem_lanesOf.1 ha).1 (mem_lanesOf.1 hb).1).1 h).2

/-- Scalar `n` takes the value, the others stay. -/
theorem sraw_wrS (w : Wave) (n : Nat) (v : Word) (m : Nat) : (w.wrS n v).sraw m = if m = n then v else w.sraw m := by
  simp only [Wave.sraw, Wave.wrS]
  by_cases h : m = n
  · subst h; simp [kget_kset_self]
  · simp [h, kget_kset_ne _ _ _ h]

/-- A predicate's lanes of a mask take the values; p7 takes none (R52, R106). -/
theorem preds_wrP (w : Wave) (p : Nat) (m : Word) (f : Nat → Bool) (q l : Nat) (hl : l < 32) :
    (kget 0 (w.wrP p m f).preds q).getLsbD l =
      if q = p ∧ p < 7 ∧ m.getLsbD l = true then f l else (kget 0 w.preds q).getLsbD l := by
  unfold Wave.wrP
  by_cases h7 : 7 ≤ p
  · rw [if_pos h7, if_neg (by omega)]
  · rw [if_neg h7]
    by_cases hq : q = p
    · subst hq
      simp only [kget_kset_self, BitVec.getLsbD_or, BitVec.getLsbD_and, BitVec.getLsbD_not, getLsbD_maskOf, List.mem_filter, mem_lanesOf]
      cases hm : m.getLsbD l <;> cases hf : f l <;> simp [hl, hm, hf] <;> omega
    · simp [hq, kget_kset_ne _ _ _ hq]

/-! ### Flags -/

/-- Raising flags changes the pending flags alone. -/
theorem raise_eq (w : Wave) (f : Word) (due : Nat) :
    w.raise f due = { w with flagPend := if f = 0 then w.flagPend else w.flagPend ++ [(f, due)] } := by
  unfold Wave.raise; split <;> rfl

@[simp] theorem vraw_raise (w : Wave) (f : Word) (due g l : Nat) : (w.raise f due).vraw g l = w.vraw g l := by rw [raise_eq]; rfl
@[simp] theorem vraw_mark (w : Wave) (r : RegId) (m : Word) (due g l : Nat) : (w.mark r m due).vraw g l = w.vraw g l := rfl
@[simp] theorem vraw_modFrag (w : Wave) (n : Nat) (f : Frag → Frag) (g l : Nat) : (w.modFrag n f).vraw g l = w.vraw g l := rfl
@[simp] theorem sraw_raise (w : Wave) (f : Word) (due n : Nat) : (w.raise f due).sraw n = w.sraw n := by rw [raise_eq]; rfl
@[simp] theorem sraw_mark (w : Wave) (r : RegId) (m : Word) (due n : Nat) : (w.mark r m due).sraw n = w.sraw n := rfl
@[simp] theorem sraw_modFrag (w : Wave) (m : Nat) (f : Frag → Frag) (n : Nat) : (w.modFrag m f).sraw n = w.sraw n := rfl

/-- R58: raised flags are pending until they land. -/
theorem raise_flags (w : Wave) (f : Word) (due : Nat) : (w.raise f due).flags = w.flags := by
  unfold Wave.raise; split <;> rfl

theorem raise_flagPend (w : Wave) (f : Word) (due : Nat) (p : Word × Nat) (h : p ∈ (w.raise f due).flagPend) :
    p ∈ w.flagPend ∨ p.2 = due := by
  unfold Wave.raise at h
  split at h
  · exact .inl h
  · simp only [List.mem_append, List.mem_singleton] at h
    rcases h with h | h
    · exact .inl h
    · exact .inr (by rw [h])

theorem raise_flagsAll (w : Wave) (f : Word) (due i : Nat) :
    (w.raise f due).flagsAll.getLsbD i = true ↔ w.flagsAll.getLsbD i = true ∨ f.getLsbD i = true := by
  unfold Wave.raise Wave.flagsAll
  split
  · next h => simp [h]
  · simp

/-! ### The issuing fragment -/

/-- The issuing fragment's effect is the next state. -/
theorem onFrag_next {s : State} {k n : Nat} {w : Wave} {fr : Frag} (ha : s.cur.actor = .frag k n) (hw : kfind s.waves k = some w)
    (hf : w.frag n = some fr) (f : Nat → Wave → Frag → State) : onFrag s f = .next (f k w fr) := by
  simp [onFrag, ha, hw, hf]

/-- A meaning over the issuing fragment only ever completes or finds no issuer. -/
theorem onFrag_cases (s : State) (f : Nat → Wave → Frag → State) :
    (∃ k w fr, s.cur.actor = .frag k fr.num ∧ kfind s.waves k = some w ∧ w.frag fr.num = some fr ∧ onFrag s f = .next (f k w fr)) ∨
      onFrag s f = .refused .noIssuer := by
  unfold onFrag
  split
  · next k n h =>
    split
    · next w hw =>
      split
      · next fr hf =>
        have hn : fr.num = n := by simpa [Wave.frag] using List.find?_some hf
        subst hn
        exact .inl ⟨k, w, fr, h, hw, hf, rfl⟩
      · exact .inr rfl
    · exact .inr rfl
  · exact .inr rfl

end Sys2Proof.Machine
end

