-- ==== Sys2Proof/Laws/Agents.lean ====
section
/-! SUPPORT. What a meaning over a tile context, a command processor, the machine's own moves and the service's requests can answer. -/

namespace Sys2Proof.Machine

/-- In a bundle whose acceptance has passed, a slot's effect is the next state. -/
theorem onTile_accepted {s : State} {core n : Nat} {c : TileCtx} (ha : s.cur.actor = .tile core n) (hc : s.ctxAt core n = some c)
    (h : s.cur.accepted = true) (chk : Check) (eff : State → Nat → Nat → TileCtx → State) :
    onTile s chk eff = .next (eff s core n c) := by
  simp [onTile, ha, hc, h]

/-- Else its checks decide: it holds and changes nothing, or faults, or takes effect. -/
theorem onTile_checked {s : State} {core n : Nat} {c : TileCtx} (ha : s.cur.actor = .tile core n) (hc : s.ctxAt core n = some c)
    (h : s.cur.accepted = false) (chk : Check) (eff : State → Nat → Nat → TileCtx → State) :
    onTile s chk eff =
      match chk s core n c with
      | (s', .go) => .next (eff s' core n ((s'.ctxAt core n).getD c))
      | (_, .hold) => .next s
      | (s', .fault e) => .next (s'.tileFault core n c e) := by
  simp only [onTile, ha, hc, h]
  rfl

/-- A slot instruction only ever completes or finds no issuer. -/
theorem onTile_cases (s : State) (chk : Check) (eff : State → Nat → Nat → TileCtx → State) :
    (∃ t, onTile s chk eff = .next t) ∨ onTile s chk eff = .refused .noIssuer := by
  unfold onTile
  split
  · split
    · exact .inr rfl
    · split
      · exact .inl ⟨_, rfl⟩
      · split
        · exact .inl ⟨_, rfl⟩
        · exact .inl ⟨_, rfl⟩
        · exact .inl ⟨_, rfl⟩
  · exact .inr rfl

/-- A packet's effect is the next state of its queue's command processor. -/
theorem onCp_next {s : State} {q : Nat} {l : Level} {r : List Level} (ha : s.cur.actor = .cp q) (hl : (s.queue q).levels = l :: r)
    (f : Nat → Queue → Level → State) : onCp s f = .next (f q (s.queue q) l) := by
  simp [onCp, ha, hl]

theorem onCp_cases (s : State) (f : Nat → Queue → Level → State) :
    (∃ q l r, s.cur.actor = .cp q ∧ (s.queue q).levels = l :: r ∧ onCp s f = .next (f q (s.queue q) l)) ∨ onCp s f = .refused .noIssuer := by
  unfold onCp
  split
  · next q h =>
    split
    · next l r hl => exact .inl ⟨q, l, r, h, hl, rfl⟩
    · exact .inr rfl
  · exact .inr rfl

/-- A move of the machine is made while it runs, and is nothing else. -/
theorem machineMove_on {s : State} (h : s.hub.on = true) (h' : s.hub.frozen = false) (f : State) : machineMove s f = .next f := by
  simp [machineMove, h, h']

theorem machineMove_off {s : State} (h : s.hub.on = false ∨ s.hub.frozen = true) (f : State) : machineMove s f = .next s := by
  rcases h with h | h <;> simp [machineMove, h]

/-- A request is served, held while the service is being replaced, or lost while it does not run. -/
theorem request_serving {s : State} (h : s.serving = true) (h' : s.hub.updating = false) (i : Instr) (f : State) : request i s f = .next f := by
  simp [request, h, h']

theorem request_held {s : State} (h : s.serving = true) (h' : s.hub.updating = true) (i : Instr) (f : State) :
    request i s f = .next { s with hub := { s.hub with held := s.hub.held ++ [i] } } := by
  simp [request, h, h']

theorem request_off {s : State} (h : s.serving = false) (i : Instr) (f : State) : request i s f = .next s := by simp [request, h]

theorem serviceAct_serving {s : State} (h : s.serving = true) (f : State) : serviceAct s f = .next f := by simp [serviceAct, h]
theorem serviceAct_off {s : State} (h : s.serving = false) (f : State) : serviceAct s f = .next s := by simp [serviceAct, h]

end Sys2Proof.Machine
end

