-- ==== Sys2Proof/Laws/Ints.lean ====
section
/-! SUPPORT. Integer elements: numbers in a number of bits, and the elements of a packed result. -/

namespace Sys2Proof.Machine

theorem tyWidth_pos (t : Ty) : 0 < tyWidth t := by cases t <;> decide

theorem tyWidth_le (t : Ty) : tyWidth t ≤ 32 := by cases t <;> decide

theorem wrap_lt (v : Int) (n : Nat) : wrap v n < 2 ^ n := by
  have h : (0 : Int) < ((2 ^ n : Nat) : Int) := by exact_mod_cast Nat.two_pow_pos n
  have h1 := Int.emod_lt_of_pos v h
  have h2 := Int.emod_nonneg v (Int.ne_of_gt h)
  unfold wrap
  omega

/-- A wrapped number is the bit vector of the integer. -/
theorem wrap_eq (v : Int) (n : Nat) : wrap v n = (BitVec.ofInt n v).toNat := by
  unfold wrap
  rw [BitVec.toNat_ofInt]

theorem wrap_toNat {n : Nat} (x : BitVec n) : wrap (x.toNat : Int) n = x.toNat := by
  rw [wrap_eq, BitVec.toNat_ofInt]
  have := x.isLt
  rw [Int.emod_eq_of_lt (by omega) (by exact_mod_cast this)]
  simp

/-- A number modulo 2^n read as signed is the bit vector's integer. -/
theorem signed_eq (x n : Nat) : signed x n = (BitVec.ofNat n x).toInt := by
  unfold signed
  rw [BitVec.toInt_eq_toNat_cond, BitVec.toNat_ofNat]
  rcases n with _ | n
  · simp [Nat.mod_one]
  · have h : 2 ^ (n + 1) = 2 * 2 ^ n := by rw [Nat.pow_succ]; omega
    simp only [ne_eq, Nat.add_eq_zero_iff, Nat.one_ne_zero, and_false, not_false_eq_true, true_and, Nat.add_sub_cancel]
    have hlt : x % 2 ^ (n + 1) < 2 ^ (n + 1) := Nat.mod_lt _ (Nat.two_pow_pos _)
    split <;> split <;> omega

/-- Places of the elements of a packed sum. -/
theorem packed_place (w : Nat) (l : List Int) (k e : Nat) (h : e < l.length) :
    ((l.zipIdx k).map fun p => wrap p.1 w * 2 ^ (w * p.2)).sum / 2 ^ (w * (k + e)) % 2 ^ w = wrap (l.getD e 0) w := by
  induction l generalizing k e with
  | nil => simp at h
  | cons x r ih =>
    have hx := wrap_lt x w
    have hk : 0 < 2 ^ (w * k) := Nat.two_pow_pos _
    have dvd : ∀ (r : List Int) (j : Nat), ∃ c, ((r.zipIdx j).map fun p => wrap p.1 w * 2 ^ (w * p.2)).sum = 2 ^ (w * j) * c := by
      intro r
      induction r with
      | nil => intro j; exact ⟨0, by simp⟩
      | cons y q ihq =>
        intro j
        obtain ⟨c, hc⟩ := ihq (j + 1)
        refine ⟨wrap y w + 2 ^ w * c, ?_⟩
        simp only [List.zipIdx_cons, List.map_cons, List.sum_cons, hc]
        rw [show w * (j + 1) = w * j + w from Nat.mul_succ _ _, Nat.pow_add]
        ring
    simp only [List.zipIdx_cons, List.map_cons, List.sum_cons]
    cases e with
    | zero =>
      obtain ⟨c, hc⟩ := dvd r (k + 1)
      rw [hc, Nat.add_zero, Nat.mul_add w k 1, Nat.pow_add, Nat.mul_one, Nat.mul_assoc, Nat.mul_comm (wrap x w), ← Nat.mul_add,
        Nat.add_zero, Nat.mul_div_cancel_left _ hk, Nat.add_mul_mod_self_left, Nat.mod_eq_of_lt hx]
      rfl
    | succ e =>
      have h2 := ih (k + 1) e (by simpa using h)
      obtain ⟨c, hc⟩ := dvd r (k + 1)
      rw [show k + (e + 1) = k + 1 + e by omega]
      have h3 : (wrap x w * 2 ^ (w * k) + ((r.zipIdx (k + 1)).map fun p => wrap p.1 w * 2 ^ (w * p.2)).sum) / 2 ^ (w * (k + 1 + e)) =
          ((r.zipIdx (k + 1)).map fun p => wrap p.1 w * 2 ^ (w * p.2)).sum / 2 ^ (w * (k + 1 + e)) := by
        rw [hc, show w * (k + 1 + e) = w * (k + 1) + w * e by rw [Nat.mul_add], Nat.pow_add, ← Nat.div_div_eq_div_mul, ← Nat.div_div_eq_div_mul,
          Nat.mul_div_cancel_left _ (Nat.two_pow_pos _), Nat.add_comm, Nat.mul_comm (wrap x w), show w * (k + 1) = w * k + w by rw [Nat.mul_add]; omega,
          Nat.pow_add, Nat.mul_assoc, ← Nat.mul_add, ← Nat.div_div_eq_div_mul, Nat.mul_div_cancel_left _ hk, Nat.add_comm, Nat.add_mul_div_left _ _ (Nat.two_pow_pos _),
          Nat.div_eq_of_lt hx, Nat.zero_add]
      rw [h3, h2]
      rfl

/-- R73: element `e` of a packed result is its number modulo 2^width. -/
theorem extract_put_packed (t : Ty) (l : List Int) (e : Nat) (h : e < l.length) (hw : tyWidth t * (e + 1) ≤ 32) :
    (put t true l).extractLsb' (tyWidth t * e) (tyWidth t) = BitVec.ofInt (tyWidth t) (l.getD e 0) := by
  apply BitVec.eq_of_toNat_eq
  rw [← wrap_eq, BitVec.extractLsb'_toNat]
  have hp := packed_place (tyWidth t) l 0 e h
  simp only [put, if_true, BitVec.toNat_ofNat, Nat.shiftRight_eq_div_pow]
  rw [Nat.zero_add] at hp
  rw [← hp]
  generalize ((l.zipIdx 0).map fun p => wrap p.1 (tyWidth t) * 2 ^ (tyWidth t * p.2)).sum = s
  have h32 : 2 ^ 32 = 2 ^ (tyWidth t * e) * 2 ^ (32 - tyWidth t * e) := by
    rw [← Nat.pow_add]; congr 1
    have : tyWidth t * (e + 1) = tyWidth t * e + tyWidth t := Nat.mul_succ _ _
    omega
  rw [h32, Nat.mod_mul_right_div_self, Nat.mod_mod_of_dvd]
  apply Nat.pow_dvd_pow
  have : tyWidth t * (e + 1) = tyWidth t * e + tyWidth t := Nat.mul_succ _ _
  omega

/-- R66, R73: an unpacked result is its number modulo 2^width, extended by the type's sign. -/
theorem extendTy_eq (t : Ty) (v : Int) (h : tySigned t = true → -(2 ^ (tyWidth t - 1)) ≤ v ∧ v < 2 ^ (tyWidth t - 1)) :
    extendTy t v = if tySigned t then (BitVec.ofInt (tyWidth t) v).signExtend 32 else (BitVec.ofInt (tyWidth t) v).zeroExtend 32 := by
  unfold extendTy
  split
  · next hs =>
    apply BitVec.eq_of_toInt_eq
    rw [BitVec.toInt_signExtend_of_le (tyWidth_le t), BitVec.toInt_ofInt, BitVec.toInt_ofInt]
    obtain ⟨h1, h2⟩ := h hs
    cases t <;> simp [tySigned] at hs <;> simp [tyWidth] at h1 h2 ⊢ <;>
      (rw [Int.bmod_eq_of_le (by omega) (by omega), Int.bmod_eq_of_le (by omega) (by omega)])
  · apply BitVec.eq_of_toNat_eq
    rw [BitVec.toNat_ofNat, wrap_eq, BitVec.toNat_setWidth]

/-- An element as the bit vector of its place. -/
theorem elem_eq (x : Word) (t : Ty) (e : Nat) :
    elem x t e = if tySigned t then (x.extractLsb' (tyWidth t * e) (tyWidth t)).toInt else ((x.extractLsb' (tyWidth t * e) (tyWidth t)).toNat : Int) := by
  unfold elem tyRead
  split
  · rw [signed_eq]; rfl
  · rw [BitVec.extractLsb'_toNat]

theorem ofInt_elem (x : Word) (t : Ty) (e : Nat) : BitVec.ofInt (tyWidth t) (elem x t e) = x.extractLsb' (tyWidth t * e) (tyWidth t) := by
  rw [elem_eq]
  split
  · exact BitVec.ofInt_toInt
  · rw [BitVec.ofInt_natCast, BitVec.ofNat_toNat, BitVec.setWidth_eq]

/-! ### Fit (R73) -/

theorem tyRead_range (t : Ty) (x : Nat) : tyMin t ≤ tyRead t x ∧ tyRead t x ≤ tyMax t := by
  unfold tyRead tyMin tyMax
  split
  · next h =>
    rw [signed_eq]
    have h1 := BitVec.le_toInt (BitVec.ofNat (tyWidth t) x)
    have h2 := BitVec.toInt_lt (x := BitVec.ofNat (tyWidth t) x)
    push_cast
    exact ⟨by linarith, by linarith⟩
  · have h1 : x % 2 ^ tyWidth t < 2 ^ tyWidth t := Nat.mod_lt _ (Nat.two_pow_pos _)
    constructor <;> push_cast <;> omega

/-- What Fit answers lies in the type's range. -/
theorem fit_range (v : Int) (t : Ty) (sat : Bool) : tyMin t ≤ (fit v t sat).1 ∧ (fit v t sat).1 ≤ tyMax t := by
  have hm : tyMin t ≤ tyMax t := (tyRead_range t 0).1.trans (tyRead_range t 0).2
  unfold fit
  split
  · assumption
  · split
    · dsimp only; split <;> constructor <;> omega
    · exact tyRead_range _ _

/-- Without saturation Fit keeps the number modulo 2^width, and raises nothing. -/
theorem ofInt_fit (v : Int) (t : Ty) : BitVec.ofInt (tyWidth t) (fit v t false).1 = BitVec.ofInt (tyWidth t) v := by
  unfold fit
  split
  · rfl
  · simp only [Bool.false_eq_true, if_false]
    unfold tyRead
    rw [wrap_eq]
    split
    · rw [signed_eq, BitVec.ofInt_toInt, BitVec.ofNat_toNat, BitVec.setWidth_eq]
    · rw [Nat.mod_eq_of_lt (BitVec.isLt _), BitVec.ofInt_natCast, BitVec.ofNat_toNat, BitVec.setWidth_eq]

theorem fit_quiet (v : Int) (t : Ty) : (fit v t false).2 = 0 := by
  unfold fit; split <;> simp

/-- With saturation Fit answers the nearest number of the range, and raises SAT where that is another. -/
theorem fit_sat (v : Int) (t : Ty) :
    fit v t true = (max (tyMin t) (min (tyMax t) v), if v < tyMin t ∨ tyMax t < v then fSAT else 0) := by
  have hm : tyMin t ≤ tyMax t := (tyRead_range t 0).1.trans (tyRead_range t 0).2
  unfold fit
  split
  · next h => simp only [Prod.mk.injEq]; exact ⟨by omega, by rw [if_neg (by omega)]⟩
  · next h =>
    simp only [if_true, Prod.mk.injEq]
    refine ⟨?_, by rw [if_pos (by omega)]⟩
    split <;> omega

/-- An element of a number in range is that number. -/
theorem elemInt_ofInt (t : Ty) (v : Int) (h : tyMin t ≤ v ∧ v ≤ tyMax t) :
    (if tySigned t then (BitVec.ofInt (tyWidth t) v).toInt else ((BitVec.ofInt (tyWidth t) v).toNat : Int)) = v := by
  obtain ⟨h1, h2⟩ := h
  unfold tyMin at h1
  unfold tyMax at h2
  split
  · next hs =>
    simp only [hs, if_true] at h1 h2
    rw [BitVec.toInt_ofInt]
    cases t <;> simp [tySigned] at hs <;> simp [tyWidth] at h1 h2 ⊢ <;> rw [Int.bmod_eq_of_le (by omega) (by omega)]
  · next hs =>
    simp only [hs] at h1 h2
    rw [BitVec.toNat_ofInt, Int.emod_eq_of_lt (by simpa using h1) (by push_cast at h2 ⊢; simp at h2; omega)]
    simp at h1
    omega

/-- The signed range in the form in which extension needs it. -/
theorem signed_range {t : Ty} {v : Int} (h : tyMin t ≤ v ∧ v ≤ tyMax t) (hs : tySigned t = true) :
    -(2 ^ (tyWidth t - 1)) ≤ v ∧ v < 2 ^ (tyWidth t - 1) := by
  obtain ⟨h1, h2⟩ := h
  simp only [tyMin, tyMax, hs, if_true] at h1 h2
  push_cast at h1 h2
  exact ⟨h1, by omega⟩

end Sys2Proof.Machine
end

