-- ==== Sys2Proof/Laws/Memory.lean ====
section
/-! SUPPORT. Laws of memory: a read after a write, reads elsewhere, and that memory, the windows' client memory and the views keep their
canonical form. -/

namespace Sys2Proof.Machine

/-! ### One memory -/

theorem kget_write (m : Memory) (a c : Nat) (b : Byte) : kget unlisted (Memory.write m a b) c = if c = a then b else kget unlisted m c :=
  kget_kset unlisted m a c b

theorem Memory.write_wf {m : Memory} (a : Nat) (b : Byte) (h : Memory.wf m = true) : Memory.wf (Memory.write m a b) = true :=
  kwf_kset unlisted a b h

theorem Memory.writes_wf {m : Memory} (bs : List (Nat × Byte)) (h : Memory.wf m = true) : Memory.wf (Memory.writes m bs) = true := by
  unfold Memory.writes
  induction bs generalizing m with
  | nil => exact h
  | cons p r ih => exact ih (Memory.write_wf p.1 p.2 h)

/-- The bytes written at other addresses leave an address as it was. -/
theorem kget_writes_other {m : Memory} (bs : List (Nat × Byte)) {c : Nat} (h : ∀ p ∈ bs, p.1 ≠ c) :
    kget unlisted (Memory.writes m bs) c = kget unlisted m c := by
  unfold Memory.writes
  induction bs generalizing m with
  | nil => rfl
  | cons p r ih =>
    rw [List.foldl_cons, ih fun q hq => h q (List.mem_cons_of_mem _ hq), kget_write, if_neg (Ne.symm (h p List.mem_cons_self))]

/-- The last byte written to an address is the one it reads. -/
theorem kget_writes_last (m : Memory) (l r : List (Nat × Byte)) (a : Nat) (b : Byte) (h : ∀ p ∈ r, p.1 ≠ a) :
    kget unlisted (Memory.writes m (l ++ (a, b) :: r)) a = b := by
  have e : Memory.writes m (l ++ (a, b) :: r) = Memory.writes (Memory.write (Memory.writes m l) a b) r := by
    simp [Memory.writes, List.foldl_append]
  rw [e, kget_writes_other r h, kget_write, if_pos rfl]

theorem reset_mem_wf : Memory.wf State.reset.mem = true := by decide

/-! ### H -/

@[simp] theorem wrH_waves (s : State) (bs : List (Nat × Byte)) (pos : Nat) : (s.wrH bs pos).waves = s.waves := rfl
@[simp] theorem wrH_cores (s : State) (bs : List (Nat × Byte)) (pos : Nat) : (s.wrH bs pos).cores = s.cores := rfl
@[simp] theorem wrH_views (s : State) (bs : List (Nat × Byte)) (pos : Nat) : (s.wrH bs pos).views = s.views := rfl
@[simp] theorem wrH_peers (s : State) (bs : List (Nat × Byte)) (pos : Nat) : (s.wrH bs pos).peers = s.peers := rfl
@[simp] theorem wrH_tasks (s : State) (bs : List (Nat × Byte)) (pos : Nat) : (s.wrH bs pos).tasks = s.tasks := rfl
@[simp] theorem wrH_tags (s : State) (bs : List (Nat × Byte)) (pos : Nat) : (s.wrH bs pos).tags = s.tags := rfl
@[simp] theorem wrH_debugQs (s : State) (bs : List (Nat × Byte)) (pos : Nat) : (s.wrH bs pos).debugQs = s.debugQs := rfl

theorem wrH_wf {s : State} (bs : List (Nat × Byte)) (pos : Nat) (h : Memory.wf s.mem = true ∧ Memory.wf s.client = true) :
    Memory.wf (s.wrH bs pos).mem = true ∧ Memory.wf (s.wrH bs pos).client = true :=
  ⟨Memory.writes_wf _ h.1, Memory.writes_wf _ h.2⟩

/-- A write of H leaves the addresses that it does not name as they were. -/
theorem rdH_wrH_other (s : State) (bs : List (Nat × Byte)) (pos : Nat) {a : Nat} (h : ∀ p ∈ bs, p.1 ≠ a) : (s.wrH bs pos).rdH a = s.rdH a := by
  unfold State.rdH State.wrH
  split
  · exact kget_writes_other _ fun p hp => h p (List.mem_of_mem_filter hp)
  · exact kget_writes_other _ fun p hp => h p (List.mem_of_mem_filter hp)

/-- A byte written last is the home value. -/
theorem rdH_wrH_last (s : State) (l r : List (Nat × Byte)) (pos a : Nat) (b : Byte) (h : ∀ p ∈ r, p.1 ≠ a) :
    (s.wrH (l ++ (a, b) :: r) pos).rdH a = b := by
  unfold State.rdH State.wrH
  by_cases w : isWindow a
  · simp only [w, if_true, List.filter_append, List.filter_cons]
    exact kget_writes_last _ _ _ a b fun p hp => h p (List.mem_of_mem_filter hp)
  · simp only [w, List.filter_append, List.filter_cons, Bool.not_false, if_true, Bool.false_eq_true, if_false]
    exact kget_writes_last _ _ _ a b fun p hp => h p (List.mem_of_mem_filter hp)

/-! ### Views -/

theorem kwf_foldl_kset {α : Type} [DecidableEq α] (d : α) (f : Nat × Byte → Nat) (g : Nat × Byte → α) (bs : List (Nat × Byte)) {m : KMap α}
    (h : kwf d m = true) : kwf d (bs.foldl (fun m p => kset d m (f p) (g p)) m) = true := by
  induction bs generalizing m with
  | nil => exact h
  | cons p r ih => exact ih (kwf_kset d _ _ h)

/-- A view after a write: its own bytes; the other views stay. -/
theorem views_wrView (s : State) (bs : List (Nat × Byte)) (pos v u : Nat) :
    kget [] (s.wrView bs pos v).views u =
      if u = v then bs.foldl (fun m p => kset (unlisted, 0) m p.1 (p.2, pos)) (kget [] s.views v) else kget [] s.views u := by
  simp only [State.wrView, kget_kset]

@[simp] theorem wrView_waves (s : State) (bs : List (Nat × Byte)) (pos v : Nat) : (s.wrView bs pos v).waves = s.waves := rfl
@[simp] theorem wrView_mem (s : State) (bs : List (Nat × Byte)) (pos v : Nat) : (s.wrView bs pos v).mem = s.mem := rfl
@[simp] theorem wrView_client (s : State) (bs : List (Nat × Byte)) (pos v : Nat) : (s.wrView bs pos v).client = s.client := rfl

/-- Writes of views change nothing but the views. -/
theorem wrViews_eq (s : State) (bs : List (Nat × Byte)) (pos : Nat) (vs : List Nat) :
    s.wrViews bs pos vs = { s with views := (s.wrViews bs pos vs).views } := by
  unfold State.wrViews
  induction vs generalizing s with
  | nil => rfl
  | cons v r ih => rw [List.foldl_cons, ih]; rfl

theorem wrViews_rdH (s : State) (bs : List (Nat × Byte)) (pos : Nat) (vs : List Nat) (a : Nat) : (s.wrViews bs pos vs).rdH a = s.rdH a := by
  rw [wrViews_eq]; rfl

theorem wrViews_waves (s : State) (bs : List (Nat × Byte)) (pos : Nat) (vs : List Nat) : (s.wrViews bs pos vs).waves = s.waves := by
  rw [wrViews_eq]

end Sys2Proof.Machine
end

