-- ==== Sys2Proof/Laws/State.lean ====
section
/-! SUPPORT. What each field of the state and of a wave is after each plain update: one lemma for each field and update. -/

namespace Sys2Proof.Machine

/-! ### setCore -/

@[simp] theorem State.setCore_agenda (s : State) (c : Nat) (x : Core) : (s.setCore c x).agenda = s.agenda := rfl
@[simp] theorem State.setCore_ctr (s : State) (c : Nat) (x : Core) : (s.setCore c x).ctr = s.ctr := rfl
@[simp] theorem State.setCore_cycle (s : State) (c : Nat) (x : Core) : (s.setCore c x).cycle = s.cycle := rfl
@[simp] theorem State.setCore_time (s : State) (c : Nat) (x : Core) : (s.setCore c x).time = s.time := rfl
@[simp] theorem State.setCore_posn (s : State) (c : Nat) (x : Core) : (s.setCore c x).posn = s.posn := rfl
@[simp] theorem State.setCore_cur (s : State) (c : Nat) (x : Core) : (s.setCore c x).cur = s.cur := rfl
@[simp] theorem State.setCore_mem (s : State) (c : Nat) (x : Core) : (s.setCore c x).mem = s.mem := rfl
@[simp] theorem State.setCore_memPos (s : State) (c : Nat) (x : Core) : (s.setCore c x).memPos = s.memPos := rfl
@[simp] theorem State.setCore_views (s : State) (c : Nat) (x : Core) : (s.setCore c x).views = s.views := rfl
@[simp] theorem State.setCore_atoms (s : State) (c : Nat) (x : Core) : (s.setCore c x).atoms = s.atoms := rfl
@[simp] theorem State.setCore_stored (s : State) (c : Nat) (x : Core) : (s.setCore c x).stored = s.stored := rfl
@[simp] theorem State.setCore_released (s : State) (c : Nat) (x : Core) : (s.setCore c x).released = s.released := rfl
@[simp] theorem State.setCore_mixed (s : State) (c : Nat) (x : Core) : (s.setCore c x).mixed = s.mixed := rfl
@[simp] theorem State.setCore_client (s : State) (c : Nat) (x : Core) : (s.setCore c x).client = s.client := rfl
@[simp] theorem State.setCore_peers (s : State) (c : Nat) (x : Core) : (s.setCore c x).peers = s.peers := rfl
@[simp] theorem State.setCore_waves (s : State) (c : Nat) (x : Core) : (s.setCore c x).waves = s.waves := rfl
@[simp] theorem State.setCore_cores (s : State) (c : Nat) (x : Core) : (s.setCore c x).cores = kinsert s.cores c x := rfl
@[simp] theorem State.setCore_copies (s : State) (c : Nat) (x : Core) : (s.setCore c x).copies = s.copies := rfl
@[simp] theorem State.setCore_nextCopy (s : State) (c : Nat) (x : Core) : (s.setCore c x).nextCopy = s.nextCopy := rfl
@[simp] theorem State.setCore_barriers (s : State) (c : Nat) (x : Core) : (s.setCore c x).barriers = s.barriers := rfl
@[simp] theorem State.setCore_qwaits (s : State) (c : Nat) (x : Core) : (s.setCore c x).qwaits = s.qwaits := rfl
@[simp] theorem State.setCore_atomQ (s : State) (c : Nat) (x : Core) : (s.setCore c x).atomQ = s.atomQ := rfl
@[simp] theorem State.setCore_tags (s : State) (c : Nat) (x : Core) : (s.setCore c x).tags = s.tags := rfl
@[simp] theorem State.setCore_growth (s : State) (c : Nat) (x : Core) : (s.setCore c x).growth = s.growth := rfl
@[simp] theorem State.setCore_freeWait (s : State) (c : Nat) (x : Core) : (s.setCore c x).freeWait = s.freeWait := rfl
@[simp] theorem State.setCore_evalReqs (s : State) (c : Nat) (x : Core) : (s.setCore c x).evalReqs = s.evalReqs := rfl
@[simp] theorem State.setCore_nextReq (s : State) (c : Nat) (x : Core) : (s.setCore c x).nextReq = s.nextReq := rfl
@[simp] theorem State.setCore_launches (s : State) (c : Nat) (x : Core) : (s.setCore c x).launches = s.launches := rfl
@[simp] theorem State.setCore_nextLaunch (s : State) (c : Nat) (x : Core) : (s.setCore c x).nextLaunch = s.nextLaunch := rfl
@[simp] theorem State.setCore_tasks (s : State) (c : Nat) (x : Core) : (s.setCore c x).tasks = s.tasks := rfl
@[simp] theorem State.setCore_nextTask (s : State) (c : Nat) (x : Core) : (s.setCore c x).nextTask = s.nextTask := rfl
@[simp] theorem State.setCore_queues (s : State) (c : Nat) (x : Core) : (s.setCore c x).queues = s.queues := rfl
@[simp] theorem State.setCore_cpQueue (s : State) (c : Nat) (x : Core) : (s.setCore c x).cpQueue = s.cpQueue := rfl
@[simp] theorem State.setCore_procs (s : State) (c : Nat) (x : Core) : (s.setCore c x).procs = s.procs := rfl
@[simp] theorem State.setCore_asids (s : State) (c : Nat) (x : Core) : (s.setCore c x).asids = s.asids := rfl
@[simp] theorem State.setCore_tlb (s : State) (c : Nat) (x : Core) : (s.setCore c x).tlb = s.tlb := rfl
@[simp] theorem State.setCore_invals (s : State) (c : Nat) (x : Core) : (s.setCore c x).invals = s.invals := rfl
@[simp] theorem State.setCore_nextInval (s : State) (c : Nat) (x : Core) : (s.setCore c x).nextInval = s.nextInval := rfl
@[simp] theorem State.setCore_counters (s : State) (c : Nat) (x : Core) : (s.setCore c x).counters = s.counters := rfl
@[simp] theorem State.setCore_l2 (s : State) (c : Nat) (x : Core) : (s.setCore c x).l2 = s.l2 := rfl
@[simp] theorem State.setCore_watchH (s : State) (c : Nat) (x : Core) : (s.setCore c x).watchH = s.watchH := rfl
@[simp] theorem State.setCore_debugQs (s : State) (c : Nat) (x : Core) : (s.setCore c x).debugQs = s.debugQs := rfl
@[simp] theorem State.setCore_windows (s : State) (c : Nat) (x : Core) : (s.setCore c x).windows = s.windows := rfl
@[simp] theorem State.setCore_groups (s : State) (c : Nat) (x : Core) : (s.setCore c x).groups = s.groups := rfl
@[simp] theorem State.setCore_cushions (s : State) (c : Nat) (x : Core) : (s.setCore c x).cushions = s.cushions := rfl
@[simp] theorem State.setCore_hub (s : State) (c : Nat) (x : Core) : (s.setCore c x).hub = s.hub := rfl

/-! ### setWave -/

@[simp] theorem State.setWave_agenda (s : State) (k : Nat) (w : Wave) : (s.setWave k w).agenda = s.agenda := rfl
@[simp] theorem State.setWave_ctr (s : State) (k : Nat) (w : Wave) : (s.setWave k w).ctr = s.ctr := rfl
@[simp] theorem State.setWave_cycle (s : State) (k : Nat) (w : Wave) : (s.setWave k w).cycle = s.cycle := rfl
@[simp] theorem State.setWave_time (s : State) (k : Nat) (w : Wave) : (s.setWave k w).time = s.time := rfl
@[simp] theorem State.setWave_posn (s : State) (k : Nat) (w : Wave) : (s.setWave k w).posn = s.posn := rfl
@[simp] theorem State.setWave_cur (s : State) (k : Nat) (w : Wave) : (s.setWave k w).cur = s.cur := rfl
@[simp] theorem State.setWave_mem (s : State) (k : Nat) (w : Wave) : (s.setWave k w).mem = s.mem := rfl
@[simp] theorem State.setWave_memPos (s : State) (k : Nat) (w : Wave) : (s.setWave k w).memPos = s.memPos := rfl
@[simp] theorem State.setWave_views (s : State) (k : Nat) (w : Wave) : (s.setWave k w).views = s.views := rfl
@[simp] theorem State.setWave_atoms (s : State) (k : Nat) (w : Wave) : (s.setWave k w).atoms = s.atoms := rfl
@[simp] theorem State.setWave_stored (s : State) (k : Nat) (w : Wave) : (s.setWave k w).stored = s.stored := rfl
@[simp] theorem State.setWave_released (s : State) (k : Nat) (w : Wave) : (s.setWave k w).released = s.released := rfl
@[simp] theorem State.setWave_mixed (s : State) (k : Nat) (w : Wave) : (s.setWave k w).mixed = s.mixed := rfl
@[simp] theorem State.setWave_client (s : State) (k : Nat) (w : Wave) : (s.setWave k w).client = s.client := rfl
@[simp] theorem State.setWave_peers (s : State) (k : Nat) (w : Wave) : (s.setWave k w).peers = s.peers := rfl
@[simp] theorem State.setWave_waves (s : State) (k : Nat) (w : Wave) : (s.setWave k w).waves = kinsert s.waves k w := rfl
@[simp] theorem State.setWave_cores (s : State) (k : Nat) (w : Wave) : (s.setWave k w).cores = s.cores := rfl
@[simp] theorem State.setWave_copies (s : State) (k : Nat) (w : Wave) : (s.setWave k w).copies = s.copies := rfl
@[simp] theorem State.setWave_nextCopy (s : State) (k : Nat) (w : Wave) : (s.setWave k w).nextCopy = s.nextCopy := rfl
@[simp] theorem State.setWave_barriers (s : State) (k : Nat) (w : Wave) : (s.setWave k w).barriers = s.barriers := rfl
@[simp] theorem State.setWave_qwaits (s : State) (k : Nat) (w : Wave) : (s.setWave k w).qwaits = s.qwaits := rfl
@[simp] theorem State.setWave_atomQ (s : State) (k : Nat) (w : Wave) : (s.setWave k w).atomQ = s.atomQ := rfl
@[simp] theorem State.setWave_tags (s : State) (k : Nat) (w : Wave) : (s.setWave k w).tags = s.tags := rfl
@[simp] theorem State.setWave_growth (s : State) (k : Nat) (w : Wave) : (s.setWave k w).growth = s.growth := rfl
@[simp] theorem State.setWave_freeWait (s : State) (k : Nat) (w : Wave) : (s.setWave k w).freeWait = s.freeWait := rfl
@[simp] theorem State.setWave_evalReqs (s : State) (k : Nat) (w : Wave) : (s.setWave k w).evalReqs = s.evalReqs := rfl
@[simp] theorem State.setWave_nextReq (s : State) (k : Nat) (w : Wave) : (s.setWave k w).nextReq = s.nextReq := rfl
@[simp] theorem State.setWave_launches (s : State) (k : Nat) (w : Wave) : (s.setWave k w).launches = s.launches := rfl
@[simp] theorem State.setWave_nextLaunch (s : State) (k : Nat) (w : Wave) : (s.setWave k w).nextLaunch = s.nextLaunch := rfl
@[simp] theorem State.setWave_tasks (s : State) (k : Nat) (w : Wave) : (s.setWave k w).tasks = s.tasks := rfl
@[simp] theorem State.setWave_nextTask (s : State) (k : Nat) (w : Wave) : (s.setWave k w).nextTask = s.nextTask := rfl
@[simp] theorem State.setWave_queues (s : State) (k : Nat) (w : Wave) : (s.setWave k w).queues = s.queues := rfl
@[simp] theorem State.setWave_cpQueue (s : State) (k : Nat) (w : Wave) : (s.setWave k w).cpQueue = s.cpQueue := rfl
@[simp] theorem State.setWave_procs (s : State) (k : Nat) (w : Wave) : (s.setWave k w).procs = s.procs := rfl
@[simp] theorem State.setWave_asids (s : State) (k : Nat) (w : Wave) : (s.setWave k w).asids = s.asids := rfl
@[simp] theorem State.setWave_tlb (s : State) (k : Nat) (w : Wave) : (s.setWave k w).tlb = s.tlb := rfl
@[simp] theorem State.setWave_invals (s : State) (k : Nat) (w : Wave) : (s.setWave k w).invals = s.invals := rfl
@[simp] theorem State.setWave_nextInval (s : State) (k : Nat) (w : Wave) : (s.setWave k w).nextInval = s.nextInval := rfl
@[simp] theorem State.setWave_counters (s : State) (k : Nat) (w : Wave) : (s.setWave k w).counters = s.counters := rfl
@[simp] theorem State.setWave_l2 (s : State) (k : Nat) (w : Wave) : (s.setWave k w).l2 = s.l2 := rfl
@[simp] theorem State.setWave_watchH (s : State) (k : Nat) (w : Wave) : (s.setWave k w).watchH = s.watchH := rfl
@[simp] theorem State.setWave_debugQs (s : State) (k : Nat) (w : Wave) : (s.setWave k w).debugQs = s.debugQs := rfl
@[simp] theorem State.setWave_windows (s : State) (k : Nat) (w : Wave) : (s.setWave k w).windows = s.windows := rfl
@[simp] theorem State.setWave_groups (s : State) (k : Nat) (w : Wave) : (s.setWave k w).groups = s.groups := rfl
@[simp] theorem State.setWave_cushions (s : State) (k : Nat) (w : Wave) : (s.setWave k w).cushions = s.cushions := rfl
@[simp] theorem State.setWave_hub (s : State) (k : Nat) (w : Wave) : (s.setWave k w).hub = s.hub := rfl

/-! ### setTask -/

@[simp] theorem State.setTask_agenda (s : State) (t : Nat) (x : Task) : (s.setTask t x).agenda = s.agenda := rfl
@[simp] theorem State.setTask_ctr (s : State) (t : Nat) (x : Task) : (s.setTask t x).ctr = s.ctr := rfl
@[simp] theorem State.setTask_cycle (s : State) (t : Nat) (x : Task) : (s.setTask t x).cycle = s.cycle := rfl
@[simp] theorem State.setTask_time (s : State) (t : Nat) (x : Task) : (s.setTask t x).time = s.time := rfl
@[simp] theorem State.setTask_posn (s : State) (t : Nat) (x : Task) : (s.setTask t x).posn = s.posn := rfl
@[simp] theorem State.setTask_cur (s : State) (t : Nat) (x : Task) : (s.setTask t x).cur = s.cur := rfl
@[simp] theorem State.setTask_mem (s : State) (t : Nat) (x : Task) : (s.setTask t x).mem = s.mem := rfl
@[simp] theorem State.setTask_memPos (s : State) (t : Nat) (x : Task) : (s.setTask t x).memPos = s.memPos := rfl
@[simp] theorem State.setTask_views (s : State) (t : Nat) (x : Task) : (s.setTask t x).views = s.views := rfl
@[simp] theorem State.setTask_atoms (s : State) (t : Nat) (x : Task) : (s.setTask t x).atoms = s.atoms := rfl
@[simp] theorem State.setTask_stored (s : State) (t : Nat) (x : Task) : (s.setTask t x).stored = s.stored := rfl
@[simp] theorem State.setTask_released (s : State) (t : Nat) (x : Task) : (s.setTask t x).released = s.released := rfl
@[simp] theorem State.setTask_mixed (s : State) (t : Nat) (x : Task) : (s.setTask t x).mixed = s.mixed := rfl
@[simp] theorem State.setTask_client (s : State) (t : Nat) (x : Task) : (s.setTask t x).client = s.client := rfl
@[simp] theorem State.setTask_peers (s : State) (t : Nat) (x : Task) : (s.setTask t x).peers = s.peers := rfl
@[simp] theorem State.setTask_waves (s : State) (t : Nat) (x : Task) : (s.setTask t x).waves = s.waves := rfl
@[simp] theorem State.setTask_cores (s : State) (t : Nat) (x : Task) : (s.setTask t x).cores = s.cores := rfl
@[simp] theorem State.setTask_copies (s : State) (t : Nat) (x : Task) : (s.setTask t x).copies = s.copies := rfl
@[simp] theorem State.setTask_nextCopy (s : State) (t : Nat) (x : Task) : (s.setTask t x).nextCopy = s.nextCopy := rfl
@[simp] theorem State.setTask_barriers (s : State) (t : Nat) (x : Task) : (s.setTask t x).barriers = s.barriers := rfl
@[simp] theorem State.setTask_qwaits (s : State) (t : Nat) (x : Task) : (s.setTask t x).qwaits = s.qwaits := rfl
@[simp] theorem State.setTask_atomQ (s : State) (t : Nat) (x : Task) : (s.setTask t x).atomQ = s.atomQ := rfl
@[simp] theorem State.setTask_tags (s : State) (t : Nat) (x : Task) : (s.setTask t x).tags = s.tags := rfl
@[simp] theorem State.setTask_growth (s : State) (t : Nat) (x : Task) : (s.setTask t x).growth = s.growth := rfl
@[simp] theorem State.setTask_freeWait (s : State) (t : Nat) (x : Task) : (s.setTask t x).freeWait = s.freeWait := rfl
@[simp] theorem State.setTask_evalReqs (s : State) (t : Nat) (x : Task) : (s.setTask t x).evalReqs = s.evalReqs := rfl
@[simp] theorem State.setTask_nextReq (s : State) (t : Nat) (x : Task) : (s.setTask t x).nextReq = s.nextReq := rfl
@[simp] theorem State.setTask_launches (s : State) (t : Nat) (x : Task) : (s.setTask t x).launches = s.launches := rfl
@[simp] theorem State.setTask_nextLaunch (s : State) (t : Nat) (x : Task) : (s.setTask t x).nextLaunch = s.nextLaunch := rfl
@[simp] theorem State.setTask_tasks (s : State) (t : Nat) (x : Task) : (s.setTask t x).tasks = kinsert s.tasks t x := rfl
@[simp] theorem State.setTask_nextTask (s : State) (t : Nat) (x : Task) : (s.setTask t x).nextTask = s.nextTask := rfl
@[simp] theorem State.setTask_queues (s : State) (t : Nat) (x : Task) : (s.setTask t x).queues = s.queues := rfl
@[simp] theorem State.setTask_cpQueue (s : State) (t : Nat) (x : Task) : (s.setTask t x).cpQueue = s.cpQueue := rfl
@[simp] theorem State.setTask_procs (s : State) (t : Nat) (x : Task) : (s.setTask t x).procs = s.procs := rfl
@[simp] theorem State.setTask_asids (s : State) (t : Nat) (x : Task) : (s.setTask t x).asids = s.asids := rfl
@[simp] theorem State.setTask_tlb (s : State) (t : Nat) (x : Task) : (s.setTask t x).tlb = s.tlb := rfl
@[simp] theorem State.setTask_invals (s : State) (t : Nat) (x : Task) : (s.setTask t x).invals = s.invals := rfl
@[simp] theorem State.setTask_nextInval (s : State) (t : Nat) (x : Task) : (s.setTask t x).nextInval = s.nextInval := rfl
@[simp] theorem State.setTask_counters (s : State) (t : Nat) (x : Task) : (s.setTask t x).counters = s.counters := rfl
@[simp] theorem State.setTask_l2 (s : State) (t : Nat) (x : Task) : (s.setTask t x).l2 = s.l2 := rfl
@[simp] theorem State.setTask_watchH (s : State) (t : Nat) (x : Task) : (s.setTask t x).watchH = s.watchH := rfl
@[simp] theorem State.setTask_debugQs (s : State) (t : Nat) (x : Task) : (s.setTask t x).debugQs = s.debugQs := rfl
@[simp] theorem State.setTask_windows (s : State) (t : Nat) (x : Task) : (s.setTask t x).windows = s.windows := rfl
@[simp] theorem State.setTask_groups (s : State) (t : Nat) (x : Task) : (s.setTask t x).groups = s.groups := rfl
@[simp] theorem State.setTask_cushions (s : State) (t : Nat) (x : Task) : (s.setTask t x).cushions = s.cushions := rfl
@[simp] theorem State.setTask_hub (s : State) (t : Nat) (x : Task) : (s.setTask t x).hub = s.hub := rfl

/-! ### setQueue -/

@[simp] theorem State.setQueue_agenda (s : State) (q : Nat) (x : Queue) : (s.setQueue q x).agenda = s.agenda := rfl
@[simp] theorem State.setQueue_ctr (s : State) (q : Nat) (x : Queue) : (s.setQueue q x).ctr = s.ctr := rfl
@[simp] theorem State.setQueue_cycle (s : State) (q : Nat) (x : Queue) : (s.setQueue q x).cycle = s.cycle := rfl
@[simp] theorem State.setQueue_time (s : State) (q : Nat) (x : Queue) : (s.setQueue q x).time = s.time := rfl
@[simp] theorem State.setQueue_posn (s : State) (q : Nat) (x : Queue) : (s.setQueue q x).posn = s.posn := rfl
@[simp] theorem State.setQueue_cur (s : State) (q : Nat) (x : Queue) : (s.setQueue q x).cur = s.cur := rfl
@[simp] theorem State.setQueue_mem (s : State) (q : Nat) (x : Queue) : (s.setQueue q x).mem = s.mem := rfl
@[simp] theorem State.setQueue_memPos (s : State) (q : Nat) (x : Queue) : (s.setQueue q x).memPos = s.memPos := rfl
@[simp] theorem State.setQueue_views (s : State) (q : Nat) (x : Queue) : (s.setQueue q x).views = s.views := rfl
@[simp] theorem State.setQueue_atoms (s : State) (q : Nat) (x : Queue) : (s.setQueue q x).atoms = s.atoms := rfl
@[simp] theorem State.setQueue_stored (s : State) (q : Nat) (x : Queue) : (s.setQueue q x).stored = s.stored := rfl
@[simp] theorem State.setQueue_released (s : State) (q : Nat) (x : Queue) : (s.setQueue q x).released = s.released := rfl
@[simp] theorem State.setQueue_mixed (s : State) (q : Nat) (x : Queue) : (s.setQueue q x).mixed = s.mixed := rfl
@[simp] theorem State.setQueue_client (s : State) (q : Nat) (x : Queue) : (s.setQueue q x).client = s.client := rfl
@[simp] theorem State.setQueue_peers (s : State) (q : Nat) (x : Queue) : (s.setQueue q x).peers = s.peers := rfl
@[simp] theorem State.setQueue_waves (s : State) (q : Nat) (x : Queue) : (s.setQueue q x).waves = s.waves := rfl
@[simp] theorem State.setQueue_cores (s : State) (q : Nat) (x : Queue) : (s.setQueue q x).cores = s.cores := rfl
@[simp] theorem State.setQueue_copies (s : State) (q : Nat) (x : Queue) : (s.setQueue q x).copies = s.copies := rfl
@[simp] theorem State.setQueue_nextCopy (s : State) (q : Nat) (x : Queue) : (s.setQueue q x).nextCopy = s.nextCopy := rfl
@[simp] theorem State.setQueue_barriers (s : State) (q : Nat) (x : Queue) : (s.setQueue q x).barriers = s.barriers := rfl
@[simp] theorem State.setQueue_qwaits (s : State) (q : Nat) (x : Queue) : (s.setQueue q x).qwaits = s.qwaits := rfl
@[simp] theorem State.setQueue_atomQ (s : State) (q : Nat) (x : Queue) : (s.setQueue q x).atomQ = s.atomQ := rfl
@[simp] theorem State.setQueue_tags (s : State) (q : Nat) (x : Queue) : (s.setQueue q x).tags = s.tags := rfl
@[simp] theorem State.setQueue_growth (s : State) (q : Nat) (x : Queue) : (s.setQueue q x).growth = s.growth := rfl
@[simp] theorem State.setQueue_freeWait (s : State) (q : Nat) (x : Queue) : (s.setQueue q x).freeWait = s.freeWait := rfl
@[simp] theorem State.setQueue_evalReqs (s : State) (q : Nat) (x : Queue) : (s.setQueue q x).evalReqs = s.evalReqs := rfl
@[simp] theorem State.setQueue_nextReq (s : State) (q : Nat) (x : Queue) : (s.setQueue q x).nextReq = s.nextReq := rfl
@[simp] theorem State.setQueue_launches (s : State) (q : Nat) (x : Queue) : (s.setQueue q x).launches = s.launches := rfl
@[simp] theorem State.setQueue_nextLaunch (s : State) (q : Nat) (x : Queue) : (s.setQueue q x).nextLaunch = s.nextLaunch := rfl
@[simp] theorem State.setQueue_tasks (s : State) (q : Nat) (x : Queue) : (s.setQueue q x).tasks = s.tasks := rfl
@[simp] theorem State.setQueue_nextTask (s : State) (q : Nat) (x : Queue) : (s.setQueue q x).nextTask = s.nextTask := rfl
@[simp] theorem State.setQueue_queues (s : State) (q : Nat) (x : Queue) : (s.setQueue q x).queues = kinsert s.queues q x := rfl
@[simp] theorem State.setQueue_cpQueue (s : State) (q : Nat) (x : Queue) : (s.setQueue q x).cpQueue = s.cpQueue := rfl
@[simp] theorem State.setQueue_procs (s : State) (q : Nat) (x : Queue) : (s.setQueue q x).procs = s.procs := rfl
@[simp] theorem State.setQueue_asids (s : State) (q : Nat) (x : Queue) : (s.setQueue q x).asids = s.asids := rfl
@[simp] theorem State.setQueue_tlb (s : State) (q : Nat) (x : Queue) : (s.setQueue q x).tlb = s.tlb := rfl
@[simp] theorem State.setQueue_invals (s : State) (q : Nat) (x : Queue) : (s.setQueue q x).invals = s.invals := rfl
@[simp] theorem State.setQueue_nextInval (s : State) (q : Nat) (x : Queue) : (s.setQueue q x).nextInval = s.nextInval := rfl
@[simp] theorem State.setQueue_counters (s : State) (q : Nat) (x : Queue) : (s.setQueue q x).counters = s.counters := rfl
@[simp] theorem State.setQueue_l2 (s : State) (q : Nat) (x : Queue) : (s.setQueue q x).l2 = s.l2 := rfl
@[simp] theorem State.setQueue_watchH (s : State) (q : Nat) (x : Queue) : (s.setQueue q x).watchH = s.watchH := rfl
@[simp] theorem State.setQueue_debugQs (s : State) (q : Nat) (x : Queue) : (s.setQueue q x).debugQs = s.debugQs := rfl
@[simp] theorem State.setQueue_windows (s : State) (q : Nat) (x : Queue) : (s.setQueue q x).windows = s.windows := rfl
@[simp] theorem State.setQueue_groups (s : State) (q : Nat) (x : Queue) : (s.setQueue q x).groups = s.groups := rfl
@[simp] theorem State.setQueue_cushions (s : State) (q : Nat) (x : Queue) : (s.setQueue q x).cushions = s.cushions := rfl
@[simp] theorem State.setQueue_hub (s : State) (q : Nat) (x : Queue) : (s.setQueue q x).hub = s.hub := rfl

/-! ### setLaunch -/

@[simp] theorem State.setLaunch_agenda (s : State) (l : Nat) (x : Launch) : (s.setLaunch l x).agenda = s.agenda := rfl
@[simp] theorem State.setLaunch_ctr (s : State) (l : Nat) (x : Launch) : (s.setLaunch l x).ctr = s.ctr := rfl
@[simp] theorem State.setLaunch_cycle (s : State) (l : Nat) (x : Launch) : (s.setLaunch l x).cycle = s.cycle := rfl
@[simp] theorem State.setLaunch_time (s : State) (l : Nat) (x : Launch) : (s.setLaunch l x).time = s.time := rfl
@[simp] theorem State.setLaunch_posn (s : State) (l : Nat) (x : Launch) : (s.setLaunch l x).posn = s.posn := rfl
@[simp] theorem State.setLaunch_cur (s : State) (l : Nat) (x : Launch) : (s.setLaunch l x).cur = s.cur := rfl
@[simp] theorem State.setLaunch_mem (s : State) (l : Nat) (x : Launch) : (s.setLaunch l x).mem = s.mem := rfl
@[simp] theorem State.setLaunch_memPos (s : State) (l : Nat) (x : Launch) : (s.setLaunch l x).memPos = s.memPos := rfl
@[simp] theorem State.setLaunch_views (s : State) (l : Nat) (x : Launch) : (s.setLaunch l x).views = s.views := rfl
@[simp] theorem State.setLaunch_atoms (s : State) (l : Nat) (x : Launch) : (s.setLaunch l x).atoms = s.atoms := rfl
@[simp] theorem State.setLaunch_stored (s : State) (l : Nat) (x : Launch) : (s.setLaunch l x).stored = s.stored := rfl
@[simp] theorem State.setLaunch_released (s : State) (l : Nat) (x : Launch) : (s.setLaunch l x).released = s.released := rfl
@[simp] theorem State.setLaunch_mixed (s : State) (l : Nat) (x : Launch) : (s.setLaunch l x).mixed = s.mixed := rfl
@[simp] theorem State.setLaunch_client (s : State) (l : Nat) (x : Launch) : (s.setLaunch l x).client = s.client := rfl
@[simp] theorem State.setLaunch_peers (s : State) (l : Nat) (x : Launch) : (s.setLaunch l x).peers = s.peers := rfl
@[simp] theorem State.setLaunch_waves (s : State) (l : Nat) (x : Launch) : (s.setLaunch l x).waves = s.waves := rfl
@[simp] theorem State.setLaunch_cores (s : State) (l : Nat) (x : Launch) : (s.setLaunch l x).cores = s.cores := rfl
@[simp] theorem State.setLaunch_copies (s : State) (l : Nat) (x : Launch) : (s.setLaunch l x).copies = s.copies := rfl
@[simp] theorem State.setLaunch_nextCopy (s : State) (l : Nat) (x : Launch) : (s.setLaunch l x).nextCopy = s.nextCopy := rfl
@[simp] theorem State.setLaunch_barriers (s : State) (l : Nat) (x : Launch) : (s.setLaunch l x).barriers = s.barriers := rfl
@[simp] theorem State.setLaunch_qwaits (s : State) (l : Nat) (x : Launch) : (s.setLaunch l x).qwaits = s.qwaits := rfl
@[simp] theorem State.setLaunch_atomQ (s : State) (l : Nat) (x : Launch) : (s.setLaunch l x).atomQ = s.atomQ := rfl
@[simp] theorem State.setLaunch_tags (s : State) (l : Nat) (x : Launch) : (s.setLaunch l x).tags = s.tags := rfl
@[simp] theorem State.setLaunch_growth (s : State) (l : Nat) (x : Launch) : (s.setLaunch l x).growth = s.growth := rfl
@[simp] theorem State.setLaunch_freeWait (s : State) (l : Nat) (x : Launch) : (s.setLaunch l x).freeWait = s.freeWait := rfl
@[simp] theorem State.setLaunch_evalReqs (s : State) (l : Nat) (x : Launch) : (s.setLaunch l x).evalReqs = s.evalReqs := rfl
@[simp] theorem State.setLaunch_nextReq (s : State) (l : Nat) (x : Launch) : (s.setLaunch l x).nextReq = s.nextReq := rfl
@[simp] theorem State.setLaunch_launches (s : State) (l : Nat) (x : Launch) : (s.setLaunch l x).launches = kinsert s.launches l x := rfl
@[simp] theorem State.setLaunch_nextLaunch (s : State) (l : Nat) (x : Launch) : (s.setLaunch l x).nextLaunch = s.nextLaunch := rfl
@[simp] theorem State.setLaunch_tasks (s : State) (l : Nat) (x : Launch) : (s.setLaunch l x).tasks = s.tasks := rfl
@[simp] theorem State.setLaunch_nextTask (s : State) (l : Nat) (x : Launch) : (s.setLaunch l x).nextTask = s.nextTask := rfl
@[simp] theorem State.setLaunch_queues (s : State) (l : Nat) (x : Launch) : (s.setLaunch l x).queues = s.queues := rfl
@[simp] theorem State.setLaunch_cpQueue (s : State) (l : Nat) (x : Launch) : (s.setLaunch l x).cpQueue = s.cpQueue := rfl
@[simp] theorem State.setLaunch_procs (s : State) (l : Nat) (x : Launch) : (s.setLaunch l x).procs = s.procs := rfl
@[simp] theorem State.setLaunch_asids (s : State) (l : Nat) (x : Launch) : (s.setLaunch l x).asids = s.asids := rfl
@[simp] theorem State.setLaunch_tlb (s : State) (l : Nat) (x : Launch) : (s.setLaunch l x).tlb = s.tlb := rfl
@[simp] theorem State.setLaunch_invals (s : State) (l : Nat) (x : Launch) : (s.setLaunch l x).invals = s.invals := rfl
@[simp] theorem State.setLaunch_nextInval (s : State) (l : Nat) (x : Launch) : (s.setLaunch l x).nextInval = s.nextInval := rfl
@[simp] theorem State.setLaunch_counters (s : State) (l : Nat) (x : Launch) : (s.setLaunch l x).counters = s.counters := rfl
@[simp] theorem State.setLaunch_l2 (s : State) (l : Nat) (x : Launch) : (s.setLaunch l x).l2 = s.l2 := rfl
@[simp] theorem State.setLaunch_watchH (s : State) (l : Nat) (x : Launch) : (s.setLaunch l x).watchH = s.watchH := rfl
@[simp] theorem State.setLaunch_debugQs (s : State) (l : Nat) (x : Launch) : (s.setLaunch l x).debugQs = s.debugQs := rfl
@[simp] theorem State.setLaunch_windows (s : State) (l : Nat) (x : Launch) : (s.setLaunch l x).windows = s.windows := rfl
@[simp] theorem State.setLaunch_groups (s : State) (l : Nat) (x : Launch) : (s.setLaunch l x).groups = s.groups := rfl
@[simp] theorem State.setLaunch_cushions (s : State) (l : Nat) (x : Launch) : (s.setLaunch l x).cushions = s.cushions := rfl
@[simp] theorem State.setLaunch_hub (s : State) (l : Nat) (x : Launch) : (s.setLaunch l x).hub = s.hub := rfl

/-! ### Wave.setFrag -/

@[simp] theorem Wave.setFrag_task (w : Wave) (f : Frag) : (w.setFrag f).task = w.task := rfl
@[simp] theorem Wave.setFrag_blk (w : Wave) (f : Frag) : (w.setFrag f).blk = w.blk := rfl
@[simp] theorem Wave.setFrag_idx (w : Wave) (f : Frag) : (w.setFrag f).idx = w.idx := rfl
@[simp] theorem Wave.setFrag_core (w : Wave) (f : Frag) : (w.setFrag f).core = w.core := rfl
@[simp] theorem Wave.setFrag_part (w : Wave) (f : Frag) : (w.setFrag f).part = w.part := rfl
@[simp] theorem Wave.setFrag_alloc (w : Wave) (f : Frag) : (w.setFrag f).alloc = w.alloc := rfl
@[simp] theorem Wave.setFrag_vreg (w : Wave) (f : Frag) : (w.setFrag f).vreg = w.vreg := rfl
@[simp] theorem Wave.setFrag_preds (w : Wave) (f : Frag) : (w.setFrag f).preds = w.preds := rfl
@[simp] theorem Wave.setFrag_sreg (w : Wave) (f : Frag) : (w.setFrag f).sreg = w.sreg := rfl
@[simp] theorem Wave.setFrag_cond (w : Wave) (f : Frag) : (w.setFrag f).cond = w.cond := rfl
@[simp] theorem Wave.setFrag_toks (w : Wave) (f : Frag) : (w.setFrag f).toks = w.toks := rfl
@[simp] theorem Wave.setFrag_mode (w : Wave) (f : Frag) : (w.setFrag f).mode = w.mode := rfl
@[simp] theorem Wave.setFrag_flags (w : Wave) (f : Frag) : (w.setFrag f).flags = w.flags := rfl
@[simp] theorem Wave.setFrag_trapen (w : Wave) (f : Frag) : (w.setFrag f).trapen = w.trapen := rfl
@[simp] theorem Wave.setFrag_trapbase (w : Wave) (f : Frag) : (w.setFrag f).trapbase = w.trapbase := rfl
@[simp] theorem Wave.setFrag_remain (w : Wave) (f : Frag) : (w.setFrag f).remain = w.remain := rfl
@[simp] theorem Wave.setFrag_lpart (w : Wave) (f : Frag) : (w.setFrag f).lpart = w.lpart := rfl
@[simp] theorem Wave.setFrag_frags (w : Wave) (f : Frag) : (w.setFrag f).frags = w.frags.map fun g => if g.num = f.num then f else g := rfl
@[simp] theorem Wave.setFrag_cur (w : Wave) (f : Frag) : (w.setFrag f).cur = w.cur := rfl
@[simp] theorem Wave.setFrag_trapSave (w : Wave) (f : Frag) : (w.setFrag f).trapSave = w.trapSave := rfl
@[simp] theorem Wave.setFrag_fences (w : Wave) (f : Frag) : (w.setFrag f).fences = w.fences := rfl
@[simp] theorem Wave.setFrag_fenceSeq (w : Wave) (f : Frag) : (w.setFrag f).fenceSeq = w.fenceSeq := rfl
@[simp] theorem Wave.setFrag_cursor (w : Wave) (f : Frag) : (w.setFrag f).cursor = w.cursor := rfl
@[simp] theorem Wave.setFrag_inflight (w : Wave) (f : Frag) : (w.setFrag f).inflight = w.inflight := rfl
@[simp] theorem Wave.setFrag_flagPend (w : Wave) (f : Frag) : (w.setFrag f).flagPend = w.flagPend := rfl
@[simp] theorem Wave.setFrag_undef (w : Wave) (f : Frag) : (w.setFrag f).undef = w.undef := rfl
@[simp] theorem Wave.setFrag_replay (w : Wave) (f : Frag) : (w.setFrag f).replay = w.replay := rfl
@[simp] theorem Wave.setFrag_nextEntry (w : Wave) (f : Frag) : (w.setFrag f).nextEntry = w.nextEntry := rfl
@[simp] theorem Wave.setFrag_npFault (w : Wave) (f : Frag) : (w.setFrag f).npFault = w.npFault := rfl
@[simp] theorem Wave.setFrag_watchRec (w : Wave) (f : Frag) : (w.setFrag f).watchRec = w.watchRec := rfl
@[simp] theorem Wave.setFrag_step (w : Wave) (f : Frag) : (w.setFrag f).step = w.step := rfl
@[simp] theorem Wave.setFrag_resident (w : Wave) (f : Frag) : (w.setFrag f).resident = w.resident := rfl
@[simp] theorem Wave.setFrag_ended (w : Wave) (f : Frag) : (w.setFrag f).ended = w.ended := rfl

/-! ### Wave.modFrag -/

@[simp] theorem Wave.modFrag_task (w : Wave) (n : Nat) (f : Frag → Frag) : (w.modFrag n f).task = w.task := rfl
@[simp] theorem Wave.modFrag_blk (w : Wave) (n : Nat) (f : Frag → Frag) : (w.modFrag n f).blk = w.blk := rfl
@[simp] theorem Wave.modFrag_idx (w : Wave) (n : Nat) (f : Frag → Frag) : (w.modFrag n f).idx = w.idx := rfl
@[simp] theorem Wave.modFrag_core (w : Wave) (n : Nat) (f : Frag → Frag) : (w.modFrag n f).core = w.core := rfl
@[simp] theorem Wave.modFrag_part (w : Wave) (n : Nat) (f : Frag → Frag) : (w.modFrag n f).part = w.part := rfl
@[simp] theorem Wave.modFrag_alloc (w : Wave) (n : Nat) (f : Frag → Frag) : (w.modFrag n f).alloc = w.alloc := rfl
@[simp] theorem Wave.modFrag_vreg (w : Wave) (n : Nat) (f : Frag → Frag) : (w.modFrag n f).vreg = w.vreg := rfl
@[simp] theorem Wave.modFrag_preds (w : Wave) (n : Nat) (f : Frag → Frag) : (w.modFrag n f).preds = w.preds := rfl
@[simp] theorem Wave.modFrag_sreg (w : Wave) (n : Nat) (f : Frag → Frag) : (w.modFrag n f).sreg = w.sreg := rfl
@[simp] theorem Wave.modFrag_cond (w : Wave) (n : Nat) (f : Frag → Frag) : (w.modFrag n f).cond = w.cond := rfl
@[simp] theorem Wave.modFrag_toks (w : Wave) (n : Nat) (f : Frag → Frag) : (w.modFrag n f).toks = w.toks := rfl
@[simp] theorem Wave.modFrag_mode (w : Wave) (n : Nat) (f : Frag → Frag) : (w.modFrag n f).mode = w.mode := rfl
@[simp] theorem Wave.modFrag_flags (w : Wave) (n : Nat) (f : Frag → Frag) : (w.modFrag n f).flags = w.flags := rfl
@[simp] theorem Wave.modFrag_trapen (w : Wave) (n : Nat) (f : Frag → Frag) : (w.modFrag n f).trapen = w.trapen := rfl
@[simp] theorem Wave.modFrag_trapbase (w : Wave) (n : Nat) (f : Frag → Frag) : (w.modFrag n f).trapbase = w.trapbase := rfl
@[simp] theorem Wave.modFrag_remain (w : Wave) (n : Nat) (f : Frag → Frag) : (w.modFrag n f).remain = w.remain := rfl
@[simp] theorem Wave.modFrag_lpart (w : Wave) (n : Nat) (f : Frag → Frag) : (w.modFrag n f).lpart = w.lpart := rfl
@[simp] theorem Wave.modFrag_frags (w : Wave) (n : Nat) (f : Frag → Frag) : (w.modFrag n f).frags = w.frags.map fun g => if g.num = n then f g else g := rfl
@[simp] theorem Wave.modFrag_cur (w : Wave) (n : Nat) (f : Frag → Frag) : (w.modFrag n f).cur = w.cur := rfl
@[simp] theorem Wave.modFrag_trapSave (w : Wave) (n : Nat) (f : Frag → Frag) : (w.modFrag n f).trapSave = w.trapSave := rfl
@[simp] theorem Wave.modFrag_fences (w : Wave) (n : Nat) (f : Frag → Frag) : (w.modFrag n f).fences = w.fences := rfl
@[simp] theorem Wave.modFrag_fenceSeq (w : Wave) (n : Nat) (f : Frag → Frag) : (w.modFrag n f).fenceSeq = w.fenceSeq := rfl
@[simp] theorem Wave.modFrag_cursor (w : Wave) (n : Nat) (f : Frag → Frag) : (w.modFrag n f).cursor = w.cursor := rfl
@[simp] theorem Wave.modFrag_inflight (w : Wave) (n : Nat) (f : Frag → Frag) : (w.modFrag n f).inflight = w.inflight := rfl
@[simp] theorem Wave.modFrag_flagPend (w : Wave) (n : Nat) (f : Frag → Frag) : (w.modFrag n f).flagPend = w.flagPend := rfl
@[simp] theorem Wave.modFrag_undef (w : Wave) (n : Nat) (f : Frag → Frag) : (w.modFrag n f).undef = w.undef := rfl
@[simp] theorem Wave.modFrag_replay (w : Wave) (n : Nat) (f : Frag → Frag) : (w.modFrag n f).replay = w.replay := rfl
@[simp] theorem Wave.modFrag_nextEntry (w : Wave) (n : Nat) (f : Frag → Frag) : (w.modFrag n f).nextEntry = w.nextEntry := rfl
@[simp] theorem Wave.modFrag_npFault (w : Wave) (n : Nat) (f : Frag → Frag) : (w.modFrag n f).npFault = w.npFault := rfl
@[simp] theorem Wave.modFrag_watchRec (w : Wave) (n : Nat) (f : Frag → Frag) : (w.modFrag n f).watchRec = w.watchRec := rfl
@[simp] theorem Wave.modFrag_step (w : Wave) (n : Nat) (f : Frag → Frag) : (w.modFrag n f).step = w.step := rfl
@[simp] theorem Wave.modFrag_resident (w : Wave) (n : Nat) (f : Frag → Frag) : (w.modFrag n f).resident = w.resident := rfl
@[simp] theorem Wave.modFrag_ended (w : Wave) (n : Nat) (f : Frag → Frag) : (w.modFrag n f).ended = w.ended := rfl

/-! ### Wave.wrLane -/

@[simp] theorem Wave.wrLane_task (w : Wave) (d : VOp) (lane : Nat) (v : Word) : (w.wrLane d lane v).task = w.task := rfl
@[simp] theorem Wave.wrLane_blk (w : Wave) (d : VOp) (lane : Nat) (v : Word) : (w.wrLane d lane v).blk = w.blk := rfl
@[simp] theorem Wave.wrLane_idx (w : Wave) (d : VOp) (lane : Nat) (v : Word) : (w.wrLane d lane v).idx = w.idx := rfl
@[simp] theorem Wave.wrLane_core (w : Wave) (d : VOp) (lane : Nat) (v : Word) : (w.wrLane d lane v).core = w.core := rfl
@[simp] theorem Wave.wrLane_part (w : Wave) (d : VOp) (lane : Nat) (v : Word) : (w.wrLane d lane v).part = w.part := rfl
@[simp] theorem Wave.wrLane_alloc (w : Wave) (d : VOp) (lane : Nat) (v : Word) : (w.wrLane d lane v).alloc = w.alloc := rfl
@[simp] theorem Wave.wrLane_vreg (w : Wave) (d : VOp) (lane : Nat) (v : Word) : (w.wrLane d lane v).vreg = kset 0 w.vreg (vkey (VOp.field d) lane) v := rfl
@[simp] theorem Wave.wrLane_preds (w : Wave) (d : VOp) (lane : Nat) (v : Word) : (w.wrLane d lane v).preds = w.preds := rfl
@[simp] theorem Wave.wrLane_sreg (w : Wave) (d : VOp) (lane : Nat) (v : Word) : (w.wrLane d lane v).sreg = w.sreg := rfl
@[simp] theorem Wave.wrLane_cond (w : Wave) (d : VOp) (lane : Nat) (v : Word) : (w.wrLane d lane v).cond = w.cond := rfl
@[simp] theorem Wave.wrLane_toks (w : Wave) (d : VOp) (lane : Nat) (v : Word) : (w.wrLane d lane v).toks = w.toks := rfl
@[simp] theorem Wave.wrLane_mode (w : Wave) (d : VOp) (lane : Nat) (v : Word) : (w.wrLane d lane v).mode = w.mode := rfl
@[simp] theorem Wave.wrLane_flags (w : Wave) (d : VOp) (lane : Nat) (v : Word) : (w.wrLane d lane v).flags = w.flags := rfl
@[simp] theorem Wave.wrLane_trapen (w : Wave) (d : VOp) (lane : Nat) (v : Word) : (w.wrLane d lane v).trapen = w.trapen := rfl
@[simp] theorem Wave.wrLane_trapbase (w : Wave) (d : VOp) (lane : Nat) (v : Word) : (w.wrLane d lane v).trapbase = w.trapbase := rfl
@[simp] theorem Wave.wrLane_remain (w : Wave) (d : VOp) (lane : Nat) (v : Word) : (w.wrLane d lane v).remain = w.remain := rfl
@[simp] theorem Wave.wrLane_lpart (w : Wave) (d : VOp) (lane : Nat) (v : Word) : (w.wrLane d lane v).lpart = w.lpart := rfl
@[simp] theorem Wave.wrLane_frags (w : Wave) (d : VOp) (lane : Nat) (v : Word) : (w.wrLane d lane v).frags = w.frags := rfl
@[simp] theorem Wave.wrLane_cur (w : Wave) (d : VOp) (lane : Nat) (v : Word) : (w.wrLane d lane v).cur = w.cur := rfl
@[simp] theorem Wave.wrLane_trapSave (w : Wave) (d : VOp) (lane : Nat) (v : Word) : (w.wrLane d lane v).trapSave = w.trapSave := rfl
@[simp] theorem Wave.wrLane_fences (w : Wave) (d : VOp) (lane : Nat) (v : Word) : (w.wrLane d lane v).fences = w.fences := rfl
@[simp] theorem Wave.wrLane_fenceSeq (w : Wave) (d : VOp) (lane : Nat) (v : Word) : (w.wrLane d lane v).fenceSeq = w.fenceSeq := rfl
@[simp] theorem Wave.wrLane_cursor (w : Wave) (d : VOp) (lane : Nat) (v : Word) : (w.wrLane d lane v).cursor = w.cursor := rfl
@[simp] theorem Wave.wrLane_inflight (w : Wave) (d : VOp) (lane : Nat) (v : Word) : (w.wrLane d lane v).inflight = w.inflight := rfl
@[simp] theorem Wave.wrLane_flagPend (w : Wave) (d : VOp) (lane : Nat) (v : Word) : (w.wrLane d lane v).flagPend = w.flagPend := rfl
@[simp] theorem Wave.wrLane_undef (w : Wave) (d : VOp) (lane : Nat) (v : Word) : (w.wrLane d lane v).undef = w.undef := rfl
@[simp] theorem Wave.wrLane_replay (w : Wave) (d : VOp) (lane : Nat) (v : Word) : (w.wrLane d lane v).replay = w.replay := rfl
@[simp] theorem Wave.wrLane_nextEntry (w : Wave) (d : VOp) (lane : Nat) (v : Word) : (w.wrLane d lane v).nextEntry = w.nextEntry := rfl
@[simp] theorem Wave.wrLane_npFault (w : Wave) (d : VOp) (lane : Nat) (v : Word) : (w.wrLane d lane v).npFault = w.npFault := rfl
@[simp] theorem Wave.wrLane_watchRec (w : Wave) (d : VOp) (lane : Nat) (v : Word) : (w.wrLane d lane v).watchRec = w.watchRec := rfl
@[simp] theorem Wave.wrLane_step (w : Wave) (d : VOp) (lane : Nat) (v : Word) : (w.wrLane d lane v).step = w.step := rfl
@[simp] theorem Wave.wrLane_resident (w : Wave) (d : VOp) (lane : Nat) (v : Word) : (w.wrLane d lane v).resident = w.resident := rfl
@[simp] theorem Wave.wrLane_ended (w : Wave) (d : VOp) (lane : Nat) (v : Word) : (w.wrLane d lane v).ended = w.ended := rfl

/-! ### Wave.wrV -/

@[simp] theorem Wave.wrV_task (w : Wave) (d : VOp) (m : Word) (f : Nat → Word) : (w.wrV d m f).task = w.task := rfl
@[simp] theorem Wave.wrV_blk (w : Wave) (d : VOp) (m : Word) (f : Nat → Word) : (w.wrV d m f).blk = w.blk := rfl
@[simp] theorem Wave.wrV_idx (w : Wave) (d : VOp) (m : Word) (f : Nat → Word) : (w.wrV d m f).idx = w.idx := rfl
@[simp] theorem Wave.wrV_core (w : Wave) (d : VOp) (m : Word) (f : Nat → Word) : (w.wrV d m f).core = w.core := rfl
@[simp] theorem Wave.wrV_part (w : Wave) (d : VOp) (m : Word) (f : Nat → Word) : (w.wrV d m f).part = w.part := rfl
@[simp] theorem Wave.wrV_alloc (w : Wave) (d : VOp) (m : Word) (f : Nat → Word) : (w.wrV d m f).alloc = w.alloc := rfl
@[simp] theorem Wave.wrV_vreg (w : Wave) (d : VOp) (m : Word) (f : Nat → Word) : (w.wrV d m f).vreg = (lanesOf m).foldl (fun r l => kset 0 r (vkey (VOp.field d) l) (f l)) w.vreg := rfl
@[simp] theorem Wave.wrV_preds (w : Wave) (d : VOp) (m : Word) (f : Nat → Word) : (w.wrV d m f).preds = w.preds := rfl
@[simp] theorem Wave.wrV_sreg (w : Wave) (d : VOp) (m : Word) (f : Nat → Word) : (w.wrV d m f).sreg = w.sreg := rfl
@[simp] theorem Wave.wrV_cond (w : Wave) (d : VOp) (m : Word) (f : Nat → Word) : (w.wrV d m f).cond = w.cond := rfl
@[simp] theorem Wave.wrV_toks (w : Wave) (d : VOp) (m : Word) (f : Nat → Word) : (w.wrV d m f).toks = w.toks := rfl
@[simp] theorem Wave.wrV_mode (w : Wave) (d : VOp) (m : Word) (f : Nat → Word) : (w.wrV d m f).mode = w.mode := rfl
@[simp] theorem Wave.wrV_flags (w : Wave) (d : VOp) (m : Word) (f : Nat → Word) : (w.wrV d m f).flags = w.flags := rfl
@[simp] theorem Wave.wrV_trapen (w : Wave) (d : VOp) (m : Word) (f : Nat → Word) : (w.wrV d m f).trapen = w.trapen := rfl
@[simp] theorem Wave.wrV_trapbase (w : Wave) (d : VOp) (m : Word) (f : Nat → Word) : (w.wrV d m f).trapbase = w.trapbase := rfl
@[simp] theorem Wave.wrV_remain (w : Wave) (d : VOp) (m : Word) (f : Nat → Word) : (w.wrV d m f).remain = w.remain := rfl
@[simp] theorem Wave.wrV_lpart (w : Wave) (d : VOp) (m : Word) (f : Nat → Word) : (w.wrV d m f).lpart = w.lpart := rfl
@[simp] theorem Wave.wrV_frags (w : Wave) (d : VOp) (m : Word) (f : Nat → Word) : (w.wrV d m f).frags = w.frags := rfl
@[simp] theorem Wave.wrV_cur (w : Wave) (d : VOp) (m : Word) (f : Nat → Word) : (w.wrV d m f).cur = w.cur := rfl
@[simp] theorem Wave.wrV_trapSave (w : Wave) (d : VOp) (m : Word) (f : Nat → Word) : (w.wrV d m f).trapSave = w.trapSave := rfl
@[simp] theorem Wave.wrV_fences (w : Wave) (d : VOp) (m : Word) (f : Nat → Word) : (w.wrV d m f).fences = w.fences := rfl
@[simp] theorem Wave.wrV_fenceSeq (w : Wave) (d : VOp) (m : Word) (f : Nat → Word) : (w.wrV d m f).fenceSeq = w.fenceSeq := rfl
@[simp] theorem Wave.wrV_cursor (w : Wave) (d : VOp) (m : Word) (f : Nat → Word) : (w.wrV d m f).cursor = w.cursor := rfl
@[simp] theorem Wave.wrV_inflight (w : Wave) (d : VOp) (m : Word) (f : Nat → Word) : (w.wrV d m f).inflight = w.inflight := rfl
@[simp] theorem Wave.wrV_flagPend (w : Wave) (d : VOp) (m : Word) (f : Nat → Word) : (w.wrV d m f).flagPend = w.flagPend := rfl
@[simp] theorem Wave.wrV_undef (w : Wave) (d : VOp) (m : Word) (f : Nat → Word) : (w.wrV d m f).undef = w.undef := rfl
@[simp] theorem Wave.wrV_replay (w : Wave) (d : VOp) (m : Word) (f : Nat → Word) : (w.wrV d m f).replay = w.replay := rfl
@[simp] theorem Wave.wrV_nextEntry (w : Wave) (d : VOp) (m : Word) (f : Nat → Word) : (w.wrV d m f).nextEntry = w.nextEntry := rfl
@[simp] theorem Wave.wrV_npFault (w : Wave) (d : VOp) (m : Word) (f : Nat → Word) : (w.wrV d m f).npFault = w.npFault := rfl
@[simp] theorem Wave.wrV_watchRec (w : Wave) (d : VOp) (m : Word) (f : Nat → Word) : (w.wrV d m f).watchRec = w.watchRec := rfl
@[simp] theorem Wave.wrV_step (w : Wave) (d : VOp) (m : Word) (f : Nat → Word) : (w.wrV d m f).step = w.step := rfl
@[simp] theorem Wave.wrV_resident (w : Wave) (d : VOp) (m : Word) (f : Nat → Word) : (w.wrV d m f).resident = w.resident := rfl
@[simp] theorem Wave.wrV_ended (w : Wave) (d : VOp) (m : Word) (f : Nat → Word) : (w.wrV d m f).ended = w.ended := rfl

/-! ### Wave.wrS -/

@[simp] theorem Wave.wrS_task (w : Wave) (n : Nat) (v : Word) : (w.wrS n v).task = w.task := rfl
@[simp] theorem Wave.wrS_blk (w : Wave) (n : Nat) (v : Word) : (w.wrS n v).blk = w.blk := rfl
@[simp] theorem Wave.wrS_idx (w : Wave) (n : Nat) (v : Word) : (w.wrS n v).idx = w.idx := rfl
@[simp] theorem Wave.wrS_core (w : Wave) (n : Nat) (v : Word) : (w.wrS n v).core = w.core := rfl
@[simp] theorem Wave.wrS_part (w : Wave) (n : Nat) (v : Word) : (w.wrS n v).part = w.part := rfl
@[simp] theorem Wave.wrS_alloc (w : Wave) (n : Nat) (v : Word) : (w.wrS n v).alloc = w.alloc := rfl
@[simp] theorem Wave.wrS_vreg (w : Wave) (n : Nat) (v : Word) : (w.wrS n v).vreg = w.vreg := rfl
@[simp] theorem Wave.wrS_preds (w : Wave) (n : Nat) (v : Word) : (w.wrS n v).preds = w.preds := rfl
@[simp] theorem Wave.wrS_sreg (w : Wave) (n : Nat) (v : Word) : (w.wrS n v).sreg = kset 0 w.sreg n v := rfl
@[simp] theorem Wave.wrS_cond (w : Wave) (n : Nat) (v : Word) : (w.wrS n v).cond = w.cond := rfl
@[simp] theorem Wave.wrS_toks (w : Wave) (n : Nat) (v : Word) : (w.wrS n v).toks = w.toks := rfl
@[simp] theorem Wave.wrS_mode (w : Wave) (n : Nat) (v : Word) : (w.wrS n v).mode = w.mode := rfl
@[simp] theorem Wave.wrS_flags (w : Wave) (n : Nat) (v : Word) : (w.wrS n v).flags = w.flags := rfl
@[simp] theorem Wave.wrS_trapen (w : Wave) (n : Nat) (v : Word) : (w.wrS n v).trapen = w.trapen := rfl
@[simp] theorem Wave.wrS_trapbase (w : Wave) (n : Nat) (v : Word) : (w.wrS n v).trapbase = w.trapbase := rfl
@[simp] theorem Wave.wrS_remain (w : Wave) (n : Nat) (v : Word) : (w.wrS n v).remain = w.remain := rfl
@[simp] theorem Wave.wrS_lpart (w : Wave) (n : Nat) (v : Word) : (w.wrS n v).lpart = w.lpart := rfl
@[simp] theorem Wave.wrS_frags (w : Wave) (n : Nat) (v : Word) : (w.wrS n v).frags = w.frags := rfl
@[simp] theorem Wave.wrS_cur (w : Wave) (n : Nat) (v : Word) : (w.wrS n v).cur = w.cur := rfl
@[simp] theorem Wave.wrS_trapSave (w : Wave) (n : Nat) (v : Word) : (w.wrS n v).trapSave = w.trapSave := rfl
@[simp] theorem Wave.wrS_fences (w : Wave) (n : Nat) (v : Word) : (w.wrS n v).fences = w.fences := rfl
@[simp] theorem Wave.wrS_fenceSeq (w : Wave) (n : Nat) (v : Word) : (w.wrS n v).fenceSeq = w.fenceSeq := rfl
@[simp] theorem Wave.wrS_cursor (w : Wave) (n : Nat) (v : Word) : (w.wrS n v).cursor = w.cursor := rfl
@[simp] theorem Wave.wrS_inflight (w : Wave) (n : Nat) (v : Word) : (w.wrS n v).inflight = w.inflight := rfl
@[simp] theorem Wave.wrS_flagPend (w : Wave) (n : Nat) (v : Word) : (w.wrS n v).flagPend = w.flagPend := rfl
@[simp] theorem Wave.wrS_undef (w : Wave) (n : Nat) (v : Word) : (w.wrS n v).undef = w.undef := rfl
@[simp] theorem Wave.wrS_replay (w : Wave) (n : Nat) (v : Word) : (w.wrS n v).replay = w.replay := rfl
@[simp] theorem Wave.wrS_nextEntry (w : Wave) (n : Nat) (v : Word) : (w.wrS n v).nextEntry = w.nextEntry := rfl
@[simp] theorem Wave.wrS_npFault (w : Wave) (n : Nat) (v : Word) : (w.wrS n v).npFault = w.npFault := rfl
@[simp] theorem Wave.wrS_watchRec (w : Wave) (n : Nat) (v : Word) : (w.wrS n v).watchRec = w.watchRec := rfl
@[simp] theorem Wave.wrS_step (w : Wave) (n : Nat) (v : Word) : (w.wrS n v).step = w.step := rfl
@[simp] theorem Wave.wrS_resident (w : Wave) (n : Nat) (v : Word) : (w.wrS n v).resident = w.resident := rfl
@[simp] theorem Wave.wrS_ended (w : Wave) (n : Nat) (v : Word) : (w.wrS n v).ended = w.ended := rfl

/-! ### Wave.wrC -/

@[simp] theorem Wave.wrC_task (w : Wave) (n : Nat) (v : Bool) : (w.wrC n v).task = w.task := rfl
@[simp] theorem Wave.wrC_blk (w : Wave) (n : Nat) (v : Bool) : (w.wrC n v).blk = w.blk := rfl
@[simp] theorem Wave.wrC_idx (w : Wave) (n : Nat) (v : Bool) : (w.wrC n v).idx = w.idx := rfl
@[simp] theorem Wave.wrC_core (w : Wave) (n : Nat) (v : Bool) : (w.wrC n v).core = w.core := rfl
@[simp] theorem Wave.wrC_part (w : Wave) (n : Nat) (v : Bool) : (w.wrC n v).part = w.part := rfl
@[simp] theorem Wave.wrC_alloc (w : Wave) (n : Nat) (v : Bool) : (w.wrC n v).alloc = w.alloc := rfl
@[simp] theorem Wave.wrC_vreg (w : Wave) (n : Nat) (v : Bool) : (w.wrC n v).vreg = w.vreg := rfl
@[simp] theorem Wave.wrC_preds (w : Wave) (n : Nat) (v : Bool) : (w.wrC n v).preds = w.preds := rfl
@[simp] theorem Wave.wrC_sreg (w : Wave) (n : Nat) (v : Bool) : (w.wrC n v).sreg = w.sreg := rfl
@[simp] theorem Wave.wrC_cond (w : Wave) (n : Nat) (v : Bool) : (w.wrC n v).cond = if v then w.cond ||| (1#4 <<< n) else w.cond &&& ~~~(1#4 <<< n) := rfl
@[simp] theorem Wave.wrC_toks (w : Wave) (n : Nat) (v : Bool) : (w.wrC n v).toks = w.toks := rfl
@[simp] theorem Wave.wrC_mode (w : Wave) (n : Nat) (v : Bool) : (w.wrC n v).mode = w.mode := rfl
@[simp] theorem Wave.wrC_flags (w : Wave) (n : Nat) (v : Bool) : (w.wrC n v).flags = w.flags := rfl
@[simp] theorem Wave.wrC_trapen (w : Wave) (n : Nat) (v : Bool) : (w.wrC n v).trapen = w.trapen := rfl
@[simp] theorem Wave.wrC_trapbase (w : Wave) (n : Nat) (v : Bool) : (w.wrC n v).trapbase = w.trapbase := rfl
@[simp] theorem Wave.wrC_remain (w : Wave) (n : Nat) (v : Bool) : (w.wrC n v).remain = w.remain := rfl
@[simp] theorem Wave.wrC_lpart (w : Wave) (n : Nat) (v : Bool) : (w.wrC n v).lpart = w.lpart := rfl
@[simp] theorem Wave.wrC_frags (w : Wave) (n : Nat) (v : Bool) : (w.wrC n v).frags = w.frags := rfl
@[simp] theorem Wave.wrC_cur (w : Wave) (n : Nat) (v : Bool) : (w.wrC n v).cur = w.cur := rfl
@[simp] theorem Wave.wrC_trapSave (w : Wave) (n : Nat) (v : Bool) : (w.wrC n v).trapSave = w.trapSave := rfl
@[simp] theorem Wave.wrC_fences (w : Wave) (n : Nat) (v : Bool) : (w.wrC n v).fences = w.fences := rfl
@[simp] theorem Wave.wrC_fenceSeq (w : Wave) (n : Nat) (v : Bool) : (w.wrC n v).fenceSeq = w.fenceSeq := rfl
@[simp] theorem Wave.wrC_cursor (w : Wave) (n : Nat) (v : Bool) : (w.wrC n v).cursor = w.cursor := rfl
@[simp] theorem Wave.wrC_inflight (w : Wave) (n : Nat) (v : Bool) : (w.wrC n v).inflight = w.inflight := rfl
@[simp] theorem Wave.wrC_flagPend (w : Wave) (n : Nat) (v : Bool) : (w.wrC n v).flagPend = w.flagPend := rfl
@[simp] theorem Wave.wrC_undef (w : Wave) (n : Nat) (v : Bool) : (w.wrC n v).undef = w.undef := rfl
@[simp] theorem Wave.wrC_replay (w : Wave) (n : Nat) (v : Bool) : (w.wrC n v).replay = w.replay := rfl
@[simp] theorem Wave.wrC_nextEntry (w : Wave) (n : Nat) (v : Bool) : (w.wrC n v).nextEntry = w.nextEntry := rfl
@[simp] theorem Wave.wrC_npFault (w : Wave) (n : Nat) (v : Bool) : (w.wrC n v).npFault = w.npFault := rfl
@[simp] theorem Wave.wrC_watchRec (w : Wave) (n : Nat) (v : Bool) : (w.wrC n v).watchRec = w.watchRec := rfl
@[simp] theorem Wave.wrC_step (w : Wave) (n : Nat) (v : Bool) : (w.wrC n v).step = w.step := rfl
@[simp] theorem Wave.wrC_resident (w : Wave) (n : Nat) (v : Bool) : (w.wrC n v).resident = w.resident := rfl
@[simp] theorem Wave.wrC_ended (w : Wave) (n : Nat) (v : Bool) : (w.wrC n v).ended = w.ended := rfl

/-! ### Wave.mark -/

@[simp] theorem Wave.mark_task (w : Wave) (r : RegId) (lanes : Word) (due : Nat) : (w.mark r lanes due).task = w.task := rfl
@[simp] theorem Wave.mark_blk (w : Wave) (r : RegId) (lanes : Word) (due : Nat) : (w.mark r lanes due).blk = w.blk := rfl
@[simp] theorem Wave.mark_idx (w : Wave) (r : RegId) (lanes : Word) (due : Nat) : (w.mark r lanes due).idx = w.idx := rfl
@[simp] theorem Wave.mark_core (w : Wave) (r : RegId) (lanes : Word) (due : Nat) : (w.mark r lanes due).core = w.core := rfl
@[simp] theorem Wave.mark_part (w : Wave) (r : RegId) (lanes : Word) (due : Nat) : (w.mark r lanes due).part = w.part := rfl
@[simp] theorem Wave.mark_alloc (w : Wave) (r : RegId) (lanes : Word) (due : Nat) : (w.mark r lanes due).alloc = w.alloc := rfl
@[simp] theorem Wave.mark_vreg (w : Wave) (r : RegId) (lanes : Word) (due : Nat) : (w.mark r lanes due).vreg = w.vreg := rfl
@[simp] theorem Wave.mark_preds (w : Wave) (r : RegId) (lanes : Word) (due : Nat) : (w.mark r lanes due).preds = w.preds := rfl
@[simp] theorem Wave.mark_sreg (w : Wave) (r : RegId) (lanes : Word) (due : Nat) : (w.mark r lanes due).sreg = w.sreg := rfl
@[simp] theorem Wave.mark_cond (w : Wave) (r : RegId) (lanes : Word) (due : Nat) : (w.mark r lanes due).cond = w.cond := rfl
@[simp] theorem Wave.mark_toks (w : Wave) (r : RegId) (lanes : Word) (due : Nat) : (w.mark r lanes due).toks = w.toks := rfl
@[simp] theorem Wave.mark_mode (w : Wave) (r : RegId) (lanes : Word) (due : Nat) : (w.mark r lanes due).mode = w.mode := rfl
@[simp] theorem Wave.mark_flags (w : Wave) (r : RegId) (lanes : Word) (due : Nat) : (w.mark r lanes due).flags = w.flags := rfl
@[simp] theorem Wave.mark_trapen (w : Wave) (r : RegId) (lanes : Word) (due : Nat) : (w.mark r lanes due).trapen = w.trapen := rfl
@[simp] theorem Wave.mark_trapbase (w : Wave) (r : RegId) (lanes : Word) (due : Nat) : (w.mark r lanes due).trapbase = w.trapbase := rfl
@[simp] theorem Wave.mark_remain (w : Wave) (r : RegId) (lanes : Word) (due : Nat) : (w.mark r lanes due).remain = w.remain := rfl
@[simp] theorem Wave.mark_lpart (w : Wave) (r : RegId) (lanes : Word) (due : Nat) : (w.mark r lanes due).lpart = w.lpart := rfl
@[simp] theorem Wave.mark_frags (w : Wave) (r : RegId) (lanes : Word) (due : Nat) : (w.mark r lanes due).frags = w.frags := rfl
@[simp] theorem Wave.mark_cur (w : Wave) (r : RegId) (lanes : Word) (due : Nat) : (w.mark r lanes due).cur = w.cur := rfl
@[simp] theorem Wave.mark_trapSave (w : Wave) (r : RegId) (lanes : Word) (due : Nat) : (w.mark r lanes due).trapSave = w.trapSave := rfl
@[simp] theorem Wave.mark_fences (w : Wave) (r : RegId) (lanes : Word) (due : Nat) : (w.mark r lanes due).fences = w.fences := rfl
@[simp] theorem Wave.mark_fenceSeq (w : Wave) (r : RegId) (lanes : Word) (due : Nat) : (w.mark r lanes due).fenceSeq = w.fenceSeq := rfl
@[simp] theorem Wave.mark_cursor (w : Wave) (r : RegId) (lanes : Word) (due : Nat) : (w.mark r lanes due).cursor = w.cursor := rfl
@[simp] theorem Wave.mark_inflight (w : Wave) (r : RegId) (lanes : Word) (due : Nat) : (w.mark r lanes due).inflight = w.inflight ++ [{ reg := r, lanes, due }] := rfl
@[simp] theorem Wave.mark_flagPend (w : Wave) (r : RegId) (lanes : Word) (due : Nat) : (w.mark r lanes due).flagPend = w.flagPend := rfl
@[simp] theorem Wave.mark_undef (w : Wave) (r : RegId) (lanes : Word) (due : Nat) : (w.mark r lanes due).undef = w.undef := rfl
@[simp] theorem Wave.mark_replay (w : Wave) (r : RegId) (lanes : Word) (due : Nat) : (w.mark r lanes due).replay = w.replay := rfl
@[simp] theorem Wave.mark_nextEntry (w : Wave) (r : RegId) (lanes : Word) (due : Nat) : (w.mark r lanes due).nextEntry = w.nextEntry := rfl
@[simp] theorem Wave.mark_npFault (w : Wave) (r : RegId) (lanes : Word) (due : Nat) : (w.mark r lanes due).npFault = w.npFault := rfl
@[simp] theorem Wave.mark_watchRec (w : Wave) (r : RegId) (lanes : Word) (due : Nat) : (w.mark r lanes due).watchRec = w.watchRec := rfl
@[simp] theorem Wave.mark_step (w : Wave) (r : RegId) (lanes : Word) (due : Nat) : (w.mark r lanes due).step = w.step := rfl
@[simp] theorem Wave.mark_resident (w : Wave) (r : RegId) (lanes : Word) (due : Nat) : (w.mark r lanes due).resident = w.resident := rfl
@[simp] theorem Wave.mark_ended (w : Wave) (r : RegId) (lanes : Word) (due : Nat) : (w.mark r lanes due).ended = w.ended := rfl

/-! ### Wave.markUndef -/

@[simp] theorem Wave.markUndef_task (w : Wave) (r : RegId) (lanes : Word) (ctr : Ctr) (frag : Nat) : (w.markUndef r lanes ctr frag).task = w.task := rfl
@[simp] theorem Wave.markUndef_blk (w : Wave) (r : RegId) (lanes : Word) (ctr : Ctr) (frag : Nat) : (w.markUndef r lanes ctr frag).blk = w.blk := rfl
@[simp] theorem Wave.markUndef_idx (w : Wave) (r : RegId) (lanes : Word) (ctr : Ctr) (frag : Nat) : (w.markUndef r lanes ctr frag).idx = w.idx := rfl
@[simp] theorem Wave.markUndef_core (w : Wave) (r : RegId) (lanes : Word) (ctr : Ctr) (frag : Nat) : (w.markUndef r lanes ctr frag).core = w.core := rfl
@[simp] theorem Wave.markUndef_part (w : Wave) (r : RegId) (lanes : Word) (ctr : Ctr) (frag : Nat) : (w.markUndef r lanes ctr frag).part = w.part := rfl
@[simp] theorem Wave.markUndef_alloc (w : Wave) (r : RegId) (lanes : Word) (ctr : Ctr) (frag : Nat) : (w.markUndef r lanes ctr frag).alloc = w.alloc := rfl
@[simp] theorem Wave.markUndef_vreg (w : Wave) (r : RegId) (lanes : Word) (ctr : Ctr) (frag : Nat) : (w.markUndef r lanes ctr frag).vreg = w.vreg := rfl
@[simp] theorem Wave.markUndef_preds (w : Wave) (r : RegId) (lanes : Word) (ctr : Ctr) (frag : Nat) : (w.markUndef r lanes ctr frag).preds = w.preds := rfl
@[simp] theorem Wave.markUndef_sreg (w : Wave) (r : RegId) (lanes : Word) (ctr : Ctr) (frag : Nat) : (w.markUndef r lanes ctr frag).sreg = w.sreg := rfl
@[simp] theorem Wave.markUndef_cond (w : Wave) (r : RegId) (lanes : Word) (ctr : Ctr) (frag : Nat) : (w.markUndef r lanes ctr frag).cond = w.cond := rfl
@[simp] theorem Wave.markUndef_toks (w : Wave) (r : RegId) (lanes : Word) (ctr : Ctr) (frag : Nat) : (w.markUndef r lanes ctr frag).toks = w.toks := rfl
@[simp] theorem Wave.markUndef_mode (w : Wave) (r : RegId) (lanes : Word) (ctr : Ctr) (frag : Nat) : (w.markUndef r lanes ctr frag).mode = w.mode := rfl
@[simp] theorem Wave.markUndef_flags (w : Wave) (r : RegId) (lanes : Word) (ctr : Ctr) (frag : Nat) : (w.markUndef r lanes ctr frag).flags = w.flags := rfl
@[simp] theorem Wave.markUndef_trapen (w : Wave) (r : RegId) (lanes : Word) (ctr : Ctr) (frag : Nat) : (w.markUndef r lanes ctr frag).trapen = w.trapen := rfl
@[simp] theorem Wave.markUndef_trapbase (w : Wave) (r : RegId) (lanes : Word) (ctr : Ctr) (frag : Nat) : (w.markUndef r lanes ctr frag).trapbase = w.trapbase := rfl
@[simp] theorem Wave.markUndef_remain (w : Wave) (r : RegId) (lanes : Word) (ctr : Ctr) (frag : Nat) : (w.markUndef r lanes ctr frag).remain = w.remain := rfl
@[simp] theorem Wave.markUndef_lpart (w : Wave) (r : RegId) (lanes : Word) (ctr : Ctr) (frag : Nat) : (w.markUndef r lanes ctr frag).lpart = w.lpart := rfl
@[simp] theorem Wave.markUndef_frags (w : Wave) (r : RegId) (lanes : Word) (ctr : Ctr) (frag : Nat) : (w.markUndef r lanes ctr frag).frags = w.frags := rfl
@[simp] theorem Wave.markUndef_cur (w : Wave) (r : RegId) (lanes : Word) (ctr : Ctr) (frag : Nat) : (w.markUndef r lanes ctr frag).cur = w.cur := rfl
@[simp] theorem Wave.markUndef_trapSave (w : Wave) (r : RegId) (lanes : Word) (ctr : Ctr) (frag : Nat) : (w.markUndef r lanes ctr frag).trapSave = w.trapSave := rfl
@[simp] theorem Wave.markUndef_fences (w : Wave) (r : RegId) (lanes : Word) (ctr : Ctr) (frag : Nat) : (w.markUndef r lanes ctr frag).fences = w.fences := rfl
@[simp] theorem Wave.markUndef_fenceSeq (w : Wave) (r : RegId) (lanes : Word) (ctr : Ctr) (frag : Nat) : (w.markUndef r lanes ctr frag).fenceSeq = w.fenceSeq := rfl
@[simp] theorem Wave.markUndef_cursor (w : Wave) (r : RegId) (lanes : Word) (ctr : Ctr) (frag : Nat) : (w.markUndef r lanes ctr frag).cursor = w.cursor := rfl
@[simp] theorem Wave.markUndef_inflight (w : Wave) (r : RegId) (lanes : Word) (ctr : Ctr) (frag : Nat) : (w.markUndef r lanes ctr frag).inflight = w.inflight := rfl
@[simp] theorem Wave.markUndef_flagPend (w : Wave) (r : RegId) (lanes : Word) (ctr : Ctr) (frag : Nat) : (w.markUndef r lanes ctr frag).flagPend = w.flagPend := rfl
@[simp] theorem Wave.markUndef_undef (w : Wave) (r : RegId) (lanes : Word) (ctr : Ctr) (frag : Nat) : (w.markUndef r lanes ctr frag).undef = w.undef ++ [{ reg := r, lanes, entry := w.nextEntry, ctr, holder := .frag frag }] := rfl
@[simp] theorem Wave.markUndef_replay (w : Wave) (r : RegId) (lanes : Word) (ctr : Ctr) (frag : Nat) : (w.markUndef r lanes ctr frag).replay = w.replay := rfl
@[simp] theorem Wave.markUndef_nextEntry (w : Wave) (r : RegId) (lanes : Word) (ctr : Ctr) (frag : Nat) : (w.markUndef r lanes ctr frag).nextEntry = w.nextEntry := rfl
@[simp] theorem Wave.markUndef_npFault (w : Wave) (r : RegId) (lanes : Word) (ctr : Ctr) (frag : Nat) : (w.markUndef r lanes ctr frag).npFault = w.npFault := rfl
@[simp] theorem Wave.markUndef_watchRec (w : Wave) (r : RegId) (lanes : Word) (ctr : Ctr) (frag : Nat) : (w.markUndef r lanes ctr frag).watchRec = w.watchRec := rfl
@[simp] theorem Wave.markUndef_step (w : Wave) (r : RegId) (lanes : Word) (ctr : Ctr) (frag : Nat) : (w.markUndef r lanes ctr frag).step = w.step := rfl
@[simp] theorem Wave.markUndef_resident (w : Wave) (r : RegId) (lanes : Word) (ctr : Ctr) (frag : Nat) : (w.markUndef r lanes ctr frag).resident = w.resident := rfl
@[simp] theorem Wave.markUndef_ended (w : Wave) (r : RegId) (lanes : Word) (ctr : Ctr) (frag : Nat) : (w.markUndef r lanes ctr frag).ended = w.ended := rfl

/-! ### Wave.setTok -/

@[simp] theorem Wave.setTok_task (w : Wave) (k : Nat) (t : Token) : (w.setTok k t).task = w.task := rfl
@[simp] theorem Wave.setTok_blk (w : Wave) (k : Nat) (t : Token) : (w.setTok k t).blk = w.blk := rfl
@[simp] theorem Wave.setTok_idx (w : Wave) (k : Nat) (t : Token) : (w.setTok k t).idx = w.idx := rfl
@[simp] theorem Wave.setTok_core (w : Wave) (k : Nat) (t : Token) : (w.setTok k t).core = w.core := rfl
@[simp] theorem Wave.setTok_part (w : Wave) (k : Nat) (t : Token) : (w.setTok k t).part = w.part := rfl
@[simp] theorem Wave.setTok_alloc (w : Wave) (k : Nat) (t : Token) : (w.setTok k t).alloc = w.alloc := rfl
@[simp] theorem Wave.setTok_vreg (w : Wave) (k : Nat) (t : Token) : (w.setTok k t).vreg = w.vreg := rfl
@[simp] theorem Wave.setTok_preds (w : Wave) (k : Nat) (t : Token) : (w.setTok k t).preds = w.preds := rfl
@[simp] theorem Wave.setTok_sreg (w : Wave) (k : Nat) (t : Token) : (w.setTok k t).sreg = w.sreg := rfl
@[simp] theorem Wave.setTok_cond (w : Wave) (k : Nat) (t : Token) : (w.setTok k t).cond = w.cond := rfl
@[simp] theorem Wave.setTok_toks (w : Wave) (k : Nat) (t : Token) : (w.setTok k t).toks = kset {} w.toks k t := rfl
@[simp] theorem Wave.setTok_mode (w : Wave) (k : Nat) (t : Token) : (w.setTok k t).mode = w.mode := rfl
@[simp] theorem Wave.setTok_flags (w : Wave) (k : Nat) (t : Token) : (w.setTok k t).flags = w.flags := rfl
@[simp] theorem Wave.setTok_trapen (w : Wave) (k : Nat) (t : Token) : (w.setTok k t).trapen = w.trapen := rfl
@[simp] theorem Wave.setTok_trapbase (w : Wave) (k : Nat) (t : Token) : (w.setTok k t).trapbase = w.trapbase := rfl
@[simp] theorem Wave.setTok_remain (w : Wave) (k : Nat) (t : Token) : (w.setTok k t).remain = w.remain := rfl
@[simp] theorem Wave.setTok_lpart (w : Wave) (k : Nat) (t : Token) : (w.setTok k t).lpart = w.lpart := rfl
@[simp] theorem Wave.setTok_frags (w : Wave) (k : Nat) (t : Token) : (w.setTok k t).frags = w.frags := rfl
@[simp] theorem Wave.setTok_cur (w : Wave) (k : Nat) (t : Token) : (w.setTok k t).cur = w.cur := rfl
@[simp] theorem Wave.setTok_trapSave (w : Wave) (k : Nat) (t : Token) : (w.setTok k t).trapSave = w.trapSave := rfl
@[simp] theorem Wave.setTok_fences (w : Wave) (k : Nat) (t : Token) : (w.setTok k t).fences = w.fences := rfl
@[simp] theorem Wave.setTok_fenceSeq (w : Wave) (k : Nat) (t : Token) : (w.setTok k t).fenceSeq = w.fenceSeq := rfl
@[simp] theorem Wave.setTok_cursor (w : Wave) (k : Nat) (t : Token) : (w.setTok k t).cursor = w.cursor := rfl
@[simp] theorem Wave.setTok_inflight (w : Wave) (k : Nat) (t : Token) : (w.setTok k t).inflight = w.inflight := rfl
@[simp] theorem Wave.setTok_flagPend (w : Wave) (k : Nat) (t : Token) : (w.setTok k t).flagPend = w.flagPend := rfl
@[simp] theorem Wave.setTok_undef (w : Wave) (k : Nat) (t : Token) : (w.setTok k t).undef = w.undef := rfl
@[simp] theorem Wave.setTok_replay (w : Wave) (k : Nat) (t : Token) : (w.setTok k t).replay = w.replay := rfl
@[simp] theorem Wave.setTok_nextEntry (w : Wave) (k : Nat) (t : Token) : (w.setTok k t).nextEntry = w.nextEntry := rfl
@[simp] theorem Wave.setTok_npFault (w : Wave) (k : Nat) (t : Token) : (w.setTok k t).npFault = w.npFault := rfl
@[simp] theorem Wave.setTok_watchRec (w : Wave) (k : Nat) (t : Token) : (w.setTok k t).watchRec = w.watchRec := rfl
@[simp] theorem Wave.setTok_step (w : Wave) (k : Nat) (t : Token) : (w.setTok k t).step = w.step := rfl
@[simp] theorem Wave.setTok_resident (w : Wave) (k : Nat) (t : Token) : (w.setTok k t).resident = w.resident := rfl
@[simp] theorem Wave.setTok_ended (w : Wave) (k : Nat) (t : Token) : (w.setTok k t).ended = w.ended := rfl

/-! ### Wave.raiseNow -/

@[simp] theorem Wave.raiseNow_task (w : Wave) (f : Word) : (w.raiseNow f).task = w.task := rfl
@[simp] theorem Wave.raiseNow_blk (w : Wave) (f : Word) : (w.raiseNow f).blk = w.blk := rfl
@[simp] theorem Wave.raiseNow_idx (w : Wave) (f : Word) : (w.raiseNow f).idx = w.idx := rfl
@[simp] theorem Wave.raiseNow_core (w : Wave) (f : Word) : (w.raiseNow f).core = w.core := rfl
@[simp] theorem Wave.raiseNow_part (w : Wave) (f : Word) : (w.raiseNow f).part = w.part := rfl
@[simp] theorem Wave.raiseNow_alloc (w : Wave) (f : Word) : (w.raiseNow f).alloc = w.alloc := rfl
@[simp] theorem Wave.raiseNow_vreg (w : Wave) (f : Word) : (w.raiseNow f).vreg = w.vreg := rfl
@[simp] theorem Wave.raiseNow_preds (w : Wave) (f : Word) : (w.raiseNow f).preds = w.preds := rfl
@[simp] theorem Wave.raiseNow_sreg (w : Wave) (f : Word) : (w.raiseNow f).sreg = w.sreg := rfl
@[simp] theorem Wave.raiseNow_cond (w : Wave) (f : Word) : (w.raiseNow f).cond = w.cond := rfl
@[simp] theorem Wave.raiseNow_toks (w : Wave) (f : Word) : (w.raiseNow f).toks = w.toks := rfl
@[simp] theorem Wave.raiseNow_mode (w : Wave) (f : Word) : (w.raiseNow f).mode = w.mode := rfl
@[simp] theorem Wave.raiseNow_flags (w : Wave) (f : Word) : (w.raiseNow f).flags = w.flags ||| f := rfl
@[simp] theorem Wave.raiseNow_trapen (w : Wave) (f : Word) : (w.raiseNow f).trapen = w.trapen := rfl
@[simp] theorem Wave.raiseNow_trapbase (w : Wave) (f : Word) : (w.raiseNow f).trapbase = w.trapbase := rfl
@[simp] theorem Wave.raiseNow_remain (w : Wave) (f : Word) : (w.raiseNow f).remain = w.remain := rfl
@[simp] theorem Wave.raiseNow_lpart (w : Wave) (f : Word) : (w.raiseNow f).lpart = w.lpart := rfl
@[simp] theorem Wave.raiseNow_frags (w : Wave) (f : Word) : (w.raiseNow f).frags = w.frags := rfl
@[simp] theorem Wave.raiseNow_cur (w : Wave) (f : Word) : (w.raiseNow f).cur = w.cur := rfl
@[simp] theorem Wave.raiseNow_trapSave (w : Wave) (f : Word) : (w.raiseNow f).trapSave = w.trapSave := rfl
@[simp] theorem Wave.raiseNow_fences (w : Wave) (f : Word) : (w.raiseNow f).fences = w.fences := rfl
@[simp] theorem Wave.raiseNow_fenceSeq (w : Wave) (f : Word) : (w.raiseNow f).fenceSeq = w.fenceSeq := rfl
@[simp] theorem Wave.raiseNow_cursor (w : Wave) (f : Word) : (w.raiseNow f).cursor = w.cursor := rfl
@[simp] theorem Wave.raiseNow_inflight (w : Wave) (f : Word) : (w.raiseNow f).inflight = w.inflight := rfl
@[simp] theorem Wave.raiseNow_flagPend (w : Wave) (f : Word) : (w.raiseNow f).flagPend = w.flagPend := rfl
@[simp] theorem Wave.raiseNow_undef (w : Wave) (f : Word) : (w.raiseNow f).undef = w.undef := rfl
@[simp] theorem Wave.raiseNow_replay (w : Wave) (f : Word) : (w.raiseNow f).replay = w.replay := rfl
@[simp] theorem Wave.raiseNow_nextEntry (w : Wave) (f : Word) : (w.raiseNow f).nextEntry = w.nextEntry := rfl
@[simp] theorem Wave.raiseNow_npFault (w : Wave) (f : Word) : (w.raiseNow f).npFault = w.npFault := rfl
@[simp] theorem Wave.raiseNow_watchRec (w : Wave) (f : Word) : (w.raiseNow f).watchRec = w.watchRec := rfl
@[simp] theorem Wave.raiseNow_step (w : Wave) (f : Word) : (w.raiseNow f).step = w.step := rfl
@[simp] theorem Wave.raiseNow_resident (w : Wave) (f : Word) : (w.raiseNow f).resident = w.resident := rfl
@[simp] theorem Wave.raiseNow_ended (w : Wave) (f : Word) : (w.raiseNow f).ended = w.ended := rfl

/-! ### Updates that may do nothing -/

@[simp] theorem Wave.wrP_task (w : Wave) (p : Nat) (m : Word) (f : Nat → Bool) : (w.wrP p m f).task = w.task := by
  unfold Wave.wrP; split <;> rfl
@[simp] theorem Wave.wrP_blk (w : Wave) (p : Nat) (m : Word) (f : Nat → Bool) : (w.wrP p m f).blk = w.blk := by
  unfold Wave.wrP; split <;> rfl
@[simp] theorem Wave.wrP_idx (w : Wave) (p : Nat) (m : Word) (f : Nat → Bool) : (w.wrP p m f).idx = w.idx := by
  unfold Wave.wrP; split <;> rfl
@[simp] theorem Wave.wrP_core (w : Wave) (p : Nat) (m : Word) (f : Nat → Bool) : (w.wrP p m f).core = w.core := by
  unfold Wave.wrP; split <;> rfl
@[simp] theorem Wave.wrP_part (w : Wave) (p : Nat) (m : Word) (f : Nat → Bool) : (w.wrP p m f).part = w.part := by
  unfold Wave.wrP; split <;> rfl
@[simp] theorem Wave.wrP_alloc (w : Wave) (p : Nat) (m : Word) (f : Nat → Bool) : (w.wrP p m f).alloc = w.alloc := by
  unfold Wave.wrP; split <;> rfl
@[simp] theorem Wave.wrP_vreg (w : Wave) (p : Nat) (m : Word) (f : Nat → Bool) : (w.wrP p m f).vreg = w.vreg := by
  unfold Wave.wrP; split <;> rfl
@[simp] theorem Wave.wrP_sreg (w : Wave) (p : Nat) (m : Word) (f : Nat → Bool) : (w.wrP p m f).sreg = w.sreg := by
  unfold Wave.wrP; split <;> rfl
@[simp] theorem Wave.wrP_cond (w : Wave) (p : Nat) (m : Word) (f : Nat → Bool) : (w.wrP p m f).cond = w.cond := by
  unfold Wave.wrP; split <;> rfl
@[simp] theorem Wave.wrP_toks (w : Wave) (p : Nat) (m : Word) (f : Nat → Bool) : (w.wrP p m f).toks = w.toks := by
  unfold Wave.wrP; split <;> rfl
@[simp] theorem Wave.wrP_mode (w : Wave) (p : Nat) (m : Word) (f : Nat → Bool) : (w.wrP p m f).mode = w.mode := by
  unfold Wave.wrP; split <;> rfl
@[simp] theorem Wave.wrP_flags (w : Wave) (p : Nat) (m : Word) (f : Nat → Bool) : (w.wrP p m f).flags = w.flags := by
  unfold Wave.wrP; split <;> rfl
@[simp] theorem Wave.wrP_trapen (w : Wave) (p : Nat) (m : Word) (f : Nat → Bool) : (w.wrP p m f).trapen = w.trapen := by
  unfold Wave.wrP; split <;> rfl
@[simp] theorem Wave.wrP_trapbase (w : Wave) (p : Nat) (m : Word) (f : Nat → Bool) : (w.wrP p m f).trapbase = w.trapbase := by
  unfold Wave.wrP; split <;> rfl
@[simp] theorem Wave.wrP_remain (w : Wave) (p : Nat) (m : Word) (f : Nat → Bool) : (w.wrP p m f).remain = w.remain := by
  unfold Wave.wrP; split <;> rfl
@[simp] theorem Wave.wrP_lpart (w : Wave) (p : Nat) (m : Word) (f : Nat → Bool) : (w.wrP p m f).lpart = w.lpart := by
  unfold Wave.wrP; split <;> rfl
@[simp] theorem Wave.wrP_frags (w : Wave) (p : Nat) (m : Word) (f : Nat → Bool) : (w.wrP p m f).frags = w.frags := by
  unfold Wave.wrP; split <;> rfl
@[simp] theorem Wave.wrP_cur (w : Wave) (p : Nat) (m : Word) (f : Nat → Bool) : (w.wrP p m f).cur = w.cur := by
  unfold Wave.wrP; split <;> rfl
@[simp] theorem Wave.wrP_trapSave (w : Wave) (p : Nat) (m : Word) (f : Nat → Bool) : (w.wrP p m f).trapSave = w.trapSave := by
  unfold Wave.wrP; split <;> rfl
@[simp] theorem Wave.wrP_fences (w : Wave) (p : Nat) (m : Word) (f : Nat → Bool) : (w.wrP p m f).fences = w.fences := by
  unfold Wave.wrP; split <;> rfl
@[simp] theorem Wave.wrP_fenceSeq (w : Wave) (p : Nat) (m : Word) (f : Nat → Bool) : (w.wrP p m f).fenceSeq = w.fenceSeq := by
  unfold Wave.wrP; split <;> rfl
@[simp] theorem Wave.wrP_cursor (w : Wave) (p : Nat) (m : Word) (f : Nat → Bool) : (w.wrP p m f).cursor = w.cursor := by
  unfold Wave.wrP; split <;> rfl
@[simp] theorem Wave.wrP_inflight (w : Wave) (p : Nat) (m : Word) (f : Nat → Bool) : (w.wrP p m f).inflight = w.inflight := by
  unfold Wave.wrP; split <;> rfl
@[simp] theorem Wave.wrP_flagPend (w : Wave) (p : Nat) (m : Word) (f : Nat → Bool) : (w.wrP p m f).flagPend = w.flagPend := by
  unfold Wave.wrP; split <;> rfl
@[simp] theorem Wave.wrP_undef (w : Wave) (p : Nat) (m : Word) (f : Nat → Bool) : (w.wrP p m f).undef = w.undef := by
  unfold Wave.wrP; split <;> rfl
@[simp] theorem Wave.wrP_replay (w : Wave) (p : Nat) (m : Word) (f : Nat → Bool) : (w.wrP p m f).replay = w.replay := by
  unfold Wave.wrP; split <;> rfl
@[simp] theorem Wave.wrP_nextEntry (w : Wave) (p : Nat) (m : Word) (f : Nat → Bool) : (w.wrP p m f).nextEntry = w.nextEntry := by
  unfold Wave.wrP; split <;> rfl
@[simp] theorem Wave.wrP_npFault (w : Wave) (p : Nat) (m : Word) (f : Nat → Bool) : (w.wrP p m f).npFault = w.npFault := by
  unfold Wave.wrP; split <;> rfl
@[simp] theorem Wave.wrP_watchRec (w : Wave) (p : Nat) (m : Word) (f : Nat → Bool) : (w.wrP p m f).watchRec = w.watchRec := by
  unfold Wave.wrP; split <;> rfl
@[simp] theorem Wave.wrP_step (w : Wave) (p : Nat) (m : Word) (f : Nat → Bool) : (w.wrP p m f).step = w.step := by
  unfold Wave.wrP; split <;> rfl
@[simp] theorem Wave.wrP_resident (w : Wave) (p : Nat) (m : Word) (f : Nat → Bool) : (w.wrP p m f).resident = w.resident := by
  unfold Wave.wrP; split <;> rfl
@[simp] theorem Wave.wrP_ended (w : Wave) (p : Nat) (m : Word) (f : Nat → Bool) : (w.wrP p m f).ended = w.ended := by
  unfold Wave.wrP; split <;> rfl
@[simp] theorem Wave.raise_task (w : Wave) (f : Word) (due : Nat) : (w.raise f due).task = w.task := by
  unfold Wave.raise; split <;> rfl
@[simp] theorem Wave.raise_blk (w : Wave) (f : Word) (due : Nat) : (w.raise f due).blk = w.blk := by
  unfold Wave.raise; split <;> rfl
@[simp] theorem Wave.raise_idx (w : Wave) (f : Word) (due : Nat) : (w.raise f due).idx = w.idx := by
  unfold Wave.raise; split <;> rfl
@[simp] theorem Wave.raise_core (w : Wave) (f : Word) (due : Nat) : (w.raise f due).core = w.core := by
  unfold Wave.raise; split <;> rfl
@[simp] theorem Wave.raise_part (w : Wave) (f : Word) (due : Nat) : (w.raise f due).part = w.part := by
  unfold Wave.raise; split <;> rfl
@[simp] theorem Wave.raise_alloc (w : Wave) (f : Word) (due : Nat) : (w.raise f due).alloc = w.alloc := by
  unfold Wave.raise; split <;> rfl
@[simp] theorem Wave.raise_vreg (w : Wave) (f : Word) (due : Nat) : (w.raise f due).vreg = w.vreg := by
  unfold Wave.raise; split <;> rfl
@[simp] theorem Wave.raise_preds (w : Wave) (f : Word) (due : Nat) : (w.raise f due).preds = w.preds := by
  unfold Wave.raise; split <;> rfl
@[simp] theorem Wave.raise_sreg (w : Wave) (f : Word) (due : Nat) : (w.raise f due).sreg = w.sreg := by
  unfold Wave.raise; split <;> rfl
@[simp] theorem Wave.raise_cond (w : Wave) (f : Word) (due : Nat) : (w.raise f due).cond = w.cond := by
  unfold Wave.raise; split <;> rfl
@[simp] theorem Wave.raise_toks (w : Wave) (f : Word) (due : Nat) : (w.raise f due).toks = w.toks := by
  unfold Wave.raise; split <;> rfl
@[simp] theorem Wave.raise_mode (w : Wave) (f : Word) (due : Nat) : (w.raise f due).mode = w.mode := by
  unfold Wave.raise; split <;> rfl
@[simp] theorem Wave.raise_flags (w : Wave) (f : Word) (due : Nat) : (w.raise f due).flags = w.flags := by
  unfold Wave.raise; split <;> rfl
@[simp] theorem Wave.raise_trapen (w : Wave) (f : Word) (due : Nat) : (w.raise f due).trapen = w.trapen := by
  unfold Wave.raise; split <;> rfl
@[simp] theorem Wave.raise_trapbase (w : Wave) (f : Word) (due : Nat) : (w.raise f due).trapbase = w.trapbase := by
  unfold Wave.raise; split <;> rfl
@[simp] theorem Wave.raise_remain (w : Wave) (f : Word) (due : Nat) : (w.raise f due).remain = w.remain := by
  unfold Wave.raise; split <;> rfl
@[simp] theorem Wave.raise_lpart (w : Wave) (f : Word) (due : Nat) : (w.raise f due).lpart = w.lpart := by
  unfold Wave.raise; split <;> rfl
@[simp] theorem Wave.raise_frags (w : Wave) (f : Word) (due : Nat) : (w.raise f due).frags = w.frags := by
  unfold Wave.raise; split <;> rfl
@[simp] theorem Wave.raise_cur (w : Wave) (f : Word) (due : Nat) : (w.raise f due).cur = w.cur := by
  unfold Wave.raise; split <;> rfl
@[simp] theorem Wave.raise_trapSave (w : Wave) (f : Word) (due : Nat) : (w.raise f due).trapSave = w.trapSave := by
  unfold Wave.raise; split <;> rfl
@[simp] theorem Wave.raise_fences (w : Wave) (f : Word) (due : Nat) : (w.raise f due).fences = w.fences := by
  unfold Wave.raise; split <;> rfl
@[simp] theorem Wave.raise_fenceSeq (w : Wave) (f : Word) (due : Nat) : (w.raise f due).fenceSeq = w.fenceSeq := by
  unfold Wave.raise; split <;> rfl
@[simp] theorem Wave.raise_cursor (w : Wave) (f : Word) (due : Nat) : (w.raise f due).cursor = w.cursor := by
  unfold Wave.raise; split <;> rfl
@[simp] theorem Wave.raise_inflight (w : Wave) (f : Word) (due : Nat) : (w.raise f due).inflight = w.inflight := by
  unfold Wave.raise; split <;> rfl
@[simp] theorem Wave.raise_undef (w : Wave) (f : Word) (due : Nat) : (w.raise f due).undef = w.undef := by
  unfold Wave.raise; split <;> rfl
@[simp] theorem Wave.raise_replay (w : Wave) (f : Word) (due : Nat) : (w.raise f due).replay = w.replay := by
  unfold Wave.raise; split <;> rfl
@[simp] theorem Wave.raise_nextEntry (w : Wave) (f : Word) (due : Nat) : (w.raise f due).nextEntry = w.nextEntry := by
  unfold Wave.raise; split <;> rfl
@[simp] theorem Wave.raise_npFault (w : Wave) (f : Word) (due : Nat) : (w.raise f due).npFault = w.npFault := by
  unfold Wave.raise; split <;> rfl
@[simp] theorem Wave.raise_watchRec (w : Wave) (f : Word) (due : Nat) : (w.raise f due).watchRec = w.watchRec := by
  unfold Wave.raise; split <;> rfl
@[simp] theorem Wave.raise_step (w : Wave) (f : Word) (due : Nat) : (w.raise f due).step = w.step := by
  unfold Wave.raise; split <;> rfl
@[simp] theorem Wave.raise_resident (w : Wave) (f : Word) (due : Nat) : (w.raise f due).resident = w.resident := by
  unfold Wave.raise; split <;> rfl
@[simp] theorem Wave.raise_ended (w : Wave) (f : Word) (due : Nat) : (w.raise f due).ended = w.ended := by
  unfold Wave.raise; split <;> rfl

end Sys2Proof.Machine
end

