-- ==== Sys2Proof/Laws/Traps.lean ====
section
/-! SUPPORT. Going on, waiting, taking an exception and returning from one, each said once. -/

namespace Sys2Proof.Machine

/-- Going on changes the fragment's program counter alone. -/
theorem advance_eq (s : State) (k : Nat) (w : Wave) (fr : Frag) (n : Nat) :
    advance s k w fr n =
      { s with waves := kinsert s.waves k { w with frags := w.frags.map fun g => if g.num = fr.num then { g with pc := pcAdd fr.pc n } else g } } :=
  rfl

/-- Waiting changes the fragment's standing, and the current fragment of its wave. -/
theorem hold_eq {s : State} {k : Nat} {w : Wave} (h : kfind s.waves k = some w) (n : Nat) (st : FragSt) :
    s.hold k n st =
      { s with waves := kinsert s.waves k { w with
          frags := w.frags.map fun g => if g.num = n then { g with st } else g
          cur := if w.cur = some n then none else w.cur } } := by
  simp [State.hold, State.modWave, h, State.setWave, Wave.modFrag]

theorem wrS_eq (w : Wave) (n : Nat) (v : Word) : w.wrS n v = { w with sreg := (w.wrS n v).sreg } := rfl

/-- Writing s496 to s511 changes no other part of the wave. -/
theorem setHighScalars_eq (w : Wave) (l : List Word) : w.setHighScalars l = { w with sreg := (w.setHighScalars l).sreg } := by
  unfold Wave.setHighScalars
  generalize List.range 16 = r
  induction r generalizing w with
  | nil => rfl
  | cons i r ih => rw [List.foldl_cons, ih]; rfl

/-- R127: entering the handler changes the wave's record alone: every result lands, the fragment stands at %trapbase, and what
the return needs is saved. -/
theorem enterHandler_eq (s : State) (k : Nat) (w : Wave) (fr : Frag) (rc : List Word) (kind len : Nat) (tile : Option (Nat × Nat)) (j : Bool) :
    enterHandler s k w fr rc kind len tile j =
      { s with waves := kinsert s.waves k { w with
          flags := w.flagsAll
          flagPend := []
          inflight := []
          sreg := (w.land.setHighScalars rc).sreg
          frags := w.frags.map fun g => if g.num = fr.num then { g with pc := w.trapbase, st := .issuing, redirect := none, phase := .none } else g
          trapSave := some { frag := fr.num, live := w.frags.map (·.num), pc := fr.pc, mask := fr.mask, words := w.highScalars, len, tile,
                             isJmpt := j, kind, phase := fr.phase }
          cur := some fr.num } } := by
  unfold enterHandler State.setWave
  obtain ⟨g, hg⟩ : ∃ g, w.land.setHighScalars rc = { w.land with sreg := g } := ⟨_, setHighScalars_eq w.land rc⟩
  simp only [hg]
  rfl

/-- R127: a precise exception other than not-present, outside a handler and with %trapbase set, enters the handler. -/
theorem takeTrap_enters {s : State} {k : Nat} {w : Wave} {fr : Frag} {e : Exc} (h : e.kind ≠ 0x12) (hs : w.trapSave = none) (hb : w.trapbase ≠ 0) :
    takeTrap s k w fr e =
      enterHandler s k w.land fr (faultRecord w.land fr fr.pc s.cur.iw0 s.cur.iw1 e) e.kind
        (if s.cur.fused then 32 else wordLen s.cur.iw0) none (bits s.cur.iw0.toNat 63 54 == 0x124) := by
  have h1 : w.land.trapSave = none := hs
  have h2 : w.land.trapbase ≠ 0 := hb
  simp only [takeTrap, h, ne_eq, not_false_eq_true, if_true, State.deliver127, h1, h2, if_false]

/-- R129: the return changes the wave's record alone. -/
theorem leaveHandler_eq (s : State) (k : Nat) (w : Wave) (t : TrapSave) (pc : DWord) :
    leaveHandler s k w t pc =
      { s with waves := kinsert s.waves k { w with
          sreg := (w.setHighScalars t.words).sreg
          frags := w.frags.map fun g => if g.num = t.frag then { g with pc, mask := t.mask, phase := if pc = t.pc then t.phase else .none } else g
          trapSave := none } } := by
  unfold leaveHandler State.setWave
  obtain ⟨g, hg⟩ : ∃ g, w.setHighScalars t.words = { w with sreg := g } := ⟨_, setHighScalars_eq w t.words⟩
  simp only [hg]
  rfl

/-- The scalars after s496 to s511 have been written. -/
theorem sraw_setHighScalars (w : Wave) (l : List Word) (n : Nat) :
    (w.setHighScalars l).sraw n = if 496 ≤ n ∧ n < 512 then l.getD (n - 496) 0 else w.sraw n := by
  have key : ∀ (r : List Nat) (w : Wave), r.Nodup →
      (r.foldl (fun w i => w.wrS (496 + i) (l.getD i 0)) w).sraw n = if 496 ≤ n ∧ n - 496 ∈ r then l.getD (n - 496) 0 else w.sraw n := by
    intro r
    induction r with
    | nil => intro w _; simp
    | cons i r ih =>
      intro w hd
      rw [List.foldl_cons, ih _ (List.nodup_cons.1 hd).2, sraw_wrS]
      have hi := (List.nodup_cons.1 hd).1
      by_cases h : 496 ≤ n ∧ n - 496 ∈ r
      · rw [if_pos h, if_pos ⟨h.1, List.mem_cons_of_mem _ h.2⟩]
      · rw [if_neg h]
        by_cases e : n = 496 + i
        · subst e; simp
        · have : ¬(496 ≤ n ∧ n - 496 ∈ i :: r) := by
            rintro ⟨a, b⟩
            rcases List.mem_cons.1 b with b | b
            · omega
            · exact h ⟨a, b⟩
          rw [if_neg this, if_neg e]
  rw [Wave.setHighScalars, key _ _ List.nodup_range]
  by_cases h : 496 ≤ n ∧ n < 512
  · rw [if_pos h, if_pos ⟨h.1, List.mem_range.2 (by omega)⟩]
  · have : ¬(496 ≤ n ∧ n - 496 ∈ List.range 16) := fun ⟨a, b⟩ => h ⟨a, by have := List.mem_range.1 b; omega⟩
    rw [if_neg h, if_neg this]

end Sys2Proof.Machine
end

