-- ==== Sys2Proof/Laws/Walks.lean ====
section
/-! SUPPORT. Translations whose cached entries agree with memory: they end where a walk of memory alone ends, whatever entry they choose;
and a translation changes no byte of memory. -/

namespace Sys2Proof.Machine

/-- Whether every cached entry by which a walker may go, from level `l` down, holds what memory holds there, with no leaf below the level at
which the walk of memory ends. -/
def State.cacheAgrees (s : State) (w : Walker) (va plc : Nat) : Nat → Nat → Nat → Bool
  | 0, _, _ => true
  | fuel + 1, l, base =>
    let e := ofBytes (s.rdHs (keyOf plc (base + 8 * bits va (levelBits l).1 (levelBits l).2)) 8)
    (s.tlb.all fun t => !(s.fits w va t && t.level = l) || t.entry.toNat = e) &&
    if !bit e 0 || badEntry l e || bit e 4 then s.tlb.all fun t => !(s.fits w va t && bit t.entry.toNat 4) || l ≤ t.level
    else s.cacheAgrees w va plc fuel (l - 1) (bits e 51 8 * 256)

/-- The machine without cached translations. -/
abbrev State.uncached (s : State) : State := { s with tlb := [] }

theorem mem_of_first {α : Type} {l : List α} (p q : α → Bool) {t : α} (h : ((l.find? p).or (l.find? q)).or l.head? = some t) : t ∈ l := by
  rcases h1 : l.find? p with _ | a
  · rcases h2 : l.find? q with _ | b
    · rw [h1, h2] at h
      exact List.mem_of_head? h
    · rw [h1, h2] at h
      exact Option.some.inj h ▸ List.mem_of_find?_eq_some h2
  · rw [h1] at h
    exact Option.some.inj h ▸ List.mem_of_find?_eq_some h1

theorem Tlb.best_mem {l : List Tlb} {t : Tlb} (h : Tlb.best l = some t) : t ∈ l := mem_of_first _ _ h

theorem State.pte_uncached (s : State) (w : Walker) (l va addr plc : Nat) :
    s.uncached.pte w l va addr plc = (ofBytes (s.rdHs (keyOf plc addr) 8), none) := rfl

theorem State.pte_agrees (s : State) (w : Walker) (l va addr plc : Nat)
    (h : (s.tlb.all fun t => !(s.fits w va t && t.level = l) || t.entry.toNat = ofBytes (s.rdHs (keyOf plc addr) 8)) = true) :
    (s.pte w l va addr plc).1 = ofBytes (s.rdHs (keyOf plc addr) 8) := by
  unfold State.pte
  split
  · rename_i t ht
    have hm := List.mem_filter.mp (Tlb.best_mem ht)
    have h1 := List.all_eq_true.mp h t hm.1
    have h2 := hm.2
    simp only [Bool.and_eq_true, Bool.not_eq_true', decide_eq_true_eq] at h2
    obtain ⟨⟨⟨-, h3⟩, h4⟩, -⟩ := h2
    simpa [h3, h4] using h1
  · rfl

/-- A walk by agreeing entries ends where the walk of memory ends. -/
theorem State.walk_agrees (s : State) (w : Walker) (va plc fuel l base : Nat) (h : s.cacheAgrees w va plc fuel l base = true) :
    (s.walk w va plc fuel l base).1 = (s.uncached.walk w va plc fuel l base).1 := by
  induction fuel generalizing l base with
  | zero => rfl
  | succ n ih =>
    rw [State.cacheAgrees] at h
    simp only [Bool.and_eq_true] at h
    have hp := s.pte_agrees w l va _ plc h.1
    have hu := s.pte_uncached w l va (base + 8 * bits va (levelBits l).1 (levelBits l).2) plc
    generalize hq : s.pte w l va (base + 8 * bits va (levelBits l).1 (levelBits l).2) plc = q at hp
    obtain ⟨e, hit⟩ := q
    simp only at hp
    rw [State.walk, State.walk, hq, hu, ← hp]
    have h2 := h.2
    rw [← hp] at h2
    clear hq hu hp h
    have hl : s.uncached.leafOf l e va = s.leafOf l e va := rfl
    by_cases h0 : bit e 0 = true
    · by_cases h1 : badEntry l e = true
      · simp [h0, h1]
      · by_cases h3 : bit e 4 = true
        · simp [h0, h1, h3, hl]
        · have h6 : s.cacheAgrees w va plc n (l - 1) (bits e 51 8 * 256) = true := by simpa [h0, h1, h3] using h2
          simpa [h0, h1, h3] using ih _ _ h6
    · simp [h0]

/-- A cached leaf that agrees gives what the walk of memory gives. -/
theorem State.leaf_agrees (s : State) (w : Walker) (va plc fuel l base : Nat) (f : Leaf) (t : Tlb)
    (h : s.cacheAgrees w va plc fuel l base = true) (hw : (s.uncached.walk w va plc fuel l base).1 = .ok f) (hm : t ∈ s.tlb)
    (hf : s.fits w va t = true) (hb : bit t.entry.toNat 4 = true) (hl : t.level ≤ l) : s.leafOf t.level t.entry.toNat va = .ok f := by
  induction fuel generalizing l base with
  | zero => simp [State.walk] at hw
  | succ n ih =>
    rw [State.cacheAgrees] at h
    simp only [Bool.and_eq_true] at h
    have h1 := List.all_eq_true.mp h.1 t hm
    rw [State.walk, s.pte_uncached] at hw
    generalize he : ofBytes (s.rdHs (keyOf plc (base + 8 * bits va (levelBits l).1 (levelBits l).2)) 8) = e at hw h h1
    have hu : s.uncached.leafOf l e va = s.leafOf l e va := rfl
    have h2 := h.2
    by_cases h0 : bit e 0 = true
    · by_cases h3 : badEntry l e = true
      · simp [h0, h3] at hw
      · by_cases h4 : bit e 4 = true
        · simp only [h4, Bool.or_true, if_true] at h2
          have h5 := List.all_eq_true.mp h2 t hm
          simp only [hf, hb, Bool.and_true, Bool.not_true, Bool.false_or, decide_eq_true_eq] at h5
          have h6 : t.level = l := le_antisymm hl h5
          simp only [hf, h6, decide_true, Bool.and_true, Bool.not_true, Bool.false_or, decide_eq_true_eq] at h1
          rw [h6, h1]
          simpa [h0, h3, h4, hu] using hw
        · have h5 : s.cacheAgrees w va plc n (l - 1) (bits e 51 8 * 256) = true := by simpa [h0, h3, h4] using h2
          have h6 : t.level ≠ l := by
            intro h6
            simp only [hf, h6, decide_true, Bool.and_true, Bool.not_true, Bool.false_or, decide_eq_true_eq] at h1
            rw [h1] at hb
            exact h4 hb
          exact ih (l - 1) _ h5 (by simpa [h0, h3, h4] using hw) (by omega)
    · simp [h0] at hw

/-- The translation, in a bound address space, of an address whose walk of memory ends at a leaf that allows the access. -/
theorem State.translate_agrees (s : State) (w : Walker) (va : Nat) (a : Acc) (eng : Bool) (f : Leaf)
    (hb : (kget {} s.asids w.asid : Asid).st = .bound) (ht : ∀ t ∈ s.tlb, t.level ≤ 4)
    (h : s.cacheAgrees w (va % 2 ^ 57) (kget {} s.asids w.asid : Asid).tplc 5 4 (kget {} s.asids w.asid : Asid).root = true)
    (hw : (s.uncached.walk w (va % 2 ^ 57) (kget {} s.asids w.asid : Asid).tplc 5 4 (kget {} s.asids w.asid : Asid).root).1 = .ok f)
    (hd : f.denied a = none) : (s.translate w va a eng).2 = .ok f := by
  have key : ∃ n, (s.lookup w (va % 2 ^ 57)).2 = .ok (f, n) := by
    unfold State.lookup
    split
    · rename_i t hh
      have hm := List.mem_filter.mp (Tlb.best_mem hh)
      have h2 := hm.2
      simp only [Bool.and_eq_true] at h2
      obtain ⟨⟨h3, h4⟩, -⟩ := h2
      have h5 := s.leaf_agrees w _ _ _ _ _ f t h hw hm.1 h4 h3 (ht t hm.1)
      exact ⟨t.level, congrArg (Except.map fun f => (f, t.level)) h5⟩
    · have h5 := s.walk_agrees w _ _ _ _ _ h
      rw [hw] at h5
      exact ⟨_, congrArg (Except.map fun f => (f, _)) h5⟩
  obtain ⟨n, hn⟩ := key
  unfold State.translate
  simp only [hb, ne_eq, not_true_eq_false, if_false]
  rcases hl : s.lookup w (va % 2 ^ 57) with ⟨s', r⟩
  rw [hl] at hn
  simp only at hn
  subst hn
  simp only [hd]

/-! ### Translation and memory -/

theorem State.fillTlb_rdH (s : State) (t : Tlb) (a : Nat) : (s.fillTlb t).rdH a = s.rdH a := rfl

theorem State.fillL2_rdH (s : State) (l a : Nat) : (s.fillL2 l).rdH a = s.rdH a := by
  unfold State.fillL2
  simp only
  split <;> rfl

theorem State.useTlb_rdH (s : State) (t : Tlb) (a : Nat) : (s.useTlb t).rdH a = s.rdH a := by
  unfold State.useTlb
  split <;> rfl

theorem State.fillLeaf_rdH (s : State) (w : Walker) (va l : Nat) (e : DWord) (k : Bool) (a : Nat) : (s.fillLeaf w va l e k).rdH a = s.rdH a := by
  unfold State.fillLeaf
  simp only
  split <;> split <;> rfl

theorem State.walked_rdH (s : State) (w : Walker) (va : Nat) (seen : List Seen) (a : Nat) : (s.walked w va seen).rdH a = s.rdH a := by
  unfold State.walked
  generalize (seen.any fun x => (x.hit.bind (·.gone)).isSome) = stale
  simp only
  induction seen generalizing s with
  | nil => rfl
  | cons x r ih =>
    rw [List.foldl_cons, ih]
    split
    · exact s.useTlb_rdH _ a
    · have h : ∀ f : Counters → Counters, ((s.count (homeDie x.key) f).fillL2 (x.key / 128)).rdH a = s.rdH a := fun f => State.fillL2_rdH _ _ _
      split
      · exact h _
      · split
        · rw [State.fillLeaf_rdH]; exact h _
        · rw [State.fillTlb_rdH]; exact h _

theorem State.lookup_rdH (s : State) (w : Walker) (va a : Nat) : (s.lookup w va).1.rdH a = s.rdH a := by
  unfold State.lookup
  split
  · simp only [State.useTlb_rdH]
    split
    · rfl
    · exact State.fillLeaf_rdH _ _ _ _ _ _ _
    · rfl
  · exact State.walked_rdH _ _ _ _ _

theorem State.translate_rdH (s : State) (w : Walker) (va : Nat) (acc : Acc) (eng : Bool) (a : Nat) : (s.translate w va acc eng).1.rdH a = s.rdH a := by
  have h := s.lookup_rdH w (va % 2 ^ 57) a
  unfold State.translate
  simp only
  split
  · rfl
  · rcases hl : s.lookup w (va % 2 ^ 57) with ⟨s', r⟩
    rw [hl] at h
    simp only at h ⊢
    rcases r with e | ⟨f, n⟩
    · exact h
    · simp only
      split <;> exact h

theorem State.translate_rdHs (s : State) (w : Walker) (va : Nat) (acc : Acc) (eng : Bool) (a n : Nat) :
    (s.translate w va acc eng).1.rdHs a n = s.rdHs a n := by
  simp only [State.rdHs, State.translate_rdH]

end Sys2Proof.Machine
end

