-- ==== Sys2Proof/Safety.lean ====
section
/-! DEFINITION. What a safe run is: a step that answers a next state, with neither a fault nor a refusal of the model. -/

namespace Sys2Proof

/-- The step completes. -/
def Safe (s : Machine.State) : Prop := ∃ t, Machine.step s = .next t

/-- `n` steps complete. -/
def SafeFor : Nat → Machine.State → Prop
  | 0, _ => True
  | n + 1, s => ∃ t, Machine.step s = .next t ∧ SafeFor n t

end Sys2Proof
end

