-- ==== Sys2Proof/Tests/Slice0.lean ====
section
/-! SUPPORT. Tests of the decoder, of well-formedness and of single steps against the spec, and for each statement a witness that meets its hypotheses. -/

namespace Sys2Proof.Tests

set_option Elab.async false

open Sys2Proof Sys2Proof.Machine Sys2Proof.Claim

/-! ### Words that the spec writes out, and the instructions they stand for -/

theorem test_decode_viadd : decodeThread {} 0x0044B00E01781023 0 = .ok (.viadd ⟨4, ⟨3, true⟩⟩ .i16 true true (.v 7) (.v 5) (.s 2)) := by decide
theorem test_decode_vfadd : decodeThread {} 0x0803201401309180 0 = .ok (.vfadd ⟨3, ⟨2, false⟩⟩ .rn .f32 (.v 10) (.v 4) (.l 2)) := by decide
theorem test_decode_vfma : decodeThread {} 0x08E5702801381880 0x02A0000000000000 = .ok (.vfma ⟨5, ⟨7, false⟩⟩ .mode .f32 (.v 20) (.v 4) (.s 3) (.v 21)) := by decide
theorem test_decode_vmovi : decodeThread {} 0x1224700000000080 0x0008040000000000 = .ok (.vmovi ⟨4, ⟨7, false⟩⟩ .f32 (.v 0) 0x40200000) := by decide
theorem test_decode_exit : decodeThread {} 0x4A00700000000000 0 = .ok (.exit ⟨7, false⟩) := by decide
theorem test_decode_brx : decodeThread {} 0x48A0100000000001 0x0000000003000000 = .ok (.brx ⟨1, false⟩ 1 24) := by decide
theorem test_decode_jmpt : decodeThread {} 0x4920700000814000 0x0000000000000004 = .ok (.jmpt ⟨7, false⟩ 0 (.v 2) 40 5) := by decide
theorem test_decode_rft : decodeThread {} 0x4E007000058FF802 0 = .ok (.rftRedir 22 511) := by decide
theorem test_decode_vcvt : decodeThread {} 0x10057010020000A0 0 = .ok (.vcvt ⟨5, ⟨7, false⟩⟩ .mode .bf16 .i32 (.v 8) (.v 8)) := by decide
theorem test_decode_vld : decodeThread {} 0x8020701000802000 0x0000000001400000 = .ok (.vld ⟨7, false⟩ .i32 0 0 (.v 8) 4 (.v 2) (some 10)) := by decide
theorem test_decode_sld : decodeThread {} 0x80C0702800002000 0 = .ok (.sld .i32 0 0 20 4 0 none) := by decide
theorem test_decode_sst : decodeThread {} 0x8120703000004001 0x0000000000400000 = .ok (.sst .i32 1 0 24 8 0 (some 2)) := by decide
theorem test_decode_fence : decodeThread {} 0x8440705000000031 0 = .ok (.fence false true true 40 .cluster) := by decide
theorem test_decode_fwait : decodeThread {} 0x848070000A000000 0 = .ok (.fwait 40) := by decide
theorem test_decode_rel : decodeThread {} 0x84C0700000000003 0 = .ok (.rel .device) := by decide
theorem test_decode_acq : decodeThread {} 0x8500700000000003 0 = .ok (.acq .device) := by decide
theorem test_decode_ldc : decodeThread {} 0x8820700800800000 0x0000000008000000 = .ok (.ldc ⟨7, false⟩ .i32 0 (.v 4) (.v 2) (some 64)) := by decide
theorem test_decode_bar : decodeThread {} 0x8880700000000019 0 = .ok (.bar (.slot 1) .cluster) := by decide
theorem test_decode_bara : decodeThread {} 0x88C0705000000009 0 = .ok (.bara 40 .gang .cluster) := by decide
theorem test_decode_barw : decodeThread {} 0x890070000A000019 0 = .ok (.barw 40 (.slot 1) .cluster) := by decide
theorem test_decode_vatom : decodeThread {} 0x8C20700A00804000 0x0000000000000009 = .ok (.vatom ⟨7, false⟩ .add .i32 (.v 5) 8 (.v 2) (some (0, .cluster, true))) := by decide
theorem test_decode_cellset : decodeThread {} 0x8CE010200080A000 0x0000000000000003 = .ok (.cellset ⟨1, false⟩ (.v 16) 20 (.v 2) 0 .device) := by decide
theorem test_decode_cellput : decodeThread {} 0x8D00702000804000 0 = .ok (.cellput ⟨7, false⟩ (.v 16) 8 (.v 2)) := by decide
theorem test_decode_cellclr : decodeThread {} 0x8D40700000804003 0 = .ok (.cellclr ⟨7, false⟩ 8 (.v 2) .device) := by decide
theorem test_decode_cellq : decodeThread {} 0x8D80700600804000 0 = .ok (.cellq ⟨7, false⟩ (.v 3) 8 (.v 2)) := by decide
theorem test_decode_suminit : decodeThread {} 0x9000700005000005 0 = .ok (.suminit .qs 0 1 20) := by decide
theorem test_decode_sumadd : decodeThread {} 0x9040100002000001 0 = .ok (.sumadd ⟨1, false⟩ 1 (.v 8)) := by decide
theorem test_decode_sumld : decodeThread {} 0x908070000A004002 0 = .ok (.sumld 2 8 40) := by decide
theorem test_decode_summrg : decodeThread {} 0x910070000A00400D 0 = .ok (.summrg 1 8 40 .device) := by decide
theorem test_decode_sumqry : decodeThread {} 0x9160705800000001 0x0007EE6666600000 = .ok (.sumqry .q 44 1 0 (some 0x3F733333)) := by decide
theorem test_decode_enq : decodeThread {} 0x91A070500A804000 0x0580000000000001 = .ok (.enq 40 42 8 44 0 2) := by decide
theorem test_decode_rld : decodeThread {} 0x9200701000802000 0 = .ok (.rld ⟨7, false⟩ .i32 0 (.v 8) 4 (.v 2) none) := by decide
theorem test_decode_rst : decodeThread {} 0x9240701200802000 0 = .ok (.rst ⟨7, false⟩ .i32 0 (.v 9) 4 (.v 2) none) := by decide
theorem test_decode_rred : decodeThread {} 0x92A0701200802080 0x0000000000000004 = .ok (.rred ⟨7, false⟩ .add .f32 (.v 9) 4 (.v 2) 0 .system) := by decide
theorem test_decode_coll : decodeThread {} 0x91E0101200801880 0x0640000000000828 = .ok (.coll ⟨1, false⟩ .add .f32 (.v 9) (.v 2) (.v 3) 50 0 40 .system) := by decide
theorem test_decode_collBar : decodeThread {} 0x91E0700000000007 0x0640000000000828 = .ok (.collBar ⟨7, false⟩ 50 40 .system) := by decide
theorem test_decode_gate : decodeThread { maps := [(false, 0), (true, 0)] } 0x8420703C08000001 0x00000000400F87E0 = .ok (.gate 30 32 1 0x200 0 31 1 31) := by decide
theorem test_bundle_tclaim_azero : decodeBundle 0x01000000000000C0000000000000000104000000000000000000000000000000 = .ok ⟨1, .normal, [(1, .azero 0), (3, .tclaim 1)]⟩ := by decide
theorem test_bundle_cpin : decodeBundle 0x0100000000000000000000000000000044080000000000000000000000000000 = .ok ⟨1, .normal, [(3, .cpin 1 0 true none)]⟩ := by decide
theorem test_bundle_mma_trel : decodeBundle 0x010000000000004005F000000000000144000000000000000000000000000000 = .ok ⟨1, .normal, [(1, .mma 0 0 1 (.const 32)), (3, .trel 1)]⟩ := by decide
theorem test_bundle_trgate : decodeBundle 0x0130000000000000000000000000000000000000000000000000000000000000 = .ok ⟨1, .trgate, []⟩ := by decide

/-! ### Each check of WellFormed: a term it admits and one it refuses -/

theorem test_wf_vector_allocation : Instr.wf { nv := 8 } (.vand ⟨4, ⟨7, false⟩⟩ (.v 0) (.v 7) (.v 1)) = true ∧ Instr.wf { nv := 8 } (.vand ⟨4, ⟨7, false⟩⟩ (.v 0) (.v 8) (.v 1)) = false := by decide
theorem test_wf_last_file : Instr.wf {} (.vand ⟨4, ⟨7, false⟩⟩ (.l 3) (.v 0) (.o 15)) = true ∧ Instr.wf {} (.vand ⟨4, ⟨7, false⟩⟩ (.l 4) (.v 0) (.o 15)) = false := by decide
theorem test_wf_operand_file : Instr.wf {} (.vand ⟨4, ⟨7, false⟩⟩ (.o 15) (.v 0) (.v 0)) = true ∧ Instr.wf {} (.vand ⟨4, ⟨7, false⟩⟩ (.o 16) (.v 0) (.v 0)) = false := by decide
theorem test_wf_broadcast_source : Instr.wf {} (.vand ⟨4, ⟨7, false⟩⟩ (.v 0) (.s 255) (.v 0)) = true ∧ Instr.wf {} (.vand ⟨4, ⟨7, false⟩⟩ (.v 0) (.s 256) (.v 0)) = false := by decide
theorem test_wf_broadcast_destination : Instr.wf {} (.vmov ⟨4, ⟨7, false⟩⟩ (.v 0) (.s 0)) = true ∧ Instr.wf {} (.vmov ⟨4, ⟨7, false⟩⟩ (.s 0) (.s 0)) = false := by decide
theorem test_wf_guard_predicate : Instr.wf {} (.vmov ⟨4, ⟨7, true⟩⟩ (.v 0) (.v 1)) = true ∧ Instr.wf {} (.vmov ⟨4, ⟨8, false⟩⟩ (.v 0) (.v 1)) = false := by decide
theorem test_wf_latency_bound : Instr.wf {} (.vmov ⟨2, ⟨7, false⟩⟩ (.v 0) (.l 1)) = true ∧ Instr.wf {} (.vmov ⟨3, ⟨7, false⟩⟩ (.v 0) (.v 1)) = false := by decide
theorem test_wf_latency_field : Instr.wf {} (.vmov ⟨31, ⟨7, false⟩⟩ (.v 0) (.v 1)) = true ∧ Instr.wf {} (.vmov ⟨32, ⟨7, false⟩⟩ (.v 0) (.v 1)) = false := by decide
theorem test_wf_predicate_destination : Instr.wf {} (.vicmp ⟨4, ⟨7, false⟩⟩ .i32 .eq 7 (.v 0) (.v 1)) = true ∧ Instr.wf {} (.vicmp ⟨4, ⟨7, false⟩⟩ .i32 .eq 8 (.v 0) (.v 1)) = false := by decide
theorem test_wf_packed_word : Instr.wf {} (.viadd ⟨4, ⟨7, false⟩⟩ .i16 false true (.v 0) (.v 1) (.v 2)) = true ∧ Instr.wf {} (.viadd ⟨4, ⟨7, false⟩⟩ .i32 false true (.v 0) (.v 1) (.v 2)) = false := by decide
theorem test_wf_integer_type : Instr.wf {} (.viadd ⟨4, ⟨7, false⟩⟩ .u4 false true (.v 0) (.v 1) (.v 2)) = true ∧ Instr.wf {} (.viadd ⟨4, ⟨7, false⟩⟩ .f32 false false (.v 0) (.v 1) (.v 2)) = false := by decide
theorem test_wf_word_type : Instr.wf {} (.vimulh ⟨4, ⟨7, false⟩⟩ .u32 (.v 0) (.v 1) (.v 2)) = true ∧ Instr.wf {} (.vimulh ⟨4, ⟨7, false⟩⟩ .u16 (.v 0) (.v 1) (.v 2)) = false := by decide
theorem test_wf_signed_type : Instr.wf {} (.viabs ⟨4, ⟨7, false⟩⟩ .i8 false false (.v 0) (.v 1)) = true ∧ Instr.wf {} (.viabs ⟨4, ⟨7, false⟩⟩ .u8 false false (.v 0) (.v 1)) = false := by decide
theorem test_wf_vlea_shift : Instr.wf {} (.vlea ⟨4, ⟨7, false⟩⟩ 7 (.v 0) (.v 1) (.v 2)) = true ∧ Instr.wf {} (.vlea ⟨4, ⟨7, false⟩⟩ 8 (.v 0) (.v 1) (.v 2)) = false := by decide
theorem test_wf_float_type : Instr.wf {} (.vfadd ⟨5, ⟨7, false⟩⟩ .rn .pbf16 (.v 0) (.v 1) (.v 2)) = true ∧ Instr.wf {} (.vfadd ⟨5, ⟨7, false⟩⟩ .rn .i32 (.v 0) (.v 1) (.v 2)) = false := by decide
theorem test_wf_scalar_float_type : Instr.wf {} (.vfclass ⟨5, ⟨7, false⟩⟩ .mode .bf16 (.v 0) (.v 1)) = true ∧ Instr.wf {} (.vfclass ⟨5, ⟨7, false⟩⟩ .mode .pf16 (.v 0) (.v 1)) = false := by decide
theorem test_wf_pair_type : Instr.wf {} (.vpack ⟨5, ⟨7, false⟩⟩ .mode .pf16 (.v 0) (.v 1) (.v 2)) = true ∧ Instr.wf {} (.vpack ⟨5, ⟨7, false⟩⟩ .mode .f16 (.v 0) (.v 1) (.v 2)) = false := by decide
theorem test_wf_conversion_types : Instr.wf {} (.vcvt ⟨5, ⟨7, false⟩⟩ .mode .f16 .f32 (.v 0) (.v 1)) = true ∧ Instr.wf {} (.vcvt ⟨5, ⟨7, false⟩⟩ .mode .f32 .f32 (.v 0) (.v 1)) = false := by decide
theorem test_wf_compress_pair : Instr.wf {} (.vcmprs ⟨6, ⟨7, false⟩⟩ .pf16 (.v 2) (.v 1) (some (.v 0))) = true ∧ Instr.wf {} (.vcmprs ⟨6, ⟨7, false⟩⟩ .pf16 (.v 3) (.v 1) (some (.v 0))) = false := by decide
theorem test_wf_dot_type : Instr.wf {} (.vdot4 ⟨4, ⟨7, false⟩⟩ .u4 false true (.v 0) (.v 1) (.v 2) (.v 3)) = true ∧ Instr.wf {} (.vdot4 ⟨4, ⟨7, false⟩⟩ .i16 false true (.v 0) (.v 1) (.v 2) (.v 3)) = false := by decide
theorem test_wf_short_immediate : Instr.wf {} (.vmovi ⟨4, ⟨7, false⟩⟩ .f16 (.v 0) 0xFFFF) = true ∧ Instr.wf {} (.vmovi ⟨4, ⟨7, false⟩⟩ .f16 (.v 0) 0x10000) = false := by decide
theorem test_wf_reduction_operator : Instr.wf {} (.vred ⟨6, ⟨7, false⟩⟩ .f32 .max (.v 0) (.v 1)) = true ∧ Instr.wf {} (.vred ⟨6, ⟨7, false⟩⟩ .f32 .xor (.v 0) (.v 1)) = false := by decide
theorem test_wf_s2v_spread : Instr.wf {} (.s2v ⟨6, ⟨7, false⟩⟩ true (.v 0) 480) = true ∧ Instr.wf {} (.s2v ⟨6, ⟨7, false⟩⟩ true (.v 0) 481) = false := by decide
theorem test_wf_scalar_number : Instr.wf {} (.smov 4 511 0) = true ∧ Instr.wf {} (.smov 4 512 0) = false := by decide
theorem test_wf_scalar_pair : Instr.wf {} (.ret 510) = true ∧ Instr.wf {} (.ret 511) = false := by decide
theorem test_wf_condition_number : Instr.wf {} (.brc 3 false 0) = true ∧ Instr.wf {} (.brc 4 false 0) = false := by decide
theorem test_wf_scmp_type : Instr.wf {} (.scmp 4 .f32 (.flt .un) 0 1 2) = true ∧ Instr.wf {} (.scmp 4 .f32 (.int .eq) 0 1 2) = false := by decide
theorem test_wf_scvt_types : Instr.wf {} (.scvt 5 .mode .f32 .i32 0 1) = true ∧ Instr.wf {} (.scvt 5 .mode .f16 .i32 0 1) = false := by decide
theorem test_wf_token : Instr.wf {} (.join 15) = true ∧ Instr.wf {} (.join 16) = false := by decide
theorem test_wf_jump_table : Instr.wf {} (.jmpt ⟨7, false⟩ 0 (.v 0) 448 64) = true ∧ Instr.wf {} (.jmpt ⟨7, false⟩ 0 (.v 0) 449 64) = false := by decide
theorem test_wf_wait_thresholds : Instr.wf {} (.waitc 2047 2047 2047 255) = true ∧ Instr.wf {} (.waitc 2047 2047 2047 256) = false := by decide
theorem test_wf_partition : Instr.wf {} (.spart 4) = true ∧ Instr.wf {} (.spart 5) = false := by decide
theorem test_wf_special_register : Instr.wf {} (.srd 4 .scalar (.v 0) 0 531) = true ∧ Instr.wf {} (.srd 4 .scalar (.v 0) 0 532) = false := by decide
theorem test_wf_special_pair : Instr.wf {} (.srd 4 .pair (.v 0) 2 530) = true ∧ Instr.wf {} (.srd 4 .pair (.v 0) 2 529) = false := by decide
theorem test_wf_trapbase_pair : Instr.wf {} (.swr true 528 2) = true ∧ Instr.wf {} (.swr false 528 2) = false := by decide
theorem test_wf_trap_number : Instr.wf {} (.trap 255) = true ∧ Instr.wf {} (.trap 256) = false := by decide
theorem test_wf_memory_type : Instr.wf {} (.vld ⟨7, false⟩ .f16 0 2 (.v 0) 4 (.v 1) none) = true ∧ Instr.wf {} (.vld ⟨7, false⟩ .i4 0 2 (.v 0) 4 (.v 1) none) = false := by decide
theorem test_wf_register_count : Instr.wf {} (.vld ⟨7, false⟩ .i32 2 0 (.v 8) 4 (.v 1) none) = true ∧ Instr.wf {} (.vld ⟨7, false⟩ .i16 1 0 (.v 8) 4 (.v 1) none) = false := by decide
theorem test_wf_register_group : Instr.wf {} (.vld ⟨7, false⟩ .i32 2 0 (.v 8) 4 (.v 1) none) = true ∧ Instr.wf {} (.vld ⟨7, false⟩ .i32 2 0 (.v 9) 4 (.v 1) none) = false := by decide
theorem test_wf_record_quad : Instr.wf {} (.vld ⟨7, false⟩ .i32 0 0 (.v 8) 508 (.v 1) none) = true ∧ Instr.wf {} (.vld ⟨7, false⟩ .i32 0 0 (.v 8) 506 (.v 1) none) = false := by decide
theorem test_wf_scalar_data : Instr.wf {} (.sld .i32 2 0 508 4 0 none) = true ∧ Instr.wf {} (.sld .i32 2 0 510 4 0 none) = false := by decide
theorem test_wf_circular_buffer : Instr.wf { ncb := 2 } (.cbinit 1 0 0) = true ∧ Instr.wf { ncb := 2 } (.cbinit 2 0 0) = false := by decide
theorem test_wf_copy_size : Instr.wf {} (.cpy ⟨7, false⟩ 2 false (some 7) (.v 0) 4 (.v 1) 0) = true ∧ Instr.wf {} (.cpy ⟨7, false⟩ 3 false (some 7) (.v 0) 4 (.v 1) 0) = false := by decide
theorem test_wf_copy_out_buffer : Instr.wf {} (.cpy ⟨7, false⟩ 2 true none (.v 0) 4 (.v 1) 0) = true ∧ Instr.wf {} (.cpy ⟨7, false⟩ 2 true (some 1) (.v 0) 4 (.v 1) 0) = false := by decide
theorem test_wf_batch : Instr.wf {} (.cwait 7) = true ∧ Instr.wf {} (.cwait 8) = false := by decide
theorem test_wf_gate_arguments : Instr.wf {} (.gate 0 480 16 0 31 31 31 31) = true ∧ Instr.wf {} (.gate 0 482 16 0 31 31 31 31) = false := by decide
theorem test_wf_gate_map : Instr.wf { maps := [(false, 0), (true, 0)] } (.gate 0 0 0 0 0 31 1 31) = true ∧ Instr.wf { maps := [(false, 0), (true, 0)] } (.gate 0 0 0 0 1 31 1 31) = false := by decide
theorem test_wf_gate_map_targets : Instr.wf { maps := [(false, 0), (false, 1), (false, 0)] } (.gate 0 0 0 0 0 1 31 31) = true ∧ Instr.wf { maps := [(false, 0), (false, 1), (false, 0)] } (.gate 0 0 0 0 0 2 31 31) = false := by decide
theorem test_wf_fence_classes : Instr.wf {} (.fence true false false 0 .device) = true ∧ Instr.wf {} (.fence false false false 0 .device) = false := by decide
theorem test_wf_barrier_slot : Instr.wf {} (.bar (.slot 3) .core) = true ∧ Instr.wf {} (.bar (.slot 4) .core) = false := by decide
theorem test_wf_nest_registers : Instr.wf {} (.tloopNext 4 3) = true ∧ Instr.wf {} (.tloopNext 5 3) = false := by decide
theorem test_wf_atomic_operator : Instr.wf {} (.vatom ⟨7, false⟩ .max .f32 (.v 0) 4 (.v 1) none) = true ∧ Instr.wf {} (.vatom ⟨7, false⟩ .xor .f32 (.v 0) 4 (.v 1) none) = false := by decide
theorem test_wf_cell_group : Instr.wf {} (.cellput ⟨7, false⟩ (.v 8) 4 (.v 1)) = true ∧ Instr.wf {} (.cellput ⟨7, false⟩ (.v 12) 4 (.v 1)) = false := by decide
theorem test_wf_summary_buffer : Instr.wf { nsum := 2 } (.sumld 1 4 0) = true ∧ Instr.wf { nsum := 2 } (.sumld 2 4 0) = false := by decide
theorem test_wf_summary_coin : Instr.wf {} (.suminit .qs 2 0 0) = true ∧ Instr.wf { det := true } (.suminit .qs 2 0 0) = false ∧
    Instr.wf {} (.suminit .hh 1 0 0) = false := by decide
theorem test_wf_enqueue_count : Instr.wf {} (.enq 0 0 4 0 0 16) = true ∧ Instr.wf {} (.enq 0 0 4 0 0 17) = false := by decide
theorem test_wf_collective_scope : Instr.wf {} (.collBar ⟨7, false⟩ 0 2 .system) = true ∧ Instr.wf {} (.collBar ⟨7, false⟩ 0 2 .die) = false := by decide
theorem test_wf_remote_operator : Instr.wf {} (.rred ⟨7, false⟩ .add .i32 (.v 0) 4 (.v 1) 0 .device) = true ∧ Instr.wf {} (.rred ⟨7, false⟩ .xchg .i32 (.v 0) 4 (.v 1) 0 .device) = false := by decide
theorem test_wf_fused_operands :
    FusedOps.ok {} { g := ⟨7, false⟩, rnd2 := .mode, d1 := .v 1, a1 := .v 0, d2 := .v 2, a2 := .v 0, d3 := .v 3, d4 := .v 4 } = true ∧
    FusedOps.ok {} { g := ⟨7, false⟩, rnd2 := .mode, d1 := .s 1, a1 := .v 0, d2 := .v 2, a2 := .v 0, d3 := .v 3, d4 := .v 4 } = false := by decide
theorem test_wf_tile_register : Instr.wf {} (.tadd 63 0 (.inl 63)) = true ∧ Instr.wf {} (.tadd 63 0 (.inl 64)) = false := by decide
theorem test_wf_tile_special : Instr.wf {} (.tset 0 (.special 2)) = true ∧ Instr.wf {} (.tset 0 (.special 3)) = false := by decide
theorem test_wf_tile_depth : Instr.wf {} (.mma 0 0 0 (.const 64)) = true ∧ Instr.wf {} (.mma 0 0 0 (.const 65)) = false := by decide
theorem test_wf_tile_slot : Instr.wf {} (.trn 15 0) = true ∧ Instr.wf {} (.trn 16 0) = false := by decide
theorem test_wf_tile_batch : Instr.wf {} (.tcseal 7) = true ∧ Instr.wf {} (.tcseal 8) = false := by decide
theorem test_wf_tile_trap : Instr.wf {} (.ttrap 255) = true ∧ Instr.wf {} (.ttrap 256) = false := by decide
theorem test_wf_rescale_register : Instr.wf {} (.aresc 0 (.mul 63)) = true ∧ Instr.wf {} (.aresc 0 (.mul 64)) = false := by decide
theorem test_wf_copy_offset : Instr.wf {} (.cpin 0 0 false (some 63)) = true ∧ Instr.wf {} (.cpin 0 0 false (some 64)) = false := by decide
theorem test_wf_port_offset : Instr.wf {} (.ardF32 15 63) = true ∧ Instr.wf {} (.ardF32 15 64) = false := by decide
theorem test_wf_packet_address : Instr.wf {} (.ib 0x40 1) = true ∧ Instr.wf {} (.ib 0x48 1) = false := by decide
theorem test_wf_canonical_address : Instr.wf {} (.ib 0xFF00000000000000 1) = true ∧ Instr.wf {} (.ib 0x0100000000000000 1) = false := by decide
theorem test_wf_buffer_length : Instr.wf {} (.ib 0 0x100000) = true ∧ Instr.wf {} (.ib 0 0x100001) = false := by decide
theorem test_wf_memory_test : Instr.wf {} (.waitmem ⟨0x1000, 0, 0, 5, true⟩) = true ∧ Instr.wf {} (.waitmem ⟨0x1004, 0, 0, 5, true⟩) = false := by decide
theorem test_wf_test_operator : Instr.wf {} (.waitmem ⟨0x1000, 0, 0, 5, true⟩) = true ∧ Instr.wf {} (.waitmem ⟨0x1000, 0, 0, 6, true⟩) = false := by decide
theorem test_wf_skip_count : Instr.wf {} (.pred ⟨0, 0, 0, 0, false⟩ 255) = true ∧ Instr.wf {} (.pred ⟨0, 0, 0, 0, false⟩ 256) = false := by decide
theorem test_wf_loop_body : Instr.wf {} (.packetLoop 1 15) = true ∧ Instr.wf {} (.packetLoop 1 16) = false := by decide
theorem test_wf_write_scope : Instr.wf {} (.write 8 0 .core false) = true ∧ Instr.wf {} (.write 8 0 .block false) = false := by decide

/-- A launch of one block, as DISPATCH gives it. -/
def launchPkt : DispatchPkt := { kdesc := 0x40, nblk := 8, gsz := 4, det := false, cnt := false, idem := false, aff := false, prio := 15, gtab := 0, stab := 0, scnt := 0, crec := 0 }
theorem test_wf_dispatch : Instr.wf {} (.dispatch launchPkt) = true ∧ Instr.wf {} (.dispatch { launchPkt with kdesc := 0x44 }) = false ∧
    Instr.wf {} (.dispatch { launchPkt with gsz := 3 }) = false ∧ Instr.wf {} (.dispatch { launchPkt with prio := 16 }) = false ∧
    Instr.wf {} (.dispatch { launchPkt with gtab := 8 }) = false ∧ Instr.wf {} (.dispatch { launchPkt with scnt := 1 }) = false ∧
    Instr.wf {} (.dispatch { launchPkt with cnt := true }) = false ∧ Instr.wf {} (.dispatch { launchPkt with nblk := 0 }) = false := by decide
theorem test_wf_bcast : Instr.wf {} (.bcast ⟨0x20, 1, 16, 15, false, false, 0xFF⟩) = true ∧ Instr.wf {} (.bcast ⟨0x28, 1, 16, 15, false, false, 0⟩) = false ∧
    Instr.wf {} (.bcast ⟨0x20, 4, 16, 15, false, false, 0⟩) = false ∧ Instr.wf {} (.bcast ⟨0x20, 1, 17, 15, false, false, 0⟩) = false ∧
    Instr.wf {} (.bcast ⟨0x20, 1, 16, 15, false, false, 0x100⟩) = false := by decide

/-! ### Small states for the tests and witnesses -/

/-- Tables at 0x2000, 0x4000 and 0x5000 whose only leaf maps the first 512 MiB to themselves, readable, writable and executable. -/
def tables : Memory := Memory.writes []
  [(keyOf 0 0x2000, 0x01), (keyOf 0 0x2001, 0x40), (keyOf 0 0x4000, 0x01), (keyOf 0 0x4001, 0x50), (keyOf 0 0x5000, 0x1F)]

def desc : KDesc := { entry := 0x10000, trapb := 0x20000, nwave := 1, vregs := 64, win := 1, ncb := 2, nbank := 2, nsum := 1 }
def launch1 : Launch :=
  { queue := 0, proc := 1, asid := 1, desc, kdescVa := 0x40, nblk := 1, gsz := 1, prio := 0, det := false, cnt := false, idem := false, aff := false }
def grant1 : Grant := { core := 0, blk := 0, part := 0, winBase := 0, winLen := 4096, cbs := [0, 1], bankBase := 0, nbank := 2, sums := [(0, [0])] }
def task1 : Task := { launch := 1, gang := 0, st := .resident, nblk := 1, desc, grants := [grant1], waves := [2048], everPlaced := true }

/-- One fragment of all lanes at 0x10000. -/
def fr0 : Frag := { num := 0, pc := 0x10000, mask := 0xFFFFFFFF, st := .issuing }
/-- A wave whose v0 holds 7 in lane 0 and 0x80000000 in lane 1, and s0 to s7 hold a buffer record of 256 words at 0 and another at 0x100. -/
def wave1 : Wave :=
  { task := 1, blk := 0, idx := 0, core := 0, part := 0, alloc := 64, trapbase := 0x20000, frags := [fr0], cur := some 0
    vreg := [(0, 7), (1, 0x80000000)], preds := [(1, 1)], sreg := [(2, 4), (3, 256), (4, 0x100), (6, 4), (7, 256)] }
/-- The device runs that wave's fragment. -/
def st (w : Wave) : State :=
  { hub := { on := true, booted := true }, mem := tables, asids := [(1, { st := .bound, root := 0x2000 })], launches := [(1, launch1)], nextLaunch := 2
    tasks := [(1, task1)], nextTask := 2, waves := [(2048, w)], procs := [(1, { asid := some 1 })],
    queues := [(0, { st := 1, asid := 1, proc := 1, ring := 0x8000, flog := 0x9000, levels := [{ ring := true, base := 0x8000, len := 0, pos := 0 }] })]
    cur := { actor := .frag 2048 0 } }
def s0 : State := st wave1

/-- What `f` sees of a next state, of which there must be one. -/
def after {α : Type} (o : Out) (f : State → α) : Option α :=
  match o with
  | .next t => some (f t)
  | _ => none
/-- The record of the wave after an instruction. -/
def waveAfter {α : Type} (o : Out) (f : Wave → α) : Option α := (after o fun t => (kfind t.waves 2048).map f).join
def v1 : Hdr := { lat := 4, g := { p := 7, neg := false } }

/-! ### Witnesses: a state and operands that meet the hypotheses of each statement -/

theorem witness_issues : Issues s0 2048 wave1 fr0 := by unfold Issues; decide
theorem witness_IntegerArithmetic : Issues s0 2048 wave1 fr0 ∧ isIntTy .i32 ∧ isIntTy .u4 := by unfold Issues isIntTy; decide
theorem witness_IntegerChoose : Issues s0 2048 wave1 fr0 ∧ isIntTy .i8 := by unfold Issues isIntTy; decide
theorem witness_BitsAndShifts : Issues s0 2048 wave1 fr0 := witness_issues
theorem witness_DotInteger : Issues s0 2048 wave1 fr0 ∧ (Ty.i4, Ty.u4, true) ∈ [(Ty.i8, Ty.i8, false), (.u8, .u8, false), (.i4, .i4, false),
    (.u4, .u4, false), (.i8, .u8, true), (.u8, .i8, true), (.i4, .u4, true), (.u4, .i4, true)] := by unfold Issues; decide
theorem witness_FloatArithmetic : Issues s0 2048 wave1 fr0 := witness_issues

/-- A wave whose v1 holds a signalling NaN in lane 0. -/
def waveNaN : Wave := { wave1 with vreg := [(32, 0x7F800001)] }
theorem witness_FloatOrderAndNaN : Issues (st waveNaN) 2048 waveNaN fr0 ∧ Ty.f32 ∈ [Ty.f32, .f16, .bf16] ∧ modeF32Sub waveNaN.mode = false ∧
    modeH16Sub waveNaN.mode = false ∧ modeNanm waveNaN.mode = false ∧ Picked (st waveNaN) waveNaN fr0 v1.g 0 ∧
    isNaN fp32 (inA (st waveNaN) waveNaN (.v 1) 0).toNat ∧ ¬isQuiet fp32 (inA (st waveNaN) waveNaN (.v 1) 0).toNat := by
  unfold Issues Picked; decide
theorem witness_FloatClass : Issues s0 2048 wave1 fr0 ∧ Ty.bf16 ∈ [Ty.f32, .f16, .bf16] := by unfold Issues; decide
theorem witness_Rounding : fp16 ∈ [fp32, fp16, bf16] ∧ 0x7BFF < 2 ^ fp16.width ∧ expOf fp16 0x7BFF ≠ 2 ^ fp16.eb - 1 := by decide
theorem witness_RoundingChooses : isFin fp32 0x3F800000 ∧ isFin fp32 0xBF800000 ∧ isFin fp32 0x40000000 ∧
    (2 ^ (fp32.eb + fp32.mb) ≤ 0x3F800000 ↔ 0xBF800000 < 2 ^ (fp32.eb + fp32.mb)) ∧ expOf fp32 (fp32.round 1 false false false 1 (-149) false).1 = 0 := by
  decide +kernel
theorem witness_SpecialFunctions : Issues s0 2048 wave1 fr0 := witness_issues
theorem witness_Conversions : Issues s0 2048 wave1 fr0 ∧ isIntTy .i32 ∧ ¬isIntTy .f32 := by unfold Issues isIntTy; decide

theorem witness_Moves : Issues s0 2048 wave1 fr0 ∧ Picked s0 wave1 fr0 v1.g 0 ∧ (∀ l, Picked s0 wave1 fr0 v1.g l → 0 ≤ l) ∧
    sel s0 wave1 fr0 { p := 7, neg := true } = 0 := by
  refine ⟨witness_issues, ?_, fun _ _ => Nat.zero_le _, ?_⟩
  · unfold Picked; decide
  · decide
theorem witness_Moves_none : ¬∃ m, Picked s0 wave1 fr0 { p := 7, neg := true } m := by
  rintro ⟨m, _, _, h⟩; exact h rfl
theorem witness_Compress : Issues s0 2048 wave1 fr0 ∧ Ty.pf16 = .pf16 := by unfold Issues; decide
theorem witness_Exchange : Issues s0 2048 { wave1 with lpart := 0 } fr0 ∧ wave1.lpart ≤ 5 := by unfold Issues; decide
theorem witness_Reductions : Issues s0 2048 wave1 fr0 ∧ wave1.lpart ≤ 5 ∧ RedOp.add ∈ [RedOp.add, .min, .max] ∧
    tileLanes s0 { wave1 with lpart := 5 } fr0 v1.g 3 = [3] := by unfold Issues; decide
theorem witness_FusedSoftmax : Issues s0 2048 wave1 fr0 ∧ wave1.lpart ≤ 5 := by unfold Issues; decide
theorem witness_ScalarArithmetic : Issues s0 2048 wave1 fr0 ∧ isIntTy .u32 ∧ 3 < 4 := by unfold Issues isIntTy; decide
theorem witness_PredicatesAndGuards : Issues s0 2048 wave1 fr0 ∧ v1.g.p = 7 := by unfold Issues; decide
/-- A wave whose scalars hold a legal %mode, a %flags value and an aligned pair. -/
def waveSwr : Wave := { wave1 with sreg := [(0, 0x7D), (1, 0xFF), (2, 0x20008), (4, 6), (5, 0)] }
theorem witness_SpecialRegisters : Issues (st waveSwr) 2048 waveSwr fr0 ∧ 1 ≤ (rdS (st waveSwr) waveSwr 1 0).toNat % 8 ∧
    (rdS (st waveSwr) waveSwr 1 0).toNat % 8 ≤ 5 ∧ (rdS (st waveSwr) waveSwr 1 0).toNat < 128 ∧ (rdS (st waveSwr) waveSwr 1 1).toNat < 256 ∧
    (rdS2 (st waveSwr) waveSwr 1 2).toNat % 8 = 0 ∧ ((rdS2 (st waveSwr) waveSwr 1 2).setWidth 57).signExtend 64 = rdS2 (st waveSwr) waveSwr 1 2 ∧
    5 < (rdS (st waveSwr) waveSwr 1 4).toNat % 8 ∧ (rdS (st waveSwr) waveSwr 1 5).toNat % 8 = 0 ∧ 523 ∉ [524, 525, 526, 527] := by
  unfold Issues; decide
theorem witness_BranchesAndTargets : Issues s0 2048 wave1 fr0 ∧ GoodTarget (fr0.pc + (8 : Word).signExtend 64) ∧
    ¬GoodTarget (fr0.pc + (4 : Word).signExtend 64) ∧ GoodTarget (rdS2 s0 wave1 1 10) ∧ ¬GoodTarget (rdS2 s0 wave1 1 2) := by
  unfold Issues GoodTarget; decide
theorem witness_BranchesAndTargets_far : ¬GoodTarget (0x0100000000000000 : DWord) := by unfold GoodTarget; decide
theorem witness_YieldAndWait : Issues s0 2048 wave1 fr0 ∧ wave1.cur = some fr0.num ∧ fr0.lc < 2 ^ 13 ∧ fr0.sc < 2 ^ 13 ∧ fr0.kc < 2 ^ 13 ∧ fr0.xc < 2 ^ 13 ∧
    ((2047 = 2047 ∨ fr0.lc ≤ 2047) ∧ (0 = 2047 ∨ fr0.sc ≤ 0) ∧ (0 = 2047 ∨ fr0.kc ≤ 0) ∧ (255 = 255 ∨ fr0.xc ≤ 255)) := by unfold Issues; decide
/-- A fragment with an outstanding load. -/
def frLoad : Frag := { fr0 with lc := 1 }
def waveLoad : Wave := { wave1 with frags := [frLoad] }
theorem witness_WaitCounters_waits : Issues (st waveLoad) 2048 waveLoad frLoad ∧
    ¬((0 = 2047 ∨ frLoad.lc ≤ 0) ∧ (0 = 2047 ∨ frLoad.sc ≤ 0) ∧ (0 = 2047 ∨ frLoad.kc ≤ 0) ∧ (0 = 255 ∨ frLoad.xc ≤ 0)) := by unfold Issues; decide
theorem witness_Divergence : Issues s0 2048 wave1 fr0 ∧ GoodTarget (fr0.pc + (24 : Word).signExtend 64) ∧ (wave1.tok 1).st = 0 ∧ fr0.mask ≠ 0 ∧
    sel s0 wave1 fr0 { p := 7, neg := true } = 0 ∧ fr0.mask &&& ~~~sel s0 wave1 fr0 { p := 7, neg := false } = 0 ∧
    sel s0 wave1 fr0 { p := 1, neg := false } ≠ 0 ∧ fr0.mask &&& ~~~sel s0 wave1 fr0 { p := 1, neg := false } ≠ 0 ∧
    s0.fragsIn wave1.core wave1.part < 48 ∧ wave1.freeNum = some 1 := by unfold Issues GoodTarget; decide
theorem witness_JumpTable : Issues s0 2048 wave1 fr0 ∧ sel s0 wave1 fr0 v1.g = fr0.mask ∧ fr0.mask ≠ 0 ∧ fr0.redirect = none ∧ (wave1.tok 0).st = 0 ∧
    (∀ l < 32, Picked s0 wave1 fr0 v1.g l → (inA s0 wave1 (.v 9) l).toNat = 0) ∧ 0 < 1 ∧
    GoodTarget (fr0.pc + (rdS s0 wave1 (16 + 0) (10 + 0)).signExtend 64) ∧ (∀ l < 32, Picked s0 wave1 fr0 v1.g l → (inA s0 wave1 (.s 2) l).toNat = 4) ∧
    4 ≤ 4 := by unfold Issues GoodTarget Picked; decide
/-- A fragment inside token 1, of which another group is still expected, or which is the last expected. -/
def frTok : Frag := { fr0 with tok := some 1 }
def waveTok (n : BitVec 5) : Wave := { wave1 with frags := [frTok], toks := [(1, { st := 1, exp := n, out := none })] }
theorem witness_Joining : Issues (st (waveTok 2)) 2048 (waveTok 2) frTok ∧ ((waveTok 2).tok 1).st = 1 ∧ frTok.tok = some 1 ∧ ((waveTok 2).tok 1).exp ≠ 1 ∧
    ((waveTok 2).tok 1).exp ≠ 0 ∧ ((waveTok 1).tok 1).exp = 1 ∧ ((waveTok 1).tok 1).nums = 0 ∧ Issues (st (waveTok 1)) 2048 (waveTok 1) frTok := by
  unfold Issues; decide
theorem witness_JoinMisuse : Issues s0 2048 wave1 fr0 ∧ (wave1.tok 1).st = 0 ∧
    Issues (st { waveTok 2 with frags := [fr0] }) 2048 { waveTok 2 with frags := [fr0] } fr0 ∧ ((waveTok 2).tok 1).st ≠ 0 ∧ fr0.tok ≠ some 1 := by
  unfold Issues; decide
theorem witness_ExitLanes : Issues s0 2048 wave1 fr0 ∧ fr0.mask &&& ~~~sel s0 wave1 fr0 { p := 1, neg := false } ≠ 0 ∧
    fr0.mask &&& ~~~sel s0 wave1 fr0 { p := 7, neg := false } = 0 ∧ wave1.frags = [fr0] ∧ fr0.tok = none ∧ wave1.replay = [] ∧
    (∀ c ∈ s0.copies, c.2.wave ≠ some 2048) ∧ wave1.ended = false ∧ task1.wantKill = false ∧ kfind s0.tasks wave1.task = some task1 := by
  unfold Issues; decide
/-- A fragment in token 1, where no lane has arrived, inside token 2, of which another group is expected. -/
def waveNest : Wave := { waveTok 1 with toks := [(1, { st := 1, exp := 1, out := some 2 }), (2, { st := 1, exp := 2 })] }
theorem witness_ExitLanes_token : Issues (st (waveTok 2)) 2048 (waveTok 2) frTok ∧ frTok.mask &&& ~~~sel (st (waveTok 2)) (waveTok 2) frTok v1.g = 0 ∧
    frTok.tok = some 1 ∧ ((waveTok 2).tok 1).st = 1 ∧ ((waveTok 2).tok 1).exp ≠ 1 ∧ Issues (st waveNest) 2048 waveNest frTok ∧
    frTok.mask &&& ~~~sel (st waveNest) waveNest frTok v1.g = 0 ∧ (waveNest.tok 1).st = 1 ∧ (waveNest.tok 1).exp = 1 ∧ (waveNest.tok 1).arr = 0 ∧
    (waveNest.tok 1).out = some 2 ∧ 2 ≠ 1 ∧ (waveNest.tok 2).exp ≠ 1 ∧ (waveNest.tok 2).exp ≠ 0 := by unfold Issues; decide
/-- The token's last expected arrival, with lanes of fragment 3 kept. -/
def waveLast : Wave := { waveTok 1 with toks := [(1, { st := 1, exp := 1, arr := 2, nums := 8, jpc := 0x2001 })] }
theorem witness_Joining_last : Issues (st waveLast) 2048 waveLast frTok ∧ (waveLast.tok 1).st ≠ 0 ∧ frTok.tok = some 1 ∧ frTok.mask ≠ 0 ∧
    (waveLast.tok 1).exp = 1 ∧ (waveLast.tok 1).st = 1 ∧ (waveLast.tok 1).arr ||| frTok.mask ≠ 0 ∧
    (∀ g ∈ waveLast.frags, g.num ≠ frTok.num → (waveLast.tok 1).nums.getLsbD g.num = false) ∧ 0 ≤ frTok.num ∧
    (∀ j, (waveLast.tok 1).nums.getLsbD j = true → 0 ≤ j) := by unfold Issues; exact ⟨by decide, by decide, by decide, by decide, by decide, by decide, by decide, by decide, by decide, fun _ _ => Nat.zero_le _⟩
/-- A token whose inline slot is taken. -/
def waveInl : Wave := { waveTok 1 with toks := [(1, { st := 2, exp := 1, ipm := 4, ipc := 0x2001 })] }
theorem witness_Joining_inline : Issues (st waveInl) 2048 waveInl frTok ∧ (waveInl.tok 1).st = 2 ∧ (waveInl.tok 1).exp = 1 ∧ frTok.tok = some 1 := by
  unfold Issues; decide
/-- The split procedure: the fragment's own token, with every number taken and the inline slot empty or holding another address; an enclosing token; a stranger's. -/
def waveFullFr (t : Token) : Wave := { wave1 with frags := frTok :: ((List.range 15).map fun i => { fr0 with num := i + 1, mask := 0 }), toks := [(1, t)] }
theorem witness_Divergence_split : (waveFullFr { st := 1, exp := 1 }).tok 1 ≠ {} ∧ freeNums (waveFullFr { st := 1, exp := 1 }) = [] ∧
    Issues (st (waveFullFr { st := 1, exp := 1 })) 2048 (waveFullFr { st := 1, exp := 1 }) frTok ∧
    Issues (st (waveFullFr { st := 2, exp := 2, ipm := 1, ipc := 5 })) 2048 (waveFullFr { st := 2, exp := 2, ipm := 1, ipc := 5 }) frTok ∧
    pcBits 0x10018 ≠ 5 ∧ (waveNest.tok 2).st ≠ 0 ∧ frTok.tok ≠ some 2 ∧ outs waveNest 1 frTok.tok = some 2 ∧
    ¬(∃ n < 17, outs waveNest n (none : Option Nat) = some 2) := by unfold Issues; decide
/-- A fragment whose redirect stands for this JMPT, and an index past the table. -/
def frRed : Frag := { fr0 with redirect := some { pc := 0x10000, mask := 1, target := 0x20000 } }
def waveRed : Wave := { wave1 with frags := [frRed] }
theorem witness_JumpTable_redirect : Issues (st waveRed) 2048 waveRed frRed ∧ (frRed.redirect.any fun r => decide (r.pc = frRed.pc)) = true ∧
    Picked s0 wave1 fr0 v1.g 0 ∧ 4 ≤ (inA s0 wave1 (.v 0) 0).toNat ∧ ¬GoodTarget (fr0.pc + (1 : Word).signExtend 64) := by
  unfold Issues Picked GoodTarget; decide


/-- Whether an access passes its acceptance. -/
def passes (w : Wave) (r : State × Except Exc Accepted) : Bool :=
  match r.2 with
  | .ok a => a.lanes.all (fun x => !x.sp) && roomFor r.1 w.core (heldLines a.lanes).length
  | .error _ => false

theorem passes_of (w : Wave) (r : State × Except Exc Accepted) (h : passes w r = true) : ∃ s1 a, Passes w r s1 a := by
  obtain ⟨s1, x⟩ := r
  cases x with
  | error e => simp [passes] at h
  | ok a =>
    simp [passes] at h
    exact ⟨s1, a, rfl, h.1, h.2⟩

/-- A wave in its handler, entered from 0x10000, and one without a handler address. -/
def trap1 : TrapSave := { frag := 0, pc := 0x10000, len := 8, isJmpt := true, mask := 0xFFFFFFFF, words := List.replicate 16 0, live := [0], kind := 0x71, tile := none }
def waveIn : Wave := { wave1 with trapSave := some trap1, sreg := [(10, 0x10000)] }
def waveNo : Wave := { wave1 with trapbase := 0 }
theorem witness_TrapEntry : Issues s0 2048 wave1 fr0 ∧ wave1.trapSave = none ∧ wave1.trapbase ≠ 0 ∧ wave1.idx < 256 ∧ fr0.num < 16 ∧
    (∀ x, kfind s0.tasks wave1.task = some x → x.debug = none) ∧
    (let e : Exc := { kind := 0x11, lane := some 31, level := 5 }; e.kind ≠ 0x12 ∧ e.kind < 256 ∧ e.tile = none) := by
  refine ⟨witness_issues, by decide, by decide, by decide, by decide, ?_, by decide⟩
  intro x h; cases h; rfl
theorem witness_FaultEndsTask : Issues (st waveNo) 2048 waveNo fr0 ∧ waveNo.trapbase = 0 ∧ kfind (st waveNo).tasks waveNo.task = some task1 ∧
    kfind (st waveNo).launches task1.launch = some launch1 ∧ Issues (st waveIn) 2048 waveIn fr0 ∧ waveIn.trapSave ≠ none ∧
    ((st waveNo).queue 0).fidx = 0 ∧ ((st waveNo).queue 0).flogn = 0 ∧ ((st waveNo).queue 0).ack = 0 := by unfold Issues; decide
theorem witness_TrapReturn : Issues (st waveIn) 2048 waveIn fr0 ∧ waveIn.trapSave = some trap1 ∧ trap1.frag = fr0.num ∧ trap1.tile = none ∧
    trap1.words.length = 16 ∧ (∀ f ∈ waveIn.frags, f.num ∈ trap1.live) ∧ trap1.isJmpt = true ∧ GoodTarget (rdS2 (st waveIn) waveIn 1 10) := by
  unfold Issues GoodTarget; decide
def waveFl : Wave := { wave1 with flags := 0x81, trapen := 0x80 }
def waveFly : Wave := { wave1 with inflight := [{ reg := .sca 0, lanes := 1, due := 5 }] }
theorem witness_TrapControl : Issues s0 2048 wave1 fr0 ∧ wave1.trapSave = none ∧ wave1.inflight = [] ∧ wave1.flagPend = [] ∧
    (wave1.flags &&& wave1.trapen).toNat % 256 = 0 ∧ Issues (st waveFl) 2048 waveFl fr0 ∧ (waveFl.flags &&& waveFl.trapen).toNat % 256 ≠ 0 ∧
    Issues (st waveFly) 2048 waveFly fr0 ∧ waveFly.inflight ≠ [] := by unfold Issues; decide
def stDebug : State := { s0 with tasks := [(1, { task1 with debug := some 0 })] }
theorem witness_TrapControl_debug : Issues stDebug 2048 wave1 fr0 ∧ kfind stDebug.tasks wave1.task = some { task1 with debug := some 0 } := by
  unfold Issues; decide

theorem ok_of {ε α : Type} {x : Except ε α} {v : α} (h : x.toOption = some v) : x = .ok v := by
  cases x with
  | error e => simp [Except.toOption] at h
  | ok a => simp [Except.toOption] at h; rw [h]
theorem error_of {ε α : Type} {x : Except ε α} (h : x.toOption = none) : ∃ e, x = .error e := by
  cases x with
  | error e => exact ⟨e, rfl⟩
  | ok a => simp [Except.toOption] at h

/-! A wave whose v0 gives every lane the index 0, but lane 0 the index 7. -/
def waveMem : Wave := { wave1 with vreg := [(0, 7)] }
theorem witness_LoadsAccepted : Issues (st waveMem) 2048 waveMem fr0 ∧ waveMem.spEntry fr0 = none ∧
    (∃ s1 x, Passes waveMem (acceptRec (st waveMem) waveMem fr0 (rdRecord (st waveMem) waveMem 2 0) (lanesOf (sel (st waveMem) waveMem fr0 v1.g))
      (fun l => elemIndex (inA (st waveMem) waveMem (.v 0) l) none) 4 .read .read true false fun _ => none) s1 x) ∧
    (∃ s1 x, Passes waveMem (acceptRec (st waveMem) waveMem fr0 (rdRecord (st waveMem) waveMem 2 0) [0]
      (fun _ => elemIndex (rdS (st waveMem) waveMem 1 0) (some 1)) 4 .read .read false false fun _ => none) s1 x) ∧
    (∃ l, acceptScratch (st waveMem) waveMem [1] (fun l => scratchOff (inA (st waveMem) waveMem (.v 0) l) (some 4092)) 4 true = .ok l) ∧
    (∃ l, clusterLanes (st waveMem) waveMem 2 (.v 0) none 4 = .ok l) ∧ roomFor (st waveMem) 0 1 = true := by
  refine ⟨by unfold Issues; decide, by decide, passes_of _ _ (by decide +kernel), passes_of _ _ (by decide +kernel), ⟨_, rfl⟩, ⟨_, rfl⟩,
    by decide +kernel⟩
theorem witness_StoresAccepted : Issues (st waveMem) 2048 waveMem fr0 ∧
    (∃ s1 x, Passes waveMem (acceptRec (st waveMem) waveMem fr0 (rdRecord (st waveMem) waveMem 2 0) (lanesOf (sel (st waveMem) waveMem fr0 v1.g))
      (fun l => elemIndex (inA (st waveMem) waveMem (.v 0) l) none) 4 .write .write true false fun _ => none) s1 x) ∧
    (∃ s1 x, Passes waveMem (acceptRec (st waveMem) waveMem fr0 (rdRecord (st waveMem) waveMem 2 0) [0]
      (fun _ => elemIndex (rdS (st waveMem) waveMem 1 0) (some 1)) 4 .write .write false false fun _ => none) s1 x) := by
  refine ⟨by unfold Issues; decide, passes_of _ _ (by decide +kernel), passes_of _ _ (by decide +kernel)⟩
theorem witness_Prefetch : Issues (st waveMem) 2048 waveMem fr0 ∧ ∀ e, checkRecord (rdRecord (st waveMem) waveMem 2 0) = .error e → e.kind = 0x11 := by
  refine ⟨by unfold Issues; decide, fun e h => ?_⟩
  have : checkRecord (rdRecord (st waveMem) waveMem 2 0) = .ok { base := 0, swz := 0, pol := 0, stride := 4, extent := 256 } := ok_of (by decide +kernel)
  rw [this] at h; cases h

/-- An accepted load of v3 in lane 0 at byte 64, and a store of one byte at byte 65 and one of the scratchpad's. -/
def ldParts : KMap (List LaneAcc) := partsOf [{ lane := 0, space := .global, addr := some 64 }]
def ldEntry : Entry := { id := 0, frag := 0, holder := .frag 0, ctr := .lc, pc := 0x10000, op := 0x100, mode := 0, earlier := [], kind := .load false 3 4 1 .i32 ldParts }
def stBytes : List (Space × Nat × Byte) := [(.global, 65, 7), (.scratch 0, 1, 9)]
def stEntry : Entry := { id := 1, frag := 0, holder := .frag 0, ctr := .sc, pc := 0x10008, op := 0x108, mode := 0, earlier := [], kind := .store stBytes }
def waveLd : Wave := { wave1 with replay := [ldEntry], nextEntry := 1, resident := true }
def waveSt : Wave := { wave1 with replay := [stEntry], nextEntry := 2 }
theorem witness_LoadReturns : Running (st waveLd) ∧ kfind (st waveLd).waves 2048 = some waveLd ∧ waveLd.resident = true ∧
    (waveLd.replay.find? fun x => x.id = ldEntry.id && x.cells = []) = some ldEntry ∧
    kfind ldParts 2 = some [{ lane := 0, space := .global, addr := some 64 }] ∧
    heldBack (st waveLd) 2048 waveLd 0 0 true [(.global, 64, 4)] = false ∧ (st waveLd).answers .global = true ∧ ([0] : List Nat).Nodup ∧ kerase ldParts 2 = [] := by unfold Running; decide
theorem witness_StoreCaptures : Running (st waveSt) ∧ kfind (st waveSt).waves 2048 = some waveSt ∧
    (waveSt.replay.find? fun x => x.id = stEntry.id) = some stEntry ∧ heldBack (st waveSt) 2048 waveSt 0 1 false (stBytes.map fun b => (b.1, b.2.1, 1)) = false ∧
    ∀ b ∈ stBytes, ∀ g n, b.1 ≠ .own g n := by
  unfold Running; exact ⟨by decide, by decide, by decide, by decide, by simp [stBytes]⟩
theorem witness_LoadSees : isWindow 65 = false ∧ (∀ e ∈ (s0.core 0).phase, e.residue = none → e.home.main = true → ∀ x ∈ e.bytes, x.1 ≠ 65) ∧
    kfind s0.mixed 65 = none := by decide
def phase1 : PEntry := { task := 1, home := .here, residue := none, bytes := [(65, 7)], who := {} }
def stPhase : State := { s0 with cores := [(0, { phase := [phase1] })] }
/-- Fragment 5 has stored a byte. -/
def stCap : State := s0.captureBytes 0 1 { key := 5 } [(.global, 65, 7)]
/-- An atomic of device scope on a byte whose store the storing fragment has not yet released falls in one phase with it; after its release at
that scope it does not; a release at a narrower scope or by another fragment ends nothing. -/
theorem witness_LoadSees_mixed : kfind (stCap.noteAtom .device [(65, 9)]).mixed 65 = some [7, 9] ∧
    kfind ((stCap.publish 0 .device 1 [5]).noteAtom .device [(65, 9)]).mixed 65 = none ∧
    kfind ((stCap.publish 0 .core 1 [5]).noteAtom .device [(65, 9)]).mixed 65 = some [7, 9] ∧
    kfind ((stCap.publish 0 .device 1 [6]).noteAtom .device [(65, 9)]).mixed 65 = some [7, 9] := by decide
theorem test_store_after_atomic : kfind ((s0.noteAtom .device [(65, 9)]).captureBytes 0 1 { key := 5 } [(.global, 65, 7)]).mixed 65 = some [9, 7] ∧
    kfind (((s0.noteAtom .device [(65, 9)]).publish 0 .device 1 [5]).captureBytes 0 1 { key := 5 } [(.global, 65, 7)]).mixed 65 = none := by decide
theorem witness_PublishRefresh : isWindow 65 = false ∧ stPhase.debugQs = [] ∧ (stPhase.core 0).phase = [] ++ [phase1] ∧ phase1.home = .here ∧
    phase1.residue = none ∧ phase1.bytes = [(65, 7)] ∧ viewAt .device 0 = viewAt .device 255 ∧ (stPhase.rdV (vSnap 255) 65).2 ≤ stPhase.posn ∧
    kwf ((unlisted, 0) : Byte × Nat) (kget [] stPhase.views (viewAt .device 0)) = true := by decide
theorem witness_Placement : let r : BufRec := { base := 0, swz := 0, pol := 2, stride := 4, extent := 256 }
    0 < 4 ∧ (0 : Int) ≤ 255 ∧ (255 : Int) < r.extent ∧ r.base + swizzle r.swz (255 * r.stride) + 4 ≤ 2 ^ 57 ∧
    (r.base + swizzle r.swz (255 * r.stride)) % 4 = 0 ∧ (0 : Int) < r.extent := by decide
theorem witness_Placement_past : let r : BufRec := { base := 2 ^ 57 - 4, swz := 0, pol := 1, stride := 4, extent := 2 }
    (1 : Int) < r.extent ∧ 2 ^ 57 < r.base + swizzle r.swz (1 * r.stride) + 4 ∧ (r.extent : Int) ≤ 2 := by decide
/-- A wave whose record at s0 faults outside its four elements (POL 1). -/
def wavePol : Wave := { wave1 with vreg := [(0, 7)], sreg := [(1, 0x10000000), (2, 4), (3, 4)] }
theorem witness_LaneFaults : let s := st wavePol
    Issues s 2048 wavePol fr0 ∧ wavePol.spEntry fr0 = none ∧ Picked s wavePol fr0 v1.g 0 ∧
    checkRecord (rdRecord s wavePol 2 0) = .ok { base := 0, swz := 0, pol := 1, stride := 4, extent := 4 } ∧
    (∃ f, place { base := 0, swz := 0, pol := 1, stride := 4, extent := 4 } (elemIndex (inA s wavePol (.v 0) 0) none) 4 = .error f) ∧
    ∀ j, j < 0 → Picked s wavePol fr0 v1.g j → False := by
  refine ⟨by unfold Issues; decide, by decide, by unfold Picked; decide, ok_of (by decide +kernel), error_of (by decide +kernel), fun j h => absurd h (Nat.not_lt_zero j)⟩
def wk1 : Walker := { asid := 1, core := 0, launch := 1 }
theorem witness_Translation : (kget {} s0.asids wk1.asid).st = .bound ∧ s0.heldLeaf wk1 64 = none ∧
    ((s0.lookup wk1 64).2.toOption.map fun l => (l.1.r, l.1.w, l.1.x, isWindow l.1.pa)) = some (true, true, true, false) ∧
    ∃ f, (s0.lookup wk1 (2 ^ 40)).2 = .error f := ⟨by decide, by decide, by decide +kernel, error_of (by decide +kernel)⟩
/-- The core's launch holds eight sets of the L1 TLB, of which the first holds a leaf. -/
def tlb1 : Tlb := { place := .l1 0 0, asid := 1, level := 2, vpn := 0, entry := 0x1F }
def stTlb : State := { s0 with cores := [(0, { tlbs := [(1, (0, 8))] })], tlb := [tlb1] }
theorem witness_Translation_held : stTlb.heldLeaf wk1 64 = some tlb1 := by decide
theorem witness_Translation_unbound : (kget {} s0.asids 9).st ≠ .bound := by decide


/-! Circular buffers: an idle one, one with a slot free, one with a slot full, one with both runs of slots held. -/
def stCb (w : Wave) (c : CBuf) : State := { st w with cores := [(0, { cbufs := [(0, c)] })] }
def waveCb : Wave := { wave1 with sreg := [(2, 4), (3, 256), (4, 0x100), (6, 4), (7, 256), (8, 0xFF001)] }
def cbGood : CBuf := { v := true, base := 0, ssz := 4, nsl := 3, free := 1, fill := 1, wh := 1, rh := 1, cns := 1, cmt := 2, prd := 3 }
theorem witness_CircularBuffers : let s := stCb waveCb { v := true }
    Issues s 2048 waveCb fr0 ∧ cbOf s waveCb 0 = 0 ∧ (rdS s waveCb 2 8).toNat < 2 ^ 20 ∧ (rdS s waveCb 1 0).toNat % 16 = 0 ∧
    (rdS s waveCb 2 8).toNat % 2 ^ 12 = 1 ∧ 0 + 16 * 1 * ((rdS s waveCb 2 8).toNat / 2 ^ 12 % 2 ^ 8 + 1) = (winOf s waveCb).2 ∧
    (s.cb 0 0).wh = 0 ∧ (s.cb 0 0).rh = 0 ∧ NoWaiters s 0 0 ∧ (s.cb 0 0).free = 0 ∧ (s.cb 0 0).fill = 0 ∧ (s.cb 0 1).v = false := by
  unfold Issues NoWaiters; decide +kernel
theorem witness_CircularBuffers_held : let s := stCb wave1 cbGood
    Issues s 2048 wave1 fr0 ∧ (s.cb 0 0).v = true ∧ (s.cb 0 0).free ≠ 0 ∧ (s.cb 0 0).fill ≠ 0 ∧ NoWaiters s 0 0 ∧ (s.cb 0 0).wh ≠ 0 ∧
    (∀ e ∈ wave1.replay, e.frag = fr0.num → e.op ≠ 0x205 ∧ e.op ≠ 0x206) ∧ (s.cb 0 0).marks = [] ∧ (s.cb 0 0).slotAt 128 = some 2 ∧ 2 = (s.cb 0 0).cmt ∧
    (s.cb 0 0).slotAt 0 = some 0 ∧ 0 = (s.cb 0 0).rlf ∧ (s.cb 0 0).rh ≠ 0 ∧ (s.cb 0 0).inRun 2 1 0 = false ∧ (s.cb 0 0).inRun 0 1 2 = false := by
  unfold Issues NoWaiters; decide +kernel
theorem witness_CircularBuffers_later : ({ cbGood with wh := 2, rh := 2, fill := 0, free := 0 } : CBuf).inRun 2 2 3 = true ∧
    ({ cbGood with wh := 2, rh := 2, fill := 0, free := 0 } : CBuf).inRun 0 2 1 = true := by decide

theorem pair_of {ε α : Type} {r : State × Except ε α} (p : State → α → Bool)
    (h : (match r.2 with | .ok a => p r.1 a | .error _ => false) = true) : ∃ s1 a, r = (s1, .ok a) ∧ p s1 a = true := by
  obtain ⟨s1, x⟩ := r
  cases x with
  | error e => simp at h
  | ok a => exact ⟨s1, a, rfl, by simpa using h⟩

/-- Lane 0, whose index is 7 and whose slot offset is v1's 0. -/
def g1 : Guard := { p := 1, neg := false }
def rec4 : BufRec := { base := 0, swz := 0, pol := 0, stride := 4, extent := 256 }
theorem witness_Copies : let s := stCb wave1 cbGood
    Issues s 2048 wave1 fr0 ∧ checkRecord (rdRecord s wave1 2 0) = .ok rec4 ∧ lanesOf (sel s wave1 fr0 g1) = [0] ∧
    gather ([0].map fun l => (l, copySides rec4 (elemIndex (inA s wave1 (.v 0) l) (some 248)) 4 (placeScratch (winOf s wave1).2 (rdV s wave1 0 (.v 1) l).toNat 4)))
      true 1 = .ok [(0, some 1020, 0)] ∧
    gather ([0].map fun l => (l, copySides rec4 (elemIndex (inA s wave1 (.v 0) l) (some 248)) 4 (placeSlot (16 * (s.cb 0 0).ssz) (rdV s wave1 0 (.v 1) l).toNat 4)))
      true 1 = .ok [(0, some 1020, 0)] ∧
    (∃ s1 la, translateLines s (s.walker wave1) .write true true [(0, 1020)] = (s1, .ok la) ∧
      (la.all (!·.sp) && roomFor s1 wave1.core (heldLines la).length && (s1.copiesOn 0 < 512 : Bool)) = true) ∧
    (s.cb 0 0).v = true ∧ (s.cb 0 0).free ≠ 0 ∧ NoWaiters s 0 0 ∧ ∀ i ∈ kget [] fr0.batches 3, kfind s.copies i = none := by
  refine ⟨by unfold Issues; decide, ok_of (by decide +kernel), by decide, ok_of (by decide +kernel), ok_of (by decide +kernel), pair_of _ (by decide +kernel),
    by decide, by decide, by unfold NoWaiters; decide, by decide⟩
/-- A copy of lane 0 in flight, of eight bytes at 64 to byte 16 of the scratchpad, in batch 3 of its fragment. -/
def laneCp : CopyLane := { lane := 0, src := some (.global, 64), dst := some (.scratch 0, 16), len := 8 }
def copy1 : Copy := { core := 0, task := 1, wave := some 2048, lanes := [laneCp] }
def frCp : Frag := { fr0 with batches := [(3, [5])] }
def waveCp : Wave := { wave1 with frags := [frCp] }
def stCp (c : Copy) : State := { st waveCp with copies := [(5, c)], nextCopy := 6 }
theorem witness_Copies_waits : Issues (stCp copy1) 2048 waveCp frCp ∧ ∃ i ∈ kget [] frCp.batches 3, kfind (stCp copy1).copies i ≠ none :=
  ⟨by unfold Issues; decide, 5, by decide, by decide⟩
theorem witness_CopyMoves : Running (stCp copy1) ∧ kfind (stCp copy1).copies 5 = some copy1 ∧ copy1.tileOp = false ∧
    (copy1.lanes.find? fun x => x.lane = laneCp.lane && !x.done) = some laneCp ∧ copy1.slotOf = none ∧ copyHeld (stCp copy1) copy1 laneCp = false ∧ laneCp.low = false ∧
    (let c := { copy1 with lanes := [{ laneCp with done := true }] }
     kfind (stCp c).copies 5 = some c ∧ (∀ x ∈ c.lanes, x.done = true) ∧ c.late = none ∧ c.cb = none) := by unfold Running; decide

/-- A wave whose fence record 0 is pending, with s0 = 8 its token. -/
def waveFw : Wave := { wave1 with fences := [(0, { seq := 1, pending := true })], fenceSeq := 2, sreg := [(0, 8)] }
theorem witness_Fences : Issues (st waveFw) 2048 waveFw fr0 ∧ (kget {} waveFw.fences 0).pending = true ∧ (rdS (st waveFw) waveFw 1 0).toNat % 8 = 0 ∧
    (rdS (st waveFw) waveFw 1 0).toNat / 8 = (kget {} waveFw.fences 0).seq ∧ (kget {} waveFw.fences 1).pending = false ∧ (∀ j, j < 1 → (kget {} waveFw.fences j).pending = true) ∧
    (rdS (st waveFw) waveFw 1 1).toNat / 8 = 0 ∧ fr0.lc = 0 ∧ fr0.sc = 0 ∧ fr0.kc = 0 ∧ Running (st waveFw) ∧ waveFw.resident = true ∧
    (kget {} waveFw.fences 0).open waveFw (st waveFw).copies = false ∧ (kget {} waveFw.fences 0).pub = false := by unfold Issues Running; decide
def waveFull : Wave := { wave1 with fences := (List.range 8).map fun i => (i, { seq := i + 1, pending := true, entries := [0] }), replay := [ldEntry] }
theorem witness_Fences_full : Issues (st waveFull) 2048 waveFull fr0 ∧ (∀ j, j < 8 → (kget {} waveFull.fences j).pending = true) ∧
    (kget {} waveFull.fences 7).open waveFull (st waveFull).copies = true ∧ frLoad.lc ≠ 0 := by unfold Issues; decide

theorem witness_Barriers : Issues s0 2048 wave1 fr0 ∧ barOfTarget s0 wave1 (.slot 0) = none ∧ fr0.phase = .none ∧
    barOfTarget s0 wave1 .blk = some (barBlock 1 0) ∧ barOfTarget s0 wave1 .gang = some 4 ∧ kfind fr0.arrivals 4 ≠ some (s0.barC 4) ∧ fr0.lc = 0 ∧ fr0.sc = 0 ∧ fr0.kc = 0 ∧
    wave1.ended = false ∧ Rising s0.waves ∧ kfind s0.tasks wave1.task = some task1 ∧ task1.st = .resident ∧
    (wave1.task, wave1.blk) ∈ membersOf s0 24 ∧ (wave1.task, wave1.blk) ∈ membersOf s0 4 ∧
    s0.barC 24 = (rdS s0 wave1 1 0).toNat % 2 ^ 31 ∧ s0.barC 24 ≠ (rdS s0 wave1 1 2).toNat % 2 ^ 31 := by unfold Issues Rising; decide
/-- The only wave's only fragment completes the phase of its block's and of its gang's barrier; a launch whose group 2 is that block. -/
theorem witness_Barriers_all : (∀ m ∈ membersOf s0 24, Done s0 24 2048 0 m) ∧ ∀ m ∈ membersOf s0 4, Done s0 4 2048 0 m := by
  have h (key : Nat) : Done s0 key 2048 0 (1, 0) := by
    intro x hx; cases hx
    refine .inr (.inr ⟨.inl (by decide), fun p hp _ _ _ => ?_⟩)
    cases List.mem_singleton.mp hp
    exact ⟨by decide, fun f hf => by cases List.mem_singleton.mp hf; exact .inl (by decide)⟩
  constructor <;> intro m hm <;> (have : m = (1, 0) := by simpa [membersOf, s0, st, task1, kfind] using hm) <;> subst this <;> exact h _
def stGroup : State := { s0 with launches := [(1, { launch1 with groups := [(2, [0])] })] }
theorem witness_Barriers_group : Issues stGroup 2048 wave1 fr0 ∧ barOfTarget stGroup wave1 (.slot 0) = some 776 ∧
    (wave1.task, wave1.blk) ∈ membersOf stGroup 776 ∧ kfind fr0.arrivals 776 ≠ some (stGroup.barC 776) := by unfold Issues; decide
/-- A second wave of the block, which has not arrived. -/
def stTwo : State := { s0 with waves := [(2048, wave1), (2049, { wave1 with idx := 1, part := 1 })] }
theorem witness_Barriers_waits : Issues stTwo 2048 wave1 fr0 ∧ Rising stTwo.waves ∧
    ¬∀ m ∈ membersOf stTwo 24, Done stTwo 24 2048 0 m := by
  refine ⟨by unfold Issues; decide, by unfold Rising; decide, fun h => ?_⟩
  have := h (1, 0) (by decide) task1 rfl
  revert this; decide

/-- A queue of 32 elements at 0 of the scratchpad, empty or full. -/
def stQ (tail : Byte) : State := { s0 with cores := [(0, { scratch := if tail = 0 then [(8, 5)] else [(4, tail), (8, 5)] })] }
def qOf (tail : Nat) : HwQueue := { core := 0, at_ := 0, head := 0, tail, cap := 32 }
theorem witness_HardwareQueues : Issues (stQ 0) 2048 wave1 fr0 ∧ sel (stQ 0) wave1 fr0 { p := 7, neg := true } = 0 ∧ sel (stQ 0) wave1 fr0 v1.g ≠ 0 ∧
    findQueue (stQ 0) wave1 (rdS (stQ 0) wave1 1 0).toNat = .ok (qOf 0) ∧ (qOf 0).occ ≤ (qOf 0).cap ∧ 32 ≤ (qOf 0).cap ∧
    (lanesOf (sel (stQ 0) wave1 fr0 v1.g)).length = 32 ∧ (qOf 0).free = 32 ∧ (qOf 0).occ < 32 ∧ fr0.lc = 0 := by
  refine ⟨by unfold Issues; decide, by decide, by decide, ok_of (by decide +kernel), by decide, by decide, by decide, by decide, by decide, rfl⟩
theorem witness_HardwareQueues_full : Issues (stQ 32) 2048 wave1 fr0 ∧ findQueue (stQ 32) wave1 (rdS (stQ 32) wave1 1 0).toNat = .ok (qOf 32) ∧
    (qOf 32).occ = 32 ∧ (qOf 32).free < 32 := by
  refine ⟨by unfold Issues; decide, ok_of (by decide +kernel), by decide, by decide⟩

/-- A nest of 2 by 1 by 1 by 1 iterations for two waves at 0x100, whose address stands in s4, s5. -/
def nestBytes : List (Nat × Byte) := [(0x100, 2), (0x102, 1), (0x104, 1), (0x106, 1), (0x108, 0xE4), (0x10A, 2)].map fun p => (keyOf 0 p.1, p.2)
def stNest : State := { s0 with mem := Memory.writes tables nestBytes, views := [(vSnap 0, nestBytes.map fun p => (p.1, p.2, 0))] }
theorem witness_LoopNests : let s := stNest
    let x := rdS2 s wave1 1 4 + (0 : Word).signExtend 64
    Issues s 2048 wave1 fr0 ∧ canon x.toNat = x ∧ x.toNat % 2 ^ 57 = 0x100 ∧
    (∃ s1 y, translateLines s (s.walker wave1) .read false false [(0, 0x100)] = (s1, .ok y) ∧
      (y.all (fun y => !y.sp && (badNest (waveRead s1 wave1 fr0 y 32)).isNone &&
        (rdS s wave1 2 0).toNat < ofBytes (((waveRead s1 wave1 fr0 y 32).drop 10).take 2)) && y.length = 1 &&
        (watchTest s1 wave1 fr0 .read false [(0, 0x100)] 32).isNone : Bool) = true) := by
  refine ⟨by unfold Issues; decide, by decide, by decide, pair_of _ (by decide +kernel)⟩
def waveCur : Wave := { wave1 with cursor := { valid := true, n := [2, 1, 1, 1], i := 1, hi := 2 } }
theorem witness_LoopNests_next : Issues (st waveCur) 2048 waveCur fr0 ∧ waveCur.cursor.valid = true ∧ waveCur.cursor.i < waveCur.cursor.hi ∧ 3 < 4 ∧
    wave1.cursor.valid = false ∧ canon (2 ^ 56) ≠ (0x0100000000000000 : DWord) ∧ (rdS2 s0 wave1 1 2).toNat % 2 ^ 57 % 32 ≠ 0 ∧
    canon (rdS2 s0 wave1 1 2).toNat = rdS2 s0 wave1 1 2 := by unfold Issues; decide


/-! Atomics, cells and summaries. -/
theorem passes_lanes (w : Wave) (r : State × Except Exc Accepted)
    (h : (passes w r && (match r.2 with | .ok a => a.lanes ≠ [] ∧ (∀ l ∈ a.nones, l < 32) | .error _ => false)) = true) :
    ∃ s1 a, Passes w r s1 a ∧ a.lanes ≠ [] ∧ ∀ l ∈ a.nones, l < 32 := by
  obtain ⟨s1, x⟩ := r
  cases x with
  | error e => simp [passes] at h
  | ok a =>
    simp only [passes, Bool.and_eq_true, decide_eq_true_eq] at h
    exact ⟨s1, a, ⟨rfl, by simpa using h.1.1, h.1.2⟩, h.2.1, h.2.2⟩
theorem witness_AtomicsAccepted : Issues s0 2048 wave1 fr0 ∧
    (∃ s1 x, Passes wave1 (acceptRec s0 wave1 fr0 (rdRecord s0 wave1 2 0) (lanesOf (sel s0 wave1 fr0 v1.g)) (fun l => elemIndex (inA s0 wave1 (.v 0) l) none) 4
      .atomic .atomic true false refuseCells) s1 x ∧ x.lanes ≠ [] ∧ ∀ l ∈ x.nones, l < 32) ∧
    (∃ s1 x, Passes wave1 (acceptRec s0 wave1 fr0 (rdRecord s0 wave1 2 0) (lanesOf (sel s0 wave1 fr0 v1.g)) (fun l => elemIndex (inA s0 wave1 (.v 0) l) (some 255)) 4
      .atomic .atomic true false refuseCells) s1 x ∧ x.lanes ≠ [] ∧ ∀ l ∈ x.nones, l < 32) ∧
    (∃ s1 x, Passes wave1 (acceptRec s0 wave1 fr0 (rdRecord s0 wave1 2 0) [0] (fun _ => elemIndex (rdS s0 wave1 1 2) (some 3)) 4
      .atomic .atomic false false refuseCells) s1 x ∧ x.lanes ≠ [] ∧ ∀ l ∈ x.nones, l < 32) :=
  ⟨witness_issues, passes_lanes _ _ (by decide +kernel), passes_lanes _ _ (by decide +kernel), passes_lanes _ _ (by decide +kernel)⟩
def atomReq : AtomReq := .lane 2048 1 31 (some .min) .i32 64 0x80000000 0 .device 0 (some (.vec 3)) {}
def atEntry : Entry := { id := 1, frag := 0, holder := .frag 0, ctr := .lc, pc := 0x10000, op := 0x190, mode := 0, earlier := [], kind := .atomic 1 }
def stAtom : State := { st { wave1 with replay := [atEntry] } with atomQ := [(0, [atomReq])] }
theorem witness_AtomicPerforms : Running stAtom ∧ stAtom.debugQs = [] ∧ kget [] stAtom.atomQ 0 = [atomReq] ∧ atomHeld stAtom 2048 1 .global 64 4 = false ∧
    kfind stAtom.waves 2048 = some { wave1 with replay := [atEntry] } ∧ atEntry.id = 1 ∧ 31 < 32 := by unfold Running; decide

/-- Tables whose leaf is readable and writable and holds cells; a wave whose record at s10 has elements of 32 bytes. -/
def tablesSp : Memory := Memory.writes [] [(keyOf 0 0x2000, 0x01), (keyOf 0 0x2001, 0x40), (keyOf 0 0x4000, 0x01), (keyOf 0 0x4001, 0x50), (keyOf 0 0x5000, 0x17), (keyOf 0 0x5007, 0x01)]
def waveCell : Wave := { wave1 with sreg := [(10, 32), (11, 256)] }
def cellKey : Nat := keyOf 0 224 / 32
def stCell (tag : Nat) : State :=
  { st waveCell with mem := tablesSp, launches := [(1, { launch1 with hasStab := true, scnt := 1 })], tags := if tag = 0 then [] else [(cellKey, tag)]
                     growth := if tag = 2 then [(baseDie cellKey, [{ cell := cellKey, va := 224, rscope := .device, place := 0, launch := 1, wave := 0, cluster := 0, evaluator := some 1 }])] else [] }
theorem growthOf_one (s : State) (g : Growth) (h : s.growth = [(baseDie g.cell, [g])]) : s.growthOf g.cell = some g := by
  simp [State.growthOf, h, kget, kfind]
def cellOk (p : LaneAddr → Bool) (r : State × Except Exc Accepted) : Bool :=
  match r.2 with
  | .ok a => roomFor r.1 0 (heldLines a.lanes).length && decide ((a.lanes.map fun y => y.key / 32).Nodup) && a.lanes ≠ [] && a.lanes.all p
  | .error _ => false
theorem witness_CellWrites : Issues (stCell 0) 2048 waveCell fr0 ∧ (stCell 0).debugQs = [] ∧ fr0.lc = 0 ∧ fr0.sc = 0 ∧ fr0.kc = 0 ∧
    cellOk (fun y => (stCell 0).tag (y.key / 32) ≠ tGROWING && (badRecord (groupBytes (stCell 0) waveCell (.v 8) y.lane) 1).isNone)
      (acceptRec (stCell 0) waveCell fr0 (rdRecord (stCell 0) waveCell 2 8) (lanesOf (sel (stCell 0) waveCell fr0 g1)) (fun l => elemIndex (inA (stCell 0) waveCell (.v 0) l) (some 0)) 32
        .cell .cell true false (cellStages true)) = true ∧
    cellOk (fun y => (stCell 3).tag (y.key / 32) ≠ tGROWING)
      (acceptRec (stCell 3) waveCell fr0 (rdRecord (stCell 3) waveCell 2 8) (lanesOf (sel (stCell 3) waveCell fr0 g1)) (fun l => elemIndex (inA (stCell 3) waveCell (.v 0) l) none) 32
        .cell .cell true false (cellStages true)) = true ∧
    ((stCell 2).ownGrowth waveCell cellKey).isSome = true ∧
    cellOk (fun y => y.key / 32 = cellKey)
      (acceptRec (stCell 2) waveCell fr0 (rdRecord (stCell 2) waveCell 2 8) (lanesOf (sel (stCell 2) waveCell fr0 g1)) (fun l => elemIndex (inA (stCell 2) waveCell (.v 0) l) none) 32
        .cell .cell true false (cellStages true)) = true ∧
    cellOk (fun _ => true)
      (acceptRec (stCell 0) waveCell fr0 (rdRecord (stCell 0) waveCell 2 8) (lanesOf (sel (stCell 0) waveCell fr0 g1)) (fun l => elemIndex (inA (stCell 0) waveCell (.v 0) l) none) 32
        .read .atomic true false (cellStages false)) = true := by
  refine ⟨by unfold Issues; decide, rfl, rfl, rfl, rfl, by decide +kernel, by decide +kernel, ?_, by decide +kernel, by decide +kernel⟩
  rw [State.ownGrowth, growthOf_one (stCell 2) { cell := cellKey, va := 224, rscope := .device, place := 0, launch := 1, wave := 0, cluster := 0, evaluator := some 1 } rfl]
  decide +kernel
theorem witness_CellsOfLoads : Issues (stCell 2) 2048 waveCell fr0 ∧ (stCell 2).tag cellKey = tGROWING ∧ (stCell 2).tag (cellKey + 1) = tVALUE ∧ (stCell 3).tag cellKey = tFAILED ∧
    (stCell 0).chain 1 17 1 ((stCell 0).evaluatorOf cellKey) = none ∧ tGROWING ≠ tSPORE ∧ tGROWING ≠ tFAILED ∧ tFAILED ≠ tVALUE := by
  unfold Issues; decide +kernel
/-- A growing cell that no evaluator has yet. -/
def growth0 : Growth := { cell := cellKey, va := 224, rscope := .device, place := 0, launch := 1, wave := 0, cluster := 0 }
def stGrow : State := { stCell 2 with growth := [(baseDie cellKey, [growth0])] }
theorem witness_CellsOfLoads_grows : stGrow.tag cellKey = tGROWING ∧ stGrow.growthOf cellKey = some growth0 ∧ stGrow.chain 1 17 1 (stGrow.evaluatorOf cellKey) = none := by
  have h : stGrow.growthOf cellKey = some growth0 := growthOf_one stGrow growth0 rfl
  refine ⟨by decide +kernel, h, ?_⟩
  rw [State.evaluatorOf, h]; rfl

def stSum (b : SumBuf) : State := { s0 with cores := [(0, { parts := [(0, { sums := [(0, b)] })] })] }
def qs0 : SumBuf := SumBuf.ofImage ((Sketch.fresh sQS 0 0).encode)
theorem witness_Summaries : Issues (stSum qs0) 2048 wave1 fr0 ∧ sumOf (stSum qs0) wave1 0 = 0 ∧ sumBusy (stSum qs0) wave1 0 = false ∧
    ((stSum qs0).sketch wave1 0).isSome = true ∧ ((stSum [(3, 1)]).sketch wave1 0).isNone = true ∧ sel s0 wave1 fr0 v1.g ≠ 0 ∧
    sel s0 wave1 fr0 { p := 7, neg := true } = 0 := by
  refine ⟨by unfold Issues; decide, by decide, by decide +kernel, by decide +kernel, by decide +kernel, by decide, by decide⟩
def waveSumLd : Wave := { wave1 with replay := [{ ldEntry with kind := .sumLoad 0 none [] }] }
theorem witness_Summaries_busy : Issues (st waveSumLd) 2048 waveSumLd fr0 ∧ sumBusy (st waveSumLd) waveSumLd 0 = true := by unfold Issues; decide
def sumAcc (acc : Acc) : State × Except Exc Accepted :=
  acceptRec s0 wave1 fr0 (rdRecord s0 wave1 2 0) [0] (fun _ => elemIndex (rdS s0 wave1 1 0) none) 4096 acc acc false false refuseCells
theorem witness_Summaries_access : ∀ acc ∈ [Acc.read, .write, .atomic], ∃ s1 x, sumAcc acc = (s1, .ok x) ∧
    (roomFor s1 wave1.core (recordLines x.lanes).length && x.lanes.length = 1 : Bool) = true := by
  intro acc h
  simp only [List.mem_cons, List.not_mem_nil, or_false] at h
  rcases h with rfl | rfl | rfl <;> exact pair_of _ (by decide +kernel)

/-! The fabric: group 5, of which this device is rank 0, with another rank; s12 to s15 hold its handle, rank 0, stride 4. -/
def rank0 : RankInfo := { local_ := true, ep := 0, base := 0x10000, len := 0x10000, r := true, w := true, a := true }
def group1 : Group := { live := true, launch := 1, ranks := [rank0, { rank0 with local_ := false, r := false, w := false }], plan := [[0, 1], [1, 0]] }
def waveGrp : Wave := { wave1 with sreg := [(0, 4096), (12, 5), (14, 4), (16, 5), (17, 1), (18, 4), (20, 5), (21, 2)] }
def stGrp (fr : Frag) (g : Group) : State := { st { waveGrp with frags := [fr] } with groups := [(5, g)] }
def sGrp : State := stGrp fr0 group1
def remoteOk (r : Except Exc RemoteAcc) : Bool := match r with | .ok x => x.gid = 5 && x.own && x.lanes.length = 32 | .error _ => false
theorem witness_RemoteAccesses : Issues sGrp 2048 waveGrp fr0 ∧ roomFor sGrp 0 1 = true ∧
    remoteOk (acceptRemote sGrp waveGrp 12 (sel sGrp waveGrp fr0 v1.g) (fun l => elemIndex (inA sGrp waveGrp (.v 2) l) none) 4 (·.r) 1 0) = true ∧
    remoteOk (acceptRemote sGrp waveGrp 12 (sel sGrp waveGrp fr0 v1.g) (fun l => elemIndex (inA sGrp waveGrp (.v 2) l) none) 4 (·.w) 2 1) = true ∧
    remoteOk (acceptRemote sGrp waveGrp 12 (sel sGrp waveGrp fr0 v1.g) (fun l => elemIndex (inA sGrp waveGrp (.v 2) l) (some 0x3FFF)) 4 (·.a) 2 2) = true := by
  refine ⟨by unfold Issues; decide, by decide +kernel, by decide +kernel, by decide +kernel, by decide +kernel⟩
theorem witness_RemoteFaults : let x (b : Nat) := rdRecord sGrp waveGrp 2 b
    let ranks (b : Nat) := ranksOf (sGrp.named waveGrp (x b % 2 ^ 32))
    Issues sGrp 2048 waveGrp fr0 ∧ sel sGrp waveGrp fr0 g1 = BitVec.ofNat 32 (2 ^ 0) ∧ x 12 / 2 ^ 44 % 2 ^ 20 = 0 ∧ x 20 / 2 ^ 44 % 2 ^ 20 = 0 ∧
    (ranks 20)[x 20 / 2 ^ 32 % 2 ^ 12]? = none ∧ (ranks 16)[x 16 / 2 ^ 32 % 2 ^ 12]? = some { rank0 with local_ := false, r := false, w := false } ∧
    (ranks 12)[x 12 / 2 ^ 32 % 2 ^ 12]? = some rank0 ∧ (0x10000 : Int) < 4 * elemIndex (inA sGrp waveGrp (.v 2) 0) (some 0x4000) + 4 ∧
    (0 : Int) ≤ 4 * elemIndex (inA sGrp waveGrp (.v 2) 0) (some 1) ∧ (4 * elemIndex (inA sGrp waveGrp (.v 2) 0) (some 1)).toNat % 8 ≠ 0 := by
  unfold Issues; decide +kernel
/-- A record of packets of 64 bytes at s10, and queue 0 as the wave's own. -/
def waveEnq : Wave := { wave1 with sreg := [(0, 4096), (10, 64), (11, 4)] }
theorem witness_EnqStatuses : Issues (st waveEnq) 2048 waveEnq fr0 ∧ fr0.lc = 0 ∧
    (∀ d keys, fr0.phase ≠ .enq d keys) ∧
    (∃ s1 x, acceptRec ((st waveEnq).releaseAt 2048 waveEnq fr0 .device) waveEnq fr0 (rdRecord (st waveEnq) waveEnq 2 8) (List.range 2) (fun i => elemIndex (rdS (st waveEnq) waveEnq 1 1) (some 0) + i) 64
      .read .read false false (fun _ => none) = (s1, .ok x) ∧ decide (x.lanes.length = 2) = true) ∧
    (rdS (st waveEnq) waveEnq 3 0).toNat / 4096 ≠ 0 ∧ (rdS (st waveEnq) waveEnq 3 1).toNat = 0 ∧ ((st waveEnq).queue 0).st = 1 ∧
    some ((st waveEnq).queue 0).proc = ((st waveEnq).launchOf waveEnq.task).map (·.proc) ∧ ((st waveEnq).queue 0).wptr - ((st waveEnq).queue 0).rptr + 2 ≤ 2 ^ ((st waveEnq).queue 0).log := by
  refine ⟨by unfold Issues; decide, rfl, nofun, pair_of _ (by decide +kernel), by decide, by decide, by decide, by decide, by decide⟩
/-- A fragment that has waited for room with two packets. -/
def frEnq : Frag := { fr0 with phase := .enq 3 [none, none] }
theorem witness_EnqStatuses_again : Issues (st { waveEnq with frags := [frEnq] }) 2048 { waveEnq with frags := [frEnq] } frEnq ∧
    ∃ d' keys, frEnq.phase = .enq d' keys ∧ keys.length = 2 := ⟨by unfold Issues; decide, 3, _, rfl, rfl⟩
theorem witness_EnqStatuses_full : let q : Queue := { (st waveEnq).queue 0 with wptr := 15 }
    q.st = 1 ∧ 2 ^ q.log < q.wptr - q.rptr + 2 ∧ ({ q with st := 2 } : Queue).st ≠ 0 ∧ ({ q with st := 2 } : Queue).st ≠ 1 := by decide
def frCall : Frag := { fr0 with phase := .called 5 7 }
def frSigned : Frag := { fr0 with phase := .signed 9 }
theorem witness_CollectiveCalls : Issues sGrp 2048 waveGrp fr0 ∧ (rdS sGrp waveGrp 3 12).toNat = 5 ∧ sGrp.named waveGrp 5 = some (5, group1) ∧ group1 = sGrp.group 5 ∧
    (∀ g call, fr0.phase ≠ .called g call) ∧ (∀ sg, fr0.phase ≠ .signed sg) ∧ fr0.lc = 0 ∧ fr0.sc = 0 ∧ fr0.kc = 0 ∧ sGrp.named waveGrp (rdS sGrp waveGrp 3 0).toNat = none ∧
    sel sGrp waveGrp fr0 { p := 2, neg := false } = 0 ∧ Picked sGrp waveGrp fr0 g1 0 ∧ (inB sGrp waveGrp (.v 2) 0).toNat = group1.rank ∧
    group1.ranks[group1.rank]? = some rank0 ∧ rank0.a = true ∧ (0 : Int) ≤ elemIndex (inA sGrp waveGrp (.v 2) 0) (some 0x3FFF) ∧
    4 * elemIndex (inA sGrp waveGrp (.v 2) 0) (some 0x3FFF) + 4 ≤ rank0.len := by
  refine ⟨by unfold Issues; decide, by decide, by decide +kernel, by decide, nofun, nofun, rfl, rfl, rfl, by decide +kernel, by decide, by unfold Picked; decide, by decide, by decide, by decide,
    by decide, by decide⟩
theorem witness_CollectiveCalls_made : Issues (stGrp frCall group1) 2048 { waveGrp with frags := [frCall] } frCall ∧ frCall.phase = .called 5 7 ∧
    Issues (stGrp frSigned group1) 2048 { waveGrp with frags := [frSigned] } frSigned ∧ frSigned.phase = .signed 9 := by unfold Issues; decide
/-- The other rank has made the call, with no contribution here and its own folds written: this device's call completes it. -/
theorem witness_CollectiveCalls_full : let old : CollCall := { made := [(1, 0)], remoteDone := true }
    old.queued = false ∧ ({ old with made := kinsert old.made 0 0 } : CollCall).arrived 2 = true ∧ ({} : CollCall).queued = false ∧
    ({ ({} : CollCall) with made := kinsert [] 0 0 } : CollCall).arrived 2 = false := by decide


/-! Groups, packets, launches and requests. -/
def sServ (f : State → State) : State := f { s0 with hub := { on := true, booted := true } }
def call1 : CollCall := { made := [(0, 0), (1, 1)], contribs := [{ rank := 1, lane := 0, peer := 0, elem := 0, op := .add, t := .i32, v := 5, sys := false }], queued := true }
def sFold : State := { sGrp with groups := [(5, { group1 with asid := 1, calls := [(callKey 0 7, call1)] })], atomQ := [(0, [.fold 5 (callKey 0 7) 0])] }
theorem witness_Groups : Serving s0 ∧ ([rank0] : List RankInfo)[0]? = some rank0 ∧ kfind s0.launches 1 = some launch1 ∧ 65535 < 2 ^ 16 ∧ (s0.group 65535).live = false ∧
    (s0.group 65535).freedAt = none ∧ launch1.done = false ∧ s0.regionOk launch1.asid rank0 = true ∧ Serving sGrp ∧ (sGrp.group 5).live = true ∧
    planOk (sGrp.group 5).ranks.length [[1, 0], [0, 1]] = true ∧ (sGrp.group 5).calls = [] ∧ 1 ≠ (sGrp.group 5).rank ∧ 1 < (sGrp.group 5).ranks.length := by
  unfold Serving; decide +kernel
theorem witness_Groups_fold : sFold.debugQs = [] ∧ Serving sFold ∧ kfind (sFold.group 5).calls (callKey (sFold.group 5).gen 7) = some call1 ∧ ∃ x, sFold.regionKey 5 (sFold.group 5).rank (4 * 0) = some x ∧
    kget [] sFold.atomQ (homeDie x) = .fold 5 (callKey (sFold.group 5).gen 7) 0 :: [] := by
  refine ⟨rfl, by unfold Serving; decide, by decide, keyOf 0 0x10000, by decide +kernel, by decide +kernel⟩
theorem witness_FabricPackets : sGrp.hub.on = true ∧ sGrp.hub.frozen = false ∧ sGrp.hub.recovery = false ∧ sGrp.debugQs = [] ∧ (sGrp.group 5).live = true ∧
    (sGrp.group 5).gen = 0 ∧ (sGrp.group 5).gen ≠ 1 ∧ (sGrp.group 6).live = false ∧ (sFold.regionKey 5 0 0xFFFF).isSome = true ∧ (sFold.group 5).live = true ∧ 2 ^ 40 - 1 < 2 ^ 40 ∧ 2047 < 2048 := by
  decide +kernel

/-- Queue 0's command processor at its first packet; in a buffer of one packet; at depth four; in a loop of one packet. -/
def lvl0 : Level := { ring := true, base := 0x8000, len := 0, pos := 0 }
def lvlIb : Level := { ring := false, base := 0x9000, len := 1, pos := 0 }
def lvlLoop : Level := { lvl0 with pos := 1, loop := some { first := 1, n := 1, left := 2 } }
def que (ls : List Level) : Queue := { (s0.queue 0) with levels := ls, wptr := 3 }
def stCmd (ls : List Level) : State := { s0 with queues := [(0, que ls)], cur := { actor := .cp 0 } }
def test0 : MemTest := { addr := 0x100, ref := 1, mask := 1, op := 1, wide := true }
def test1 : MemTest := { test0 with op := 0, wide := false }
theorem tests_of (s : State) (x : Queue) (t : MemTest) (b : Bool) (h : (match (s.testWord x.asid t).2 with | .ok y => y == b | .error _ => false) = true) :
    ∃ s1, Tests s x t s1 b := by
  unfold Tests
  generalize s.testWord x.asid t = r at h
  obtain ⟨s1, y⟩ := r
  cases y with
  | error e => simp at h
  | ok y => exact ⟨s1, by rw [beq_iff_eq.mp h]⟩
theorem witness_ControlPackets : AtPacket (stCmd [lvl0]) 0 (que [lvl0]) lvl0 ∧ (que [lvl0]).levels.length < 4 ∧ lvl0.loop = none ∧ lvl0.pos + 1 + 2 ≤ levelEnd (que [lvl0]) lvl0 ∧
    ¬lvl0.pos + 1 + 3 ≤ levelEnd (que [lvl0]) lvl0 ∧ (∃ s1, Tests (stCmd [lvl0]) (que [lvl0]) test0 s1 true) ∧ (∃ s1, Tests (stCmd [lvl0]) (que [lvl0]) test1 s1 false) ∧
    ∃ k s1, (stCmd [lvl0]).testWord (que [lvl0]).asid { test0 with addr := 0x0000010000000000 } = (s1, .error k) := by
  refine ⟨by unfold AtPacket; decide, by decide, rfl, by decide, by decide, tests_of _ _ _ _ (by decide +kernel), tests_of _ _ _ _ (by decide +kernel), ?_⟩
  obtain ⟨e, h⟩ := error_of (x := ((stCmd [lvl0]).testWord (que [lvl0]).asid { test0 with addr := 0x0000010000000000 }).2) (by decide +kernel)
  exact ⟨e, _, Prod.ext rfl h⟩
theorem witness_ControlPackets_deep : AtPacket (stCmd [lvlIb, lvlIb, lvlIb, lvl0]) 0 (que [lvlIb, lvlIb, lvlIb, lvl0]) lvlIb ∧ 4 ≤ (que [lvlIb, lvlIb, lvlIb, lvl0]).levels.length ∧
    lvlIb.ring = false ∧ lvlIb.loop = none ∧ AtPacket (stCmd [lvlLoop]) 0 (que [lvlLoop]) lvlLoop ∧ lvlLoop.loop ≠ none := by unfold AtPacket; decide
theorem witness_PacketFlow : (stCmd [lvl0]).queue 0 = que [lvl0] ∧ lvl0.ring = true ∧ lvl0.loop = none ∧ lvl0.pos < (que [lvl0]).wptr ∧
    (stCmd [lvlIb, lvl0]).queue 0 = que [lvlIb, lvl0] ∧ lvlIb.len = lvlIb.pos + 1 ∧ lvl0.fenced = false ∧
    (stCmd [lvlLoop]).queue 0 = que [lvlLoop] ∧ lvlLoop.pos + 1 = 1 + 1 ∧ 1 < 2 ∧ (que [lvl0]).fidx < 2 ^ 32 ∧
    ((que [lvl0]).fidx + 2 ^ 32 - (que [lvl0]).ack) % 2 ^ 32 ≠ 2 ^ (que [lvl0]).flogn := by decide
theorem witness_WritePackets : AtPacket (stCmd [lvl0]) 0 (que [lvl0]) lvl0 ∧ (stCmd [lvl0]).debugQs = [] ∧
    (∃ s1 f, (stCmd [lvl0]).translate (hubWalker (que [lvl0]).asid) 0x100 .write false = (s1, .ok f) ∧ true = true) ∧ (stCmd [lvl0]).drained 0 = false ∧
    ({ stCmd [lvl0] with launches := [] } : State).drained 0 = true :=
  ⟨by unfold AtPacket; decide, rfl, pair_of (fun _ _ => true) (by decide +kernel), by decide, by decide⟩

/-- A kernel descriptor at 0x40 whose entry is 0x10000: one wave, one wave a core, 64 registers; and one with 33 buffers. -/
def descBytes (nb : Byte) : Memory := Memory.writes tables ([(0x42, 1), (0x50, 1), (0x52, 1), (0x54, 64), (0x5B, nb)].map fun (p : Nat × Byte) => (keyOf 0 p.1, p.2))
def stLaunch (nb : Byte) : State := { stCmd [lvl0] with mem := descBytes nb }
def pkt1 : DispatchPkt := { kdesc := 0x40, nblk := 2, gsz := 1, det := false, cnt := false, idem := false, aff := false, prio := 3, gtab := 0, stab := 0, scnt := 0, crec := 0 }
def bcast1 : BcastPkt := { bpc := 0x10000, cw := 0, nbank := 1, prio := 3, det := false, idem := false, skew := 0 }
def stBusy : State := { stCmd [lvl0] with launches := (List.range 1024).map fun i => (i, launch1) }
theorem lines_one (s : State) (asid va : Nat) (l : Leaf) (h : (s.translate (hubWalker asid) va .read false).2 = .ok l) :
    s.hubLines asid va 1 = ((s.translate (hubWalker asid) va .read false).1, .ok (s.rdHs l.key 64)) := by
  simp only [State.hubLines, h, Except.map, List.append_nil, State.translate_rdHs]
def leaf40 : Leaf := { pa := 0x40, plc := 0, sp := false, r := true, w := true, x := true }
theorem launch_reads : ∃ s1 n, (stLaunch 0).readLaunch 0 pkt1 = (s1, .ok n) := by
  have h0 : ((stLaunch 0).translate (hubWalker 1) 0x40 .read false).2 = .ok leaf40 := ok_of (by decide +kernel)
  have h2 : (((stLaunch 0).translate (hubWalker 1) 0x40 .read false).1.translate (hubWalker 1) 0x40 .read false).2 = .ok leaf40 :=
    ok_of (by decide +kernel)
  have hb : (32 < pf ((stLaunch 0).rdHs leaf40.key 64) 27 1 || 16 < pf ((stLaunch 0).rdHs leaf40.key 64) 28 1) = false := by decide +kernel
  have hs : ceilDiv (descSize ((stLaunch 0).rdHs leaf40.key 64)) 64 = 1 := by decide +kernel
  have hd : badDescriptor ((stLaunch 0).rdHs leaf40.key 64) 1 = false := by decide +kernel
  have hr : ∃ s1, (stLaunch 0).readDesc 1 0x40 1 = (s1, .ok (kdescOf ((stLaunch 0).rdHs leaf40.key 64))) := by
    rw [State.readDesc, lines_one _ _ _ _ h0]
    simp only [hb, hs, lines_one _ _ _ _ h2, State.translate_rdHs, hd, Bool.false_eq_true, if_false]
    exact ⟨_, rfl⟩
  obtain ⟨s1, hr⟩ := hr
  have hq : ((stLaunch 0).queue 0).asid = 1 := by decide
  simp only [State.readLaunch, hq]
  rw [show pkt1.kdesc.toNat = 0x40 from rfl, show pkt1.gsz = 1 from rfl, hr]
  exact ⟨_, _, rfl⟩
theorem err_of {x : Except Refuse Launch} {e : Refuse} (h : (match x with | .ok _ => false | .error y => y = e : Bool) = true) : x = .error e := by
  cases x with
  | error y => simp at h; rw [h]
  | ok a => simp at h
theorem witness_Launching : AtPacket (stCmd [lvl0]) 0 (que [lvl0]) lvl0 ∧ (stCmd [lvl0]).tableFull = false ∧ AtPacket stBusy 0 (que [lvl0]) lvl0 ∧ stBusy.tableFull = true ∧
    AtPacket (stLaunch 33) 0 (que [lvl0]) lvl0 ∧ (∃ s1, (stLaunch 33).readLaunch 0 pkt1 = (s1, .error .refused)) ∧
    ∃ s1, (stLaunch 0).readLaunch 0 { pkt1 with kdesc := 0x0000010000000000 } = (s1, .error (.fault 0x12)) := by
  refine ⟨by unfold AtPacket; decide, by decide, by unfold AtPacket; decide +kernel, by decide +kernel, by unfold AtPacket; decide, ?_, ?_⟩
  · exact ⟨_, Prod.ext rfl (err_of (by decide +kernel))⟩
  · exact ⟨_, Prod.ext rfl (err_of (by decide +kernel))⟩


/-! Requests of clients. -/
def sReq : State := { s0 with asids := [(1, { st := .bound, root := 0x2000 })] }
def nopPkt : List Byte := 1 :: List.replicate 63 0
theorem witness_QueueRequests : Serving sReq ∧ sReq.boundAsid 1 = some 1 ∧ sReq.boundAsid 2 = none ∧ 4095 < 4096 ∧ (sReq.queue 4095).st = 0 ∧ 4 ≤ 16 ∧ 16 ≤ 16 ∧ 64 % 64 = 0 ∧ 12 ≤ 12 ∧
    (sReq.queue 0).st = 1 ∧ ({ sReq with queues := [(0, { sReq.queue 0 with st := 2 })] } : State).queue 0 = { sReq.queue 0 with st := 2 } := by unfold Serving; decide
theorem witness_Submission : Serving sReq ∧ ((sReq.queue 0).st = 1 ∨ (sReq.queue 0).st = 2) ∧ (sReq.queue 0).proc = 1 ∧ (∀ b ∈ List.replicate 16 nopPkt, b.length = 64) ∧
    (sReq.queue 0).wptr - (sReq.queue 0).rptr + 16 = 2 ^ (sReq.queue 0).log ∧ (∀ b ∈ [nopPkt], sReq.refusedPacket 0 b = false) ∧ sReq.debugQs = [] ∧ (sReq.queue 0).proc ≠ 2 := by
  unfold Serving; decide
def dispatch33 : List Byte := ((encodePacket (.dispatch pkt1)).getD [])
theorem witness_Submission_refused : Serving { stLaunch 33 with cur := {} } ∧ ((stLaunch 33).queue 0).proc = 1 ∧ dispatch33.length = 64 ∧
    ({ stLaunch 33 with cur := {} } : State).refusedPacket 0 dispatch33 = true := by unfold Serving; decide +kernel

/-! Tile contexts: context 0 of core 0, which holds slot 3; x1 names a copy descriptor far away and x2 the number 5. -/
def tablesFar : Memory := Memory.writes tables ([(keyOf 0 0x2008, 0x01), (keyOf 0 0x2009, 0x40)] : List (Nat × Byte))
def ctx1 : TileCtx :=
  { task := 1, blk := 0, part := 0, x := [(1, 0x800000001000), (2, 5), (4, 0xFFFFFFFFFFFFFFFF), (5, 0x0100000000000000), (6, 30720)], pc := 0x30000, held := 8, bankCount := 2, waves := [2048]
    frame := { gpc := 0x10000 }, call := { d := 30, a := 32, n := 1, target := 0x30000 } }
def core1 (c : TileCtx) : Core := { ctxs := [(0, c)] }
def stTile (k : Core) : State :=
  { s0 with mem := tablesFar, views := [(vSnap 0, [(keyOf 0 0x1008, 1, 0)])], cores := [(0, k)], cur := { actor := .tile 0 0 }, tasks := [(1, { task1 with grants := [{ grant1 with winLen := 65536 }] })] }
def sTile : State := stTile (core1 ctx1)
/-- The bundle is accepted, and the L1 TLB holds both leaves. -/
def sAcc : State :=
  { stTile { core1 ctx1 with tlbs := [(1, (0, 8))] } with
    cur := { actor := .tile 0 0, accepted := true, xs := some ctx1.x }, tlb := [tlb1, { tlb1 with vpn := 2 ^ 18 }] }
def mmaOp (n : Nat) : QOp := { order := n, ctx := 0, np := 1, copy := none, op := .mma 0 0 1 64 }
/-- Every queue of the core full of operations of the context. -/
def coreFull : Core := { core1 ctx1 with mxq := List.replicate 4 (mmaOp 0), txq := List.replicate 2 (mmaOp 0), cpq := List.replicate 16 (mmaOp 0), arq := List.replicate 2 (mmaOp 0), awq := List.replicate 2 (mmaOp 0) }
theorem witness_TileControl : InBundle sTile 0 0 ctx1 ∧ Idle sTile 0 0 [.mx, .tx, .cp, .ar, .aw] ∧ sTile.cur.accepted = false ∧ (ctx1.flags &&& ctx1.trapen).toNat % 256 = 0 ∧
    InBundle sAcc 0 0 ctx1 ∧ sAcc.cur.accepted = true ∧ (xBefore sTile ctx1 0).toInt = 0 ∧ 0 < (xBefore sTile ctx1 2).toInt ∧ (xBefore sTile ctx1 4).toInt < 0 := by
  unfold InBundle Idle; decide
def ctxFlags : TileCtx := { ctx1 with flags := 0x41, trapen := 0x40 }
theorem witness_TileControl_holds : InBundle (stTile coreFull) 0 0 ctx1 ∧ ¬Idle (stTile coreFull) 0 0 [.mx] ∧ InBundle (stTile (core1 ctxFlags)) 0 0 ctxFlags ∧
    (ctxFlags.flags &&& ctxFlags.trapen).toNat % 256 ≠ 0 := by unfold InBundle Idle; decide
theorem witness_TileEngines : InBundle sTile 0 0 ctx1 ∧ ((sTile.core 0).engq .mx).length < 4 ∧ ((sTile.core 0).engq .ar).length < 2 ∧ 1 < ctx1.bankCount ∧ ¬2 < ctx1.bankCount ∧
    ctx1.held.getLsbD 3 = true ∧ ctx1.held.getLsbD 2 = false ∧ ctx1.gateSlots.getLsbD 2 = false ∧ (xBefore sTile ctx1 6).toNat % 64 = 0 ∧
    (xBefore sTile ctx1 6).toNat + 34816 = (winOfCtx sTile 0 ctx1).2 ∧ (xBefore sTile ctx1 2).toNat % 64 ≠ 0 ∧ (winOfCtx sTile 0 ctx1).2 < (xBefore sTile ctx1 1).toNat + 34816 ∧
    (xBefore sTile ctx1 1).toNat % 64 = 0 ∧ InBundle (stTile coreFull) 0 0 ctx1 ∧ ¬((stTile coreFull).core 0).awq.length < 2 := by unfold InBundle; decide
def coreTheirs : Core := { core1 ctx1 with slots := [(5, { holder := some 1 })] }
def ctxBatch : TileCtx := { ctx1 with batches := [(2, [7])] }
theorem witness_TileClaims : InBundle sTile 0 0 ctx1 ∧ (sTile.core 0).cpq.length < 16 ∧ ¬((kget {} (sTile.core 0).slots 15 : Slot).holder ≠ none) ∧
    ¬(ctx1.held.getLsbD 15 = true ∨ ctx1.gateSlots.getLsbD 15 = true) ∧ ctx1.held.getLsbD 3 = true ∧ ctx1.held.getLsbD 4 = false ∧ ¬((stTile coreFull).core 0).cpq.length < 16 ∧
    (kget {} ((stTile coreTheirs).core 0).slots 5 : Slot).holder = some 1 ∧ InBundle (stTile coreTheirs) 0 0 ctx1 ∧ (∀ i ∈ kget [] ctx1.batches 7, kfind sTile.copies i = none) ∧
    InBundle { stTile (core1 ctxBatch) with copies := [(7, copy1)] } 0 0 ctxBatch ∧ (∃ i ∈ kget [] ctxBatch.batches 2, kfind ([(7, copy1)] : KMap Copy) i ≠ none) := by
  refine ⟨by unfold InBundle; decide, by decide, by decide, by decide, by decide, by decide, by decide, by decide, by unfold InBundle; decide, by decide, by unfold InBundle; decide,
    7, by decide, by decide⟩
theorem witness_TileCopies : InBundle sTile 0 0 ctx1 ∧ (sTile.core 0).cpq.length < 16 ∧ ctx1.held.getLsbD 3 = true ∧ ctx1.held.getLsbD 0 = false ∧ (xBefore sTile ctx1 2).toNat % 64 ≠ 0 ∧
    ((xBefore sTile ctx1 5).setWidth 57).signExtend 64 ≠ xBefore sTile ctx1 5 ∧ (xBefore sTile ctx1 5).toNat % 64 = 0 ∧ InBundle sAcc 0 0 ctx1 ∧
    (∃ e m, (acceptDesc sAcc 0 ctx1 1 none false).2 = .ok (e, m)) ∧ (∃ e m, (acceptDesc sAcc 0 ctx1 1 none true).2 = .ok (e, m)) ∧ (xBefore sAcc ctx1 0).toNat % 2 ^ 16 = 0 ∧
    ∃ m1 m2, (cpxLines sAcc 0 ctx1 .gs { dst := 0, src := 0x800000001000, n := 1 }).2 = .ok (m1, m2) := by
  have ok {ε α β : Type} {x : Except ε (α × β)} (h : x.toOption.isSome = true) : ∃ a b, x = .ok (a, b) := by
    cases x with
    | error e => simp [Except.toOption] at h
    | ok p => exact ⟨p.1, p.2, rfl⟩
  refine ⟨by unfold InBundle; decide, by decide, by decide, by decide, by decide, by decide, by decide, by unfold InBundle; decide, ok (by decide +kernel), ok (by decide +kernel), by decide,
    ok (by decide +kernel)⟩
theorem witness_EngineResults : Running (stTile coreFull) ∧ ((stTile coreFull).core 0).engq .mx = mmaOp 0 :: List.replicate 3 (mmaOp 0) ∧ opWaits (stTile coreFull) 0 (mmaOp 0) = false ∧ 0 < 64 ∧ 64 ≤ 64 ∧
    (let k := { core1 ctx1 with mxq := [mmaOp 1], txq := [{ mmaOp 0 with op := .trn 0 5 }] }
     (((stTile k).core 0).engq .mx) = [mmaOp 1] ∧ opWaits (stTile k) 0 (mmaOp 1) = true) := by unfold Running; decide +kernel
/-- TREL of a slot that the context no longer holds and claims no more; a negative MMA row of a fresh bank; a row with a NaN element; a bank
whose row 0 has the sum 1.0. -/
def coreRel : Core := { core1 ctx1 with cpq := [{ mmaOp 1 with op := .trel 5 }] }
def opOf (o : EngOp) : State := stTile { core1 ctx1 with mxq := [{ mmaOp 1 with op := o }], slots := [(2, { elems := [(0, 0x60000000)] })], banks := [(1, { rowsum := [(0, 0x3F800000)] })] }
theorem witness_EngineResults_trel : ((stTile coreRel).core 0).engq .cp = [{ mmaOp 1 with op := .trel 5 }] ∧ opWaits (stTile coreRel) 0 { mmaOp 1 with op := .trel 5 } = false ∧
    (∀ c, (stTile coreRel).ctxAt 0 0 = some c → c.held.getLsbD 5 = false) ∧ ∀ o ∈ ([] : List QOp), o.ctx = 0 → o.op ≠ .tclaim 5 :=
  ⟨by decide, by decide, fun c h => by cases h; decide, nofun⟩
theorem witness_EngineRows : (∀ o ∈ [EngOp.mma 0 0 1 64, .mmas 0 0 1 64, .mmas 0 2 1 64, .aresc 0 1 5, .aresc 1 0 0, .aresc 0 2 0x3F800000],
      ((opOf o).core 0).engq .mx = [{ mmaOp 1 with op := o }] ∧ opWaits (opOf o) 0 { mmaOp 1 with op := o } = false) ∧
    (let y : Bank := {}
     y.live.getLsbD 63 = true ∧ (∀ j, y.tag 63 j ≤ 3) ∧ ({} : Slot).colMax 63 = -4096 ∧ (∀ j, j < 64 → ({} : Slot).colMax j ≤ -4096) ∧
     ¬isNaN fp32 (y.maxOf 63).toNat ∧ isFin fp32 0 ∧ ceCls (({} : Slot).at 63 0) ≠ 3 ∧ ceCls (({ elems := [(0, 0x60000000)] } : Slot).at 0 0) = 3) ∧
    isFin fp32 (({ rowsum := [(0, 0x3F800000)] } : Bank).sumOf 0).toNat ∧ ¬isFin fp32 0x7F800000 := by
  refine ⟨by decide, ⟨by decide, fun _ => Nat.zero_le 3, rfl, fun _ _ => Int.le_refl _, by decide, by decide, by decide, by decide⟩, by decide, by decide⟩
/-- 1.0 is the rounding of 1, and its number is in (0, 1]. -/
theorem witness_EngineRows_sum : finOf fp32 0x3F800000 = 1 ∧ Rounded fp32 1 ((1 : ℚ) : ℝ) 0x3F800000 := by
  have h : finOf fp32 0x3F800000 = 1 := by norm_num [finOf, fp32, expOf, fracOf]
  refine ⟨h, by decide, fun _ z _ => ?_, fun hn => absurd (by decide) hn, iff_of_true (by decide) ?_⟩
  · simp only [h]
    refine ⟨by simp, fun he hz => absurd ?_ hz⟩
    have : |(1 : ℝ) - (finOf fp32 z : ℝ)| = 0 := by simpa using he.symm
    have := abs_eq_zero.mp this
    push_cast; linarith
  · norm_num [overOf, fp32]

/-! Gates: a wave whose fragment waits at its GATE; the state after its gate has opened is that of ctx1. -/
def gateCall : GateCall := { d := 30, a := 32, n := 1, target := 0x30000 }
def frGate : Frag := { fr0 with xc := 1, st := .waiting .gate, phase := .gated gateCall }
def waveGate : Wave := { wave1 with frags := [frGate], cur := none }
def frKc : Frag := { fr0 with kc := 1 }
def waveKc : Wave := { wave1 with frags := [frKc] }
theorem witness_GateArrives : roomFor s0 0 1 = true ∧ Issues s0 2048 wave1 fr0 ∧ wave1.trapSave = none ∧ (((fr0.pc + (0x40 : Word).signExtend 64).setWidth 57).signExtend 64) = fr0.pc + (0x40 : Word).signExtend 64 ∧
    (fr0.pc + (0x40 : Word).signExtend 64).toNat % 32 = 0 ∧ (fr0.pc + (8 : Word).signExtend 64).toNat % 32 ≠ 0 ∧ wave1.inflight = [] ∧ wave1.flagPend = [] ∧ fr0.lc = 0 ∧ fr0.sc = 0 ∧ fr0.kc = 0 ∧
    Issues (st waveIn) 2048 waveIn fr0 ∧ waveIn.trapSave ≠ none ∧ Issues (st waveFly) 2048 waveFly fr0 ∧ Issues (st waveKc) 2048 waveKc frKc ∧ frKc.kc ≠ 0 := by unfold Issues; decide
def frTop : Frag := { fr0 with pc := 0x00FFFFFFFFFFFFE0 }
theorem witness_GateArrives_far : Issues (st { wave1 with frags := [frTop] }) 2048 { wave1 with frags := [frTop] } frTop ∧
    ((frTop.pc + (0x20 : Word).signExtend 64).setWidth 57).signExtend 64 ≠ frTop.pc + (0x20 : Word).signExtend 64 := by unfold Issues; decide
theorem witness_GateOpens : Running (st waveGate) ∧ (openable (st waveGate) 0 1 0).isSome = true ∧ openable s0 0 1 0 = none := by unfold Running; decide
/-- A map of fp32 elements: lane l of register v0 of the first wave to row l, column 0, of slot or bank 1. -/
def map1 : LayoutMap := BitVec.ofNat 128 (2 ^ 21 + 31 * 2 ^ 25 + 1 * 2 ^ 42 + 2 * 2 ^ 47 + 3 * 2 ^ 52 + 4 * 2 ^ 57 + 31 * 2 ^ 62 + (2 ^ 30 - 1) * 2 ^ 67)
def taskMap : Task := { task1 with desc := { desc with maps := [map1] } }
def frMap : Frag := { frGate with phase := .gated { gateCall with in0 := 0 } }
def stMap : State := { st { waveGate with frags := [frMap] } with tasks := [(1, taskMap)] }
theorem witness_GateOpens_map : ((openable stMap 0 1 0).map fun o => (o.call.in0, o.call.in1, o.ws.map (·.1))) = some (0, 31, [0]) ∧ mapAt stMap 1 0 = some (mapDesc map1) ∧
    mapAt stMap 1 31 = none ∧ Maps (mapDesc map1) 0 (gateMask { waveGate with frags := [frMap] }) { l := 31, g := 0, q := 0, h := 0 } 31 0 := by unfold Maps; decide
def ctxMap : TileCtx := { ctx1 with held := 0, call := { ctx1.call with out0 := 0 }, frame := { ctx1.frame with lmask := [(0, 0xFFFFFFFF)] } }
theorem witness_GateReturns_map : let s : State := { stTile (core1 ctxMap) with tasks := [(1, taskMap)] }
    InBundle s 0 0 ctxMap ∧ mapAt s ctxMap.task ctxMap.call.out0 = some (mapDesc map1) ∧ mapAt s ctxMap.task ctxMap.call.out1 = none ∧ (mapDesc map1).packed = false ∧
    Maps (mapDesc map1) 0 (kget 0 ctxMap.frame.lmask 0) { l := 31, g := 0, q := 0, h := 0 } 31 0 ∧
    ¬Maps (mapDesc map1) 0 (kget 0 ctxMap.frame.lmask 0) { l := 31, g := 1, q := 0, h := 0 } 31 0 := by unfold InBundle Maps; decide
theorem witness_GateReturns : InBundle sTile 0 0 ctx1 ∧ Idle sTile 0 0 [.mx, .tx, .cp, .ar, .aw] ∧ ctx1.held.getLsbD 3 = true ∧ (∀ j, j < 3 → ctx1.held.getLsbD j = false) ∧
    ¬Idle (stTile coreFull) 0 0 [.aw] ∧ InBundle (stTile (core1 { ctx1 with held := 0 })) 0 0 { ctx1 with held := 0 } ∧ ctx1.waves.Nodup ∧ ctx1.call.d < 511 ∧
    kfind sTile.waves 2048 = some wave1 ∧ (wave1.frags.map (·.num)).Nodup ∧ ctx1.call.out0 = 31 ∧ ctx1.call.out1 = 31 ∧ (kfind sTile.tasks ctx1.task).bind (fun t => t.desc.maps[31]?) = none := by
  unfold InBundle Idle; decide
def ctxDec : TileCtx := { ctx1 with cush := .decoupled }
theorem witness_Cushions : InBundle sTile 0 0 ctx1 ∧ ctx1.cush ≠ .decoupled ∧ ctx1.cush ≠ .raised ∧ InBundle (stTile (core1 ctxDec)) 0 0 ctxDec ∧ ctxDec.cush = .decoupled ∧
    Idle (stTile (core1 ctxDec)) 0 0 [.mx, .tx, .cp, .ar, .aw] := by unfold InBundle Idle; decide
def waveT : Wave := { waveGate with trapSave := none }
def stFault : State := { sTile with waves := [(2048, waveT)] }
def trapT : TrapSave := { trap1 with tile := some (0, 0) }
def waveH : Wave := { waveIn with trapSave := some trapT }
theorem witness_TileFaults : stFault.ctxAt 0 0 = some ctx1 ∧ ctx1.cush = .none ∧ ctx1.waves = [2048] ∧ kfind stFault.waves 2048 = some waveT ∧ waveT.frags = [frGate] ∧ waveT.trapSave = none ∧
    waveT.trapbase ≠ 0 ∧ waveT.idx < 256 ∧ frGate.num < 16 ∧ stFault.cur.actor = .tile 0 0 := by decide
theorem witness_TileFaults_back : let s : State := { stFault with waves := [(2048, waveH)], cur := { actor := .frag 2048 0 } }
    s.ctxAt 0 0 = some ctx1 ∧ kfind s.waves 2048 = some waveH ∧ waveH.frags = [fr0] ∧ waveH.trapSave = some trapT ∧ trapT.tile = some (0, 0) ∧ trapT.frag = fr0.num ∧ trapT.words.length = 16 ∧
    fr0.num ∈ trapT.live := by decide


/-! The scheduler. -/
def task2 : Task := { launch := 1, gang := 0, desc }
def stPend : State := { s0 with tasks := [(1, task1), (2, task2)], nextTask := 3 }
theorem witness_Placing : Running stPend ∧ kfind stPend.tasks 2 = some task2 ∧ kfind stPend.launches task2.launch = some launch1 ∧ task2.evalAt = none ∧
    ((nextPlaced stPend (offers stPend)).map (·.1)) = some 2 ∧ task2.data.grants = [] ∧ launch1.bcast = none ∧ task2.nblk ≤ 8 ∧ task2.desc.nwave ≤ 256 ∧ task2.desc.bufs = [] ∧
    nextPlaced s0 (offers s0) = none := by unfold Running; decide +kernel
theorem witness_Placing_reads : kfind (stPend.reread 2 task2 launch1).tasks 2 = some task2 ∧
    (kfind (stPend.reread 2 task2 launch1).launches 1).isSome = true ∧ (placement (stPend.reread 2 task2 launch1) task2).isSome = true := by decide +kernel
def req1 : EvalReq := { id := 9, cell := 7, prio := 0, launch := 1, desc, place := 0, homeDie := 0, cluster := 0, rscope := .device, va := 224, bytes := List.replicate 32 0 }
def stReq (w : Nat) : State := { s0 with evalReqs := [req1], nextReq := 10, hub := { on := true, booted := true, reserves := [(0, (w, 64, 1))] } }
theorem witness_Placing_evaluator : Running (stReq 1) ∧
    ((evalOrder (stReq 1).evalReqs).find? fun r => (freeSlot (stReq 1) r.launch r.desc none r.place r.homeDie r.cluster).isSome) = some req1 ∧
    (freeSlot (stReq 1) req1.launch req1.desc none req1.place req1.homeDie req1.cluster).isSome = true ∧
    ((evalOrder (stReq 0).evalReqs).find? fun r => (freeSlot (stReq 0) r.launch r.desc none r.place r.homeDie r.cluster).isSome) = none := by unfold Running; decide +kernel
def waveEnd : Wave := { wave1 with ended := true, frags := [], cur := none }
def stTask (w : Wave) (x : Task) : State := { st w with tasks := [(1, x)], cur := {} }
def taskWd : Task := { task1 with wdN := 16 }
def stWd : State := { stTask { waveLoad with frags := [{ frLoad with st := .waiting (.waitc 0 0 0 0) }], cur := none } taskWd with cycle := 2 ^ 16 }
theorem witness_TasksEnd : Running (stTask waveEnd task1) ∧ kfind (stTask waveEnd task1).tasks 1 = some task1 ∧ task1.st = .resident ∧ task1.wantKill = false ∧ task1.endFault = none ∧
    task1.cell = none ∧ (∀ p ∈ (stTask waveEnd task1).waves, p.2.task = 1 → p.2.ended = true) ∧ taskCtxs (stTask waveEnd task1) 1 task1 = [] ∧ (stTask waveEnd task1).copies = [] ∧
    (stTask waveEnd task1).copiesOver 1 task1 = true ∧ (∃ p, p ∈ s0.waves ∧ p.2.task = 1 ∧ p.2.ended = false) ∧ (∀ p ∈ s0.waves, p.2.replay = []) ∧ task1.wdN = 0 ∧
    s0.copiesOver 1 { task1 with endFault := some (0x11, 0, 0) } = true ∧ s0.copiesOver 1 { task1 with wantKill := true, restart := true } = true ∧
    ({ task1 with endFault := some (0x11, 0, 0) } : Task).endFault ≠ none := by
  refine ⟨by unfold Running; decide, by decide, by decide, by decide, by decide, by decide, by decide, by decide, by decide, by decide, ⟨(2048, wave1), by decide, by decide, by decide⟩,
    by decide, by decide, by decide, by decide, by decide⟩
theorem witness_TasksEnd_watchdog : Running stWd ∧ kfind stWd.tasks 1 = some taskWd ∧ taskWd.wdN ≠ 0 ∧ stWd.cycle - taskWd.silent = 2 ^ taskWd.wdN ∧ taskWd.endFault = none ∧
    (∀ p ∈ stWd.waves, p.2.frags.any (activeWait stWd) = false) ∧ kfind stWd.launches taskWd.launch ≠ none := by unfold Running; decide
theorem witness_TasksEnd_paged : let x : Task := { task1 with st := .paged, grants := [], pf := true }
    kfind (stTask wave1 x).tasks 1 = some x ∧ x.st = .paged := by decide
def taskSv : Task := { task1 with stopIssue := true, slice := true, placedAt := 1 }
theorem witness_Saving : Running (stTask wave1 taskSv) ∧ kfind (stTask wave1 taskSv).tasks 1 = some taskSv ∧ taskSv.st = .resident ∧ taskSv.stopIssue = true ∧ taskSv.wantKill = false ∧
    taskSv.endFault = none ∧ settledTask (stTask wave1 taskSv) 1 taskSv = true ∧ task1.stopIssue = false ∧ (kget 0 (stTask wave1 taskSv).hub.slices 0 < 1) ∧
    s0.time.toNat - task1.chargedAt < 1000000 ∧ ({ s0 with time := 1000000 } : State).time.toNat - task1.chargedAt = 1000000 := by unfold Running; decide
/-- The same task with no more than eight registers in a wave, to be saved at 0x100000; and as it is saved there, with nobody else to place. -/
def taskSmall : Task := { taskSv with frame := { va := 0, pa := 0x100000, plc := 1 } }
def stSmall : State := stTask { wave1 with alloc := 8 } taskSmall
theorem inPlace_pinned (va : DWord) (n : Nat) (h : n ≤ 2 ^ 20) : InPlace { va, pa := 0x100000, plc := 1 } n := by
  have hk (i : Nat) (hi : i < n) : FrameLoc.key { va, pa := 0x100000, plc := 1 } i = 0x100000 + i := by
    have hw : isWindow (0x100000 + i) = false := by simp only [isWindow, decide_eq_false_iff_not]; omega
    simp only [FrameLoc.key, FrameLoc.place, List.find?_nil, keyOf, hw, Bool.false_eq_true, if_false, one_ne_zero]
  exact ⟨fun i hi => by rw [hk i hi]; omega, fun i j hi hj he => by rw [hk i hi, hk j hj] at he; omega⟩
theorem witness_SavedFrame : Running stSmall ∧ kfind stSmall.tasks 1 = some taskSmall ∧ settledTask stSmall 1 taskSmall = true ∧ taskCtxs stSmall 1 taskSmall = [] ∧ stSmall.debugQs = [] ∧
    (stSmall.waves.Pairwise fun p q => p.1 < q.1) ∧ InPlace taskSmall.frame (frameImage ((settleTask stSmall 1 taskSmall).chargeTask 1 taskSmall) 1 taskSmall).1.length ∧
    (∀ f ∈ wave1.frags, f.num < 16) ∧ (wave1.frags.map (·.num)).Nodup :=
  ⟨by unfold Running; decide, by decide, by decide +kernel, by decide, by decide, by decide, inPlace_pinned _ _ (by decide +kernel), by decide, by decide⟩
def win1 : SavedWin := { blk := 0, part := 0, bytes := [(5, 9)] }
def taskBack : Task := { taskSmall with st := .pending, stopIssue := false, slice := false, grants := [], data := { grants := [grant1], windows := [win1] } }
def stBack : State := stTask { wave1 with resident := false } taskBack
theorem witness_Restoring : Running stBack ∧ kfind stBack.tasks 1 = some taskBack ∧ taskBack.evalAt = none ∧ ((nextPlaced stBack (offers stBack)).map fun p => (p.1, p.2.length)) = some (1, 1) ∧
    taskBack.data.grants ≠ [] ∧ taskBack.data.tiles = [] ∧ (stBack.waves.Pairwise fun p q => p.1 < q.1) ∧
    (∀ p ∈ waveOffsets 64 (liveWaves stBack 1), ∀ i, i < 16 → badToken (tokenWords stBack taskBack.frame (p.2 + 320 + 24 * i)) = false) ∧
    Memory.wf win1.bytes = true ∧ (∀ p ∈ win1.bytes, p.1 < 4096) := by unfold Running; decide +kernel
theorem witness_Restoring_phase : ∀ c, ∀ e ∈ (stBack.core c).phase, e.task ≠ 1 := by intro c e h; cases h
/-- A newcomer of a higher priority that needs the whole window of a core; only core 0 may take it, and a resident task holds that. -/
def descWide : KDesc := { desc with win := 127 }
def coresOut : KMap Core := (List.range 255).map fun c => (c + 1, { excluded := true })
def stTight : State :=
  { s0 with launches := [(1, launch1), (2, { launch1 with prio := 1, desc := descWide })], tasks := [(1, { task1 with grants := [{ grant1 with winLen := 127 * 4096 }], placedAt := 1 }), (2, { task2 with launch := 2, desc := descWide })], nextTask := 3, waves := [], cores := coresOut }
theorem witness_Saving_preempts : kfind stTight.tasks 2 = some { task2 with launch := 2, desc := descWide } ∧ offered stTight 2 { task2 with launch := 2, desc := descWide } = true ∧
    placement stTight { task2 with launch := 2, desc := descWide } = none ∧
    (enough stTight { task2 with launch := 2, desc := descWide } (victims stTight 2 { task2 with launch := 2, desc := descWide } false)).map (·.map (·.1)) = some [1] ∧
    waitsEnq stTight 1 (stTight.procOf { task2 with launch := 2, desc := descWide }) = false ∧ waitsGroup stTight 1 2 = false ∧
    kget 0 stTight.hub.budgets 1 < remainOf stTight 1 ∧ launch1.idem = false := by decide +kernel
theorem witness_PacketReads : let s := { stCmd [lvl0] with cur := {} }
    Running s ∧ s.queue 0 = que [lvl0] ∧ (que [lvl0]).st = 1 ∧ lvl0.ring = true ∧ lvl0.org = 0 ∧ lvl0.rot = none ∧ lvl0.loop = none ∧ 2 < (que [lvl0]).wptr ∧ kfind lvl0.window 2 = none ∧
    lvl0.hw ≤ 2 ∧ 2 ≤ lvl0.hw + 16 ∧ (que [lvl0]).wptr ≤ 3 ∧ (que [lvl0]).polling = false := by unfold Running; decide
def waitBytes : List Byte := (encodePacket (.waitmem test0)).getD []
def lvlWait : Level := { lvl0 with window := [(0, waitBytes)] }
theorem witness_PacketReads_polls : let q : Queue := { que [lvlWait] with polling := true }
    ({ stCmd [lvlWait] with queues := [(0, q)] } : State).queue 0 = q ∧ kfind lvlWait.window lvlWait.pos = some waitBytes ∧ (decodePacket waitBytes).toOption = some (.waitmem test0) ∧
    (∃ s1, Tests (stCmd [lvlWait]) q test0 s1 true) ∧ ∃ s1, Tests (stCmd [lvlWait]) q test1 s1 false := by
  refine ⟨by decide, by decide, by decide +kernel, tests_of _ _ _ _ (by decide +kernel), tests_of _ _ _ _ (by decide +kernel)⟩

/-! The service. -/
def asid7 : Asid := { st := .retiring, root := 0x2000 }
def stSvc : State := { s0 with asids := [(1, { st := .bound, root := 0x2000 }), (2, { st := .bound, root := 0x2000 }), (7, asid7)], invals := [(4, { asid := 7, range := none, waits := [] })], nextInval := 5 }
theorem witness_AddressSpaces : Serving stSvc ∧ stSvc.serving = true ∧ Running stSvc ∧ 65535 < 2 ^ 16 ∧ 0x4000 % 8192 = 0 ∧ (kget {} stSvc.asids 65535 : Asid).st = .free ∧
    (kget {} stSvc.asids 7 : Asid).st = .retiring ∧ (kget {} stSvc.asids 1 : Asid).st = .bound ∧ (∃ t ∈ stSvc.tasks, t.2.st ≠ .retired ∧ t.2.st ≠ .killed ∧ stSvc.asidOf t.1 = 1) ∧
    (kget {} stSvc.asids 2 : Asid).st = .bound ∧ (¬∃ t ∈ stSvc.tasks, t.2.st ≠ .retired ∧ t.2.st ≠ .killed ∧ stSvc.asidOf t.1 = 2) ∧ (∃ p ∈ stSvc.invals, p.2.asid = 7) ∧
    (∀ p ∈ ({ stSvc with invals := [] } : State).invals, p.2.asid ≠ 7) ∧ kfind stSvc.invals 4 = some { asid := 7, range := none, waits := [] } ∧ kfind stSvc.invals 5 = none ∧
    openAccesses stSvc 7 none = [] ∧ ¬InvalOpen stSvc { asid := 7, range := none } := by
  refine ⟨by unfold Serving; decide, by decide, by unfold Running; decide, by decide, by decide, by decide, by decide, by decide, by decide, by decide, by decide, by decide, by decide,
    by decide, by decide, by decide, ?_⟩
  rintro (⟨a, h, _⟩ | ⟨c, h, _⟩ | ⟨q, h, _⟩) <;> cases h
theorem witness_AddressSpaces_open : InvalOpen (st waveLd) { asid := 1, range := none, waits := [(2048, 0)] } ∧ InvalOpen (stCp copy1) { asid := 1, range := none, copies := [5] } :=
  ⟨.inl ⟨(2048, 0), by decide, waveLd, by decide, ldEntry, by decide, by decide⟩, .inr (.inl ⟨5, by decide, by decide⟩)⟩
/-- An access by the first leaf of the L1 TLB, whose line is noted. -/
theorem witness_AddressSpaces_waits : let s : State := { stTlb with waves := [(2048, { wave1 with replay := [{ ldEntry with lines := [0] }] })] }
    openAccesses s 1 none = [(2048, 0)] := by decide
/-- A window and a page entry that wait for invalidation 4. -/
def stMaps : State :=
  { stSvc with windows := [(2, { active := true, freeing := [4] }), (3, { active := true, freeing := [4, 5] })]
               hub := { stSvc.hub with remaps := [{ waits := [4], key := 8, val := 0x1F }] } }
theorem witness_AddressSpaces_completes : Running stMaps ∧ kfind stMaps.invals 4 = some { asid := 7, range := none } ∧
    stMaps.hub.remaps = [{ waits := [4], key := 8, val := 0x1F }] ∧ stMaps.debugQs = [] ∧ stSvc.hub.remaps = [] := by unfold Running; decide
/-- A leaf of a table, and one of a table that it names, is among the leaves below it. -/
theorem mem_leaf (s : State) (a p n l b v i : Nat) (hi : i < tableSize l / 8)
    (h : (let e := ofBytes (s.rdHs (keyOf p (b + 8 * i)) 8); bit e 0 && !badEntry l e && bit e 4) = true) :
    { asid := a, key := keyOf p (b + 8 * i), entry := ofBytes (s.rdHs (keyOf p (b + 8 * i)) 8), level := l, va := v + i * 2 ^ (levelBits l).2 }
      ∈ s.leavesAt a p (n + 1) l b v := by
  refine List.mem_flatMap.mpr ⟨i, List.mem_range.mpr hi, ?_⟩
  simp only [Bool.and_eq_true, Bool.not_eq_true'] at h
  simp [h.1.1, h.1.2, h.2]
theorem mem_below (s : State) (a p n l b v i : Nat) (m : Mapping) (hi : i < tableSize l / 8)
    (h : (let e := ofBytes (s.rdHs (keyOf p (b + 8 * i)) 8); bit e 0 && !badEntry l e && !bit e 4) = true)
    (hm : m ∈ s.leavesAt a p n (l - 1) (bits (ofBytes (s.rdHs (keyOf p (b + 8 * i)) 8)) 51 8 * 256) (v + i * 2 ^ (levelBits l).2)) :
    m ∈ s.leavesAt a p (n + 1) l b v := by
  refine List.mem_flatMap.mpr ⟨i, List.mem_range.mpr hi, ?_⟩
  simp only [Bool.and_eq_true, Bool.not_eq_true'] at h
  simpa [h.1.1, h.1.2, h.2] using hm
theorem leaves_bound (s : State) (a : Nat) (x : Asid) (h : kget {} s.asids a = x) (hb : x.st = .bound) : s.leaves a = s.leavesAt a x.tplc 5 4 x.root 0 := by
  simp only [State.leaves, h, hb, if_true]
/-- Without memory nothing is mapped. -/
theorem leavesAt_empty (s : State) (h : s.mem = []) (hc : s.client = []) (a p n l b v : Nat) : s.leavesAt a p n l b v = [] := by
  have h0 (k : Nat) : s.rdHs k 8 = List.replicate 8 0 := by
    refine List.ext_getElem (by simp [State.rdHs]) fun i _ _ => ?_
    simp only [State.rdHs, State.rdH, h, hc, kget, kfind, List.getElem_map, List.getElem_replicate]
    split <;> rfl
  have hz : bit (ofBytes (List.replicate 8 (0 : Byte))) 0 = false := by decide
  cases n with
  | zero => rfl
  | succ n =>
    simp only [State.leavesAt, h0, hz, Bool.not_false, Bool.true_or, if_true]
    exact List.flatMap_eq_nil_iff.mpr fun _ _ => rfl
/-- A page pinned to die 0 beside the interleaved one of the same storage. -/
def ptePin : PteWrite := { pa := 0x5008, tplc := 0, val := 0x080000000000001F }
abbrev tPin : State := s0.withPtes [PteWrite.at ptePin]
theorem mapped_both (i : Nat) (h : i = 0 ∨ i = 1) :
    { asid := 1, key := keyOf 0 (0x5000 + 8 * i), entry := ofBytes (tPin.rdHs (keyOf 0 (0x5000 + 8 * i)) 8), level := 2, va := i * 2 ^ 29 } ∈ tPin.mapped := by
  refine List.mem_flatMap.mpr ⟨1, by decide +kernel, ?_⟩
  rw [leaves_bound tPin 1 { st := .bound, root := 0x2000 } (by decide +kernel) rfl]
  refine mem_below _ _ _ _ _ _ _ 0 _ (by decide) (by decide +kernel) (mem_below _ _ _ _ _ _ _ 0 _ (by decide) (by decide +kernel) ?_)
  have h4 : bits (ofBytes (tPin.rdHs (keyOf 0 (0x2000 + 8 * 0)) 8)) 51 8 * 256 = 0x4000 := by decide +kernel
  have h5 : bits (ofBytes (tPin.rdHs (keyOf 0 (0x4000 + 8 * 0)) 8)) 51 8 * 256 = 0x5000 := by decide +kernel
  rw [h4, h5]
  have := mem_leaf tPin 1 0 2 2 0x5000 0 i (by rcases h with rfl | rfl <;> decide) (by rcases h with rfl | rfl <;> decide +kernel)
  simpa [levelBits] using this
theorem mixes_pin : mixes (mains tPin.mapped) = true := by
  refine List.any_eq_true.mpr ⟨(0x1F, 2 ^ 29), List.mem_map.mpr ⟨_, List.mem_filter.mpr ⟨mapped_both 0 (.inl rfl), by decide +kernel⟩, by decide +kernel⟩,
    List.any_eq_true.mpr ⟨(0x080000000000001F, 2 ^ 29), List.mem_map.mpr ⟨_, List.mem_filter.mpr ⟨mapped_both 1 (.inr rfl), by decide +kernel⟩, by decide +kernel⟩, by decide +kernel⟩⟩
/-- Binding tables that bring both views of a byte; binding tables that map nothing. -/
def sMixed : State := { tPin with asids := [] }
theorem witness_AddressSpaces_mixed : (kget {} sMixed.asids 1 : Asid).st = .free ∧
    mixes (mains ({ sMixed with asids := kinsert sMixed.asids 1 { st := .bound, root := 0x2000, tplc := 0, proc := 0 } } : State).mapped ++
      sMixed.oldLeaves.map fun o => (o.entry, o.size)) = true := by
  refine ⟨by decide, ?_⟩
  have : (sMixed.oldLeaves.map fun o => (o.entry, o.size)) = [] := rfl
  rw [this, List.append_nil]
  have hs : ({ sMixed with asids := kinsert sMixed.asids 1 { st := .bound, root := 0x2000, tplc := 0, proc := 0 } } : State) = tPin := by
    unfold sMixed tPin; generalize hx : State.withPtes _ _ = x
    have ha : x.asids = [(1, { st := .bound, root := 0x2000 })] := hx ▸ by decide +kernel
    cases x; simp_all [kinsert]
  rw [hs]; exact mixes_pin
theorem witness_AddressSpaces_clean : let s : State := { s0 with asids := [], mem := [] }
    let s1 : State := { s with asids := kinsert s.asids 1 { st := .bound, root := 0x2000, tplc := 0, proc := 1 } }
    (kget {} s.asids 1 : Asid).st = .free ∧ mixes (mains s1.mapped ++ s.oldLeaves.map fun o => (o.entry, o.size)) = false ∧ ∀ m ∈ s1.leaves 1, s1.neverMaps m = false := by
  intro s s1
  have hl : s1.leaves 1 = [] := (leaves_bound s1 1 { st := .bound, root := 0x2000, proc := 1 } (by decide) rfl).trans (leavesAt_empty s1 rfl rfl _ _ _ _ _ _)
  have hm : s1.mapped = [] := by
    have : s1.bound = [1] := by decide
    simp only [State.mapped, this, List.flatMap_cons, List.flatMap_nil, hl, List.append_nil]
  refine ⟨by decide, by rw [hm]; decide, by rw [hl]; nofun⟩
def stUpd : State := { s0 with hub := { on := true, booted := true, updating := true, updateAt := 0 } }
theorem witness_HeldRequest : stUpd.serving = true ∧ stUpd.hub.updating = true := by decide
def stWin : State := { s0 with asids := [], windows := [(2, { active := true, len := 2 ^ 16 })], hub := { on := true, booted := true, reservations := [(1, 0, [0])] } }
def pte0 : PteWrite := { pa := 0x5000, tplc := 0, val := 0x1F }
theorem witness_Windows_refused : Serving s0 ∧ s0.refusesMap (s0.withPtes (s0.pendingPtes [PteWrite.at ptePin] ++ [PteWrite.at ptePin])) = true := by
  refine ⟨by unfold Serving; decide, ?_⟩
  have hp : s0.pendingPtes [PteWrite.at ptePin] = [] := rfl
  rw [hp, List.nil_append]
  simp only [State.refusesMap, mixes_pin, Bool.or_true, Bool.true_or]
theorem witness_Windows_bound : s0.bound ≠ [] ∧ (kget {} stMaps.windows 2 : Window).active = true ∧ (kget {} stMaps.windows 2 : Window).freeing ≠ [] := by decide
theorem witness_Windows : Serving stWin ∧ 2047 < 2048 ∧ (kget {} stWin.windows 2047 : Window).active = false ∧ 2 ^ 40 % 2 ^ 16 = 0 ∧ 2 ^ 40 ≤ 2 ^ 40 ∧ (kget {} stWin.windows 2 : Window).active = true ∧
    (kget {} stWin.windows 2 : Window).freeing = [] ∧ stWin.bound = [] ∧ stWin.refusesMap (stWin.withPtes (stWin.pendingPtes [PteWrite.at pte0] ++ [PteWrite.at pte0])) = false ∧
    stWin.debugQs = [] ∧ (∃ q ∈ stWin.hub.reservations, 0 ∈ q.2.2) ∧ (∀ q ∈ stWin.hub.reservations, 8 * 3 + 7 ∉ q.2.2) := by unfold Serving; decide +kernel
/-- A debugger session. -/
def sDq : State := { s0 with debugQs := [(0, { base := 64 })] }
theorem witness_ServiceRegisters : Serving sDq ∧ kfind sDq.debugQs 0 ≠ none ∧ kfind s0.debugQs 0 = none ∧ (15 < 16 ∧ 3 * 2 ^ 37 % 64 = 0 ∧ 2 ^ 24 ≤ 2 ^ 24 ∧ 3 * 2 ^ 37 / 2 ^ 37 = 15 / 4 ∧ 15 / 4 ∉ s0.hub.dieOff) ∧
    (255 < 256 ∧ 3 < 4 ∧ ((0xFFFFFFFFFFFFFFC0 : DWord).setWidth 57).signExtend 64 = 0xFFFFFFFFFFFFFFC0 ∧ (0x3F : Word).toNat / 2 ^ 6 % 2 ^ 10 = 0) ∧
    (0 < 64 ∧ 64 ≤ 64 ∧ 1536 % 8 = 0 ∧ 8 ≤ 1536 ∧ 127 ≤ 127) ∧ (16 ≤ 47 ∧ 47 ≤ 47) ∧ (1 ≤ 65535) ∧ s0.evalReqs = [] ∧ s0.hub.ptpLocked = false ∧
    kfind s0.tasks 1 = some task1 := by unfold Serving; decide
def stDbg (x : Task) : State := { s0 with tasks := [(1, x)] }
theorem witness_Debugging : kfind s0.tasks 1 = some task1 ∧ Serving s0 ∧ 4 ≤ 16 ∧ 64 % 64 = 0 ∧ task1.debug = none ∧
    (let x : Task := { task1 with debug := some 0 }
     kfind (stDbg x).tasks 1 = some x ∧ x.debug ≠ none ∧ x.st = .resident ∧ x.halt = false) ∧
    (let x : Task := { task1 with debug := some 0, st := .pending }
     kfind (stDbg x).tasks 1 = some x ∧ x.debug ≠ none ∧ x.st = .pending) ∧
    (let x : Task := { task1 with debug := some 0, st := .saved, halt := true }
     kfind (stDbg x).tasks 1 = some x ∧ x.halt = true ∧ x.st = .saved) ∧ s0.hub.on = true ∧ s0.hub.frozen = false ∧
    ({ s0 with hub := { s0.hub with frozen := true } } : State).hub.frozen = true := by unfold Serving; decide
theorem witness_PowerAndBoot : State.reset.hub.on = false ∧ slotValid State.reset.hub State.reset.hub.slotA = false ∧ slotValid State.reset.hub State.reset.hub.slotB = false ∧ s0.hub.on = true ∧
    Serving s0 ∧ s0.serving = true ∧ ([] : List Byte).length ≤ 63 * 2 ^ 20 ∧ s0.hub.attest.length < 1024 ∧ (List.replicate 32 (0 : Byte)).length = 32 ∧
    ({ s0 with hub := { on := true, recovery := true } } : State).hub.recovery = true := by unfold Serving; decide
theorem witness_Servicing : Serving s0 ∧ s0.hub.attest.length < 1024 ∧ ([] : List Byte).length ≤ 63 * 2 ^ 20 ∧ slotValid { s0.hub with slotB := [] } [] = false ∧ s0.hub.runningSlot = 0 ∧
    stUpd.serving = true ∧ stUpd.hub.updating = true ∧ ¬stUpd.hub.updateAt + 1000000000 < stUpd.time.toNat ∧ stUpd.hub.held = [] ∧ stUpd.hub.attest.length < 1024 ∧
    stUpd.hub.updateAt + 1000000000 < ({ stUpd with time := 1000000001 } : State).time.toNat ∧ s0.hub.updating = false ∧ 255 < 256 ∧ (63 < 64 ∧ kfind s0.hub.lanesOut 0 = none) ∧
    (7 < 8 ∧ 31 < 32 ∧ (7, 31) ∉ s0.hub.channelsOut ∧ ({ s0 with asids := [] } : State).onChannel 7 31 = false) ∧ (3 < 4 ∧ 3 ∉ s0.hub.dieOff ∧ 3 ∉ s0.hub.dieGoing) ∧
    (let s : State := { s0 with asids := [], hub := { s0.hub with dieGoing := [3] } }
     s.bound = [] ∧ s.invals = [] ∧ 3 ∈ s.hub.dieGoing ∧ s.onDie 3 = false ∧ { s with hub := { s.hub with migrating := [(8, 0x1F, 0)] } }.onDie 3 = true) ∧
    3 ∈ ({ s0.hub with dieOff := [3] } : Hub).dieOff := by unfold Serving; decide +kernel

/-- A page that is being moved touches the channel that holds its first 64 bytes, whichever it is. -/
theorem witness_Servicing_channel : ∃ stack chan, stack < 8 ∧ chan < 32 ∧ ({ s0 with hub := { s0.hub with migrating := [(8, 0x1F, 0)] } } : State).onChannel stack chan = true := by
  refine ⟨Config.channelOf 0 % 64 / 32, Config.channelOf 0 % 32, by omega, by omega, ?_⟩
  simp only [State.onChannel, Bool.or_eq_true]
  refine .inr (List.any_eq_true.mpr ⟨(8, 0x1F, 0), by decide, List.any_eq_true.mpr ⟨0, List.mem_range.mpr (by decide), ?_⟩⟩)
  have h : keyOf (bits 0x1F 59 57) (bits 0x1F 51 8 * 256 + 64 * 0) = 0 := by decide
  simp only [h, homeDie]
  simp
  omega


/-! Steps and encodings. -/
def stRun (a : Agent) (s : State) : State := { s with agenda := [a], cur := {} }
def sWave : State := stRun (.wave 2048) s0
/-- What a step of wave 2048 fetches first: the fragment, its first word, the sequence that it begins, the result of its watch test. -/
def fetched (s : State) : Option (Frag × Option DWord × Option (Option FusedOps) × Bool) :=
  (kfind (ready s).waves 2048).bind fun w0 => (pickFrag (ready s) 2048 (w0.settle (ready s).cycle)).map fun p =>
    let at1 := p.1.setWave 2048 p.2.1
    let wk := at1.walker p.2.1
    match at1.firstWord wk p.2.2.pc.toNat with
    | (_, .error _) => (p.2.2, none, none, true)
    | (t, .ok (i0, _)) =>
      match fusedFrom t wk p.2.2.pc.toNat (at1.limits p.2.1) [i0] 3 with
      | (t2, fu) => (p.2.2, some i0, fu.toOption, (watchTest t2 p.2.1 p.2.2 .fetch false [(0, p.2.2.pc.toNat % 2 ^ 57)] 8).isNone)
theorem witness_StepRunsWave : turn sWave = .wave 2048 ∧ kfind (ready sWave).waves 2048 = some wave1 ∧ mayIssue (ready sWave) wave1 = true ∧
    fetched sWave = some (fr0, some 0, some none, true) ∧ (decodeThread {} 0 0).toOption = none := by decide +kernel
def frFar : Frag := { fr0 with pc := 0x0000010000000000 }
def sFar : State := stRun (.wave 2048) (st { wave1 with frags := [frFar] })
theorem witness_StepRunsWave_fault : turn sFar = .wave 2048 ∧ fetched sFar = some (frFar, none, none, true) := by decide +kernel
/-- The four words of a fused sequence at 0x10000, which the instruction cache holds, and a watch unit on the first. -/
def fused1 : FusedOps := { g := ⟨7, false⟩, rnd2 := .mode, d1 := .v 1, a1 := .v 0, d2 := .v 2, a2 := .v 0, d3 := .v 3, d4 := .v 4 }
def fusedLine : List Byte := ((encode (.fusedSoftmax fused1)).flatMap fun x => toBytes x.toNat 8) ++ List.replicate 96 0
def coreFused : Core := { tlbs := [(1, (0, 8))], icache := [(keyOf 0 0x10000 / 128, fusedLine)] }
def sFused : State := stRun (.wave 2048) { stTlb with cores := [(0, coreFused)] }
theorem witness_StepRunsWave_fused : FusedOps.ok {} fused1 = true ∧ ((fetched sFused).map fun x => (x.2.2.1, x.2.2.2)) = some (some (some fused1), true) := by decide +kernel
def sWatched : State := { sFused with cores := [(0, { coreFused with watch := [(0, { base := 0x10000, len := 8, ctl := 0x10011 })] })] }
theorem witness_StepRunsWave_watched : ((fetched sWatched).map fun x => (x.2.2.1, x.2.2.2)) = some (some (some fused1), false) := by decide +kernel
/-- The bundle of TSET x7, 5 at 0x30000. -/
def bundleMem : Memory := Memory.writes tablesFar
  ((toBytes ((encodeBundle 1 (.tset 7 (.imm 5))).getD 0) 32).zipIdx.map fun p => (keyOf 0 (0x30000 + p.2), p.1))
def sCtx : State := stRun (.ctx 0) { sTile with mem := bundleMem }
theorem witness_StepRunsBundle : turn sCtx = .ctx 0 ∧ (ready sCtx).hub.on = true ∧ (ready sCtx).hub.frozen = false ∧ ((ready sCtx).core 0).curCtx = 0 ∧ (ready sCtx).ctxAt 0 0 = some ctx1 ∧
    ctx1.cush = .none ∧ ctx1.skip = false ∧ ctx1.step = false ∧ inRotation (ready sCtx) 0 0 ctx1 = true ∧
    (let p := (ready sCtx).fetch ((ready sCtx).walkerOf ctx1.task 0) ctx1.pc.toNat 32
     p.2.toOption = encodeBundle 1 (.tset 7 (.imm 5)) ∧ (p.2.toOption.map fun v => ((decodeBundle v).toOption.map fun b => opsOf b)) = some (some [.tset 7 (.imm 5)])) := by
  decide +kernel
theorem witness_StepRunsBundle_runs : holds { sTile with cur := { actor := .tile 0 0, np := 1 } } [(0, 0, ctx1)] [.tset 7 (.imm 5)] = false ∧
    (firstFault { sTile with cur := { actor := .tile 0 0, np := 1 } } [(0, 0, ctx1)] [.tset 7 (.imm 5)]).2 = none ∧
    (after (runMember (0, 0, ctx1) [.tset 7 (.imm 5)] sTile) fun _ => true) = some true ∧ (decodeBundle 0).toOption = none := by decide +kernel
/-- A watch unit on the bundle, without and with ACT; a member that a first fault stops. -/
def sTileWatch (ctl : Word) : State := stTile { core1 ctx1 with watch := [(0, { base := 0x30000, len := 8, ctl })] }
theorem witness_StepRunsBundle_watched : ((bundleWatch (sTileWatch 0x10011) 0 ctx1).map fun e => e.detail / 16 % 2) = some 0 ∧
    ((bundleWatch (sTileWatch 0x10031) 0 ctx1).map fun e => e.detail / 16 % 2) = some 1 ∧ bundleWatch (sTileWatch 0x10001) 0 ctx1 = none := by decide +kernel
theorem witness_StepRunsBundle_faults : ((firstFault { sTile with cur := { actor := .tile 0 0, np := 1 } } [(0, 0, ctx1)] [.tclaim 3]).2.map fun p => p.2.kind) = some 0x40 ∧
    holds { sTile with cur := { actor := .tile 0 0, np := 1 } } [(0, 0, ctx1)] [.tclaim 3] = false := by decide +kernel
def sCp : State := stRun (.cp 0) { stCmd [lvl0] with mem := Memory.writes tables [(keyOf 0 0x8000, 1)] }
theorem witness_StepRunsRest : turn sCp = .cp 0 ∧ (ready sCp).hub.on = true ∧ (ready sCp).hub.frozen = false ∧ (ready sCp).hub.recovery = false ∧ mayServe (ready sCp) 0 = true ∧
    hasWork (ready sCp) 0 = true ∧ ((ready sCp).queue 0).st = 1 ∧
    (let t := { ready sCp with cpQueue := kinsert (ready sCp).cpQueue (cpOf 0) 0 }.fill 0
     canStart t 0 (t.queue 0) (nextPacket (t.queue 0)) = true ∧ nextPacket (t.queue 0) = .packet .packetNop) ∧ turn (stRun (.event .freezePin) s0) = .event .freezePin := by
  decide +kernel
theorem witness_StepsComplete : ∀ i, turn sWave ≠ .event i := by intro i h; cases h
theorem witness_StepKeepsForms : Claim.Inv s0 ∧ Claim.Inv (stRun (.event .freezePin) s0) ∧ ∃ t, step (stRun (.event .freezePin) s0) = .next t :=
  ⟨by unfold Claim.Inv Rising; decide, by unfold Claim.Inv Rising; decide, _, rfl⟩
theorem witness_EncodeThread : Instr.wf {} (.vand v1 (.v 1535) (.o 15) (.l 3)) = true ∧ (encode (.vand v1 (.v 1535) (.o 15) (.l 3))).length = 1 ∧
    Instr.wf {} (.bra 0x7FFFFFFF) = true ∧ (encode (.bra 0x7FFFFFFF)).length = 2 := by decide
theorem witness_EncodeTile : Instr.wf {} (.mma 15 15 15 (.const 64)) = true ∧ (encodeBundle 6 (.mma 15 15 15 (.const 64))).isSome = true ∧ (encodeBundle 1 .trgate).isSome = true := by decide
theorem witness_EncodePacket : Instr.wf {} (.dispatch pkt1) = true ∧ (encodePacket (.dispatch pkt1)).isSome = true ∧ Instr.wf {} (.waitmem test0) = true ∧
    (encodePacket (.waitmem test0)).isSome = true := by decide


/-! Further clauses. -/

/-- Infinities, zeros, a NaN and finite numbers; what rounding to an integer gives at a half and at a whole; the widest and the narrowest tile. -/
theorem witness_Conversions_values : (1 ≤ (envOf wave1 .mode).rm ∧ (envOf wave1 .mode).rm ≤ 5) ∧ (1 ≤ (envOf wave1 .rn).rm ∧ (envOf wave1 .rn).rm ≤ 5) ∧
    Ty.f32 ∈ [Ty.f32, .f16, .bf16, .pf16, .pbf16] ∧ Ty.pbf16 ∈ [Ty.f32, .f16, .bf16, .pf16, .pbf16] ∧ isInf fp32 0x7F800000 ∧ isInf fp32 0xFF800000 ∧
    isNeg fp32 0xFF800000 ∧ ¬isNeg fp32 0x7F800000 ∧ isNaN fp32 0x7FC00000 ∧ isNaN fp32 0xFF800001 ∧ ¬isQuiet fp32 0xFF800001 ∧ isFin fp32 0x80000000 ∧ isFin fp32 0x7F7FFFFF ∧
    Picked s0 wave1 fr0 v1.g 31 ∧ isIntTy .u4 ∧ ¬isIntTy .bf16 ∧ 0 < fElems .f32 ∧ 1 < fElems .pf16 := by unfold isIntTy Picked; decide
theorem witness_Conversions_ints : IntOf 1 (5 / 2) 2 ∧ IntOf 2 (-7 / 2) (-3) ∧ IntOf 3 (-7 / 2) (-3) ∧ IntOf 4 (7 / 2) 3 ∧ IntOf 5 (5 / 2) 3 ∧ IntOf 1 4 4 := by
  simp only [IntOf]; norm_num
theorem witness_ReduceTree : Issues (st { wave1 with lpart := 5 }) 2048 { wave1 with lpart := 5 } fr0 ∧ ({ wave1 with lpart := 5 } : Wave).lpart ≤ 5 ∧ wave1.lpart ≤ 5 := by unfold Issues; decide
/-- Values that R57 refuses, a %trapbase that is not canonical and one that is not a multiple of 8, and numbers at the ends of each range. -/
def waveBad : Wave := { wave1 with sreg := [(0, 0x81), (1, 0x80000100), (2, 4), (5, 0x01000000), (6, 1), (8, 6)] }
theorem witness_WriteSpecial : Issues (st waveBad) 2048 waveBad fr0 ∧
    (let v := rdS (st waveBad) waveBad 1 0
     1 ≤ v.toNat % 8 ∧ v.toNat % 8 ≤ 5 ∧ (7 ≤ 7 ∧ 7 < 32 ∧ v.getLsbD 7 = true ∧ ∀ j, 7 ≤ j → j < 7 → v.getLsbD j = false)) ∧
    (let v := rdS (st waveBad) waveBad 1 1
     v.toNat % 8 = 0 ∧ (8 ≤ 8 ∧ v.getLsbD 8 = true) ∧ v.getLsbD 31 = true) ∧
    (let v := rdS (st waveBad) waveBad 1 8
     5 < v.toNat % 8) ∧
    (let x := rdS2 (st waveBad) waveBad 1 4
     (x.setWidth 57).signExtend 64 ≠ x ∧ x.toNat % 8 = 0) ∧
    (let x := rdS2 (st waveBad) waveBad 1 2
     (x.setWidth 57).signExtend 64 = x ∧ x.toNat % 8 = 4) ∧
    (512 ∉ [524, 525, 526, 527, 528, 529] ∧ 523 ∉ [524, 525, 526, 527, 528, 529] ∧ 530 ∉ [524, 525, 526, 527, 528, 529] ∧ 531 ∉ [524, 525, 526, 527, 528, 529]) ∧
    (511 < 512 ∧ ¬511 = 528 ∧ 532 ≤ 767 ∧ 767 < 768 ∧ 768 ≤ 2047 ∧ 2047 < 2048) := by
  unfold Issues
  refine ⟨by decide, ⟨by decide, by decide, by decide, by decide, by decide, fun j h1 h2 => by omega⟩, by decide, by decide, by decide, by decide, by decide, by decide⟩
/-- The entries of a walk: pointers, a leaf, none; malformed entries of each sort; leaves whose frame is no storage. -/
theorem witness_Translation_entries : (s0.pte wk1 4 64 0x2000 0).1 = 0x4001 ∧ (s0.pte wk1 2 64 0x5000 0).1 = 0x1F ∧ (s0.pte wk1 2 (2 ^ 29) 0x5008 0).1 = 0 ∧
    s0.tlb = [] ∧ fld 0x4001 0 0 = 1 ∧ fld 0x4001 4 4 = 0 ∧ fld 0x1F 0 0 = 1 ∧ fld 0x1F 4 4 = 1 ∧ fld 0 0 0 = 0 := by decide +kernel
theorem witness_Translation_formed : ¬Malformed 4 0x4001 ∧ ¬Malformed 2 0x1F ∧ Malformed 2 0x3F ∧ Malformed 3 0x1F ∧ Malformed 0 0x4001 := by
  simp [Malformed, levelAt, fld]
theorem witness_Translation_malformed : Malformed 2 0x10001F ∧ Malformed 2 0x020000000000001F ∧ Malformed 2 0x010000000000001F ∧ Malformed 4 0x801 := by
  simp [Malformed, levelAt, fld]
theorem witness_Translation_frames : ¬FrameBad s0 0x1F ∧ FrameBad s0 0x800000001F ∧ FrameBad s0 0x0A0000000000001F ∧ FrameBad s0 0x800000000001F ∧ tlb1.level ≤ 2 ∧
    tlb1 ∈ stTlb.tlb ∧ ¬FrameBad stTlb tlb1.entry.toNat := by unfold FrameBad; dsimp only; decide +kernel
/-- One element for 32 lanes; a fragment with an open copy; a waiter of the same kind ahead; an address that is not a multiple of 16. -/
def waveMis : Wave := { wave1 with sreg := [(0, 8)] }
theorem witness_HardwareQueues_part : Issues (stQ 1) 2048 wave1 fr0 ∧ findQueue (stQ 1) wave1 (rdS (stQ 1) wave1 1 0).toNat = .ok (qOf 1) ∧ (qOf 1).occ = 1 ∧ min (qOf 1).occ 32 < 32 ∧
    (qOf 1).free = 31 ∧ fr0.quiet = true ∧ frKc.quiet = false ∧ Issues (st waveKc) 2048 waveKc frKc ∧ Issues (st waveMis) 2048 waveMis fr0 ∧ (rdS (st waveMis) waveMis 1 0).toNat % 16 ≠ 0 ∧
    (lanesOf (sel (st waveMis) waveMis fr0 v1.g)).head? = some 0 ∧
    (∃ p, (kget [] ({ stQ 1 with qwaits := [(scratchKey 0 0, [(9, 9, false)])] } : State).qwaits (scratchKey 0 0)).find? (fun p => p.2.2 == false) = some p ∧ p.1 ≠ 2048) := by
  refine ⟨by unfold Issues; decide, ok_of (by decide +kernel), by decide, by decide, by decide, by decide, by decide, by unfold Issues; decide, by unfold Issues; decide, by decide, by decide, ?_⟩
  exact ⟨(9, 9, false), by decide, by decide⟩
/-- The ring of queue 0 lies in main memory and no debugger is attached; a group's handle while an access is open. -/
theorem witness_EnqStatuses_ring : (st waveEnq).debugQs = [] ∧ ((st waveEnq).queue 0).ring % 64 = 0 ∧ ((st waveEnq).queue 0).ring + 64 * 2 ^ ((st waveEnq).queue 0).log ≤ 2 ^ 39 := by decide
theorem witness_CollectiveCalls_rel : Issues (stGrp frKc group1) 2048 { waveGrp with frags := [frKc] } frKc ∧ ¬(frKc.lc = 0 ∧ frKc.sc = 0 ∧ frKc.kc = 0) ∧
    (∀ g call, frKc.phase ≠ .called g call) ∧ (∀ sg, frKc.phase ≠ .signed sg) ∧ (stGrp frKc group1).named { waveGrp with frags := [frKc] } 5 = some (5, group1) := by
  refine ⟨by unfold Issues; decide, by decide, nofun, nofun, by decide +kernel⟩
/-- A fence that publishes, and a FENCE that names a copy, a load and a store of its fragment. -/
def waveFp : Wave := { waveFw with fences := [(0, { seq := 1, pending := true, pub := true })] }
theorem witness_Fences_publish : Issues (st waveFp) 2048 waveFp fr0 ∧ Running (st waveFp) ∧ waveFp.resident = true ∧ (kget {} waveFp.fences 0).pending = true ∧
    (kget {} waveFp.fences 0).open waveFp (st waveFp).copies = false ∧ (kget {} waveFp.fences 0).pub = true ∧ (∃ e ∈ waveLd.replay, e.frag = fr0.num) ∧ ∃ e ∈ waveSt.replay, e.frag = fr0.num := by
  unfold Issues Running; decide
/-- A member whose line is raised waits for another that is down, or is the last that rises. -/
def ctxUp : TileCtx := { ctx1 with cush := .raised, held := 0 }
def ctxDown : TileCtx := { ctx1 with cush := .decoupled, held := 0 }
def stCush (a b : TileCtx) : State := { stTile { ctxs := [(0, a), (1, b)] } with cushions := [(1, [0])] }
theorem witness_Cushions_rejoin : InBundle (stCush ctxDown ctxUp) 0 0 ctxDown ∧ (stCush ctxDown ctxUp).members 0 0 ctxDown = [(0, 0), (0, 1)] ∧ Rising ((stCush ctxDown ctxUp).core 0).ctxs ∧
    (stCush ctxDown ctxUp).ctxAt 0 1 = some ctxUp ∧ Idle (stCush ctxDown ctxUp) 0 0 [.mx, .tx, .cp, .ar, .aw] ∧ ctxDown.held = 0 ∧ InBundle (stCush ctxDown ctxDown) 0 0 ctxDown ∧
    ((stCush ctxDown ctxDown).ctxAt 0 1).map (·.cush) ≠ some .raised ∧ InBundle (stCush ctxUp ctxUp) 0 0 ctxUp ∧ ctxUp.cush = .raised := by unfold InBundle Idle Rising; decide
/-- A task to be killed that has a copy of its own on the way. -/
def taskKill : Task := { task1 with wantKill := true }
theorem witness_TasksEnd_copies : (∃ p ∈ ({ stTask wave1 taskKill with copies := [(5, copy1)] } : State).copies, p.2.task = 1 ∧ p.2.slotOf = none) ∧
    kfind ({ stTask wave1 taskKill with copies := [(5, copy1)] } : State).tasks 1 = some taskKill ∧ taskKill.wantKill = true ∧ taskKill.st ≠ .retired ∧ taskKill.st ≠ .killed ∧
    (∀ p ∈ (stTask waveEnd task1).copies, p.2.task ≠ 1) := by
  exact ⟨⟨(5, copy1), by decide, by decide⟩, by decide, by decide, by decide, by decide, by decide⟩


/-- A wave outside a task of a cell meets a spore in the first home die; its launch has one table entry, and each cluster one reserve slot. -/
def sporeMem : Memory := Memory.writes tablesSp [(32 * cellKey + 2, 0), (32 * cellKey + 3, 0)]
def stSpore (w : Nat) : State := { stCell 1 with mem := sporeMem, hub := { on := true, booted := true, reserves := [(0, (w, 64, 1)), (1, (w, 64, 1)), (2, (w, 64, 1)), (3, (w, 64, 1))] } }
def launchSp : Launch := { launch1 with hasStab := true, scnt := 1 }
theorem witness_CellTriggers : Issues (stSpore 1) 2048 waveCell fr0 ∧ (stSpore 1).tag cellKey = tSPORE ∧ (stSpore 1).growthOf cellKey = none ∧ kfind (stSpore 1).tasks waveCell.task = some task1 ∧
    kfind (stSpore 1).launches task1.launch = some launchSp ∧ task1.cell = none ∧ (launchSp.hasStab = true ∧ ofBytes (((stSpore 1).rdHs (32 * cellKey) 32).take 2) < launchSp.scnt) ∧
    (kget [] (stSpore 1).growth (baseDie cellKey)).length < 4096 ∧ (stSpore 1).debugQs = [] ∧ launch1.hasStab = false := by
  unfold Issues
  exact ⟨by decide +kernel, by decide +kernel, rfl, by decide, by decide, rfl, by decide +kernel, by decide, rfl, rfl⟩
theorem witness_CellTriggers_place : (∃ d ∈ placeClusters 0 (homeDie (32 * cellKey)) (clusterOf waveCell.core), (stSpore 1).reserveSlots d ≠ []) ∧
    ∀ d ∈ placeClusters 0 (homeDie (32 * cellKey)) (clusterOf waveCell.core), (stSpore 0).reserveSlots d = [] := by decide +kernel
theorem witness_CellTriggers_full : 4096 ≤ (List.replicate 4096 growth0).length := by decide +kernel
/-- The evaluator of the growing cell puts it, while fragment 0 of another wave waits. -/
def growth1 : Growth := { cell := cellKey, va := 224, rscope := .device, place := 0, launch := 1, wave := 0, cluster := 0, evaluator := some 1, waiters := [(2049, 0)] }
def stWake : State := { stCell 2 with growth := [(baseDie cellKey, [growth1])], waves := [(2048, waveCell), (2049, { wave1 with frags := [{ fr0 with st := .parked cellKey }] })] }
theorem witness_CellWakes : stWake.growthOf cellKey = some growth1 ∧ (∀ q ∈ stWake.waves, q.2.core < 256) ∧ (∀ v, kwf ((unlisted, 0) : Byte × Nat) (kget [] stWake.views v) = true) ∧
    stWake.debugQs = [] ∧ Issues stWake 2048 waveCell fr0 ∧ sel stWake waveCell fr0 g1 ≠ 0 ∧ stWake.tag cellKey = tGROWING ∧ growth1.evaluator = some waveCell.task ∧ (∀ p ∈ growth1.waiters, p.1 ≠ 2048) ∧
    (∃ u, kfind stWake.waves 2049 = some u ∧ (u.frag 0).isSome) ∧
    cellOk (fun y => y.key / 32 = cellKey)
      (acceptRec stWake waveCell fr0 (rdRecord stWake waveCell 2 8) (lanesOf (sel stWake waveCell fr0 g1)) (fun l => elemIndex (inA stWake waveCell (.v 0) l) none) 32
        .cell .cell true false (cellStages true)) = true := by
  unfold Issues
  exact ⟨growthOf_one stWake growth1 rfl, by decide, fun _ => rfl, rfl, by decide, by decide, by decide +kernel, rfl, by decide, ⟨_, rfl, rfl⟩, by
    rw [show cellStages true = cellStages true from rfl]; decide +kernel⟩
/-- A merge of one quantile sketch into another, and a reduction here, at another rank, and to a group that has gone. -/
def mergeReq (b : SumBuf) : AtomReq := .merge 2048 1 b 0x20000 .device 0 false {}
def redReq (h : Home) : AtomReq := .reduce (some (2048, 1)) h .add .i32 64 5 false {}
def waveAt : Wave := { wave1 with replay := [atEntry] }
def stHome (r : AtomReq) : State := { st waveAt with atomQ := [(0, [r])], groups := [(5, { group1 with gen := 3 })],
                                                     mem := Memory.writes tables [(0x20000, 1), (0x2001A, 128), (0x2001B, 127), (0x2001E, 128), (0x2001F, 255)] }
theorem witness_HomeRequests : Running (stHome (mergeReq qs0)) ∧ (stHome (mergeReq qs0)).debugQs = [] ∧ kfind (stHome (mergeReq qs0)).waves 2048 = some waveAt ∧
    (waveAt.replay.find? fun x => x.id = 1) = some atEntry ∧ atEntry.kind = .atomic 1 ∧ kget [] (stHome (mergeReq qs0)).atomQ 0 = [mergeReq qs0] ∧
    atomHeld (stHome (mergeReq qs0)) 2048 1 .global 0x20000 4096 = false :=
  ⟨⟨rfl, rfl⟩, rfl, rfl, rfl, rfl, rfl, by simp [atomHeld, heldBack, stHome, st, waveAt, atEntry, kfind]⟩
theorem witness_HomeRequests_sketch : ((Sketch.decode false ((stHome (mergeReq qs0)).rdHs 0x20000 4096)).map fun x => x.kind) = some sQS ∧ ((Sketch.decode false qs0.image).map fun x => x.kind) = some sQS ∧
    Sketch.decode false (SumBuf.image [(3, 1)]) = none := ⟨by decide +kernel, by decide +kernel, by decide +kernel⟩
theorem witness_HomeRequests_reduce : kget [] (stHome (redReq .here)).atomQ 0 = [redReq .here] ∧ atomHeld (stHome (redReq .here)) 2048 1 Home.here.space 64 4 = false ∧
    (stHome (redReq .here)).reaches .here = true ∧ Home.here.main = true ∧ (stHome (redReq (.rank 5 3 1))).reaches (.rank 5 3 1) = true ∧ (stHome (redReq (.rank 5 2 1))).reaches (.rank 5 2 1) = false := by
  decide +kernel
theorem witness_Combines : Combines .min .i32 5 0xFFFFFFFF 0xFFFFFFFF ∧ Combines .min .u32 5 0xFFFFFFFF 5 ∧ Combines .max .i32 5 0xFFFFFFFF 5 ∧ Combines .add .u32 5 0xFFFFFFFF 4 := by unfold Combines; decide
/-- A SUMLD without an address, and one of the sketch at 0x1000. -/
def sumEntry (a : Option Nat) : Entry := { ldEntry with kind := .sumLoad 0 a [] }
def waveSumE (a : Option Nat) : Wave := { wave1 with replay := [sumEntry a] }
theorem witness_SummaryReturns (a : Option Nat) : Running (st (waveSumE a)) ∧ kfind (st (waveSumE a)).waves 2048 = some (waveSumE a) ∧ (waveSumE a).resident = true ∧
    ((waveSumE a).replay.find? fun x => x.id = (sumEntry a).id && x.cells = []) = some (sumEntry a) ∧ ((waveSumE a).replay.find? fun x => x.id = (sumEntry a).id) = some (sumEntry a) ∧
    heldBack (st (waveSumE a)) 2048 (waveSumE a) (sumEntry a).frag (sumEntry a).id true (entryBytes (st (waveSumE a)) 2048 (sumEntry a)) = false :=
  ⟨⟨rfl, rfl⟩, rfl, rfl, rfl, rfl, by simp [heldBack, waveSumE, sumEntry, ldEntry]⟩


/-- Eight bytes of which memory lists none. -/
theorem rdHs_none (s : State) (k : Nat) (hc : s.client = []) (h : ∀ p ∈ s.mem, p.1 < k ∨ k + 8 ≤ p.1) : s.rdHs k 8 = List.replicate 8 0 := by
  have hn (m : Memory) (i : Nat) (hi : i < 8) (h : ∀ p ∈ m, p.1 < k ∨ k + 8 ≤ p.1) : kfind m (k + i) = none := by
    induction m with
    | nil => rfl
    | cons p r ih =>
      have := h p (.head _)
      rw [kfind, if_neg (by omega)]
      exact ih fun q hq => h q (.tail _ hq)
  refine List.ext_getElem (by simp [State.rdHs]) fun i hi _ => ?_
  have hi : i < 8 := by simpa [State.rdHs] using hi
  simp only [State.rdHs, State.rdH, hc, kget, kfind, List.getElem_map, List.getElem_replicate, List.getElem_range, hn s.mem i hi h]
  split <;> rfl
/-- A table of which only the first entry is not empty. -/
theorem leavesAt_first (s : State) (a n l b v : Nat) (hl : 0 < tableSize l / 8) (h : ∀ i, 0 < i → i < tableSize l / 8 → s.rdHs (keyOf 0 (b + 8 * i)) 8 = List.replicate 8 0) :
    s.leavesAt a 0 (n + 1) l b v =
      let e := ofBytes (s.rdHs (keyOf 0 (b + 8 * 0)) 8)
      if !bit e 0 || badEntry l e then []
      else if bit e 4 then [{ asid := a, key := keyOf 0 (b + 8 * 0), entry := e, level := l, va := v + 0 * 2 ^ (levelBits l).2 }]
      else s.leavesAt a 0 n (l - 1) (bits e 51 8 * 256) (v + 0 * 2 ^ (levelBits l).2) := by
  obtain ⟨m, hm⟩ : ∃ m, tableSize l / 8 = m + 1 := ⟨_, (Nat.succ_pred_eq_of_pos hl).symm⟩
  have hz : bit (ofBytes (List.replicate 8 (0 : Byte))) 0 = false := by decide
  rw [State.leavesAt, hm, List.range_succ_eq_map, List.flatMap_cons, List.flatMap_map]
  rw [List.flatMap_eq_nil_iff.mpr fun i hi => ?_, List.append_nil]
  simp only [h (i + 1) (Nat.succ_pos i) (by have := List.mem_range.mp hi; omega), hz, Bool.not_false, Bool.true_or, if_true, Nat.succ_eq_add_one]

/-- The tables' leaf without the write bit; a frame at 16 MiB. -/
def tablesRo : Memory := Memory.writes [] [(keyOf 0 0x2000, 0x01), (keyOf 0 0x2001, 0x40), (keyOf 0 0x4000, 0x01), (keyOf 0 0x4001, 0x50), (keyOf 0 0x5000, 0x1B)]
def frame1 : FrameLoc := { va := 0x1000000, pa := 0x1000000, gates := 0x200000 }
def leafRo : Mapping := { asid := 1, key := keyOf 0 0x5000, entry := 0x1B, level := 2, va := 0 }
def clear (m : Memory) (b n : Nat) : Bool := (List.range n).all fun i => i = 0 || m.all fun p => p.1 < keyOf 0 (b + 8 * i) || keyOf 0 (b + 8 * i) + 8 ≤ p.1
/-- The one leaf of tables that have an entry each. -/
def oneLeaf (e : Nat) : Mapping := { asid := 1, key := keyOf 0 0x5000, entry := e, level := 2, va := 0 }
theorem leaves_one (s : State) (m : Memory) (e : Nat) (hm : s.mem = m) (hc : s.client = []) (ha : kget {} s.asids 1 = { st := .bound, root := 0x2000 })
    (hz2 : clear m 0x2000 (tableSize 4 / 8) = true) (hz4 : clear m 0x4000 (tableSize 3 / 8) = true) (hz5 : clear m 0x5000 (tableSize 2 / 8) = true)
    (he : (ofBytes (({ mem := m } : State).rdHs (keyOf 0 0x2000) 8), ofBytes (({ mem := m } : State).rdHs (keyOf 0 0x4000) 8), ofBytes (({ mem := m } : State).rdHs (keyOf 0 0x5000) 8)) = (0x4001, 0x5001, e))
    (hl : (!bit e 0 || badEntry 2 e) = false) (h4 : bit e 4 = true) : s.leaves 1 = [oneLeaf e] := by
  have hz (b n : Nat) (h : clear m b n = true) (i : Nat) (h0 : 0 < i) (hi : i < n) : s.rdHs (keyOf 0 (b + 8 * i)) 8 = List.replicate 8 0 := by
    have := List.all_eq_true.mp h i (List.mem_range.mpr hi)
    simp only [Bool.or_eq_true, decide_eq_true_eq, List.all_eq_true] at this
    exact rdHs_none s _ hc fun p hp => (this.resolve_left (by omega)) p (hm ▸ hp)
  have hr (k : Nat) : s.rdHs k 8 = ({ mem := m } : State).rdHs k 8 := by simp only [State.rdHs, State.rdH, hm, hc]
  obtain ⟨e2, e4, e5⟩ : _ = 0x4001 ∧ _ = 0x5001 ∧ _ = e := by simpa only [Prod.mk.injEq] using he
  rw [← hr] at e2 e4 e5
  rw [leaves_bound s 1 _ ha rfl]
  rw [leavesAt_first s 1 4 4 0x2000 0 (by decide) (hz 0x2000 _ hz2)]
  simp only [Nat.mul_zero, Nat.add_zero, e2]
  rw [if_neg (by decide), if_neg (by decide)]
  rw [show bits 0x4001 51 8 * 256 = 0x4000 from by decide, leavesAt_first s 1 3 3 0x4000 _ (by decide) (hz 0x4000 _ hz4)]
  simp only [Nat.mul_zero, Nat.add_zero, e4]
  rw [if_neg (by decide), if_neg (by decide)]
  rw [show bits 0x5001 51 8 * 256 = 0x5000 from by decide, leavesAt_first s 1 2 2 0x5000 _ (by decide) (hz 0x5000 _ hz5)]
  simp only [Nat.mul_zero, Nat.add_zero, e5, hl, h4, Bool.false_eq_true, if_false, if_true]
  simp [oneLeaf]
theorem leaves_ro (s : State) (hm : s.mem = tablesRo) (hc : s.client = []) (ha : kget {} s.asids 1 = { st := .bound, root := 0x2000 }) : s.leaves 1 = [leafRo] :=
  leaves_one s tablesRo 0x1B hm hc ha (by decide +kernel) (by decide +kernel) (by decide +kernel) (by decide +kernel) (by decide) (by decide)
theorem frame_fits (s : State) (t n : Nat) (hl : s.leaves 1 = [leafRo]) (hb : s.bound = [1]) (hn : n ≤ frame1.gates)
    (ht : (s.tasks.all fun p => p.1 = t || !p.2.framed || FrameLoc.apart frame1 p.2.frame) = true) : s.frameFits t 1 n frame1 = true := by
  have h1 : s.frameMapped 1 frame1 = true := by
    simp only [State.frameMapped, hl]; decide +kernel
  have h2 : s.frameWritten 1 frame1 = false := by
    simp only [State.frameWritten, State.mapped, hb, hl, List.flatMap_cons, List.flatMap_nil, List.append_nil]; decide +kernel
  have h3 : decide (n ≤ frame1.gates) = true := decide_eq_true hn
  have h4 : FrameLoc.whole frame1 = true := by decide +kernel
  simp only [State.frameFits, h1, h2, h3, h4, ht]; decide
def stRo : State := { stPend with mem := tablesRo }
theorem witness_Placing_frame : let s := stRo.sliceOver.reread 2 task2 launch1
    s.frameFits 2 1 (frameBound task2) frame1 = true ∧ s.frameFits 2 1 (frame1.gates + 1) frame1 = false ∧
    (nextPlaced stRo.sliceOver (offers stRo.sliceOver)).map (·.1) = some 2 ∧ kfind s.tasks 2 = some task2 ∧ kfind s.launches 1 = some launch1 ∧ (placement s task2).isSome = true := by
  intro s
  refine ⟨frame_fits s 2 _ (leaves_ro s (by decide +kernel) (by decide +kernel) (by decide +kernel)) (by decide +kernel) (by decide +kernel) (by decide +kernel), ?_, by decide +kernel,
    by decide +kernel, by decide +kernel, by decide +kernel⟩
  simp only [State.frameFits, Nat.not_succ_le_self, decide_false, Bool.and_false, Bool.false_and]
def stReqRo : State := { stReq 1 with mem := tablesRo }
theorem witness_Placing_evaluator_frame : Running stReqRo ∧
    stReqRo.frameFits stReqRo.nextTask (((kfind stReqRo.launches req1.launch).map (·.asid)).getD 0) (frameBound { launch := req1.launch, gang := 0, desc := req1.desc }) frame1 = true ∧
    ((evalOrder stReqRo.evalReqs).find? fun r => (freeSlot stReqRo r.launch r.desc none r.place r.homeDie r.cluster).isSome) = some req1 ∧
    (freeSlot stReqRo req1.launch req1.desc none req1.place req1.homeDie req1.cluster).isSome = true := by
  refine ⟨⟨rfl, rfl⟩, ?_, by decide +kernel, by decide +kernel⟩
  rw [show ((kfind stReqRo.launches req1.launch).map (·.asid)).getD 0 = 1 from rfl]
  exact frame_fits _ _ _ (leaves_ro _ rfl rfl (by decide)) (by decide) (by decide +kernel) (by decide +kernel)

/-! Engines: a bank with an entry of each tag; an image in the window, of zeros but for the headroom byte of each record; a copy's elements. -/
def bank1 : Bank := { m := [(0, -5), (1, 7)], tags := [(2, 1), (3, 2), (4, 3)], e := [(0, 46)], live := 1 }
def opIn (e : Engine) (o : EngOp) : State := stTile ((({ core1 ctx1 with banks := [(1, bank1)] } : Core)).setEngq e [{ mmaOp 1 with op := o }])
theorem witness_EngineReads : (∀ p ∈ [(Engine.ar, EngOp.ardCe 1 3), (.ar, .ard 1 0 1), (.ar, .ard 1 64 2), (.ar, .ard 1 0 3), (.ar, .ard 1 30720 4), (.aw, .awr 1 0 0), (.aw, .awr 1 0 1), (.aw, .awr 1 0 2)],
      Running (opIn p.1 p.2) ∧ ((opIn p.1 p.2).core 0).engq p.1 = [{ mmaOp 1 with op := p.2 }] ∧ opWaits (opIn p.1 p.2) 0 { mmaOp 1 with op := p.2 } = false ∧ (opIn p.1 p.2).qwaits = []) ∧
    (1 ≤ (mmaOp 1).np ∧ (mmaOp 1).np ≤ 6) ∧ (bank1.tag 0 1 = 0 ∧ bank1.tag 0 2 = 1 ∧ bank1.tag 0 3 = 2 ∧ bank1.tag 0 4 = 3) ∧ bank1.live.getLsbD 0 = true ∧ bank1.live.getLsbD 63 = false ∧
    (∀ i, i < 64 → (0 : Byte).toNat ≤ ((opIn .aw (.awr 1 0 0)).rdScratch 0 (0 + (32768 + 32 * i + 2))).toNat) ∧ ∃ i, i < 64 ∧ ((opIn .aw (.awr 1 0 0)).rdScratch 0 (0 + (32768 + 32 * i + 2))).toNat = 0 := by
  unfold Running
  refine ⟨by decide +kernel, by decide, by decide, by decide, by decide, fun _ _ => Nat.zero_le _, 0, by decide, by decide +kernel⟩
theorem witness_EngineReads_tags : ∀ i j, i < 64 → j < 64 → bank1.tag i j ≤ 3 := by
  intro i j _ _
  have h : ∀ p ∈ bank1.tags, p.2 ≤ 3 := by decide
  unfold Bank.tag kget
  rcases hk : kfind bank1.tags (64 * i + j) with _ | x
  · exact Nat.zero_le 3
  · have hm (m : KMap Nat) (k x : Nat) (h : kfind m k = some x) : (k, x) ∈ m := by
      induction m with
      | nil => cases h
      | cons p r ih =>
        rw [kfind] at h
        split at h
        · rename_i he; cases h; exact he ▸ .head _
        · exact .tail _ (ih h)
    exact h _ (hm _ _ _ hk)
/-- A descriptor of one row of two FP16 elements, and one of eight-bit integers with scales. -/
def desc16 : CopyDesc := { base := 0x1000, fmt := 3, rows := 1, cols := 2 }
def desc8 : CopyDesc := { base := 0x1000, fmt := 0x200001, rows := 64, cols := 64, sbase := 0x2000 }
def copyIn : Copy := { core := 0, task := 1, wave := none, lanes := [], tileOp := true, frag := 0, ctxCore := 0, order := 1 }
def opCopy (o : EngOp) : State := { stTile (({ core1 ctx1 with cpq := [{ mmaOp 1 with copy := some 5, op := o }] } : Core)) with copies := [(5, copyIn)], nextCopy := 6 }
theorem witness_EngineCopies : (badFormat desc16.fmt = none ∧ badFormat desc8.fmt = none) ∧ (1 ≤ desc16.rows ∧ desc8.rows ≤ 64 ∧ 1 ≤ desc16.cols ∧ desc8.cols ≤ 64) ∧
    (∀ o ∈ [EngOp.cpx, .cpin 3 desc16 false [(64, 64)], .cpout 3 desc8 true [(64, 64)]],
      Running (opCopy o) ∧ ((opCopy o).core 0).engq .cp = [{ mmaOp 1 with copy := some 5, op := o }] ∧ opWaits (opCopy o) 0 { mmaOp 1 with copy := some 5, op := o } = false ∧
      kfind (opCopy o).copies 5 = some copyIn) ∧ copyIn.cb = none ∧ copyIn.wave = none := by unfold Running; decide +kernel
theorem witness_HoldsNumber : HoldsNumber 1 true (-3) 0xA001C000 ∧ HoldsNumber 1 false 0 0 := by
  refine ⟨⟨fun h => by norm_num at h, fun g Q h1 h2 hQ => ?_⟩, fun _ => rfl, fun g Q h1 _ _ => ?_⟩
  · have h1 : (2 : ℚ) ^ g ≤ 3 := by simpa using h1
    have h2 : (3 : ℚ) < (2 : ℚ) ^ (g + 1) := by simpa using h2
    have hg : g = 1 := by
      have a : g < 2 := by
        by_contra hc
        have := zpow_le_zpow_right₀ (by norm_num : (1 : ℚ) ≤ 2) (by omega : (2 : Int) ≤ g)
        norm_num at this; linarith
      have b : 1 < g + 1 := by
        by_contra hc
        have := zpow_le_zpow_right₀ (by norm_num : (1 : ℚ) ≤ 2) (by omega : g + 1 ≤ (1 : Int))
        norm_num at this; linarith
      omega
    subst hg
    have hQ : |(49152 : ℚ) - Q| ≤ 1 / 2 := by have := hQ.1; norm_num [abs_of_neg] at this; exact this
    have hq : Q = 49152 := by
      have := abs_le.mp hQ
      have l : (49151 : ℚ) < Q := by linarith [this.2]
      have u : (Q : ℚ) < 49153 := by linarith [this.1]
      have l : (49151 : Int) < Q := by exact_mod_cast l
      have u : Q < (49153 : Int) := by exact_mod_cast u
      omega
    subst hq
    decide
  · have := zpow_pos (by norm_num : (0 : ℚ) < 2) g
    simp at h1; linarith


/-! Launches that fit and do not. -/
theorem witness_Launching_fits : (stLaunch 0).fitsEver { launch1 with nblk := 1, gsz := 1 } = true ∧ (stLaunch 0).fitsEver { launch1 with desc := { desc with vregs := 4096 } } = false ∧
    (stCmd [lvl0]).fitsEver (bcastLaunch 0 (que [lvl0]) bcast1) = true := by decide +kernel
/-- A halted task on no core, of one wave, whose frame's header gives its wave records at 64 and asks for steps, as does the record. -/
def taskHalt : Task := { taskBack with halt := true, st := .saved, debug := some 0, frame := { va := 0x100000, pa := 0x100000, plc := 1 } }
def stHalt : State :=
  { stTask { wave1 with resident := false } taskHalt with mem := Memory.writes tables [(0x100004, 8), (0x100018, 64), (0x10004D, 4)] }
theorem witness_Debugging_steps : let num (n o : Nat) : Nat := ofBytes ((List.range n).map fun j => stHalt.rdH (FrameLoc.key taskHalt.frame (o + j)))
    kfind stHalt.tasks 1 = some taskHalt ∧ Serving stHalt ∧ taskHalt.halt = true ∧ taskHalt.st = .saved ∧ taskHalt.data.grants ≠ [] ∧ num 1 8 = 0 ∧ num 8 24 = 64 ∧ stHalt.debugQs = [] ∧
    (num 1 4).testBit 3 = true ∧ waveOffsets 64 (liveWaves stHalt 1) = [(2048, 64)] ∧ (num 1 (64 + 13)).testBit 2 = true := by unfold Serving; decide +kernel
theorem witness_Debugging_place : InPlace taskHalt.frame 128 ∧ ∀ k o, (k, o) ∈ waveOffsets 64 (liveWaves stHalt 1) → o + 14 ≤ 128 := by
  refine ⟨inPlace_pinned _ _ (by decide), fun k o h => ?_⟩
  have e : waveOffsets 64 (liveWaves stHalt 1) = [(2048, 64)] := by decide
  rw [e] at h; cases h with | head => decide | tail _ h => cases h
/-- A reduction of another device in a home's queue for storage of which an invalidation removed the mapping. -/
def old1 : OldLeaf := { asid := 7, va := 0, entry := 0x1F, size := 2 ^ 29 }
def stOld : State := { s0 with atomQ := [(0, [.reduce none .here .add .i32 64 1 false {}])], invals := [(4, { asid := 7, range := none, old := [old1] })] }
theorem witness_AddressSpaces_reduction : InvalOpen stOld { asid := 7, range := none, old := [old1] } :=
  .inr (.inr ⟨_, .head _, .here, .add, .i32, 64, 1, false, {}, .head _, old1, .head _, by decide⟩)
/-- Binding an empty table while nothing is mapped or waits to be. -/
theorem witness_AddressSpaces_binds : let s : State := { s0 with asids := [], mem := [], tasks := [] }
    let s1 : State := { s with asids := kinsert s.asids 1 { st := .bound, root := 0x2000, tplc := 0, proc := 1 } }
    mixes (mains s1.toCome.mapped) = false ∧ (∀ m, m ∈ s1.leaves 1 ∨ m ∈ s1.toCome.leaves 1 → s1.neverMaps m = false) ∧ s.spoilsFrame s1 = false := by
  intro s s1
  have hl : s1.leaves 1 = [] := (leaves_bound s1 1 { st := .bound, root := 0x2000, proc := 1 } (by decide) rfl).trans (leavesAt_empty s1 rfl rfl _ _ _ _ _ _)
  have hc : s1.toCome = s1 := rfl
  have hm : s1.mapped = [] := by
    have : s1.bound = [1] := by decide
    simp only [State.mapped, this, List.flatMap_cons, List.flatMap_nil, hl, List.append_nil]
  refine ⟨by rw [hc, hm]; decide, by rw [hc, hl]; nofun, ?_⟩
  have h0 : s1.liveFrames = [] := rfl
  simp only [State.spoilsFrame, h0, List.any_nil]
/-- A page that waits for invalidation 4 alone: it is refused, waits on, or is written. -/
theorem witness_AddressSpaces_remap : stMaps.hub.remaps = [{ waits := [4], key := 8, val := 0x1F }] ∧ stMaps.debugQs = [] ∧ (∀ i ∈ [4], i = 4) ∧ ¬(∀ i ∈ [4, 5], i = 4) := by decide
/-- A page that is put on die 0 while it is mapped interleaved; a page of window 2 that a live group's region holds. -/
def pteAway : PteWrite := { pa := 0x5000, tplc := 0, val := 0x080000000000001B }
def sRo : State := { s0 with mem := tablesRo, tasks := [] }
abbrev tAway : State := sRo.withPtes [PteWrite.at pteAway]
theorem bound_mapped (s : State) (m : Mapping) (hb : s.bound = [1]) (hl : s.leaves 1 = [m]) : s.mapped = [m] := by
  simp only [State.mapped, hb, List.flatMap_cons, List.flatMap_nil, hl, List.append_nil]
theorem witness_Windows_waits : Serving sRo ∧ sRo.debugQs = [] ∧ sRo.pendingPtes [PteWrite.at pteAway] ++ [PteWrite.at pteAway] = [PteWrite.at pteAway] ∧
    sRo.refusesMap tAway = false ∧ sRo.mustWait tAway = true := by
  have h0 : sRo.mapped = [leafRo] := bound_mapped _ _ (by decide) (leaves_ro sRo rfl rfl (by decide))
  have h1 : tAway.mapped = [oneLeaf 0x080000000000001B] := bound_mapped _ _ (by decide +kernel)
    (leaves_one tAway tAway.mem _ rfl (by decide +kernel) (by decide +kernel) (by decide +kernel) (by decide +kernel) (by decide +kernel) (by decide +kernel) (by decide) (by decide))
  have hf : tAway.liveFrames = [] := by
    have : tAway.tasks = [] := by decide +kernel
    simp only [State.liveFrames, this, List.filter_nil, List.map_nil]
  refine ⟨by unfold Serving; decide, rfl, by decide, ?_, ?_⟩
  · simp only [State.refusesMap, h0, h1, State.spoilsFrame, hf, List.any_nil, Bool.or_false]
    rw [show sRo.groups = [] from rfl, List.any_nil]
    decide +kernel
  · simp only [State.mustWait, h0, h1]; decide +kernel
/-- A window's page that a live group's region holds. -/
def tablesWin : Memory := Memory.writes [] ([(keyOf 0 0x2000, 0x01), (keyOf 0 0x2001, 0x40), (keyOf 0 0x4000, 0x01), (keyOf 0 0x4001, 0x50)] ++
  (toBytes (2 ^ 51 + 2 * 2 ^ 40 + 0x13) 8).zipIdx.map fun p => (keyOf 0 0x5000 + p.2, p.1))
def sWinPage : State := { stWin with mem := tablesWin, asids := [(1, { st := .bound, root := 0x2000 })] }
theorem witness_Windows_lived : Serving sWinPage ∧ (kget {} sWinPage.windows 2 : Window).active = true ∧ (kget {} sWinPage.windows 2 : Window).freeing = [] ∧ sWinPage.debugQs = [] ∧
    (∃ m, (m ∈ sWinPage.mapped ∨ m ∈ sWinPage.toCome.mapped) ∧ m.window = some 2) ∧
    ∃ g, g.live = true ∧ ∃ m ∈ sWinPage.regionOf g, m.2.testBit 51 = true ∧ m.2 / 2 ^ 40 % 2 ^ 11 = 2 := by
  have hl : sWinPage.leaves 1 = [oneLeaf (2 ^ 51 + 2 * 2 ^ 40 + 0x13)] :=
    leaves_one sWinPage _ _ rfl rfl (by decide) (by decide +kernel) (by decide +kernel) (by decide +kernel) (by decide +kernel) (by decide) (by decide)
  refine ⟨by unfold Serving; decide, by decide, by decide, by decide, ⟨_, .inl (by rw [bound_mapped _ _ (by decide) hl]; exact .head _), by decide⟩, { group1 with asid := 1 }, rfl, (0, 2 ^ 51 + 2 * 2 ^ 40 + 0x13), ?_, by decide, by decide⟩
  simp only [State.regionOf, hl]
  decide
/-- A context that has passed its bundle; one whose next bundle is not mapped. -/
def ctxSkip : TileCtx := { ctx1 with skip := true }
def sSkip : State := stRun (.ctx 0) { stTile (core1 ctxSkip) with mem := bundleMem }
theorem witness_StepRunsBundle_skips : turn sSkip = .ctx 0 ∧ (ready sSkip).ctxAt 0 0 = some ctxSkip ∧ inRotation (ready sSkip) 0 0 ctxSkip = true ∧
    ((teamOf (ready sSkip) 0 0 ctxSkip).filter fun m => !m.2.2.skip) = [] := by decide +kernel
def ctxFar : TileCtx := { ctx1 with pc := 0x0000010000000000 }
def sUnm : State := stRun (.ctx 0) (stTile (core1 ctxFar))
theorem witness_StepRunsBundle_unmapped : turn sUnm = .ctx 0 ∧ (ready sUnm).ctxAt 0 0 = some ctxFar ∧ inRotation (ready sUnm) 0 0 ctxFar = true ∧
    ((teamOf (ready sUnm) 0 0 ctxFar).filter fun m => !m.2.2.skip) ≠ [] ∧ ((ready sUnm).fetch ((ready sUnm).walkerOf ctxFar.task 0) ctxFar.pc.toNat 32).2.toOption = none := by decide +kernel
theorem witness_StepRunsBundle_decouples : ((decodeBundle ((encodeBundle 1 .decouple).getD 0)).toOption.map (·.kind)) = some .decouple := by decide +kernel


/-! ### Packets, byte by byte (R320 to R331) -/

theorem test_packet_dispatch : decodePacket ([2, 0, 0, 0, 9, 9, 9, 9] ++ [0x40, 0, 0, 0, 0, 0, 0, 0] ++ [8, 0, 0, 0, 4, 0b0101, 15, 0] ++ List.replicate 40 0) =
    .ok (.dispatch { pkt1 with nblk := 8, gsz := 4, det := true, idem := true, prio := 15 }) := by decide
theorem test_packet_bcast : decodePacket ([3, 0, 0, 0, 0, 0, 0, 0] ++ [0, 0, 1, 0, 0, 0, 0, 0] ++ [3, 16, 2, 0b100, 0, 0, 0, 0] ++ List.replicate 40 0) =
    .ok (.bcast { bpc := 0x10000, cw := 3, nbank := 16, prio := 2, det := false, idem := true, skew := 0 }) := by decide
theorem test_packet_ib : decodePacket ([4, 0, 0, 0, 0, 0, 0, 0] ++ [0x40, 0, 0, 0, 0, 0, 0, 0] ++ [0, 0, 16, 0] ++ List.replicate 44 0) = .ok (.ib 0x40 (2 ^ 20)) := by decide
theorem test_packet_pred : decodePacket ([5, 0, 0, 0, 0, 0, 0, 0] ++ [8, 0, 0, 0, 0, 0, 0, 0] ++ List.replicate 16 1 ++ [5, 1, 255] ++ List.replicate 29 0) =
    .ok (.pred { addr := 8, ref := 0x0101010101010101, mask := 0x0101010101010101, op := 5, wide := true } 255) := by decide
theorem test_packet_loop : decodePacket ([6, 0, 0, 0, 0, 0, 0, 0] ++ [0xFF, 0xFF, 0xFF, 0xFF, 15] ++ List.replicate 51 0) = .ok (.packetLoop 0xFFFFFFFF 15) := by decide
theorem test_packet_write : decodePacket ([7, 0, 0, 0, 0, 0, 0, 0] ++ [8, 0, 0, 0, 0, 0, 0, 0] ++ [1, 2, 0, 0, 0, 0, 0, 0, 4, 1] ++ List.replicate 38 0) =
    .ok (.write 8 0x201 .system true) := by decide
theorem test_packet_compl : decodePacket ([9, 0, 0, 0, 0, 0, 0, 0] ++ [8, 0, 0, 0, 0, 0, 0, 0] ++ [1, 2, 0, 0, 0, 0, 0, 0, 3] ++ List.replicate 39 0) = .ok (.compl 8 0x201 .device) := by decide
theorem test_packet_timed : decodePacket ([10, 0, 0, 0, 0, 0, 0, 0] ++ [7, 0, 0, 0, 0, 0, 0, 1] ++ List.replicate 48 0) = .ok (.timed 0x0100000000000007) := by decide
theorem test_packet_misaligned : decodePacket ([7, 0, 0, 0, 0, 0, 0, 0] ++ [4] ++ List.replicate 55 0) = .error 3 := by decide
theorem test_packet_scope : decodePacket ([7, 0, 0, 0, 0, 0, 0, 0] ++ List.replicate 16 0 ++ [5] ++ List.replicate 39 0) = .error 4 := by decide

/-! ### Single steps, with results that the spec states or that follow from its rules by hand -/

/-- A wave with the given vector registers, scalars and predicates. -/
def wv (v s p : KMap Word) : Wave := { wave1 with vreg := v, sreg := s, preds := p }
/-- Lane 0 of v2 after an instruction of a wave whose v0 and v1 hold `a` and `b` in lane 0. -/
def lane0 (i : Instr) (a b : Word) : Option Word := waveAfter (exec i (st (wv [(0, a), (32, b)] [] []))) fun w => w.vraw 2 0
/-- The same with the flags raised. -/
def lane0F (i : Instr) (a : Word) : Option (Word × Word) := waveAfter (exec i (st (wv [(0, a)] [] []))) fun w => (w.vraw 2 0, w.flagsAll)
/-- s8 after an instruction of a wave whose s0 and s1 hold `a` and `b`. -/
def sca0 (i : Instr) (a b : Word) : Option Word := waveAfter (exec i (st (wv [] [(0, a), (1, b)] []))) fun w => w.sraw 8

theorem test_viadd_wraps : lane0 (.viadd v1 .i32 false false (.v 2) (.v 0) (.v 1)) 0x80000000 0x80000001 = some 1 := by decide
theorem test_viadd_sat : lane0F (.viadd v1 .i8 true false (.v 2) (.v 0) (.v 0)) 0x7F = some (0x7F, 0x80) := by decide
theorem test_visub_packed : lane0 (.visub v1 .u8 false true (.v 2) (.v 0) (.v 1)) 0x00010203 0x01010104 = some 0xFF0001FF := by decide
theorem test_vimul_sat : lane0 (.vimul v1 .i16 true false (.v 2) (.v 0) (.v 1)) 0x7FFF 0xFFFF8000 = some 0xFFFF8000 := by decide
theorem test_vimulh : lane0 (.vimulh v1 .i32 (.v 2) (.v 0) (.v 1)) 0xFFFFFFFF 2 = some 0xFFFFFFFF := by decide
theorem test_vimax_unsigned : lane0 (.vimax v1 .u4 true (.v 2) (.v 0) (.v 1)) 0x0000000F 0x00000018 = some 0x0000001F := by decide
theorem test_vlea : lane0 (.vlea v1 7 (.v 2) (.v 0) (.v 1)) 1 0x02000001 = some 0x81 := by decide
theorem test_vshl_32 : lane0 (.vshl v1 (.v 2) (.v 0) (.v 1)) 1 0x120 = some 0 := by decide
theorem test_vsar_32 : lane0 (.vsar v1 (.v 2) (.v 0) (.v 1)) 0x80000000 32 = some 0xFFFFFFFF := by decide
theorem test_vrot_33 : lane0 (.vrot v1 (.v 2) (.v 0) (.v 1)) 0x80000001 33 = some 3 := by decide
/-- R80's worked example. -/
theorem test_vbfx : lane0 (.vbfx v1 .i32 (.v 2) (.v 0) (.v 1)) 0x0F00 0x0408 = some 0xFFFFFFFF := by decide
theorem test_vclz_zero : lane0 (.vclz v1 (.v 2) (.v 0)) 0 0 = some 32 := by decide
theorem test_vbrev : lane0 (.vbrev v1 (.v 2) (.v 0)) 1 0 = some 0x80000000 := by decide
theorem test_vfadd_cancels : lane0 (.vfadd v1 .rn .f32 (.v 2) (.v 0) (.v 1)) 0x3F800000 0xBF800000 = some 0 := by decide +kernel
theorem test_vfmin_zeros : lane0 (.vfmin v1 .mode .f32 (.v 2) (.v 0) (.v 1)) 0 0x80000000 = some 0x80000000 := by decide +kernel
/-- R91's table of examples. -/
theorem test_vcvt_rn : lane0F (.vcvt v1 .rn .i32 .f32 (.v 2) (.v 0)) 0x40600000 = some (4, 0x10) := by decide +kernel
theorem test_vcvt_rz : lane0F (.vcvt v1 .rz .i32 .f32 (.v 2) (.v 0)) 0x40600000 = some (3, 0x10) := by decide +kernel
theorem test_vcvt_half : lane0F (.vcvt v1 .rn .i32 .f32 (.v 2) (.v 0)) 0xC0200000 = some (0xFFFFFFFE, 0x10) := by decide +kernel
theorem test_vcvt_nan : lane0F (.vcvt v1 .rn .i32 .f32 (.v 2) (.v 0)) 0x7FC00000 = some (0, 0x01) := by decide +kernel
theorem test_vcvt_inf : lane0F (.vcvt v1 .rn .i32 .f32 (.v 2) (.v 0)) 0xFF800000 = some (0x80000000, 0x01) := by decide +kernel
theorem test_vcvt_u8 : lane0F (.vcvt v1 .rn .u8 .i32 (.v 2) (.v 0)) 0xFFFFFFFF = some (0, 0x80) := by decide +kernel
theorem test_vcvt_f16 : lane0 (.vcvt v1 .rn .f16 .i32 (.v 2) (.v 0)) 70000 0 = some 0x7C00 := by decide +kernel
theorem test_vsel : waveAfter (exec (.vsel v1 1 (.v 2) (.v 0) (.v 1)) (st (wv [(0, 5), (1, 5), (32, 6), (33, 6)] [] [(1, 2)]))) (fun w => (w.vraw 2 0, w.vraw 2 1)) =
    some (6, 5) := by decide
theorem test_vmovi_guarded : waveAfter (exec (.vmovi { v1 with g := ⟨1, true⟩ } .f32 (.v 2) 9) (st (wv [] [] [(1, 2)]))) (fun w => (w.vraw 2 0, w.vraw 2 1)) = some (9, 0) := by decide
theorem test_sadd_sat : sca0 (.sadd 4 .i32 true 8 0 1) 0x7FFFFFFF 1 = some 0x7FFFFFFF := by decide
theorem test_smulh : sca0 (.smulh 4 .u32 8 0 1) 0xFFFFFFFF 0xFFFFFFFF = some 0xFFFFFFFE := by decide
theorem test_ssar : sca0 (.ssar 4 8 0 1) 0x80000000 4 = some 0xF8000000 := by decide
theorem test_pbal : waveAfter (exec (.pbal v1 2 8) (st (wv [] [(8, 0x80000001)] []))) (fun w => kget 0 w.preds 2) = some 0x80000001 := by decide
theorem test_vbal_tiles : waveAfter (exec (.vbal v1 (.v 2) 1) (st { wv [] [] [(1, 0x80000001)] with lpart := 3 })) (fun w => (w.vraw 2 0, w.vraw 2 5, w.vraw 2 31)) =
    some (1, 0, 8) := by decide
theorem test_bra : waveAfter (exec (.bra 0xFFFFFFF8) s0) (fun w => w.frags.map (·.pc)) = some [0xFFF8] := by decide
theorem test_call : waveAfter (exec (.call 8 0x100) s0) (fun w => (w.sraw 8, w.sraw 9, w.frags.map (·.pc))) = some (0x10010, 0, [0x10100]) := by decide
theorem test_brx_splits : waveAfter (exec (.brx ⟨1, false⟩ 1 24) s0) (fun w => w.frags.map fun f => (f.mask, f.pc)) =
    some [(0xFFFFFFFE, 0x10010), (1, 0x10018)] := by decide
theorem test_exit_lane : waveAfter (exec (.exit ⟨1, false⟩) s0) (fun w => w.frags.map fun f => (f.mask, f.pc)) = some [(0xFFFFFFFE, 0x10008)] := by decide
theorem test_trap_enters : waveAfter (exec (.trap 3) s0) (fun w => (w.frags.map (·.pc), (w.sraw 496).toNat % 256, w.sraw 498, w.sraw 510)) =
    some ([0x20000], 0x70, 0x10000, 0x103) := by decide
theorem test_rft_next : waveAfter (exec .rftNext (st waveIn)) (fun w => (w.frags.map (·.pc), w.trapSave)) = some ([0x10008], none) := by decide
theorem test_stl_scratch : waveAfter (exec (.stl v1.g .i8 0 (.v 1) (.v 0) none) (st (wv (List.range 32 |>.map fun l => (l, BitVec.ofNat 32 l)) [] [])))
    (fun w => (w.replay.length, w.frags.map (·.sc))) = some (1, [1]) := by decide +kernel
theorem test_load_returns : waveAfter (exec (.loadSectorReturn 2048 0 2 []) { st waveLd with views := [(vSnap 0, [(64, 0x80, 0), (67, 0xFF, 0)])] }) (fun w => (w.vraw 3 0, w.replay.length)) =
    some (0xFF000080, 0) := by decide +kernel
theorem test_capture_scratch : after (exec (.capture (.store 2048 1)) (st waveSt)) (fun t => (t.rdScratch 0 1, t.rdH 65, t.readByte 0 [] .global 65 false)) = some (9, 0, 7) := by decide +kernel
theorem test_cbinit : after (exec (.cbinit 0 0 8) (stCb waveCb { v := true })) (fun t => ((t.cb 0 0).ssz, (t.cb 0 0).nsl, (t.cb 0 0).free)) = some (1, 255, 256) := by decide +kernel
theorem test_cbacq : after (exec (.cbacqFree 0 8) (stCb wave1 cbGood)) (fun t => ((t.cb 0 0).prd, (t.cb 0 0).wh, (kfind t.waves 2048).map (·.sraw 8))) = some (0, 2, some 192) := by decide +kernel
theorem test_copy_moves : after (exec (.capture (.copy 5 0)) { stCp copy1 with views := [(vSnap 0, [(66, 4, 0)])] }) (fun t => (t.rdScratch 0 17, t.rdScratch 0 18)) = some (0, 4) := by decide +kernel
theorem test_fence_token : waveAfter (exec (.fence true true false 8 .core) (st waveFw)) (fun w => w.sraw 8) = some 17 := by decide
theorem test_bara_last : waveAfter (exec (.bara 8 .blk .core) s0) (fun w => w.sraw 8) = some 0x80000000 := by decide +kernel
theorem test_qpush : after (exec (.qpush g1 none .core (.v 0) 0) (stQ 0)) (fun t => (scratchWord t 0 16, scratchWord t 0 4)) = some (7, 1) := by decide +kernel
theorem test_qpop : after (exec (.qpop v1.g (some 2) .core (.v 2) 0) (stQ 1)) (fun t => (scratchWord t 0 0, (kfind t.waves 2048).map fun w => kget 0 w.preds 2)) = some (1, some 1) := by decide +kernel
theorem test_tloop_next : waveAfter (exec (.tloopNext 8 3) (st waveCur)) (fun w => (w.sraw 8, w.sraw 9, w.cond)) = some (1, 0, 8) := by decide
theorem test_atomic_min : after (exec (.atomicPerform 0) stAtom) (fun t => (t.word 64, (kfind t.waves 2048).map fun w => w.vraw 3 31)) = some (0x80000000, some 0) := by decide +kernel
theorem test_enq_not_own : waveAfter (exec (.enq 8 1 8 0 0 1) (st waveEnq)) (fun w => w.sraw 8) = some 2 := by decide +kernel
theorem test_collBar_none : waveAfter (exec (.collBar v1.g 0 8 .system) sGrp) (fun w => (w.sraw 8, w.frags.map (·.pc))) = some (0, [0x10010]) := by decide +kernel
/-- What context 0 of core 0 becomes. -/
def ctxAfter {α : Type} (o : Out) (f : TileCtx → α) : Option α := (after o fun t => (t.ctxAt 0 0).map f).join
theorem test_tset_shift : ctxAfter (exec (.tset 7 (.sh 3)) { sTile with cur := { actor := .tile 0 0, xs := some [(7, 1)] } }) (fun c => kget 0 c.x 7) = some 0x4000003 := by decide
theorem test_tadd : ctxAfter (exec (.tadd 7 2 (.inr 0x1FFFFF)) sTile) (fun c => (kget 0 c.x 7, c.pc)) = some (4, 0x30020) := by decide
theorem test_tbr_back : ctxAfter (exec (.tbr .lt 4 0xFFFFFF) sTile) (·.pc) = some 0x2FFE0 := by decide
theorem test_tclaim_misuse : after (exec (.tclaim 3) sTile) (fun t => ((kfind t.waves 2048).map fun w => ((w.sraw 496).toNat % 256, (w.sraw 510).toNat))) =
    some (some (0x40, 1 + 256 * 3 + 2 ^ 13 * 3)) := by decide +kernel
theorem test_azero : after (exec (.engineOperation 0 .mx) (stTile { core1 ctx1 with mxq := [{ mmaOp 0 with op := .azero 0 }], banks := [(0, { hr := 3, live := 1 })] })) (fun t => (kget {} (t.core 0).banks 0 : Bank).hr) =
    some 16 := by decide +kernel
theorem test_trn : after (exec (.engineOperation 0 .tx) (stTile { core1 ctx1 with txq := [{ mmaOp 0 with op := .trn 2 3 }], slots := [(3, { elems := [(5, 9)] })] }))
    (fun t => ((kget {} (t.core 0).slots 2 : Slot).at 5 0, (kget {} (t.core 0).slots 2 : Slot).at 0 5)) = some (9, 0) := by decide +kernel
theorem test_trgate_held : after (exec .trgate sTile) (fun t => (kfind t.waves 2048).map fun w => w.sraw 510) = some (some 0x305) := by decide +kernel
theorem test_ib_depth : after (exec (.ib 0x40 1) (stCmd [lvlIb, lvlIb, lvlIb, lvl0])) (fun t => (t.queue 0).st) = some 2 := by decide +kernel
theorem test_write : after (exec (.write 0x100 0x0102030405060708 .device false) (stCmd [lvl0])) (fun t => (t.rdH (keyOf 0 0x100), t.rdH (keyOf 0 0x103), t.rdH (keyOf 0 0x104), (t.queue 0).rptr)) =
    some (8, 5, 0, 1) := by decide +kernel
theorem test_bind_retiring : after (exec (.bindAsid 1 7 0x4000) stSvc) (fun t => t.hub.status) = some 4 := by decide
theorem test_create_queue : after (exec (.createQueue 1 9 0x8000 4 0x9000 0 none) sReq) (fun t => ((t.queue 9).st, t.hub.status)) = some (1, 0) := by decide
theorem test_power_on_blank : after (exec .powerOn State.reset) (fun t => (t.hub.on, t.hub.recovery, t.hub.booted)) = some (true, true, false) := by decide +kernel
theorem test_freeze : after (exec .freezePin s0) (fun t => t.hub.frozen) = some true := by decide
/-- FIPS 202's digest of the three bytes "abc". -/
theorem test_sha3_abc : ofBytes ((sha3 [0x61, 0x62, 0x63]).reverse) = 0x3A985DA74FE225B2045C172D6BD390BD855F086E3E9D525B46BFE24511431532 := by decide +kernel
/-- R123, R58: no lane has the sum of both elements, so its inexactness raises no flag; the inclusive form raises it. -/
theorem test_vscan_flags : (let run (excl : Bool) := waveAfter (exec (.vscan { v1 with g := ⟨1, false⟩ } .f32 .add excl (.v 2) (.v 0))
      (st { wv [(0, 0x3F800000), (1, 0x30800000)] [] [(1, 3)] with lpart := 0 })) fun w => (w.vraw 2 1, w.flagsAll)
    (run true, run false)) = (some (0x3F800000, 0), some (0x3F800000, 0x10)) := by decide +kernel

end Sys2Proof.Tests
end

section
/-! PROOFS. The state after reset: its sparse maps list nothing, so every entry reads as the default of its kind. -/

namespace Sys2Proof.Machine

/-- A map that lists nothing reads as its default at every key. -/
@[simp] theorem kget_nil {α : Type} (d : α) (k : Nat) : kget d [] k = d := rfl

/-- No queue is set up at reset: each reads as the default descriptor. -/
@[simp] theorem State.reset_queue (q : Nat) : State.reset.queue q = {} := by
  rw [State.queue, State.reset, kget_nil]

/-- No process is registered at reset: each reads as the default one. -/
@[simp] theorem State.reset_proc (p : Nat) : State.reset.proc p = {} := by
  rw [State.proc, State.reset, kget_nil]

/-- Settles O20: the hub's bits, the time and the tables are the fields that reset gives; the queue and the process are read from empty
tables, by the two lemmas above. -/
theorem resetValues : Obligations.ResetValues := by
  unfold Obligations.ResetValues
  refine ⟨rfl, rfl, rfl, rfl, rfl, rfl, rfl, rfl, rfl, rfl, rfl, rfl, rfl, rfl, rfl, rfl, rfl, rfl, rfl, ?queueState, ?weight⟩
  case queueState => rw [State.reset_queue]
  case weight => rw [State.reset_proc]

end Sys2Proof.Machine
end

section
/-! PROOFS. Decoding and well-formed instructions: where they differ. -/

namespace Sys2Proof.Machine

/-- A wave of one vector register. -/
def oneVector : Limits := { nv := 1 }

/-- VCMPRS of v0 into v0 and v1, v1 being past what the wave has. -/
def pairPastLimit : Instr := .vcmprs ⟨6, ⟨7, false⟩⟩ .pf16 (.v 0) (.v 0) (some (.v 0))

/-- The word of `pairPastLimit` decodes: of a pair the decoder tests the first register alone. -/
theorem decode_pairPastLimit : decodeThread oneVector 1244805492316831920 0 = .ok pairPastLimit := by decide

/-- It is not well formed: its pair does not lie within the allocated registers. -/
theorem pairPastLimit_not_wf : pairPastLimit.wf oneVector = false := by decide

/-- Refutes O16: in a wave of one vector register the word of a VCMPRS whose second result is the pair v0, v1 decodes, since the decoder tests
only the first register of the pair (R95, log entry 22), and the instruction is not well formed. -/
theorem not_encodeThread : ¬ Obligations.EncodeThread := by
  intro h
  have wf : pairPastLimit.wf oneVector = true := (h oneVector pairPastLimit).2 _ _ decode_pairPastLimit
  exact absurd wf (by rw [pairPastLimit_not_wf]; decide)

end Sys2Proof.Machine
end

section
/-! PROOFS. A step that is refused: TRGATE in a cushion that names one core twice. -/

namespace Sys2Proof.Machine

/-- A lone TRGATE under profile 1, as the 32 bytes of its bundle. -/
def trgateBundle : List Byte := List.replicate 30 0 ++ [0x30, 0x01]

/-- A page entry of the smallest size for address 0: valid, a leaf, executable. -/
def codeLeaf : Tlb := { place := .l1 0 0, asid := 0, level := 0, vpn := 0, entry := 0x19 }

/-- A coupled context that stands at TRGATE. -/
def coupledCtx : TileCtx := { task := 0, blk := 0, part := 0, cush := .coupled }

/-- Core 0 with that context, its code in the instruction cache and a set of the L1 TLB for its launch. -/
def doubledCore : Core := { ctxs := [(0, coupledCtx)], icache := [(0, trgateBundle)], tlbs := [(0, 0, 1)] }

/-- A running machine in which the cushion of task 0 names core 0 twice, and core 0's sequencer acts next. -/
def doubledCushion : State :=
  { State.reset with
    agenda := [.ctx 0]
    cores := [(0, doubledCore)]
    tasks := [(0, { launch := 0, gang := 0, st := .resident, desc := {} })]
    asids := [(0, { st := .bound })]
    tlb := [codeLeaf]
    cushions := [(0, [0, 0])]
    hub := { on := true } }

/-- Whether a step answers a next state. -/
def completes : Out → Bool
  | .next _ => true
  | _ => false

/-- The core's sequencer acts next in this state. -/
theorem turn_doubledCushion : turn doubledCushion = .ctx 0 := by rfl

/-- The step runs TRGATE for both members of the cushion; the first frees the context, and the second, the same core, has none to issue for. -/
theorem step_doubledCushion_refused : completes (step doubledCushion) = false := by decide +kernel

/-- Refutes O13: in `doubledCushion`, a state whose cushion names core 0 twice, the sequencer's step is refused. -/
theorem not_stepsComplete : ¬ Obligations.StepsComplete := by
  intro h
  have agent : ∀ i, turn doubledCushion ≠ .event i := by
    rw [turn_doubledCushion]
    exact fun i => nofun
  obtain ⟨t, ht⟩ := h doubledCushion agent
  have refused := step_doubledCushion_refused
  rw [ht, completes] at refused
  exact absurd refused (by decide)

end Sys2Proof.Machine
end

section
/-! PROOFS. The words of the manual's own examples. -/

namespace Sys2Proof.Machine

/-- Settles O19: the decoder, run on each word. -/
theorem wordsDecode : Obligations.WordsDecode := by
  unfold Obligations.WordsDecode
  refine ⟨?gate, ?bra, ?nop, ?vand, ?unknownOpcode, ?bundle, ?zeroBundle, ?packetNop, ?ffence, ?noPacket, ?reservedBits⟩
  case gate => rfl
  case bra => rfl
  case nop => rfl
  case vand => rfl
  case unknownOpcode => rfl
  case bundle => rfl
  case zeroBundle => rfl
  case packetNop => rfl
  case ffence => rfl
  case noPacket => rfl
  case reservedBits => rfl

end Sys2Proof.Machine
end

section
/-! PROOFS. Predicates and guards (R19, R52, R106). -/

namespace Sys2Proof.Machine

open Sys2Proof.Claim

/-- Writing a predicate changes the predicates alone. -/
theorem wrP_eq (w : Wave) (p : Nat) (m : Word) (f : Nat → Bool) : w.wrP p m f = { w with preds := (w.wrP p m f).preds } := by
  unfold Wave.wrP
  split <;> rfl

/-- R19: the lanes of a guard's mask are those that the guard selects. -/
theorem getLsbD_sel_picked (s : State) (w : Wave) (fr : Frag) (g : Guard) (l : Nat) : (sel s w fr g).getLsbD l = true ↔ Picked s w fr g l :=
  getLsbD_sel s w fr g l

/-- R58: the flags that the lanes of a guard raise together. -/
theorem raises_lanes (s : State) (w : Wave) (fr : Frag) (g : Guard) (v : Nat → Word) (due : Nat) :
    Raises w (w.raise ((lanesOf (sel s w fr g)).foldl (fun a l => a ||| v l) 0) due) due (fun i => ∃ l, Picked s w fr g l ∧ (v l).getLsbD i = true) := by
  refine ⟨raise_flags w _ due, raise_flagPend w _ due, fun i => ?_⟩
  rw [raise_flagsAll, getLsbD_foldl_or]
  have picked : ∀ l, l ∈ lanesOf (sel s w fr g) ↔ Picked s w fr g l := fun l => by
    rw [mem_lanesOf, getLsbD_sel_picked]
    exact ⟨fun h => h.2, fun h => ⟨h.1, h⟩⟩
  simp [picked]

/-- Raised flags are told from the wave's flags and pending flags alone. -/
theorem raises_congr {w u u' : Wave} {due : Nat} {F : Nat → Prop} (h : Raises w u due F) (flags : u'.flags = u.flags)
    (pend : u'.flagPend = u.flagPend) : Raises w u' due F := by
  obtain ⟨h1, h2, h3⟩ := h
  have all : u'.flagsAll = u.flagsAll := by rw [Wave.flagsAll, Wave.flagsAll, flags, pend]
  exact ⟨flags.trans h1, fun p hp => h2 p (pend ▸ hp), fun i => by rw [all]; exact h3 i⟩

/-- R72, R74: what a lane-wise instruction with a predicate destination leaves. -/
theorem predOp_laneTests {s : State} {k : Nat} {w : Wave} {fr : Frag} (hi : Issues s k w fr) (h : Hdr) (p : Nat) (f : Wave → Nat → Bool × Word) :
    ∃ z, predOp s h 8 p f = .next z ∧ LaneTests s k w fr h p (fun l => (f w l).1) (fun l i => ((f w l).2).getLsbD i = true) z := by
  obtain ⟨actor, wave, frag⟩ := hi
  refine ⟨_, onFrag_next actor wave frag _, _, ⟨advance_eq _ _ _ _ _, fun _ => rfl⟩, fun l hp hl => ?written, fun q l hl hq => ?kept, ?flags, ?rest⟩
  case written =>
    have hm := (getLsbD_sel_picked s w fr h.g l).2 hl
    simp only [Wave.raise_preds]
    exact (preds_wrP w p _ _ p l hl.1).trans (if_pos ⟨rfl, hp, hm⟩)
  case kept =>
    have hm := getLsbD_sel_picked s w fr h.g l
    simp only [Wave.raise_preds]
    exact (preds_wrP w p _ _ q l hl).trans (if_neg fun ⟨e, lt, sel⟩ => hq ⟨e, lt, hm.1 sel⟩)
  case flags =>
    refine raises_congr (raises_lanes s w fr h.g (fun l => (f w l).2) (s.cycle + h.lat)) ?_ ?_
    · simp
    · simp only [raise_eq, Wave.mark_flagPend, Wave.wrP_flagPend]
  case rest => rw [raise_eq, wrP_eq]; rfl

/-- Such an instruction that raises no flag. -/
theorem predOp_laneTests_quiet {s : State} {k : Nat} {w : Wave} {fr : Frag} (hi : Issues s k w fr) (h : Hdr) (p : Nat) (f : Wave → Nat → Bool) :
    ∃ z, predOp s h 8 p (fun w l => (f w l, 0)) = .next z ∧ LaneTests s k w fr h p (f w) quiet z := by
  simpa using predOp_laneTests hi h p fun w l => (f w l, 0)

/-- R106: each predicate instruction is a lane-wise test without flags. -/
theorem predicateLogic : Claim.PredicateLogic := fun _ _ _ _ hi h d _ _ =>
  ⟨predOp_laneTests_quiet hi h d _, predOp_laneTests_quiet hi h d _, predOp_laneTests_quiet hi h d _, predOp_laneTests_quiet hi h d _,
    predOp_laneTests_quiet hi h d _, predOp_laneTests_quiet hi h d _⟩

/-- R52: p7 reads 1 in every lane. -/
@[simp] theorem rdP_seven (s : State) (w : Wave) (slot l : Nat) : rdP s w slot 7 l = true := rfl

/-- R19, R52: the lanes that a guard selects, by its predicate and by p7. -/
theorem guardSelects : Claim.GuardSelects := by
  intro s w fr g l
  refine ⟨getLsbD_sel_picked s w fr g l, fun hp => ?_⟩
  rw [getLsbD_sel_picked, Picked, hp, rdP_seven]
  cases g.neg <;> simp

/-- Settles O28: the six instructions are one lane-wise test each, and a guard's mask holds the lanes that it selects. -/
theorem predicatesAndGuards : Obligations.PredicatesAndGuards := ⟨predicateLogic, guardSelects⟩

end Sys2Proof.Machine
end

section
/-! PROOFS. Special registers (R54, R57, R124, R125). -/

namespace Sys2Proof.Machine

open Sys2Proof.Claim

theorem bit_eq_testBit (x n : Nat) : bit x n = x.testBit n := by
  rw [bit, Nat.testBit_eq_decide_div_mod_eq, Nat.shiftRight_eq_div_pow]
  rfl

theorem lowestBit_eq_some {x n i : Nat} : lowestBit x n = some i ↔ i < n ∧ x.testBit i = true ∧ ∀ j < i, x.testBit j = false := by
  simp only [lowestBit, List.find?_range_eq_some, bit_eq_testBit, List.mem_range, Bool.not_eq_true']
  tauto

theorem lowestBit_eq_none {x n : Nat} : lowestBit x n = none ↔ ∀ i < n, x.testBit i = false := by
  simp [lowestBit, bit_eq_testBit]

/-- R246: the canonical form of an address is the sign extension of its low 57 bits. -/
theorem canon_toNat (x : DWord) : canon x.toNat = (x.setWidth 57).signExtend 64 := by
  apply BitVec.eq_of_toNat_eq
  have lt : x.toNat % 2 ^ 57 < 2 ^ 57 := Nat.mod_lt _ (Nat.two_pow_pos _)
  rw [BitVec.toNat_signExtend, BitVec.msb_eq_decide, canon, bit_eq_testBit, Nat.testBit_eq_decide_div_mod_eq, BitVec.toNat_ofNat,
    BitVec.toNat_setWidth_of_le (by decide), BitVec.toNat_setWidth]
  generalize x.toNat % 2 ^ 57 = y at lt ⊢
  by_cases h : 2 ^ 56 ≤ y
  · have high : y / 2 ^ 56 % 2 = 1 := by omega
    simp only [high, h, decide_true, if_true]
    omega
  · have low : y / 2 ^ 56 % 2 ≠ 1 := by omega
    simp only [low, h, decide_false, Bool.false_eq_true, if_false]
    omega

/-! ### Reads -/

/-- Going on writes the wave's record alone. -/
theorem onlyWave_advance (s : State) (k : Nat) (w : Wave) (fr : Frag) (n : Nat) :
    OnlyWave s k { w with frags := at_ w fr (pcAdd fr.pc n) } (advance s k w fr n) :=
  ⟨advance_eq s k w fr n, fun _ => rfl⟩

/-- A wave whose flags are as they were raises none. -/
theorem raises_none {w u : Wave} (due : Nat) {F : Nat → Prop} (flags : u.flags = w.flags) (pend : u.flagPend = w.flagPend) (none : ∀ i, ¬F i) :
    Raises w u due F := by
  refine ⟨flags, fun p hp => .inl (pend ▸ hp), fun i => ?_⟩
  rw [Wave.flagsAll, flags, pend]
  simp [Wave.flagsAll, none i]

/-- R19: the guard p7 selects every live lane. -/
theorem sel_always (s : State) (w : Wave) (fr : Frag) : sel s w fr { p := 7, neg := false } = fr.mask := by
  apply BitVec.eq_of_getLsbD_eq
  intro l hl
  rw [Bool.eq_iff_iff, getLsbD_sel]
  exact ⟨fun h => h.2.1, fun h => ⟨hl, h, by simp [rdP]⟩⟩

/-- R124: SRD of a register other than %flags leaves the flags as they are. -/
theorem execSrd_next {s : State} {k : Nat} {w : Wave} {fr : Frag} (hi : Issues s k w fr) (lat : Nat) (f : SrdForm) (dv : VOp) (ds : Nat) {a : Nat}
    (ha : a ≠ 525) :
    exec (.srd lat f dv ds a) s = .next (match f with
      | .scalar => advance s k ((w.wrS ds (special s w fr a 0)).mark (.sca ds) 1 (s.cycle + lat)) fr 8
      | .pair => advance s k ((((w.wrS ds (special s w fr a 0)).wrS (ds + 1) (special s w fr (a + 1) 0)).mark (.sca ds) 1 (s.cycle + lat)).mark
          (.sca (ds + 1)) 1 (s.cycle + lat)) fr 8
      | .vector => advance s k ((w.wrV dv fr.mask fun l => special s w fr a l).mark (.vec (VOp.field dv)) fr.mask (s.cycle + lat)) fr 8) := by
  obtain ⟨actor, wave, frag⟩ := hi
  refine (onFrag_next actor wave frag _).trans ?_
  cases f <;> simp only [ha, if_false]

/-! ### Flags that land as they are read (R58) -/

/-- Whether a pending flag lands with a read: its bound has passed, or the model lets it. -/
def landsBy (cycle ctr : Nat) (p : (Word × Nat) × Nat) : Bool := p.1.2 < cycle || Config.freeBool ctr (2000 + p.2)

theorem landFlags_flags (w : Wave) (cycle ctr i : Nat) :
    (w.landFlags cycle ctr).flags.getLsbD i = true ↔
      w.flags.getLsbD i = true ∨ ∃ p ∈ w.flagPend.zipIdx, landsBy cycle ctr p = true ∧ p.1.1.getLsbD i = true := by
  have h : (w.landFlags cycle ctr).flags = (w.flagPend.zipIdx.filter (landsBy cycle ctr)).foldl (fun f p => f ||| p.1.1) w.flags :=
    List.foldl_filter.symm
  rw [h, getLsbD_foldl_or]
  simp only [List.mem_filter, and_assoc]

theorem landFlags_flagPend (w : Wave) (cycle ctr : Nat) :
    (w.landFlags cycle ctr).flagPend = (w.flagPend.zipIdx.filter fun p => !landsBy cycle ctr p).map (·.1) := rfl

theorem flagsAll_getLsbD (w : Wave) (i : Nat) :
    w.flagsAll.getLsbD i = true ↔ w.flags.getLsbD i = true ∨ ∃ p ∈ w.flagPend, p.1.getLsbD i = true :=
  getLsbD_foldl_or _ _ _ _

/-- An element of a list is one of the list with its places. -/
theorem exists_mem_zipIdx {α : Type} (l : List α) (P : α → Prop) : (∃ p ∈ l.zipIdx, P p.1) ↔ ∃ x ∈ l, P x := by
  conv_rhs => rw [← List.zipIdx_map_fst 0 l]
  simp only [List.mem_map, exists_exists_and_eq_and]

/-- Landing loses no flag. -/
theorem flagsAll_landFlags (w : Wave) (cycle ctr : Nat) : (w.landFlags cycle ctr).flagsAll = w.flagsAll := by
  apply BitVec.eq_of_getLsbD_eq
  intro i _
  rw [Bool.eq_iff_iff, flagsAll_getLsbD, flagsAll_getLsbD, landFlags_flags, landFlags_flagPend, ← exists_mem_zipIdx w.flagPend]
  simp only [List.mem_map, List.mem_filter, exists_exists_and_eq_and, or_assoc, ← exists_or, Bool.not_eq_true']
  refine or_congr_right (exists_congr fun p => ?_)
  cases landsBy cycle ctr p <;> simp

/-- A flag whose bound has passed has landed. -/
theorem flagsPast_landFlags (w : Wave) (cycle ctr i : Nat) (h : (w.flagsPast cycle).getLsbD i = true) :
    (w.landFlags cycle ctr).flags.getLsbD i = true := by
  have past : w.flagsPast cycle = (w.flagPend.filter fun p => decide (p.2 < cycle)).foldl (fun f p => f ||| p.1) w.flags := by
    rw [List.foldl_filter]
    simp [Wave.flagsPast]
  rw [past, getLsbD_foldl_or] at h
  rw [landFlags_flags]
  refine h.imp_right fun ⟨x, hx, hi⟩ => ?_
  obtain ⟨hx, due⟩ := List.mem_filter.1 hx
  obtain ⟨p, hp, due, hi⟩ := (exists_mem_zipIdx w.flagPend fun x => decide (x.2 < cycle) = true ∧ x.1.getLsbD i = true).2 ⟨x, hx, due, hi⟩
  exact ⟨p, hp, by rw [landsBy, due, Bool.true_or], hi⟩

/-- What stays pending was pending, and its bound has not passed. -/
theorem landFlags_flagPend_sublist (w : Wave) (cycle ctr : Nat) : (w.landFlags cycle ctr).flagPend.Sublist w.flagPend := by
  have h := (List.filter_sublist (p := fun p => !landsBy cycle ctr p) (l := w.flagPend.zipIdx)).map (·.1)
  rwa [List.zipIdx_map_fst] at h

theorem landFlags_flagPend_due (w : Wave) (cycle ctr : Nat) : ∀ p ∈ (w.landFlags cycle ctr).flagPend, cycle ≤ p.2 := by
  intro p hp
  obtain ⟨x, hx, rfl⟩ := List.mem_map.1 hp
  have := (List.mem_filter.1 hx).2
  simp only [Bool.not_eq_true', Bool.or_eq_false_iff, decide_eq_false_iff_not] at this
  omega

/-- The high and the low half of a 64-bit register, as two special registers hold them. -/
theorem halves_append (x : DWord) : (BitVec.ofNat 32 (x.toNat >>> 32) ++ x.setWidth 32 : BitVec 64) = x := by
  apply BitVec.eq_of_toNat_eq
  simp only [BitVec.toNat_append, BitVec.toNat_ofNat, BitVec.toNat_setWidth]
  have := x.isLt
  rw [← Nat.shiftLeft_add_eq_or_of_lt (Nat.mod_lt _ (Nat.two_pow_pos _)), Nat.shiftLeft_eq, Nat.shiftRight_eq_div_pow]
  omega

/-- What a wave leaves that writes one scalar and goes on. -/
theorem scalarWrites_advance (s : State) (k : Nat) (w : Wave) (fr : Frag) (lat len d : Nat) (v : Word) :
    ScalarWrites s k w fr lat len d v (fun _ => False) (advance s k ((w.wrS d v).mark (.sca d) 1 (s.cycle + lat)) fr len) :=
  ⟨_, onlyWave_advance _ _ _ _ _, sraw_wrS w d v, raises_none _ rfl rfl (fun _ => id), rfl⟩

/-- What a wave leaves that writes every live lane of a vector register and goes on. -/
theorem laneWrites_advance (s : State) (k : Nat) (w : Wave) (fr : Frag) (lat len : Nat) (d : VOp) (v : Nat → Word) :
    LaneWrites s k w fr { lat, g := { p := 7, neg := false } } len d (fun l x => x = v l) quiet
      (advance s k ((w.wrV d fr.mask v).mark (.vec (VOp.field d)) fr.mask (s.cycle + lat)) fr len) := by
  have live : ∀ l, Picked s w fr { p := 7, neg := false } l ↔ l < 32 ∧ fr.mask.getLsbD l = true := fun l => by simp [Picked, rdP]
  refine ⟨_, onlyWave_advance _ _ _ _ _, fun l hl => ?_, fun f l hl hn => ?_, ?_, ?_⟩
  · exact (vraw_wrV w d fr.mask v _ l hl.1).trans (if_pos ⟨rfl, ((live l).1 hl).2⟩)
  · exact (vraw_wrV w d fr.mask v f l hl).trans (if_neg fun h => hn ⟨h.1, (live l).2 ⟨hl, h.2⟩⟩)
  · exact raises_none _ rfl rfl fun _ ⟨_, _, h⟩ => h
  · rw [sel_always]; rfl

/-- What a wave leaves that writes two scalars and goes on. -/
theorem pairWrites_advance (s : State) (k : Nat) (w : Wave) (fr : Frag) (due len d : Nat) (v v' : Word) :
    ∃ w', OnlyWave s k w' (advance s k ((((w.wrS d v).wrS (d + 1) v').mark (.sca d) 1 due).mark (.sca (d + 1)) 1 due) fr len) ∧
      (∀ n, w'.sraw n = if n = d + 1 then v' else if n = d then v else w.sraw n) ∧
      w' = { w with
        sreg := w'.sreg
        inflight := w.inflight ++ [{ reg := .sca d, lanes := 1, due }, { reg := .sca (d + 1), lanes := 1, due }]
        frags := at_ w fr (pcAdd fr.pc len) } := by
  refine ⟨_, onlyWave_advance _ _ _ _ _, fun n => ?_, ?_⟩
  · rw [← sraw_wrS, ← sraw_wrS (w.wrS d v)]; rfl
  · simp only [Wave.mark, Wave.wrS, List.append_assoc]; rfl

/-- R54, R124: the forms of SRD, its read of %flags, and the registers that hold the wave's own state. -/
theorem readSpecial : Claim.ReadSpecial := by
  intro s k w fr hi lat dv ds a
  refine ⟨fun ha => ⟨_, execSrd_next hi lat .scalar dv ds ha, scalarWrites_advance ..⟩, fun ha => ?pair,
    fun ha => ⟨_, execSrd_next hi lat .vector dv ds ha, laneWrites_advance ..⟩, ?flags, rfl, fun l hl => ?lane, rfl, rfl, rfl, rfl, rfl, rfl, rfl,
    halves_append _, halves_append _⟩
  case pair =>
    obtain ⟨w', only, regs, rest⟩ := pairWrites_advance s k w fr (s.cycle + lat) 8 ds (special s w fr a 0) (special s w fr (a + 1) 0)
    exact ⟨_, w', execSrd_next hi lat .pair dv ds ha, only, regs, rest⟩
  case flags =>
    obtain ⟨actor, wave, frag⟩ := hi
    exact ⟨_, _, onFrag_next actor wave frag _, onlyWave_advance _ _ _ _ _, sraw_wrS _ ds _, flagsAll_landFlags w _ _, flagsPast_landFlags w _ _,
      landFlags_flagPend_sublist w _ _, landFlags_flagPend_due w _ _, rfl⟩
  case lane => exact Nat.mod_eq_of_lt (by omega)

/-! ### Writes and their refusals (R57) -/

/-- R57: a mode that names a rounding mode and has no other bit from 7 on is taken. -/
theorem modeRefusal_eq_none {v : Word} (least : 1 ≤ v.toNat % 8) (most : v.toNat % 8 ≤ 5) (lt : v.toNat < 128) : modeRefusal v = none := by
  have rm : modeRM v = v.toNat % 8 := by simp [modeRM, bits]
  have high : v.toNat >>> 7 = 0 := by rw [Nat.shiftRight_eq_div_pow]; omega
  rw [modeRefusal, rm, if_neg (by simp; omega), high]
  decide

theorem modeRefusal_eq_zero {v : Word} (rm : v.toNat % 8 = 0 ∨ 5 < v.toNat % 8) : modeRefusal v = some 0 := by
  have h : modeRM v = v.toNat % 8 := by simp [modeRM, bits]
  rw [modeRefusal, h, if_pos (by simpa using rm)]

/-- The lowest bit from `z` on, counted from 0. -/
theorem lowestBit_shiftRight {v : Word} {z i : Nat} (hz : z ≤ i) (hi : i < 32) (set : v.getLsbD i = true)
    (lowest : ∀ j, z ≤ j → j < i → v.getLsbD j = false) : (lowestBit (v.toNat >>> z) (32 - z)).map (· + z) = some i := by
  have h : lowestBit (v.toNat >>> z) (32 - z) = some (i - z) := by
    refine lowestBit_eq_some.2 ⟨by omega, ?_, fun j hj => ?_⟩
    · rw [Nat.testBit_shiftRight, Nat.add_sub_cancel' hz]; exact set
    · rw [Nat.testBit_shiftRight]; exact lowest _ (by omega) (by omega)
  rw [h, Option.map_some, Nat.sub_add_cancel hz]

theorem modeRefusal_eq_some {v : Word} {i : Nat} (least : 1 ≤ v.toNat % 8) (most : v.toNat % 8 ≤ 5) (hz : 7 ≤ i) (hi : i < 32)
    (set : v.getLsbD i = true) (lowest : ∀ j, 7 ≤ j → j < i → v.getLsbD j = false) : modeRefusal v = some i := by
  have rm : modeRM v = v.toNat % 8 := by simp [modeRM, bits]
  rw [modeRefusal, rm, if_neg (by simp; omega)]
  exact lowestBit_shiftRight hz hi set lowest

theorem flagRefusal_eq_none {v : Word} (lt : v.toNat < 256) : flagRefusal v = none := by
  have high : v.toNat >>> 8 = 0 := by rw [Nat.shiftRight_eq_div_pow]; omega
  rw [flagRefusal, high]
  decide

theorem flagRefusal_eq_some {v : Word} {i : Nat} (hz : 8 ≤ i) (hi : i < 32) (set : v.getLsbD i = true)
    (lowest : ∀ j, 8 ≤ j → j < i → v.getLsbD j = false) : flagRefusal v = some i :=
  lowestBit_shiftRight hz hi set lowest

/-- R12: a target that is canonical and a multiple of 8 has no fault. -/
theorem badTarget_eq_none {x : DWord} (aligned : x.toNat % 8 = 0) (canonical : (x.setWidth 57).signExtend 64 = x) : badTarget x = none := by
  rw [badTarget, canon_toNat, if_neg (by simpa using canonical), if_neg (by simpa using aligned)]

/-- R12: reason 1, not canonical, comes before reason 3, misaligned. -/
theorem badTarget_eq_some {x : DWord} (bad : ¬((x.setWidth 57).signExtend 64 = x ∧ x.toNat % 8 = 0)) :
    badTarget x = some (if (x.setWidth 57).signExtend 64 = x then 3 else 1) := by
  rw [badTarget, canon_toNat]
  by_cases h : (x.setWidth 57).signExtend 64 = x
  · rw [if_neg (by simpa using h), if_pos fun aligned => bad ⟨h, aligned⟩, if_pos h]
  · rw [if_pos h, if_neg h]

/-! ### The words of SWR (R17, R32) -/

/-- The fields of SWR without the pair form. -/
def swrRaw (d a : Nat) : Raw := { op := 0x13A, d, a }

theorem ofWords_swrRaw {d a : Nat} (hd : d < 2048) (ha : a < 512) (y : DWord) : Raw.ofWords (swrRaw d a).word0 y = swrRaw d a := by
  have x : (swrRaw d a).word0.toNat = 0x13A * 2 ^ 54 + 7 * 2 ^ 44 + d * 2 ^ 33 + a * 2 ^ 22 := by
    simp only [swrRaw, Raw.word0, BitVec.toNat_ofNat]
    omega
  have short : bit (swrRaw d a).word0.toNat 53 = false := by
    rw [x, bit, Nat.shiftRight_eq_div_pow]
    simp only [beq_eq_false_iff_ne]
    omega
  rw [Raw.ofWords, short, x]
  simp only [bits, Nat.shiftRight_eq_div_pow, Bool.false_eq_true, if_false, swrRaw, Raw.mk.injEq]
  omega

/-- A field of zeros has no unused bit set. -/
theorem unused_zero (pos used : Nat) : unused pos 0 used = none := by
  rw [unused, Nat.zero_and]
  rfl

/-- R32: the checks of SWR's word are those of its destination. -/
theorem refuse_swrRaw (c : Limits) {d a : Nat} (ha : a < 512) :
    refuse c (swrRaw d a) = ((Use.refuse c.nv .sr d).map (ill · 0) <|> if d = 528 ∨ d = 529 then some (ill 0x07 1) else none) := by
  have scalar : Use.refuse c.nv .sca a = none := by
    simp only [Use.refuse, Nat.mod_one]
    rw [if_neg (by simp; omega), if_neg (by simp), if_neg (by omega)]
  have fields : form c (swrRaw d a) = some { d := .sr, a := .sca, modU := 0x02, res := [(1, d == 528 || d == 529)] } := by
    simp [form, swrRaw, bit]
  have rest : refuseUnused { d := .sr, a := .sca, modU := 0x02, res := [(1, d == 528 || d == 529)] } (swrRaw d a) = none := by
    simp [refuseUnused, swrRaw, unusedOp, unused_zero]
  have ops : refuseOps c { d := .sr, a := .sca, modU := 0x02, res := [(1, d == 528 || d == 529)] } (swrRaw d a) =
      (Use.refuse c.nv .sr d).map (ill · 0) := by
    simp only [refuseOps, swrRaw, scalar]
    cases Use.refuse c.nv .sr d <;> rfl
  simp only [refuse, fields]
  rw [ops, rest]
  by_cases h : d = 528 ∨ d = 529 <;> simp [h, swrRaw, rndUsed]

theorem encode_swr (d a : Nat) : encode (.swr false d a) = [(swrRaw d a).word0] := by
  have fields : fieldsOf (.swr false d a) = some (swrRaw d a) := rfl
  rw [encode, fields]
  · rfl
  · exact fun _ => nofun

/-- R17: the numbers that name a special register. -/
theorem specialReg_refuse (nv d : Nat) :
    Use.refuse nv .sr d = if d < 512 ∨ 532 ≤ d ∧ d < 768 then some 0x0A else if 768 ≤ d then some 3 else none := by
  by_cases past : 768 ≤ d
  · rw [Use.refuse, if_pos past, if_neg (by omega), if_pos past]
  · rw [Use.refuse, if_neg past, if_neg past]
    simp only [Bool.or_eq_true, decide_eq_true_eq]
    exact if_congr (by omega) rfl rfl

/-- R17, R32: what the word of SWR without the pair form decodes to. -/
theorem decodeThread_swrRaw (c : Limits) {d a : Nat} (hd : d < 2048) (ha : a < 512) (y : DWord) :
    decodeThread c (swrRaw d a).word0 y =
      if d < 512 ∨ (532 ≤ d ∧ d < 768) then .error { kind := 0x01, cause := 0x0A, hi := 0 }
      else if 768 ≤ d then .error { kind := 0x01, cause := 0x03, hi := 0 }
      else if d = 528 ∨ d = 529 then .error { kind := 0x01, cause := 0x07, hi := 1 }
      else .ok (.swr false d a) := by
  have built : build (swrRaw d a) = some (.swr false d a) := by simp [build, swrRaw, bit]
  rw [decodeThread, ofWords_swrRaw hd ha, decodeRaw, refuse_swrRaw c ha, built]
  by_cases special : d < 512 ∨ 532 ≤ d ∧ d < 768
  · rw [specialReg_refuse, if_pos special, if_pos special]; rfl
  by_cases past : 768 ≤ d
  · rw [specialReg_refuse, if_neg special, if_pos past, if_neg special, if_pos past]; rfl
  rw [specialReg_refuse, if_neg special, if_neg past, if_neg special, if_neg past]
  by_cases half : d = 528 ∨ d = 529
  · rw [if_pos half, if_pos half]; rfl
  · rw [if_neg half, if_neg half]; rfl

/-- The wave goes on with another %trapbase. -/
theorem onlyWave_trapbase (s : State) (k : Nat) (w : Wave) (fr : Frag) (x : DWord) :
    OnlyWave s k { w with trapbase := x, frags := at_ w fr (pcAdd fr.pc 8) } (advance s k { w with trapbase := x } fr 8) :=
  onlyWave_advance s k { w with trapbase := x } fr 8

section
variable {s : State} {k : Nat} {w : Wave} {fr : Frag} (hi : Issues s k w fr)
include hi

/-- SWR of %mode: R57's check of the value, then the write. -/
theorem exec_swr_mode (a : Nat) : exec (.swr false 524 a) s = .next (match modeRefusal (rdS s w 1 a) with
    | some n => takeTrap s k w fr { kind := 0x02, detail := 0x09 + 256 * (128 + n) }
    | none => advance s k { w with mode := rdS s w 1 a } fr 8) :=
  onFrag_next hi.1 hi.2.1 hi.2.2 _

/-- SWR of %flags. -/
theorem exec_swr_flags (a : Nat) : exec (.swr false 525 a) s = .next (match flagRefusal (rdS s w 1 a) with
    | some n => takeTrap s k w fr { kind := 0x02, detail := 0x09 + 256 * (128 + n) }
    | none => advance s k (w.setFlags (rdS s w 1 a) s.cycle s.ctr) fr 8) :=
  onFrag_next hi.1 hi.2.1 hi.2.2 _

/-- SWR of %trapen. -/
theorem exec_swr_trapen (a : Nat) : exec (.swr false 526 a) s = .next (match flagRefusal (rdS s w 1 a) with
    | some n => takeTrap s k w fr { kind := 0x02, detail := 0x09 + 256 * (128 + n) }
    | none => advance s k { w with trapen := rdS s w 1 a } fr 8) :=
  onFrag_next hi.1 hi.2.1 hi.2.2 _

/-- SWR of the pair %trapbase: R12's check of the address, then the write. -/
theorem exec_swr_trapbase_good {a : Nat} (good : badTarget (rdS2 s w 1 a) = none) :
    exec (.swr true 528 a) s = .next (advance s k { w with trapbase := rdS2 s w 1 a } fr 8) := by
  refine (onFrag_next hi.1 hi.2.1 hi.2.2 _).trans ?_
  simp only [if_true, good]

theorem exec_swr_trapbase_bad {a r : Nat} (bad : badTarget (rdS2 s w 1 a) = some r) :
    exec (.swr true 528 a) s = .next (takeTrap s k w fr (targetExc (rdS2 s w 1 a) r)) := by
  refine (onFrag_next hi.1 hi.2.1 hi.2.2 _).trans ?_
  simp only [if_true, bad]

theorem exec_swr_remain (a : Nat) : exec (.swr false 527 a) s = .next (advance s k { w with remain := rdS s w 1 a } fr 8) :=
  onFrag_next hi.1 hi.2.1 hi.2.2 _

theorem exec_spart (n : Nat) : exec (.spart n) s = .next (advance s k { w with lpart := n } fr 8) :=
  onFrag_next hi.1 hi.2.1 hi.2.2 _

/-- SWR of a register that may not be written (R125). -/
theorem exec_swr_privileged {d : Nat} (hd : d ∉ [524, 525, 526, 527]) (a : Nat) :
    exec (.swr false d a) s = .next (takeTrap s k w fr { kind := 0x03, detail := 0x0B + 256 * (d - 512) }) := by
  refine (onFrag_next hi.1 hi.2.1 hi.2.2 _).trans ?_
  simp only [List.mem_cons, List.not_mem_nil, or_false, not_or] at hd
  obtain ⟨mode, flags, trapen, remain⟩ := hd
  simp only [Bool.false_eq_true, if_false]

end

/-- R12, R17, R57, R118, R125: the writes of SWR and SPART, each alone, and what SWR refuses. -/
theorem writeSpecial : Claim.WriteSpecial := by
  intro s k w fr hi a n
  refine ⟨fun least most lt => ⟨advance s k { w with mode := rdS s w 1 a } fr 8, ?mode, onlyWave_advance s k { w with mode := rdS s w 1 a } fr 8⟩,
    fun lt => ⟨advance s k (w.setFlags (rdS s w 1 a) s.cycle s.ctr) fr 8, _, ?flags, onlyWave_advance .., rfl,
      landFlags_flagPend_sublist w s.cycle s.ctr, landFlags_flagPend_due w s.cycle s.ctr⟩,
    fun lt => ⟨advance s k { w with trapen := rdS s w 1 a } fr 8, ?trapen, onlyWave_advance s k { w with trapen := rdS s w 1 a } fr 8⟩,
    ⟨_, exec_swr_remain hi a, onlyWave_advance s k { w with remain := rdS s w 1 a } fr 8⟩,
    fun aligned canonical =>
      ⟨_, exec_swr_trapbase_good hi (badTarget_eq_none aligned canonical), onlyWave_trapbase ..⟩,
    ⟨_, exec_spart hi n, onlyWave_advance s k { w with lpart := n } fr 8⟩,
    fun rm => ?noRounding, fun least most i hlow => ?modeBit, fun i hlow => ?flagBit, fun bad => ?badTrapbase,
    fun d _ _ hd => exec_swr_privileged hi (fun h => hd (List.mem_append_left [528, 529] h)) a,
    fun c d hd ha => ⟨(swrRaw d a).word0, encode_swr d a, decodeThread_swrRaw c hd ha⟩⟩
  case mode => rw [exec_swr_mode hi, modeRefusal_eq_none least most lt]
  case flags => rw [exec_swr_flags hi, flagRefusal_eq_none lt]
  case trapen => rw [exec_swr_trapen hi, flagRefusal_eq_none lt]
  case noRounding =>
    show exec (.swr false 524 a) s = _
    rw [exec_swr_mode hi, modeRefusal_eq_zero rm]
  case modeBit =>
    obtain ⟨from7, lt, set, lowest⟩ := hlow
    show exec (.swr false 524 a) s = _
    rw [exec_swr_mode hi, modeRefusal_eq_some least most from7 lt set lowest]
  case flagBit =>
    obtain ⟨from8, lt, set, lowest⟩ := hlow
    show exec (.swr false 525 a) s = _ ∧ exec (.swr false 526 a) s = _
    rw [exec_swr_flags hi, exec_swr_trapen hi, flagRefusal_eq_some from8 lt set lowest]
    exact ⟨rfl, rfl⟩
  case badTrapbase => exact exec_swr_trapbase_bad hi (badTarget_eq_some bad)

/-- Settles O29: reads by `readSpecial`, writes and refusals by `writeSpecial`. -/
theorem specialRegisters : Obligations.SpecialRegisters := ⟨readSpecial, writeSpecial⟩

end Sys2Proof.Machine
end

section
/-! PROOFS. Tile bundles: encoding, then decoding (R25 to R28, R32, R172 to R182). -/

namespace Sys2Proof.Machine

/-! ### Fields of a bundle -/

theorem testBit_bits (x hi lo i : Nat) : (bits x hi lo).testBit i = (decide (i < hi - lo + 1) && x.testBit (lo + i)) := by
  rw [bits, Nat.testBit_mod_two_pow, Nat.testBit_shiftRight]

theorem bits_eq_zero {x hi lo : Nat} (h : ∀ i, lo ≤ i → i ≤ hi → x.testBit i = false) (le : lo ≤ hi) : bits x hi lo = 0 := by
  apply Nat.eq_of_testBit_eq
  intro i
  rw [testBit_bits, Nat.zero_testBit]
  by_cases hi' : i < hi - lo + 1
  · rw [h (lo + i) (by omega) (by omega), Bool.and_false]
  · rw [decide_eq_false hi', Bool.false_and]

/-- A field of zeros meets no mask of its bits. -/
theorem and_fmask_eq_zero {x hi lo : Nat} (h : bits x hi lo = 0) : x &&& fmask hi lo = 0 := by
  apply Nat.eq_of_testBit_eq
  intro i
  rw [fmask, Nat.testBit_and, Nat.mul_comm, Nat.testBit_two_pow_mul, Nat.testBit_two_pow_sub_one, Nat.zero_testBit]
  by_cases hlo : lo ≤ i
  · have := congrArg (·.testBit (i - lo)) h
    simp only [testBit_bits, Nat.zero_testBit, Nat.add_sub_cancel' hlo] at this
    cases hx : x.testBit i <;> simp_all
  · simp [hlo]

section
variable {np y p n : Nat} (lt : y < 2 ^ n) (top : p + n ≤ 248)
include lt top

/-- The bits of a bundle that holds one field `y` at `p` under profile `np`. -/
theorem testBit_bundle (i : Nat) :
    (np * 2 ^ 248 + y * 2 ^ p).testBit i = if i < 248 then decide (p ≤ i) && y.testBit (i - p) else np.testBit (i - 248) := by
  have small : y * 2 ^ p < 2 ^ 248 := calc
    y * 2 ^ p < 2 ^ n * 2 ^ p := Nat.mul_lt_mul_of_pos_right lt (Nat.two_pow_pos p)
    _ = 2 ^ (p + n) := by rw [← Nat.pow_add, Nat.add_comm]
    _ ≤ 2 ^ 248 := Nat.pow_le_pow_right Nat.zero_lt_two top
  rw [Nat.mul_comm np, Nat.testBit_two_pow_mul_add _ small]
  split
  · rw [Nat.mul_comm y, Nat.testBit_two_pow_mul]
  · rfl

theorem bits_bundle_profile (small : np < 256) : bits (np * 2 ^ 248 + y * 2 ^ p) 255 248 = np := by
  apply Nat.eq_of_testBit_eq
  intro i
  rw [testBit_bits, testBit_bundle lt top, if_neg (by omega), Nat.add_sub_cancel_left]
  by_cases hi : i < 8
  · simp [hi]
  · rw [Nat.testBit_eq_false_of_lt (lt_of_lt_of_le small (Nat.pow_le_pow_right (Nat.zero_lt_two) (by omega : 8 ≤ i)))]
    simp

/-- The bits within the field. -/
theorem bits_bundle_field {hi lo : Nat} (h : lo ≤ hi) (hi' : p + hi < 248) :
    bits (np * 2 ^ 248 + y * 2 ^ p) (p + hi) (p + lo) = bits y hi lo := by
  apply Nat.eq_of_testBit_eq
  intro i
  rw [testBit_bits, testBit_bits, testBit_bundle lt top, Nat.add_sub_add_left]
  by_cases small : i < hi - lo + 1
  · rw [if_pos (by omega), decide_eq_true (by omega : p ≤ p + lo + i), Bool.true_and]
    congr 2
    omega
  · simp [small]

/-- The bits outside the field. -/
theorem bits_bundle_other {hi lo : Nat} (h : lo ≤ hi) (hi' : hi < 248) (apart : hi < p ∨ p + n ≤ lo) :
    bits (np * 2 ^ 248 + y * 2 ^ p) hi lo = 0 := by
  refine bits_eq_zero (fun i h1 h2 => ?_) h
  rw [testBit_bundle lt top, if_pos (by omega)]
  rcases apart with below | above
  · rw [decide_eq_false (by omega), Bool.false_and]
  · rw [Nat.testBit_eq_false_of_lt (lt_of_lt_of_le lt (Nat.pow_le_pow_right Nat.zero_lt_two (by omega))), Bool.and_false]

end

/-! ### A bundle of one slot (R25 to R28, R32) -/

/-- What a slot operation's opcode and operand bits must meet to decode: they fit their slot, no sub-field is reserved, no unused bit is
set, and the operation is built from them. -/
structure Fits (i : Instr) (k op x : Nat) : Prop where
  slot : k < 6
  assigned : 1 ≤ op ∧ op ≤ slotMax k
  width : x < 2 ^ (slotPos k).2
  form : ∃ used, slotForm k op x = (none, used) ∧ x &&& (fmask 41 0 ^^^ used) = 0
  built : buildSlot k op x = some i

/-- The bundle of one slot word. -/
def oneSlot (np k op x : Nat) : Nat := np * 2 ^ 248 + (op * 2 ^ (slotPos k).2 + x) * 2 ^ (slotPos k).1

/-- Each slot lies between bit 36 and bit 244. -/
theorem slotPos_range : ∀ k < 6, 36 ≤ (slotPos k).1 ∧ (slotPos k).1 + ((slotPos k).2 + 6) ≤ 244 := by decide

/-- No two slots overlap (R25). -/
theorem slotPos_apart : ∀ j < 6, ∀ k < 6, j ≠ k →
    (slotPos j).1 + (slotPos j).2 + 5 < (slotPos k).1 ∨ (slotPos k).1 + ((slotPos k).2 + 6) ≤ (slotPos j).1 := by decide

theorem slotPos_width_pos : ∀ k < 6, 1 ≤ (slotPos k).2 := by decide

/-- The opcodes of R31 take at most three bits. -/
theorem slotMax_lt : ∀ k < 6, slotMax k < 8 := by decide

/-- An idle slot builds nothing, and has no reserved value. -/
theorem buildSlot_idle : ∀ k < 6, buildSlot k 0 0 = none ∧ (slotForm k 0 0).1 = none := by decide

section
variable {np k op x : Nat} {i : Instr} (h : Fits i k op x)
include h

theorem Fits.word_lt : op * 2 ^ (slotPos k).2 + x < 2 ^ ((slotPos k).2 + 6) := by
  have small : op < 8 := Nat.lt_of_le_of_lt h.assigned.2 (slotMax_lt k h.slot)
  have := h.width
  rw [Nat.pow_add]
  nlinarith

theorem Fits.within : (slotPos k).1 + ((slotPos k).2 + 6) ≤ 248 := by
  have := (slotPos_range k h.slot).2
  omega

theorem Fits.slotArg_oneSlot {j : Nat} (hj : j < 6) : slotArg (oneSlot np k op x) j = if j = k then x else 0 := by
  have w := slotPos_width_pos j hj
  have r := slotPos_range j hj
  split
  next e =>
    subst e
    have f := bits_bundle_field (np := np) (p := (slotPos j).1) h.word_lt h.within (Nat.zero_le ((slotPos j).2 - 1)) (by omega)
    rw [Nat.add_zero, ← Nat.add_sub_assoc w] at f
    rw [slotArg, oneSlot, f, bits, Nat.shiftRight_zero, Nat.sub_zero, Nat.sub_add_cancel w, Nat.mul_comm, Nat.mul_add_mod,
      Nat.mod_eq_of_lt h.width]
  next e =>
    refine bits_bundle_other h.word_lt h.within (by omega) (by omega) ?_
    have := slotPos_apart j hj k h.slot e
    omega

theorem Fits.slotOp_oneSlot {j : Nat} (hj : j < 6) : slotOp (oneSlot np k op x) j = if j = k then op else 0 := by
  have w := slotPos_width_pos j hj
  have r := slotPos_range j hj
  split
  next e =>
    subst e
    have small : op < 8 := Nat.lt_of_le_of_lt h.assigned.2 (slotMax_lt j h.slot)
    have f := bits_bundle_field (np := np) (p := (slotPos j).1) h.word_lt h.within (Nat.le_add_right (slotPos j).2 5) (by omega)
    rw [← Nat.add_assoc] at f
    rw [slotOp, oneSlot, f, bits, Nat.shiftRight_eq_div_pow, Nat.mul_comm, Nat.mul_add_div (Nat.two_pow_pos _), Nat.div_eq_of_lt h.width,
      Nat.add_sub_cancel_left]
    omega
  next e =>
    refine bits_bundle_other h.word_lt h.within (by omega) (by omega) ?_
    have := slotPos_apart j hj k h.slot e
    omega

theorem Fits.bits_oneSlot_low : bits (oneSlot np k op x) 35 0 = 0 :=
  bits_bundle_other h.word_lt h.within (by omega) (by omega) (.inl (slotPos_range k h.slot).1)

theorem Fits.bits_oneSlot_kind : bits (oneSlot np k op x) 247 244 = 0 :=
  bits_bundle_other h.word_lt h.within (by omega) (by omega) (.inr (slotPos_range k h.slot).2)

/-- One slot names at most one bank (R28). -/
theorem Fits.portConflict_oneSlot : portConflict (oneSlot np k op x) = none := by
  have idle : ∀ j < 6, j ≠ k → slotBank (oneSlot np k op x) j = none := fun j hj e => by
    unfold slotBank
    rw [h.slotOp_oneSlot hj, if_neg e, if_pos rfl]
  have pair : ∀ a b, a < 6 → b < 6 → a ≠ b →
      ((slotBank (oneSlot np k op x) a).isSome && slotBank (oneSlot np k op x) a == slotBank (oneSlot np k op x) b) = false := fun a b ha hb e => by
    by_cases hk : a = k
    · rw [idle b hb (fun e' => e (hk.trans e'.symm))]
      cases slotBank (oneSlot np k op x) a <;> rfl
    · rw [idle a ha hk]; rfl
  rw [portConflict, List.find?_eq_none.2, Option.map_none]
  intro p hp
  simp only [List.mem_cons, List.not_mem_nil, or_false] at hp
  rcases hp with rfl | rfl | rfl
  · exact Bool.not_eq_true _ ▸ pair 1 4 (by decide) (by decide) (by decide)
  · exact Bool.not_eq_true _ ▸ pair 1 5 (by decide) (by decide) (by decide)
  · exact Bool.not_eq_true _ ▸ pair 4 5 (by decide) (by decide) (by decide)

/-- No check of R32 refuses the bundle. -/
theorem Fits.refuseBundle_oneSlot (least : 1 ≤ np) (most : np ≤ 6) : refuseBundle (oneSlot np k op x) = none := by
  have member : ∀ {j}, j ∈ slotList → j < 6 := fun hj => List.mem_range.1 hj
  have profile : bits (oneSlot np k op x) 255 248 = np := bits_bundle_profile h.word_lt h.within (by omega)
  have opcodes : slotList.find? (fun j => decide (slotMax j < slotOp (oneSlot np k op x) j)) = none :=
    List.find?_eq_none.2 fun j hj => by
      rw [h.slotOp_oneSlot (member hj)]
      split
      next e => simpa [e] using h.assigned.2
      next => simp
  obtain ⟨used, form, clear⟩ := h.form
  have reserved : slotList.findSome? (fun j => (slotForm j (slotOp (oneSlot np k op x) j) (slotArg (oneSlot np k op x) j)).1.map
      fun p => ill 0x07 ((slotPos j).1 + p)) = none :=
    List.findSome?_eq_none_iff.2 fun j hj => by
      rw [h.slotOp_oneSlot (member hj), h.slotArg_oneSlot (member hj)]
      split
      next e => rw [e, form, Option.map_none]
      next => rw [(buildSlot_idle j (member hj)).2, Option.map_none]
  have unusedBits : slotList.find? (fun j => decide (slotArg (oneSlot np k op x) j &&&
      (fmask 41 0 ^^^ (slotForm j (slotOp (oneSlot np k op x) j) (slotArg (oneSlot np k op x) j)).2) ≠ 0)) = none :=
    List.find?_eq_none.2 fun j hj => by
      rw [h.slotOp_oneSlot (member hj), h.slotArg_oneSlot (member hj)]
      split
      next e => simp [e, form, clear]
      next => simp
  rw [refuseBundle]
  simp only [profile, h.bits_oneSlot_kind, h.bits_oneSlot_low, h.portConflict_oneSlot, opcodes, reserved, unusedBits, least, most]
  rfl

/-- R25 to R28: the bundle decodes to that operation alone. -/
theorem Fits.decodeBundle_oneSlot (least : 1 ≤ np) (most : np ≤ 6) :
    decodeBundle (oneSlot np k op x) = .ok { np, kind := .normal, slots := [(k, i)] } := by
  have profile : bits (oneSlot np k op x) 255 248 = np := bits_bundle_profile h.word_lt h.within (by omega)
  have slots : slotList.filterMap (fun j => (buildSlot j (slotOp (oneSlot np k op x) j) (slotArg (oneSlot np k op x) j)).map fun i => (j, i)) =
      slotList.filterMap fun j => if j = k then some (k, i) else none :=
    List.filterMap_congr fun j hj => by
      have hj : j < 6 := List.mem_range.1 hj
      rw [h.slotOp_oneSlot hj, h.slotArg_oneSlot hj]
      split
      next e => rw [e, h.built, Option.map_some]
      next => rw [(buildSlot_idle j hj).1, Option.map_none]
  have one : ∀ k < 6, ∀ i : Instr, slotList.filterMap (fun j => if j = k then some (k, i) else none) = [(k, i)] := by
    intro k hk i
    interval_cases k <;> rfl
  rw [decodeBundle, h.refuseBundle_oneSlot least most, slots, one k h.slot, profile, h.bits_oneSlot_kind, bkindOf]

end

/-! ### The operand bits of each operation -/

theorem bits_of {x v : Nat} (hi lo : Nat) (h : x / 2 ^ lo % 2 ^ (hi - lo + 1) = v) : bits x hi lo = v := by
  rw [bits, Nat.shiftRight_eq_div_pow, h]

theorem bit_of {x : Nat} {b : Bool} (n : Nat) (h : x / 2 ^ n % 2 = b1 b) : bit x n = b := by
  rw [bit, Nat.shiftRight_eq_div_pow, h]
  cases b <;> rfl

theorem bit_true {x : Nat} (n : Nat) (h : x / 2 ^ n % 2 = 1) : bit x n = true := bit_of n h

theorem bit_false {x : Nat} (n : Nat) (h : x / 2 ^ n % 2 = 0) : bit x n = false := bit_of n h

theorem b1_le (b : Bool) : b1 b ≤ 1 := by cases b <;> decide

/-- A field of zeros meets no bit of its mask. -/
theorem fmask_clear {x : Nat} (hi lo : Nat) (h : x / 2 ^ lo % 2 ^ (hi - lo + 1) = 0) : x &&& fmask hi lo = 0 :=
  and_fmask_eq_zero (bits_of hi lo h)

theorem or_clear {x A B : Nat} (a : x &&& A = 0) (b : x &&& B = 0) : x &&& (A ||| B) = 0 := by
  rw [Nat.and_or_distrib_left, a, b, Nat.or_zero]

/-- No unused bit is set, the unused bits being the mask `m`. -/
theorem unused_clear {x used : Nat} (m : Nat) (split : fmask 41 0 ^^^ used = m) (h : x &&& m = 0) : x &&& (fmask 41 0 ^^^ used) = 0 :=
  split ▸ h

/-! #### MX (R172) -/

/-- The fields of MMA and MMAS with a constant depth. -/
theorem mxArg_const {d a b n x : Nat} (hd : d < 16) (ha : a < 16) (hb : b < 16) (least : 1 ≤ n) (most : n ≤ 64)
    (hx : slotOf.mxArg d a b (.const n) = x) :
    x < 2 ^ 42 ∧ bits x 41 38 = d ∧ bits x 37 34 = a ∧ bits x 33 30 = b ∧ bit x 23 = false ∧ bits x 29 24 + 1 = n ∧
      x &&& (fmask 41 0 ^^^ fmask 41 23) = 0 := by
  simp only [slotOf.mxArg] at hx
  refine ⟨by omega, bits_of _ _ (by omega), bits_of _ _ (by omega), bits_of _ _ (by omega), bit_false _ (by omega), ?_,
    unused_clear (fmask 22 0) (by decide) (fmask_clear _ _ (by omega))⟩
  rw [bits_of (v := n - 1) 29 24 (by omega)]
  omega

/-- The same with the depth in a register. -/
theorem mxArg_reg {d a b y x : Nat} (hd : d < 16) (ha : a < 16) (hb : b < 16) (hy : y < 64) (hx : slotOf.mxArg d a b (.reg y) = x) :
    x < 2 ^ 42 ∧ bits x 41 38 = d ∧ bits x 37 34 = a ∧ bits x 33 30 = b ∧ bit x 23 = true ∧ bits x 22 17 = y ∧
      x &&& (fmask 41 0 ^^^ (fmask 41 30 ||| fmask 23 17)) = 0 := by
  simp only [slotOf.mxArg] at hx
  exact ⟨by omega, bits_of _ _ (by omega), bits_of _ _ (by omega), bits_of _ _ (by omega), bit_true _ (by omega), bits_of _ _ (by omega),
    unused_clear (fmask 29 24 ||| fmask 16 0) (by decide) (or_clear (fmask_clear _ _ (by omega)) (fmask_clear _ _ (by omega)))⟩

theorem fits_mx {d a b : Nat} {k : Depth} (hd : d < 16) (ha : a < 16) (hb : b < 16) (hk : k.ok = true) :
    Fits (.mma d a b k) 1 1 (slotOf.mxArg d a b k) ∧ Fits (.mmas d a b k) 1 2 (slotOf.mxArg d a b k) := by
  generalize hx : slotOf.mxArg d a b k = x
  cases k with
  | const n =>
    simp only [Depth.ok, Bool.and_eq_true, decide_eq_true_eq] at hk
    obtain ⟨width, fd, fa, fb, const, depth, clear⟩ := mxArg_const hd ha hb hk.1 hk.2 hx
    exact ⟨⟨by decide, by decide, width, ⟨_, by simp only [slotForm, const]; rfl, clear⟩, by simp [buildSlot, fd, fa, fb, const, depth]⟩,
      ⟨by decide, by decide, width, ⟨_, by simp only [slotForm, const]; rfl, clear⟩, by simp [buildSlot, fd, fa, fb, const, depth]⟩⟩
  | reg y =>
    simp only [Depth.ok, decide_eq_true_eq] at hk
    obtain ⟨width, fd, fa, fb, reg, depth, clear⟩ := mxArg_reg hd ha hb hk hx
    exact ⟨⟨by decide, by decide, width, ⟨_, by simp only [slotForm, reg]; rfl, clear⟩, by simp [buildSlot, fd, fa, fb, reg, depth]⟩,
      ⟨by decide, by decide, width, ⟨_, by simp only [slotForm, reg]; rfl, clear⟩, by simp [buildSlot, fd, fa, fb, reg, depth]⟩⟩

/-- Operations whose one field is a bank or an operand slot. -/
theorem fits_bank {n : Nat} (hn : n < 16) :
    Fits (.azero n) 1 3 (n * 2 ^ 38) ∧ Fits (.anorm n) 1 4 (n * 2 ^ 38) ∧ Fits (.tclaim n) 3 4 (n * 2 ^ 38) ∧
      Fits (.trel n) 3 5 (n * 2 ^ 38) := by
  have field : bits (n * 2 ^ 38) 41 38 = n := bits_of _ _ (by omega)
  have width : n * 2 ^ 38 < 2 ^ 42 := by omega
  have clear : n * 2 ^ 38 &&& (fmask 41 0 ^^^ fmask 41 38) = 0 := unused_clear (fmask 37 0) (by decide) (fmask_clear _ _ (by omega))
  exact ⟨⟨by decide, by decide, width, ⟨_, rfl, clear⟩, by simp only [buildSlot, field]⟩,
    ⟨by decide, by decide, width, ⟨_, rfl, clear⟩, by simp only [buildSlot, field]⟩,
    ⟨by decide, by decide, width, ⟨_, rfl, clear⟩, by simp only [buildSlot, field]⟩,
    ⟨by decide, by decide, width, ⟨_, rfl, clear⟩, by simp only [buildSlot, field]⟩⟩

theorem fits_aresc_sum {d : Nat} (hd : d < 16) : Fits (.aresc d .sum) 1 5 (d * 2 ^ 38 + 0) := by
  have bank : bits (d * 2 ^ 38 + 0) 41 38 = d := bits_of _ _ (by omega)
  have mode : bits (d * 2 ^ 38 + 0) 37 36 = 0 := bits_of _ _ (by omega)
  exact ⟨by decide, by decide, by simp only [slotPos]; omega,
    ⟨_, by simp only [slotForm, mode]; rfl, unused_clear (fmask 35 0) (by decide) (fmask_clear _ _ (by omega))⟩, by simp only [buildSlot, bank, mode]⟩

/-- ARESC with a scale: the mode is 1 or 2, and the register is in bits 35 to 30. -/
theorem rescArg_fields {d m y : Nat} (hd : d < 16) (least : 1 ≤ m) (most : m ≤ 2) (hy : y < 64) {x : Nat} (hx : d * 2 ^ 38 + (m * 2 ^ 36 + y * 2 ^ 30) = x) :
    x < 2 ^ 42 ∧ bits x 41 38 = d ∧ bits x 37 36 = m ∧ bits x 35 30 = y ∧ x &&& (fmask 41 0 ^^^ fmask 41 30) = 0 :=
  ⟨by omega, bits_of _ _ (by omega), bits_of _ _ (by omega), bits_of _ _ (by omega),
    unused_clear (fmask 29 0) (by decide) (fmask_clear _ _ (by omega))⟩

theorem fits_aresc_pow2 {d y : Nat} (hd : d < 16) (hy : y < 64) : Fits (.aresc d (.pow2 y)) 1 5 (d * 2 ^ 38 + (2 ^ 36 + y * 2 ^ 30)) := by
  generalize hx : d * 2 ^ 38 + (2 ^ 36 + y * 2 ^ 30) = x
  obtain ⟨width, bank, mode, reg, clear⟩ := rescArg_fields (m := 1) (x := x) hd (by decide) (by decide) hy (by omega)
  exact ⟨by decide, by decide, width, ⟨_, by simp only [slotForm, mode]; rfl, clear⟩, by simp only [buildSlot, bank, mode, reg]⟩

theorem fits_aresc_mul {d y : Nat} (hd : d < 16) (hy : y < 64) : Fits (.aresc d (.mul y)) 1 5 (d * 2 ^ 38 + (2 * 2 ^ 36 + y * 2 ^ 30)) := by
  generalize hx : d * 2 ^ 38 + (2 * 2 ^ 36 + y * 2 ^ 30) = x
  obtain ⟨width, bank, mode, reg, clear⟩ := rescArg_fields (m := 2) (x := x) hd (by decide) (by decide) hy (by omega)
  exact ⟨by decide, by decide, width, ⟨_, by simp only [slotForm, mode]; rfl, clear⟩, by simp only [buildSlot, bank, mode, reg]⟩

/-! #### TX and CP (R166, R169, R174) -/

theorem fits_trn {d a : Nat} (hd : d < 16) (ha : a < 16) : Fits (.trn d a) 2 1 (d * 2 ^ 14 + a * 2 ^ 10) := by
  have dst : bits (d * 2 ^ 14 + a * 2 ^ 10) 17 14 = d := bits_of _ _ (by omega)
  have src : bits (d * 2 ^ 14 + a * 2 ^ 10) 13 10 = a := bits_of _ _ (by omega)
  exact ⟨by decide, by decide, by simp only [slotPos]; omega,
    ⟨_, rfl, unused_clear (fmask 41 18 ||| fmask 9 0) (by decide) (or_clear (fmask_clear _ _ (by omega)) (fmask_clear _ _ (by omega)))⟩,
    by simp only [buildSlot, dst, src]⟩

/-- The fields of CPIN and CPOUT without an offset register. -/
theorem cpArg_none {d a x : Nat} {t : Bool} (hd : d < 16) (ha : a < 64) (hx : slotOf.cpArg d a t none = x) :
    x < 2 ^ 42 ∧ bits x 41 38 = d ∧ bits x 37 32 = a ∧ bit x 31 = t ∧ bit x 24 = false ∧
      x &&& (fmask 41 0 ^^^ (fmask 41 31 ||| fmask 24 24)) = 0 := by
  simp only [slotOf.cpArg] at hx
  have := b1_le t
  exact ⟨by omega, bits_of _ _ (by omega), bits_of _ _ (by omega), bit_of _ (by omega), bit_false _ (by omega),
    unused_clear (fmask 30 25 ||| fmask 23 0) (by decide) (or_clear (fmask_clear _ _ (by omega)) (fmask_clear _ _ (by omega)))⟩

theorem cpArg_some {d a y x : Nat} {t : Bool} (hd : d < 16) (ha : a < 64) (hy : y < 64) (hx : slotOf.cpArg d a t (some y) = x) :
    x < 2 ^ 42 ∧ bits x 41 38 = d ∧ bits x 37 32 = a ∧ bit x 31 = t ∧ bit x 24 = true ∧ bits x 30 25 = y ∧
      x &&& (fmask 41 0 ^^^ fmask 41 24) = 0 := by
  simp only [slotOf.cpArg] at hx
  have := b1_le t
  exact ⟨by omega, bits_of _ _ (by omega), bits_of _ _ (by omega), bit_of _ (by omega), bit_true _ (by omega), bits_of _ _ (by omega),
    unused_clear (fmask 23 0) (by decide) (fmask_clear _ _ (by omega))⟩

theorem fits_cp {d a : Nat} {t : Bool} {off : Option Nat} (hd : d < 16) (ha : a < 64) (hoff : offOk off = true) :
    Fits (.cpin d a t off) 3 1 (slotOf.cpArg d a t off) ∧ Fits (.cpout d a t off) 3 2 (slotOf.cpArg d a t off) := by
  generalize hx : slotOf.cpArg d a t off = x
  cases off with
  | none =>
    obtain ⟨width, fd, fa, ft, none, clear⟩ := cpArg_none hd ha hx
    exact ⟨⟨by decide, by decide, width, ⟨_, by simp only [slotForm, none]; rfl, clear⟩, by simp [buildSlot, fd, fa, ft, none]⟩,
      ⟨by decide, by decide, width, ⟨_, by simp only [slotForm, none]; rfl, clear⟩, by simp [buildSlot, fd, fa, ft, none]⟩⟩
  | some y =>
    simp only [offOk, decide_eq_true_eq] at hoff
    obtain ⟨width, fd, fa, ft, some, reg, clear⟩ := cpArg_some hd ha hoff hx
    exact ⟨⟨by decide, by decide, width, ⟨_, by simp only [slotForm, some]; rfl, clear⟩, by simp [buildSlot, fd, fa, ft, some, reg]⟩,
      ⟨by decide, by decide, width, ⟨_, by simp only [slotForm, some]; rfl, clear⟩, by simp [buildSlot, fd, fa, ft, some, reg]⟩⟩

/-- The fields of CPX in direction `m`. -/
theorem cpxArg_fields {d s n m x : Nat} (hd : d < 64) (hs : s < 64) (hn : n < 64) (hm : m < 3)
    (hx : d * 2 ^ 32 + s * 2 ^ 26 + n * 2 ^ 20 + m * 2 ^ 18 = x) :
    x < 2 ^ 42 ∧ bits x 37 32 = d ∧ bits x 31 26 = s ∧ bits x 25 20 = n ∧ bits x 19 18 = m ∧ x &&& (fmask 41 0 ^^^ fmask 37 18) = 0 :=
  ⟨by omega, bits_of _ _ (by omega), bits_of _ _ (by omega), bits_of _ _ (by omega), bits_of _ _ (by omega),
    unused_clear (fmask 41 38 ||| fmask 17 0) (by decide) (or_clear (fmask_clear _ _ (by omega)) (fmask_clear _ _ (by omega)))⟩

theorem fits_cpx {dir : CpxDir} {d s n x : Nat} (hd : d < 64) (hs : s < 64) (hn : n < 64) (h : slotOf (.cpx dir d s n) = some (3, 3, x)) :
    Fits (.cpx dir d s n) 3 3 x := by
  cases dir with
  | gg =>
    obtain ⟨width, fd, fs, fn, mode, clear⟩ := cpxArg_fields (m := 0) hd hs hn (by decide) (Prod.mk.inj (Prod.mk.inj (Option.some.inj h)).2).2
    exact ⟨by decide, by decide, width, ⟨_, by simp only [slotForm, mode]; rfl, clear⟩, by simp only [buildSlot, fd, fs, fn, mode]⟩
  | gs =>
    obtain ⟨width, fd, fs, fn, mode, clear⟩ := cpxArg_fields (m := 1) hd hs hn (by decide) (Prod.mk.inj (Prod.mk.inj (Option.some.inj h)).2).2
    exact ⟨by decide, by decide, width, ⟨_, by simp only [slotForm, mode]; rfl, clear⟩, by simp only [buildSlot, fd, fs, fn, mode]⟩
  | sg =>
    obtain ⟨width, fd, fs, fn, mode, clear⟩ := cpxArg_fields (m := 2) hd hs hn (by decide) (Prod.mk.inj (Prod.mk.inj (Option.some.inj h)).2).2
    exact ⟨by decide, by decide, width, ⟨_, by simp only [slotForm, mode]; rfl, clear⟩, by simp only [buildSlot, fd, fs, fn, mode]⟩

theorem fits_cmdset {n : Nat} (hn : n < 8) : Fits (.tcseal n) 3 6 (n * 2 ^ 38) ∧ Fits (.tcwait n) 3 7 (n * 2 ^ 38) := by
  have field : bits (n * 2 ^ 38) 40 38 = n := bits_of _ _ (by omega)
  have width : n * 2 ^ 38 < 2 ^ 42 := by omega
  have clear : n * 2 ^ 38 &&& (fmask 41 0 ^^^ fmask 40 38) = 0 :=
    unused_clear (fmask 41 41 ||| fmask 37 0) (by decide) (or_clear (fmask_clear _ _ (by omega)) (fmask_clear _ _ (by omega)))
  exact ⟨⟨by decide, by decide, width, ⟨_, rfl, clear⟩, by simp only [buildSlot, field]⟩,
    ⟨by decide, by decide, width, ⟨_, rfl, clear⟩, by simp only [buildSlot, field]⟩⟩

/-! #### AR and AW (R176, R178) -/

/-- The fields of a read or a write of a bank in mode `m`. -/
theorem portArg_fields {s m o x : Nat} (hs : s < 16) (hm : m < 5) (ho : o < 64) (hx : s * 2 ^ 14 + m * 2 ^ 11 + o * 2 ^ 5 = x) :
    x < 2 ^ 18 ∧ bits x 17 14 = s ∧ bits x 13 11 = m ∧ bits x 10 5 = o ∧ x &&& (fmask 41 0 ^^^ fmask 17 5) = 0 :=
  ⟨by omega, bits_of _ _ (by omega), bits_of _ _ (by omega), bits_of _ _ (by omega),
    unused_clear (fmask 41 18 ||| fmask 4 0) (by decide) (or_clear (fmask_clear _ _ (by omega)) (fmask_clear _ _ (by omega)))⟩

theorem fits_ardCe {s d : Nat} (hs : s < 16) (hd : d < 16) : Fits (.ardCe s d) 4 1 (s * 2 ^ 14 + d * 2 ^ 5) := by
  generalize hx : s * 2 ^ 14 + d * 2 ^ 5 = x
  have bank : bits x 17 14 = s := bits_of _ _ (by omega)
  have mode : bits x 13 11 = 0 := bits_of _ _ (by omega)
  have dst : bits x 8 5 = d := bits_of _ _ (by omega)
  exact ⟨by decide, by decide, by simp only [slotPos]; omega,
    ⟨_, by simp only [slotForm, mode]; rfl, unused_clear (fmask 41 18 ||| (fmask 10 9 ||| fmask 4 0)) (by decide)
      (or_clear (fmask_clear _ _ (by omega)) (or_clear (fmask_clear _ _ (by omega)) (fmask_clear _ _ (by omega))))⟩,
    by simp only [buildSlot, bank, mode, dst]⟩

/-- What a word of the AR slot in a mode from 1 on decodes to. -/
theorem fits_ard {s m o x : Nat} {i : Instr} (hs : s < 16) (least : 1 ≤ m) (hm : m < 5) (ho : o < 64) (hx : s * 2 ^ 14 + m * 2 ^ 11 + o * 2 ^ 5 = x)
    (built : ∀ y, bits y 17 14 = s → bits y 13 11 = m → bits y 10 5 = o → buildSlot 4 1 y = some i) : Fits i 4 1 x := by
  obtain ⟨width, bank, mode, reg, clear⟩ := portArg_fields hs hm ho hx
  refine ⟨by decide, by decide, width, ⟨_, ?_, clear⟩, built x bank mode reg⟩
  simp only [slotForm, mode]
  rw [if_neg (by omega), if_neg (by omega)]

/-- What a word of the AW slot decodes to. -/
theorem fits_awr {s m o x : Nat} {i : Instr} (hs : s < 16) (hm : m < 3) (ho : o < 64) (hx : s * 2 ^ 14 + m * 2 ^ 11 + o * 2 ^ 5 = x)
    (built : ∀ y, bits y 17 14 = s → bits y 13 11 = m → bits y 10 5 = o → buildSlot 5 1 y = some i) : Fits i 5 1 x := by
  obtain ⟨width, bank, mode, reg, clear⟩ := portArg_fields hs (by omega) ho hx
  refine ⟨by decide, by decide, width, ⟨_, ?_, clear⟩, built x bank mode reg⟩
  simp only [slotForm, mode]
  rw [if_neg (by omega)]

/-! #### CTL (R180 to R182) -/

theorem fits_tjmp (off : BitVec 24) : Fits (.tjmp off) 0 1 off.toNat := by
  have lt := off.isLt
  have field : bits off.toNat 23 0 = off.toNat := bits_of _ _ (by omega)
  exact ⟨by decide, by decide, by simp only [slotPos]; omega, ⟨_, rfl, unused_clear (fmask 41 24) (by decide) (fmask_clear _ _ (by omega))⟩,
    by simp only [buildSlot, field, BitVec.ofNat_toNat, BitVec.setWidth_eq]⟩

theorem tcondOf_code (c : TCond) : tcondOf c.code = c := by cases c <;> rfl

theorem fits_tbr {a : Nat} {c : TCond} {off : BitVec 24} (ha : a < 64) : Fits (.tbr c a off) 0 2 (a * 2 ^ 28 + c.code * 2 ^ 25 + off.toNat) := by
  generalize hx : a * 2 ^ 28 + c.code * 2 ^ 25 + off.toNat = x
  have lt := off.isLt
  have code : c.code < 6 := by cases c <;> decide
  have cond : bits x 27 25 = c.code := bits_of _ _ (by omega)
  have reg : bits x 33 28 = a := bits_of _ _ (by omega)
  have field : bits x 23 0 = off.toNat := bits_of _ _ (by omega)
  refine ⟨by decide, by decide, by simp only [slotPos]; omega, ⟨fmask 33 25 ||| fmask 23 0, ?_, unused_clear (fmask 41 34 ||| fmask 24 24) (by decide)
    (or_clear (fmask_clear _ _ (by omega)) (fmask_clear _ _ (by omega)))⟩,
    by simp only [buildSlot, cond, reg, field, tcondOf_code, BitVec.ofNat_toNat, BitVec.setWidth_eq]⟩
  simp only [slotForm, cond]
  rw [if_neg (by omega)]

theorem fits_tset_imm {d : Nat} {v : BitVec 26} (hd : d < 64) : Fits (.tset d (.imm v)) 0 3 (d * 2 ^ 28 + v.toNat) := by
  generalize hx : d * 2 ^ 28 + v.toNat = x
  have lt := v.isLt
  have dst : bits x 33 28 = d := bits_of _ _ (by omega)
  have kind : bits x 27 26 = 0 := bits_of _ _ (by omega)
  have field : bits x 25 0 = v.toNat := bits_of _ _ (by omega)
  exact ⟨by decide, by decide, by simp only [slotPos]; omega,
    ⟨_, by simp only [slotForm, kind]; rfl, unused_clear (fmask 41 34) (by decide) (fmask_clear _ _ (by omega))⟩,
    by simp only [buildSlot, dst, kind, field, BitVec.ofNat_toNat, BitVec.setWidth_eq]⟩

theorem fits_tset_sh {d : Nat} {v : BitVec 26} (hd : d < 64) : Fits (.tset d (.sh v)) 0 3 (d * 2 ^ 28 + (2 ^ 26 + v.toNat)) := by
  generalize hx : d * 2 ^ 28 + (2 ^ 26 + v.toNat) = x
  have lt := v.isLt
  have dst : bits x 33 28 = d := bits_of _ _ (by omega)
  have kind : bits x 27 26 = 1 := bits_of _ _ (by omega)
  have field : bits x 25 0 = v.toNat := bits_of _ _ (by omega)
  exact ⟨by decide, by decide, by simp only [slotPos]; omega,
    ⟨_, by simp only [slotForm, kind]; rfl, unused_clear (fmask 41 34) (by decide) (fmask_clear _ _ (by omega))⟩,
    by simp only [buildSlot, dst, kind, field, BitVec.ofNat_toNat, BitVec.setWidth_eq]⟩

theorem fits_tset_mov {d a : Nat} (hd : d < 64) (ha : a < 64) : Fits (.tset d (.mov a)) 0 3 (d * 2 ^ 28 + (2 * 2 ^ 26 + a * 2 ^ 20)) := by
  generalize hx : d * 2 ^ 28 + (2 * 2 ^ 26 + a * 2 ^ 20) = x
  have dst : bits x 33 28 = d := bits_of _ _ (by omega)
  have kind : bits x 27 26 = 2 := bits_of _ _ (by omega)
  have field : bits x 25 20 = a := bits_of _ _ (by omega)
  exact ⟨by decide, by decide, by simp only [slotPos]; omega,
    ⟨_, by simp only [slotForm, kind]; rfl, unused_clear (fmask 41 34 ||| fmask 19 0) (by decide)
      (or_clear (fmask_clear _ _ (by omega)) (fmask_clear _ _ (by omega)))⟩,
    by simp only [buildSlot, dst, kind, field]⟩

theorem fits_tset_special {d n : Nat} (hd : d < 64) (hn : n < 3) : Fits (.tset d (.special n)) 0 3 (d * 2 ^ 28 + (3 * 2 ^ 26 + n)) := by
  generalize hx : d * 2 ^ 28 + (3 * 2 ^ 26 + n) = x
  have dst : bits x 33 28 = d := bits_of _ _ (by omega)
  have kind : bits x 27 26 = 3 := bits_of _ _ (by omega)
  have field : bits x 1 0 = n := bits_of _ _ (by omega)
  refine ⟨by decide, by decide, by simp only [slotPos]; omega,
    ⟨fmask 33 26 ||| fmask 1 0, ?_, unused_clear (fmask 41 34 ||| fmask 25 2) (by decide) (or_clear (fmask_clear _ _ (by omega)) (fmask_clear _ _ (by omega)))⟩,
    by simp only [buildSlot, dst, kind, field]⟩
  simp only [slotForm, kind, field]
  rw [if_neg (by omega)]

theorem fits_tadd_reg {d a b : Nat} (hd : d < 64) (ha : a < 64) (hb : b < 64) :
    Fits (.tadd d a (.inl b)) 0 4 (d * 2 ^ 28 + a * 2 ^ 22 + b * 2 ^ 15) := by
  generalize hx : d * 2 ^ 28 + a * 2 ^ 22 + b * 2 ^ 15 = x
  have dst : bits x 33 28 = d := bits_of _ _ (by omega)
  have src : bits x 27 22 = a := bits_of _ _ (by omega)
  have reg : bit x 21 = false := bit_false _ (by omega)
  have field : bits x 20 15 = b := bits_of _ _ (by omega)
  exact ⟨by decide, by decide, by simp only [slotPos]; omega,
    ⟨_, by simp only [slotForm, reg]; rfl, unused_clear (fmask 41 34 ||| fmask 14 0) (by decide)
      (or_clear (fmask_clear _ _ (by omega)) (fmask_clear _ _ (by omega)))⟩,
    by simp [buildSlot, dst, src, reg, field]⟩

theorem fits_tadd_imm {d a : Nat} {v : BitVec 21} (hd : d < 64) (ha : a < 64) :
    Fits (.tadd d a (.inr v)) 0 4 (d * 2 ^ 28 + a * 2 ^ 22 + (2 ^ 21 + v.toNat)) := by
  generalize hx : d * 2 ^ 28 + a * 2 ^ 22 + (2 ^ 21 + v.toNat) = x
  have lt := v.isLt
  have dst : bits x 33 28 = d := bits_of _ _ (by omega)
  have src : bits x 27 22 = a := bits_of _ _ (by omega)
  have imm : bit x 21 = true := bit_true _ (by omega)
  have field : bits x 20 0 = v.toNat := bits_of _ _ (by omega)
  exact ⟨by decide, by decide, by simp only [slotPos]; omega,
    ⟨_, by simp only [slotForm, imm]; rfl, unused_clear (fmask 41 34) (by decide) (fmask_clear _ _ (by omega))⟩,
    by simp [buildSlot, dst, src, imm, field]⟩

theorem fits_twait (m t c r w : Bool) : Fits (.twait m t c r w) 0 5 (b1 m + 2 * b1 t + 4 * b1 c + 8 * b1 r + 16 * b1 w) := by
  have hm := b1_le m
  have ht := b1_le t
  have hc := b1_le c
  have hr := b1_le r
  have hw := b1_le w
  generalize hx : b1 m + 2 * b1 t + 4 * b1 c + 8 * b1 r + 16 * b1 w = x
  have f0 : bit x 0 = m := bit_of _ (by omega)
  have f1 : bit x 1 = t := bit_of _ (by omega)
  have f2 : bit x 2 = c := bit_of _ (by omega)
  have f3 : bit x 3 = r := bit_of _ (by omega)
  have f4 : bit x 4 = w := bit_of _ (by omega)
  exact ⟨by decide, by decide, by simp only [slotPos]; omega, ⟨_, rfl, unused_clear (fmask 41 5) (by decide) (fmask_clear _ _ (by omega))⟩,
    by simp only [buildSlot, f0, f1, f2, f3, f4]⟩

theorem fits_ttrap {n : Nat} (hn : n < 256) : Fits (.ttrap n) 0 6 n := by
  have field : bits n 7 0 = n := bits_of _ _ (by omega)
  exact ⟨by decide, by decide, by simp only [slotPos]; omega, ⟨_, rfl, unused_clear (fmask 41 8) (by decide) (fmask_clear _ _ (by omega))⟩,
    by simp only [buildSlot, field]⟩

theorem fits_tileTfence : Fits .tileTfence 0 7 0 := ⟨by decide, by decide, by decide, ⟨_, rfl, Nat.zero_and _⟩, rfl⟩

/-! ### Every operation -/

/-- Two bounds that a well-formed instruction's test joins. -/
theorem and_decide {p q : Prop} [Decidable p] [Decidable q] (h : (decide p && decide q) = true) : p ∧ q := by
  simpa using h

theorem and_decide₃ {p q r : Prop} [Decidable p] [Decidable q] [Decidable r] (h : (decide p && decide q && decide r) = true) : p ∧ q ∧ r := by
  simpa [and_assoc] using h

theorem slotOf_fits {i : Instr} {k op x : Nat} (wf : i.wf {} = true) (busy : i ≠ .tnop) (h : slotOf i = some (k, op, x)) : Fits i k op x := by
  cases i with
  | tnop => exact absurd rfl busy
  | tjmp off => cases h; exact fits_tjmp off
  | tbr c a off => cases h; exact fits_tbr (of_decide_eq_true wf)
  | tset d src =>
    obtain ⟨hd, ok⟩ := Bool.and_eq_true_iff.1 (show (decide (d < 64) && src.ok) = true from wf)
    have hd := of_decide_eq_true hd
    cases src with
    | imm v => cases h; exact fits_tset_imm hd
    | sh v => cases h; exact fits_tset_sh hd
    | mov a => cases h; exact fits_tset_mov hd (of_decide_eq_true ok)
    | special n => cases h; exact fits_tset_special hd (of_decide_eq_true ok)
  | tadd d a src =>
    cases src with
    | inl b =>
      cases h
      obtain ⟨hd, ha, hb⟩ := and_decide₃ (p := d < 64) (q := a < 64) (r := b < 64) wf
      exact fits_tadd_reg hd ha hb
    | inr v =>
      cases h
      obtain ⟨hd, ha, -⟩ := and_decide₃ (p := d < 64) (q := a < 64) (r := True) wf
      exact fits_tadd_imm hd ha
  | twait m t c r w => cases h; exact fits_twait m t c r w
  | ttrap n => cases h; exact fits_ttrap (of_decide_eq_true wf)
  | tileTfence => cases h; exact fits_tileTfence
  | mma d a b depth =>
    cases h
    obtain ⟨banks, ok⟩ := Bool.and_eq_true_iff.1 (show ((decide (d < 16) && decide (a < 16) && decide (b < 16)) && depth.ok) = true from wf)
    obtain ⟨hd, ha, hb⟩ := and_decide₃ banks
    exact (fits_mx hd ha hb ok).1
  | mmas d a b depth =>
    cases h
    obtain ⟨banks, ok⟩ := Bool.and_eq_true_iff.1 (show ((decide (d < 16) && decide (a < 16) && decide (b < 16)) && depth.ok) = true from wf)
    obtain ⟨hd, ha, hb⟩ := and_decide₃ banks
    exact (fits_mx hd ha hb ok).2
  | azero d => cases h; exact (fits_bank (of_decide_eq_true wf)).1
  | anorm d => cases h; exact (fits_bank (of_decide_eq_true wf)).2.1
  | tclaim n => cases h; exact (fits_bank (of_decide_eq_true wf)).2.2.1
  | trel n => cases h; exact (fits_bank (of_decide_eq_true wf)).2.2.2
  | aresc d m =>
    obtain ⟨hd, ok⟩ := Bool.and_eq_true_iff.1 (show (decide (d < 16) && m.ok) = true from wf)
    have hd := of_decide_eq_true hd
    cases m with
    | sum => cases h; exact fits_aresc_sum hd
    | pow2 y => cases h; exact fits_aresc_pow2 hd (of_decide_eq_true ok)
    | mul y => cases h; exact fits_aresc_mul hd (of_decide_eq_true ok)
  | trn d a =>
    cases h
    obtain ⟨hd, ha⟩ := and_decide (p := d < 16) (q := a < 16) wf
    exact fits_trn hd ha
  | cpin d a t off =>
    cases h
    obtain ⟨regs, ok⟩ := Bool.and_eq_true_iff.1 (show ((decide (d < 16) && decide (a < 64)) && offOk off) = true from wf)
    obtain ⟨hd, ha⟩ := and_decide regs
    exact (fits_cp hd ha ok).1
  | cpout d a t off =>
    cases h
    obtain ⟨regs, ok⟩ := Bool.and_eq_true_iff.1 (show ((decide (d < 16) && decide (a < 64)) && offOk off) = true from wf)
    obtain ⟨hd, ha⟩ := and_decide regs
    exact (fits_cp hd ha ok).2
  | cpx dir d s n =>
    obtain ⟨hd, hs, hn⟩ := and_decide₃ (p := d < 64) (q := s < 64) (r := n < 64) wf
    cases h
    exact fits_cpx hd hs hn rfl
  | tcseal n => cases h; exact (fits_cmdset (of_decide_eq_true wf)).1
  | tcwait n => cases h; exact (fits_cmdset (of_decide_eq_true wf)).2
  | ardCe s d =>
    cases h
    obtain ⟨hs, hd⟩ := and_decide (p := s < 16) (q := d < 16) wf
    exact fits_ardCe hs hd
  | ardF32 s o =>
    cases h
    obtain ⟨hs, ho⟩ := and_decide (p := s < 16) (q := o < 64) wf
    exact fits_ard (m := 1) hs (by decide) (by decide) ho (by omega) fun y f m g => by simp only [buildSlot, f, m, g]
  | ardBf16 s o =>
    cases h
    obtain ⟨hs, ho⟩ := and_decide (p := s < 16) (q := o < 64) wf
    exact fits_ard (m := 2) hs (by decide) (by decide) ho rfl fun y f m g => by simp only [buildSlot, f, m, g]
  | ardF16 s o =>
    cases h
    obtain ⟨hs, ho⟩ := and_decide (p := s < 16) (q := o < 64) wf
    exact fits_ard (m := 3) hs (by decide) (by decide) ho rfl fun y f m g => by simp only [buildSlot, f, m, g]
  | ardRaw s o =>
    cases h
    obtain ⟨hs, ho⟩ := and_decide (p := s < 16) (q := o < 64) wf
    exact fits_ard (m := 4) hs (by decide) (by decide) ho rfl fun y f m g => by simp only [buildSlot, f, m, g]
  | awrRaw s o =>
    cases h
    obtain ⟨hs, ho⟩ := and_decide (p := s < 16) (q := o < 64) wf
    exact fits_awr (m := 0) hs (by decide) ho (by omega) fun y f m g => by simp only [buildSlot, f, m, g]
  | awrAdd s o =>
    cases h
    obtain ⟨hs, ho⟩ := and_decide (p := s < 16) (q := o < 64) wf
    exact fits_awr (m := 1) hs (by decide) ho (by omega) fun y f m g => by simp only [buildSlot, f, m, g]
  | awrF32 s o =>
    cases h
    obtain ⟨hs, ho⟩ := and_decide (p := s < 16) (q := o < 64) wf
    exact fits_awr (m := 2) hs (by decide) ho rfl fun y f m g => by simp only [buildSlot, f, m, g]
  | _ => cases h

/-- The bundle of a slot operation is its slot word alone. -/
theorem encodeBundle_slot {np w : Nat} {i : Instr} (lone : bkindBits i = none) (h : encodeBundle np i = some w) :
    ∃ k op x, slotOf i = some (k, op, x) ∧ w = oneSlot np k op x := by
  rw [encodeBundle, lone] at h
  obtain ⟨⟨k, op, x⟩, slot, rfl⟩ := Option.map_eq_some_iff.1 h
  refine ⟨k, op, x, slot, ?_⟩
  show np * 2 ^ 248 + op * 2 ^ ((slotPos k).1 + (slotPos k).2) + x * 2 ^ (slotPos k).1 = _
  rw [oneSlot, Nat.add_mul, Nat.mul_assoc op, ← Nat.pow_add, Nat.add_comm (slotPos k).2, Nat.add_assoc]

/-- The bundle of every well-formed slot operation but TNOP decodes to it alone. -/
theorem decodeBundle_encodeBundle_slot {np w : Nat} {i : Instr} (wf : i.wf {} = true) (least : 1 ≤ np) (most : np ≤ 6) (lone : bkindBits i = none)
    (busy : i ≠ .tnop) (h : encodeBundle np i = some w) :
    ∃ b, decodeBundle w = .ok b ∧ b.np = np ∧ b.kind = .normal ∧ b.slots.map (·.2) = [i] := by
  obtain ⟨k, op, x, slot, rfl⟩ := encodeBundle_slot lone h
  exact ⟨_, (slotOf_fits wf busy slot).decodeBundle_oneSlot least most, rfl, rfl, rfl⟩

/-- R26: a special bundle, or one whose slots are all idle, decodes to its kind alone, under each profile. -/
theorem decodeBundle_special {np k : Nat} (least : 1 ≤ np) (most : np ≤ 6) (hk : k < 4) :
    decodeBundle (np * 2 ^ 248 + k * 2 ^ 244) = .ok { np, kind := bkindOf k, slots := [] } := by
  interval_cases np <;> interval_cases k <;> rfl

/-- Settles O17: the special bundles and the idle one by `decodeBundle_special`, every other operation by the fields of its slot. -/
theorem encodeTile : Obligations.EncodeTile := by
  intro np i w wf least most h
  cases i with
  | decouple => cases h; exact ⟨_, decodeBundle_special least most (by decide), rfl, rfl, rfl⟩
  | rejoin => cases h; exact ⟨_, decodeBundle_special least most (by decide), rfl, rfl, rfl⟩
  | trgate => cases h; exact ⟨_, decodeBundle_special least most (by decide), rfl, rfl, rfl⟩
  | tnop =>
    have idle : some (np * 2 ^ 248 + 0 * 2 ^ ((slotPos 0).1 + (slotPos 0).2) + 0 * 2 ^ (slotPos 0).1) = some w := h
    rw [Nat.zero_mul, Nat.zero_mul] at idle
    have decoded := decodeBundle_special (k := 0) least most (by decide)
    rw [Nat.zero_mul] at decoded
    exact ⟨_, Option.some.inj idle ▸ decoded, rfl, rfl, rfl⟩
  | _ => exact decodeBundle_encodeBundle_slot wf least most rfl nofun h

end Sys2Proof.Machine
end

section
/-! PROOFS. What a step runs (R12, R32 to R34, R99, R102, R159 to R161, R237, R239, R318, R319, R366). -/

namespace Sys2Proof.Machine

open Sys2Proof.Claim

/-- A step is heard: the agent's answer in the state made ready. -/
theorem step_eq_heard (s : State) : step s = Heard s (runAgent (turn s) (ready s)) := by
  unfold step Heard
  cases runAgent (turn s) (ready s) <;> rfl

/-! ### Waves -/

/-- R103: a wave that may issue issues the fragment that it picks. -/
theorem issueWave_eq {s s1 : State} {k : Nat} {w0 w : Wave} {f : Frag} (found : kfind s.waves k = some w0) (may : mayIssue s w0 = true)
    (picked : pickFrag s k (w0.settle s.cycle) = some (s1, w, f)) :
    issueWave s k = afterIssue k f.num w (issueFrag (s1.setWave k w) k w f) := by
  simp only [issueWave, found, may, picked, Bool.not_true, Bool.false_eq_true, if_false]

section
variable {s t t2 : State} {k : Nat} {w : Wave} {f : Frag} {i0 : DWord} {read : Option DWord} {fu : Except Exc (Option FusedOps)}

theorem issueFrag_fetchFault {e : Exc} (word : s.firstWord (s.walker w) f.pc.toNat = (t, .error e)) :
    issueFrag s k w f = .next (takeTrap { t with cur := { actor := .frag k f.num } } k w f e) := by
  simp only [issueFrag, word]

variable (word : s.firstWord (s.walker w) f.pc.toNat = (t, .ok (i0, read)))
  (fused : fusedFrom t (s.walker w) f.pc.toNat (s.limits w) [i0] 3 = (t2, fu))
include word fused

/-- R366: a watch hit of the fetch. -/
theorem issueFrag_watched {e : Exc} (hit : watchTest t2 w f .fetch false [(0, f.pc.toNat % 2 ^ 57)] 8 = some e) :
    ∃ (i1 : DWord) (fz : Bool) (t3 : State), issueFrag s k w f = .next (refuseAt { t3 with cur := { actor := .frag k f.num, iw0 := i0, iw1 := i1, fused := fz } } k w f e) ∧
      (fz = false ↔ fu = .ok none) := by
  simp only [issueFrag, word, fused, hit]
  refine ⟨_, _, _, rfl, ?_⟩
  cases fu with
  | error e => simp
  | ok o => cases o <;> simp

variable (quiet : watchTest t2 w f .fetch false [(0, f.pc.toNat % 2 ^ 57)] 8 = none)
include quiet

/-- R100: a fault of a later word of a sequence. -/
theorem issueFrag_fusedFault {e : Exc} (h : fu = .error e) :
    issueFrag s k w f = .next (takeTrap { t2 with cur := { actor := .frag k f.num, iw0 := i0, fused := true } } k w f e) := by
  simp only [issueFrag, word, fused, quiet, h]

/-- R99: a fused sequence. -/
theorem issueFrag_fused {ops : FusedOps} (h : fu = .ok (some ops)) :
    issueFrag s k w f = exec (.fusedSoftmax ops) { t2 with cur := { actor := .frag k f.num, iw0 := i0, fused := true } } := by
  simp only [issueFrag, word, fused, quiet, h]

/-- R34: a fault of the second word's fetch. -/
theorem issueFrag_secondFault {e : Exc} {t3 : State} (h : fu = .ok none) (second : t2.secondWord (s.walker w) f.pc.toNat i0 read = (t3, .error e)) :
    issueFrag s k w f = .next (takeTrap { t3 with cur := { actor := .frag k f.num, iw0 := i0 } } k w f e) := by
  simp only [issueFrag, word, fused, quiet, h, second]

/-- R32, R33: one instruction, or the illegal-instruction trap. -/
theorem issueFrag_single {i1 : DWord} {t3 : State} (h : fu = .ok none) (second : t2.secondWord (s.walker w) f.pc.toNat i0 read = (t3, .ok i1)) :
    issueFrag s k w f = exec (decoded (s.limits w) i0 i1)
      { t3 with cur := { actor := .frag k f.num, iw0 := i0, iw1 := i1, issued := jumps (decoded (s.limits w) i0 i1) } } := by
  simp only [issueFrag, word, fused, quiet, h, second]

end

theorem decoded_ok {l : Limits} {w0 w1 : DWord} {i : Instr} (h : decodeThread l w0 w1 = .ok i) : decoded l w0 w1 = i := by
  rw [decoded, h]

theorem decoded_error {l : Limits} {w0 w1 : DWord} {e : DecErr} (h : decodeThread l w0 w1 = .error e) :
    decoded l w0 w1 = .illegalInstruction e := by
  rw [decoded, h]

theorem secondWord_short (t : State) (wk : Walker) (pc : Nat) {i0 : DWord} (read : Option DWord) (short : i0.toNat / 2 ^ 53 % 2 = 0) :
    t.secondWord wk pc i0 read = (t, .ok 0) := by
  unfold State.secondWord
  rw [bit_false 53 short]
  rfl

/-- R254, R255: a line that is not held is read from H. -/
theorem codeAt_miss (s : State) (c key n : Nat) (within : key % 128 + n ≤ 128) (miss : kfind (s.core c).icache (key / 128) = none) :
    (s.codeAt c key n).2 = ofBytes (s.rdHs key n) := by
  have line : ((s.rdHs (128 * (key / 128)) 128).drop (key % 128)).take n = s.rdHs key n := by
    apply List.ext_getElem
    · simp [State.rdHs]; omega
    · intro i h1 h2
      simp only [State.rdHs, List.getElem_take, List.getElem_drop, List.getElem_map, List.getElem_range]
      congr 1
      omega
  simp only [State.codeAt, miss, line]

theorem fetch_cases (t : State) (wk : Walker) (va n : Nat) :
    (∀ t1 e, t.translate wk va .fetch false = (t1, .error e) →
      t.fetch wk va n = (t1, .error { kind := e.1, level := 3, addr := (canon va).toNat, detail := e.2 })) ∧
    (∀ t1 l, t.translate wk va .fetch false = (t1, .ok l) → (t.fetch wk va n).2 = .ok (t1.codeAt wk.core l.key n).2) := by
  refine ⟨fun t1 e h => ?_, fun t1 l h => ?_⟩ <;> simp only [State.fetch, h]

/-- R99: the words of a sequence begin one. -/
theorem fusedPrefix_of_decodeFused {l : Limits} {a b x y : DWord} {f : FusedOps} (h : decodeFused l a b x y = some f) :
    fusedPrefix l [a] = true ∧ fusedPrefix l [a, b] = true ∧ fusedPrefix l [a, b, x] = true := by
  have conditions := (Option.ite_none_right_eq_some.1 h).1
  simp only [fusedChain, List.all_cons, List.all_nil, Bool.and_true, Bool.and_eq_true, beq_iff_eq] at conditions
  simp only [fusedPrefix, List.map_cons, List.map_nil, List.all_cons, List.all_nil, Bool.and_true, Bool.and_eq_true, beq_iff_eq]
  grind

theorem fusedFrom_succ_false {s : State} {wk : Walker} {pc : Nat} {l : Limits} {ws : List DWord} (h : fusedPrefix l ws = false) (n : Nat) :
    fusedFrom s wk pc l ws (n + 1) = (s, .ok none) := by
  simp only [fusedFrom, h, Bool.not_false, if_true]

theorem fusedFrom_succ_true {s s' : State} {wk : Walker} {pc x : Nat} {l : Limits} {ws : List DWord} (h : fusedPrefix l ws = true)
    (word : s.fetch wk (pc + 8 * ws.length) 8 = (s', .ok x)) (n : Nat) :
    fusedFrom s wk pc l ws (n + 1) = fusedFrom s' wk pc l (ws ++ [BitVec.ofNat 64 x]) n := by
  simp only [fusedFrom, h, word, Bool.not_true, Bool.false_eq_true, if_false]

/-- R99: the words that follow fuse exactly when the conditions hold of the four. -/
theorem fusedFrom_words {t t1 t2 t3 : State} {wk : Walker} {pc b x y : Nat} (l : Limits) (i0 : DWord) (h1 : t.fetch wk (pc + 8) 8 = (t1, .ok b))
    (h2 : t1.fetch wk (pc + 16) 8 = (t2, .ok x)) (h3 : t2.fetch wk (pc + 24) 8 = (t3, .ok y)) :
    (fusedFrom t wk pc l [i0] 3).2 = .ok (decodeFused l i0 (BitVec.ofNat 64 b) (BitVec.ofNat 64 x) (BitVec.ofNat 64 y)) := by
  have none_of : ∀ ws, fusedPrefix l ws = false → (ws = [i0] ∨ ws = [i0, BitVec.ofNat 64 b] ∨ ws = [i0, BitVec.ofNat 64 b, BitVec.ofNat 64 x]) →
      decodeFused l i0 (BitVec.ofNat 64 b) (BitVec.ofNat 64 x) (BitVec.ofNat 64 y) = none := by
    intro ws no cases
    refine Option.eq_none_iff_forall_ne_some.2 fun f hf => ?_
    obtain ⟨p1, p2, p3⟩ := fusedPrefix_of_decodeFused hf
    rcases cases with rfl | rfl | rfl <;> simp_all
  cases p1 : fusedPrefix l [i0] with
  | false => rw [fusedFrom_succ_false p1, none_of _ p1 (.inl rfl)]
  | true =>
    rw [fusedFrom_succ_true p1 h1]
    cases p2 : fusedPrefix l [i0, BitVec.ofNat 64 b] with
    | false => rw [List.cons_append, List.nil_append, fusedFrom_succ_false p2, none_of _ p2 (.inr (.inl rfl))]
    | true =>
      rw [List.cons_append, List.nil_append, fusedFrom_succ_true p2 h2]
      cases p3 : fusedPrefix l [i0, BitVec.ofNat 64 b, BitVec.ofNat 64 x] with
      | false => rw [List.cons_append, List.cons_append, List.nil_append, fusedFrom_succ_false p3, none_of _ p3 (.inr (.inr rfl))]
      | true =>
        rw [List.cons_append, List.cons_append, List.nil_append, fusedFrom_succ_true p3 h3]
        rfl

/-- R12, R32 to R34, R99, R100, R103, R366: the step of a wave. -/
theorem stepRunsWave : Claim.StepRunsWave := by
  intro s k w0 w f s1 ht r found may picked at1 wk pc Answers me
  have answers : ∀ {o}, issueFrag at1 k w f = o → Answers o := fun h => by
    show step s = _
    rw [step_eq_heard, ht, runAgent, issueWave_eq found may picked, h]
  refine ⟨fun t e word => answers (issueFrag_fetchFault word), fun t i0 read word t2 fu fused => ⟨fun e hit => ?watched, fun quiet =>
    ⟨fun e h => answers (issueFrag_fusedFault word fused quiet h), fun ops h => answers (issueFrag_fused word fused quiet h), fun h =>
      ⟨fun t3 e second => answers (issueFrag_secondFault word fused quiet h second), fun t3 i1 second =>
        ⟨jumps (decoded (at1.limits w) i0 i1), fun i hi => ?instruction, fun e he => ?illegal⟩⟩⟩⟩,
    fun t i0 read short => secondWord_short t wk pc read short, fun t l i0 b x y t1 t2 t3 h1 h2 h3 => fusedFrom_words l i0 h1 h2 h3,
    fun t va n x hx => hx ▸ fetch_cases t wk va n, fun c key n within miss => codeAt_miss s c key n within miss⟩
  case watched =>
    obtain ⟨i1, fz, t3, h, iff⟩ := issueFrag_watched word fused hit
    exact ⟨i1, fz, t3, answers h, iff⟩
  case instruction =>
    refine answers ?_
    rw [issueFrag_single word fused quiet h second, decoded_ok hi]
  case illegal =>
    refine answers ?_
    rw [issueFrag_single word fused quiet h second, decoded_error he]

/-- R318, R319, and an event's own meaning. -/
theorem stepRunsRest : Claim.StepRunsRest := by
  intro s q
  refine ⟨fun ht on live normal may work st start => ?_, fun i ht => ?_⟩
  · have served : issueCp (ready s) q = runPacket { ready s with cpQueue := kinsert (ready s).cpQueue (cpOf q) q } q := by
      have queue : ({ ready s with cpQueue := kinsert (ready s).cpQueue (cpOf q) q } : State).queue q = (ready s).queue q := rfl
      simp only [issueCp, on, live, normal, may, work, queue, st]
      rfl
    have run : step s = Heard s (runPacket { ready s with cpQueue := kinsert (ready s).cpQueue (cpOf q) q } q) := by
      rw [step_eq_heard, ht, runAgent, served]
    refine ⟨fun i hi => ?_, fun k hk => ?_, fun e he => ?_⟩
    · rw [hi] at start
      rw [run, runPacket]
      simp only [hi, start, Bool.not_true, Bool.false_eq_true, if_false]
    · rw [hk] at start
      rw [run, runPacket]
      simp only [hk, start, Bool.not_true, Bool.false_eq_true, if_false]
    · rw [he] at start
      rw [run, runPacket]
      simp only [he, start, Bool.not_true, Bool.false_eq_true, if_false]
  · rw [step_eq_heard, ht, runAgent]

/-! ### Tile sequencers -/

section
variable {s t : State} {core n j : Nat} {o : Out}

/-- R159: nothing issues while no context can. -/
theorem issueCore_idle (on : s.hub.on = true) (live : s.hub.frozen = false) (idle : ∀ i, i < 4 → issueBundle s core (((s.core core).curCtx + i) % 4) = none) :
    issueCore s core = .next s := by
  have none : (List.range 4).findSome? (fun i => (issueBundle s core (((s.core core).curCtx + i) % 4)).map
      fun o => (((s.core core).curCtx + i) % 4, o)) = none :=
    List.findSome?_eq_none_iff.2 fun i hi => by rw [idle i (List.mem_range.1 hi), Option.map_none]
  simp only [issueCore, on, live, none, Bool.not_true, Bool.or_false, Bool.false_eq_true, if_false]

/-- R159: the first context from the current one on that can issue issues. -/
theorem issueCore_first (on : s.hub.on = true) (live : s.hub.frozen = false) (lt : j < 4) (hn : n = ((s.core core).curCtx + j) % 4)
    (before : ∀ i, i < j → issueBundle s core (((s.core core).curCtx + i) % 4) = none) (h : issueBundle s core n = some (.next t)) :
    issueCore s core = .next (t.setCore core { t.core core with curCtx := n }) := by
  have first : (List.range 4).findSome? (fun i => (issueBundle s core (((s.core core).curCtx + i) % 4)).map
      fun o => (((s.core core).curCtx + i) % 4, o)) = some (n, .next t) := by
    have split : List.range 4 = List.range j ++ j :: (List.range (3 - j)).map (j + 1 + ·) := by
      interval_cases j <;> rfl
    rw [split, List.findSome?_append, List.findSome?_eq_none_iff.2 fun i hi => by rw [before i (List.mem_range.1 hi), Option.map_none],
      Option.none_or, List.findSome?_cons, ← hn, h]
    rfl
  simp only [issueCore, on, live, first, Bool.not_true, Bool.or_false, Bool.false_eq_true, if_false]

end

/-- The members that do not leave the bundle out (R239). -/
def actingOf (s : State) (core n : Nat) (c : TileCtx) : List Member := (teamOf s core n c).filter fun m => !m.2.2.skip

/-- The lowest-ranked of them. -/
def leadOf (s : State) (core n : Nat) (c : TileCtx) : Member := (actingOf s core n c).head?.getD (core, n, c)

/-- The state in which the lead's bundle stands fetched. -/
def fetchedFor (s1 : State) (lead : Member) (iw0 iw1 : DWord) (np : Nat) : State :=
  { s1 with cur := { actor := .tile lead.1 lead.2.1, iw0, iw1, np } }

section
variable {s s1 s2 : State} {core n v : Nat} {c : TileCtx} (ctx : s.ctxAt core n = some c) (rot : inRotation s core n c = true)
include ctx rot

/-- R239: a bundle that every member leaves out. -/
theorem issueBundle_pass (all : actingOf s core n c = []) : issueBundle s core n = some (.next (passBundle (teamOf s core n c) core n c s)) := by
  rw [actingOf] at all
  simp only [issueBundle, ctx, rot, all, Bool.not_true, Bool.false_eq_true, if_false, if_true]

variable (busy : actingOf s core n c ≠ [])
include busy

theorem issueBundle_fetchFault {e : Exc} (got : s.fetch (s.walkerOf c.task core) c.pc.toNat 32 = (s1, .error e)) :
    issueBundle s core n = some (teamFault (teamOf s core n c) (leadOf s core n c) e (fetchedFor s1 (leadOf s core n c) 0 0 1)) := by
  rw [actingOf] at busy
  simp only [issueBundle, ctx, rot, busy, got, Bool.not_true, Bool.false_eq_true, if_false]
  rfl

variable (got : s.fetch (s.walkerOf c.task core) c.pc.toNat 32 = (s1, .ok v))
include got

/-- The state in which the fetched bundle runs. -/
theorem issueBundle_fault {e : Exc} (hit : bundleWatch s1 core c = some e) (stop : e.detail / 16 % 2 = 0) :
    issueBundle s core n = some (teamFault (teamOf s core n c) (core, n, c) e
      (fetchedFor s1 (leadOf s core n c) (BitVec.ofNat 64 (v / 2 ^ 128)) (BitVec.ofNat 64 (v / 2 ^ 192)) 1)) := by
  rw [actingOf] at busy
  simp only [issueBundle, ctx, rot, busy, got, hit, bit_false 4 stop, Nat.shiftRight_eq_div_pow, Bool.not_true, Bool.false_eq_true, if_false]
  rfl

theorem issueBundle_watchStop {e : Exc} (hit : bundleWatch s1 core c = some e) (stop : e.detail / 16 % 2 = 1) :
    issueBundle s core n = some (.next (stepMembers (teamOf s core n c) ((fetchedFor s1 (leadOf s core n c) (BitVec.ofNat 64 (v / 2 ^ 128))
      (BitVec.ofNat 64 (v / 2 ^ 192)) 1).tileHalt core n c e))) := by
  rw [actingOf] at busy
  simp only [issueBundle, ctx, rot, busy, got, hit, bit_true 4 stop, Nat.shiftRight_eq_div_pow, Bool.not_true, Bool.false_eq_true, if_false, if_true]
  rfl

variable (hit : bundleWatch s1 core c = none)
include hit

theorem issueBundle_illegal {e : DecErr} {t : State} (code : decodeBundle v = .error e)
    (trap : exec (.illegalInstruction e) (fetchedFor s1 (leadOf s core n c) (BitVec.ofNat 64 (v / 2 ^ 128)) (BitVec.ofNat 64 (v / 2 ^ 192)) 1) = .next t) :
    issueBundle s core n = some (.next (stepMembers (teamOf s core n c) t)) := by
  rw [fetchedFor, leadOf, actingOf] at trap
  rw [actingOf] at busy
  simp only [issueBundle, ctx, rot, busy, got, hit, code, Nat.shiftRight_eq_div_pow, Bool.not_true, Bool.false_eq_true, if_false, trap]

variable {b : Bundle} (code : decodeBundle v = .ok b)
include code

/-- R160: a bundle that something holds. -/
theorem issueBundle_held (held : holds (fetchedFor s1 (leadOf s core n c) (BitVec.ofNat 64 (v / 2 ^ 128)) (BitVec.ofNat 64 (v / 2 ^ 192)) b.np)
    (actingOf s core n c) (opsOf b) = true) : issueBundle s core n = none := by
  rw [fetchedFor, leadOf, actingOf] at held
  rw [actingOf] at busy
  simp only [issueBundle, ctx, rot, busy, got, hit, code, Nat.shiftRight_eq_div_pow, Bool.not_true, Bool.false_eq_true, if_false, if_true, held]

variable (free : holds (fetchedFor s1 (leadOf s core n c) (BitVec.ofNat 64 (v / 2 ^ 128)) (BitVec.ofNat 64 (v / 2 ^ 192)) b.np)
    (actingOf s core n c) (opsOf b) = false)
include free

/-- R160, R239: the first fault of a check. -/
theorem issueBundle_checkFault {m : Member} {e : Exc}
    (first : firstFault (fetchedFor s1 (leadOf s core n c) (BitVec.ofNat 64 (v / 2 ^ 128)) (BitVec.ofNat 64 (v / 2 ^ 192)) b.np)
      (actingOf s core n c) (opsOf b) = (s2, some (m, e))) : issueBundle s core n = some (teamFault (teamOf s core n c) m e s2) := by
  rw [fetchedFor, leadOf, actingOf] at free first
  rw [actingOf] at busy
  simp only [issueBundle, ctx, rot, busy, got, hit, code, Nat.shiftRight_eq_div_pow, Bool.not_true, Bool.false_eq_true, if_false, free, first]

/-- R161, R237: the operations run. -/
theorem issueBundle_runs {t : State}
    (first : firstFault (fetchedFor s1 (leadOf s core n c) (BitVec.ofNat 64 (v / 2 ^ 128)) (BitVec.ofNat 64 (v / 2 ^ 192)) b.np)
      (actingOf s core n c) (opsOf b) = (s2, none)) (run : runMembers (actingOf s core n c) (opsOf b) s2 = .next t) :
    let u := if c.cush = .coupled then follow (teamOf s core n c) (pcAfter s2 (core, n, c) (opsOf b)) t else t
    issueBundle s core n = some (.next (bundleIssued (teamOf s core n c) core n
      (if c.cush = .coupled ∧ b.kind = .decouple then uncouple (teamOf s core n c) u else u))) := by
  rw [fetchedFor, leadOf, actingOf] at free first
  rw [actingOf] at busy run
  simp only [issueBundle, ctx, rot, busy, got, hit, code, Nat.shiftRight_eq_div_pow, Bool.not_true, Bool.false_eq_true, if_false, free, first, run,
    Bool.and_eq_true, decide_eq_true_eq]

end

/-! ### The operations of a bundle -/

theorem runMember_one (m : Member) (i : Instr) (s : State) :
    runMember m [i] s = exec i { s with cur := { s.cur with actor := .tile m.1 m.2.1, accepted := true, xs := some m.2.2.x } } := rfl

theorem runMember_append {m : Member} {is : List Instr} {s t : State} (h : runMember m is s = .next t) (i : Instr) :
    runMember m (is ++ [i]) s = exec i { t with
      cur := { t.cur with actor := .tile m.1 m.2.1, accepted := true, xs := (t.cur.xs).or (some m.2.2.x) } } := by
  rw [runMember] at h
  rw [runMember, List.foldl_append, h, List.foldl_cons, List.foldl_nil]
  cases hx : t.cur.xs <;> simp only [hx, Option.none_or, Option.some_or]

theorem runMembers_append {ms : List Member} {is : List Instr} {s t : State} (h : runMembers ms is s = .next t) (m : Member) :
    runMembers (ms ++ [m]) is s = runMember m is t := by
  rw [runMembers] at h
  rw [runMembers, List.foldl_append, h, List.foldl_cons, List.foldl_nil]

/-- R102, R159 to R161, R237, R239, R364, R366: the step of a core's sequencer. -/
theorem stepRunsBundle : Claim.StepRunsBundle := by
  intro s core n j c s1 s2 v b ht r cc on live
  have step_core : step s = Heard s (issueCore r core) := by rw [step_eq_heard, ht, runAgent]
  refine ⟨fun idle => by rw [step_core, issueCore_idle on live idle], fun lt hn before ctx rot => ?_,
    fun m i => runMember_one m i s2, fun m is i t h => runMember_append h i, fun m ms is t h => runMembers_append h m⟩
  have ends : ∀ {o : Out}, issueBundle r core n = some o → ∀ t, o = .next t → step s = Heard s (.next (t.setCore core { t.core core with curCtx := n })) := by
    rintro o h t rfl
    rw [step_core, issueCore_first on live lt hn before h]
  exact ⟨fun all => ends (issueBundle_pass ctx rot all), fun busy e got => ends (issueBundle_fetchFault ctx rot busy got),
    fun busy got => ⟨fun e hit stop => ends (issueBundle_fault ctx rot busy got hit stop),
      fun e hit stop => ends (issueBundle_watchStop ctx rot busy got hit stop),
      fun e hit code t trap => ends (issueBundle_illegal ctx rot busy got hit code trap),
      fun hit code => ⟨issueBundle_held ctx rot busy got hit code, fun free =>
        ⟨fun m e first => ends (issueBundle_checkFault ctx rot busy got hit code free first),
          fun first t run => ends (issueBundle_runs ctx rot busy got hit code free first run)⟩⟩⟩⟩

/-- Settles O60: waves, tile sequencers, and command processors and events. -/
theorem stepRunsWhatItReads : Obligations.StepRunsWhatItReads := ⟨stepRunsWave, stepRunsBundle, stepRunsRest⟩

end Sys2Proof.Machine
end


section
/-! PROOFS. From a lane's index to its physical bytes (R130, R132, R140, R248 to R260). -/

namespace Sys2Proof.Machine

open Sys2Proof.Claim

/-! ### Places of elements (R132) -/

/-- The address of an element, once it is known which element it is: it must lie within the address space and be aligned. -/
def placeAt (a sz : Nat) : Except LaneFault (Option Nat) :=
  if 2 ^ 57 < a + sz then .error { kind := 0x11, reason := 2, addr := a % 2 ^ 64 }
  else if a % sz ≠ 0 then .error { kind := 0x11, reason := 3, addr := a % 2 ^ 64 }
  else .ok (some a)

theorem placeAt_answers (a sz : Nat) (pos : 0 < sz) :
    (a + sz ≤ 2 ^ 57 → a % sz = 0 → placeAt a sz = .ok (some a)) ∧
      (2 ^ 57 < a + sz → ∃ f, placeAt a sz = .error f ∧ f.kind = 0x11 ∧ f.reason = 2) ∧
      (a + sz ≤ 2 ^ 57 → a % sz ≠ 0 → placeAt a sz = .error { kind := 0x11, reason := 3, addr := a }) := by
  unfold placeAt
  refine ⟨fun h h' => ?_, fun h => ?_, fun h h' => ?_⟩
  · rw [if_neg (by omega), if_neg (by simpa using h')]
  · rw [if_pos h]
    exact ⟨_, rfl, rfl, rfl⟩
  · rw [if_neg (by omega), if_pos h', Nat.mod_eq_of_lt (by omega)]

/-- The address of element `e` of a record. -/
def elemAddr (r : BufRec) (e : Nat) : Nat := r.base + swizzle r.swz (if r.stride = 0 then e else e * r.stride)

/-- The first element past the last that lies within the limit. -/
def elemLimit (r : BufRec) (sz : Nat) : Int := if r.stride = 0 then (r.extent : Int) - sz + 1 else r.extent

theorem place_eq (r : BufRec) (e : Int) (sz : Nat) :
    place r e sz =
      if 0 ≤ e ∧ e < elemLimit r sz then placeAt (elemAddr r e.toNat) sz
      else if r.pol = 0 ∨ elemLimit r sz ≤ 0 then .ok none
      else if r.pol = 1 then .error { kind := 0x10, reason := 1, addr := wrap ((r.base : Int) + (if r.stride = 0 then e else e * r.stride)) 64 }
      else
        let c := if e < 0 then 0 else (elemLimit r sz - 1).toNat
        placeAt (elemAddr r (if r.stride = 0 then c - c % sz else c)) sz := by
  by_cases raw : r.stride = 0
  · simp only [place, elemLimit, placeAt, elemAddr, raw, decide_true, if_true]
  · simp only [place, elemLimit, placeAt, elemAddr, raw, decide_false, Bool.false_eq_true, if_false]

/-- Outside the limit under policy 2, the nearest element. -/
theorem place_nearest {r : BufRec} {e : Int} {sz : Nat} (out : ¬(0 ≤ e ∧ e < elemLimit r sz)) (pol : r.pol = 2) (some : 0 < elemLimit r sz) :
    place r e sz = placeAt (elemAddr r (if r.stride = 0 then
        (if e < 0 then 0 else (elemLimit r sz - 1).toNat) - (if e < 0 then 0 else (elemLimit r sz - 1).toNat) % sz
      else if e < 0 then 0 else (elemLimit r sz - 1).toNat)) sz := by
  rw [place_eq, if_neg out, if_neg (by omega), if_neg (by omega)]

theorem swizzle_zero (o : Nat) : swizzle 0 o = o := rfl

/-- R132: the bits that a swizzle changes. -/
theorem testBit_swizzle {m : Nat} (hm : 1 ≤ m) (o i : Nat) :
    (swizzle m o).testBit i = if 4 ≤ i ∧ i ≤ 6 then o.testBit i ^^ o.testBit (i + 3 * m) else o.testBit i := by
  rw [swizzle, if_neg (by omega), Nat.testBit_xor, Nat.mul_comm, (by rfl : 16 = 2 ^ 4), Nat.testBit_two_pow_mul, testBit_bits]
  by_cases h : 4 ≤ i ∧ i ≤ 6
  · rw [if_pos h, decide_eq_true h.1, decide_eq_true (by omega), Bool.true_and, Bool.true_and]
    congr 2
    omega
  · rw [if_neg h]
    by_cases low : 4 ≤ i
    · rw [decide_eq_false (by omega : ¬i - 4 < 6 + 3 * m - (4 + 3 * m) + 1), Bool.false_and, Bool.and_false, Bool.xor_false]
    · rw [decide_eq_false low, Bool.false_and, Bool.xor_false]

/-- R130, R132: where an element lies. -/
theorem elementPlacement : Claim.Placement := by
  intro r e sz pos
  have limit : elemLimit r sz = if r.stride = 0 then (r.extent : Int) - sz + 1 else r.extent := rfl
  refine ⟨fun h0 h1 => ?_, fun out => ?_, swizzle_zero, fun m o i hm => testBit_swizzle hm o i⟩
  · rw [place_eq, if_pos ⟨h0, h1⟩]
    exact placeAt_answers _ sz pos
  have out' : ¬(0 ≤ e ∧ e < elemLimit r sz) := fun h => by
    rcases out with h' | h'
    · omega
    · exact absurd h.2 (not_lt_of_ge h')
  refine ⟨fun h => ?_, fun pol some => ?_, fun pol some raw neg => ?_, fun pol some raw neg => ?_, fun pol some raw past => ?_,
    fun pol some raw past => ?_⟩
  · have none : r.pol = 0 ∨ elemLimit r sz ≤ 0 := h
    rw [place_eq, if_neg out', if_pos none]
  · have some : ¬(r.pol = 0 ∨ elemLimit r sz ≤ 0) := not_or.2 ⟨by omega, not_le_of_gt some⟩
    rw [place_eq, if_neg out', if_neg some, if_pos pol]
    exact ⟨_, rfl, rfl, rfl⟩
  · rw [place_nearest out' pol some, if_pos raw, if_pos neg, Nat.zero_mod]
    exact placeAt_answers _ sz pos
  · rw [place_nearest out' pol some, if_neg raw, if_pos neg]
    exact placeAt_answers _ sz pos
  · have : ¬e < 0 := by
      rw [if_neg raw] at past some; omega
    rw [place_nearest out' pol some, if_neg raw, if_neg this, limit, if_neg raw, (by omega : ((r.extent : Int) - 1).toNat = r.extent - 1)]
    exact placeAt_answers _ sz pos
  · have : ¬e < 0 := by
      rw [if_pos raw] at past some; omega
    have last : ((r.extent : Int) - sz + 1 - 1).toNat = r.extent - sz := by omega
    rw [place_nearest out' pol some, if_pos raw, if_neg this, limit, if_pos raw, last]
    exact placeAt_answers _ sz pos

end Sys2Proof.Machine
end

section
namespace Sys2Proof.Machine

open Sys2Proof.Claim

/-! ### Lanes without an address (R140) -/

/-- A failing lane, with why it has no address. -/
def failing {α : Type} (p : Nat × Except LaneFault α) : Option (Nat × LaneFault) :=
  match p.2 with
  | .error f => some (p.1, f)
  | .ok _ => none

/-- Whether a lane fails. -/
def isError {ε α : Type} : Except ε α → Bool
  | .error _ => true
  | .ok _ => false

theorem lanesOf_sorted (m : Word) : (lanesOf m).Pairwise (· < ·) := List.Pairwise.filter _ List.pairwise_lt_range

/-- The lowest lane that fails comes first. -/
theorem head_failing {α : Type} {m : Word} {at_ : Nat → Except LaneFault α} {l : Nat} {f : LaneFault} (hl : l ∈ lanesOf m)
    (fails : at_ l = .error f) (lowest : ∀ j, j < l → j ∈ lanesOf m → isError (at_ j) = false) :
    (((lanesOf m).map fun l => (l, at_ l)).filterMap failing).head? = some (l, f) := by
  obtain ⟨before, after, split⟩ := List.append_of_mem hl
  have sorted := lanesOf_sorted m
  rw [split, List.pairwise_append] at sorted
  rw [List.filterMap_map, List.head?_filterMap, split, List.findSome?_append, List.findSome?_eq_none_iff.2 fun j hj => ?_, Option.none_or,
    List.findSome?_cons]
  · simp only [Function.comp, failing, fails]
  · have ok := lowest j (sorted.2.2 j hj l (List.mem_cons_self ..)) (split ▸ List.mem_append_left _ hj)
    simp only [Function.comp, failing]
    cases h : at_ j with
    | error e => rw [h, isError] at ok; cases ok
    | ok v => rfl

theorem map_failing {α : Type} (ls : List Nat) (at_ : Nat → Except LaneFault α) :
    ((ls.map fun l => (l, at_ l)).filterMap failing).map (·.1) = ls.filter fun l => isError (at_ l) := by
  induction ls with
  | nil => rfl
  | cons l ls ih =>
    rw [List.map_cons, List.filterMap_cons, List.filter_cons]
    cases h : at_ l with
    | error e => simp only [failing, isError, List.map_cons, ih, if_true]
    | ok v => simp only [failing, isError, ih, Bool.false_eq_true, if_false]

/-- R140: the report of an access of which some lane fails, by its first one. -/
theorem gather_failing {α : Type} {lanes : List (Nat × Except LaneFault α)} {l : Nat} {f : LaneFault} {rest : List (Nat × LaneFault)}
    (bad : lanes.filterMap failing = (l, f) :: rest) :
    gather lanes true 0 = .error
      { kind := f.kind, level := 0, lane := if true && !(f.kind = 0x11 && f.reason = 1) then some l else none, addr := f.addr,
        detail := f.reason + (if true then (maskOf ((lanes.filterMap failing).map (·.1))).toNat * 2 ^ 32 else 0) } := by
  have unfolded : gather lanes true 0 = (match lanes.filterMap failing with
      | [] => .ok (lanes.filterMap fun p => match p.2 with | .ok a => some (p.1, a) | .error _ => none)
      | (l, f) :: _ => .error
        { kind := f.kind, level := 0, lane := if true && !(f.kind = 0x11 && f.reason = 1) then some l else none, addr := f.addr,
          detail := f.reason + (if true then (maskOf ((lanes.filterMap failing).map (·.1))).toNat * 2 ^ 32 else 0) }) := rfl
  rw [unfolded, bad]

/-- What an access reports whose lowest failing lane is `l`. -/
theorem gather_error {α : Type} {m : Word} {at_ : Nat → Except LaneFault α} {l : Nat} {f : LaneFault} (hl : l ∈ lanesOf m)
    (fails : at_ l = .error f) (lowest : ∀ j, j < l → j ∈ lanesOf m → isError (at_ j) = false) :
    gather ((lanesOf m).map fun l => (l, at_ l)) true 0 = .error
      { kind := f.kind, lane := if f.kind = 0x11 ∧ f.reason = 1 then none else some l, addr := f.addr,
        detail := f.reason + (maskOf ((lanesOf m).filter fun j => isError (at_ j))).toNat * 2 ^ 32 } := by
  obtain ⟨rest, bad⟩ := List.head?_eq_some_iff.1 (head_failing hl fails lowest)
  rw [gather_failing bad, map_failing (lanesOf m) at_]
  by_cases h : f.kind = 0x11 ∧ f.reason = 1
  · simp [h]
  · have named : (decide (f.kind = 17) && decide (f.reason = 1)) = false := by simpa using h
    simp [h, named]

/-- No element's fault is that of a watchpoint. -/
theorem place_error_kind {r : BufRec} {e : Int} {sz : Nat} {f : LaneFault} (h : place r e sz = .error f) : f.kind ≠ 0x71 := by
  have placed : ∀ a, placeAt a sz = .error f → f.kind ≠ 0x71 := fun a ha => by
    unfold placeAt at ha
    split at ha
    · cases ha; exact (by decide : (0x11 : Nat) ≠ 0x71)
    · split at ha <;> cases ha
      exact (by decide : (0x11 : Nat) ≠ 0x71)
  rw [place_eq] at h
  split at h
  · exact placed _ h
  · split at h
    · cases h
    · split at h
      · cases h; exact (by decide : (0x10 : Nat) ≠ 0x71)
      · exact placed _ h

theorem refuseAt_trap {s : State} {k : Nat} {w : Wave} {fr : Frag} {e : Exc} (h : e.kind ≠ 0x71) : refuseAt s k w fr e = takeTrap s k w fr e := by
  rw [refuseAt, decide_eq_false h, Bool.false_and, if_neg Bool.false_ne_true]

/-- R140: an access is refused by its lanes before anything is translated. -/
theorem acceptRec_refused {s : State} {w : Wave} {fr : Frag} {x sz : Nat} {ls : List Nat} {idx : Nat → Int} {acc seen : Acc} {lv eng : Bool}
    {post : List LaneAddr → Option Exc} {r : BufRec} {e : Exc} (record : checkRecord x = .ok r)
    (refused : gather (ls.map fun l => (l, place r (idx l) sz)) lv 0 = .error e) : acceptRec s w fr x ls idx sz acc seen lv eng post = (s, .error e) := by
  simp only [acceptRec, record, refused]

/-- A load that is refused traps. `acceptRec` is made opaque first, so that the kernel does not evaluate it where it compares the two forms. -/
theorem globalLoad_refused {s s1 : State} {k : Nat} {w : Wave} {fr : Frag} {ctr : Ctr} {op len : Nat} {t : Ty} {cnt ch d b : Nat} {m : Word} {lv : Bool}
    {idx : Nat → Int} {e : Exc} (fresh : w.spEntry fr = none)
    (refused : acceptRec s w fr (rdRecord s w 2 b) (lanesOf m) idx (memBytes t * 2 ^ cnt) .read .read lv false (fun _ => none) = (s1, .error e)) :
    globalLoad s k w fr ctr op len t cnt ch d b m lv idx = refuseAt s1 k w fr e := by
  have unfolded : @globalLoad = @globalLoad := rfl
  conv at unfolded => rhs; delta globalLoad
  obtain ⟨accept, opaque_⟩ : ∃ f, f = @acceptRec := ⟨_, rfl⟩
  rw [← opaque_] at unfolded refused
  simp only [unfolded, fresh, refused]

/-- A store that is refused traps. -/
theorem globalStore_refused {s s1 : State} {k : Nat} {w : Wave} {fr : Frag} {ctr : Ctr} {op len : Nat} {t : Ty} {cnt ch b : Nat} {m : Word} {lv : Bool}
    {idx : Nat → Int} {reg : Nat → Nat → Word} {e : Exc}
    (refused : acceptRec s w fr (rdRecord s w 2 b) (lanesOf m) idx (memBytes t * 2 ^ cnt) .write .write lv false (fun _ => none) = (s1, .error e)) :
    globalStore s k w fr ctr op len t cnt ch b m lv idx reg = refuseAt s1 k w fr e := by
  have unfolded : @globalStore = @globalStore := rfl
  conv at unfolded => rhs; delta globalStore
  obtain ⟨accept, opaque_⟩ : ∃ f, f = @acceptRec := ⟨_, rfl⟩
  rw [← opaque_] at unfolded refused
  simp only [unfolded, refused]

section
variable {s : State} {k : Nat} {w : Wave} {fr : Frag} (hi : Issues s k w fr)
include hi

theorem exec_vld (g : Guard) (t : Ty) (cnt ch b : Nat) (d a : VOp) (off : Option Word) :
    exec (.vld g t cnt ch d b a off) s = .next (globalLoad s k w fr .lc 0x200 (lenOf off) t cnt ch (VOp.field d) b (sel s w fr g) true
      fun l => elemIndex (rdV s w 1 a l) off) :=
  onFrag_next hi.1 hi.2.1 hi.2.2 _

theorem exec_vst (g : Guard) (t : Ty) (cnt ch b : Nat) (d a : VOp) (off : Option Word) :
    exec (.vst g t cnt ch d b a off) s = .next (globalStore s k w fr .sc 0x201 (lenOf off) t cnt ch b (sel s w fr g) true
      (fun l => elemIndex (rdV s w 1 a l) off) fun l j => dataReg s w d cnt l j) :=
  onFrag_next hi.1 hi.2.1 hi.2.2 _

end

/-- R22, R140: the report of a vector access whose lowest failing lane has no address. -/
theorem lowestLaneFaults : Claim.LaneFaults := by
  intro s k w fr hi noEntry g t cnt ch b d a off r l f m n at_ bad record picked fails lowest e
  have lanes : ∀ j, j ∈ lanesOf m ↔ Picked s w fr g j := fun j => by
    rw [mem_lanesOf, getLsbD_sel_picked]
    exact ⟨fun h => h.2, fun h => ⟨h.1, h⟩⟩
  have mask : bad = maskOf ((lanesOf m).filter fun j => isError (at_ j)) :=
    congrArg maskOf (List.filter_congr fun j _ => by cases at_ j <;> rfl)
  have refused : gather ((lanesOf m).map fun l => (l, at_ l)) true 0 = .error e := by
    refine (gather_error ((lanes l).2 picked) fails fun j hj hm => ?_).trans ?_
    · obtain ⟨x, hx⟩ := lowest j hj ((lanes j).1 hm)
      rw [hx, isError]
    · rw [← mask]
  have trap : refuseAt s k w fr e = takeTrap s k w fr e := refuseAt_trap (place_error_kind fails)
  clear_value e
  have accepted : ∀ acc : Acc, acceptRec s w fr (rdRecord s w 2 b) (lanesOf (sel s w fr g)) (fun l => elemIndex (rdV s w 1 a l) off)
      (memBytes t * 2 ^ cnt) acc acc true false (fun _ => none) = (s, .error e) := fun _ => acceptRec_refused record refused
  rw [exec_vld hi, exec_vst hi, globalLoad_refused noEntry (accepted .read), globalStore_refused (accepted .write), trap]
  exact ⟨rfl, rfl⟩

end Sys2Proof.Machine
end

section
namespace Sys2Proof.Machine

open Sys2Proof.Claim

/-! ### What a translation changes -/

/-- `z` is `s` but for the cached translations, the request counters and the L2s' contents. -/
def OnlyCaches (s z : State) : Prop := ∃ tlb counters l2, z = { s with tlb, counters, l2 }

theorem OnlyCaches.refl (s : State) : OnlyCaches s s := ⟨_, _, _, rfl⟩

theorem OnlyCaches.trans {s u z : State} (h : OnlyCaches s u) (h' : OnlyCaches u z) : OnlyCaches s z := by
  obtain ⟨_, _, _, rfl⟩ := h
  obtain ⟨_, _, _, rfl⟩ := h'
  exact ⟨_, _, _, rfl⟩

theorem OnlyCaches.eq {s z : State} (h : OnlyCaches s z) : z = { s with tlb := z.tlb, counters := z.counters, l2 := z.l2 } := by
  obtain ⟨_, _, _, rfl⟩ := h
  rfl

theorem onlyCaches_fillTlb (s : State) (t : Tlb) : OnlyCaches s (s.fillTlb t) := ⟨_, _, _, rfl⟩

theorem onlyCaches_count (s : State) (die : Nat) (f : Counters → Counters) : OnlyCaches s (s.count die f) := ⟨_, _, _, rfl⟩

theorem onlyCaches_fillL2 (s : State) (line : Nat) : OnlyCaches s (s.fillL2 line) := by
  simp only [State.fillL2]
  split
  · exact .refl s
  · exact ⟨_, _, _, rfl⟩

theorem onlyCaches_useTlb (s : State) (t : Tlb) : OnlyCaches s (s.useTlb t) := by
  rw [State.useTlb]
  split
  · exact .refl s
  · exact ⟨_, _, _, rfl⟩

theorem onlyCaches_fillLeaf (s : State) (w : Walker) (va level : Nat) (entry : DWord) (walked : Bool) :
    OnlyCaches s (s.fillLeaf w va level entry walked) := by
  simp only [State.fillLeaf]
  have l1 : ∀ o : Option Nat, OnlyCaches s (match o with
      | some n => s.fillTlb { place := .l1 w.core n, asid := w.asid, level, vpn := levelVpn level va, entry }
      | none => s) := fun o => by
    cases o
    · exact .refl s
    · exact onlyCaches_fillTlb s _
  split
  · exact (l1 (s.l1Set w level va)).trans (onlyCaches_fillTlb _ _)
  · exact l1 (s.l1Set w level va)

theorem onlyCaches_foldl {α : Type} {f : State → α → State} (step : ∀ s x, OnlyCaches s (f s x)) (l : List α) (s : State) :
    OnlyCaches s (l.foldl f s) := by
  induction l generalizing s with
  | nil => exact .refl s
  | cons x l ih => exact (step s x).trans (ih _)

theorem onlyCaches_walked (s : State) (w : Walker) (va : Nat) (seen : List Seen) : OnlyCaches s (s.walked w va seen) := by
  refine onlyCaches_foldl (fun s x => ?_) seen s
  split
  · exact onlyCaches_useTlb s _
  · have read : OnlyCaches s ((s.count (homeDie x.key) fun n => { n with walk := n.walk + 1 }).fillL2 (x.key / 128)) :=
      (onlyCaches_count s _ _).trans (onlyCaches_fillL2 _ _)
    split
    · exact read
    · split
      · exact read.trans (onlyCaches_fillLeaf _ _ _ _ _ _)
      · exact read.trans (onlyCaches_fillTlb _ _)

theorem onlyCaches_lookup (s : State) (w : Walker) (va : Nat) : OnlyCaches s (s.lookup w va).1 := by
  unfold State.lookup
  split
  · refine OnlyCaches.trans ?_ (onlyCaches_useTlb _ _)
    split
    · exact .refl s
    · exact onlyCaches_fillLeaf _ _ _ _ _ _
    · exact .refl s
  · exact onlyCaches_walked s w va _

/-! ### Fields of page entries (R249) -/

theorem bits_eq_fld {e hi lo : Nat} (h : lo ≤ hi) : bits e hi lo = fld e hi lo := by
  rw [bits, fld, Nat.shiftRight_eq_div_pow, Nat.sub_add_comm h]

theorem bit_eq_fld (e n : Nat) : bit e n = decide (fld e n n = 1) := by
  rw [bit, fld, Nat.shiftRight_eq_div_pow, Nat.add_sub_cancel_left]
  rfl

theorem fld_one_lt (e n : Nat) : fld e n n < 2 := by
  rw [fld, Nat.add_sub_cancel_left]
  exact Nat.mod_lt _ (by decide)

theorem bit_eq_true_iff {e n : Nat} : bit e n = true ↔ fld e n n = 1 := by rw [bit_eq_fld, decide_eq_true_eq]

theorem bit_eq_false_iff {e n : Nat} : bit e n = false ↔ fld e n n = 0 := by
  have := fld_one_lt e n
  rw [bit_eq_fld, decide_eq_false_iff_not]
  omega

/-- R248: the pages' and the tables' sizes. -/
theorem leafSize_eq : ∀ l < 3, leafSize l = 2 ^ (levelAt l).1 := by decide

theorem tableSize_eq : ∀ l < 5, tableSize (l - 1) = 8 * (levelAt (l - 1)).2 := by decide

/-- R248: the index bits of a level. -/
theorem index_eq {l : Nat} (hl : l ≤ 4) (v : Nat) : bits v (levelBits l).1 (levelBits l).2 = v / 2 ^ (levelAt l).1 % (levelAt l).2 := by
  interval_cases l <;> simp [bits, levelBits, levelAt, Nat.shiftRight_eq_div_pow]

theorem badEntry_iff {l : Nat} (hl : l ≤ 4) (e : Nat) : badEntry l e = true ↔ Malformed l e := by
  have table := tableSize_eq l (by omega)
  have leaf : fld e 4 4 = 1 ∨ fld e 4 4 = 0 := by have := fld_one_lt e 4; omega
  simp only [badEntry, Malformed, bits_eq_fld (by decide : 60 ≤ 63), bits_eq_fld (by decide : 52 ≤ 55), bits_eq_fld (by decide : 5 ≤ 7),
    bits_eq_fld (by decide : 8 ≤ 51), bits_eq_fld (by decide : 57 ≤ 59), bits_eq_fld (by decide : 1 ≤ 3), bit_eq_fld, table]
  rcases leaf with h | h
  · by_cases high : 3 ≤ l
    · simp [h, high]
    · have size := leafSize_eq l (by omega)
      have codes : ∀ n : Nat, (1 ≤ n ∧ n ≤ 3) ↔ n ∈ [1, 2, 3] := fun n => by simp; omega
      simp only [h, size, high, decide_true, decide_false, Bool.true_and, Bool.not_true, Bool.false_and, Bool.or_false, if_true, Bool.or_eq_true,
        Bool.and_eq_true, decide_eq_true_eq, codes, true_and, false_or, Nat.one_ne_zero, false_and, or_false, or_assoc]
  · simp only [h, Nat.zero_ne_one, decide_false, Bool.false_and, Bool.not_false, Bool.true_and, Bool.or_false, Bool.false_eq_true, if_false, Bool.or_eq_true,
      decide_eq_true_eq, false_and, true_and, false_or, or_assoc]

theorem badFrame_iff (s : State) (e : Nat) : s.badFrame e = true ↔ FrameBad s e := by
  have code : fld e 59 57 % 4 = fld e 58 57 := by simp only [fld]; omega
  simp only [State.badFrame, FrameBad, bits_eq_fld (by decide : 8 ≤ 51), bits_eq_fld (by decide : 57 ≤ 59), bits_eq_fld (by decide : 40 ≤ 50),
    bits_eq_fld (by decide : 37 ≤ 38), bit_eq_fld, isWindow, code]
  by_cases window : 2 ^ 51 ≤ fld e 51 8 * 256
  · simp only [window, decide_true, if_true, Bool.or_eq_true, decide_eq_true_eq, Bool.not_eq_true', or_assoc]
  · simp only [window, decide_false, Bool.false_eq_true, if_false, Bool.or_eq_true, Bool.and_eq_true, decide_eq_true_eq]

theorem leafOf_bad {s : State} {l e v : Nat} (bad : FrameBad s e) : s.leafOf l e v = .error { kind := 0x13, reason := 4, lvl := l } := by
  rw [State.leafOf, if_pos ((badFrame_iff s e).2 bad)]

theorem leafOf_good {s : State} {l e v : Nat} (hl : l < 3) (good : ¬FrameBad s e) : s.leafOf l e v = .ok (leafAt l e v) := by
  rw [State.leafOf, if_neg fun h => good ((badFrame_iff s e).1 h), leafAt, leafSize_eq l hl]
  simp only [bits_eq_fld (by decide : 8 ≤ 51), bits_eq_fld (by decide : 57 ≤ 59), bit_eq_fld]

/-! ### Walks -/

/-- One level of a walk. -/
theorem walk_succ (s : State) (w : Walker) (v plc fuel l base : Nat) :
    (s.walk w v plc (fuel + 1) l base).1 =
      let e := (s.pte w l v (base + 8 * bits v (levelBits l).1 (levelBits l).2) plc).1
      if !bit e 0 then .error { kind := 0x12, reason := 1, lvl := l }
      else if badEntry l e then .error { kind := 0x13, reason := 4, lvl := l }
      else if bit e 4 then s.leafOf l e v
      else (s.walk w v plc fuel (l - 1) (bits e 51 8 * 256)).1 := by
  rw [State.walk]
  obtain ⟨e, hit⟩ := s.pte w l v (base + 8 * bits v (levelBits l).1 (levelBits l).2) plc
  simp only
  split
  · rfl
  · split
    · rfl
    · split <;> rfl

section
variable {s : State} {w : Walker} {v plc fuel l base addr : Nat} (hl : l ≤ 4)
  (place : base + 8 * (v / 2 ^ (levelAt l).1 % (levelAt l).2) = addr)
include hl place

theorem walk_invalid (absent : fld (s.pte w l v addr plc).1 0 0 = 0) :
    (s.walk w v plc (fuel + 1) l base).1 = .error { kind := 0x12, reason := 1, lvl := l } := by
  rw [walk_succ, index_eq hl, place]
  simp only [bit_eq_false_iff.2 absent, Bool.not_false, if_true]

variable (valid : fld (s.pte w l v addr plc).1 0 0 = 1)
include valid

theorem walk_malformed (bad : Malformed l (s.pte w l v addr plc).1) :
    (s.walk w v plc (fuel + 1) l base).1 = .error { kind := 0x13, reason := 4, lvl := l } := by
  rw [walk_succ, index_eq hl, place]
  simp only [bit_eq_true_iff.2 valid, (badEntry_iff hl _).2 bad, Bool.not_true, Bool.false_eq_true, if_false, if_true]

variable (good : ¬Malformed l (s.pte w l v addr plc).1)
include good

theorem walk_leaf (leaf : fld (s.pte w l v addr plc).1 4 4 = 1) :
    (s.walk w v plc (fuel + 1) l base).1 = s.leafOf l (s.pte w l v addr plc).1 v := by
  rw [walk_succ, index_eq hl, place]
  simp only [bit_eq_true_iff.2 valid, mt (badEntry_iff hl _).1 good, bit_eq_true_iff.2 leaf, Bool.not_true, Bool.false_eq_true, if_false, if_true]

theorem walk_table (table : fld (s.pte w l v addr plc).1 4 4 = 0) :
    (s.walk w v plc (fuel + 1) l base).1 = (s.walk w v plc fuel (l - 1) (fld (s.pte w l v addr plc).1 51 8 * 256)).1 := by
  rw [walk_succ, index_eq hl, place]
  simp only [bit_eq_true_iff.2 valid, mt (badEntry_iff hl _).1 good, bit_eq_false_iff.2 table, Bool.not_true, Bool.false_eq_true, if_false,
    bits_eq_fld (by decide : 8 ≤ 51)]

end

/-- A leaf at level 3 or above is malformed (R249). -/
theorem level_lt_of_leaf {l e : Nat} (good : ¬Malformed l e) (leaf : fld e 4 4 = 1) : l < 3 :=
  Nat.lt_of_not_le fun high => good (.inr (.inr (.inr (.inl ⟨leaf, .inl high⟩))))

/-- R257, R258: the entry that a walk finds is the one in H, or a walk cache's. -/
theorem pte_source (s : State) (w : Walker) (l v addr plc : Nat) :
    (s.pte w l v addr plc).1 = ofBytes (s.rdHs (keyOf plc addr) 8) ∨
      ∃ t ∈ s.tlb, t.level = l ∧ fld t.entry.toNat 4 4 = 0 ∧ s.fits w v t = true ∧ (s.pte w l v addr plc).1 = t.entry.toNat := by
  rw [State.pte]
  split
  next t found =>
    obtain ⟨mem, test⟩ := List.mem_filter.1 (Tlb.best_mem found)
    simp only [Bool.and_eq_true, Bool.not_eq_true', decide_eq_true_eq, bit_eq_false_iff] at test
    obtain ⟨⟨⟨table, level⟩, fits⟩, -⟩ := test
    exact .inr ⟨t, mem, level, table, fits, rfl⟩
  next => exact .inl rfl

/-- With no cached copy the entry is the one in H. -/
theorem pte_uncached {s : State} {w : Walker} {l v addr plc : Nat}
    (none : ∀ t ∈ s.tlb, t.level = l → fld t.entry.toNat 4 4 = 0 → s.fits w v t = false) :
    (s.pte w l v addr plc).1 = ofBytes (s.rdHs (keyOf plc addr) 8) := by
  rcases pte_source s w l v addr plc with h | ⟨t, mem, level, table, fits, -⟩
  · exact h
  · rw [none t mem level table] at fits
    cases fits

theorem heldLeaf_spec {s : State} {w : Walker} {v : Nat} {t : Tlb} (h : s.heldLeaf w v = some t) :
    t ∈ s.tlb ∧ s.fits w v t = true ∧ fld t.entry.toNat 4 4 = 1 := by
  obtain ⟨mem, test⟩ := List.mem_filter.1 (Tlb.best_mem h)
  simp only [Bool.and_eq_true, bit_eq_true_iff] at test
  obtain ⟨⟨leaf, fits⟩, -⟩ := test
  exact ⟨mem, fits, leaf⟩

theorem lookup_held {s : State} {w : Walker} {v : Nat} {t : Tlb} (h : s.heldLeaf w v = some t) :
    (s.lookup w v).2 = (s.leafOf t.level t.entry.toNat v).map fun f => (f, t.level) := by
  simp only [State.lookup, h]

theorem lookup_walked {s : State} {w : Walker} {v : Nat} (h : s.heldLeaf w v = none) :
    (s.lookup w v).2.map (·.1) = (s.walk w v (kget {} s.asids w.asid).tplc 5 4 (kget {} s.asids w.asid).root).1 := by
  simp only [State.lookup, h]
  cases (s.walk w v (kget {} s.asids w.asid).tplc 5 4 (kget {} s.asids w.asid).root).1 <;> rfl

/-! ### Translations (R259, R260) -/

/-- DETAIL of a translation fault (R260). -/
def faultDetail (acc : Acc) (eng : Bool) (reason lvl : Nat) : Nat := reason + 16 * lvl + 128 * acc.code + (if eng then 512 else 0)

theorem translate_unbound {s : State} {w : Walker} (va : Nat) (acc : Acc) (eng : Bool) (h : (kget {} s.asids w.asid).st ≠ .bound) :
    s.translate w va acc eng = (s, .error (0x12, faultDetail acc eng 1 4)) := by
  rw [State.translate]
  exact if_pos h

theorem translate_fst {s : State} {w : Walker} (va : Nat) (acc : Acc) (eng : Bool) (h : (kget {} s.asids w.asid).st = .bound) :
    (s.translate w va acc eng).1 = (s.lookup w (va % 2 ^ 57)).1 := by
  rw [State.translate, if_neg (by rw [h]; decide)]
  obtain ⟨z, r⟩ := s.lookup w (va % 2 ^ 57)
  rcases r with f | ⟨l, lvl⟩
  · rfl
  · simp only
    split <;> rfl

/-- R248 to R260: only cached translations, the L2s' contents and walk counts change. -/
theorem onlyCaches_translate (s : State) (w : Walker) (va : Nat) (acc : Acc) (eng : Bool) : OnlyCaches s (s.translate w va acc eng).1 := by
  by_cases h : (kget {} s.asids w.asid).st = .bound
  · rw [translate_fst va acc eng h]
    exact onlyCaches_lookup s w _
  · rw [translate_unbound va acc eng h]
    exact .refl s

section
variable {s : State} {w : Walker} {va : Nat} {acc : Acc} (eng : Bool) (bound : (kget {} s.asids w.asid).st = .bound)
include bound

theorem translate_fault {f : WalkFault} (look : (s.lookup w (va % 2 ^ 57)).2 = .error f) :
    (s.translate w va acc eng).2 = .error (f.kind, faultDetail acc eng f.reason f.lvl) := by
  rw [State.translate, if_neg (by rw [bound]; decide)]
  generalize s.lookup w (va % 2 ^ 57) = p at look ⊢
  obtain ⟨z, r⟩ := p
  cases look
  rfl

variable {l : Leaf} {n : Nat} (look : (s.lookup w (va % 2 ^ 57)).2 = .ok (l, n))
include look

theorem translate_allowed (allowed : l.denied acc = none) : (s.translate w va acc eng).2 = .ok l := by
  rw [State.translate, if_neg (by rw [bound]; decide)]
  generalize s.lookup w (va % 2 ^ 57) = p at look ⊢
  obtain ⟨z, r⟩ := p
  cases look
  simp only [allowed]

/-- R260: a missing permission names the level of the leaf, and an atomic in a window none. -/
theorem translate_denied {reason : Nat} (denied : l.denied acc = some reason) :
    (s.translate w va acc eng).2 = .error (0x13, faultDetail acc eng reason (if reason = 5 then 0 else n)) := by
  rw [State.translate, if_neg (by rw [bound]; decide)]
  generalize s.lookup w (va % 2 ^ 57) = p at look ⊢
  obtain ⟨z, r⟩ := p
  cases look
  simp only [denied]
  by_cases h : reason = 5
  · subst h
    rfl
  · rw [if_neg h]
    split
    next e => exact absurd (Option.some.inj e) h
    next e => cases e; rfl
    next e => cases e

end

/-- R248 to R260: how an address is translated. -/
theorem addressTranslation : Claim.Translation := by
  intro s wk va acc eng x v z r look code No
  have detail : ∀ reason lvl, reason + 16 * lvl + 128 * code + (if eng then 512 else 0) = faultDetail acc eng reason lvl := fun reason lvl => by
    cases acc <;> rfl
  refine ⟨?caches, fun unbound => ?unbound, lookup_walked, fun t held => ?held, fun fuel l base plc hl => ?level, fun bound => ⟨fun f hf => ?fault, fun l n hl => ?leaf⟩⟩
  case caches => exact (onlyCaches_translate s wk va acc eng).eq
  case unbound =>
    show (s.translate wk va acc eng).2 = _
    rw [translate_unbound va acc eng unbound, detail]
  case held =>
    obtain ⟨mem, fits, leaf⟩ := heldLeaf_spec held
    refine ⟨mem, fits, leaf, fun low => ⟨fun bad => ?_, fun good => ?_⟩⟩
    · exact (lookup_held held).trans (by rw [leafOf_bad bad]; rfl)
    · exact (lookup_held held).trans (by rw [leafOf_good (by omega) good]; rfl)
  case level =>
    intro addr e ends
    refine ⟨pte_source s wk l v addr plc, pte_uncached, walk_invalid hl rfl, fun valid bad => ?_, fun valid good =>
      ⟨fun leaf frame => ?_, walk_table hl rfl valid good⟩⟩
    · by_cases malformed : Malformed l e
      · exact walk_malformed hl rfl valid malformed
      · obtain ⟨leaf, frame⟩ := bad.resolve_left malformed
        exact (walk_leaf hl rfl valid malformed leaf).trans (leafOf_bad frame)
    · exact (walk_leaf hl rfl valid good leaf).trans (leafOf_good (level_lt_of_leaf good leaf) frame)
  case fault => exact (translate_fault eng bound hf).trans (by rw [detail])
  case leaf =>
    have ok : l.denied acc = none → r = .ok l := translate_allowed eng bound hl
    have no : ∀ {reason}, l.denied acc = some reason → No 0x13 reason (if reason = 5 then 0 else n) := fun denied =>
      (translate_denied eng bound hl denied).trans (by rw [detail])
    refine ⟨?_, ?_, ?_, ?_⟩
    · rintro rfl
      split
      next h => exact ok (if_pos h)
      next h => exact no (if_neg h)
    · rintro rfl
      split
      next h => exact ok (if_pos h)
      next h => exact no (if_neg h)
    · rintro rfl
      split
      next h => exact ok (if_pos h)
      next h => exact no (if_neg h)
    · intro atomic
      split
      next readable =>
        split
        next writable =>
          split
          next window =>
            obtain ⟨rfl, window⟩ := window
            exact no (by simp only [Leaf.denied, readable, writable, window, Bool.not_true, Bool.false_eq_true, if_false, if_true])
          next inside =>
            refine ok ?_
            rcases atomic with rfl | rfl
            · simp only [Leaf.denied, readable, writable, mt (And.intro rfl) inside, Bool.not_true, Bool.false_eq_true, if_false]
            · simp only [Leaf.denied, readable, writable, Bool.not_true, Bool.false_eq_true, if_false]
        next fixed =>
          refine no ?_
          rcases atomic with rfl | rfl <;>
            simp only [Leaf.denied, readable, fixed, Bool.not_true, Bool.not_false, Bool.false_eq_true, if_false, if_true]
      next hidden =>
        refine no ?_
        rcases atomic with rfl | rfl <;> simp only [Leaf.denied, hidden, Bool.not_false, if_true]

/-- Settles O38: places of elements, faults of lanes, and translations. -/
theorem lanePlaces : Obligations.LanePlaces := ⟨elementPlacement, lowestLaneFaults, addressTranslation⟩

end Sys2Proof.Machine
end

section
/-! PROOFS. The fused softmax sequence (R99, R100), and the tiles that it reduces over (R118, R122). -/

namespace Sys2Proof.Machine

open Sys2Proof.Claim

/-! ### Tiles (R118) -/

theorem tileSize_eq (w : Wave) : tileSize w = 32 / 2 ^ w.lpart := Nat.shiftRight_eq_div_pow 32 w.lpart

theorem tileBase_eq (z l : Nat) : tileBase z l = l / z * z := by
  have := Nat.mod_add_div' l z
  rw [tileBase]
  omega

theorem tileLength_pos {w : Wave} (parts : w.lpart ≤ 5) : 0 < 32 / 2 ^ w.lpart :=
  Nat.div_pos (Nat.pow_le_pow_right (by decide) parts : 2 ^ w.lpart ≤ 2 ^ 5) (Nat.two_pow_pos _)

/-- Two lanes whose tiles begin alike are of one tile. -/
theorem tileBase_eq_tileBase_iff {z : Nat} (pos : 0 < z) (j l : Nat) : tileBase z j = tileBase z l ↔ j / z = l / z := by
  rw [tileBase_eq, tileBase_eq, Nat.mul_left_inj pos.ne']

/-- R118: the selected lanes that the model lists for a lane's tile. -/
theorem tileQ_sel {w : Wave} (parts : w.lpart ≤ 5) (s : State) (fr : Frag) (g : Guard) (l : Nat) :
    tileQ (32 / 2 ^ w.lpart) (sel s w fr g) l = tileLanes s w fr g l := by
  simp only [tileQ, tileLanes, lanesOf, List.filter_filter, tileBase_eq_tileBase_iff (tileLength_pos parts)]
  refine List.filter_congr fun j _ => ?_
  rw [Bool.and_comm]
  rfl

theorem picked_of_mem_tileLanes {s : State} {w : Wave} {fr : Frag} {g : Guard} {l j : Nat} (h : j ∈ tileLanes s w fr g l) :
    Picked s w fr g j := by
  obtain ⟨-, selected⟩ := List.mem_filter.1 h
  exact (getLsbD_sel_picked s w fr g j).1 (Bool.and_eq_true_iff.1 selected).1

theorem mem_lanesOf_sel {s : State} {w : Wave} {fr : Frag} {g : Guard} {l : Nat} : l ∈ lanesOf (sel s w fr g) ↔ Picked s w fr g l := by
  rw [mem_lanesOf, getLsbD_sel_picked]
  exact and_iff_right_of_imp And.left

/-! ### Reductions (R122) -/

/-- A tile's reduction reads its values in the tile's selected lanes alone. -/
theorem redTile_congr (v : FEnv) (t : Ty) (op : RedOp) (z base : Nat) {q : List Nat} {x y : Nat → Word} (agree : ∀ j ∈ q, x j = y j) :
    redTile v t op z base q x = redTile v t op z base q y := by
  have fold : q.map x = q.map y := List.map_congr_left agree
  have leaf : ∀ j, (if q.contains j then some (x j) else none) = if q.contains j then some (y j) else none := fun j => by
    split
    next h => rw [agree j (List.contains_iff_mem.1 h)]
    next => rfl
  simp only [redTile, fold, leaf]

/-! ### Shared steps of the fused sequence -/

/-- R83: an f32 operation on a register is the operation on its one element. -/
theorem fWise_f32 (v : FEnv) (f : Fmt → FEnv → FVal → FVal → FVal → Nat × Word) (a b c : Word) :
    let r := f fp32 v (srcAt v .f32 a 0) (srcAt v .f32 b 0) (srcAt v .f32 c 0)
    fWise v .f32 f a b c = (BitVec.ofNat 32 r.1, r.2) := by
  have element : ∀ x, fElem .f32 x 0 = encAt .f32 x 0 := fun x => by simp [fElem, encAt]
  simp [fWise, fElems, Ty.isPair, fPut, element, srcAt, fmtOf]

/-- R99: a source in a selected lane is the maximum where it names the maximum's destination, else the register. -/
theorem fusedSrc_max {m : Word} {l : Nat} (selected : m.getLsbD l = true) (s : State) (w : Wave) (slot : Nat) (d x : VOp) (r : Nat → Word) :
    fusedSrc s w slot [(d, r)] m x l = if x = d then r l else rdV s w slot x l := by
  by_cases h : x = d
  · simp [fusedSrc, h, selected]
  · simp [fusedSrc, h, Ne.symm h]

/-- Lanes that a guard selects take the values written, every other lane of every register stays (R19, R72). -/
theorem vraw_wrV_sel (s : State) (u w : Wave) (fr : Frag) (g : Guard) (d : VOp) (f : Nat → Word) (y : Nat) {l : Nat} (hl : l < 32) :
    (Picked s w fr g l → (u.wrV d (sel s w fr g) f).vraw y l = if y = VOp.field d then f l else u.vraw y l) ∧
    (¬Picked s w fr g l → (u.wrV d (sel s w fr g) f).vraw y l = u.vraw y l) := by
  have selected := getLsbD_sel_picked s w fr g l
  rw [vraw_wrV u d _ f y l hl]
  exact ⟨fun h => by rw [selected.2 h]; simp, fun h => if_neg fun ⟨_, lane⟩ => h (selected.1 lane)⟩

/-- Marking destinations changes the instructions in flight alone. -/
theorem foldl_mark_eq (ds : List VOp) (m : Word) (due : Nat) (w : Wave) :
    ds.foldl (fun w d => w.mark (.vec (VOp.field d)) m due) w =
      { w with inflight := w.inflight ++ ds.map fun d => { reg := .vec (VOp.field d), lanes := m, due } } := by
  induction ds generalizing w with
  | nil => simp
  | cons d ds ih => rw [List.foldl_cons, ih]; simp [Wave.mark]

/-- Values that agree in the lanes of a mask are written alike. -/
theorem wrV_congr (w : Wave) (d : VOp) {m : Word} {f g : Nat → Word} (agree : ∀ l ∈ lanesOf m, f l = g l) : w.wrV d m f = w.wrV d m g := by
  rw [Wave.wrV, Wave.wrV, List.foldl_ext _ _ _ fun a l hl => by rw [agree l hl]]

/-- ORs over one list, joined. -/
theorem foldl_or_merge {α : Type} (l : List α) (x y z t : α → Word) :
    l.foldl (fun a j => a ||| y j ||| z j) (l.foldl (fun a j => a ||| x j) 0 ||| l.foldl (fun a j => a ||| t j) 0) =
      l.foldl (fun a j => a ||| (x j ||| y j ||| z j ||| t j)) 0 := by
  apply BitVec.eq_of_getLsbD_eq
  intro i _
  rw [Bool.eq_iff_iff]
  simp [BitVec.or_assoc, getLsbD_foldl_or, and_or_left, exists_or, or_assoc, or_left_comm, or_comm]

/-- The writes, marks and flags of a fused sequence, from the values of its four words and its flags (R99, R100). -/
def fusedWrite (w : Wave) (f : FusedOps) (m : Word) (due : Nat) (v1 v2 v3 v4 : Nat → Word) (fl : Word) : Wave :=
  ([f.d1, f.d2, f.d3, f.d4].foldl (fun u d => u.mark (.vec (VOp.field d)) m due)
    ((((w.wrV f.d1 m v1).wrV f.d2 m v2).wrV f.d3 m v3).wrV f.d4 m v4)).raise fl due

theorem fusedWrite_congr (w : Wave) (f : FusedOps) {m : Word} (due : Nat) {v1 v2 v3 v4 x1 x2 x3 x4 : Nat → Word} {fl flx : Word}
    (first : ∀ l ∈ lanesOf m, v1 l = x1 l) (second : ∀ l ∈ lanesOf m, v2 l = x2 l) (third : ∀ l ∈ lanesOf m, v3 l = x3 l)
    (fourth : ∀ l ∈ lanesOf m, v4 l = x4 l) (flags : fl = flx) :
    fusedWrite w f m due v1 v2 v3 v4 fl = fusedWrite w f m due x1 x2 x3 x4 flx := by
  simp only [fusedWrite, wrV_congr _ _ first, wrV_congr _ _ second, wrV_congr _ _ third, wrV_congr _ _ fourth, flags]

/-! ### What the four words give (R99) -/

section
variable (s : State) (w : Wave) (fr : Frag) (f : FusedOps)

/-- The reduction over a lane's tile that a member of the sequence makes. -/
def fusedRed (op : RedOp) (x : Nat → Word) (l : Nat) : Word × Word :=
  redTile (envOf w .mode) .f32 op (32 / 2 ^ w.lpart) (l / (32 / 2 ^ w.lpart) * (32 / 2 ^ w.lpart)) (tileLanes s w fr f.g l) x

/-- The first word's result: the tile's maximum. -/
def fusedMax : Nat → Word × Word := fusedRed s w fr f .max (inA s w f.a1)

/-- The second word's result in a lane: the difference, as an encoding. -/
def fusedDiff (l : Nat) : Nat × Word :=
  let y : Word := if f.a2 = f.d1 then (fusedMax s w fr f l).1 else inA s w f.a2 l
  fp32.sub (envOf w f.rnd2) (srcAt (envOf w f.rnd2) .f32 y 0) (srcAt (envOf w f.rnd2) .f32 (fusedMax s w fr f l).1 0)

/-- The third word's result in a lane: the exponential of the difference. -/
def fusedExp (l : Nat) : Word × Word := Sfu.exp.apply (envOf w .mode) (BitVec.ofNat 32 (fusedDiff s w fr f l).1)

/-- The fourth word's result: the tile's sum of the exponentials. -/
def fusedSum : Nat → Word × Word := fusedRed s w fr f .add fun l => (fusedExp s w fr f l).1

/-- The flags that a lane raises. -/
def fusedFlags (l : Nat) : Word :=
  (fusedMax s w fr f l).2 ||| (fusedDiff s w fr f l).2 ||| (fusedExp s w fr f l).2 ||| (fusedSum s w fr f l).2

/-- The wave once the sequence has issued, its destinations due by `due`. -/
def fusedWave (due : Nat) : Wave :=
  fusedWrite w f (sel s w fr f.g) due (fun l => (fusedMax s w fr f l).1) (fun l => BitVec.ofNat 32 (fusedDiff s w fr f l).1)
    (fun l => (fusedExp s w fr f l).1) (fun l => (fusedSum s w fr f l).1)
    ((lanesOf (sel s w fr f.g)).foldl (fun a l => a ||| fusedFlags s w fr f l) 0)

/-- R99: the destinations of a selected lane, a later word's result over an earlier one's; lanes not selected stay. -/
theorem vraw_fusedWave (due y : Nat) {l : Nat} (hl : l < 32) :
    (Picked s w fr f.g l → (fusedWave s w fr f due).vraw y l =
      if y = VOp.field f.d4 then (fusedSum s w fr f l).1 else if y = VOp.field f.d3 then (fusedExp s w fr f l).1
        else if y = VOp.field f.d2 then BitVec.ofNat 32 (fusedDiff s w fr f l).1
        else if y = VOp.field f.d1 then (fusedMax s w fr f l).1 else w.vraw y l) ∧
    (¬Picked s w fr f.g l → (fusedWave s w fr f due).vraw y l = w.vraw y l) := by
  have write := fun u d v => vraw_wrV_sel s u w fr f.g d v y hl
  simp only [fusedWave, fusedWrite, vraw_raise, foldl_mark_eq]
  refine ⟨fun picked => ?_, fun rest => ?_⟩
  · have write := fun u d v => (write u d v).1 picked
    exact (write _ f.d4 _).trans (by rw [write _ f.d3, write _ f.d2, write _ f.d1])
  · have write := fun u d v => (write u d v).2 rest
    exact (write _ f.d4 _).trans (by rw [write _ f.d3, write _ f.d2, write _ f.d1])

/-- R58: the flags of the selected lanes are raised. -/
theorem raises_fusedWave (due : Nat) :
    Raises w (fusedWave s w fr f due) due fun i => ∃ l, Picked s w fr f.g l ∧ (fusedFlags s w fr f l).getLsbD i = true := by
  refine raises_congr (raises_lanes s w fr f.g (fusedFlags s w fr f) due) ?_ ?_
  · simp only [fusedWave, fusedWrite, raise_flags, foldl_mark_eq, Wave.wrV_flags]
  · simp only [fusedWave, fusedWrite, raise_eq, foldl_mark_eq, Wave.wrV_flagPend]

/-- R72: only the vector registers, the pending flags and the instructions in flight change. -/
theorem fusedWave_eq (due : Nat) :
    fusedWave s w fr f due = { w with
      vreg := (fusedWave s w fr f due).vreg
      flagPend := (fusedWave s w fr f due).flagPend
      inflight := w.inflight ++ [f.d1, f.d2, f.d3, f.d4].map fun d => { reg := .vec (VOp.field d), lanes := sel s w fr f.g, due } } := by
  simp only [fusedWave, fusedWrite, raise_eq, foldl_mark_eq]
  rfl

/-- The second word's result as the model forms it, from sources over the landed maxima. -/
def fusedSecond (l : Nat) : Word × Word :=
  let src := fusedSrc s w 1 [(f.d1, fun l => (fusedMax s w fr f l).1)] (sel s w fr f.g)
  fWise (fenv w f.rnd2) .f32 (fun g e x y _ => g.sub e x y) (src f.a2 l) (src f.d1 l) 0

/-- R99: in each selected lane it is the difference. -/
theorem fusedSecond_picked {l : Nat} (picked : l ∈ lanesOf (sel s w fr f.g)) :
    fusedSecond s w fr f l = (BitVec.ofNat 32 (fusedDiff s w fr f l).1, (fusedDiff s w fr f l).2) := by
  simp only [fusedSecond, fWise_f32, fusedSrc_max (mem_lanesOf.1 picked).2, if_true]
  rfl

/-- The third word's result as the model forms it. -/
def fusedThird (l : Nat) : Word × Word := Sfu.exp.apply (fenv w .mode) (fusedSecond s w fr f l).1

/-- R99: in each selected lane it is the exponential of the difference. -/
theorem fusedThird_picked {l : Nat} (picked : l ∈ lanesOf (sel s w fr f.g)) : fusedThird s w fr f l = fusedExp s w fr f l := by
  rw [fusedThird, fusedSecond_picked s w fr f picked]
  rfl

/-- R122: the tiles' sums read the exponentials of selected lanes alone. -/
theorem fusedRed_fusedThird : fusedRed s w fr f .add (fun l => (fusedThird s w fr f l).1) = fusedSum s w fr f := by
  funext l
  rw [fusedSum, fusedRed, fusedRed]
  refine redTile_congr _ _ _ _ _ fun j hj => ?_
  rw [fusedThird_picked s w fr f (mem_lanesOf_sel.2 (picked_of_mem_tileLanes hj))]

variable {s w fr}

/-- R122: a reduction of the sequence gives each lane its tile's result, and ORs the flags of the tiles. -/
theorem redAll_fusedRed (parts : w.lpart ≤ 5) (op : RedOp) (x : Nat → Word) :
    redAll (fenv w .mode) .f32 op (tileSize w) (sel s w fr f.g) x =
      (fun l => (fusedRed s w fr f op x l).1, (lanesOf (sel s w fr f.g)).foldl (fun a l => a ||| (fusedRed s w fr f op x l).2) 0) := by
  simp only [redAll, tileSize_eq, tileQ_sel parts, tileBase_eq]
  rfl

/-- The sequence issues once, from the second and third words' results as the model forms them. -/
theorem exec_fusedSoftmax_landed {k : Nat} (hi : Issues s k w fr) (parts : w.lpart ≤ 5) :
    let last := s.cycle + 3 + Config.freeNat s.ctr 100
    let m := sel s w fr f.g
    exec (.fusedSoftmax f) s = .next (advance { s with cycle := last } k
      (fusedWrite w f m (last + 31) (fun l => (fusedMax s w fr f l).1) (fun l => (fusedSecond s w fr f l).1) (fun l => (fusedThird s w fr f l).1)
        (fun l => (fusedSum s w fr f l).1)
        ((lanesOf m).foldl (fun a l => a ||| (fusedSecond s w fr f l).2 ||| (fusedThird s w fr f l).2)
          ((lanesOf m).foldl (fun a l => a ||| (fusedMax s w fr f l).2) 0 |||
            (lanesOf m).foldl (fun a l => a ||| (fusedSum s w fr f l).2) 0))) fr 32) := by
  obtain ⟨actor, wave, frag⟩ := hi
  refine (onFrag_next actor wave frag _).trans ?_
  simp only [redAll_fusedRed f parts, ← fusedRed_fusedThird]
  rfl

/-- R99, R100: the sequence issues once, as its four words would over landed results. -/
theorem exec_fusedSoftmax {k : Nat} (hi : Issues s k w fr) (parts : w.lpart ≤ 5) :
    let last := s.cycle + 3 + Config.freeNat s.ctr 100
    exec (.fusedSoftmax f) s = .next (advance { s with cycle := last } k (fusedWave s w fr f (last + 31)) fr 32) := by
  refine (exec_fusedSoftmax_landed f hi parts).trans (congrArg (fun u => Host.Outcome.next (advance _ k u fr 32)) ?_)
  refine fusedWrite_congr w f _ (fun _ _ => rfl) (fun l hl => ?_) (fun l hl => ?_) (fun _ _ => rfl) ?_
  · rw [fusedSecond_picked s w fr f hl]
  · rw [fusedThird_picked s w fr f hl]
  · rw [foldl_or_merge]
    exact List.foldl_ext _ _ _ fun a l hl => by rw [fusedThird_picked s w fr f hl, fusedSecond_picked s w fr f hl]; rfl

end

/-- Settles O8: the step is `exec_fusedSoftmax`, and the wave that it leaves is read by the lemmas of `fusedWave`. -/
theorem fusedSoftmax : Obligations.FusedSoftmax := by
  intro s k w fr hi parts f
  refine ⟨_, _, _, exec_fusedSoftmax f hi parts, Nat.le_add_right _ _, onlyWave_advance _ _ _ _ _,
    fun y l hl => vraw_fusedWave s w fr f _ y hl, ?_, ?_⟩
  · exact raises_congr (raises_fusedWave s w fr f _) rfl rfl
  · rw [fusedWave_eq]
    rfl

end Sys2Proof.Machine
end

section
/-! PROOFS. What a lane-wise instruction leaves (R72), and the integer lanes (R73, R76 to R80, R94). -/

namespace Sys2Proof.Machine

open Sys2Proof.Claim

/-! ### The common shape (R72) -/

/-- R72: a lane-wise instruction leaves in each selected lane its result, and raises the flags of the selected lanes. -/
theorem laneOp_laneWrites {s : State} {k : Nat} {w : Wave} {fr : Frag} (hi : Issues s k w fr) (h : Hdr) (len : Nat) (d : VOp)
    (f : Wave → Nat → Word × Word) :
    ∃ z, laneOp s h len d f = .next z ∧
      LaneWrites s k w fr h len d (fun l v => v = (f w l).1) (fun l i => (f w l).2.getLsbD i = true) z := by
  obtain ⟨actor, wave, frag⟩ := hi
  refine ⟨_, onFrag_next actor wave frag _, _, onlyWave_advance _ _ _ _ _, fun l hl => ?written, fun y l hl hn => ?kept, ?flags, ?rest⟩
  case written => exact (vraw_raise _ _ _ _ _).trans (((vraw_wrV_sel s w w fr h.g d _ _ hl.1).1 hl).trans (if_pos rfl))
  case kept =>
    obtain ⟨picked, rest⟩ := vraw_wrV_sel s w w fr h.g d (fun l => (f w l).1) y hl
    refine (vraw_raise _ _ _ _ _).trans ?_
    by_cases hp : Picked s w fr h.g l
    · exact (picked hp).trans (if_neg fun e => hn ⟨e, hp⟩)
    · exact rest hp
  case flags =>
    refine raises_congr (raises_lanes s w fr h.g (fun l => (f w l).2) (s.cycle + h.lat)) ?_ ?_
    · simp
    · simp only [raise_eq, Wave.mark_flagPend, Wave.wrV_flagPend]
  case rest => rw [raise_eq]; rfl

/-- What a lane-wise instruction leaves, said of its results and flags in another form. -/
theorem laneWrites_imp {s : State} {k : Nat} {w : Wave} {fr : Frag} {h : Hdr} {len : Nat} {d : VOp} {R R' : Nat → Word → Prop}
    {F F' : Nat → Nat → Prop} {z : State} (hz : LaneWrites s k w fr h len d R F z) (result : ∀ l, Picked s w fr h.g l → ∀ v, R l v → R' l v)
    (flags : ∀ l, Picked s w fr h.g l → ∀ i, F l i ↔ F' l i) : LaneWrites s k w fr h len d R' F' z := by
  obtain ⟨w', only, written, kept, ⟨landed, pend, all⟩, rest⟩ := hz
  refine ⟨w', only, fun l hl => result l hl _ (written l hl), kept, ⟨landed, pend, fun i => ?_⟩, rest⟩
  rw [all i]
  exact or_congr_right (exists_congr fun l => and_congr_right fun hl => flags l hl i)

/-- R72: what a lane-wise instruction leaves, from what its results and flags are in each lane. -/
theorem laneOp_leaves {s : State} {k : Nat} {w : Wave} {fr : Frag} (hi : Issues s k w fr) {h : Hdr} {len : Nat} {d : VOp}
    {f : Wave → Nat → Word × Word} {R : Nat → Word → Prop} {F : Nat → Nat → Prop} (result : ∀ l, R l (f w l).1)
    (flags : ∀ l i, (f w l).2.getLsbD i = true ↔ F l i) : ∃ z, laneOp s h len d f = .next z ∧ LaneWrites s k w fr h len d R F z := by
  obtain ⟨z, step, hz⟩ := laneOp_laneWrites hi h len d f
  exact ⟨z, step, laneWrites_imp hz (fun l _ v e => e ▸ result l) fun l _ i => flags l i⟩

/-- The same where no lane raises a flag. -/
theorem laneOp_leaves_quiet {s : State} {k : Nat} {w : Wave} {fr : Frag} (hi : Issues s k w fr) {h : Hdr} {len : Nat} {d : VOp}
    {f : Wave → Nat → Word × Word} {R : Nat → Word → Prop} (result : ∀ l, R l (f w l).1) (silent : ∀ l, (f w l).2 = 0) :
    ∃ z, laneOp s h len d f = .next z ∧ LaneWrites s k w fr h len d R quiet z :=
  laneOp_leaves hi result fun l i => by simp [silent l]

/-! ### Elements (R66, R73) -/

theorem tyMin_eq_lowest (t : Ty) : tyMin t = lowest t := by
  unfold tyMin lowest
  push_cast
  rfl

theorem tyMax_eq_greatest (t : Ty) : tyMax t = greatest t := by
  unfold tyMax greatest
  push_cast
  rfl

theorem elem_eq_elemInt (x : Word) (t : Ty) (e : Nat) : elem x t e = elemInt t x e := elem_eq x t e

/-- An element of an integer type lies in the type's range. -/
theorem elemInt_range (t : Ty) (x : Word) (e : Nat) : lowest t ≤ elemInt t x e ∧ elemInt t x e ≤ greatest t := by
  rw [← tyMin_eq_lowest, ← tyMax_eq_greatest, ← elem_eq_elemInt]
  exact tyRead_range t _

/-- The elements of a packed register lie within it. -/
theorem packed_fits (t : Ty) {e : Nat} (he : e < 32 / tyWidth t) : tyWidth t * (e + 1) ≤ 32 :=
  (Nat.mul_le_mul_left _ he).trans (Nat.mul_div_le 32 _)

/-- The low bits of an extended number are the number. -/
theorem slice_extendTy (t : Ty) (v : Int) (hv : tyMin t ≤ v ∧ v ≤ tyMax t) : Claim.slice (tyWidth t) 0 (extendTy t v) = BitVec.ofInt (tyWidth t) v := by
  rw [extendTy_eq t v (signed_range hv)]
  have le := tyWidth_le t
  apply BitVec.eq_of_getLsbD_eq
  intro i lt
  have lt32 : i < 32 := lt.trans_le le
  split <;> simp [Claim.slice, BitVec.getElem_signExtend, lt, lt32]

/-- R66: an extended number is the extension of its own low bits. -/
theorem extendTy_extended (t : Ty) (v : Int) (hv : tyMin t ≤ v ∧ v ≤ tyMax t) : extendTy t v = extended t (extendTy t v) := by
  rw [extended, slice_extendTy t v hv]
  exact extendTy_eq t v (signed_range hv)

/-- R73: the elements of a result are its numbers modulo 2^width. -/
theorem slice_put (t : Ty) (pk : Bool) {l : List Int} (len : l.length = tyN t pk) (range : ∀ v ∈ l, tyMin t ≤ v ∧ v ≤ tyMax t)
    {e : Nat} (he : e < elemCount t pk) : Claim.slice (tyWidth t) e (put t pk l) = BitVec.ofInt (tyWidth t) (l.getD e 0) := by
  cases pk with
  | true => exact extract_put_packed t l e (len.symm ▸ he) (packed_fits t he)
  | false =>
    obtain ⟨v, rfl⟩ := List.length_eq_one_iff.1 len
    obtain rfl : e = 0 := Nat.lt_one_iff.1 he
    exact slice_extendTy t v (range v (by simp))

/-- R73: an unpacked result is extended. -/
theorem put_extended (t : Ty) {l : List Int} (len : l.length = 1) (range : ∀ v ∈ l, tyMin t ≤ v ∧ v ≤ tyMax t) :
    put t false l = extended t (put t false l) := by
  obtain ⟨v, rfl⟩ := List.length_eq_one_iff.1 len
  exact extendTy_extended t v (range v (by simp))

/-- The numbers that Fit gives an element-wise instruction. -/
def fitted (t : Ty) (sat pk : Bool) (f : Int → Int → Int → Int) (a b c : Word) : List Int :=
  (List.range (tyN t pk)).map fun e => (fit (f (elemInt t a e) (elemInt t b e) (elemInt t c e)) t sat).1

theorem elemWise_fst (t : Ty) (sat pk : Bool) (f : Int → Int → Int → Int) (a b c : Word) :
    (elemWise t sat pk f a b c).1 = put t pk (fitted t sat pk f a b c) := by
  simp only [elemWise, fitted, List.map_map, elem_eq_elemInt]
  rfl

/-- The flags of an element-wise instruction are those that Fit raises. -/
theorem elemWise_flags (t : Ty) (sat pk : Bool) (f : Int → Int → Int → Int) (a b c : Word) (i : Nat) :
    (elemWise t sat pk f a b c).2.getLsbD i = true ↔
      ∃ e, e < elemCount t pk ∧ (fit (f (elemInt t a e) (elemInt t b e) (elemInt t c e)) t sat).2.getLsbD i = true := by
  simp only [elemWise, elem_eq_elemInt, getLsbD_foldl_or]
  simp [tyN, elemCount]

theorem fitted_range (t : Ty) (sat pk : Bool) (f : Int → Int → Int → Int) (a b c : Word) :
    ∀ v ∈ fitted t sat pk f a b c, tyMin t ≤ v ∧ v ≤ tyMax t := by
  intro v hv
  obtain ⟨e, -, rfl⟩ := List.mem_map.1 hv
  exact fit_range _ t sat

theorem fitted_length (t : Ty) (sat pk : Bool) (f : Int → Int → Int → Int) (a b c : Word) : (fitted t sat pk f a b c).length = tyN t pk := by
  simp [fitted]

theorem fitted_getD (t : Ty) (sat pk : Bool) (f : Int → Int → Int → Int) (a b c : Word) {e : Nat} (he : e < elemCount t pk) :
    (fitted t sat pk f a b c).getD e 0 = (fit (f (elemInt t a e) (elemInt t b e) (elemInt t c e)) t sat).1 := by
  have he : e < tyN t pk := he
  simp [fitted, List.getD_eq_getElem?_getD, he]

/-- R73: each element of a result is the number that Fit gives. -/
theorem slice_elemWise (t : Ty) (sat pk : Bool) (f : Int → Int → Int → Int) (a b c : Word) {e : Nat} (he : e < elemCount t pk) :
    Claim.slice (tyWidth t) e (elemWise t sat pk f a b c).1 =
      BitVec.ofInt (tyWidth t) (fit (f (elemInt t a e) (elemInt t b e) (elemInt t c e)) t sat).1 := by
  rw [elemWise_fst, slice_put t pk (fitted_length ..) (fitted_range t sat _ f a b c) he, fitted_getD _ _ _ _ _ _ _ he]

theorem elemWise_extended (t : Ty) (sat : Bool) (f : Int → Int → Int → Int) (a b c : Word) :
    (elemWise t sat false f a b c).1 = extended t (elemWise t sat false f a b c).1 := by
  rw [elemWise_fst]
  exact put_extended t (fitted_length ..) (fitted_range t sat _ f a b c)

/-- The number of an element that Fit gave is that number. -/
theorem elemInt_elemWise (t : Ty) (sat pk : Bool) (f : Int → Int → Int → Int) (a b c : Word) {e : Nat} (he : e < elemCount t pk) :
    elemInt t (elemWise t sat pk f a b c).1 e = (fit (f (elemInt t a e) (elemInt t b e) (elemInt t c e)) t sat).1 := by
  rw [elemInt, slice_elemWise t sat pk f a b c he]
  exact elemInt_ofInt t _ (fit_range _ t sat)

/-! ### Wrapping and saturating arithmetic (R73, R76) -/

/-- The bits of an element's number. -/
theorem ofInt_elemInt (t : Ty) (x : Word) (e : Nat) : BitVec.ofInt (tyWidth t) (elemInt t x e) = Claim.slice (tyWidth t) e x :=
  elem_eq_elemInt x t e ▸ ofInt_elem x t e

/-- R73: without SAT an operation on exact numbers is its operation modulo 2^width on the elements. -/
theorem elemWise_wraps (t : Ty) (pk : Bool) {f : Int → Int → Int → Int} {op : (n : Nat) → BitVec n → BitVec n → BitVec n → BitVec n} (a b c : Word)
    (modular : ∀ e, BitVec.ofInt (tyWidth t) (f (elemInt t a e) (elemInt t b e) (elemInt t c e)) =
      op (tyWidth t) (Claim.slice (tyWidth t) e a) (Claim.slice (tyWidth t) e b) (Claim.slice (tyWidth t) e c)) :
    WrapsTo t pk op a b c (elemWise t false pk f a b c).1 := by
  refine ⟨fun e he => ?_, fun hpk => ?_⟩
  · rw [slice_elemWise t false pk f a b c he, ofInt_fit, modular e]
  · subst hpk
    exact elemWise_extended ..

theorem elemWise_quiet (t : Ty) (pk : Bool) (f : Int → Int → Int → Int) (a b c : Word) : (elemWise t false pk f a b c).2 = 0 := by
  apply BitVec.eq_of_getLsbD_eq
  intro i _
  rw [Bool.eq_iff_iff, elemWise_flags]
  simp [fit_quiet]

theorem ofInt_sub (n : Nat) (x y : Int) : BitVec.ofInt n (x - y) = BitVec.ofInt n x - BitVec.ofInt n y := by
  rw [Int.sub_eq_add_neg, BitVec.ofInt_add, BitVec.ofInt_neg, BitVec.sub_eq_add_neg]

/-- The magnitude of an element, modulo 2^width: a negative element of a signed type is negated. -/
theorem ofInt_natAbs_elemInt (t : Ty) (x : Word) (e : Nat) :
    BitVec.ofInt (tyWidth t) ((elemInt t x e).natAbs : Int) =
      if tySigned t && (Claim.slice (tyWidth t) e x).msb then -Claim.slice (tyWidth t) e x else Claim.slice (tyWidth t) e x := by
  have bits := ofInt_elemInt t x e
  by_cases neg : elemInt t x e < 0
  · have msb : (tySigned t && (Claim.slice (tyWidth t) e x).msb) = true := by
      rw [elemInt] at neg
      split at neg
      · next hs => rw [hs, Bool.true_and, BitVec.msb_eq_toInt, decide_eq_true neg]
      · omega
    rw [if_pos msb, Int.ofNat_natAbs_of_nonpos neg.le, BitVec.ofInt_neg, bits]
  · have msb : ¬(tySigned t && (Claim.slice (tyWidth t) e x).msb) = true := by
      rw [Bool.and_eq_true]
      rintro ⟨hs, hm⟩
      rw [BitVec.msb_eq_toInt, decide_eq_true_iff] at hm
      rw [elemInt, if_pos hs] at neg
      exact neg hm
    rw [if_neg msb, Int.natAbs_of_nonneg (not_lt.1 neg), bits]

/-- With SAT, the flag of an element that Fit brings into the range. -/
theorem getLsbD_fit_sat (v : Int) (t : Ty) (i : Nat) : (fit v t true).2.getLsbD i = true ↔ i = 7 ∧ (v < lowest t ∨ greatest t < v) := by
  rw [fit_sat, tyMin_eq_lowest, tyMax_eq_greatest]
  have bit7 : fSAT.getLsbD i = decide (i = 7) := by
    rw [show fSAT = BitVec.twoPow 32 7 from rfl, BitVec.getLsbD_twoPow]
    simp [eq_comm]
  dsimp only
  split
  · next h => simp [bit7, h]
  · next h => simp [h]

/-- R73: with SAT each element is the exact number brought into the range. -/
theorem elemWise_saturates (t : Ty) (pk : Bool) (f : Int → Int → Int → Int) (a b c : Word) :
    SaturatesTo t pk f a b c (elemWise t true pk f a b c).1 := by
  refine ⟨fun e he => ?_, fun hpk => ?_⟩
  · rw [elemInt_elemWise t true pk f a b c he, fit_sat, tyMin_eq_lowest, tyMax_eq_greatest]
  · subst hpk
    exact elemWise_extended ..

theorem elemWise_satFlag (t : Ty) (pk : Bool) (f : Int → Int → Int → Int) (a b c : Word) (i : Nat) :
    (elemWise t true pk f a b c).2.getLsbD i = true ↔ satFlag t pk f a b c i := by
  simp only [elemWise_flags, getLsbD_fit_sat, satFlag, Outside]
  constructor
  · rintro ⟨e, he, hi, out⟩
    exact ⟨hi, e, he, out⟩
  · rintro ⟨hi, e, he, out⟩
    exact ⟨e, he, hi, out⟩

/-- R77: where the exact number lies in the range without SAT too, the element is that number. -/
theorem elemWise_chooses (t : Ty) (pk : Bool) {f : Int → Int → Int → Int} (a b c : Word)
    (inside : ∀ e, lowest t ≤ f (elemInt t a e) (elemInt t b e) (elemInt t c e) ∧ f (elemInt t a e) (elemInt t b e) (elemInt t c e) ≤ greatest t) :
    SaturatesTo t pk f a b c (elemWise t false pk f a b c).1 := by
  refine ⟨fun e he => ?_, fun hpk => ?_⟩
  · obtain ⟨least, most⟩ := inside e
    rw [elemInt_elemWise t false pk f a b c he, fit, tyMin_eq_lowest, tyMax_eq_greatest, if_pos ⟨least, most⟩, min_eq_right most, max_eq_right least]
  · subst hpk
    exact elemWise_extended ..

section
variable {s : State} {k : Nat} {w : Wave} {fr : Frag} (hi : Issues s k w fr)
include hi

/-- R73: an element-wise instruction without SAT. -/
theorem laneOp_wraps {h : Hdr} {len : Nat} {d : VOp} {t : Ty} {pk : Bool} (f : Int → Int → Int → Int)
    {op : (n : Nat) → BitVec n → BitVec n → BitVec n → BitVec n} (x y z : Wave → Nat → Word)
    (modular : ∀ a b c e, BitVec.ofInt (tyWidth t) (f (elemInt t a e) (elemInt t b e) (elemInt t c e)) =
      op (tyWidth t) (Claim.slice (tyWidth t) e a) (Claim.slice (tyWidth t) e b) (Claim.slice (tyWidth t) e c)) :
    ∃ u, laneOp s h len d (fun w l => elemWise t false pk f (x w l) (y w l) (z w l)) = .next u ∧
      LaneWrites s k w fr h len d (fun l v => WrapsTo t pk op (x w l) (y w l) (z w l) v) quiet u :=
  laneOp_leaves_quiet hi (fun _ => elemWise_wraps t pk _ _ _ (modular _ _ _)) fun _ => elemWise_quiet ..

/-- R73: an element-wise instruction with SAT. -/
theorem laneOp_saturates {h : Hdr} {len : Nat} {d : VOp} {t : Ty} {pk : Bool} (f : Int → Int → Int → Int) (x y z : Wave → Nat → Word) :
    ∃ u, laneOp s h len d (fun w l => elemWise t true pk f (x w l) (y w l) (z w l)) = .next u ∧
      LaneWrites s k w fr h len d (fun l v => SaturatesTo t pk f (x w l) (y w l) (z w l) v) (fun l => satFlag t pk f (x w l) (y w l) (z w l)) u :=
  laneOp_leaves hi (fun _ => elemWise_saturates ..) fun _ _ => elemWise_satFlag ..

/-- R77: an element-wise instruction that chooses an element. -/
theorem laneOp_chooses {h : Hdr} {len : Nat} {d : VOp} {t : Ty} {pk : Bool} (f : Int → Int → Int → Int) (x y z : Wave → Nat → Word)
    (chooses : ∀ a b c, f a b c = a ∨ f a b c = b) :
    ∃ u, laneOp s h len d (fun w l => elemWise t false pk f (x w l) (y w l) (z w l)) = .next u ∧
      LaneWrites s k w fr h len d (fun l v => SaturatesTo t pk f (x w l) (y w l) (z w l) v) quiet u := by
  refine laneOp_leaves_quiet hi (fun l => elemWise_chooses t pk _ _ _ fun e => ?_) fun _ => elemWise_quiet ..
  rcases chooses (elemInt t (x w l) e) (elemInt t (y w l) e) (elemInt t (z w l) e) with h | h <;> rw [h] <;> exact elemInt_range t _ e

end

/-- R73, R76: without SAT. -/
theorem integerWrap : Claim.IntegerWrap := by
  intro s k w fr hi h t pk d a b c _
  have bits := ofInt_elemInt t
  refine ⟨laneOp_wraps hi (fun x y _ => x + y) (opA s · a) (opB s · b) (fun _ _ => 0) fun a b c e => ?add,
    laneOp_wraps hi (fun x y _ => x - y) (opA s · a) (opB s · b) (fun _ _ => 0) fun a b c e => ?sub,
    laneOp_wraps hi (fun x y _ => x * y) (opA s · a) (opB s · b) (fun _ _ => 0) fun a b c e => ?mul,
    laneOp_wraps hi (fun x y z => x * y + z) (opA s · a) (opB s · b) (opC s · c) fun a b c e => ?mad,
    laneOp_wraps hi (fun x _ _ => (x.natAbs : Int)) (opA s · a) (fun _ _ => 0) (fun _ _ => 0) fun a _ _ e => ofInt_natAbs_elemInt t a e,
    laneOp_wraps hi (fun x _ _ => -x) (opA s · a) (fun _ _ => 0) (fun _ _ => 0) fun a b c e => ?neg⟩
  case add => rw [BitVec.ofInt_add, bits, bits]
  case sub => rw [ofInt_sub, bits, bits]
  case mul => rw [BitVec.ofInt_mul, bits, bits]
  case mad => rw [BitVec.ofInt_add, BitVec.ofInt_mul, bits, bits, bits]
  case neg => rw [BitVec.ofInt_neg, bits]

/-- R73, R76: with SAT. -/
theorem integerSaturate : Claim.IntegerSaturate := by
  intro s k w fr hi h t pk d a b c _
  refine ⟨laneOp_saturates hi _ (opA s · a) (opB s · b) fun _ _ => 0, laneOp_saturates hi _ (opA s · a) (opB s · b) fun _ _ => 0,
    laneOp_saturates hi _ (opA s · a) (opB s · b) fun _ _ => 0, laneOp_saturates hi _ (opA s · a) (opB s · b) (opC s · c), ?magnitude,
    laneOp_saturates hi _ (opA s · a) (fun _ _ => 0) fun _ _ => 0⟩
  case magnitude =>
    simp only [Int.abs_eq_natAbs]
    exact laneOp_saturates hi _ (opA s · a) (fun _ _ => 0) fun _ _ => 0

/-- Settles O21: each instruction is one element-wise operation, wrapping by `elemWise_wraps` or saturating by `elemWise_saturates`. -/
theorem integerArithmetic : Obligations.IntegerArithmetic := ⟨integerWrap, integerSaturate⟩

/-! ### The high half of a product, VLEA and VICMP (R77, R78) -/

/-- The bits of a 64-bit number above bit 31. -/
theorem ofNat_wrap_shiftRight (v : Int) : BitVec.ofNat 32 (wrap v 64 >>> 32) = (BitVec.ofInt 64 v).extractLsb' 32 32 := by
  rw [wrap_eq]
  rfl

theorem elemInt_i32 (x : Word) : elemInt .i32 x 0 = x.toInt := by
  have whole : Claim.slice (tyWidth .i32) 0 x = x := by simp [Claim.slice, tyWidth]
  rw [elemInt, whole]
  rfl

theorem elemInt_u32 (x : Word) : elemInt .u32 x 0 = (x.toNat : Int) := by
  have whole : Claim.slice (tyWidth .u32) 0 x = x := by simp [Claim.slice, tyWidth]
  rw [elemInt, whole]
  rfl

/-- R77: the high half of the product of signed numbers. -/
theorem mulHigh_i32 (a b : Word) : mulHigh .i32 a b = (a.signExtend 64 * b.signExtend 64).extractLsb' 32 32 := by
  have extend : ∀ x : Word, BitVec.ofInt 64 x.toInt = x.signExtend 64 := fun x => rfl
  rw [mulHigh, ofNat_wrap_shiftRight, elem_eq_elemInt, elem_eq_elemInt, elemInt_i32, elemInt_i32, BitVec.ofInt_mul, extend, extend]

/-- R77: the high half of the product of unsigned numbers. -/
theorem mulHigh_u32 (a b : Word) : mulHigh .u32 a b = (a.zeroExtend 64 * b.zeroExtend 64).extractLsb' 32 32 := by
  have extend : ∀ x : Word, BitVec.ofInt 64 (x.toNat : Int) = x.zeroExtend 64 := fun x => by rw [BitVec.ofInt_natCast, BitVec.ofNat_toNat]
  rw [mulHigh, ofNat_wrap_shiftRight, elem_eq_elemInt, elem_eq_elemInt, elemInt_u32, elemInt_u32, BitVec.ofInt_mul, extend, extend]

/-- R77: a shift is a product with a power of two. -/
theorem shiftLeft_eq_mul (x : Word) (n : Nat) : x <<< n = x * BitVec.ofNat 32 (2 ^ n) := by
  rw [BitVec.shiftLeft_eq_mul_twoPow, show BitVec.twoPow 32 n = BitVec.ofNat 32 (2 ^ n) from BitVec.eq_of_toNat_eq (by simp)]

/-- Settles O1: a minimum or a maximum is one of the two elements, so it lies in the range; the product, the address and the test are
those of the exact numbers. -/
theorem integerChoose : Obligations.IntegerChoose := by
  intro s k w fr hi h t pk sh p d a b _
  refine ⟨laneOp_chooses hi _ (opA s · a) (opB s · b) (fun _ _ => 0) fun x y _ => min_choice x y,
    laneOp_chooses hi _ (opA s · a) (opB s · b) (fun _ _ => 0) fun x y _ => max_choice x y,
    laneOp_leaves_quiet hi (fun _ => mulHigh_i32 _ _) fun _ => rfl, laneOp_leaves_quiet hi (fun _ => mulHigh_u32 _ _) fun _ => rfl,
    laneOp_leaves_quiet hi (fun l => congrArg (opA s w a l + ·) (shiftLeft_eq_mul _ _)) fun _ => rfl, fun cc => ?compare⟩
  case compare =>
    obtain ⟨u, step, tests⟩ := predOp_laneTests_quiet hi h p fun w l => icmp cc (elem (opA s w a l) t 0) (elem (opB s w b l) t 0)
    simp only [elem_eq_elemInt] at tests
    exact ⟨u, step, by cases cc <;> exact tests⟩

end Sys2Proof.Machine
end

section
/-! PROOFS. Bitwise lanes, shifts, bit fields and bit counts (R79, R80), and VDOT4 (R94). -/

namespace Sys2Proof.Machine

open Sys2Proof.Claim

/-! ### Shifts and rotations (R80) -/

theorem amount_eq (b : Word) : amount b = b.toNat % 256 := rfl

theorem getLsbD_shl (a : Word) (n i : Nat) (hi : i < 32) : (shl a n).getLsbD i = (decide (n ≤ i) && a.getLsbD (i - n)) := by
  unfold shl
  split
  · next h => simp [show ¬n ≤ i by omega]
  · simp only [BitVec.getLsbD_shiftLeft, hi, decide_true, Bool.true_and, ← decide_not, Nat.not_lt]

theorem getLsbD_shr (a : Word) (n i : Nat) : (shr a n).getLsbD i = a.getLsbD (i + n) := by
  unfold shr
  split
  · next h => rw [BitVec.getLsbD_of_ge a _ (by omega)]; simp
  · rw [BitVec.getLsbD_ushiftRight, Nat.add_comm]

theorem getLsbD_sar (a : Word) (n i : Nat) (hi : i < 32) : (sar a n).getLsbD i = if i + n < 32 then a.getLsbD (i + n) else a.getLsbD 31 := by
  rw [sar, BitVec.getLsbD_sshiftRight]
  by_cases h : i + n < 32
  · rw [show min n 32 = n by omega]
    simp [h, hi, Nat.add_comm n i]
  · have past : ¬min n 32 + i < 32 := by omega
    simp [h, hi, past, BitVec.msb_eq_getLsbD_last]

/-- R80: a rotation takes bit `i` to bit `i + n`, modulo 32. -/
theorem getLsbD_rotateLeft_add (a : Word) (n i : Nat) (hi : i < 32) : (a.rotateLeft (n % 32)).getLsbD ((i + n) % 32) = a.getLsbD i := by
  rw [BitVec.getLsbD_rotateLeft, Nat.mod_mod]
  have lt : n % 32 < 32 := Nat.mod_lt _ (by decide)
  by_cases h : i + n % 32 < 32
  · have place : (i + n) % 32 = i + n % 32 := by omega
    simp [place, h]
  · have place : (i + n) % 32 = i + n % 32 - 32 := by omega
    have low : i + n % 32 - 32 < n % 32 := by omega
    have back : 32 - n % 32 + (i + n % 32 - 32) = i := by omega
    simp [place, low, back]

/-! ### Fields (R80) -/

/-- The offset and the width that a control word names. -/
theorem fieldOff_eq (k : Word) : fieldOff k = k.toNat % 32 := rfl

theorem fieldWid_eq (k : Word) : fieldWid k = min (k.toNat / 256 % 64) (32 - k.toNat % 32) := by
  have field : bits k.toNat 13 8 = k.toNat / 256 % 64 := by simp [bits, Nat.shiftRight_eq_div_pow]
  rw [fieldWid, fieldOff_eq, field]
  omega

theorem fieldOff_lt (k : Word) : fieldOff k < 32 := Nat.mod_lt _ (by decide)

theorem fieldOff_add_fieldWid (k : Word) : fieldOff k + fieldWid k ≤ 32 := by
  have := fieldOff_lt k
  rw [fieldWid]
  omega

/-- Bit `i` of a field cut out. -/
theorem testBit_field (a : Word) (off n i : Nat) : ((a.toNat >>> off) % 2 ^ n).testBit i = (decide (i < n) && a.getLsbD (i + off)) := by
  rw [Nat.testBit_mod_two_pow, Nat.testBit_shiftRight, Nat.add_comm off i]
  rfl

/-- R80: VBFX without sign. -/
theorem getLsbD_bfx_u32 (a k : Word) (i : Nat) (hi : i < 32) :
    (bfx .u32 a k).getLsbD i = (decide (i < fieldWid k) && a.getLsbD (i + fieldOff k)) := by
  have value : bfx .u32 a k = if fieldWid k = 0 then 0 else BitVec.ofNat 32 ((a.toNat >>> fieldOff k) % 2 ^ fieldWid k) := rfl
  rw [value, ← testBit_field]
  split
  · next h => simp [h, Nat.mod_one]
  · rw [BitVec.getLsbD_ofNat, decide_eq_true hi, Bool.true_and]

/-- VBFX with sign extends the field that it cuts out. -/
theorem bfx_i32_eq (a k : Word) (pos : 0 < fieldWid k) :
    bfx .i32 a k = (BitVec.ofNat (fieldWid k) ((a.toNat >>> fieldOff k) % 2 ^ fieldWid k)).signExtend 32 := by
  have value : bfx .i32 a k =
      if fieldWid k = 0 then 0 else BitVec.ofInt 32 (signed ((a.toNat >>> fieldOff k) % 2 ^ fieldWid k) (fieldWid k)) := rfl
  rw [value, if_neg pos.ne', signed_eq]
  rfl

/-- R80: VBFX with sign fills the bits above the field with its top bit. -/
theorem getLsbD_bfx_i32 (a k : Word) (i : Nat) (hi : i < 32) :
    (bfx .i32 a k).getLsbD i = (decide (0 < fieldWid k) && a.getLsbD (min i (fieldWid k - 1) + fieldOff k)) := by
  by_cases pos : 0 < fieldWid k
  · have bit : ∀ j, j < fieldWid k →
        (BitVec.ofNat (fieldWid k) ((a.toNat >>> fieldOff k) % 2 ^ fieldWid k)).getLsbD j = a.getLsbD (j + fieldOff k) := fun j hj => by
      rw [BitVec.getLsbD_ofNat, testBit_field, decide_eq_true hj, Bool.true_and, Bool.true_and]
    rw [bfx_i32_eq a k pos, BitVec.getLsbD_signExtend, decide_eq_true hi, decide_eq_true pos, Bool.true_and, Bool.true_and]
    split
    · next lt => rw [bit i lt, min_eq_left (Nat.le_sub_one_of_lt lt)]
    · next ge => rw [BitVec.msb_eq_getLsbD_last, bit _ (Nat.sub_one_lt pos.ne'), min_eq_right (by omega)]
  · have zero : bfx .i32 a k = 0 := if_pos (Nat.eq_zero_of_not_pos pos)
    simp [zero, pos]

/-- The bits of a field of ones. -/
theorem testBit_ones_shifted (n off i : Nat) : ((2 ^ n - 1) * 2 ^ off).testBit i = decide (off ≤ i ∧ i < off + n) := by
  rw [← Nat.shiftLeft_eq, Nat.testBit_shiftLeft, Nat.testBit_two_pow_sub_one, Bool.eq_iff_iff]
  simp
  omega

/-- R80: VBFI. -/
theorem getLsbD_bfi (a b k : Word) (i : Nat) (hi : i < 32) :
    (bfi a b k).getLsbD i = if fieldOff k ≤ i ∧ i < fieldOff k + fieldWid k then b.getLsbD (i - fieldOff k) else a.getLsbD i := by
  have mask : (BitVec.ofNat 32 ((2 ^ fieldWid k - 1) * 2 ^ fieldOff k)).getLsbD i = decide (fieldOff k ≤ i ∧ i < fieldOff k + fieldWid k) := by
    rw [BitVec.getLsbD_ofNat, testBit_ones_shifted]
    simp [hi]
  simp only [bfi, BitVec.getLsbD_or, BitVec.getLsbD_and, BitVec.getLsbD_not, mask, BitVec.getLsbD_shiftLeft, hi, decide_true, Bool.true_and]
  split
  · next h => simp [h]
  · next h => simp [h]

/-! ### Counts (R80) -/

theorem popc_toNat (a : Word) : (popc a).toNat = (List.range 32).countP fun i => a.getLsbD i := by
  have le : (lanesOf a).length ≤ 32 := (List.length_filter_le _ _).trans (by simp)
  rw [popc, BitVec.toNat_ofNat, Nat.mod_eq_of_lt (by omega), lanesOf, List.countP_eq_length_filter]

/-- R80: the number of leading zeros tells the place of the top bit. -/
theorem clz_spec (a : Word) :
    (clz a).toNat ≤ 32 ∧ a.toNat < 2 ^ (32 - (clz a).toNat) ∧ ((clz a).toNat < 32 → 2 ^ (31 - (clz a).toNat) ≤ a.toNat) := by
  unfold clz
  split
  · next h => subst h; decide
  · next h =>
    have pos : a.toNat ≠ 0 := fun z => h (BitVec.eq_of_toNat_eq z)
    have top : Nat.log2 a.toNat < 32 := (Nat.log2_lt pos).2 a.isLt
    have count : (BitVec.ofNat 32 (31 - Nat.log2 a.toNat)).toNat = 31 - Nat.log2 a.toNat := by
      rw [BitVec.toNat_ofNat]
      omega
    rw [count]
    refine ⟨by omega, ?_, fun _ => ?_⟩
    · rw [show 32 - (31 - Nat.log2 a.toNat) = Nat.log2 a.toNat + 1 by omega]
      exact Nat.lt_log2_self
    · rw [show 31 - (31 - Nat.log2 a.toNat) = Nat.log2 a.toNat by omega]
      exact Nat.log2_self_le pos

theorem getLsbD_brev (a : Word) (i : Nat) (hi : i < 32) : (brev a).getLsbD i = a.getLsbD (31 - i) := by
  rw [brev, getLsbD_maskOf, Bool.eq_iff_iff]
  simp only [List.mem_map, mem_lanesOf, decide_eq_true_eq]
  constructor
  · rintro ⟨⟨j, ⟨hj, set⟩, rfl⟩, -⟩
    rwa [show 31 - (31 - j) = j by omega]
  · intro set
    exact ⟨⟨31 - i, ⟨by omega, set⟩, by omega⟩, hi⟩

/-- Settles O2: each instruction is one lane-wise operation without flags, whose bits the lemmas above give. -/
theorem bitsAndShifts : Obligations.BitsAndShifts := by
  intro s k w fr hi h d a b c
  have lanes {len : Nat} {f : Wave → Nat → Word} {R : Nat → Word → Prop} (result : ∀ l, R l (f w l)) :=
    laneOp_leaves_quiet hi (h := h) (len := len) (d := d) (f := fun w l => (f w l, 0)) result fun _ => rfl
  refine ⟨lanes fun l i hi => BitVec.getLsbD_and, lanes fun l i hi => BitVec.getLsbD_or, lanes fun l i hi => ?xor, lanes fun l i hi => ?not,
    lanes fun l i hi => getLsbD_shl _ _ i hi, lanes fun l i hi => getLsbD_shr _ _ i, lanes fun l i hi => getLsbD_sar _ _ i hi,
    lanes fun l i hi => getLsbD_rotateLeft_add _ _ i hi, lanes fun l i hi => ?bfxU, lanes fun l i hi => ?bfxI, lanes fun l i hi => ?bfi,
    lanes fun l => popc_toNat _, lanes fun l => clz_spec _, lanes fun l i hi => getLsbD_brev _ i hi⟩
  case xor => simp [opA, opB]
  case not => simp [opA, hi]
  case bfxU => rw [getLsbD_bfx_u32 _ _ i hi, fieldWid_eq]; rfl
  case bfxI => rw [getLsbD_bfx_i32 _ _ i hi, fieldWid_eq]; rfl
  case bfi => rw [getLsbD_bfi _ _ _ i hi, fieldWid_eq]; rfl

/-! ### VDOT4 (R94) -/

/-- The exact sum of products of VDOT4. -/
def dotSum (t tb : Ty) (a b c : Word) : Int :=
  c.toInt + ((List.range (32 / tyWidth t)).map fun e => elemInt t a e * elemInt tb b e).sum

theorem foldl_add_eq_sum {α : Type} (f : α → Int) (l : List α) (x : Int) : l.foldl (fun v e => v + f e) x = x + (l.map f).sum := by
  induction l generalizing x with
  | nil => simp
  | cons a r ih => rw [List.foldl_cons, ih, List.map_cons, List.sum_cons, add_assoc]

/-- R94: VDOT4 fits the exact sum of products to the accumulator's type. -/
theorem dot4_eq (t : Ty) (sat mix : Bool) (a b c : Word) :
    let r := fit (dotSum t (if mix then otherSign t else t) a b c) .i32 sat
    dot4 t sat mix a b c = (BitVec.ofInt 32 r.1, r.2) := by
  have acc : signed c.toNat 32 = c.toInt := by rw [signed_eq, BitVec.ofNat_toNat, BitVec.setWidth_eq]
  simp only [dot4, dotSum, acc, foldl_add_eq_sum, elem_eq_elemInt]
  rfl

/-- With MIX, B is read with the opposite sign. -/
theorem otherSign_of_mem {t tb : Ty} {mix : Bool}
    (h : (t, tb, mix) ∈ [(Ty.i8, Ty.i8, false), (.u8, .u8, false), (.i4, .i4, false), (.u4, .u4, false), (.i8, .u8, true), (.u8, .i8, true),
      (.i4, .u4, true), (.u4, .i4, true)]) : (if mix then otherSign t else t) = tb := by
  simp only [List.mem_cons, List.not_mem_nil, or_false, Prod.mk.injEq] at h
  rcases h with ⟨rfl, rfl, rfl⟩ | ⟨rfl, rfl, rfl⟩ | ⟨rfl, rfl, rfl⟩ | ⟨rfl, rfl, rfl⟩ | ⟨rfl, rfl, rfl⟩ | ⟨rfl, rfl, rfl⟩ | ⟨rfl, rfl, rfl⟩ |
    ⟨rfl, rfl, rfl⟩ <;> rfl

/-- The range of an INT32 accumulator. -/
theorem lowest_i32 : lowest .i32 = -2 ^ 31 := rfl
theorem greatest_i32 : greatest .i32 = 2 ^ 31 - 1 := rfl

/-- R94: without SAT the sum wraps to 32 bits. -/
theorem dot4_wraps (t : Ty) (mix : Bool) (a b c : Word) :
    dot4 t false mix a b c = (BitVec.ofInt 32 (dotSum t (if mix then otherSign t else t) a b c), 0) := by
  rw [dot4_eq]
  exact Prod.ext (ofInt_fit _ .i32) (fit_quiet _ .i32)

/-- R94: with SAT the sum is brought into INT32's range. -/
theorem toInt_dot4_sat (t : Ty) (mix : Bool) (a b c : Word) :
    (dot4 t true mix a b c).1.toInt = max (-2 ^ 31) (min (2 ^ 31 - 1) (dotSum t (if mix then otherSign t else t) a b c)) := by
  rw [dot4_eq, ← lowest_i32, ← greatest_i32, ← tyMin_eq_lowest, ← tyMax_eq_greatest]
  refine (elemInt_ofInt .i32 _ (fit_range _ _ true)).trans ?_
  rw [fit_sat]

/-- Settles O3: the sum is exact, and Fit wraps it or brings it into the range. -/
theorem dotInteger : Obligations.DotInteger := by
  intro s k w fr hi h t tb mix d a b c types
  have other := otherSign_of_mem types
  refine ⟨laneOp_leaves_quiet hi (fun l => ?wrapped) fun l => ?silent, laneOp_leaves hi (fun l => ?brought) fun l i => ?flag⟩
  case wrapped => rw [dot4_wraps, other]; rfl
  case silent => rw [dot4_wraps]
  case brought => rw [toInt_dot4_sat, other]; rfl
  case flag =>
    rw [dot4_eq, getLsbD_fit_sat, other, lowest_i32, greatest_i32]
    exact and_congr_right fun _ => or_congr_right Int.sub_one_lt_iff

end Sys2Proof.Machine
end

section
/-! PROOFS. Floating arithmetic lanes (R81 to R87), VFCLASS (R86) and the special functions' table (R88). -/

namespace Sys2Proof.Machine

open Sys2Proof.Claim

/-! ### Elements (R81, R83) -/

theorem fElem_eq_encAt (t : Ty) (x : Word) (e : Nat) : fElem t x e = encAt t x e := by
  rw [encAt, BitVec.extractLsb'_toNat, fElem]

/-- R83: the elements of a result, and the flags that they raise. -/
theorem fWise_spec (v : FEnv) (t : Ty) (f : Fmt → FEnv → FVal → FVal → FVal → Nat × Word) (a b c : Word) {res : Nat → Nat × Word}
    (each : ∀ e, f (fmtOf t) v (srcAt v t a e) (srcAt v t b e) (srcAt v t c e) = res e) :
    FloatIs t res (fWise v t f a b c).1 ∧ ∀ i, (fWise v t f a b c).2.getLsbD i = true ↔ floatFlag t res i := by
  have elements : ((List.range (fElems t)).map fun e =>
      f (fmtOf t) v (v.src (fmtOf t) (fElem t a e)) (v.src (fmtOf t) (fElem t b e)) (v.src (fmtOf t) (fElem t c e))) =
        (List.range (fElems t)).map res :=
    List.map_congr_left fun e _ => by rw [fElem_eq_encAt, fElem_eq_encAt, fElem_eq_encAt, ← each e]
  refine ⟨?_, fun i => ?_⟩
  · rw [FloatIs, fWise, elements, List.map_map]
    rfl
  · simp only [fWise, elements, getLsbD_foldl_or, floatFlag]
    simp

/-- R83: a lane-wise floating instruction. -/
theorem laneOp_fWise {s : State} {k : Nat} {w : Wave} {fr : Frag} (hi : Issues s k w fr) {h : Hdr} {len : Nat} {d : VOp} {t : Ty}
    (v : Wave → FEnv) (f : Fmt → FEnv → FVal → FVal → FVal → Nat × Word) (x y z : Wave → Nat → Word) :
    let res (l e : Nat) := f (fmtOf t) (v w) (srcAt (v w) t (x w l) e) (srcAt (v w) t (y w l) e) (srcAt (v w) t (z w l) e)
    ∃ u, laneOp s h len d (fun w l => fWise (v w) t f (x w l) (y w l) (z w l)) = .next u ∧
      LaneWrites s k w fr h len d (fun l => FloatIs t (res l)) (fun l => floatFlag t (res l)) u :=
  laneOp_leaves hi (fun _ => (fWise_spec (v w) t f _ _ _ fun _ => rfl).1) fun _ => (fWise_spec (v w) t f _ _ _ fun _ => rfl).2

/-- Settles O4: each instruction is one operation on each element. -/
theorem floatArithmetic : Obligations.FloatArithmetic := by
  intro s k w fr hi h r t x d a b c
  let v (w : Wave) := fenv w r
  let A (w : Wave) := opA s w a
  let B (w : Wave) := opB s w b
  let C (w : Wave) := opC s w c
  let zero (_ : Wave) (_ : Nat) : Word := 0
  exact ⟨laneOp_fWise hi v (fun f v x y _ => f.add v x y) A B zero, laneOp_fWise hi v (fun f v x y _ => f.sub v x y) A B zero,
    laneOp_fWise hi v (fun f v x y _ => f.mul v x y) A B zero, laneOp_fWise hi v (fun f v x y z => f.fma v x y z) A B C,
    laneOp_fWise hi v (fun f v x y _ => f.minmax v false x y) A B zero, laneOp_fWise hi v (fun f v x y _ => f.minmax v true x y) A B zero,
    laneOp_fWise hi v (fun f v y _ _ => f.rint v x y) A zero zero, laneOp_fWise hi v (fun f v x y _ => f.div v x y) A B zero,
    laneOp_fWise hi v (fun f v x _ _ => f.sqrt v x) A zero zero⟩

/-! ### VFCLASS (R86) -/

theorem expOf_shiftRight (f : Fmt) (x : Nat) : (x >>> f.mb) % 2 ^ f.eb = expOf f x := by rw [Nat.shiftRight_eq_div_pow]

/-- The sign bit of an encoding. -/
theorem bit_sign (f : Fmt) {x : Nat} (hx : x < 2 ^ f.width) : bit x (f.eb + f.mb) = decide (isNeg f x) := by
  have top : x / 2 ^ (f.eb + f.mb) < 2 := by
    rw [Nat.div_lt_iff_lt_mul (Nat.two_pow_pos _), ← Nat.pow_succ']
    exact hx
  have one : x / 2 ^ (f.eb + f.mb) = 1 ↔ isNeg f x := by
    rw [isNeg, ← Nat.one_le_div_iff (Nat.two_pow_pos _)]
    omega
  rw [bit, Nat.shiftRight_eq_div_pow, Nat.mod_eq_of_lt top, Bool.eq_iff_iff, beq_iff_eq, decide_eq_true_iff, one]

/-- The quiet bit of a fraction. -/
theorem bit_quiet (f : Fmt) (pos : 0 < f.mb) (x : Nat) : bit (fracOf f x) (f.mb - 1) = decide (isQuiet f x) := by
  have lt : fracOf f x < 2 ^ f.mb := Nat.mod_lt _ (Nat.two_pow_pos _)
  have top : fracOf f x / 2 ^ (f.mb - 1) < 2 := by
    rw [Nat.div_lt_iff_lt_mul (Nat.two_pow_pos _), ← pow_succ', Nat.sub_add_cancel pos]
    exact lt
  have one : fracOf f x / 2 ^ (f.mb - 1) = 1 ↔ isQuiet f x := by
    rw [isQuiet, ← Nat.one_le_div_iff (Nat.two_pow_pos _)]
    omega
  rw [bit, Nat.shiftRight_eq_div_pow, Nat.mod_eq_of_lt top, Bool.eq_iff_iff, beq_iff_eq, decide_eq_true_iff, one]

/-- The number of an encoding's class (R86). -/
def classOf (f : Fmt) (x : Nat) : Nat :=
  if expOf f x = 2 ^ f.eb - 1 then
    (if fracOf f x = 0 then (if isNeg f x then 0 else 7) else if isQuiet f x then 9 else 8)
  else if expOf f x = 0 then
    (if fracOf f x = 0 then (if isNeg f x then 3 else 4) else (if isNeg f x then 2 else 5))
  else (if isNeg f x then 1 else 6)

/-- R86: the mask has the bit of the class. -/
theorem classify_eq (f : Fmt) (pos : 0 < f.mb) {x : Nat} (hx : x < 2 ^ f.width) : f.classify x = 2 ^ classOf f x := by
  have sign := bit_sign f hx
  have quiet := bit_quiet f pos x
  simp only [Fmt.classify, classOf, expOf_shiftRight, Fmt.top, sign, quiet, decide_eq_true_eq]
  split_ifs <;> rfl

theorem classOf_lt (f : Fmt) (x : Nat) : classOf f x < 10 := by
  unfold classOf
  split_ifs <;> decide

/-- Settles O5: the mask has the bit of the class, and the classes are told apart by exponent, fraction and sign. -/
theorem floatClass : Obligations.FloatClass := by
  intro s k w fr hi h r t d a ht
  have pos : 0 < (fmtOf t).mb := by cases t <;> decide
  have pair : ∀ x : Nat, expOf (fmtOf t) x = 0 → expOf (fmtOf t) x ≠ 2 ^ (fmtOf t).eb - 1 := fun x h => by
    rw [h]
    cases t <;> decide
  refine laneOp_leaves_quiet hi (fun l => ?_) fun l => rfl
  have element : fElem t (opA s w a l) 0 = (inA s w a l).toNat % 2 ^ (fmtOf t).width := by simp [fElem, opA]
  generalize hx : (inA s w a l).toNat % 2 ^ (fmtOf t).width = x at element
  have lt : x < 2 ^ (fmtOf t).width := hx ▸ Nat.mod_lt _ (Nat.two_pow_pos _)
  refine ⟨classOf (fmtOf t) x, by rw [element, classify_eq _ pos lt], classOf_lt _ x, ?_⟩
  have disjoint := pair x
  unfold classOf isNaN isQuiet
  split_ifs <;> simp_all

/-! ### The special functions (R88) -/

/-- The encoding of a special function's result at a zero of a sign. -/
def Sfu.atZero : Sfu → Bool → Nat
  | .rcp, sg | .rsq, sg => fp32.inf sg
  | .log2, _ => fp32.inf true
  | .exp, _ | .exp2, _ | .cos, _ => 0x3F800000
  | .sin, sg | .tanh, sg => sbit sg * 2 ^ 31

/-- Its result at an infinity of a sign. -/
def Sfu.atInf : Sfu → Bool → Nat
  | .rcp, sg => sbit sg * 2 ^ 31
  | .rsq, sg => if sg then fp32.qnan else 0
  | .log2, sg => if sg then fp32.qnan else fp32.inf false
  | .exp, sg | .exp2, sg => if sg then 0 else fp32.inf false
  | .sin, _ | .cos, _ => fp32.qnan
  | .tanh, sg => sbit sg * 2 ^ 31 + 0x3F800000

section
variable (v : FEnv) (f : Sfu) {x : Word}

theorem src_zero (sg : Bool) : v.src fp32 (sbit sg * 2 ^ 31) = .fin sg 0 (-149) := by
  rw [FEnv.src]
  cases sg <;> cases v.flush fp32 <;> rfl

theorem src_inf (sg : Bool) : v.src fp32 (fp32.inf sg) = .inf sg := by
  rw [FEnv.src]
  cases sg <;> cases v.flush fp32 <;> rfl

/-- The powers of two that the table names, as read. -/
theorem src_one : v.src fp32 0x3F800000 = .fin false (2 ^ 23) (-23) := by
  rw [FEnv.src]
  cases v.flush fp32 <;> decide

theorem src_eight : v.src fp32 0x41000000 = .fin false (2 ^ 23) (-20) := by
  rw [FEnv.src]
  cases v.flush fp32 <;> decide

theorem apply_zero {sg : Bool} (hx : x.toNat = sbit sg * 2 ^ 31) : (f.apply v x).1.toNat = f.atZero sg := by
  simp only [Sfu.apply, hx, src_zero, if_true]
  cases f <;> cases sg <;> rfl

theorem apply_inf {sg : Bool} (hx : x.toNat = fp32.inf sg) : (f.apply v x).1.toNat = f.atInf sg := by
  simp only [Sfu.apply, hx, src_inf]
  cases f <;> cases sg <;> rfl

/-- The four rows that every function's table has. -/
theorem apply_rows : ∀ p ∈ [(0, f.atZero false), (0x80000000, f.atZero true), (0x7F800000, f.atInf false), (0xFF800000, f.atInf true)],
    x.toNat = p.1 → (f.apply v x).1.toNat = p.2 := by
  simp only [List.forall_mem_cons, List.not_mem_nil, false_implies, implies_true, and_true]
  exact ⟨apply_zero v f (sg := false), apply_zero v f (sg := true), apply_inf v f (sg := false), apply_inf v f (sg := true)⟩

/-- R88: 2 to the power 1 is 2. -/
theorem apply_exp2_one (hx : x.toNat = 0x3F800000) : (Sfu.exp2.apply v x).1.toNat = 0x40000000 := by
  have one : intVal false (2 ^ 23) (-23) = some 1 := rfl
  simp only [Sfu.apply, hx, src_one, one]
  rfl

/-- R88: the logarithms of 1 and 8 are exact. -/
theorem apply_log2_one (hx : x.toNat = 0x3F800000) : (Sfu.log2.apply v x).1.toNat = 0 := by
  have power : Nat.log2 (2 ^ 23) = 23 := Nat.log2_two_pow
  simp only [Sfu.apply, hx, src_one, power]
  rfl

theorem apply_log2_eight (hx : x.toNat = 0x41000000) : (Sfu.log2.apply v x).1.toNat = 0x40400000 := by
  have power : Nat.log2 (2 ^ 23) = 23 := Nat.log2_two_pow
  simp only [Sfu.apply, hx, src_eight, power]
  rfl

/-- A NaN is read as one. -/
theorem src_nan {F : Fmt} {y : Nat} (lt : y < 2 ^ F.width) (h : isNaN F y) : v.src F y = .nan (decide (isNeg F y)) (fracOf F y) F.mb := by
  obtain ⟨top, frac⟩ := h
  rw [FEnv.src, Nat.mod_eq_of_lt lt, Fmt.read, expOf_shiftRight]
  simp only [Fmt.top, if_pos top, if_neg frac, bit_sign F lt]

theorem nanOut_false (F : Fmt) (l : List FVal) : F.nanOut false l = F.qnan := rfl

theorem apply_nan (h : isNaN fp32 x.toNat) (canonical : v.nanm = false) : (f.apply v x).1.toNat = 0x7FC00000 := by
  simp only [Sfu.apply, src_nan v x.isLt h, canonical, nanOut_false]
  rfl

end

/-- R88: a special function in every selected lane, with rows of its table. -/
theorem sfuOp_leaves {s : State} {k : Nat} {w : Wave} {fr : Frag} (hi : Issues s k w fr) (h : Hdr) (r : Rnd) (d a : VOp) (f : Sfu)
    {table : List (Nat × Nat)} (rows : ∀ x : Word, ∀ p ∈ table, x.toNat = p.1 → (f.apply (envOf w r) x).1.toNat = p.2) :
    ∃ z, sfuOp f h r d a s = .next z ∧
      LaneWrites s k w fr h 8 d (fun l v => v = (f.apply (envOf w r) (inA s w a l)).1 ∧
          (∀ p ∈ table, (inA s w a l).toNat = p.1 → v.toNat = p.2) ∧
          (isNaN fp32 (inA s w a l).toNat → modeNanm w.mode = false → v.toNat = 0x7FC00000))
        (fun l i => (f.apply (envOf w r) (inA s w a l)).2.getLsbD i = true) z :=
  laneOp_leaves hi (fun _ => ⟨rfl, rows _, apply_nan (envOf w r) f⟩) fun _ _ => Iff.rfl

/-- Settles O6: the results are the table's at the zeros, the infinities and the NaNs, and the bounded ones are the model's. -/
theorem specialFunctions : Obligations.SpecialFunctions := by
  intro s k w fr hi h r d a
  have lanes (f : Sfu) {table : List (Nat × Nat)} := sfuOp_leaves hi h r d a f (table := table)
  refine ⟨lanes .rcp fun x => apply_rows _ .rcp, lanes .rsq fun x => apply_rows _ .rsq, lanes .exp fun x => apply_rows _ .exp,
    lanes .exp2 fun x => ?exp2, lanes .log2 fun x => ?log2, lanes .sin fun x => apply_rows _ .sin, lanes .cos fun x => apply_rows _ .cos,
    lanes .tanh fun x => apply_rows _ .tanh⟩
  case exp2 =>
    refine (List.forall_mem_append (l₁ := [_, _, _, _]) (l₂ := [_])).2 ⟨apply_rows _ .exp2, ?_⟩
    rw [List.forall_mem_singleton]
    exact apply_exp2_one _
  case log2 =>
    refine (List.forall_mem_append (l₁ := [_, _, _, _]) (l₂ := [_, _])).2 ⟨apply_rows _ .log2, ?_⟩
    rw [List.forall_mem_cons, List.forall_mem_singleton]
    exact ⟨apply_log2_one _, apply_log2_eight _⟩

end Sys2Proof.Machine
end

section
/-! PROOFS. Selection and movement of the lanes (R97, R98), and compression (R95). -/

namespace Sys2Proof.Machine

open Sys2Proof.Claim

/-! ### Moves (R97, R98) -/

/-- R52: p7 reads 1, so naming it is no second case. -/
theorem rdP_eq_true_or (s : State) (w : Wave) (slot n l : Nat) : (n = 7 ∨ rdP s w slot n l = true) ↔ rdP s w slot n l = true :=
  or_iff_right_of_imp fun h => h ▸ rdP_seven s w slot l

/-- A guard that selects a lane has a mask. -/
theorem sel_ne_zero {s : State} {w : Wave} {fr : Frag} {g : Guard} {m : Nat} (picked : Picked s w fr g m) : sel s w fr g ≠ 0 := by
  intro none
  have set := (getLsbD_sel_picked s w fr g m).2 picked
  rw [none] at set
  simp at set

/-- A guard that selects no lane has an empty mask. -/
theorem sel_eq_zero {s : State} {w : Wave} {fr : Frag} {g : Guard} (none : ¬∃ m, Picked s w fr g m) : sel s w fr g = 0 := by
  apply BitVec.eq_of_getLsbD_eq
  intro i _
  rw [Bool.eq_iff_iff, getLsbD_sel_picked]
  simpa using fun picked => none ⟨i, picked⟩

/-- R98: the lowest selected lane is the first that the mask lists. -/
theorem lanesOf_sel_headD {s : State} {w : Wave} {fr : Frag} {g : Guard} {m : Nat} (picked : Picked s w fr g m)
    (lowest : ∀ l, Picked s w fr g l → m ≤ l) : (lanesOf (sel s w fr g)).headD 0 = m := by
  have sorted := lanesOf_sorted (sel s w fr g)
  have mem := mem_lanesOf_sel.2 picked
  cases e : lanesOf (sel s w fr g) with
  | nil => simp [e] at mem
  | cons l r =>
    rw [e] at sorted mem
    have least := lowest l (mem_lanesOf_sel.1 (e ▸ List.mem_cons_self))
    rcases List.mem_cons.1 mem with rfl | later
    · rfl
    · exact absurd ((List.pairwise_cons.1 sorted).1 m later) (not_lt.2 least)

section
variable {s : State} {k : Nat} {w : Wave} {fr : Frag} (hi : Issues s k w fr)
include hi

/-- R98: V2S with a lane selected writes the scalar. -/
theorem exec_v2s_selected (h : Hdr) (sd : Nat) (a : VOp) (b : Option Nat) {m : Nat} (picked : Picked s w fr h.g m) :
    ∃ z, exec (.v2s h sd a b) s = .next z ∧
      ScalarWrites s k w fr h.lat 8 sd (inA s w a (v2sLane s w (sel s w fr h.g) b)) (fun _ => False) z :=
  ⟨_, (onFrag_next hi.1 hi.2.1 hi.2.2 _).trans (congrArg _ (if_neg (sel_ne_zero picked))), scalarWrites_advance ..⟩

/-- R98: V2S with no lane selected only goes on. -/
theorem exec_v2s_none (h : Hdr) (sd : Nat) (a : VOp) (b : Option Nat) (none : ¬∃ m, Picked s w fr h.g m) :
    exec (.v2s h sd a b) s = .next (advance s k w fr 8) :=
  (onFrag_next hi.1 hi.2.1 hi.2.2 _).trans (congrArg _ (if_pos (sel_eq_zero none)))

/-- R96, R97: a lane-wise move of a value. -/
theorem laneOp_moves {h : Hdr} {len : Nat} {d : VOp} (f : Wave → Nat → Word) :
    ∃ z, laneOp s h len d (fun w l => (f w l, 0)) = .next z ∧ LaneWrites s k w fr h len d (fun l v => v = f w l) quiet z :=
  laneOp_leaves_quiet hi (fun _ => rfl) fun _ => rfl

end

/-- R97, R98: the moves. -/
theorem moves : Claim.Moves := by
  intro s k w fr hi h t d a b n sd sa sb imm
  refine ⟨?select, laneOp_moves hi fun w l => opA s w a l, laneOp_moves hi fun _ _ => imm, laneOp_moves hi fun w _ => rdS s w 1 sa,
    laneOp_moves hi fun w l => rdS s w 1 (sa + l), fun m picked lowest => ?lowest,
    fun ⟨m, picked⟩ => exec_v2s_selected hi h sd a (some sb) picked,
    fun o none => ⟨_, exec_v2s_none hi h sd a o none, onlyWave_advance s k w fr 8⟩⟩
  case select =>
    simp only [rdP_eq_true_or]
    exact laneOp_moves hi fun w l => if rdP s w 5 n l then opA s w a l else opB s w b l
  case lowest =>
    have lane : v2sLane s w (sel s w fr h.g) none = m := lanesOf_sel_headD picked lowest
    exact lane ▸ exec_v2s_selected hi h sd a none picked

/-! ### The two kept of four (R95) -/

/-- Element `x` comes before element `y`: its key is greater, or equal at a lower index. -/
def Before (key : Nat → Nat) (x y : Nat) : Prop := key y < key x ∨ (key y = key x ∧ x < y)

/-- Elements `i` and `j` of four are kept, in ascending order. -/
def KeepsTwo (key : Nat → Nat) (i j : Nat) : Prop :=
  i < j ∧ j < 4 ∧ ∀ x, (x = i ∨ x = j) → ∀ y, y < 4 → y ≠ i → y ≠ j → Before key x y

/-- The elements that fewer than two others precede. -/
def firstTwo (before : Nat → Nat → Bool) : List Nat :=
  (List.range 4).filter fun i => ((List.range 4).filter fun j => before j i).length < 2

/-- A comparison of four elements, given for each two of them. -/
def beats (b01 b02 b03 b12 b13 b23 : Bool) (x y : Nat) : Bool :=
  match x, y with
  | 0, 1 => b01 | 1, 0 => !b01 | 0, 2 => b02 | 2, 0 => !b02 | 0, 3 => b03 | 3, 0 => !b03
  | 1, 2 => b12 | 2, 1 => !b12 | 1, 3 => b13 | 3, 1 => !b13 | 2, 3 => b23 | 3, 2 => !b23
  | _, _ => false

/-- The comparison has no cycle of three elements. -/
def acyclic (b01 b02 b03 b12 b13 b23 : Bool) : Bool :=
  (b01 != b12 || b02 == b01) && (b01 != b13 || b03 == b01) && (b02 != b23 || b03 == b02) && (b12 != b23 || b13 == b12)

/-- Where the comparison has no cycle, just two elements are kept, and each comes before the two left out. -/
theorem firstTwo_beats : ∀ b01 b02 b03 b12 b13 b23 : Bool, acyclic b01 b02 b03 b12 b13 b23 = true →
    ∃ i j : Fin 4, firstTwo (beats b01 b02 b03 b12 b13 b23) = [i.1, j.1] ∧ i < j ∧
      ∀ x y : Fin 4, (x = i ∨ x = j) → y ≠ i → y ≠ j → beats b01 b02 b03 b12 b13 b23 x y = true := by
  decide

/-- R95: of four keys, the two kept. -/
theorem kept_spec (key : Nat → Nat) : ∃ i j, kept ((List.range 4).map key) = [i, j] ∧ KeepsTwo key i j := by
  let b (x y : Nat) : Bool := decide (key y ≤ key x)
  have transitive : ∀ x y z, (b x y != b y z || b x z == b x y) = true := fun x y z => by
    simp only [b, Bool.or_eq_true, bne_iff_ne, beq_iff_eq, ne_eq, decide_eq_decide]
    omega
  obtain ⟨i, j, two, lt, first⟩ := firstTwo_beats (b 0 1) (b 0 2) (b 0 3) (b 1 2) (b 1 3) (b 2 3) (by
    rw [acyclic, transitive 0 1 2, transitive 0 1 3, transitive 0 2 3, transitive 1 2 3]; rfl)
  have before : ∀ x y : Fin 4, beats (b 0 1) (b 0 2) (b 0 3) (b 1 2) (b 1 3) (b 2 3) x y = true ↔ Before key x y := fun x y => by
    fin_cases x <;> fin_cases y <;> simp [beats, b, Before] <;> omega
  have at_ : ∀ x < 4, ((List.range 4).map key).getD x 0 = key x := fun x hx => by simp [List.getD_eq_getElem?_getD, hx]
  have list : kept ((List.range 4).map key) = firstTwo (beats (b 0 1) (b 0 2) (b 0 3) (b 1 2) (b 1 3) (b 2 3)) := by
    refine List.filter_congr fun x hx => ?_
    have inner : ∀ y ∈ List.range 4, (decide (((List.range 4).map key).getD x 0 < ((List.range 4).map key).getD y 0) ||
        decide (((List.range 4).map key).getD y 0 = ((List.range 4).map key).getD x 0) && decide (y < x)) =
          beats (b 0 1) (b 0 2) (b 0 3) (b 1 2) (b 1 3) (b 2 3) y x := fun y hy => by
      have hx := List.mem_range.1 hx
      have hy := List.mem_range.1 hy
      rw [Bool.eq_iff_iff, before ⟨y, hy⟩ ⟨x, hx⟩]
      simp only [at_ x hx, at_ y hy, Before, Bool.or_eq_true, Bool.and_eq_true, decide_eq_true_eq, eq_comm (a := key y)]
    rw [List.filter_congr inner]
  refine ⟨i, j, list.trans two, lt, j.isLt, fun x hx y hy hi hj => ?_⟩
  have hx4 : x < 4 := by
    rcases hx with rfl | rfl
    · exact i.isLt
    · exact j.isLt
  exact (before ⟨x, hx4⟩ ⟨y, hy⟩).1 (first _ _ (hx.imp Fin.ext Fin.ext) (Fin.ne_of_val_ne hi) (Fin.ne_of_val_ne hj))

/-! ### Packing what is kept -/

/-- Two bytes and a mask, packed. -/
theorem slices_bytes (x y : BitVec 8) {m : Nat} (hm : m < 2 ^ 16) :
    let v := BitVec.ofNat 32 (x.toNat + y.toNat * 2 ^ 8 + m * 2 ^ 16)
    Claim.slice 8 0 v = x ∧ Claim.slice 8 1 v = y ∧ v.toNat / 2 ^ 16 = m := by
  have hx := x.isLt
  have hy := y.isLt
  refine ⟨BitVec.eq_of_toNat_eq ?_, BitVec.eq_of_toNat_eq ?_, ?_⟩ <;>
    simp only [BitVec.extractLsb'_toNat, BitVec.toNat_ofNat, Nat.shiftRight_eq_div_pow] <;> omega

/-- Two halves, packed. -/
theorem slices_halves (x y : BitVec 16) :
    let v := BitVec.ofNat 32 (x.toNat + y.toNat * 2 ^ 16)
    Claim.slice 16 0 v = x ∧ Claim.slice 16 1 v = y := by
  have hx := x.isLt
  have hy := y.isLt
  refine ⟨BitVec.eq_of_toNat_eq ?_, BitVec.eq_of_toNat_eq ?_⟩ <;>
    simp only [BitVec.extractLsb'_toNat, BitVec.toNat_ofNat, Nat.shiftRight_eq_div_pow] <;> omega

/-- A field of bits is the slice there. -/
theorem bits_eq_slice (n i : Nat) (pos : 0 < n) (x : Word) : bits x.toNat (n * i + (n - 1)) (n * i) = (Claim.slice n i x).toNat := by
  rw [BitVec.extractLsb'_toNat, bits, show n * i + (n - 1) - n * i + 1 = n by omega]

/-- The mask of two kept indices. -/
theorem two_pow_add_lt {i j : Nat} (hi : i < 4) (hj : j < 4) : 2 ^ i + 2 ^ j < 2 ^ 16 := by
  have h1 : 2 ^ i ≤ 2 ^ 3 := Nat.pow_le_pow_right (by decide) (Nat.le_of_lt_succ hi)
  have h2 : 2 ^ j ≤ 2 ^ 3 := Nat.pow_le_pow_right (by decide) (Nat.le_of_lt_succ hj)
  omega

/-- Keys that agree keep the same two. -/
theorem keepsTwo_congr {key key' : Nat → Nat} (agree : ∀ x < 4, key x = key' x) {i j : Nat} (h : KeepsTwo key i j) : KeepsTwo key' i j := by
  obtain ⟨lt, hj, first⟩ := h
  refine ⟨lt, hj, fun x hx y hy hi hj' => ?_⟩
  have hx4 : x < 4 := by omega
  have := first x hx y hy hi hj'
  rwa [Before, agree x hx4, agree y hy] at this

/-- R95: what VCMPRS keeps, in elements `el` of a width and their keys. -/
theorem cmprs_spec (t : Ty) (a b : Word) {el key : Nat → Nat} (n : Nat) (width : n = if t = .i8 then 8 else 16)
    (elements : ∀ i < 4, (if t = .i8 then bits a.toNat (8 * i + 7) (8 * i) else bits (if i < 2 then a else b).toNat (16 * (i % 2) + 15) (16 * (i % 2))) = el i)
    (keys : ∀ i < 4, cmprsKey t (el i) = key i) :
    ∃ i j, KeepsTwo key i j ∧ cmprs t a b = (el i + el j * 2 ^ n, 2 ^ i + 2 ^ j) := by
  obtain ⟨i, j, two, keeps⟩ := kept_spec key
  refine ⟨i, j, keeps, ?_⟩
  obtain ⟨lt, hj, -⟩ := keeps
  have map : ((List.range 4).map fun i => cmprsKey t
      (if t = .i8 then bits a.toNat (8 * i + 7) (8 * i) else bits (if i < 2 then a else b).toNat (16 * (i % 2) + 15) (16 * (i % 2)))) =
        (List.range 4).map key := List.map_congr_left fun i hi => by
    have hi := List.mem_range.1 hi
    rw [elements i hi, keys i hi]
  simp only [cmprs, map, two, List.getD_cons_zero, List.getD_cons_succ]
  rw [elements i (by omega), elements j hj, width]

/-- R95: the keys and elements of four INT8. -/
theorem cmprs_i8 (a : Word) :
    ∃ i j, KeepsTwo (fun x => (Claim.slice 8 x a).toInt.natAbs) i j ∧
      cmprs .i8 a 0 = ((Claim.slice 8 i a).toNat + (Claim.slice 8 j a).toNat * 2 ^ 8, 2 ^ i + 2 ^ j) := by
  refine cmprs_spec .i8 a 0 (el := fun i => (Claim.slice 8 i a).toNat) 8 rfl (fun i _ => bits_eq_slice 8 i (by decide) a) fun i _ => ?_
  show (signed _ 8).natAbs = _
  rw [signed_eq, BitVec.ofNat_toNat, BitVec.setWidth_eq]

/-- Element `i` of four halves in two registers. -/
def halfOf (a b : Word) (i : Nat) : BitVec 16 := if i < 2 then Claim.slice 16 i a else Claim.slice 16 (i - 2) b

/-- The key of a half: its magnitude, every NaN above the infinities. -/
def halfKey (f : Fmt) (x : Nat) : Nat := if isNaN f x then 0x8000 else x % 2 ^ 15

theorem cmprsKey_pf16 (x : Nat) : cmprsKey .pf16 x = halfKey fp16 x := by
  have nan : isNaN fp16 x ↔ 0x7C00 < x % 2 ^ 15 := by simp [isNaN, expOf, fracOf, fp16]; omega
  simp only [cmprsKey, halfKey, nan]

theorem cmprsKey_pbf16 (x : Nat) : cmprsKey .pbf16 x = halfKey bf16 x := by
  have nan : isNaN bf16 x ↔ 0x7F80 < x % 2 ^ 15 := by simp [isNaN, expOf, fracOf, bf16]; omega
  simp only [cmprsKey, halfKey, nan]

/-- R95: the keys and elements of four packed floating numbers. -/
theorem cmprs_half {t : Ty} (ht : t = .pf16 ∨ t = .pbf16) (a b : Word) :
    ∃ i j, KeepsTwo (fun x => halfKey (fmtOf t) (halfOf a b x).toNat) i j ∧
      cmprs t a b = ((halfOf a b i).toNat + (halfOf a b j).toNat * 2 ^ 16, 2 ^ i + 2 ^ j) := by
  have notByte : t ≠ .i8 := by rcases ht with rfl | rfl <;> decide
  refine cmprs_spec t a b (el := fun i => (halfOf a b i).toNat) 16 (if_neg notByte).symm (fun i hi => ?_) fun i _ => ?_
  · rw [if_neg notByte, halfOf]
    split
    · next low => rw [Nat.mod_eq_of_lt low]; exact bits_eq_slice 16 i (by decide) a
    · next high => rw [show i % 2 = i - 2 by omega]; exact bits_eq_slice 16 (i - 2) (by decide) b
  · rcases ht with rfl | rfl
    · exact cmprsKey_pf16 _
    · exact cmprsKey_pbf16 _

/-- R95: VCMPRS of halves writes two registers. -/
theorem exec_vcmprs_half {s : State} {k : Nat} {w : Wave} {fr : Frag} (hi : Issues s k w fr) (h : Hdr) (t : Ty) (n : Nat) (a b : VOp) :
    ∃ z w', exec (.vcmprs h t (.v n) a (some b)) s = .next z ∧ OnlyWave s k w' z ∧
      (∀ l, Picked s w fr h.g l → w'.vraw n l = BitVec.ofNat 32 (cmprs t (inA s w a l) (inB s w b l)).1 ∧
        w'.vraw (n + 1) l = BitVec.ofNat 32 (cmprs t (inA s w a l) (inB s w b l)).2) ∧
      (∀ f l, l < 32 → ¬((f = n ∨ f = n + 1) ∧ Picked s w fr h.g l) → w'.vraw f l = w.vraw f l) ∧
      w' = { w with
        vreg := w'.vreg
        inflight := w.inflight ++ [n, n + 1].map fun f => { reg := .vec f, lanes := sel s w fr h.g, due := s.cycle + h.lat }
        frags := at_ w fr (pcAdd fr.pc 8) } := by
  obtain ⟨actor, wave, frag⟩ := hi
  refine ⟨_, _, onFrag_next actor wave frag _, onlyWave_advance _ _ _ _ _, fun l hl => ⟨?first, ?second⟩, fun y l hl hn => ?kept, ?rest⟩
  case first =>
    exact ((vraw_wrV_sel s _ w fr h.g (.v (n + 1)) _ n hl.1).1 hl).trans ((if_neg (Nat.ne_of_lt (Nat.lt_succ_self n))).trans
      (((vraw_wrV_sel s w w fr h.g (.v n) _ n hl.1).1 hl).trans (if_pos rfl)))
  case second => exact ((vraw_wrV_sel s _ w fr h.g (.v (n + 1)) _ (n + 1) hl.1).1 hl).trans (if_pos rfl)
  case kept =>
    obtain ⟨firstIn, firstOut⟩ := vraw_wrV_sel s w w fr h.g (.v n) (fun l => BitVec.ofNat 32 (cmprs t (inA s w a l) (inB s w b l)).1) y hl
    obtain ⟨secondIn, secondOut⟩ := vraw_wrV_sel s (w.wrV (.v n) (sel s w fr h.g) fun l => BitVec.ofNat 32 (cmprs t (inA s w a l) (inB s w b l)).1)
      w fr h.g (.v (n + 1)) (fun l => BitVec.ofNat 32 (cmprs t (inA s w a l) (inB s w b l)).2) y hl
    by_cases hp : Picked s w fr h.g l
    · exact (secondIn hp).trans ((if_neg fun e => hn ⟨.inr e, hp⟩).trans ((firstIn hp).trans (if_neg fun e => hn ⟨.inl e, hp⟩)))
    · exact (secondOut hp).trans (firstOut hp)
  case rest =>
    simp only [Wave.mark, Wave.wrV, List.append_assoc]
    rfl

/-- R95: VCMPRS keeps two of four elements. -/
theorem compress : Claim.Compress := by
  intro s k w fr hi h a b d n
  refine ⟨laneOp_leaves_quiet hi (fun l => ?bytes) fun l => rfl, fun t ht => ?halves⟩
  case bytes =>
    obtain ⟨i, j, keeps, result⟩ := cmprs_i8 (inA s w a l)
    obtain ⟨lt, hj, -⟩ := id keeps
    have value : cmprs .i8 (opA s w a l) 0 = _ := result
    simp only [value]
    obtain ⟨low, high, mask⟩ := slices_bytes (Claim.slice 8 i (inA s w a l)) (Claim.slice 8 j (inA s w a l))
      (two_pow_add_lt (lt.trans hj) hj)
    exact ⟨i, j, keeps, low, high, mask⟩
  case halves =>
    obtain ⟨z, w', step, only, written, rest⟩ := exec_vcmprs_half hi h t n a b
    refine ⟨z, w', step, only, fun l hl => ?_, rest⟩
    obtain ⟨i, j, keeps, result⟩ := cmprs_half ht (inA s w a l) (inB s w b l)
    obtain ⟨lt, hj, -⟩ := id keeps
    obtain ⟨first, second⟩ := written l hl
    rw [result] at first second
    obtain ⟨low, high⟩ := slices_halves (halfOf (inA s w a l) (inB s w b l) i) (halfOf (inA s w a l) (inB s w b l) j)
    refine ⟨i, j, keeps, ?_, ?_, ?_⟩
    · rw [first]; exact low
    · rw [first]; exact high
    · rw [second]
      exact Nat.mod_eq_of_lt ((two_pow_add_lt (lt.trans hj) hj).trans (by decide))

/-- Settles O25: the moves by `moves`; the two kept elements are the first two in the order of keys, by `kept_spec`. -/
theorem movesAndCompress : Obligations.MovesAndCompress := ⟨moves, compress⟩

end Sys2Proof.Machine
end

section
/-! PROOFS. Rounding to a grid (R65): the class of the remainder, the direction that a mode chooses, and the threshold past which the rounded
number lies. -/

namespace Sys2Proof.Machine

section
variable {K : Type*} [Field K] [LinearOrder K] [IsStrictOrderedRing K]

/-- The remainder class of `x` between two grid points: 0 on the lower, 1 below the middle, 2 on it, 3 above it. -/
def Classed (lo hi x : K) (c : Nat) : Prop :=
  (c = 0 ∧ x = lo) ∨ (c = 1 ∧ lo < x ∧ x < (lo + hi) / 2) ∨ (c = 2 ∧ x = (lo + hi) / 2) ∨ (c = 3 ∧ (lo + hi) / 2 < x ∧ x < hi)

/-- A magnitude between two grid points is rounded to the upper (R65): `neg` is the number's sign, `odd` tells whether the lower is odd. -/
def Goes (rm : Nat) (neg : Bool) (lo hi x : K) (odd : Prop) : Prop :=
  match rm with
  | 2 => False
  | 3 => neg = false ∧ lo < x
  | 4 => neg = true ∧ lo < x
  | 5 => (lo + hi) / 2 ≤ x
  | _ => (lo + hi) / 2 < x ∨ (x = (lo + hi) / 2 ∧ odd)

/-- A magnitude that is rounded to `b` or above, `a` being the grid point before `b` and odd. -/
def Past (rm : Nat) (neg : Bool) (a b x : K) : Prop :=
  match rm with
  | 2 => b ≤ x
  | 3 => if neg then b ≤ x else a < x
  | 4 => if neg then a < x else b ≤ x
  | _ => (a + b) / 2 ≤ x

variable {lo hi x : K} {c : Nat}

theorem Classed.bounds (h : Classed lo hi x c) (lt : lo < hi) : lo ≤ x ∧ x < hi := by
  have mid := left_lt_add_div_two.2 lt
  have mid' := add_div_two_lt_right.2 lt
  rcases h with ⟨-, rfl⟩ | ⟨-, h1, h2⟩ | ⟨-, rfl⟩ | ⟨-, h1, h2⟩
  · exact ⟨le_rfl, lt⟩
  · exact ⟨h1.le, h2.trans mid'⟩
  · exact ⟨mid.le, mid'⟩
  · exact ⟨(mid.trans h1).le, h2⟩

/-- The class is 0 on the lower grid point alone. -/
theorem Classed.eq_zero_iff (h : Classed lo hi x c) (lt : lo < hi) : c = 0 ↔ x = lo := by
  have mid := left_lt_add_div_two.2 lt
  rcases h with ⟨rfl, rfl⟩ | ⟨rfl, h1, h2⟩ | ⟨rfl, rfl⟩ | ⟨rfl, h1, h2⟩
  · simp
  · simp [h1.ne']
  · simp [mid.ne']
  · simp [(mid.trans h1).ne']

/-- R65: the direction that the model chooses from the class. -/
theorem roundUp_iff (h : Classed lo hi x c) (lt : lo < hi) (rm : Nat) (neg : Bool) (q : Nat) :
    roundUp rm neg q c = true ↔ Goes rm neg lo hi x (q % 2 = 1) := by
  have mid := left_lt_add_div_two.2 lt
  rcases h with ⟨rfl, rfl⟩ | ⟨rfl, h1, h2⟩ | ⟨rfl, rfl⟩ | ⟨rfl, h1, h2⟩
  · rcases rm with _ | _ | _ | _ | _ | _ | rm <;> simp [Goes, roundUp, mid, mid.ne, mid.not_gt]
  · rcases rm with _ | _ | _ | _ | _ | _ | rm <;> simp [Goes, roundUp, h1, h2, h2.ne, h2.not_gt]
  · rcases rm with _ | _ | _ | _ | _ | _ | rm <;> simp [Goes, roundUp, mid]
  · rcases rm with _ | _ | _ | _ | _ | _ | rm <;> simp [Goes, roundUp, mid.trans h1, h1, h1.le]

/-- R65: on a grid, the rounded number is at or above grid point `n` just where the number lies past the threshold before it. -/
theorem le_rounded_iff {g : Nat → K} (mono : StrictMono g) {t : Nat} (lower : g t ≤ x) (upper : x < g (t + 1)) {rm : Nat} {neg up : Bool}
    (dir : up = true ↔ Goes rm neg (g t) (g (t + 1)) x (t % 2 = 1)) {n : Nat} (pos : 0 < n) (even : n % 2 = 0) :
    n ≤ (if up then t + 1 else t) ↔ Past rm neg (g (n - 1)) (g n) x := by
  have before : g (n - 1) < g n := mono (by omega)
  have mid := left_lt_add_div_two.2 before
  have mid' := add_div_two_lt_right.2 before
  rcases lt_trichotomy (t + 1) n with low | rfl | high
  · have small : x < g (n - 1) := upper.trans_le (mono.monotone (by omega))
    have lhs : ¬n ≤ (if up then t + 1 else t) := by split <;> omega
    refine iff_of_false lhs ?_
    unfold Past
    split <;> simp [small.not_gt, (small.trans before).not_ge, (small.trans mid).not_ge]
  · have odd : t % 2 = 1 := by omega
    have lhs : t + 1 ≤ (if up then t + 1 else t) ↔ up = true := by split <;> simp_all
    rw [lhs, dir, Nat.add_sub_cancel]
    unfold Goes Past
    split <;> simp [upper.not_ge, odd, le_iff_lt_or_eq, eq_comm]
  · have large : g n ≤ x := (mono.monotone (by omega)).trans lower
    have lhs : n ≤ (if up then t + 1 else t) := by split <;> omega
    refine iff_of_true lhs ?_
    unfold Past
    split <;> simp [large, before.trans_le large, (mid'.trans_le large).le]

/-- A number as a multiple of 2^u: the floor, and the class of the remainder (R65). -/
theorem shiftTo_classed (m : Nat) (e u : Int) :
    Classed (((shiftTo m e u false).1 : K) * 2 ^ u) (((shiftTo m e u false).1 + 1 : K) * 2 ^ u) ((m : K) * 2 ^ e) (shiftTo m e u false).2 := by
  have two : (2 : K) ≠ 0 := two_ne_zero
  unfold shiftTo
  split
  · next le =>
    refine .inl ⟨rfl, ?_⟩
    obtain ⟨k, hk⟩ := Int.eq_ofNat_of_zero_le (Int.sub_nonneg.2 le)
    rw [hk, Int.toNat_natCast, show e = u + k by omega, zpow_add₀ two]
    push_cast
    rw [zpow_natCast]
    ring
  · next gt =>
    obtain ⟨k, hk⟩ := Int.eq_succ_of_zero_lt (Int.sub_pos.2 (not_le.1 gt))
    have hu : u = e + (k + 1 : Nat) := by omega
    have unit : (0 : K) < 2 ^ e := zpow_pos two_pos e
    have mid : ∀ q : K, (q * 2 ^ u + (q + 1) * 2 ^ u) / 2 = (q * 2 ^ (k + 1) + 2 ^ k) * 2 ^ e := fun q => by
      rw [hu, zpow_add₀ two, zpow_natCast, pow_succ]
      ring
    have low : ∀ q : K, q * 2 ^ u = (q * 2 ^ (k + 1)) * 2 ^ e := fun q => by
      rw [hu, zpow_add₀ two, zpow_natCast]
      ring
    have split : (m : K) = (m / 2 ^ (k + 1) : Nat) * 2 ^ (k + 1) + (m % 2 ^ (k + 1) : Nat) := by
      exact_mod_cast (Nat.div_add_mod' m (2 ^ (k + 1))).symm
    have rest : m % 2 ^ (k + 1) < 2 * 2 ^ k := by rw [← pow_succ']; exact Nat.mod_lt _ (Nat.two_pow_pos _)
    have toNat : (u - e).toNat = k + 1 := by omega
    simp only [toNat, Nat.add_sub_cancel, Bool.false_eq_true, if_false]
    unfold Classed
    rw [mid, low, low, split]
    generalize m % 2 ^ (k + 1) = r at rest
    generalize ((m / 2 ^ (k + 1) : Nat) : K) = q
    have cast : ((2 ^ k : Nat) : K) = 2 ^ k := by push_cast; rfl
    rw [← cast]
    have top : ((q + 1) * 2 ^ (k + 1) : K) = q * 2 ^ (k + 1) + 2 * (2 ^ k : Nat) := by push_cast; ring
    simp only [mul_lt_mul_iff_left₀ unit, mul_right_cancel_iff_of_pos unit, top, add_lt_add_iff_left, add_left_cancel_iff, lt_add_iff_pos_right,
      add_eq_left, Nat.cast_lt, Nat.cast_inj, Nat.cast_pos, Nat.cast_eq_zero]
    have bound : (r : K) < 2 * (2 ^ k : Nat) := by exact_mod_cast rest
    simp only [bound]
    split_ifs <;> simp <;> omega

end

end Sys2Proof.Machine
end

section
/-! PROOFS. Rounding to an integer (R65, R87, R91). -/

namespace Sys2Proof.Machine

open Sys2Proof.Claim

/-! ### Signed magnitudes -/

/-- The number of a sign and a magnitude. -/
def signedBy {K : Type*} [Neg K] (neg : Bool) (x : K) : K := if neg then -x else x

section
variable {K : Type*} [Ring K]

@[simp] theorem signedBy_false (x : K) : signedBy false x = x := rfl
@[simp] theorem signedBy_true (x : K) : signedBy true x = -x := rfl

@[simp] theorem signedBy_zero (neg : Bool) : signedBy neg (0 : K) = 0 := by cases neg <;> simp

theorem signedBy_inj {neg : Bool} {x y : K} : signedBy neg x = signedBy neg y ↔ x = y := by cases neg <;> simp

theorem signedBy_eq_zero {neg : Bool} {x : K} : signedBy neg x = 0 ↔ x = 0 := by cases neg <;> simp

end

/-- The rounding mode that takes the negated number to the negated result. -/
def mirrored : Nat → Nat
  | 3 => 4
  | 4 => 3
  | rm => rm

theorem goes_true {K : Type*} [Field K] [LinearOrder K] (rm : Nat) (lo hi x : K) (odd : Prop) :
    Goes rm true lo hi x odd ↔ Goes (mirrored rm) false lo hi x odd := by
  rcases rm with _ | _ | _ | _ | _ | _ | rm <;> simp [Goes, mirrored]

theorem intOf_neg (rm : Nat) (x : ℚ) (n : Int) : IntOf rm (-x) (-n) ↔ IntOf (mirrored rm) x n := by
  have gap : |-x - ((-n : Int) : ℚ)| = |x - n| := by
    push_cast
    rw [← abs_neg]
    congr 1
    ring
  have even : -n % 2 = 0 ↔ n % 2 = 0 := by omega
  rcases rm with _ | _ | _ | _ | _ | _ | rm <;> simp only [IntOf, mirrored, gap, even, abs_neg] <;> push_cast
  · simp
  · constructor <;> rintro ⟨h1, h2⟩ <;> exact ⟨by linarith, by linarith⟩
  · constructor <;> rintro ⟨h1, h2⟩ <;> exact ⟨by linarith, by linarith⟩
  · simp

/-! ### The integer that a mode gives a magnitude -/

section
variable {q : Nat} {x : ℚ} {up : Bool} (lower : (q : ℚ) ≤ x) (upper : x < q + 1)
include lower upper

/-- The distance to the upper or the lower integer. -/
theorem abs_sub_rounded : |x - ((if up then q + 1 else q : Nat) : Int)| = if up then (q : ℚ) + 1 - x else x - q := by
  cases up with
  | false => simpa using sub_nonneg.2 lower
  | true =>
    rw [abs_sub_comm]
    simpa using upper.le

theorem near_of_nearest (high : up = true → (q : ℚ) + 1 / 2 ≤ x) (low : up = false → x ≤ q + 1 / 2) :
    |x - ((if up then q + 1 else q : Nat) : Int)| ≤ 1 / 2 := by
  rw [abs_sub_rounded lower upper]
  cases up with
  | false => simpa using by linarith [low rfl]
  | true => simpa using by linarith [high rfl]

/-- R65: to nearest, ties to even. -/
theorem intOf_nearestEven (dir : up = true ↔ (q : ℚ) + 1 / 2 < x ∨ (x = q + 1 / 2 ∧ q % 2 = 1)) :
    |x - ((if up then q + 1 else q : Nat) : Int)| ≤ 1 / 2 ∧
      (|x - ((if up then q + 1 else q : Nat) : Int)| = 1 / 2 → ((if up then q + 1 else q : Nat) : Int) % 2 = 0) := by
  refine ⟨near_of_nearest lower upper (fun h => ?_) fun h => ?_, fun tie => ?_⟩
  · rcases dir.1 h with h | ⟨h, -⟩
    · exact h.le
    · exact h.ge
  · exact not_lt.1 fun lt => by simp [dir.2 (.inl lt)] at h
  · rw [abs_sub_rounded lower upper] at tie
    cases up with
    | false =>
      have mid : x = q + 1 / 2 := by simp at tie; linarith
      have even : ¬q % 2 = 1 := fun odd => Bool.noConfusion (dir.2 (.inr ⟨mid, odd⟩))
      simp only [Bool.false_eq_true, if_false]
      omega
    | true =>
      have mid : x = q + 1 / 2 := by simp at tie; linarith
      obtain lt | ⟨-, odd⟩ := dir.1 rfl
      · exact absurd mid lt.ne'
      · simp only [if_true]
        omega

/-- R65: to nearest, ties away from zero. -/
theorem intOf_nearestAway (dir : up = true ↔ (q : ℚ) + 1 / 2 ≤ x) :
    |x - ((if up then q + 1 else q : Nat) : Int)| ≤ 1 / 2 ∧
      (|x - ((if up then q + 1 else q : Nat) : Int)| = 1 / 2 → |x| < |(((if up then q + 1 else q : Nat) : Int) : ℚ)|) := by
  have nonneg : (0 : ℚ) ≤ q := Nat.cast_nonneg q
  refine ⟨near_of_nearest lower upper dir.1 fun h => ?_, fun tie => ?_⟩
  · exact not_lt.1 fun lt => by simp [dir.2 lt.le] at h
  · rw [abs_sub_rounded lower upper] at tie
    rw [abs_of_nonneg (nonneg.trans lower)]
    cases up with
    | false =>
      have mid : x = q + 1 / 2 := by simp at tie; linarith
      exact Bool.noConfusion (dir.2 mid.ge)
    | true => simpa [abs_of_nonneg (add_nonneg nonneg zero_le_one)] using upper

end

/-- R65: the integer that the mode's direction names is the one to which the mode takes a magnitude. -/
theorem intOf_of_goes {rm q c : Nat} {x : ℚ} (cls : Classed (q : ℚ) (q + 1) x c) {up : Bool}
    (dir : up = true ↔ Goes rm false (q : ℚ) (q + 1) x (q % 2 = 1)) : IntOf rm x ((if up then q + 1 else q : Nat) : Int) := by
  have nonneg : (0 : ℚ) ≤ q := Nat.cast_nonneg q
  obtain ⟨lower, upper⟩ := cls.bounds (lt_add_one _)
  have mid : ((q : ℚ) + (q + 1)) / 2 = q + 1 / 2 := by ring
  simp only [Goes, mid] at dir
  rcases rm with _ | _ | _ | _ | _ | _ | rm
  · exact intOf_nearestEven lower upper dir
  · exact intOf_nearestEven lower upper dir
  · have down : up = false := by simpa using dir
    simp [IntOf, down, abs_of_nonneg, nonneg, nonneg.trans lower, lower, upper, mul_nonneg]
  · cases up with
    | false => simpa [IntOf, upper.trans_le] using ⟨by simpa using dir, by linarith⟩
    | true => simpa [IntOf] using ⟨upper.le, by simpa using dir⟩
  · have down : up = false := by simpa using dir
    simp [IntOf, down, lower, upper]
  · exact intOf_nearestAway lower upper dir
  · exact intOf_nearestEven lower upper dir

/-- Two integers within a half of a number are equal, or the number lies in the middle between them. -/
theorem middle_of_near {x : ℚ} {n n' : Int} (near : |x - n| ≤ 1 / 2) (near' : |x - n'| ≤ 1 / 2) (lt : n < n') : n' = n + 1 ∧ x = n + 1 / 2 := by
  obtain ⟨-, h⟩ := abs_le.1 near
  obtain ⟨h', -⟩ := abs_le.1 near'
  have step : (n : ℚ) + 1 ≤ n' := by exact_mod_cast lt
  have mid : x = n + 1 / 2 := by linarith
  have next : (n' : ℚ) = n + 1 := by linarith
  exact ⟨by exact_mod_cast next, mid⟩

/-- A mode that takes a number to two integers takes none to the lesser of them. -/
theorem not_intOf_lt {rm : Nat} {x : ℚ} {n n' : Int} (h : IntOf rm x n) (h' : IntOf rm x n') : ¬n < n' := by
  intro lt
  have step : (n : ℚ) + 1 ≤ n' := by exact_mod_cast lt
  have nearestEven (near : |x - n| ≤ 1 / 2 ∧ (|x - n| = 1 / 2 → n % 2 = 0))
      (near' : |x - n'| ≤ 1 / 2 ∧ (|x - n'| = 1 / 2 → n' % 2 = 0)) : False := by
    obtain ⟨rfl, mid⟩ := middle_of_near near.1 near'.1 lt
    have even := near.2 (by rw [mid]; norm_num)
    have even' := near'.2 (by rw [mid]; push_cast; norm_num)
    omega
  rcases rm with _ | _ | _ | _ | _ | _ | rm
  · exact nearestEven h h'
  · exact nearestEven h h'
  · obtain ⟨le, gt, sign⟩ := h
    obtain ⟨le', gt', sign'⟩ := h'
    have same : |n| = |n'| := by
      have h1 : |n| < |n'| + 1 := by exact_mod_cast (by linarith : (|n| : ℚ) < |(n' : ℚ)| + 1)
      have h2 : |n'| < |n| + 1 := by exact_mod_cast (by linarith : (|n'| : ℚ) < |(n : ℚ)| + 1)
      omega
    obtain e | e := abs_eq_abs.1 same
    · omega
    · have pos : (0 : ℚ) < n' := by exact_mod_cast (by omega : 0 < n')
      have zero : x = 0 := by
        rw [e] at sign
        push_cast at sign
        nlinarith
      rw [zero, abs_zero, abs_of_pos pos] at le'
      linarith
  · linarith [h.1, h.2, h'.1, h'.2]
  · linarith [h.1, h.2, h'.1, h'.2]
  · obtain ⟨rfl, mid⟩ := middle_of_near h.1 h'.1 lt
    have away := h.2 (by rw [mid]; norm_num)
    have away' := h'.2 (by rw [mid]; push_cast; norm_num)
    rw [mid] at away away'
    push_cast at away'
    rcases le_or_gt 0 n with pos | neg
    · have pos : (0 : ℚ) ≤ n := by exact_mod_cast pos
      rw [abs_of_nonneg pos, abs_of_nonneg (by linarith)] at away
      linarith
    · have neg : (n : ℚ) + 1 ≤ 0 := by exact_mod_cast neg
      rw [abs_of_nonpos neg, abs_of_nonpos (by linarith)] at away'
      linarith
  · exact nearestEven h h'

/-- R65: a mode takes a number to one integer. -/
theorem intOf_unique {rm : Nat} {x : ℚ} {n n' : Int} (h : IntOf rm x n) (h' : IntOf rm x n') : n = n' :=
  le_antisymm (not_lt.1 (not_intOf_lt h' h)) (not_lt.1 (not_intOf_lt h h'))

/-- An integer is taken to itself. -/
theorem intOf_self (rm : Nat) (n : Int) : IntOf rm n n := by
  rcases rm with _ | _ | _ | _ | _ | _ | rm <;> simp [IntOf, mul_self_nonneg]

/-- R65: `roundAt` at unit 1 gives the integer of the mode, and tells whether the number is another. -/
theorem intOf_roundAt (rm : Nat) (neg : Bool) (m : Nat) (e : Int) :
    let n : Int := signedBy neg ((roundAt rm neg m e 0 false).1 : Int)
    let x : ℚ := signedBy neg ((m : ℚ) * 2 ^ e)
    IntOf rm x n ∧ ((roundAt rm neg m e 0 false).2 = true ↔ (n : ℚ) ≠ x) := by
  have cls := shiftTo_classed (K := ℚ) m e 0
  simp only [zpow_zero, mul_one] at cls
  have dir := roundUp_iff cls (lt_add_one _) rm neg (shiftTo m e 0 false).1
  have int : IntOf rm (signedBy neg ((m : ℚ) * 2 ^ e)) (signedBy neg ((roundAt rm neg m e 0 false).1 : Int)) := by
    cases neg with
    | false => exact intOf_of_goes cls dir
    | true =>
      rw [goes_true] at dir
      exact (intOf_neg rm _ _).2 (intOf_of_goes cls dir)
  refine ⟨int, ?_⟩
  have inexact : (roundAt rm neg m e 0 false).2 = true ↔ (shiftTo m e 0 false).2 ≠ 0 := by simp [roundAt]
  rw [inexact, Ne, Ne, not_iff_not, cls.eq_zero_iff (lt_add_one _)]
  constructor
  · intro exact_
    have self := intOf_self rm (signedBy neg ((shiftTo m e 0 false).1 : Int))
    have cast : ((signedBy neg ((shiftTo m e 0 false).1 : Int) : Int) : ℚ) = signedBy neg ((m : ℚ) * 2 ^ e) := by
      rw [exact_]
      cases neg <;> simp
    rw [cast] at self
    rw [← cast, intOf_unique int self]
  · intro integral
    have eq : (((roundAt rm neg m e 0 false).1 : Nat) : ℚ) = (m : ℚ) * 2 ^ e := by
      cases neg <;> simpa using integral
    obtain ⟨lower, upper⟩ := cls.bounds (lt_add_one _)
    rw [← eq] at lower upper ⊢
    have h1 : (shiftTo m e 0 false).1 ≤ (roundAt rm neg m e 0 false).1 := by exact_mod_cast lower
    have h2 : (roundAt rm neg m e 0 false).1 < (shiftTo m e 0 false).1 + 1 := by exact_mod_cast upper
    exact_mod_cast (by omega : (roundAt rm neg m e 0 false).1 = (shiftTo m e 0 false).1)

end Sys2Proof.Machine
end

section
/-! PROOFS. The encodings of a format and the numbers that they stand for (R62). -/

namespace Sys2Proof.Machine

open Sys2Proof.Claim

/-- What the proofs about a format use of its widths. -/
structure Fmt.Usual (f : Fmt) : Prop where
  two_le_eb : 2 ≤ f.eb
  one_le_mb : 1 ≤ f.mb
  mb_le_bias : f.mb ≤ f.bias
  width_le : f.width ≤ 32

theorem usual_fmtOf (t : Ty) : (fmtOf t).Usual := by cases t <;> constructor <;> decide

theorem usual_fp32 : fp32.Usual := usual_fmtOf .f32

/-- The exponent of the least unit of a format. -/
def Fmt.unit (f : Fmt) : Int := f.emin - f.mb

/-- The magnitude from which encodings are infinities and NaNs. -/
def Fmt.limit (f : Fmt) : Nat := f.top * 2 ^ f.mb

/-- The encoding of a sign and a magnitude. -/
def Fmt.encode (f : Fmt) (neg : Bool) (t : Nat) : Nat := sbit neg * 2 ^ (f.eb + f.mb) + t

/-- The number of a magnitude's encoding, as if the exponents had no end (R62). -/
def mag (K : Type*) [Field K] (f : Fmt) (t : Nat) : K :=
  if t / 2 ^ f.mb = 0 then (t : K) * 2 ^ f.unit else ((2 ^ f.mb + t % 2 ^ f.mb : Nat) : K) * 2 ^ ((t / 2 ^ f.mb - 1 : Nat) + f.unit)

/-! ### Widths -/

theorem Fmt.limit_lt (f : Fmt) : f.limit < 2 ^ (f.eb + f.mb) := by
  rw [Fmt.limit, pow_add]
  exact Nat.mul_lt_mul_of_pos_right (Nat.sub_lt (Nat.two_pow_pos _) one_pos) (Nat.two_pow_pos _)

section
variable {f : Fmt} (hf : f.Usual)
include hf

theorem Fmt.Usual.two_pow_eb : 2 ^ f.eb = 2 * (f.bias + 1) := by
  have := hf.two_le_eb
  have pos := Nat.two_pow_pos (f.eb - 1)
  rw [Fmt.bias, Nat.sub_add_cancel pos, ← pow_succ', Nat.sub_add_cancel (by omega)]

theorem Fmt.Usual.bias_pos : 1 ≤ f.bias := hf.one_le_mb.trans hf.mb_le_bias

theorem Fmt.Usual.top_eq : f.top = 2 * f.bias + 1 := by
  rw [Fmt.top, hf.two_pow_eb]
  omega

theorem Fmt.Usual.limit_even : f.limit % 2 = 0 := by
  rw [Fmt.limit, Nat.mul_mod, ← Nat.sub_add_cancel hf.one_le_mb, pow_succ]
  simp

theorem Fmt.Usual.limit_pos : 0 < f.limit := Nat.mul_pos (by rw [hf.top_eq]; omega) (Nat.two_pow_pos _)

end

/-! ### Magnitudes -/

/-- A magnitude of `q` units at a place. -/
theorem mag_place (K : Type*) [Field K] (f : Fmt) {q d : Nat} (lt : q < 2 ^ (f.mb + 1)) (h : d = 0 ∨ 2 ^ f.mb ≤ q) :
    mag K f (q + d * 2 ^ f.mb) = (q : K) * 2 ^ ((d : Int) + f.unit) := by
  have pos := Nat.two_pow_pos f.mb
  by_cases small : q < 2 ^ f.mb
  · obtain rfl : d = 0 := h.resolve_right (not_le.2 small)
    simp [mag, Nat.div_eq_of_lt small]
  · obtain ⟨r, rfl⟩ := Nat.exists_eq_add_of_le (not_lt.1 small)
    have hr : r < 2 ^ f.mb := by rw [pow_succ] at lt; omega
    have shape : 2 ^ f.mb + r + d * 2 ^ f.mb = r + (d + 1) * 2 ^ f.mb := by ring
    have quot : (r + (d + 1) * 2 ^ f.mb) / 2 ^ f.mb = d + 1 := by rw [Nat.add_mul_div_right _ _ pos, Nat.div_eq_of_lt hr, Nat.zero_add]
    have rest : (r + (d + 1) * 2 ^ f.mb) % 2 ^ f.mb = r := by rw [Nat.add_mul_mod_self_right, Nat.mod_eq_of_lt hr]
    rw [shape, mag, quot, rest, if_neg (Nat.succ_ne_zero d), Nat.add_sub_cancel]

section
variable (K : Type*) [Field K] [LinearOrder K] [IsStrictOrderedRing K] (f : Fmt)

/-- The magnitude after it. -/
theorem mag_place_succ {q d : Nat} (lt : q < 2 ^ (f.mb + 1)) (h : d = 0 ∨ 2 ^ f.mb ≤ q) :
    mag K f (q + d * 2 ^ f.mb + 1) = ((q : K) + 1) * 2 ^ ((d : Int) + f.unit) := by
  by_cases last : q + 1 < 2 ^ (f.mb + 1)
  · have next := mag_place K f last (h.imp_right fun h => h.trans (Nat.le_succ q))
    rw [Nat.add_right_comm] at next
    push_cast at next
    exact next
  · have end_ : q + 1 = 2 * 2 ^ f.mb := by rw [← pow_succ']; omega
    have shape : q + d * 2 ^ f.mb + 1 = 2 ^ f.mb + (d + 1) * 2 ^ f.mb := by rw [Nat.add_right_comm, end_]; ring
    have cast : (q : K) + 1 = 2 * 2 ^ f.mb := by exact_mod_cast end_
    have next := mag_place K f (q := 2 ^ f.mb) (d := d + 1) (Nat.pow_lt_pow_right (by decide) (Nat.lt_succ_self _)) (.inr le_rfl)
    rw [shape, next, cast]
    push_cast
    rw [show (d : Int) + 1 + f.unit = d + f.unit + 1 by ring, zpow_add_one₀ two_ne_zero]
    ring

/-- Every magnitude lies at a place. -/
theorem exists_place (t : Nat) : ∃ q d, t = q + d * 2 ^ f.mb ∧ q < 2 ^ (f.mb + 1) ∧ (d = 0 ∨ 2 ^ f.mb ≤ q) := by
  have pos := Nat.two_pow_pos f.mb
  have rest := Nat.mod_lt t pos
  have whole := Nat.div_add_mod' t (2 ^ f.mb)
  rw [pow_succ]
  cases e : t / 2 ^ f.mb with
  | zero => exact ⟨t, 0, by simp, by rw [e] at whole; omega, .inl rfl⟩
  | succ d =>
    refine ⟨2 ^ f.mb + t % 2 ^ f.mb, d, ?_, by omega, .inr (Nat.le_add_right _ _)⟩
    rw [e, Nat.succ_mul] at whole
    omega

theorem mag_strictMono : StrictMono (mag K f) := by
  refine strictMono_nat_of_lt_succ fun t => ?_
  obtain ⟨q, d, rfl, lt, h⟩ := exists_place f t
  rw [mag_place K f lt h, mag_place_succ K f lt h]
  exact mul_lt_mul_of_pos_right (lt_add_one _) (zpow_pos two_pos _)

@[simp] theorem mag_zero : mag K f 0 = 0 := by simp [mag]

theorem mag_nonneg (t : Nat) : 0 ≤ mag K f t := (mag_zero K f).symm.le.trans ((mag_strictMono K f).monotone (Nat.zero_le t))

theorem cast_mag (t : Nat) : ((mag ℚ f t : ℚ) : ℝ) = mag ℝ f t := by
  unfold mag
  split <;> push_cast <;> rfl

variable {f}

/-- R62: the magnitudes around the end of the finite ones. -/
theorem mag_limit (hf : f.Usual) : mag K f f.limit = 2 ^ (2 ^ (f.eb - 1)) := by
  have bias := hf.bias_pos
  have shape : f.limit = 2 ^ f.mb + (2 * f.bias) * 2 ^ f.mb := by rw [Fmt.limit, hf.top_eq]; ring
  have place := mag_place K f (q := 2 ^ f.mb) (d := 2 * f.bias) (Nat.pow_lt_pow_right (by decide) (Nat.lt_succ_self _)) (.inr le_rfl)
  have top : 2 ^ (f.eb - 1) = f.bias + 1 := (Nat.sub_add_cancel (Nat.two_pow_pos _)).symm
  rw [shape, place, top, Nat.cast_pow, Nat.cast_ofNat, ← zpow_natCast, ← zpow_natCast, ← zpow_add₀ two_ne_zero]
  congr 1
  simp only [Fmt.unit, Fmt.emin]
  push_cast
  ring

theorem mag_limit_pred (hf : f.Usual) : mag K f (f.limit - 1) = (2 - 2 ^ (-(f.mb : Int))) * 2 ^ (2 ^ (f.eb - 1) - 1) := by
  have bias := hf.bias_pos
  have pos := Nat.two_pow_pos f.mb
  have less : 2 ^ (f.mb + 1) - 1 < 2 ^ (f.mb + 1) := Nat.sub_lt (Nat.two_pow_pos _) one_pos
  have shape : f.limit - 1 = 2 ^ (f.mb + 1) - 1 + (2 * f.bias - 1) * 2 ^ f.mb := by
    obtain ⟨b, hb⟩ := Nat.exists_eq_add_of_le bias
    have : f.limit = 2 ^ (f.mb + 1) + (2 * f.bias - 1) * 2 ^ f.mb := by
      rw [Fmt.limit, hf.top_eq, hb, show 2 * (1 + b) - 1 = 2 * b + 1 by omega]
      ring
    have big := Nat.two_pow_pos (f.mb + 1)
    omega
  have place := mag_place K f (q := 2 ^ (f.mb + 1) - 1) (d := 2 * f.bias - 1) less (.inr (by rw [pow_succ]; omega))
  have cast : ((2 ^ (f.mb + 1) - 1 : Nat) : K) = 2 ^ (f.mb + 1) - 1 := by
    rw [Nat.cast_sub (Nat.two_pow_pos _)]
    push_cast
    rfl
  have exp : ((2 * f.bias - 1 : Nat) : Int) + f.unit = (f.bias : Int) - f.mb := by
    simp only [Fmt.unit, Fmt.emin]
    omega
  have scale : (2 : K) ^ ((f.bias : Int) - f.mb) = 2 ^ f.bias * 2 ^ (-(f.mb : Int)) := by
    rw [sub_eq_add_neg, zpow_add₀ two_ne_zero, zpow_natCast]
  have inv : (2 : K) ^ f.mb * 2 ^ (-(f.mb : Int)) = 1 := by rw [zpow_neg, zpow_natCast, mul_inv_cancel₀ (pow_ne_zero _ two_ne_zero)]
  rw [shape, place, cast, exp, scale, show 2 ^ (f.eb - 1) - 1 = f.bias from rfl, pow_succ]
  linear_combination (2 * 2 ^ f.bias) * inv

end

/-- R62: the largest finite number, and the number half an ulp above it. -/
theorem maxOf_eq {f : Fmt} (hf : f.Usual) : (maxOf f : ℝ) = mag ℝ f (f.limit - 1) := by
  rw [mag_limit_pred ℝ hf, maxOf]
  push_cast
  rfl

theorem overOf_eq {f : Fmt} (hf : f.Usual) : (overOf f : ℝ) = (mag ℝ f (f.limit - 1) + mag ℝ f f.limit) / 2 := by
  have top : 2 ^ (f.eb - 1) = f.bias + 1 := (Nat.sub_add_cancel (Nat.two_pow_pos _)).symm
  have half : (2 : ℝ) ^ (-(f.mb : Int) - 1) = 2 ^ (-(f.mb : Int)) / 2 := by rw [zpow_sub_one₀ two_ne_zero]; rfl
  rw [mag_limit_pred ℝ hf, mag_limit ℝ hf, overOf, top, Nat.add_sub_cancel, pow_succ]
  push_cast
  rw [half]
  ring

/-! ### Encodings -/

theorem encode_lt (f : Fmt) (neg : Bool) {t : Nat} (ht : t < 2 ^ (f.eb + f.mb)) : f.encode neg t < 2 ^ f.width := by
  rw [Fmt.width, pow_succ, Fmt.encode]
  cases neg <;> simp [sbit] <;> omega

theorem isNeg_encode (f : Fmt) (neg : Bool) {t : Nat} (ht : t < 2 ^ (f.eb + f.mb)) : isNeg f (f.encode neg t) ↔ neg = true := by
  rw [isNeg, Fmt.encode]
  cases neg <;> simp [sbit, ht]

theorem encode_mod (f : Fmt) (neg : Bool) {t : Nat} (ht : t < 2 ^ (f.eb + f.mb)) : f.encode neg t % 2 ^ (f.eb + f.mb) = t := by
  rw [Fmt.encode, Nat.add_comm, Nat.add_mul_mod_self_right, Nat.mod_eq_of_lt ht]

/-- Every encoding is that of its sign and magnitude. -/
theorem eq_encode {f : Fmt} {y : Nat} (hy : y < 2 ^ f.width) : y = f.encode (decide (isNeg f y)) (y % 2 ^ (f.eb + f.mb)) := by
  rw [Fmt.width, pow_succ] at hy
  by_cases neg : 2 ^ (f.eb + f.mb) ≤ y
  · have low : y % 2 ^ (f.eb + f.mb) = y - 2 ^ (f.eb + f.mb) := by
      rw [Nat.mod_eq_sub_mod neg, Nat.mod_eq_of_lt (by omega)]
    simp only [Fmt.encode, isNeg, neg, decide_true, sbit, if_true, low]
    omega
  · rw [Nat.mod_eq_of_lt (not_le.1 neg)]
    simp [Fmt.encode, isNeg, neg, sbit]

theorem expOf_eq (f : Fmt) (y : Nat) : expOf f y = y % 2 ^ (f.eb + f.mb) / 2 ^ f.mb := by
  rw [Nat.add_comm f.eb, pow_add, Nat.mod_mul_right_div_self]

theorem fracOf_eq (f : Fmt) (y : Nat) : fracOf f y = y % 2 ^ (f.eb + f.mb) % 2 ^ f.mb := by
  rw [Nat.mod_mod_of_dvd _ (Nat.pow_dvd_pow 2 (Nat.le_add_left _ _))]

/-- R62: the finite encodings are those whose magnitude is below the limit. -/
theorem isFin_iff {f : Fmt} {y : Nat} : isFin f y ↔ y < 2 ^ f.width ∧ y % 2 ^ (f.eb + f.mb) < f.limit := by
  have lt : y % 2 ^ (f.eb + f.mb) / 2 ^ f.mb < 2 ^ f.eb := by
    rw [Nat.div_lt_iff_lt_mul (Nat.two_pow_pos _), ← pow_add]
    exact Nat.mod_lt _ (Nat.two_pow_pos _)
  rw [isFin, expOf_eq, Fmt.limit, ← Nat.div_lt_iff_lt_mul (Nat.two_pow_pos _), Fmt.top]
  exact and_congr_right fun _ => by omega

theorem isFin_encode {f : Fmt} (neg : Bool) {t : Nat} (ht : t < 2 ^ (f.eb + f.mb)) : isFin f (f.encode neg t) ↔ t < f.limit := by
  rw [isFin_iff, encode_mod f neg ht]
  exact and_iff_right (encode_lt f neg ht)

/-- R62: the number of an encoding is that of its sign and magnitude. -/
theorem finOf_eq (f : Fmt) (y : Nat) : finOf f y = signedBy (decide (isNeg f y)) (mag ℚ f (y % 2 ^ (f.eb + f.mb))) := by
  have bias : ((2 ^ (f.eb - 1) - 1 : Nat) : Int) = f.bias := rfl
  have size : ∀ m e, (if 2 ^ (f.eb + f.mb) ≤ y then (-1 : ℚ) else 1) * m * (2 : ℚ) ^ (e : Int) =
      signedBy (decide (isNeg f y)) (m * 2 ^ e) := fun m e => by
    by_cases neg : 2 ^ (f.eb + f.mb) ≤ y <;> simp [neg, signedBy, isNeg]
  rw [finOf, bias, size, mag, ← expOf_eq, ← fracOf_eq]
  congr 1
  split
  · next zero =>
    have small : y % 2 ^ (f.eb + f.mb) < 2 ^ f.mb := by
      rw [expOf_eq] at zero
      exact (Nat.div_eq_zero_iff_lt (Nat.two_pow_pos _)).1 zero
    rw [fracOf_eq, Nat.mod_eq_of_lt small, zero]
    rfl
  · next pos =>
    have one : max 1 (expOf f y) = expOf f y := max_eq_right (Nat.pos_of_ne_zero pos)
    have exp : ((expOf f y : Nat) : Int) - f.bias - f.mb = ((expOf f y - 1 : Nat) : Int) + f.unit := by
      simp only [Fmt.unit, Fmt.emin]
      omega
    rw [one, exp]

theorem finOf_encode (f : Fmt) (neg : Bool) {t : Nat} (ht : t < 2 ^ (f.eb + f.mb)) :
    finOf f (f.encode neg t) = signedBy neg (mag ℚ f t) := by
  rw [finOf_eq, encode_mod f neg ht]
  congr 1
  rw [Bool.eq_iff_iff, decide_eq_true_iff, isNeg_encode f neg ht]

end Sys2Proof.Machine
end

section
/-! PROOFS. RoundTo (R65, R81): the magnitude that the model's rounding chooses, and when it is tiny or overflows. -/

namespace Sys2Proof.Machine

open Sys2Proof.Claim

/-! ### Thresholds (R65) -/

section
variable {K : Type*} [Field K] [LinearOrder K] [IsStrictOrderedRing K] {rm : Nat} {neg : Bool} {a b x : K}

/-- A number past a threshold is at least the grid point before it. -/
theorem Past.le (lt : a < b) (h : Past rm neg a b x) : a ≤ x := by
  have mid := left_lt_add_div_two.2 lt
  unfold Past at h
  split at h
  · exact lt.le.trans h
  · split at h
    · exact lt.le.trans h
    · exact h.le
  · split at h
    · exact h.le
    · exact lt.le.trans h
  · exact mid.le.trans h

/-- A number at a grid point is past the threshold before it. -/
theorem past_of_le (lt : a < b) (h : b ≤ x) : Past rm neg a b x := by
  have mid := add_div_two_lt_right.2 lt
  unfold Past
  split
  · exact h
  · split
    · exact h
    · exact lt.trans_le h
  · split
    · exact lt.trans_le h
    · exact h
  · exact mid.le.trans h

/-- The binade of m × 2^e. -/
theorem binade {m : Nat} (hm : m ≠ 0) (e : Int) : (2 : K) ^ (e + Nat.log2 m) ≤ m * 2 ^ e ∧ (m * 2 ^ e : K) < 2 ^ (e + Nat.log2 m + 1) := by
  have unit : (0 : K) < 2 ^ e := zpow_pos two_pos e
  have low : ((2 ^ Nat.log2 m : Nat) : K) ≤ m := Nat.cast_le.2 (Nat.log2_self_le hm)
  have high : (m : K) < ((2 ^ (Nat.log2 m + 1) : Nat) : K) := Nat.cast_lt.2 Nat.lt_log2_self
  rw [add_assoc, zpow_add₀ two_ne_zero, zpow_add₀ two_ne_zero, mul_comm, mul_comm (2 ^ e : K) (2 ^ (_ + 1))]
  push_cast at low high
  exact ⟨mul_le_mul_of_nonneg_right (by exact_mod_cast low) unit.le, mul_lt_mul_of_pos_right (by exact_mod_cast high) unit⟩

end

/-- The least normal number of a format, and the unit of the numbers just below it when the exponent has no end (R57). -/
noncomputable def leastOf (f : Fmt) : ℝ := 2 ^ f.emin
noncomputable def belowOf (f : Fmt) : ℝ := 2 ^ (f.emin - f.mb - 1)

theorem belowOf_pos (f : Fmt) : 0 < belowOf f := zpow_pos two_pos _

theorem leastOf_eq (f : Fmt) : leastOf f = 2 ^ (f.mb + 1) * belowOf f := by
  rw [leastOf, belowOf, ← zpow_natCast, ← zpow_add₀ two_ne_zero]
  congr 1
  push_cast
  ring

/-- The threshold below the least normal number lies above the binade below. -/
theorem half_leastOf_le (f : Fmt) : (2 : ℝ) ^ (f.emin - 1) ≤ leastOf f - belowOf f := by
  have pos := belowOf_pos f
  have half : (2 : ℝ) ^ (f.emin - 1) = 2 ^ f.mb * belowOf f := by
    rw [belowOf, ← zpow_natCast, ← zpow_add₀ two_ne_zero]
    congr 1
    ring
  have one : (1 : ℝ) ≤ 2 ^ f.mb := one_le_pow₀ one_le_two
  rw [leastOf_eq, half, pow_succ]
  nlinarith

/-! ### What RoundTo reads of the number -/

/-- The model's m, e and sticky rest stand for the positive number `x`: wherever the rounding looks, they give its floor and its class. -/
structure Exactly (f : Fmt) (m : Nat) (e : Int) (st : Bool) (x : ℝ) : Prop where
  low : (2 : ℝ) ^ (e + Nat.log2 m) ≤ x
  high : x < 2 ^ (e + Nat.log2 m + 1)
  classed : ∀ u, e + Nat.log2 m - f.mb ≤ u →
    Classed (((shiftTo m e u st).1 : ℝ) * 2 ^ u) (((shiftTo m e u st).1 + 1 : ℝ) * 2 ^ u) x (shiftTo m e u st).2

/-- Without a rest they stand for m × 2^e. -/
theorem exactly_of_ne_zero (f : Fmt) {m : Nat} (hm : m ≠ 0) (e : Int) : Exactly f m e false (m * 2 ^ e) :=
  ⟨(binade hm e).1, (binade hm e).2, fun u _ => shiftTo_classed m e u⟩

section
variable {f : Fmt} {m : Nat} {e : Int} {st : Bool} {x : ℝ} (hx : Exactly f m e st x)
include hx

theorem Exactly.pos : 0 < x := (zpow_pos two_pos _).trans_le hx.low

/-- The floor in units of 2^u has at most mb + 1 bits. -/
theorem Exactly.floor_lt {u : Int} (hu : e + Nat.log2 m - f.mb ≤ u) : (shiftTo m e u st).1 < 2 ^ (f.mb + 1) := by
  have unit : (0 : ℝ) < 2 ^ u := zpow_pos two_pos u
  obtain ⟨lower, -⟩ := (hx.classed u hu).bounds (mul_lt_mul_of_pos_right (lt_add_one _) unit)
  have end_ : (2 : ℝ) ^ (e + Nat.log2 m + 1) ≤ 2 ^ (f.mb + 1) * 2 ^ u := by
    rw [← zpow_natCast, ← zpow_add₀ two_ne_zero]
    exact zpow_le_zpow_right₀ one_le_two (by push_cast; omega)
  have := lt_of_mul_lt_mul_right ((lower.trans_lt hx.high).trans_le end_) unit.le
  exact_mod_cast this

/-- In units of the number's own last place it has just mb + 1 bits. -/
theorem Exactly.le_floor : 2 ^ f.mb ≤ (shiftTo m e (e + Nat.log2 m - f.mb) st).1 := by
  have unit : (0 : ℝ) < 2 ^ (e + Nat.log2 m - f.mb : Int) := zpow_pos two_pos _
  obtain ⟨-, upper⟩ := (hx.classed _ le_rfl).bounds (mul_lt_mul_of_pos_right (lt_add_one _) unit)
  have start : (2 : ℝ) ^ (e + Nat.log2 m) = 2 ^ f.mb * 2 ^ (e + Nat.log2 m - f.mb : Int) := by
    rw [← zpow_natCast, ← zpow_add₀ two_ne_zero]
    congr 1
    ring
  have low := hx.low
  rw [start] at low
  have := lt_of_mul_lt_mul_right (low.trans_lt upper) unit.le
  have : 2 ^ f.mb < (shiftTo m e (e + Nat.log2 m - f.mb) st).1 + 1 := by exact_mod_cast this
  omega

/-- The direction of `roundAt`. -/
theorem Exactly.dir {u : Int} (hu : e + Nat.log2 m - f.mb ≤ u) (rm : Nat) (neg : Bool) :
    roundUp rm neg (shiftTo m e u st).1 (shiftTo m e u st).2 = true ↔
      Goes rm neg (((shiftTo m e u st).1 : ℝ) * 2 ^ u) (((shiftTo m e u st).1 + 1 : ℝ) * 2 ^ u) x ((shiftTo m e u st).1 % 2 = 1) :=
  roundUp_iff (hx.classed u hu) (mul_lt_mul_of_pos_right (lt_add_one _) (zpow_pos two_pos u)) rm neg _

end

/-- Whether the model finds a number tiny: its exponent when it is rounded to the full width is below the least. -/
def tinyBy (f : Fmt) (rm : Nat) (neg : Bool) (m : Nat) (e : Int) (st : Bool) : Bool :=
  (if 2 ^ (f.mb + 1) ≤ (roundAt rm neg m e (e + Nat.log2 m - f.mb) st).1 then e + Nat.log2 m + 1 else e + Nat.log2 m) < f.emin

/-- R57, R63: a number is tiny where it is not past the threshold below the least normal number. -/
theorem tinyBy_iff {f : Fmt} {m : Nat} {e : Int} {st : Bool} {x : ℝ} (hx : Exactly f m e st x) (rm : Nat) (neg : Bool) :
    tinyBy f rm neg m e st = true ↔ ¬Past rm neg (leastOf f - belowOf f) (leastOf f) x := by
  have below := belowOf_pos f
  have less : leastOf f - belowOf f < leastOf f := sub_lt_self _ below
  rw [tinyBy, decide_eq_true_iff]
  rcases lt_trichotomy (e + Nat.log2 m) (f.emin - 1) with low | place | high
  · refine iff_of_true (by split <;> omega) fun past => ?_
    have bound : (2 : ℝ) ^ (e + Nat.log2 m + 1) ≤ 2 ^ (f.emin - 1) := zpow_le_zpow_right₀ one_le_two (by omega)
    exact absurd (past.le less) (not_le.2 (hx.high.trans_le (bound.trans (half_leastOf_le f))))
  · have threshold : ((if 2 ^ (f.mb + 1) ≤ (roundAt rm neg m e (e + Nat.log2 m - f.mb) st).1 then e + Nat.log2 m + 1 else e + Nat.log2 m) < f.emin) ↔
        ¬2 ^ (f.mb + 1) ≤ (roundAt rm neg m e (e + Nat.log2 m - f.mb) st).1 := by split <;> omega
    have unit : (2 : ℝ) ^ (e + Nat.log2 m - f.mb : Int) = belowOf f := by rw [place, belowOf]; congr 1; ring
    have dir := hx.dir le_rfl rm neg
    obtain ⟨lower, upper⟩ := (hx.classed _ le_rfl).bounds (mul_lt_mul_of_pos_right (lt_add_one _) (zpow_pos two_pos _))
    rw [unit] at dir lower upper
    have grid : StrictMono fun n : Nat => (n : ℝ) * belowOf f := fun i j h => mul_lt_mul_of_pos_right (Nat.cast_lt.2 h) below
    have reach := le_rounded_iff grid (x := x) lower (by push_cast; exact upper) (by push_cast; exact dir) (n := 2 ^ (f.mb + 1)) (Nat.two_pow_pos _)
      (by rw [pow_succ]; omega)
    have end_ : ((2 ^ (f.mb + 1) : Nat) : ℝ) * belowOf f = leastOf f := by rw [leastOf_eq]; push_cast; rfl
    have before : ((2 ^ (f.mb + 1) - 1 : Nat) : ℝ) * belowOf f = leastOf f - belowOf f := by
      rw [Nat.cast_sub (Nat.two_pow_pos _), sub_mul, end_, Nat.cast_one, one_mul]
    rw [end_, before] at reach
    rw [threshold, ← reach]
    rfl
  · have start : leastOf f ≤ x := (zpow_le_zpow_right₀ one_le_two (by omega)).trans hx.low
    exact iff_of_false (by split <;> omega) (not_not.2 (past_of_le less start))

/-! ### The model's rounding -/

/-- What RoundTo gives from the magnitude below the number, the class of the rest, the direction and whether it is tiny. -/
def roundedTo (f : Fmt) (rm : Nat) (flush csat neg : Bool) (t c : Nat) (up tiny : Bool) : Nat × Word :=
  if flush && tiny then (f.encode neg 0, fUF ||| fNX)
  else if f.limit ≤ (if up then t + 1 else t) then (f.encode neg (if overInf rm neg && !csat then f.limit else f.limit - 1), fOF ||| fNX)
  else (f.encode neg (if up then t + 1 else t), flagIf (c ≠ 0) fNX ||| flagIf (tiny && c ≠ 0) fUF)

theorem pack_eq (f : Fmt) (neg : Bool) (e m : Nat) : f.pack neg e m = f.encode neg (e * 2 ^ f.mb + m) := by
  rw [Fmt.pack, Fmt.encode, add_assoc]

theorem inf_eq (f : Fmt) (neg : Bool) : f.inf neg = f.encode neg f.limit := pack_eq f neg _ _

theorem maxFin_eq {f : Fmt} (hf : f.Usual) (neg : Bool) : f.maxFin neg = f.encode neg (f.limit - 1) := by
  have top : f.top = f.top - 1 + 1 := by rw [hf.top_eq]; omega
  have pos := Nat.two_pow_pos f.mb
  rw [Fmt.maxFin, pack_eq]
  congr 1
  rw [Fmt.limit]
  conv_rhs => rw [top, Nat.succ_mul]
  omega

/-- How many times the hidden bit goes into the rounded units: 0 for a subnormal, 2 where they carry. -/
theorem units_div {P R : Nat} (pos : 0 < P) (le : R ≤ 2 * P) : R / P = if R < P then 0 else if 2 * P ≤ R then 2 else 1 := by
  split
  · next lt => exact Nat.div_eq_of_lt lt
  · split
    · next ge =>
      obtain rfl : R = 2 * P := le_antisymm le ge
      exact Nat.mul_div_cancel _ pos
    · next ge lt => exact Nat.div_eq_of_lt_le (by omega) (by omega)

/-- An exponent past the greatest is a magnitude past the limit. -/
theorem emax_lt_iff {f : Fmt} (hf : f.Usual) {d R : Nat} (le : R ≤ 2 * 2 ^ f.mb) (place : d = 0 ∨ 2 ^ f.mb ≤ R) :
    f.emax < (d : Int) + f.unit + f.mb + (if 2 * 2 ^ f.mb ≤ R then 1 else 0) ↔ f.limit ≤ R + d * 2 ^ f.mb := by
  have pos := Nat.two_pow_pos f.mb
  have bias := hf.bias_pos
  have quotient : f.limit ≤ R + d * 2 ^ f.mb ↔ f.top ≤ R / 2 ^ f.mb + d := by
    rw [← Nat.add_mul_div_right _ _ pos]
    exact (Nat.le_div_iff_mul_le pos).symm
  rw [quotient, units_div pos le, hf.top_eq]
  simp only [Fmt.emax, Fmt.unit, Fmt.emin]
  split_ifs <;> omega

/-- The encoding of rounded units at a place. -/
theorem pack_units {f : Fmt} (neg : Bool) {d R : Nat} (le : R ≤ 2 * 2 ^ f.mb) (place : d = 0 ∨ 2 ^ f.mb ≤ R) :
    (if R < 2 ^ f.mb then f.pack neg 0 R
      else f.pack neg (((d : Int) + f.unit + f.mb + (if 2 * 2 ^ f.mb ≤ R then 1 else 0)) + f.bias).toNat
        (if 2 * 2 ^ f.mb ≤ R then 0 else R - 2 ^ f.mb)) = f.encode neg (R + d * 2 ^ f.mb) := by
  simp only [pack_eq]
  split
  · next small =>
    obtain rfl : d = 0 := place.resolve_right (not_le.2 small)
    simp
  · next large =>
    have exp : (((d : Int) + f.unit + f.mb + (if 2 * 2 ^ f.mb ≤ R then 1 else 0)) + f.bias).toNat = d + 1 + (if 2 * 2 ^ f.mb ≤ R then 1 else 0) := by
      simp only [Fmt.unit, Fmt.emin]
      split <;> omega
    rw [exp]
    congr 1
    split
    · next ge =>
      obtain rfl : R = 2 * 2 ^ f.mb := le_antisymm le ge
      ring
    · rw [Nat.add_zero, Nat.succ_mul]
      omega

/-- The model's rounding of a number that is not zero, in terms of the place of its last unit: `q` of them, `d` places above the least. -/
theorem round_placed {f : Fmt} (hf : f.Usual) (rm : Nat) (flush csat neg : Bool) {m : Nat} {e : Int} {st : Bool} (hm : ¬(m = 0 ∧ st = false)) {d q c : Nat}
    (unit : max (e + Nat.log2 m - f.mb) (f.emin - f.mb) = (d : Int) + f.unit) (shift : shiftTo m e (d + f.unit) st = (q, c))
    (lt : q < 2 ^ (f.mb + 1)) (place : d = 0 ∨ 2 ^ f.mb ≤ q) :
    f.round rm flush csat neg m e st = roundedTo f rm flush csat neg (q + d * 2 ^ f.mb) c (roundUp rm neg q c) (tinyBy f rm neg m e st) := by
  have at_ : roundAt rm neg m e (d + f.unit) st = (if roundUp rm neg q c then q + 1 else q, decide (c ≠ 0)) := by simp [roundAt, shift]
  have total : (if roundUp rm neg q c then q + d * 2 ^ f.mb + 1 else q + d * 2 ^ f.mb) = (if roundUp rm neg q c then q + 1 else q) + d * 2 ^ f.mb := by
    split <;> ring
  have le : (if roundUp rm neg q c then q + 1 else q) ≤ 2 * 2 ^ f.mb := by rw [← pow_succ']; split <;> omega
  have place' : d = 0 ∨ 2 ^ f.mb ≤ (if roundUp rm neg q c then q + 1 else q) := place.imp_right fun h => h.trans (by split <;> omega)
  have nonzero : ¬(decide (m = 0) && !st) = true := by simpa using hm
  rw [Fmt.round, if_neg nonzero, roundedTo, total]
  simp only [unit, at_]
  generalize (if roundUp rm neg q c then q + 1 else q) = R at le place' ⊢
  have tiny : decide ((if 2 ^ (f.mb + 1) ≤ (roundAt rm neg m e (e + Nat.log2 m - f.mb) st).1 then e + Nat.log2 m + 1 else e + Nat.log2 m) < f.emin) =
    tinyBy f rm neg m e st := rfl
  simp only [pow_succ' 2 f.mb] at tiny ⊢
  simp only [tiny, decide_eq_true_eq, emax_lt_iff hf le place', inf_eq, maxFin_eq hf, ← pack_units neg le place']
  split
  · rw [pack_eq]; simp
  · split
    · split <;> rfl
    · split <;> rfl

/-- How a mode rounds the number of a sign and a magnitude: the magnitude's encoding from below, the class of the rest, the direction, and
whether the number is tiny. -/
structure RoundsFrom (f : Fmt) (rm : Nat) (neg : Bool) (x : ℝ) (t c : Nat) (up tiny : Bool) : Prop where
  classed : Classed (mag ℝ f t) (mag ℝ f (t + 1)) x c
  dir : up = true ↔ Goes rm neg (mag ℝ f t) (mag ℝ f (t + 1)) x (t % 2 = 1)
  small : tiny = true ↔ x ≠ 0 ∧ ¬Past rm neg (leastOf f - belowOf f) (leastOf f) x

/-- R65: the model rounds a positive number so. -/
theorem round_of_exactly {f : Fmt} (hf : f.Usual) {m : Nat} {e : Int} {st : Bool} {x : ℝ} (hx : Exactly f m e st x) (hm : ¬(m = 0 ∧ st = false))
    (rm : Nat) (neg : Bool) : ∃ t c up tiny, RoundsFrom f rm neg x t c up tiny ∧
      ∀ flush csat, f.round rm flush csat neg m e st = roundedTo f rm flush csat neg t c up tiny := by
  obtain ⟨d, unit⟩ : ∃ d : Nat, max (e + Nat.log2 m - f.mb) (f.emin - f.mb) = (d : Int) + f.unit :=
    ⟨(max (e + Nat.log2 m - f.mb) (f.emin - f.mb) - f.unit).toNat, by simp only [Fmt.unit]; omega⟩
  have above : e + Nat.log2 m - f.mb ≤ d + f.unit := unit ▸ le_max_left _ _
  have lt := hx.floor_lt above
  have place : d = 0 ∨ 2 ^ f.mb ≤ (shiftTo m e (d + f.unit) st).1 := by
    rcases Nat.eq_zero_or_pos d with zero | pos
    · exact .inl zero
    · have own : (d : Int) + f.unit = e + Nat.log2 m - f.mb := by
        simp only [Fmt.unit] at unit ⊢
        omega
      exact .inr (own ▸ hx.le_floor)
  have cls := hx.classed _ above
  have dir := hx.dir above rm neg
  obtain ⟨q, c, shift⟩ : ∃ q c, shiftTo m e (d + f.unit) st = (q, c) := ⟨_, _, rfl⟩
  simp only [shift] at lt place cls dir
  have parity : (q + d * 2 ^ f.mb) % 2 = q % 2 := by
    rw [← Nat.sub_add_cancel hf.one_le_mb, pow_succ, ← mul_assoc, Nat.add_mul_mod_self_right]
  rw [← mag_place ℝ f lt place, ← mag_place_succ ℝ f lt place] at cls dir
  refine ⟨q + d * 2 ^ f.mb, c, _, tinyBy f rm neg m e st, ⟨cls, parity ▸ dir, ?_⟩,
    fun flush csat => round_placed hf rm flush csat neg hm unit shift lt place⟩
  rw [tinyBy_iff hx, and_iff_right hx.pos.ne']

/-- R65: the model's rounding of ± m × 2^e. -/
theorem round_cases {f : Fmt} (hf : f.Usual) (rm : Nat) (neg : Bool) (m : Nat) (e : Int) :
    ∃ t c up tiny, RoundsFrom f rm neg ((m : ℝ) * 2 ^ e) t c up tiny ∧
      ∀ flush csat, f.round rm flush csat neg m e false = roundedTo f rm flush csat neg t c up tiny := by
  by_cases hm : m = 0
  · subst hm
    have cls : Classed (mag ℝ f 0) (mag ℝ f 1) (((0 : Nat) : ℝ) * 2 ^ e) 0 := .inl ⟨rfl, by simp⟩
    refine ⟨0, 0, false, false, ⟨cls, roundUp_iff cls (mag_strictMono ℝ f Nat.zero_lt_one) rm neg 0, by simp⟩, fun flush csat => ?_⟩
    rw [Fmt.round, if_pos (by rfl), pack_eq]
    simp [roundedTo, hf.limit_pos.ne', flagIf]
  · exact round_of_exactly hf (exactly_of_ne_zero f hm e) (fun h => hm h.1) rm neg

end Sys2Proof.Machine
end

section
/-! PROOFS. The model's rounding meets what R57, R63 and R65 say of it. -/

namespace Sys2Proof.Machine

open Sys2Proof.Claim

/-! ### Between two grid points -/

section
variable {K : Type*} [Field K] [LinearOrder K] [IsStrictOrderedRing K] {lo hi x w : K} {up : Bool}

/-- R65: the chosen of two grid points is as near as any number that lies not between them. -/
theorem nearest_le (lower : lo ≤ x) (upper : x < hi) (high : up = true → (lo + hi) / 2 ≤ x) (low : up = false → x ≤ (lo + hi) / 2)
    (outside : w ≤ lo ∨ hi ≤ w) : |x - (if up then hi else lo)| ≤ |x - w| := by
  have far : min (x - lo) (hi - x) ≤ |x - w| := by
    rcases outside with h | h
    · exact (min_le_left _ _).trans ((sub_le_sub_left h x).trans (le_abs_self _))
    · rw [abs_sub_comm]
      exact (min_le_right _ _).trans ((sub_le_sub_right h x).trans (le_abs_self _))
  refine le_trans ?_ far
  cases up with
  | false =>
    have := low rfl
    rw [if_neg Bool.false_ne_true, abs_of_nonneg (sub_nonneg.2 lower)]
    exact le_min le_rfl (by linarith)
  | true =>
    have := high rfl
    rw [if_pos rfl, abs_sub_comm, abs_of_nonneg (sub_nonneg.2 upper.le)]
    exact le_min (by linarith) le_rfl

/-- Another number as near as the chosen is the other grid point, the middle lying between. -/
theorem middle_of_tie (lower : lo ≤ x) (upper : x < hi) (high : up = true → (lo + hi) / 2 ≤ x) (low : up = false → x ≤ (lo + hi) / 2)
    (outside : w ≤ lo ∨ hi ≤ w) (tie : |x - (if up then hi else lo)| = |x - w|) (other : w ≠ if up then hi else lo) :
    x = (lo + hi) / 2 ∧ w = if up then lo else hi := by
  cases up with
  | false =>
    have := low rfl
    simp only [Bool.false_eq_true, if_false] at tie other ⊢
    rw [abs_of_nonneg (sub_nonneg.2 lower)] at tie
    rcases outside with h | h
    · rw [abs_of_nonneg (by linarith)] at tie
      exact absurd (by linarith) other
    · rw [abs_sub_comm, abs_of_nonneg (by linarith)] at tie
      exact ⟨by linarith, by linarith⟩
  | true =>
    have := high rfl
    simp only [if_true] at tie other ⊢
    rw [abs_sub_comm, abs_of_nonneg (by linarith)] at tie
    rcases outside with h | h
    · rw [abs_of_nonneg (by linarith)] at tie
      exact ⟨by linarith, by linarith⟩
    · rw [abs_sub_comm, abs_of_nonneg (by linarith)] at tie
      exact absurd (by linarith) other

end

/-! ### The numbers of a format, seen from a sign -/

/-- The number of an encoding with the sign `neg` taken away. -/
noncomputable def along (f : Fmt) (neg : Bool) (y : Nat) : ℝ := signedBy neg (finOf f y : ℝ)

theorem cast_finOf (f : Fmt) (y : Nat) : (finOf f y : ℝ) = signedBy (decide (isNeg f y)) (mag ℝ f (y % 2 ^ (f.eb + f.mb))) := by
  rw [finOf_eq, ← cast_mag]
  cases decide (isNeg f y) <;> simp

theorem finOf_along (f : Fmt) (neg : Bool) (y : Nat) : (finOf f y : ℝ) = signedBy neg (along f neg y) := by
  rw [along]
  cases neg <;> simp

theorem abs_along (f : Fmt) (neg : Bool) (y : Nat) : |along f neg y| = mag ℝ f (y % 2 ^ (f.eb + f.mb)) := by
  have nonneg := mag_nonneg ℝ f (y % 2 ^ (f.eb + f.mb))
  rw [along, cast_finOf]
  cases neg <;> cases decide (isNeg f y) <;> simp [nonneg]

/-- It is a magnitude of the format, or not positive. -/
theorem along_cases (f : Fmt) (neg : Bool) (y : Nat) :
    along f neg y = mag ℝ f (y % 2 ^ (f.eb + f.mb)) ∨ along f neg y = -mag ℝ f (y % 2 ^ (f.eb + f.mb)) := by
  rw [along, cast_finOf]
  cases neg <;> cases decide (isNeg f y) <;> simp

/-- None lies between two neighbouring magnitudes. -/
theorem along_outside (f : Fmt) (neg : Bool) (y t : Nat) : along f neg y ≤ mag ℝ f t ∨ mag ℝ f (t + 1) ≤ along f neg y := by
  rcases along_cases f neg y with h | h
  · rw [h]
    rcases Nat.lt_or_ge t (y % 2 ^ (f.eb + f.mb)) with lt | ge
    · exact .inr ((mag_strictMono ℝ f).monotone lt)
    · exact .inl ((mag_strictMono ℝ f).monotone ge)
  · rw [h]
    exact .inl ((neg_nonpos.2 (mag_nonneg ℝ f _)).trans (mag_nonneg ℝ f t))

theorem along_encode (f : Fmt) (neg : Bool) {t : Nat} (ht : t < 2 ^ (f.eb + f.mb)) : along f neg (f.encode neg t) = mag ℝ f t := by
  rw [along, finOf_encode f neg ht]
  cases neg <;> simp [cast_mag]

/-! ### What the mode chooses (R65) -/

namespace RoundsFrom

variable {f : Fmt} {rm : Nat} {neg : Bool} {x : ℝ} {t c : Nat} {up tiny : Bool} (h : RoundsFrom f rm neg x t c up tiny)
include h

theorem bounds : mag ℝ f t ≤ x ∧ x < mag ℝ f (t + 1) := h.classed.bounds (mag_strictMono ℝ f (Nat.lt_succ_self t))

theorem nonneg : 0 ≤ x := (mag_nonneg ℝ f t).trans h.bounds.1

/-- The chosen magnitude reaches the limit where the number is past the threshold before it. -/
theorem limit_le_iff (hf : f.Usual) : f.limit ≤ (if up then t + 1 else t) ↔ Past rm neg (mag ℝ f (f.limit - 1)) (mag ℝ f f.limit) x :=
  le_rounded_iff (mag_strictMono ℝ f) h.bounds.1 h.bounds.2 h.dir hf.limit_pos hf.limit_even

/-- R57: overflow. -/
theorem overflows_iff (hf : f.Usual) : Overflows f rm (signedBy neg x) ↔ f.limit ≤ (if up then t + 1 else t) := by
  have nonneg := h.nonneg
  have top : (0 : ℝ) < 2 ^ (2 ^ (f.eb - 1)) := pow_pos two_pos _
  have most : 0 ≤ mag ℝ f (f.limit - 1) := mag_nonneg ℝ f _
  have less : mag ℝ f (f.limit - 1) < 2 ^ (2 ^ (f.eb - 1)) := by
    rw [← mag_limit ℝ hf]
    exact mag_strictMono ℝ f (Nat.sub_lt hf.limit_pos one_pos)
  rw [h.limit_le_iff hf, mag_limit ℝ hf]
  rcases rm with _ | _ | _ | _ | _ | _ | rm <;>
    simp only [Overflows, Past, maxOf_eq hf, overOf_eq hf, mag_limit ℝ hf] <;> cases neg <;> simp [abs_of_nonneg nonneg]
  all_goals intros; linarith

/-- R57, R63: tiny numbers. -/
theorem tiny_iff : Tiny f rm (signedBy neg x) ↔ tiny = true := by
  have nonneg := h.nonneg
  have least : (2 : ℝ) ^ (2 - (2 ^ (f.eb - 1) : Nat) : Int) = leastOf f := by
    have top : 2 ^ (f.eb - 1) = f.bias + 1 := (Nat.sub_add_cancel (Nat.two_pow_pos _)).symm
    rw [leastOf, Fmt.emin, top]
    congr 1
    push_cast
    ring
  have below : leastOf f * (2 : ℝ) ^ (-(f.mb : Int) - 1) = belowOf f := by
    rw [leastOf, belowOf, ← zpow_add₀ two_ne_zero]
    congr 1
    ring
  have pos := belowOf_pos f
  have room : 0 < leastOf f - belowOf f := (zpow_pos two_pos _).trans_le (half_leastOf_le f)
  rw [h.small]
  unfold Tiny
  simp only [least, below, Ne, signedBy_eq_zero]
  refine and_congr_right fun _ => ?_
  have mid : (leastOf f - belowOf f + leastOf f) / 2 = leastOf f - belowOf f / 2 := by ring
  rcases rm with _ | _ | _ | _ | _ | _ | rm <;> cases neg <;>
    simp only [Past, mid, signedBy_false, signedBy_true, abs_neg, abs_of_nonneg nonneg, not_le, not_lt, if_true, Bool.false_eq_true, if_false]
  all_goals exact ⟨fun ⟨_, _⟩ => by linarith, fun _ => ⟨by linarith, by linarith⟩⟩

/-- R57: a number is inexact unless it is a finite magnitude of the format. -/
theorem inexact_iff : (∀ y, isFin f y → (finOf f y : ℝ) ≠ signedBy neg x) ↔ ¬(c = 0 ∧ t < f.limit) := by
  have here := h.classed.eq_zero_iff (mag_strictMono ℝ f (Nat.lt_succ_self t))
  constructor
  · rintro none ⟨zero, lt⟩
    have lt' := lt.trans f.limit_lt
    exact none _ ((isFin_encode neg lt').2 lt) (by rw [finOf_along f neg, along_encode f neg lt', here.1 zero])
  · intro inexact y fin eq
    rw [finOf_along f neg, signedBy_inj] at eq
    obtain ⟨lower, upper⟩ := h.bounds
    obtain ⟨-, lt⟩ := isFin_iff.1 fin
    have value : x = mag ℝ f (y % 2 ^ (f.eb + f.mb)) := by
      rw [← abs_along f neg y, eq, abs_of_nonneg h.nonneg]
    rw [value] at lower upper
    have place : y % 2 ^ (f.eb + f.mb) = t :=
      le_antisymm (Nat.lt_succ_iff.1 ((mag_strictMono ℝ f).lt_iff_lt.1 upper)) ((mag_strictMono ℝ f).le_iff_le.1 lower)
    exact inexact ⟨here.2 (place ▸ value), place ▸ lt⟩

/-- R65: the greatest magnitude at most the number, among the finite ones. -/
theorem downward {n : Nat} (hn : n = t ∨ (n = f.limit - 1 ∧ f.limit ≤ t)) :
    mag ℝ f n ≤ x ∧ ∀ y, isFin f y → mag ℝ f (y % 2 ^ (f.eb + f.mb)) ≤ x → mag ℝ f (y % 2 ^ (f.eb + f.mb)) ≤ mag ℝ f n := by
  have mono := mag_strictMono ℝ f
  refine ⟨(mono.monotone (by omega)).trans h.bounds.1, fun y fin le => mono.monotone ?_⟩
  have low := mono.lt_iff_lt.1 (le.trans_lt h.bounds.2)
  have lt := (isFin_iff.1 fin).2
  omega

/-- R65: the least magnitude at least the number. -/
theorem upward (dir : up = true ↔ mag ℝ f t < x) :
    x ≤ mag ℝ f (if up then t + 1 else t) ∧ ∀ y, x ≤ along f neg y → mag ℝ f (if up then t + 1 else t) ≤ along f neg y := by
  obtain ⟨lower, upper⟩ := h.bounds
  cases up with
  | false =>
    have eq : x = mag ℝ f t := le_antisymm (not_lt.1 fun lt => Bool.noConfusion (dir.2 lt)) lower
    exact ⟨eq.le, fun y le => eq ▸ le⟩
  | true =>
    refine ⟨upper.le, fun y le => ?_⟩
    exact (along_outside f neg y t).resolve_left fun below => absurd (dir.1 rfl) (not_lt.2 (le.trans below))

/-- R65: the nearest magnitude, and what a tie tells. -/
theorem nearest (high : up = true → (mag ℝ f t + mag ℝ f (t + 1)) / 2 ≤ x)
    (low : up = false → x ≤ (mag ℝ f t + mag ℝ f (t + 1)) / 2) (y : Nat) :
    |x - mag ℝ f (if up then t + 1 else t)| ≤ |x - along f neg y| ∧
      (|x - mag ℝ f (if up then t + 1 else t)| = |x - along f neg y| → along f neg y ≠ mag ℝ f (if up then t + 1 else t) →
        x = (mag ℝ f t + mag ℝ f (t + 1)) / 2 ∧ along f neg y = if up then mag ℝ f t else mag ℝ f (t + 1)) := by
  obtain ⟨lower, upper⟩ := h.bounds
  rw [apply_ite (mag ℝ f)]
  exact ⟨nearest_le lower upper high low (along_outside f neg y t), middle_of_tie lower upper high low (along_outside f neg y t)⟩

end RoundsFrom

/-- The magnitude of the result where nothing is flushed: the infinity or the greatest finite number from the limit on. -/
def chosen (f : Fmt) (rm : Nat) (neg : Bool) (t : Nat) : Nat :=
  if f.limit ≤ t then (if overInf rm neg then f.limit else f.limit - 1) else t

theorem chosen_le {f : Fmt} (hf : f.Usual) (rm : Nat) (neg : Bool) (t : Nat) : chosen f rm neg t ≤ f.limit := by
  have := hf.limit_pos
  unfold chosen
  split_ifs <;> omega

theorem chosen_lt_iff {f : Fmt} (hf : f.Usual) (rm : Nat) (neg : Bool) (t : Nat) :
    chosen f rm neg t < f.limit ↔ ¬(f.limit ≤ t ∧ overInf rm neg = true) := by
  have := hf.limit_pos
  unfold chosen
  split_ifs <;> simp_all

theorem chosen_of_lt {f : Fmt} {rm : Nat} {neg : Bool} {t : Nat} (inf : overInf rm neg = true) (lt : chosen f rm neg t < f.limit) :
    chosen f rm neg t = t := by
  unfold chosen at lt ⊢
  split_ifs at lt ⊢
  · exact absurd lt (lt_irrefl _)
  · rfl

theorem encode_mod_two {f : Fmt} (hf : f.Usual) (neg : Bool) (t : Nat) : f.encode neg t % 2 = t % 2 := by
  have even : 2 ^ (f.eb + f.mb) % 2 = 0 := by
    rw [← Nat.sub_add_cancel (hf.one_le_mb.trans (Nat.le_add_left f.mb f.eb)), pow_succ, Nat.mul_mod_left]
  rw [Fmt.encode, Nat.add_mod, Nat.mul_mod, even]
  simp

theorem abs_signedBy_sub (neg : Bool) (x y : ℝ) : |signedBy neg x - signedBy neg y| = |x - y| := by
  cases neg
  · rfl
  · rw [signedBy_true, signedBy_true, ← abs_neg]
    congr 1
    ring

theorem abs_signedBy (neg : Bool) (x : ℝ) : |signedBy neg x| = |x| := by cases neg <;> simp

theorem signedBy_mul_signedBy (neg : Bool) (x y : ℝ) : signedBy neg x * signedBy neg y = x * y := by cases neg <;> simp

/-- R65: in a mode, the encoding `y` is preferred to `z` for the number `x`, `v` giving the numbers of encodings. -/
def Prefers (rm : Nat) (x : ℝ) (v : Nat → ℝ) (y z : Nat) : Prop :=
  match rm with
  | 1 => |x - v y| ≤ |x - v z| ∧ (|x - v y| = |x - v z| → v z ≠ v y → y % 2 = 0)
  | 2 => |v y| ≤ |x| ∧ 0 ≤ x * v y ∧ (|v z| ≤ |x| → 0 ≤ x * v z → |v z| ≤ |v y|)
  | 3 => x ≤ v y ∧ (x ≤ v z → v y ≤ v z)
  | 4 => v y ≤ x ∧ (v z ≤ x → v z ≤ v y)
  | _ => |x - v y| ≤ |x - v z| ∧ (|x - v y| = |x - v z| → |v z| ≤ |v y|)

/-- R65: a number that a mode does not round to an infinity. -/
def Bounded (f : Fmt) (rm : Nat) (x : ℝ) : Prop :=
  match rm with
  | 2 => True
  | 3 => x ≤ maxOf f
  | 4 => -(maxOf f : ℝ) ≤ x
  | _ => |x| < overOf f

namespace RoundsFrom

variable {f : Fmt} {rm : Nat} {neg : Bool} {x : ℝ} {t c : Nat} {up tiny : Bool} (h : RoundsFrom f rm neg x t c up tiny)
include h

/-- R65: where a mode rounds down and never overflows, the result is the greatest finite number at most the number. -/
theorem chosen_down (stays : up = false) (bounded : overInf rm neg = false) :
    let n := chosen f rm neg (if up then t + 1 else t)
    mag ℝ f n ≤ x ∧ ∀ z, isFin f z → (mag ℝ f (z % 2 ^ (f.eb + f.mb)) ≤ x → mag ℝ f (z % 2 ^ (f.eb + f.mb)) ≤ mag ℝ f n) ∧
      (along f neg z ≤ x → along f neg z ≤ mag ℝ f n) := by
  intro n
  have place : n = t ∨ (n = f.limit - 1 ∧ f.limit ≤ t) := by
    simp only [n, chosen, stays, bounded, Bool.false_eq_true, if_false]
    split
    · next le => exact .inr ⟨rfl, le⟩
    · exact .inl rfl
  obtain ⟨le, greatest⟩ := h.downward place
  refine ⟨le, fun z fin => ⟨greatest z fin, fun below => ?_⟩⟩
  rcases along_cases f neg z with e | e
  · rw [e] at below ⊢
    exact greatest z fin below
  · rw [e]
    exact (neg_nonpos.2 (mag_nonneg ℝ f _)).trans (mag_nonneg ℝ f n)

/-- R65: where a mode rounds up, a finite result is the least number at least the number. -/
theorem chosen_up (inf : overInf rm neg = true) (dir : up = true ↔ mag ℝ f t < x) (lt : chosen f rm neg (if up then t + 1 else t) < f.limit) :
    let n := chosen f rm neg (if up then t + 1 else t)
    x ≤ mag ℝ f n ∧ ∀ z, x ≤ along f neg z → mag ℝ f n ≤ along f neg z := by
  intro n
  have place : n = if up then t + 1 else t := chosen_of_lt inf lt
  rw [place]
  exact h.upward dir

/-- R65: where a mode rounds to nearest, a finite result is as near as any number; another as near is on the other side of the middle. -/
theorem chosen_near (inf : overInf rm neg = true) (high : up = true → (mag ℝ f t + mag ℝ f (t + 1)) / 2 ≤ x)
    (low : up = false → x ≤ (mag ℝ f t + mag ℝ f (t + 1)) / 2) (lt : chosen f rm neg (if up then t + 1 else t) < f.limit) (z : Nat) :
    let n := chosen f rm neg (if up then t + 1 else t)
    n = (if up then t + 1 else t) ∧ |x - mag ℝ f n| ≤ |x - along f neg z| ∧
      (|x - mag ℝ f n| = |x - along f neg z| → along f neg z ≠ mag ℝ f n →
        x = (mag ℝ f t + mag ℝ f (t + 1)) / 2 ∧ along f neg z = if up then mag ℝ f t else mag ℝ f (t + 1)) := by
  intro n
  have place : n = if up then t + 1 else t := chosen_of_lt inf lt
  rw [place]
  exact ⟨rfl, h.nearest high low z⟩

/-- R65: the finite result that a mode chooses, against every finite number. -/
theorem rounded_finite (hf : f.Usual) (least : 1 ≤ rm) (most : rm ≤ 5) (fin : chosen f rm neg (if up then t + 1 else t) < f.limit)
    {z : Nat} (hz : isFin f z) :
    Prefers rm (signedBy neg x) (fun z => (finOf f z : ℝ)) (f.encode neg (chosen f rm neg (if up then t + 1 else t))) z := by
  let y := f.encode neg (chosen f rm neg (if up then t + 1 else t))
  let X := signedBy neg x
  let v (z : Nat) : ℝ := finOf f z
  show Prefers rm X v y z
  have lt := fin.trans f.limit_lt
  have vy : v y = signedBy neg (mag ℝ f (chosen f rm neg (if up then t + 1 else t))) := by
    rw [← along_encode f neg lt]
    exact finOf_along f neg y
  have vz : v z = signedBy neg (along f neg z) := finOf_along f neg z
  have dir := h.dir
  have nonneg := h.nonneg
  have magz := abs_along f neg z
  obtain rfl | rfl | rfl | rfl | rfl : rm = 1 ∨ rm = 2 ∨ rm = 3 ∨ rm = 4 ∨ rm = 5 := by omega
  · have high : up = true → (mag ℝ f t + mag ℝ f (t + 1)) / 2 ≤ x := fun e => (dir.1 e).elim (fun h => h.le) fun h => h.1.ge
    have low : up = false → x ≤ (mag ℝ f t + mag ℝ f (t + 1)) / 2 := fun e => not_lt.1 fun lt => by simp [dir.2 (.inl lt)] at e
    obtain ⟨place, near, tie⟩ := h.chosen_near rfl high low fin z
    simp only [Prefers, X, vy, vz, abs_signedBy_sub]
    refine ⟨near, fun eq ne => ?_⟩
    obtain ⟨mid, -⟩ := tie eq fun e => ne (by rw [e])
    have odd : up = true ↔ t % 2 = 1 := dir.trans ⟨fun h => h.elim (fun lt => absurd mid lt.ne') And.right, fun h => .inr ⟨mid, h⟩⟩
    rw [encode_mod_two hf, place]
    cases up <;> simp at odd ⊢ <;> omega
  · have stays : up = false := by simpa [Goes] using dir
    obtain ⟨le, greatest⟩ := h.chosen_down stays rfl
    simp only [Prefers, X, vy, vz, abs_signedBy, signedBy_mul_signedBy, magz, abs_of_nonneg nonneg, abs_of_nonneg (mag_nonneg ℝ f _)]
    exact ⟨le, mul_nonneg nonneg (mag_nonneg ℝ f _), fun low _ => (greatest z hz).1 low⟩
  · cases neg with
    | false =>
      obtain ⟨le, least⟩ := h.chosen_up rfl (by simpa [Goes] using dir) fin
      simp only [Prefers, X, vy, vz, signedBy_false]
      exact ⟨le, least z⟩
    | true =>
      obtain ⟨le, greatest⟩ := h.chosen_down (by simpa [Goes] using dir) rfl
      simp only [Prefers, X, vy, vz, signedBy_true, neg_le_neg_iff]
      exact ⟨le, (greatest z hz).2⟩
  · cases neg with
    | false =>
      obtain ⟨le, greatest⟩ := h.chosen_down (by simpa [Goes] using dir) rfl
      simp only [Prefers, X, vy, vz, signedBy_false]
      exact ⟨le, (greatest z hz).2⟩
    | true =>
      obtain ⟨le, least⟩ := h.chosen_up rfl (by simpa [Goes] using dir) fin
      simp only [Prefers, X, vy, vz, signedBy_true, neg_le_neg_iff]
      exact ⟨le, least z⟩
  · have low : up = false → x ≤ (mag ℝ f t + mag ℝ f (t + 1)) / 2 := fun e => not_lt.1 fun lt => by simp [dir.2 lt.le] at e
    obtain ⟨place, near, tie⟩ := h.chosen_near rfl dir.1 low fin z
    simp only [Prefers, X, vy, vz, abs_signedBy_sub, abs_signedBy]
    refine ⟨near, fun eq => ?_⟩
    by_cases same : along f neg z = mag ℝ f (chosen f 5 neg (if up then t + 1 else t))
    · rw [same]
    · obtain ⟨mid, other⟩ := tie eq same
      have goes : up = true := dir.2 mid.ge
      rw [other, place, goes, if_pos rfl, if_pos rfl, abs_of_nonneg (mag_nonneg ℝ f _), abs_of_nonneg (mag_nonneg ℝ f _)]
      exact (mag_strictMono ℝ f (Nat.lt_succ_self t)).le

/-- R65: the result is a finite number just where the mode keeps it from overflowing. -/
theorem chosen_lt_iff_mode (hf : f.Usual) (least : 1 ≤ rm) (most : rm ≤ 5) :
    chosen f rm neg (if up then t + 1 else t) < f.limit ↔ Bounded f rm (signedBy neg x) := by
  have nonneg := h.nonneg
  have most' : 0 ≤ mag ℝ f (f.limit - 1) := mag_nonneg ℝ f _
  rw [chosen_lt_iff hf, h.limit_le_iff hf]
  obtain rfl | rfl | rfl | rfl | rfl : rm = 1 ∨ rm = 2 ∨ rm = 3 ∨ rm = 4 ∨ rm = 5 := by omega
  · simp [Bounded, Past, overInf, overOf_eq hf, abs_signedBy, abs_of_nonneg nonneg]
  · simp [Bounded, overInf]
  · cases neg
    · simp [Bounded, Past, overInf, maxOf_eq hf]
    · simpa [Bounded, overInf, maxOf_eq hf] using by linarith
  · cases neg
    · simpa [Bounded, overInf, maxOf_eq hf] using by linarith
    · simp [Bounded, Past, overInf, maxOf_eq hf]
  · simp [Bounded, Past, overInf, overOf_eq hf, abs_signedBy, abs_of_nonneg nonneg]

/-- The number of a magnitude that is not finite is not zero. -/
theorem pos_of_limit_le (hf : f.Usual) (le : f.limit ≤ (if up then t + 1 else t)) : 0 < x := by
  have two : 0 < f.limit - 1 := by
    have := hf.limit_pos
    have := hf.limit_even
    omega
  have mono := mag_strictMono ℝ f
  have past := (h.limit_le_iff hf).1 le
  exact ((mag_zero ℝ f).symm.le.trans_lt (mono two)).trans_le (past.le (mono (by omega)))

/-- R65: the model's result, where nothing is flushed, is the one that the mode chooses. -/
theorem rounded (hf : f.Usual) (least : 1 ≤ rm) (most : rm ≤ 5) :
    Rounded f rm (signedBy neg x) (f.encode neg (chosen f rm neg (if up then t + 1 else t))) := by
  have lt := (chosen_le hf rm neg (if up then t + 1 else t)).trans_lt f.limit_lt
  have fin := isFin_encode (f := f) neg lt
  refine ⟨encode_lt f neg lt, fun hy z hz => h.rounded_finite hf least most (fin.1 hy) hz, fun infinite => ?_, ?_⟩
  · obtain ⟨past, inf⟩ := not_not.1 fun h' => infinite (fin.2 ((chosen_lt_iff hf rm neg _).2 h'))
    have pos := h.pos_of_limit_le hf past
    have limit : chosen f rm neg (if up then t + 1 else t) = f.limit := by rw [chosen, if_pos past, if_pos inf]
    refine ⟨?_, ?_⟩
    · rw [fracOf_eq, encode_mod f neg lt, limit, Fmt.limit, Nat.mul_mod_left]
    · refine (isNeg_encode f neg lt).trans ?_
      cases neg <;> simp [pos, pos.le]
  · rw [fin]
    exact h.chosen_lt_iff_mode hf least most

end RoundsFrom

end Sys2Proof.Machine
end

section
/-! PROOFS. RoundTo of the model: its result (R63, R65, R81) and its flags (R57). -/

namespace Sys2Proof.Machine

open Sys2Proof.Claim

/-! ### Bits of flags (R57) -/

theorem getLsbD_fNV (i : Nat) : fNV.getLsbD i = decide (i = 0) := by
  rw [show fNV = BitVec.twoPow 32 0 from rfl, BitVec.getLsbD_twoPow]
  simp [eq_comm]

theorem getLsbD_fDZ (i : Nat) : fDZ.getLsbD i = decide (i = 1) := by
  rw [show fDZ = BitVec.twoPow 32 1 from rfl, BitVec.getLsbD_twoPow]
  simp [eq_comm]

theorem getLsbD_fOF (i : Nat) : fOF.getLsbD i = decide (i = 2) := by
  rw [show fOF = BitVec.twoPow 32 2 from rfl, BitVec.getLsbD_twoPow]
  simp [eq_comm]

theorem getLsbD_fUF (i : Nat) : fUF.getLsbD i = decide (i = 3) := by
  rw [show fUF = BitVec.twoPow 32 3 from rfl, BitVec.getLsbD_twoPow]
  simp [eq_comm]

theorem getLsbD_fNX (i : Nat) : fNX.getLsbD i = decide (i = 4) := by
  rw [show fNX = BitVec.twoPow 32 4 from rfl, BitVec.getLsbD_twoPow]
  simp [eq_comm]

theorem getLsbD_flagIf (b : Bool) (F : Word) (i : Nat) : (flagIf b F).getLsbD i = (b && F.getLsbD i) := by cases b <;> simp [flagIf]

/-! ### RoundTo -/

/-- The magnitude that RoundTo gives, with the largest finite one for an infinity under CSAT. -/
def saturated (f : Fmt) (rm : Nat) (csat neg : Bool) (t : Nat) : Nat :=
  if f.limit ≤ t then (if overInf rm neg && !csat then f.limit else f.limit - 1) else t

theorem saturated_lt (f : Fmt) (rm : Nat) (csat neg : Bool) (t : Nat) : saturated f rm csat neg t < 2 ^ (f.eb + f.mb) := by
  have := f.limit_lt
  unfold saturated
  split_ifs <;> omega

theorem roundedTo_fst (f : Fmt) (rm : Nat) (flush csat neg : Bool) (t c : Nat) (up tiny : Bool) :
    (roundedTo f rm flush csat neg t c up tiny).1 =
      f.encode neg (if flush && tiny then 0 else saturated f rm csat neg (if up then t + 1 else t)) := by
  unfold roundedTo saturated
  split_ifs <;> rfl

theorem saturated_eq (f : Fmt) (rm : Nat) (csat neg : Bool) (t : Nat) :
    saturated f rm csat neg t = if csat = true ∧ f.limit ≤ t ∧ overInf rm neg = true then f.limit - 1 else chosen f rm neg t := by
  unfold saturated chosen
  split_ifs <;> simp_all

/-- CSAT puts the largest finite number for an infinity. -/
theorem encode_saturated {f : Fmt} (hf : f.Usual) (rm : Nat) (csat neg : Bool) (t : Nat) :
    f.encode neg (saturated f rm csat neg t) =
      if csat = true ∧ ¬isFin f (f.encode neg (chosen f rm neg t)) then f.encode neg (chosen f rm neg t) - 1 else f.encode neg (chosen f rm neg t) := by
  have lt := (chosen_le hf rm neg t).trans_lt f.limit_lt
  have infinite : (csat = true ∧ ¬isFin f (f.encode neg (chosen f rm neg t))) ↔ csat = true ∧ f.limit ≤ t ∧ overInf rm neg = true := by
    rw [isFin_encode neg lt, chosen_lt_iff hf, not_not]
  rw [if_congr infinite rfl rfl, saturated_eq]
  split
  · next past =>
    have limit : chosen f rm neg t = f.limit := by rw [chosen, if_pos past.2.1, if_pos past.2.2]
    rw [limit, Fmt.encode, Fmt.encode, Nat.add_sub_assoc hf.limit_pos]
  · rfl

/-- A magnitude that is rounded up lies above the grid point below it. -/
theorem Goes.lt {K : Type*} [Field K] [LinearOrder K] [IsStrictOrderedRing K] {rm : Nat} {neg : Bool} {lo hi x : K} {odd : Prop}
    (h : Goes rm neg lo hi x odd) (less : lo < hi) : lo < x := by
  have mid := left_lt_add_div_two.2 less
  unfold Goes at h
  split at h
  · exact h.elim
  · exact h.2
  · exact h.2
  · exact mid.trans_le h
  · exact h.elim mid.trans fun h => h.1 ▸ mid

/-- The least normal number is among the finite ones. -/
theorem leastOf_le {f : Fmt} (hf : f.Usual) : leastOf f ≤ mag ℝ f (f.limit - 1) := by
  have place := mag_place ℝ f (q := 2 ^ f.mb) (d := 0) (Nat.pow_lt_pow_right (by decide) (Nat.lt_succ_self _)) (.inl rfl)
  have least : leastOf f = mag ℝ f (2 ^ f.mb) := by
    rw [leastOf, ← Nat.add_zero (2 ^ f.mb), ← Nat.zero_mul (2 ^ f.mb), place, Nat.cast_pow, Nat.cast_ofNat, ← zpow_natCast, ← zpow_add₀ two_ne_zero]
    congr 1
    simp only [Fmt.unit]
    push_cast
    ring
  rw [least]
  refine (mag_strictMono ℝ f).monotone (Nat.le_sub_one_of_lt ?_)
  rw [Fmt.limit]
  exact lt_mul_of_one_lt_left (Nat.two_pow_pos _) (by rw [hf.top_eq]; have := hf.bias_pos; omega)

namespace RoundsFrom

variable {f : Fmt} {rm : Nat} {neg : Bool} {x : ℝ} {t c : Nat} {up tiny : Bool} (h : RoundsFrom f rm neg x t c up tiny)
include h

theorem signedBy_neg_iff (nonzero : signedBy neg x ≠ 0) : signedBy neg x < 0 ↔ neg = true := by
  have pos : 0 < x := lt_of_le_of_ne h.nonneg fun e => nonzero (by rw [← e, signedBy_zero])
  cases neg <;> simp [pos, pos.le]

/-- R63, R65: the result of RoundTo. -/
theorem roundsTo (hf : f.Usual) (least : 1 ≤ rm) (most : rm ≤ 5) (flush csat : Bool) :
    RoundsTo f flush csat rm (signedBy neg x) (roundedTo f rm flush csat neg t c up tiny).1 := by
  have small : (flush && tiny) = true ↔ flush = true ∧ Tiny f rm (signedBy neg x) := by rw [h.tiny_iff, Bool.and_eq_true]
  rw [roundedTo_fst]
  refine ⟨fun flushed => ?_, fun kept => ⟨_, h.rounded hf least most, ?_⟩, fun nonzero => ?_⟩
  · rw [if_pos (small.2 flushed)]
    rw [if_congr (h.signedBy_neg_iff flushed.2.1) rfl rfl]
    cases neg <;> simp [Fmt.encode, sbit]
  · rw [if_neg fun e => kept (small.1 e)]
    exact encode_saturated hf rm csat neg _
  · rw [h.signedBy_neg_iff nonzero]
    refine isNeg_encode f neg ?_
    split
    · exact Nat.two_pow_pos _
    · exact saturated_lt ..

/-- A number that overflows is inexact. -/
theorem inexact_of_limit_le (le : f.limit ≤ (if up then t + 1 else t)) : ¬(c = 0 ∧ t < f.limit) := by
  rintro ⟨zero, lt⟩
  have less := mag_strictMono ℝ f (Nat.lt_succ_self t)
  cases up with
  | false => exact absurd le (not_le.2 lt)
  | true => exact absurd ((h.classed.eq_zero_iff less).1 zero) ((h.dir.1 rfl).lt less).ne'

/-- A tiny number does not overflow. -/
theorem lt_limit_of_tiny (hf : f.Usual) (small : tiny = true) : ¬f.limit ≤ (if up then t + 1 else t) := by
  rw [h.limit_le_iff hf]
  intro past
  have below := belowOf_pos f
  have low := past.le (mag_strictMono ℝ f (Nat.sub_lt hf.limit_pos one_pos))
  exact (h.small.1 small).2 (past_of_le (sub_lt_self _ below) ((leastOf_le hf).trans low))

/-- R57, R63: the flags of RoundTo. -/
theorem roundFlags (hf : f.Usual) (flush csat : Bool) (i : Nat) :
    (roundedTo f rm flush csat neg t c up tiny).2.getLsbD i = true ↔ RoundFlag f flush rm (signedBy neg x) i := by
  have inexact := h.inexact_of_limit_le
  have normal := h.lt_limit_of_tiny hf
  have le : t ≤ (if up then t + 1 else t) := by split <;> omega
  simp only [RoundFlag, h.inexact_iff, h.tiny_iff, h.overflows_iff hf, roundedTo]
  generalize (if up then t + 1 else t) = T at inexact normal le ⊢
  by_cases flushed : (flush && tiny) = true
  · obtain ⟨rfl, rfl⟩ := Bool.and_eq_true_iff.1 flushed
    simp [getLsbD_fUF, getLsbD_fNX, not_le.1 (normal rfl)]
  · rw [if_neg flushed]
    have kept : ¬(flush = true ∧ tiny = true) := by simpa using flushed
    by_cases past : f.limit ≤ T
    · have large : tiny = false := by simpa using fun small => normal small past
      simp [getLsbD_fOF, getLsbD_fNX, past, large, inexact past]
    · have exact_ : ¬(c = 0 ∧ t < f.limit) ↔ c ≠ 0 := by rw [and_iff_left (le.trans_lt (not_le.1 past))]
      have only : tiny = true ∧ (flush = true ∨ c ≠ 0) ↔ tiny = true ∧ c ≠ 0 := by tauto
      rw [if_neg past, exact_, only]
      simp [getLsbD_flagIf, getLsbD_fUF, getLsbD_fNX, past, kept, or_comm, and_comm]

end RoundsFrom

/-! ### RoundTo of the model -/

/-- R63, R65, R57: RoundTo of ± m × 2^e. -/
structure RoundedBy (f : Fmt) (flush csat : Bool) (rm : Nat) (neg : Bool) (x : ℝ) (r : Nat × Word) : Prop where
  result : RoundsTo f flush csat rm x r.1
  flags : ∀ i, r.2.getLsbD i = true ↔ RoundFlag f flush rm x i
  lt : r.1 < 2 ^ f.width
  sign : isNeg f r.1 ↔ neg = true

theorem round_roundedBy {f : Fmt} (hf : f.Usual) {rm : Nat} (least : 1 ≤ rm) (most : rm ≤ 5) (flush csat neg : Bool) (m : Nat) (e : Int) :
    RoundedBy f flush csat rm neg (signedBy neg ((m : ℝ) * 2 ^ e)) (f.round rm flush csat neg m e false) := by
  obtain ⟨t, c, up, tiny, h, eq⟩ := round_cases hf rm neg m e
  have small : (if flush && tiny then 0 else saturated f rm csat neg (if up then t + 1 else t)) < 2 ^ (f.eb + f.mb) := by
    split
    · exact Nat.two_pow_pos _
    · exact saturated_lt ..
  rw [eq flush csat]
  refine ⟨h.roundsTo hf least most flush csat, h.roundFlags hf flush csat, ?_, ?_⟩
  · rw [roundedTo_fst]
    exact encode_lt f neg small
  · rw [roundedTo_fst]
    exact isNeg_encode f neg small

end Sys2Proof.Machine
end

section
/-! PROOFS. What Src reads of an encoding (R62, R63, R81), the results beside NaNs (R64), and float to float conversion (R91). -/

namespace Sys2Proof.Machine

open Sys2Proof.Claim

/-! ### The number that Src reads -/

/-- The magnitude that Src reads from a finite encoding: a subnormal's is zero under flush. -/
def seenMag (v : FEnv) (f : Fmt) (y : Nat) : Nat := if v.flush f = true ∧ expOf f y = 0 then 0 else y % 2 ^ (f.eb + f.mb)

theorem readOf_eq (v : FEnv) (f : Fmt) (y : Nat) : readOf v f y = signedBy (decide (isNeg f y)) (mag ℚ f (seenMag v f y)) := by
  unfold readOf seenMag
  split
  · simp
  · exact finOf_eq f y

theorem seenMag_lt {f : Fmt} (hf : f.Usual) (v : FEnv) {y : Nat} (fin : isFin f y) : seenMag v f y < f.limit := by
  unfold seenMag
  split
  · exact hf.limit_pos
  · exact (isFin_iff.1 fin).2

/-- What Src reads: a NaN with its fraction, an infinity, or the number of a finite encoding. -/
inductive ReadAs (v : FEnv) (f : Fmt) (y : Nat) : FVal → Prop
  | nan (h : isNaN f y) : ReadAs v f y (.nan (decide (isNeg f y)) (fracOf f y) f.mb)
  | inf (h : isInf f y) : ReadAs v f y (.inf (decide (isNeg f y)))
  | fin (h : isFin f y) (m : Nat) (e : Int) (value : (m : ℚ) * 2 ^ e = mag ℚ f (seenMag v f y)) (small : m < 2 ^ (f.mb + 1)) :
      ReadAs v f y (.fin (decide (isNeg f y)) m e)

theorem readAs_src (v : FEnv) {f : Fmt} {y : Nat} (lt : y < 2 ^ f.width) : ReadAs v f y (v.src f y) := by
  have sign := bit_sign f lt
  by_cases top : expOf f y = 2 ^ f.eb - 1
  · by_cases frac : fracOf f y = 0
    · have read : v.src f y = .inf (decide (isNeg f y)) := by
        rw [FEnv.src, Nat.mod_eq_of_lt lt, Fmt.read, expOf_shiftRight]
        simp only [Fmt.top, if_pos top, if_pos frac, sign]
      rw [read]
      exact .inf ⟨top, frac⟩
    · rw [src_nan v lt ⟨top, frac⟩]
      exact .nan ⟨top, frac⟩
  · have exp := expOf_eq f y
    have frac := fracOf_eq f y
    by_cases zero : expOf f y = 0
    · have read : v.src f y = .fin (decide (isNeg f y)) (if v.flush f then 0 else fracOf f y) f.unit := by
        rw [FEnv.src, Nat.mod_eq_of_lt lt, Fmt.read, expOf_shiftRight]
        simp only [Fmt.top, if_neg top, if_pos zero, sign]
        rfl
      rw [read]
      have small : fracOf f y < 2 ^ (f.mb + 1) := (Nat.mod_lt _ (Nat.two_pow_pos _)).trans (Nat.pow_lt_pow_right (by decide) (Nat.lt_succ_self _))
      cases flush : v.flush f with
      | true => exact .fin ⟨lt, top⟩ _ _ (by simp [seenMag, flush, zero]) (Nat.two_pow_pos _)
      | false =>
        refine .fin ⟨lt, top⟩ _ _ ?_ small
        have quot : y % 2 ^ (f.eb + f.mb) / 2 ^ f.mb = 0 := exp ▸ zero
        have whole : fracOf f y = y % 2 ^ (f.eb + f.mb) := by
          rw [frac, Nat.mod_eq_of_lt ((Nat.div_eq_zero_iff_lt (Nat.two_pow_pos _)).1 quot)]
        simp only [seenMag, flush, Bool.false_eq_true, false_and, if_false]
        rw [mag, if_pos quot, ← whole]
    · have read : v.src f y = .fin (decide (isNeg f y)) (2 ^ f.mb + fracOf f y) ((expOf f y : Int) - f.bias - f.mb) := by
        rw [FEnv.src, Nat.mod_eq_of_lt lt, Fmt.read, expOf_shiftRight]
        simp only [Fmt.top, if_neg top, if_neg zero, sign]
      rw [read]
      have small : 2 ^ f.mb + fracOf f y < 2 ^ (f.mb + 1) := by
        rw [pow_succ', Nat.two_mul]
        exact Nat.add_lt_add_left (Nat.mod_lt _ (Nat.two_pow_pos _)) _
      refine .fin ⟨lt, top⟩ _ _ ?_ small
      have place : (expOf f y : Int) - f.bias - f.mb = ((expOf f y - 1 : Nat) : Int) + f.unit := by
        simp only [Fmt.unit, Fmt.emin]
        omega
      simp only [seenMag, zero, and_false, if_false]
      rw [mag, if_neg (exp ▸ zero), place, ← exp, ← frac]

section
variable {f : Fmt} {y : Nat}

theorem not_isInf_of_isNaN (h : isNaN f y) : ¬isInf f y := fun h' => h.2 h'.2
theorem not_isFin_of_isNaN (h : isNaN f y) : ¬isFin f y := fun h' => h'.2 h.1
theorem not_isFin_of_isInf (h : isInf f y) : ¬isFin f y := fun h' => h'.2 h.1
theorem not_isNaN_of_isFin (h : isFin f y) : ¬isNaN f y := fun h' => h.2 h'.1
theorem not_isInf_of_isFin (h : isFin f y) : ¬isInf f y := fun h' => h.2 h'.1
theorem not_isNaN_of_isInf (h : isInf f y) : ¬isNaN f y := fun h' => h'.2 h.2

end

section
variable {v : FEnv} {f : Fmt} {y : Nat} {m : Nat} {e : Int}

/-- The number read, of a sign and a magnitude. -/
theorem readOf_of_value (value : (m : ℚ) * 2 ^ e = mag ℚ f (seenMag v f y)) : readOf v f y = signedBy (decide (isNeg f y)) ((m : ℚ) * 2 ^ e) := by
  rw [readOf_eq, value]

theorem cast_signedBy (neg : Bool) (m : Nat) (e : Int) : ((signedBy neg ((m : ℚ) * 2 ^ e) : ℚ) : ℝ) = signedBy neg ((m : ℝ) * 2 ^ e) := by
  cases neg <;> push_cast [signedBy_false, signedBy_true] <;> rfl

theorem real_readOf_of_value (value : (m : ℚ) * 2 ^ e = mag ℚ f (seenMag v f y)) :
    (readOf v f y : ℝ) = signedBy (decide (isNeg f y)) ((m : ℝ) * 2 ^ e) := by rw [readOf_of_value value, cast_signedBy]

/-- The number read is zero where the model's magnitude is. -/
theorem readOf_eq_zero_iff (value : (m : ℚ) * 2 ^ e = mag ℚ f (seenMag v f y)) : readOf v f y = 0 ↔ m = 0 := by
  have unit : (2 : ℚ) ^ e ≠ 0 := (zpow_pos two_pos e).ne'
  rw [readOf_of_value value, signedBy_eq_zero, mul_eq_zero, or_iff_left unit, Nat.cast_eq_zero]

end

/-! ### Exact results -/

/-- R65: the rounding of a finite magnitude of the format is its encoding, with no flag. -/
theorem round_mag {f : Fmt} (hf : f.Usual) (rm : Nat) (csat neg : Bool) {m : Nat} {e : Int} {T : Nat} (lt : T < f.limit)
    (value : (m : ℚ) * 2 ^ e = mag ℚ f T) : f.round rm false csat neg m e false = (f.encode neg T, 0) := by
  obtain ⟨t, c, up, tiny, h, eq⟩ := round_cases hf rm neg m e
  have real : (m : ℝ) * 2 ^ e = mag ℝ f T := by
    rw [← cast_mag, ← value]
    push_cast
    rfl
  rw [real] at h
  obtain ⟨lower, upper⟩ := h.bounds
  have mono := mag_strictMono ℝ f
  obtain rfl : t = T := le_antisymm (mono.le_iff_le.1 lower) (Nat.lt_succ_iff.1 (mono.lt_iff_lt.1 upper))
  have less := mono (Nat.lt_succ_self t)
  have here : c = 0 := (h.classed.eq_zero_iff less).2 rfl
  have stays : up = false := by simpa using fun high => ((h.dir.1 high).lt less).false
  rw [eq, roundedTo, here, stays]
  simp [lt, flagIf]

/-! ### NaNs (R64) -/

theorem qnan_eq (f : Fmt) : f.qnan = canonicalNaN f := by simp [Fmt.qnan, Fmt.pack, sbit, Fmt.top]

theorem inf_eq_infOf (f : Fmt) (y : Nat) (g : Fmt) : f.inf (decide (isNeg g y)) = infOf f (isNeg g y) := by
  by_cases neg : isNeg g y <;> simp [Fmt.inf, Fmt.pack, sbit, Fmt.top, infOf, neg]

/-- The quiet bit set in a fraction. -/
theorem quieted {f : Fmt} (pos : 0 < f.mb) (y : Nat) :
    fracOf f y ||| 2 ^ (f.mb - 1) = if isQuiet f y then fracOf f y else fracOf f y + 2 ^ (f.mb - 1) := by
  have lt : fracOf f y < 2 ^ (f.mb - 1 + 1) := by
    rw [Nat.sub_add_cancel pos]
    exact Nat.mod_lt _ (Nat.two_pow_pos _)
  have place (r : Nat) (hr : r < 2 ^ (f.mb - 1)) : 2 ^ (f.mb - 1) + r = 2 ^ (f.mb - 1) ||| r := by
    simpa using Nat.two_pow_add_eq_or_of_lt hr 1
  split
  · next quiet =>
    obtain ⟨r, hr⟩ := Nat.exists_eq_add_of_le quiet
    have small : r < 2 ^ (f.mb - 1) := by
      rw [hr, pow_succ] at lt
      omega
    rw [hr, place r small, Nat.or_comm, ← Nat.or_assoc, Nat.or_self]
  · next signalling => rw [Nat.add_comm, place _ (not_le.1 signalling), Nat.or_comm]

theorem isSnan_nan {f : Fmt} (pos : 0 < f.mb) (y : Nat) (neg : Bool) : (FVal.nan neg (fracOf f y) f.mb).isSnan = decide ¬isQuiet f y := by
  rw [FVal.isSnan, bit_quiet f pos, decide_not]

section
variable {v : FEnv} {f : Fmt} {y : Nat} {a : FVal}

theorem ReadAs.isNan_iff (h : ReadAs v f y a) : a.isNan = true ↔ isNaN f y := by
  cases h with
  | nan h => exact iff_of_true rfl h
  | inf h => exact iff_of_false Bool.false_ne_true (not_isNaN_of_isInf h)
  | fin h => exact iff_of_false Bool.false_ne_true (not_isNaN_of_isFin h)

theorem ReadAs.isSnan_iff (pos : 0 < f.mb) (h : ReadAs v f y a) : a.isSnan = true ↔ isNaN f y ∧ ¬isQuiet f y := by
  cases h with
  | nan h => rw [isSnan_nan pos, decide_eq_true_iff, and_iff_right h]
  | inf h => exact iff_of_false Bool.false_ne_true fun h' => not_isNaN_of_isInf h h'.1
  | fin h => exact iff_of_false Bool.false_ne_true fun h' => not_isNaN_of_isFin h h'.1

end

theorem getLsbD_snanFlag (l : List FVal) (i : Nat) : (snanFlag l).getLsbD i = true ↔ i = 0 ∧ ∃ a ∈ l, a.isSnan = true := by
  rw [snanFlag, getLsbD_flagIf, getLsbD_fNV]
  simp [and_comm]

/-! ### Conversion (R91) -/

/-- The result of converting a NaN where NaNs are kept. -/
theorem nanOut_nan {src dst : Fmt} (pos : 0 < src.mb) (y : Nat) :
    dst.nanOut true [.nan (decide (isNeg src y)) (fracOf src y) src.mb] =
      infOf dst (isNeg src y) + (if dst.mb ≤ src.mb then (if isQuiet src y then fracOf src y else fracOf src y + 2 ^ (src.mb - 1)) / 2 ^ (src.mb - dst.mb)
        else (if isQuiet src y then fracOf src y else fracOf src y + 2 ^ (src.mb - 1)) * 2 ^ (dst.mb - src.mb)) := by
  rw [← quieted pos, ← inf_eq_infOf, Fmt.inf, pack_eq]
  have out : dst.nanOut true [.nan (decide (isNeg src y)) (fracOf src y) src.mb] = dst.pack (decide (isNeg src y)) dst.top
      (if dst.mb ≤ src.mb then (fracOf src y ||| 2 ^ (src.mb - 1)) >>> (src.mb - dst.mb)
        else (fracOf src y ||| 2 ^ (src.mb - 1)) <<< (dst.mb - src.mb)) := rfl
  rw [out, pack_eq, Nat.shiftRight_eq_div_pow, Nat.shiftLeft_eq, Fmt.encode, Fmt.encode]
  simp only [Nat.add_zero, ← add_assoc]

/-- A NaN's fraction fitted to a format lies below it. -/
theorem nanOut_lt {f : Fmt} (hf : f.Usual) (nanm : Bool) {l : List FVal} (fits : ∀ s m mb, FVal.nan s m mb ∈ l → m < 2 ^ mb ∧ 1 ≤ mb) :
    f.nanOut nanm l < 2 ^ f.width := by
  have packs (q : Nat) (hq : q < 2 ^ f.mb) (neg : Bool) : f.pack neg f.top q < 2 ^ f.width := by
    rw [pack_eq]
    refine encode_lt f neg ?_
    have top := Nat.sub_add_cancel (Nat.two_pow_pos f.eb)
    rw [pow_add, ← top, Nat.succ_mul]
    exact Nat.add_lt_add_left hq _
  unfold Fmt.nanOut
  split
  · next s m mb found =>
    obtain ⟨small, pos⟩ := fits s m mb (List.mem_of_find?_eq_some found)
    have lt : m ||| 2 ^ (mb - 1) < 2 ^ mb := Nat.or_lt_two_pow small (Nat.pow_lt_pow_right (by decide) (Nat.sub_lt pos one_pos))
    refine packs _ ?_ s
    split
    · next le =>
      rw [Nat.shiftRight_eq_div_pow, Nat.div_lt_iff_lt_mul (Nat.two_pow_pos _), ← pow_add, Nat.add_sub_cancel' le]
      exact lt
    · next gt =>
      rw [Nat.shiftLeft_eq, ← Nat.sub_add_cancel (not_le.1 gt).le, Nat.add_comm, pow_add, Nat.add_sub_cancel_left]
      exact Nat.mul_lt_mul_of_pos_right lt (Nat.two_pow_pos _)
  · exact packs _ (Nat.pow_lt_pow_right (by decide) (Nat.sub_lt hf.one_le_mb one_pos)) false

/-- The fraction of a NaN that Src reads. -/
theorem ReadAs.fits {v : FEnv} {f : Fmt} (hf : f.Usual) {y : Nat} {s : Bool} {m mb : Nat} (h : ReadAs v f y (.nan s m mb)) : m < 2 ^ mb ∧ 1 ≤ mb := by
  cases h with
  | nan => exact ⟨Nat.mod_lt _ (Nat.two_pow_pos _), hf.one_le_mb⟩

/-- R64, R91: a conversion from one format to another. -/
structure ConvertedBy (v : FEnv) (src dst : Fmt) (y : Nat) (r : Nat × Word) : Prop where
  result : Converts v src dst y r.1
  flags : ∀ i, r.2.getLsbD i = true ↔ ConvertFlag v src dst y i
  lt : r.1 < 2 ^ dst.width

theorem convert_convertedBy {src dst : Fmt} (hs : src.Usual) (hd : dst.Usual) {v : FEnv} (least : 1 ≤ v.rm) (most : v.rm ≤ 5) {y : Nat}
    (lt : y < 2 ^ src.width) : ConvertedBy v src dst y (dst.convert v (v.src src y)) := by
  have seen := readAs_src v lt
  have snan := seen.isSnan_iff hs.one_le_mb
  have fits (s : Bool) (m mb : Nat) (h : v.src src y = .nan s m mb) := (h ▸ seen).fits hs
  generalize v.src src y = a at seen snan fits
  cases seen with
  | nan h =>
    have eq : dst.convert v (.nan (decide (isNeg src y)) (fracOf src y) src.mb) =
      (dst.nanOut v.nanm [.nan (decide (isNeg src y)) (fracOf src y) src.mb], snanFlag [.nan (decide (isNeg src y)) (fracOf src y) src.mb]) := rfl
    rw [eq]
    refine ⟨⟨fun _ canonical => ?_, fun _ kept => ?_, fun h' => absurd h' (not_isInf_of_isNaN h), fun h' => absurd h' (not_isFin_of_isNaN h)⟩,
      fun i => ?_, nanOut_lt hd _ fun s m mb mem => fits s m mb (List.mem_singleton.1 mem).symm⟩
    · rw [canonical, nanOut_false, qnan_eq]
    · rw [kept]
      exact nanOut_nan hs.one_le_mb y
    · rw [getLsbD_snanFlag, ConvertFlag, or_iff_left fun h' => not_isFin_of_isNaN h h'.1, ← snan]
      simp only [List.mem_singleton, exists_eq_left]
  | inf h =>
    have eq : dst.convert v (.inf (decide (isNeg src y))) = (dst.inf (decide (isNeg src y)), 0) := rfl
    rw [eq]
    refine ⟨⟨fun h' => absurd h' (not_isNaN_of_isInf h), fun h' => absurd h' (not_isNaN_of_isInf h), fun _ => inf_eq_infOf ..,
      fun h' => absurd h' (not_isFin_of_isInf h)⟩, fun i => ?_, ?_⟩
    · refine iff_of_false (by simp) ?_
      rintro (⟨-, h', -⟩ | ⟨h', -⟩)
      · exact not_isNaN_of_isInf h h'
      · exact not_isFin_of_isInf h h'
    · rw [inf_eq]
      exact encode_lt dst _ dst.limit_lt
  | fin h m e value =>
    have eq : dst.convert v (.fin (decide (isNeg src y)) m e) = dst.round v.rm (v.flush dst) v.csat (decide (isNeg src y)) m e false := rfl
    have rounded := round_roundedBy hd least most (v.flush dst) v.csat (decide (isNeg src y)) m e
    rw [← real_readOf_of_value value, ← eq] at rounded
    refine ⟨⟨fun h' => absurd h' (not_isNaN_of_isFin h), fun h' => absurd h' (not_isNaN_of_isFin h), fun h' => absurd h' (not_isInf_of_isFin h),
      fun _ => ⟨rounded.result, rounded.sign.trans decide_eq_true_iff⟩⟩, fun i => ?_, rounded.lt⟩
    rw [rounded.flags, ConvertFlag, or_iff_right fun h' => not_isNaN_of_isFin h h'.2.1, and_iff_right h]

end Sys2Proof.Machine
end

section
/-! PROOFS. VCVT, VPACK and VUNPACK (R91, R92). -/

namespace Sys2Proof.Machine

open Sys2Proof.Claim

/-! ### One value (R91) -/

/-- A number of the type's range, extended, holds that number. -/
theorem elemInt_extendTy (t : Ty) {n : Int} (hn : tyMin t ≤ n ∧ n ≤ tyMax t) : elemInt t (extendTy t n) 0 = n := by
  rw [elemInt, slice_extendTy t n hn]
  exact elemInt_ofInt t n hn

theorem isInt_iff (t : Ty) : t.isInt = true ↔ isIntTy t := by cases t <;> simp [Ty.isInt, isIntTy]

section
variable (v : FEnv) {td ts : Ty} (x : Word)

theorem cvt_int_int (hs : isIntTy ts) (hd : isIntTy td) :
    cvt v td ts x = (extendTy td (fit (elemInt ts x 0) td true).1, (fit (elemInt ts x 0) td true).2) := by
  rw [cvt, if_pos ((isInt_iff ts).2 hs), elem_eq_elemInt]
  exact if_pos ((isInt_iff td).2 hd)

theorem cvt_float_int (hs : ¬isIntTy ts) (hd : isIntTy td) : cvt v td ts x =
    (extendTy td (toIntVal v (tyMin td) (tyMax td) (srcAt v ts x 0)).1, (toIntVal v (tyMin td) (tyMax td) (srcAt v ts x 0)).2) := by
  rw [cvt, if_neg ((isInt_iff ts).not.2 hs), fElem_eq_encAt]
  exact if_pos ((isInt_iff td).2 hd)

theorem cvt_int_float (hs : isIntTy ts) (hd : ¬isIntTy td) :
    cvt v td ts x = (BitVec.ofNat 32 ((fmtOf td).ofInt v (elemInt ts x 0)).1, ((fmtOf td).ofInt v (elemInt ts x 0)).2) := by
  rw [cvt, if_pos ((isInt_iff ts).2 hs), elem_eq_elemInt]
  exact if_neg ((isInt_iff td).not.2 hd)

theorem cvt_float_float (hs : ¬isIntTy ts) (hd : ¬isIntTy td) :
    cvt v td ts x = (BitVec.ofNat 32 ((fmtOf td).convert v (srcAt v ts x 0)).1, ((fmtOf td).convert v (srcAt v ts x 0)).2) := by
  rw [cvt, if_neg ((isInt_iff ts).not.2 hs), fElem_eq_encAt]
  exact if_neg ((isInt_iff td).not.2 hd)

end

/-! ### To an integer -/

/-- R91: the number that a float to integer conversion gives, and its flags. -/
structure IntegerOf (v : FEnv) (f : Fmt) (lo hi : Int) (y : Nat) (r : Int × Word) : Prop where
  nan : isNaN f y → r.1 = 0
  inf : isInf f y → r.1 = if isNeg f y then lo else hi
  fin : isFin f y → ∀ n, IntOf v.rm (readOf v f y) n → r.1 = max lo (min hi n)
  range : lo ≤ r.1 ∧ r.1 ≤ hi
  flags : ∀ i, r.2.getLsbD i = true ↔
    (i = 0 ∧ (¬isFin f y ∨ ∃ n, IntOf v.rm (readOf v f y) n ∧ (n < lo ∨ hi < n))) ∨
    (i = 4 ∧ isFin f y ∧ ∃ n, IntOf v.rm (readOf v f y) n ∧ lo ≤ n ∧ n ≤ hi ∧ (n : ℚ) ≠ readOf v f y)

theorem toIntVal_fin (v : FEnv) (lo hi : Int) (neg : Bool) (m : Nat) (e : Int) :
    let n : Int := signedBy neg ((roundAt v.rm neg m e 0 false).1 : Int)
    toIntVal v lo hi (.fin neg m e) = if n < lo then (lo, fNV) else if hi < n then (hi, fNV) else (n, flagIf (roundAt v.rm neg m e 0 false).2 fNX) := rfl

theorem toIntVal_integerOf (v : FEnv) {f : Fmt} {lo hi : Int} (zero : lo ≤ 0 ∧ 0 ≤ hi) {y : Nat} (lt : y < 2 ^ f.width) :
    IntegerOf v f lo hi y (toIntVal v lo hi (v.src f y)) := by
  have le : lo ≤ hi := zero.1.trans zero.2
  have seen := readAs_src v lt
  generalize v.src f y = a at seen
  cases seen with
  | nan h =>
    have not := not_isFin_of_isNaN h
    refine ⟨fun _ => rfl, fun h' => absurd h' (not_isInf_of_isNaN h), fun h' => absurd h' not, zero, fun i => ?_⟩
    simp [toIntVal, getLsbD_fNV, not]
  | inf h =>
    have not := not_isFin_of_isInf h
    refine ⟨fun h' => absurd h' (not_isNaN_of_isInf h), fun _ => by simp [toIntVal], fun h' => absurd h' not, ?_, fun i => ?_⟩
    · simp only [toIntVal]
      split
      · exact ⟨le_rfl, le⟩
      · exact ⟨le, le_rfl⟩
    · simp [toIntVal, getLsbD_fNV, not]
  | fin h m e value =>
    obtain ⟨int, inexact⟩ := intOf_roundAt v.rm (decide (isNeg f y)) m e
    have eq := toIntVal_fin v lo hi (decide (isNeg f y)) m e
    rw [← readOf_of_value value] at int inexact
    generalize signedBy (decide (isNeg f y)) ((roundAt v.rm (decide (isNeg f y)) m e 0 false).1 : Int) = n at int inexact eq
    have only (P : Int → Prop) : (∃ n, IntOf v.rm (readOf v f y) n ∧ P n) ↔ P n :=
      ⟨fun ⟨n', h', hp⟩ => intOf_unique int h' ▸ hp, fun hp => ⟨n, int, hp⟩⟩
    refine ⟨fun h' => absurd h' (not_isNaN_of_isFin h), fun h' => absurd h' (not_isInf_of_isFin h), fun _ n' h' => ?_, ?_, fun i => ?_⟩
    · rw [← intOf_unique int h', eq]
      split_ifs <;> simp only <;> omega
    · rw [eq]
      split_ifs <;> simp only <;> omega
    · rw [only, only, eq, ← inexact, or_iff_right (not_not.2 h), and_iff_right h]
      split_ifs with low high
      · simp [getLsbD_fNV, low, low.not_ge]
      · simp [getLsbD_fNV, high, high.not_ge]
      · simp [getLsbD_flagIf, getLsbD_fNX, low, high, not_lt.1 low, not_lt.1 high, and_comm]

/-! ### From an integer -/

/-- R91: an integer rounded to a format. -/
theorem ofInt_roundedBy {f : Fmt} (hf : f.Usual) {v : FEnv} (least : 1 ≤ v.rm) (most : v.rm ≤ 5) (n : Int) :
    RoundedBy f (v.flush f) v.csat v.rm (decide (n < 0)) (n : ℝ) (f.ofInt v n) := by
  have rounded := round_roundedBy hf least most (v.flush f) v.csat (decide (n < 0)) n.natAbs 0
  have number : signedBy (decide (n < 0)) ((n.natAbs : ℝ) * 2 ^ (0 : Int)) = n := by
    rw [zpow_zero, mul_one, Nat.cast_natAbs]
    rcases lt_or_ge n 0 with neg | pos
    · simp [neg, abs_of_neg]
    · simp [pos.not_gt, abs_of_nonneg pos]
  rwa [number] at rounded

theorem ofInt_zero (f : Fmt) (v : FEnv) : (f.ofInt v 0).1 = 0 := by
  simp [Fmt.ofInt, Fmt.round, Fmt.pack, sbit]

/-- An encoding of at most 32 bits in a register. -/
theorem toNat_ofNat_of_usual {f : Fmt} (hf : f.Usual) {x : Nat} (lt : x < 2 ^ f.width) : (BitVec.ofNat 32 x).toNat = x := by
  rw [BitVec.toNat_ofNat, Nat.mod_eq_of_lt (lt.trans_le (Nat.pow_le_pow_right (by decide) hf.width_le))]

theorem encAt_lt (t : Ty) (x : Word) (e : Nat) : encAt t x e < 2 ^ (fmtOf t).width := BitVec.isLt _

/-! ### One lane (R91, R92) -/

section
variable (v : FEnv) {td ts : Ty} (x : Word)

/-- R91: between integers. -/
theorem cvt_saturates (hs : isIntTy ts) (hd : isIntTy td) :
    let y := (cvt v td ts x).1
    (elemInt td y 0 = max (lowest td) (min (greatest td) (elemInt ts x 0)) ∧ y = extended td y) ∧
      ∀ i, (cvt v td ts x).2.getLsbD i = true ↔ i = 7 ∧ (elemInt ts x 0 < lowest td ∨ greatest td < elemInt ts x 0) := by
  have range := fit_range (elemInt ts x 0) td true
  rw [cvt_int_int v x hs hd]
  refine ⟨⟨?_, extendTy_extended td _ range⟩, getLsbD_fit_sat _ td⟩
  rw [elemInt_extendTy td range, fit_sat, tyMin_eq_lowest, tyMax_eq_greatest]

/-- R91: from a float to an integer. -/
theorem cvt_rounds_to_int (hs : ¬isIntTy ts) (hd : isIntTy td) : ∃ n fl, IntegerOf v (fmtOf ts) (lowest td) (greatest td) (encAt ts x 0) (n, fl) ∧
    elemInt td (cvt v td ts x).1 0 = n ∧ (cvt v td ts x).1 = extended td (cvt v td ts x).1 ∧ (cvt v td ts x).2 = fl := by
  have zero : tyMin td ≤ 0 ∧ 0 ≤ tyMax td := by cases td <;> decide
  have number := toIntVal_integerOf v zero (encAt_lt ts x 0)
  rw [cvt_float_int v x hs hd]
  refine ⟨_, _, ?_, elemInt_extendTy td number.range, extendTy_extended td _ number.range, rfl⟩
  rw [← tyMin_eq_lowest, ← tyMax_eq_greatest]
  exact number

variable {v} (least : 1 ≤ v.rm) (most : v.rm ≤ 5)
include least most

/-- R91: from an integer to a float. -/
theorem cvt_rounds_int (hs : isIntTy ts) (hd : ¬isIntTy td) :
    let F := fmtOf td
    (RoundsTo F (v.flush F) v.csat v.rm (elemInt ts x 0 : ℝ) (cvt v td ts x).1.toNat ∧ ((elemInt ts x 0 : ℝ) = 0 → (cvt v td ts x).1 = 0)) ∧
      ∀ i, (cvt v td ts x).2.getLsbD i = true ↔ RoundFlag F (v.flush F) v.rm (elemInt ts x 0 : ℝ) i := by
  intro F
  have number := ofInt_roundedBy (usual_fmtOf td) least most (elemInt ts x 0)
  rw [cvt_int_float v x hs hd]
  refine ⟨⟨?_, fun zero => ?_⟩, number.flags⟩
  · rw [toNat_ofNat_of_usual (usual_fmtOf td) number.lt]
    exact number.result
  · rw [Int.cast_eq_zero.1 zero, ofInt_zero]
    rfl

/-- R91: from a float to a float. -/
theorem cvt_converts (hs : ¬isIntTy ts) (hd : ¬isIntTy td) :
    Converts v (fmtOf ts) (fmtOf td) (encAt ts x 0) (cvt v td ts x).1.toNat ∧
      ∀ i, (cvt v td ts x).2.getLsbD i = true ↔ ConvertFlag v (fmtOf ts) (fmtOf td) (encAt ts x 0) i := by
  have number := convert_convertedBy (usual_fmtOf ts) (usual_fmtOf td) least most (encAt_lt ts x 0)
  rw [cvt_float_float v x hs hd]
  refine ⟨?_, number.flags⟩
  rw [toNat_ofNat_of_usual (usual_fmtOf td) number.lt]
  exact number.result

/-- R92: VPACK. -/
theorem pack2_converts (t : Ty) (y : Word) :
    (∃ lo hi, Converts v fp32 (fmtOf t) x.toNat lo ∧ Converts v fp32 (fmtOf t) y.toNat hi ∧
      (pack2 v t x y).1.toNat = (lo + hi * 2 ^ (fmtOf t).width) % 2 ^ 32) ∧
    ∀ i, (pack2 v t x y).2.getLsbD i = true ↔ ConvertFlag v fp32 (fmtOf t) x.toNat i ∨ ConvertFlag v fp32 (fmtOf t) y.toNat i := by
  have number (x : Word) := convert_convertedBy usual_fp32 (usual_fmtOf t) least most x.isLt
  refine ⟨⟨_, _, (number x).result, (number y).result, ?_⟩, fun i => ?_⟩
  · simp [pack2, fPut]
  · simp only [pack2, BitVec.getLsbD_or, Bool.or_eq_true]
    exact or_congr ((number x).flags i) ((number y).flags i)

/-- R92: VUNPACK. -/
theorem unpack_converts (t : Ty) (e : Bool) :
    Converts v (fmtOf t) fp32 (encAt t x (if e then 1 else 0)) (unpack v t e x).1.toNat ∧
      ∀ i, (unpack v t e x).2.getLsbD i = true ↔ ConvertFlag v (fmtOf t) fp32 (encAt t x (if e then 1 else 0)) i := by
  have number := convert_convertedBy (usual_fmtOf t) usual_fp32 least most (encAt_lt t x (if e then 1 else 0))
  rw [unpack, fElem_eq_encAt]
  refine ⟨?_, number.flags⟩
  rw [toNat_ofNat_of_usual usual_fp32 number.lt]
  exact number.result

end

end Sys2Proof.Machine
end

section
/-! PROOFS. Sums and products of values that are no NaN (R83, R93). -/

namespace Sys2Proof.Machine

open Sys2Proof.Claim

/-! ### Values -/

/-- A value that is no NaN: an infinity or a number, with its sign. -/
inductive Valued (neg infinite : Prop) (x : ℚ) : FVal → Prop
  | inf (s : Bool) (h : infinite) (sign : s = true ↔ neg) : Valued neg infinite x (.inf s)
  | fin (s : Bool) (m : Nat) (e : Int) (h : ¬infinite) (sign : s = true ↔ neg) (value : signedBy s ((m : ℚ) * 2 ^ e) = x) :
      Valued neg infinite x (.fin s m e)

section
variable {v : FEnv} {f : Fmt} {y z : Nat} {a b : FVal}

/-- What Src reads of an encoding that is no NaN. -/
theorem ReadAs.valued (h : ReadAs v f y a) (number : ¬isNaN f y) : Valued (isNeg f y) (isInf f y) (readOf v f y) a := by
  cases h with
  | nan h => exact absurd h number
  | inf h => exact .inf _ h decide_eq_true_iff
  | fin h m e value => exact .fin _ _ _ (not_isInf_of_isFin h) decide_eq_true_iff (readOf_of_value value).symm

/-- An encoding that is neither a NaN nor an infinity is of a finite number. -/
theorem isFin_of_not (lt : y < 2 ^ f.width) (number : ¬isNaN f y) (bounded : ¬isInf f y) : isFin f y := by
  refine ⟨lt, fun top => ?_⟩
  by_cases frac : fracOf f y = 0
  · exact bounded ⟨top, frac⟩
  · exact number ⟨top, frac⟩

end

section
variable {neg infinite : Prop} {x : ℚ} {a : FVal}

theorem Valued.eq_inf_iff (h : Valued neg infinite x a) (s : Bool) : FVal.inf s = a ↔ infinite ∧ (neg ↔ s = true) := by
  cases h with
  | inf s' h sign => cases s <;> cases s' <;> simp_all
  | fin s' m e h => simp [h]

theorem Valued.sign_iff (h : Valued neg infinite x a) : a.sign = true ↔ neg := by
  cases h with
  | inf s _ sign => exact sign
  | fin s m e _ sign => exact sign

theorem Valued.exists_fin (h : Valued neg infinite x a) (bounded : ¬infinite) :
    ∃ s m e, a = .fin s m e ∧ (s = true ↔ neg) ∧ signedBy s ((m : ℚ) * 2 ^ e) = x := by
  cases h with
  | inf s h => exact absurd h bounded
  | fin s m e h sign value => exact ⟨s, m, e, rfl, sign, value⟩

theorem Valued.opposite (h : Valued neg infinite x a) : Valued (¬neg) infinite (-x) a.neg := by
  cases h with
  | inf s h sign => exact .inf _ h (by simp [← sign])
  | fin s m e h sign value => exact .fin _ _ _ h (by simp [← sign]) (by rw [← value]; cases s <;> simp)

end

/-! ### Products (R83) -/

theorem signedBy_mul (s t : Bool) (x y : ℚ) : signedBy (s != t) (x * y) = signedBy s x * signedBy t y := by cases s <;> cases t <;> simp

theorem ne_eq_true_iff (s t : Bool) : (s != t) = true ↔ ¬(s = true ↔ t = true) := by cases s <;> cases t <;> simp

/-- The product of two values is an infinity or a number, unless it is that of a zero and an infinity. -/
theorem mulVal_valued {neg neg' infinite infinite' : Prop} {x x' : ℚ} {a b : FVal} (ha : Valued neg infinite x a) (hb : Valued neg' infinite' x' b) :
    ((infinite ∧ ¬infinite' ∧ x' = 0) ∨ (¬infinite ∧ x = 0 ∧ infinite') → mulVal a b = none) ∧
    (¬((infinite ∧ ¬infinite' ∧ x' = 0) ∨ (¬infinite ∧ x = 0 ∧ infinite')) →
      ∃ p, mulVal a b = some p ∧ Valued (¬(neg ↔ neg')) (infinite ∨ infinite') (x * x') p) := by
  have nonzero (s : Bool) (m : Nat) (e : Int) : signedBy s ((m : ℚ) * 2 ^ e) = 0 ↔ m = 0 := by
    rw [signedBy_eq_zero, mul_eq_zero, or_iff_left (zpow_pos two_pos e).ne', Nat.cast_eq_zero]
  cases ha with
  | inf s h sign =>
    cases hb with
    | inf s' h' sign' => exact ⟨fun bad => by simp [h, h'] at bad, fun _ => ⟨_, rfl, .inf _ (.inl h) (by rw [ne_eq_true_iff, sign, sign'])⟩⟩
    | fin s' n g h' sign' value =>
      subst value
      rw [nonzero]
      by_cases zero : n = 0
      · simp [mulVal, h, h', zero]
      · refine ⟨fun bad => by simp [h, h', zero] at bad, fun _ => ⟨.inf (s != s'), by simp [mulVal, zero], ?_⟩⟩
        exact .inf _ (.inl h) (by rw [ne_eq_true_iff, sign, sign'])
  | fin s m e h sign value =>
    subst value
    rw [nonzero]
    cases hb with
    | inf s' h' sign' =>
      by_cases zero : m = 0
      · simp [mulVal, h, h', zero]
      · refine ⟨fun bad => by simp [h, h', zero] at bad, fun _ => ⟨.inf (s != s'), by simp [mulVal, zero], ?_⟩⟩
        exact .inf _ (.inr h') (by rw [ne_eq_true_iff, sign, sign'])
    | fin s' n g h' sign' value' =>
      subst value'
      refine ⟨fun bad => by simp [h, h'] at bad, fun _ => ⟨_, rfl, .fin _ _ _ (by simp [h, h']) (by rw [ne_eq_true_iff, sign, sign']) ?_⟩⟩
      rw [← signedBy_mul, zpow_add₀ two_ne_zero]
      push_cast
      congr 1
      ring

/-! ### Sums (R83) -/

/-- The sign of an infinity, and a number as a term. -/
def infSign : FVal → Option Bool
  | .inf s => some s
  | _ => none

def finTerm : FVal → Option (Bool × Nat × Int)
  | .fin s m e => some (s, m, e)
  | _ => none

section
variable (f : Fmt) (v : FEnv) {l : List FVal}

/-- R83: a sum of values, by the signs of the infinities among them. -/
theorem sum_eq (l : List FVal) : f.sum v l =
    if ((l.filterMap infSign).any id && (l.filterMap infSign).any not) = true then f.invalid
    else (l.filterMap infSign).head?.elim (f.roundSum v (l.filterMap finTerm)) fun s => (f.inf s, 0) := by
  change (if ((l.filterMap infSign).any id && (l.filterMap infSign).any not) = true then f.invalid
    else match l.filterMap infSign with | s :: _ => (f.inf s, 0) | [] => f.roundSum v (l.filterMap finTerm)) = _
  cases l.filterMap infSign <;> rfl

theorem mem_infs (s : Bool) : s ∈ l.filterMap infSign ↔ FVal.inf s ∈ l := by
  rw [List.mem_filterMap]
  constructor
  · rintro ⟨x, hx, e⟩
    cases x <;> simp [infSign] at e
    exact e ▸ hx
  · exact fun h => ⟨_, h, rfl⟩

/-- Whether there are infinities of both signs. -/
theorem both_infs_iff : ((l.filterMap infSign).any id && (l.filterMap infSign).any not) = true ↔ FVal.inf true ∈ l ∧ FVal.inf false ∈ l := by
  simp only [Bool.and_eq_true, List.any_eq_true, mem_infs]
  simp

theorem sum_opposite (minus : FVal.inf true ∈ l) (plus : FVal.inf false ∈ l) : f.sum v l = f.invalid := by
  rw [sum_eq, if_pos (both_infs_iff.2 ⟨minus, plus⟩)]

theorem sum_infinite {s : Bool} (here : FVal.inf s ∈ l) (only : FVal.inf (!s) ∉ l) : f.sum v l = (f.inf s, 0) := by
  have one : ¬(FVal.inf true ∈ l ∧ FVal.inf false ∈ l) := by
    cases s
    · exact fun h => only h.1
    · exact fun h => only h.2
  rw [sum_eq, if_neg (both_infs_iff.not.2 one)]
  cases h : l.filterMap infSign with
  | nil => exact absurd ((mem_infs s).2 here) (by simp [h])
  | cons t rest =>
    have mem : FVal.inf t ∈ l := (mem_infs t).1 (by simp [h])
    have same : t = s := by
      by_contra ne
      exact only ((Bool.eq_not.2 ne) ▸ mem)
    rw [same]
    rfl

theorem sum_finite (L : List (Bool × Nat × Int)) : f.sum v (L.map fun t => .fin t.1 t.2.1 t.2.2) = f.roundSum v L := by
  have none_ : (L.map fun t => FVal.fin t.1 t.2.1 t.2.2).filterMap infSign = [] := by simp [infSign]
  have all : (L.map fun t => FVal.fin t.1 t.2.1 t.2.2).filterMap finTerm = L := by
    rw [List.filterMap_map]
    exact List.filterMap_some
  rw [sum_eq, none_, all]
  rfl

end

/-- A term of a sum as a number. -/
def termVal (t : Bool × Nat × Int) : ℚ := signedBy t.1 ((t.2.1 : ℚ) * 2 ^ t.2.2)

/-- A term in units no greater than its own. -/
theorem unitsAt_mul (t : Bool × Nat × Int) {u : Int} (le : u ≤ t.2.2) : (unitsAt t.1 t.2.1 t.2.2 u : ℚ) * 2 ^ u = termVal t := by
  obtain ⟨s, m, e⟩ := t
  obtain ⟨d, hd⟩ := Int.eq_ofNat_of_zero_le (Int.sub_nonneg.2 le)
  have size : (m : ℚ) * 2 ^ d * 2 ^ u = m * 2 ^ e := by
    rw [mul_assoc, ← zpow_natCast, ← zpow_add₀ two_ne_zero, ← hd]
    congr 2
    simp
  simp only at hd le
  simp only [unitsAt, termVal, hd, Int.toNat_natCast]
  cases s
  · simpa using size
  · simpa using size

theorem foldl_min_le (l : List (Bool × Nat × Int)) (u : Int) :
    l.foldl (fun u t => min u t.2.2) u ≤ u ∧ ∀ t ∈ l, l.foldl (fun u t => min u t.2.2) u ≤ t.2.2 := by
  induction l generalizing u with
  | nil => simp
  | cons t l ih =>
    obtain ⟨le, all⟩ := ih (min u t.2.2)
    refine ⟨le.trans (min_le_left _ _), fun t' ht' => ?_⟩
    rcases List.mem_cons.1 ht' with rfl | mem
    · exact le.trans (min_le_right _ _)
    · exact all t' mem

theorem foldl_unitsAt (l : List (Bool × Nat × Int)) {u : Int} (le : ∀ t ∈ l, u ≤ t.2.2) (n : Int) :
    ((l.foldl (fun a t => a + unitsAt t.1 t.2.1 t.2.2 u) n : Int) : ℚ) * 2 ^ u = n * 2 ^ u + (l.map termVal).sum := by
  induction l generalizing n with
  | nil => simp
  | cons t l ih =>
    rw [List.foldl_cons, ih (fun t' h => le t' (List.mem_cons_of_mem _ h)), List.map_cons, List.sum_cons, ← unitsAt_mul t (le t List.mem_cons_self)]
    push_cast
    ring

/-- R83: the exact sum. -/
theorem sumTerms_value (l : List (Bool × Nat × Int)) : ((sumTerms l).1 : ℚ) * 2 ^ (sumTerms l).2 = (l.map termVal).sum := by
  cases l with
  | nil => simp [sumTerms]
  | cons t l =>
    refine (foldl_unitsAt (t :: l) (foldl_min_le (t :: l) t.2.2).2 0).trans ?_
    rw [Int.cast_zero, zero_mul, zero_add]

/-- R63, R65: the rounding of an exact sum; a sum of zero has the sign of `zeroSign`. -/
theorem roundSum_roundedBy {f : Fmt} (hf : f.Usual) {v : FEnv} (least : 1 ≤ v.rm) (most : v.rm ≤ 5) (l : List (Bool × Nat × Int)) :
    (∃ neg, RoundedBy f (v.flush f) false v.rm neg (((l.map termVal).sum : ℚ) : ℝ) (f.roundSum v l)) ∧
      ((l.map termVal).sum = 0 → (f.roundSum v l).1 = f.encode (zeroSign v.rm (l.map (·.1))) 0) := by
  have value := sumTerms_value l
  obtain ⟨n, u, eq⟩ : ∃ n u, sumTerms l = (n, u) := ⟨_, _, rfl⟩
  rw [eq] at value
  rw [← value]
  have unit : (2 : ℚ) ^ u ≠ 0 := (zpow_pos two_pos u).ne'
  by_cases zero : n = 0
  · have res : f.roundSum v l = f.round v.rm (v.flush f) false (zeroSign v.rm (l.map (·.1))) 0 0 false := by
      simp [Fmt.roundSum, eq, zero, Fmt.round]
    have rounded := round_roundedBy hf least most (v.flush f) false (zeroSign v.rm (l.map (·.1))) 0 0
    rw [← res] at rounded
    refine ⟨⟨_, by simpa [zero] using rounded⟩, fun _ => ?_⟩
    simp [res, Fmt.round, pack_eq]
  · have res : f.roundSum v l = f.round v.rm (v.flush f) false (decide (n < 0)) n.natAbs u false := by
      simp [Fmt.roundSum, eq, zero]
    have rounded := round_roundedBy hf least most (v.flush f) false (decide (n < 0)) n.natAbs u
    have number : signedBy (decide (n < 0)) ((n.natAbs : ℝ) * 2 ^ u) = (((n : ℚ) * 2 ^ u : ℚ) : ℝ) := by
      push_cast
      rw [Nat.cast_natAbs]
      rcases lt_or_ge n 0 with neg | pos
      · simp [neg, abs_of_neg]
      · simp [pos.not_gt, abs_of_nonneg pos]
    rw [← res, number] at rounded
    exact ⟨⟨_, rounded⟩, fun none_ => absurd none_ (mul_ne_zero (Int.cast_ne_zero.2 zero) unit)⟩

end Sys2Proof.Machine
end

section
/-! PROOFS. VDOT2 (R93). -/

namespace Sys2Proof.Machine

open Sys2Proof.Claim

/-! ### Products of encodings -/

/-- A zero beside an infinity. -/
def ZeroInf (v : FEnv) (F : Fmt) (x y : Nat) : Prop := isFin F x ∧ readOf v F x = 0 ∧ isInf F y

section
variable {v : FEnv} {F : Fmt} {x y : Nat} {a b : FVal}

theorem ZeroInf.numbers (h : ZeroInf v F x y) : ¬isNaN F x ∧ ¬isNaN F y :=
  ⟨not_isNaN_of_isFin h.1, not_isNaN_of_isInf h.2.2⟩

variable (ltx : x < 2 ^ F.width) (lty : y < 2 ^ F.width) (ha : ReadAs v F x a) (hb : ReadAs v F y b)
include ltx lty ha hb

theorem mulVal_readAs (nx : ¬isNaN F x) (ny : ¬isNaN F y) :
    (ZeroInf v F x y ∨ ZeroInf v F y x → mulVal a b = none) ∧
    (¬(ZeroInf v F x y ∨ ZeroInf v F y x) →
      ∃ p, mulVal a b = some p ∧ Valued (¬(isNeg F x ↔ isNeg F y)) (isInf F x ∨ isInf F y) (readOf v F x * readOf v F y) p) := by
  have fin (z : Nat) (lt : z < 2 ^ F.width) (nz : ¬isNaN F z) : isFin F z ↔ ¬isInf F z := ⟨not_isInf_of_isFin, isFin_of_not lt nz⟩
  have same : ZeroInf v F x y ∨ ZeroInf v F y x ↔
      (isInf F x ∧ ¬isInf F y ∧ readOf v F y = 0) ∨ (¬isInf F x ∧ readOf v F x = 0 ∧ isInf F y) := by
    rw [ZeroInf, ZeroInf, fin x ltx nx, fin y lty ny]
    tauto
  rw [same]
  exact mulVal_valued (ha.valued nx) (hb.valued ny)

/-- Whether the model finds a product invalid. -/
theorem isNone_mulVal_iff : (!a.isNan && !b.isNan && (mulVal a b).isNone) = true ↔ ZeroInf v F x y ∨ ZeroInf v F y x := by
  have numbers : (!a.isNan && !b.isNan) = true ↔ ¬isNaN F x ∧ ¬isNaN F y := by
    rw [← ha.isNan_iff, ← hb.isNan_iff]
    simp
  rw [Bool.and_eq_true, numbers]
  constructor
  · rintro ⟨⟨nx, ny⟩, none_⟩
    by_contra valid
    obtain ⟨p, eq, -⟩ := (mulVal_readAs ltx lty ha hb nx ny).2 valid
    simp [eq] at none_
  · intro zero
    have both : ¬isNaN F x ∧ ¬isNaN F y := zero.elim ZeroInf.numbers fun h => h.numbers.symm
    exact ⟨both, by rw [(mulVal_readAs ltx lty ha hb both.1 both.2).1 zero]; rfl⟩

end

/-! ### What R93 says of the sources -/

section
variable (v : FEnv) (F : Fmt) (p q : Nat → Nat) (u : Nat)

def DotNaN : Prop := isNaN fp32 u ∨ ∃ e, e < 2 ∧ (isNaN F (p e) ∨ isNaN F (q e))

def DotSignalling : Prop := (isNaN fp32 u ∧ ¬isQuiet fp32 u) ∨
  ∃ e, e < 2 ∧ ((isNaN F (p e) ∧ ¬isQuiet F (p e)) ∨ (isNaN F (q e) ∧ ¬isQuiet F (q e)))

def DotBad : Prop := ∃ e, e < 2 ∧ (ZeroInf v F (p e) (q e) ∨ ZeroInf v F (q e) (p e))

def DotInf (sg : Prop) : Prop := (isInf fp32 u ∧ (isNeg fp32 u ↔ sg)) ∨
  ∃ e, e < 2 ∧ (isInf F (p e) ∨ isInf F (q e)) ∧ (¬(isNeg F (p e) ↔ isNeg F (q e)) ↔ sg)

def dotValue : ℚ := readOf v fp32 u + readOf v F (p 0) * readOf v F (q 0) + readOf v F (p 1) * readOf v F (q 1)

def DotFinite : Prop := isFin fp32 u ∧ ∀ e, e < 2 → isFin F (p e) ∧ isFin F (q e)

def DotMinus : Prop := (isNeg fp32 u ∧ ¬(isNeg F (p 0) ↔ isNeg F (q 0)) ∧ ¬(isNeg F (p 1) ↔ isNeg F (q 1))) ∨
  (v.rm = 4 ∧ ¬(¬isNeg fp32 u ∧ ¬¬(isNeg F (p 0) ↔ isNeg F (q 0)) ∧ ¬¬(isNeg F (p 1) ↔ isNeg F (q 1))))

/-- R93: the result and the flags of a dot product. -/
structure DotBy (r : Nat × Word) : Prop where
  canonical : DotNaN F p q u → v.nanm = false → r.1 = canonicalNaN fp32
  invalid : ¬DotNaN F p q u → DotBad v F p q ∨ (DotInf F p q u True ∧ DotInf F p q u False) → r.1 = canonicalNaN fp32
  plus : ¬DotNaN F p q u → ¬DotBad v F p q → DotInf F p q u False → ¬DotInf F p q u True → r.1 = 0x7F800000
  minus : ¬DotNaN F p q u → ¬DotBad v F p q → DotInf F p q u True → ¬DotInf F p q u False → r.1 = 0xFF800000
  sum : DotFinite F p q u → RoundsTo fp32 v.f32sub false v.rm (dotValue v F p q u : ℝ) r.1 ∧
    (dotValue v F p q u = 0 → (DotMinus v F p q u → r.1 = 0x80000000) ∧ (¬DotMinus v F p q u → r.1 = 0))
  flags : ∀ i, r.2.getLsbD i = true ↔
    (i = 0 ∧ (DotSignalling F p q u ∨ DotBad v F p q ∨ (¬DotNaN F p q u ∧ DotInf F p q u True ∧ DotInf F p q u False))) ∨
      (DotFinite F p q u ∧ RoundFlag fp32 v.f32sub v.rm (dotValue v F p q u : ℝ) i)
  lt : r.1 < 2 ^ fp32.width

end

theorem exists_lt_two {P : Nat → Prop} : (∃ e, e < 2 ∧ P e) ↔ P 0 ∨ P 1 := by
  constructor
  · rintro ⟨_ | _ | e, he, h⟩
    · exact .inl h
    · exact .inr h
    · omega
  · exact fun h => h.elim (fun h => ⟨0, by decide, h⟩) fun h => ⟨1, by decide, h⟩

section
variable {v : FEnv} {F : Fmt} {p q : Nat → Nat} {u : Nat}

theorem dotBad_iff : DotBad v F p q ↔
    (ZeroInf v F (p 0) (q 0) ∨ ZeroInf v F (q 0) (p 0)) ∨ (ZeroInf v F (p 1) (q 1) ∨ ZeroInf v F (q 1) (p 1)) := exists_lt_two

theorem dotFinite_iff : DotFinite F p q u ↔ isFin fp32 u ∧ (isFin F (p 0) ∧ isFin F (q 0)) ∧ isFin F (p 1) ∧ isFin F (q 1) := by
  refine and_congr_right fun _ => ⟨fun h => ⟨h 0 (by decide), h 1 (by decide)⟩, ?_⟩
  rintro ⟨h0, h1⟩ e he
  interval_cases e
  · exact h0
  · exact h1

theorem DotFinite.not_nan (h : DotFinite F p q u) : ¬DotNaN F p q u := by
  rintro (nan | ⟨e, he, nan | nan⟩)
  · exact not_isNaN_of_isFin h.1 nan
  · exact not_isNaN_of_isFin (h.2 e he).1 nan
  · exact not_isNaN_of_isFin (h.2 e he).2 nan

theorem DotFinite.not_bad (h : DotFinite F p q u) : ¬DotBad v F p q := by
  rintro ⟨e, he, ⟨-, -, inf⟩ | ⟨-, -, inf⟩⟩
  · exact not_isInf_of_isFin (h.2 e he).2 inf
  · exact not_isInf_of_isFin (h.2 e he).1 inf

theorem DotFinite.not_inf (h : DotFinite F p q u) (sg : Prop) : ¬DotInf F p q u sg := by
  rintro (⟨inf, -⟩ | ⟨e, he, inf | inf, -⟩)
  · exact not_isInf_of_isFin h.1 inf
  · exact not_isInf_of_isFin (h.2 e he).1 inf
  · exact not_isInf_of_isFin (h.2 e he).2 inf

/-- Without NaNs and infinities all sources are finite. -/
theorem dotFinite_of_not_inf (number : ¬DotNaN F p q u) (neg : ¬DotInf F p q u True) (pos : ¬DotInf F p q u False)
    (lp : ∀ e, p e < 2 ^ F.width) (lq : ∀ e, q e < 2 ^ F.width) (lu : u < 2 ^ fp32.width) : DotFinite F p q u := by
  have outer : ¬isInf fp32 u := fun h => by
    by_cases sign : isNeg fp32 u
    · exact neg (.inl ⟨h, iff_true_intro sign⟩)
    · exact pos (.inl ⟨h, iff_false_intro sign⟩)
  have inner (e : Nat) (he : e < 2) : ¬(isInf F (p e) ∨ isInf F (q e)) := fun h => by
    by_cases sign : ¬(isNeg F (p e) ↔ isNeg F (q e))
    · exact neg (.inr ⟨e, he, h, iff_true_intro sign⟩)
    · exact pos (.inr ⟨e, he, h, iff_false_intro sign⟩)
  exact ⟨isFin_of_not lu (fun h => number (.inl h)) outer, fun e he =>
    ⟨isFin_of_not (lp e) (fun h => number (.inr ⟨e, he, .inl h⟩)) fun h => inner e he (.inl h),
      isFin_of_not (lq e) (fun h => number (.inr ⟨e, he, .inr h⟩)) fun h => inner e he (.inr h)⟩⟩

theorem not_signalling_of_not_nan (h : ¬DotNaN F p q u) : ¬DotSignalling F p q u := by
  rintro (⟨nan, -⟩ | ⟨e, he, ⟨nan, -⟩ | ⟨nan, -⟩⟩)
  · exact h (.inl nan)
  · exact h (.inr ⟨e, he, .inl nan⟩)
  · exact h (.inr ⟨e, he, .inr nan⟩)

end

/-! ### The model's dot product -/

section
variable {v : FEnv} {F : Fmt} {p q : Nat → Nat} {u : Nat} {a0 a1 b0 b1 c : FVal}

/-- The sign of a zero sum. -/
theorem zeroSign_iff {s s0 s1 : Bool} (hs : s = true ↔ isNeg fp32 u) (hs0 : s0 = true ↔ ¬(isNeg F (p 0) ↔ isNeg F (q 0)))
    (hs1 : s1 = true ↔ ¬(isNeg F (p 1) ↔ isNeg F (q 1))) : zeroSign v.rm [s, s0, s1] = true ↔ DotMinus v F p q u := by
  rw [DotMinus, ← hs, ← hs0, ← hs1]
  cases s <;> cases s0 <;> cases s1 <;> simp [zeroSign]

variable (hu : ReadAs v fp32 u c) (ha0 : ReadAs v F (p 0) a0) (hb0 : ReadAs v F (q 0) b0) (ha1 : ReadAs v F (p 1) a1) (hb1 : ReadAs v F (q 1) b1)
include hu ha0 hb0 ha1 hb1

theorem any_isNan_iff : [a0, a1, b0, b1, c].any FVal.isNan = true ↔ DotNaN F p q u := by
  rw [DotNaN, exists_lt_two, ← hu.isNan_iff, ← ha0.isNan_iff, ← ha1.isNan_iff, ← hb0.isNan_iff, ← hb1.isNan_iff]
  simp only [List.any_cons, List.any_nil, Bool.or_eq_true, Bool.false_eq_true, or_false]
  exact iff_of_eq (by ac_rfl)

variable (hF : F.Usual)
include hF

theorem exists_isSnan_iff : (∃ a ∈ [a0, a1, b0, b1, c], a.isSnan = true) ↔ DotSignalling F p q u := by
  rw [DotSignalling, exists_lt_two, ← hu.isSnan_iff (by decide), ← ha0.isSnan_iff hF.one_le_mb, ← ha1.isSnan_iff hF.one_le_mb,
    ← hb0.isSnan_iff hF.one_le_mb, ← hb1.isSnan_iff hF.one_le_mb]
  simp only [List.mem_cons, List.not_mem_nil, or_false, exists_eq_or_imp, exists_eq_left]
  exact iff_of_eq (by ac_rfl)

theorem dot_fits (s : Bool) (m mb : Nat) (h : FVal.nan s m mb ∈ [a0, a1, b0, b1, c]) : m < 2 ^ mb ∧ 1 ≤ mb := by
  simp only [List.mem_cons, List.not_mem_nil, or_false] at h
  rcases h with rfl | rfl | rfl | rfl | rfl
  · exact ha0.fits hF
  · exact ha1.fits hF
  · exact hb0.fits hF
  · exact hb1.fits hF
  · exact hu.fits usual_fp32

variable (lp : ∀ e, p e < 2 ^ F.width) (lq : ∀ e, q e < 2 ^ F.width) (lu : u < 2 ^ fp32.width)
include lp lq

/-- R93: a NaN among the sources. -/
theorem dot2_nan (nan : DotNaN F p q u) : DotBy v F p q u (dot2 v a0 a1 b0 b1 c) := by
  have any := (any_isNan_iff hu ha0 hb0 ha1 hb1).2 nan
  have eq : dot2 v a0 a1 b0 b1 c = (fp32.nanOut v.nanm [a0, a1, b0, b1, c], snanFlag [a0, a1, b0, b1, c] |||
      flagIf ((!a0.isNan && !b0.isNan && (mulVal a0 b0).isNone) || (!a1.isNan && !b1.isNan && (mulVal a1 b1).isNone)) fNV) := by
    rw [dot2, Fmt.nanCase, if_pos any]
  have bad := isNone_mulVal_iff (lp 0) (lq 0) ha0 hb0
  have bad' := isNone_mulVal_iff (lp 1) (lq 1) ha1 hb1
  rw [eq]
  refine ⟨fun _ canonical => ?_, fun h => absurd nan h, fun h => absurd nan h, fun h => absurd nan h, fun h => absurd nan h.not_nan, fun i => ?_, ?_⟩
  · rw [canonical, nanOut_false, qnan_eq]
  · rw [BitVec.getLsbD_or, Bool.or_eq_true, getLsbD_snanFlag, exists_isSnan_iff hu ha0 hb0 ha1 hb1 hF, getLsbD_flagIf, getLsbD_fNV, Bool.and_eq_true,
      Bool.or_eq_true, bad, bad', ← dotBad_iff, decide_eq_true_iff,
      or_iff_left fun h : DotFinite F p q u ∧ _ => h.1.not_nan nan, or_iff_left fun h : ¬DotNaN F p q u ∧ _ => h.1 nan, and_or_left,
      and_comm (a := DotBad v F p q)]
  · exact nanOut_lt usual_fp32 _ (dot_fits hu ha0 hb0 ha1 hb1 hF)

omit hF in
/-- R93: without a NaN, a zero times an infinity is invalid. -/
theorem dot2_bad (number : ¬DotNaN F p q u) (bad : DotBad v F p q) : DotBy v F p q u (dot2 v a0 a1 b0 b1 c) := by
  have any := (any_isNan_iff hu ha0 hb0 ha1 hb1).not.2 number
  have eq : dot2 v a0 a1 b0 b1 c = fp32.invalid := by
    rw [dot2, Fmt.nanCase, if_neg any]
    rcases dotBad_iff.1 bad with zero | zero
    · have both := zero.elim ZeroInf.numbers fun h => h.numbers.symm
      simp [(mulVal_readAs (lp 0) (lq 0) ha0 hb0 both.1 both.2).1 zero]
    · have both := zero.elim ZeroInf.numbers fun h => h.numbers.symm
      simp [(mulVal_readAs (lp 1) (lq 1) ha1 hb1 both.1 both.2).1 zero]
  rw [eq, Fmt.invalid, qnan_eq]
  refine ⟨fun h => absurd h number, fun _ _ => rfl, fun _ h => absurd bad h, fun _ h => absurd bad h, fun h => absurd bad h.not_bad, fun i => ?_, by decide⟩
  rw [getLsbD_fNV, decide_eq_true_iff, or_iff_left fun h : DotFinite F p q u ∧ _ => h.1.not_bad bad, and_iff_left (.inr (.inl bad))]

omit hF in
/-- R93: otherwise it is a sum of three values. -/
theorem dot2_eq_sum (number : ¬DotNaN F p q u) (valid : ¬DotBad v F p q) : ∃ x y, dot2 v a0 a1 b0 b1 c = fp32.sum v [c, x, y] ∧
    Valued (¬(isNeg F (p 0) ↔ isNeg F (q 0))) (isInf F (p 0) ∨ isInf F (q 0)) (readOf v F (p 0) * readOf v F (q 0)) x ∧
    Valued (¬(isNeg F (p 1) ↔ isNeg F (q 1))) (isInf F (p 1) ∨ isInf F (q 1)) (readOf v F (p 1) * readOf v F (q 1)) y := by
  have any := (any_isNan_iff hu ha0 hb0 ha1 hb1).not.2 number
  rw [DotNaN, exists_lt_two] at number
  obtain ⟨-, numbers⟩ := not_or.1 number
  obtain ⟨numbers0, numbers1⟩ := not_or.1 numbers
  obtain ⟨np0, nq0⟩ := not_or.1 numbers0
  obtain ⟨np1, nq1⟩ := not_or.1 numbers1
  obtain ⟨valid0, valid1⟩ := not_or.1 (dotBad_iff.not.1 valid)
  obtain ⟨x, hx, vx⟩ := (mulVal_readAs (lp 0) (lq 0) ha0 hb0 np0 nq0).2 valid0
  obtain ⟨y, hy, vy⟩ := (mulVal_readAs (lp 1) (lq 1) ha1 hb1 np1 nq1).2 valid1
  refine ⟨x, y, ?_, vx, vy⟩
  rw [dot2, Fmt.nanCase, if_neg any]
  simp [hx, hy]

end

/-! ### The sum (R93) -/

section
variable {v : FEnv} {F : Fmt} {p q : Nat → Nat} {u : Nat} {c x y : FVal} (number : ¬DotNaN F p q u) (valid : ¬DotBad v F p q)
  (hc : Valued (isNeg fp32 u) (isInf fp32 u) (readOf v fp32 u) c)
  (hx : Valued (¬(isNeg F (p 0) ↔ isNeg F (q 0))) (isInf F (p 0) ∨ isInf F (q 0)) (readOf v F (p 0) * readOf v F (q 0)) x)
  (hy : Valued (¬(isNeg F (p 1) ↔ isNeg F (q 1))) (isInf F (p 1) ∨ isInf F (q 1)) (readOf v F (p 1) * readOf v F (q 1)) y)

include hc hx hy in
/-- The infinities among the terms. -/
theorem inf_mem_iff : (FVal.inf true ∈ [c, x, y] ↔ DotInf F p q u True) ∧ (FVal.inf false ∈ [c, x, y] ↔ DotInf F p q u False) := by
  have mem (s : Bool) : FVal.inf s ∈ [c, x, y] ↔ DotInf F p q u (s = true) := by
    rw [DotInf, exists_lt_two, ← hc.eq_inf_iff s, ← hx.eq_inf_iff s, ← hy.eq_inf_iff s]
    simp only [List.mem_cons, List.not_mem_nil, or_false]
  have minus := mem true
  have plus := mem false
  simp only [eq_self, Bool.false_eq_true] at minus plus
  exact ⟨minus, plus⟩

include number in
/-- Infinities of both signs are invalid. -/
theorem dotBy_invalid (both : DotInf F p q u True ∧ DotInf F p q u False) : DotBy v F p q u fp32.invalid := by
  rw [Fmt.invalid, qnan_eq]
  refine ⟨fun h => absurd h number, fun _ _ => rfl, fun _ _ _ h => absurd both.1 h, fun _ _ _ h => absurd both.2 h,
    fun h => absurd both.1 (h.not_inf True), fun i => ?_, by decide⟩
  rw [getLsbD_fNV, decide_eq_true_iff, or_iff_left fun h : DotFinite F p q u ∧ _ => h.1.not_inf True both.1, and_iff_left (.inr (.inr ⟨number, both⟩))]

include number valid

/-- Without infinities of both signs NV is not raised. -/
theorem not_dot_invalid (one : ¬(DotInf F p q u True ∧ DotInf F p q u False)) :
    ¬(DotSignalling F p q u ∨ DotBad v F p q ∨ (¬DotNaN F p q u ∧ DotInf F p q u True ∧ DotInf F p q u False)) :=
  fun h => h.elim (not_signalling_of_not_nan number) fun h => h.elim valid fun h => one h.2

/-- An infinity of one sign. -/
theorem dotBy_infinite {s : Bool} (here : DotInf F p q u (s = true)) (only : ¬DotInf F p q u (s = false)) : DotBy v F p q u (fp32.inf s, 0) := by
  have notFinite : ¬DotFinite F p q u := fun h => h.not_inf _ here
  have one : ¬(DotInf F p q u True ∧ DotInf F p q u False) := by
    cases s
    · exact fun h => only (by simpa using h.1)
    · exact fun h => only (by simpa using h.2)
  have silent := not_dot_invalid number valid one
  refine ⟨fun h => absurd h number, fun _ h => absurd h fun h => h.elim valid one, fun _ _ plus minus => ?_, fun _ _ minus plus => ?_,
    fun h => absurd h notFinite, fun i => iff_of_false (by simp) fun h => h.elim (fun h => silent h.2) fun h => notFinite h.1, ?_⟩
  · cases s
    · rfl
    · exact absurd (by simpa using here) minus
  · cases s
    · exact absurd (by simpa using here) plus
    · rfl
  · cases s <;> decide

include hc hx hy

/-- Numbers alone. -/
theorem dotBy_finite (least : 1 ≤ v.rm) (most : v.rm ≤ 5) (neg : ¬DotInf F p q u True) (pos : ¬DotInf F p q u False) (finite : DotFinite F p q u) :
    DotBy v F p q u (fp32.sum v [c, x, y]) := by
  obtain ⟨fu, ⟨fp0, fq0⟩, fp1, fq1⟩ := dotFinite_iff.1 finite
  obtain ⟨s, m, e, rfl, hs, value⟩ := hc.exists_fin (not_isInf_of_isFin fu)
  obtain ⟨s0, m0, e0, rfl, hs0, value0⟩ := hx.exists_fin (not_or.2 ⟨not_isInf_of_isFin fp0, not_isInf_of_isFin fq0⟩)
  obtain ⟨s1, m1, e1, rfl, hs1, value1⟩ := hy.exists_fin (not_or.2 ⟨not_isInf_of_isFin fp1, not_isInf_of_isFin fq1⟩)
  have silent := not_dot_invalid number valid fun h => neg h.1
  have sum : ([(s, m, e), (s0, m0, e0), (s1, m1, e1)].map termVal).sum = dotValue v F p q u := by
    simp only [List.map_cons, List.map_nil, List.sum_cons, List.sum_nil, termVal, value, value0, value1, dotValue]
    ring
  have flush : v.flush fp32 = v.f32sub := if_pos rfl
  obtain ⟨⟨sg, rounded⟩, zero⟩ := roundSum_roundedBy usual_fp32 least most [(s, m, e), (s0, m0, e0), (s1, m1, e1)]
  have minus := zeroSign_iff (v := v) hs hs0 hs1
  rw [← sum_finite fp32 v] at rounded zero
  rw [sum] at rounded zero
  rw [flush] at rounded
  simp only [List.map_cons, List.map_nil] at rounded zero
  refine ⟨fun h => absurd h number, fun _ h => absurd h fun h => h.elim valid fun h => neg h.1, fun _ _ h => absurd h pos, fun _ _ h => absurd h neg,
    fun _ => ⟨rounded.result, fun none_ => ⟨fun h => ?_, fun h => ?_⟩⟩, fun i => ?_, rounded.lt⟩
  · rw [zero none_, minus.2 h]
    rfl
  · rw [zero none_, Bool.eq_false_iff.2 (minus.not.2 h)]
    rfl
  · rw [rounded.flags, or_iff_right fun h => silent h.2, and_iff_right finite]

end

/-- R93: VDOT2's result and flags. -/
theorem dot2_dotBy {v : FEnv} (least : 1 ≤ v.rm) (most : v.rm ≤ 5) {F : Fmt} (hF : F.Usual) {p q : Nat → Nat} {u : Nat}
    (lp : ∀ e, p e < 2 ^ F.width) (lq : ∀ e, q e < 2 ^ F.width) (lu : u < 2 ^ fp32.width) :
    DotBy v F p q u (dot2 v (v.src F (p 0)) (v.src F (p 1)) (v.src F (q 0)) (v.src F (q 1)) (v.src fp32 u)) := by
  have hu := readAs_src v lu
  have ha0 := readAs_src v (lp 0)
  have hb0 := readAs_src v (lq 0)
  have ha1 := readAs_src v (lp 1)
  have hb1 := readAs_src v (lq 1)
  by_cases nan : DotNaN F p q u
  · exact dot2_nan hu ha0 hb0 ha1 hb1 hF lp lq nan
  by_cases bad : DotBad v F p q
  · exact dot2_bad hu ha0 hb0 ha1 hb1 lp lq nan bad
  obtain ⟨x, y, eq, hx, hy⟩ := dot2_eq_sum hu ha0 hb0 ha1 hb1 lp lq nan bad
  have hc := hu.valued (not_or.1 nan).1
  obtain ⟨minus, plus⟩ := inf_mem_iff hc hx hy
  rw [eq]
  by_cases neg : DotInf F p q u True
  · by_cases pos : DotInf F p q u False
    · rw [sum_opposite _ v (minus.2 neg) (plus.2 pos)]
      exact dotBy_invalid nan ⟨neg, pos⟩
    · rw [sum_infinite _ v (s := true) (minus.2 neg) (plus.not.2 pos)]
      exact dotBy_infinite nan bad (by simpa using neg) (by simpa using pos)
  · by_cases pos : DotInf F p q u False
    · rw [sum_infinite _ v (s := false) (plus.2 pos) (minus.not.2 neg)]
      exact dotBy_infinite nan bad (by simpa using pos) (by simpa using neg)
    · exact dotBy_finite nan bad hc hx hy least most neg pos (dotFinite_of_not_inf nan neg pos lp lq lu)

end Sys2Proof.Machine
end

section
/-! PROOFS. The conversions and VDOT2 as instructions (R91 to R93). -/

namespace Sys2Proof.Machine

open Sys2Proof.Claim

/-- R93: VDOT2 in one lane. -/
theorem dot2Lane_dotBy {v : FEnv} (least : 1 ≤ v.rm) (most : v.rm ≤ 5) (t : Ty) (a b c : Word) :
    ∃ r, DotBy v (fmtOf t) (encAt t a) (encAt t b) c.toNat r ∧ (dot2Lane v t a b c).1.toNat = r.1 ∧ (dot2Lane v t a b c).2 = r.2 := by
  have h := dot2_dotBy least most (usual_fmtOf t) (encAt_lt t a) (encAt_lt t b) c.isLt
  refine ⟨_, h, ?_, ?_⟩
  · simp only [dot2Lane, fElem_eq_encAt]
    exact toNat_ofNat_of_usual usual_fp32 h.lt
  · simp only [dot2Lane, fElem_eq_encAt]

/-- R91 to R93. -/
theorem convertValues : Claim.ConvertValues := by
  intro s k w fr hi h r td ts t e d a b c v A B
  refine ⟨fun hs hd => ?intInt, fun hs hd => ?floatInt, fun least most hs hd => ?intFloat, fun least most hs hd => ?floatFloat,
    fun least most => ?pack, fun least most => ?unpack, fun least most => ?dot⟩
  case intInt => exact laneOp_leaves hi (fun l => (cvt_saturates v (A l) hs hd).1) fun l => (cvt_saturates v (A l) hs hd).2
  case floatInt =>
    intro F x
    refine laneOp_leaves hi (fun l => ?_) fun l i => ?_
    · obtain ⟨n, fl, number, value, ext, -⟩ := cvt_rounds_to_int v (A l) hs hd
      exact ⟨fun nan => value.trans (number.nan nan), fun inf => value.trans (number.inf inf), fun fin n' h' => value.trans (number.fin fin n' h'), ext⟩
    · obtain ⟨n, fl, number, -, -, flags⟩ := cvt_rounds_to_int v (A l) hs hd
      rw [← number.flags i, ← flags]
      rfl
  case intFloat => exact laneOp_leaves hi (fun l => (cvt_rounds_int (A l) least most hs hd).1) fun l => (cvt_rounds_int (A l) least most hs hd).2
  case floatFloat => exact laneOp_leaves hi (fun l => (cvt_converts (A l) least most hs hd).1) fun l => (cvt_converts (A l) least most hs hd).2
  case pack => exact laneOp_leaves hi (fun l => (pack2_converts (A l) least most t (B l)).1) fun l => (pack2_converts (A l) least most t (B l)).2
  case unpack => exact laneOp_leaves hi (fun l => (unpack_converts (A l) least most t e).1) fun l => (unpack_converts (A l) least most t e).2
  case dot =>
    intro F p q u nan signalling zeroInf bad neg infs sum finite minus
    refine laneOp_leaves hi (fun l => ?_) fun l i => ?_
    · obtain ⟨r', h', value, -⟩ := dot2Lane_dotBy least most t (A l) (B l) (inC s w c l)
      have word (n : Nat) (x : Word) (hx : x.toNat = n) (hr : r'.1 = n) : (dot2Lane v t (A l) (B l) (inC s w c l)).1 = x :=
        BitVec.eq_of_toNat_eq (value.trans (hr.trans hx.symm))
      refine ⟨fun h1 h2 => value.trans (h'.canonical h1 h2), fun h1 h2 => value.trans (h'.invalid h1 h2),
        fun h1 h2 h3 h4 => word _ _ rfl (h'.plus h1 h2 h3 h4),
        fun h1 h2 h3 h4 => word _ _ rfl (h'.minus h1 h2 h3 h4), fun fin => ?_⟩
      obtain ⟨rounds, zero⟩ := h'.sum fin
      exact ⟨value ▸ rounds, fun none_ => ⟨fun m => word _ _ rfl ((zero none_).1 m), fun m => word _ _ rfl ((zero none_).2 m)⟩⟩
    · obtain ⟨r', h', -, flags⟩ := dot2Lane_dotBy least most t (A l) (B l) (inC s w c l)
      exact (iff_of_eq (congrArg (fun x : Word => x.getLsbD i = true) flags)).trans (h'.flags i)

end Sys2Proof.Machine
end

section
/-! PROOFS. The elements of floating results (R83), their widths, and their values beside infinities. -/

namespace Sys2Proof.Machine

open Sys2Proof.Claim

/-! ### Elements of a result (R62, R83) -/

theorem width_of_isPair {t : Ty} (pair : t.isPair = true) : (fmtOf t).width = 16 := by
  revert pair
  cases t <;> decide

/-- An element of the elements put at their places. -/
theorem encAt_fPut (t : Ty) (g : Nat → Nat) (fits : fElems t = 1 ∨ ∀ e, g e < 2 ^ (fmtOf t).width) {e : Nat} (he : e < fElems t) :
    encAt t (fPut t ((List.range (fElems t)).map g)) e = g e % 2 ^ (fmtOf t).width := by
  have le : 2 ^ (fmtOf t).width ∣ 2 ^ 32 := Nat.pow_dvd_pow 2 (usual_fmtOf t).width_le
  rw [encAt, BitVec.extractLsb'_toNat, fPut, BitVec.toNat_ofNat]
  by_cases pair : t.isPair = true
  · have two : fElems t = 2 := if_pos pair
    have lt (e : Nat) : g e < 2 ^ 16 := width_of_isPair pair ▸ fits.resolve_left (by omega) e
    have sum : (((List.range (fElems t)).map g).zipIdx.map fun p => p.1 * 2 ^ ((fmtOf t).width * p.2)).sum = g 0 + g 1 * 2 ^ 16 := by
      rw [two, width_of_isPair pair]
      simp [List.range_succ]
    rw [sum, width_of_isPair pair, Nat.shiftRight_eq_div_pow]
    have lt0 := lt 0
    have lt1 := lt 1
    rw [two] at he
    interval_cases e
    · omega
    · omega
  · have one : fElems t = 1 := if_neg pair
    obtain rfl : e = 0 := by omega
    simp only [one, List.range_one, List.map_singleton, List.zipIdx_singleton, List.sum_singleton, Nat.mul_zero, pow_zero, Nat.mul_one, Nat.shiftRight_zero]
    exact Nat.mod_mod_of_dvd _ le

/-- Each element of a selected lane's result, with the flags that the wave has then, meets `R`. -/
def LeavesElements (s : State) (k : Nat) (w : Wave) (fr : Frag) (h : Hdr) (d : VOp) (t : Ty)
    (R : Nat → Nat → Nat → (Nat → Prop) → Prop) (out : Out) : Prop :=
  ∃ u w', out = .next u ∧ kfind u.waves k = some w' ∧
    ∀ l e, Picked s w fr h.g l → e < fElems t → R l e (encAt t (w'.vraw (VOp.field d) l) e) fun i => w'.flagsAll.getLsbD i = true

/-- R83: the elements and the flags that a floating instruction leaves. -/
theorem laneOp_elements {s : State} {k : Nat} {w : Wave} {fr : Frag} (hi : Issues s k w fr) {h : Hdr} {len : Nat} {d : VOp} {t : Ty}
    (v : Wave → FEnv) (f : Fmt → FEnv → FVal → FVal → FVal → Nat × Word) (x y z : Wave → Nat → Word)
    {R : Nat → Nat → Nat → (Nat → Prop) → Prop}
    (fits : fElems t = 1 ∨ ∀ l e, (f (fmtOf t) (v w) (srcAt (v w) t (x w l) e) (srcAt (v w) t (y w l) e) (srcAt (v w) t (z w l) e)).1 < 2 ^ (fmtOf t).width)
    (each : ∀ l e, ∀ flag : Nat → Prop,
      (∀ i, (f (fmtOf t) (v w) (srcAt (v w) t (x w l) e) (srcAt (v w) t (y w l) e) (srcAt (v w) t (z w l) e)).2.getLsbD i = true → flag i) →
      R l e ((f (fmtOf t) (v w) (srcAt (v w) t (x w l) e) (srcAt (v w) t (y w l) e) (srcAt (v w) t (z w l) e)).1 % 2 ^ (fmtOf t).width) flag) :
    LeavesElements s k w fr h d t R (laneOp s h len d fun w l => fWise (v w) t f (x w l) (y w l) (z w l)) := by
  obtain ⟨u, step, w', ⟨only, -⟩, written, -, ⟨-, -, all⟩, -⟩ := laneOp_fWise hi (h := h) (len := len) (d := d) (t := t) v f x y z
  refine ⟨u, w', step, by rw [only]; exact kfind_kinsert_self _ _ _, fun l e hl he => ?_⟩
  rw [written l hl, encAt_fPut t _ (fits.imp_right fun h => h l) he]
  exact each l e _ fun i hi => (all i).2 (.inr ⟨l, hl, e, he, hi⟩)

/-! ### Widths -/

section
variable {f : Fmt} (hf : f.Usual)
include hf

theorem round_lt (rm : Nat) (flush csat neg : Bool) (m : Nat) (e : Int) : (f.round rm flush csat neg m e false).1 < 2 ^ f.width := by
  obtain ⟨t, c, up, tiny, -, eq⟩ := round_cases hf rm neg m e
  rw [eq, roundedTo_fst]
  refine encode_lt f neg ?_
  split
  · exact Nat.two_pow_pos _
  · exact saturated_lt ..

theorem qnan_lt : f.qnan < 2 ^ f.width := nanOut_lt hf false (l := []) (by simp)

omit hf in
theorem inf_lt (f : Fmt) (neg : Bool) : f.inf neg < 2 ^ f.width := by
  rw [inf_eq]
  exact encode_lt f neg f.limit_lt

theorem roundSum_lt (v : FEnv) (l : List (Bool × Nat × Int)) : (f.roundSum v l).1 < 2 ^ f.width := by
  rw [Fmt.roundSum]
  split
  split
  · rw [pack_eq]
    exact encode_lt f _ (by simp)
  · exact round_lt hf ..

theorem sum_lt (v : FEnv) (l : List FVal) : (f.sum v l).1 < 2 ^ f.width := by
  rw [sum_eq]
  split
  · exact qnan_lt hf
  · cases (l.filterMap infSign).head? with
    | none => exact roundSum_lt hf v _
    | some s => exact inf_lt f s

end

section
variable {v : FEnv} {f : Fmt} (hf : f.Usual) {x y z : Nat} {a b c : FVal} (ha : ReadAs v f x a) (hb : ReadAs v f y b) (hc : ReadAs v f z c)
include hf ha

theorem nanOut_one_lt : f.nanOut v.nanm [a] < 2 ^ f.width :=
  nanOut_lt hf _ fun s m mb h => by
    obtain rfl := List.mem_singleton.1 h
    exact ha.fits hf

theorem rint_lt (exactly : Bool) : (f.rint v exactly a).1 < 2 ^ f.width := by
  unfold Fmt.rint Fmt.nanCase
  by_cases nan : [a].any FVal.isNan = true
  · rw [if_pos nan]
    exact nanOut_one_lt hf ha
  · rw [if_neg nan]
    cases ha with
    | nan => exact absurd rfl nan
    | inf => exact inf_lt f _
    | fin h m e value small =>
      simp only
      split
      · exact round_lt hf ..
      · exact round_lt hf ..

include hb

theorem nanOut_two_lt : f.nanOut v.nanm [a, b] < 2 ^ f.width :=
  nanOut_lt hf _ fun s m mb h => by
    simp only [List.mem_cons, List.not_mem_nil, or_false] at h
    rcases h with rfl | rfl
    · exact ha.fits hf
    · exact hb.fits hf

theorem add_lt : (f.add v a b).1 < 2 ^ f.width := by
  unfold Fmt.add Fmt.nanCase
  split
  · exact nanOut_two_lt hf ha hb
  · exact sum_lt hf v _

theorem sub_lt : (f.sub v a b).1 < 2 ^ f.width := by
  unfold Fmt.sub Fmt.nanCase
  split
  · exact nanOut_two_lt hf ha hb
  · exact sum_lt hf v _

theorem mul_lt : (f.mul v a b).1 < 2 ^ f.width := by
  unfold Fmt.mul Fmt.nanCase
  by_cases nan : [a, b].any FVal.isNan = true
  · rw [if_pos nan]
    exact nanOut_two_lt hf ha hb
  · rw [if_neg nan]
    rcases mulVal a b with _ | _ | s | ⟨s, m, e⟩
    · exact qnan_lt hf
    · exact inf_lt f _
    · exact inf_lt f _
    · exact round_lt hf ..

include hc

theorem fma_lt : (f.fma v a b c).1 < 2 ^ f.width := by
  unfold Fmt.fma Fmt.nanCase
  by_cases nan : [a, b, c].any FVal.isNan = true
  · rw [if_pos nan]
    refine nanOut_lt hf _ fun s m mb h => ?_
    simp only [List.mem_cons, List.not_mem_nil, or_false] at h
    rcases h with rfl | rfl | rfl
    · exact ha.fits hf
    · exact hb.fits hf
    · exact hc.fits hf
  · rw [if_neg nan]
    rcases mulVal a b with _ | p
    · exact qnan_lt hf
    · exact sum_lt hf v _

end

end Sys2Proof.Machine
end

section
/-! PROOFS. Floating results at infinities, zeros and integers (R83, R87). -/

namespace Sys2Proof.Machine

open Sys2Proof.Claim

/-! ### Infinities -/

theorem expOf_encode {f : Fmt} (neg : Bool) {t : Nat} (ht : t < 2 ^ (f.eb + f.mb)) : expOf f (f.encode neg t) = t / 2 ^ f.mb := by
  rw [expOf_eq, encode_mod f neg ht]

theorem isInf_inf (f : Fmt) (s : Bool) : isInf f (f.inf s) := by
  rw [inf_eq]
  refine ⟨?_, ?_⟩
  · rw [expOf_encode s f.limit_lt, Fmt.limit, Nat.mul_div_cancel _ (Nat.two_pow_pos _), Fmt.top]
  · rw [fracOf_eq, encode_mod f s f.limit_lt, Fmt.limit, Nat.mul_mod_left]

theorem isNeg_inf (f : Fmt) (s : Bool) : isNeg f (f.inf s) ↔ s = true := by
  rw [inf_eq]
  exact isNeg_encode f s f.limit_lt

/-- An infinity is that of its sign. -/
theorem inf_eq_of_isInf {f : Fmt} {y : Nat} (lt : y < 2 ^ f.width) (h : isInf f y) {s : Bool} (sign : s = true ↔ isNeg f y) : f.inf s = y := by
  have whole : y % 2 ^ (f.eb + f.mb) = f.limit := by
    rw [← Nat.div_add_mod' (y % 2 ^ (f.eb + f.mb)) (2 ^ f.mb), ← expOf_eq, ← fracOf_eq, h.1, h.2]
    rfl
  have same : s = decide (isNeg f y) := by rw [Bool.eq_iff_iff, sign, decide_eq_true_iff]
  rw [inf_eq, same]
  conv_rhs => rw [eq_encode lt, whole]

/-- The NaN result with NV. -/
theorem invalid_flag (f : Fmt) : f.invalid.1 = canonicalNaN f ∧ f.invalid.2.getLsbD 0 = true := ⟨qnan_eq f, by simp [Fmt.invalid, getLsbD_fNV]⟩

theorem canonical_mod {f : Fmt} (hf : f.Usual) : canonicalNaN f % 2 ^ f.width = canonicalNaN f := by
  rw [← qnan_eq]
  exact Nat.mod_eq_of_lt (qnan_lt hf)

theorem inf_mod (f : Fmt) (s : Bool) : f.inf s % 2 ^ f.width = f.inf s := Nat.mod_eq_of_lt (inf_lt f s)

/-! ### Sums of two values (R83) -/

section
variable {neg neg' infinite infinite' : Prop} {x x' : ℚ} {a b : FVal} (f : Fmt) (v : FEnv) (ha : Valued neg infinite x a) (hb : Valued neg' infinite' x' b)
include ha hb

theorem inf_mem_pair_iff (s : Bool) : FVal.inf s ∈ [a, b] ↔ (infinite ∧ (neg ↔ s = true)) ∨ (infinite' ∧ (neg' ↔ s = true)) := by
  simp only [List.mem_cons, List.not_mem_nil, or_false, ha.eq_inf_iff, hb.eq_inf_iff]

theorem sum_pair_opposite (i : infinite) (i' : infinite') (opposite : ¬(neg ↔ neg')) : f.sum v [a, b] = f.invalid := by
  refine sum_opposite f v ((inf_mem_pair_iff ha hb true).2 ?_) ((inf_mem_pair_iff ha hb false).2 ?_) <;> by_cases h : neg <;> by_cases h' : neg' <;> simp_all

theorem sum_pair_left (i : infinite) (other : ¬(infinite' ∧ ¬(neg ↔ neg'))) : ∃ s, (s = true ↔ neg) ∧ f.sum v [a, b] = (f.inf s, 0) := by
  obtain ⟨s, rfl⟩ : ∃ s, FVal.inf s = a := by
    cases ha with
    | inf s => exact ⟨s, rfl⟩
    | fin s m e bounded => exact absurd i bounded
  obtain ⟨-, sign⟩ := (ha.eq_inf_iff s).1 rfl
  refine ⟨s, sign.symm, sum_infinite f v (s := s) (by simp) fun h => ?_⟩
  rcases (inf_mem_pair_iff ha hb _).1 h with ⟨-, h⟩ | ⟨i', h⟩
  · rw [sign] at h
    cases s <;> simp at h
  · refine other ⟨i', fun same => ?_⟩
    rw [← same, sign] at h
    cases s <;> simp at h

theorem sum_pair_right (i : ¬infinite) (i' : infinite') : ∃ s, (s = true ↔ neg') ∧ f.sum v [a, b] = (f.inf s, 0) := by
  obtain ⟨s, rfl⟩ : ∃ s, FVal.inf s = b := by
    cases hb with
    | inf s => exact ⟨s, rfl⟩
    | fin s m e bounded => exact absurd i' bounded
  obtain ⟨-, sign⟩ := (hb.eq_inf_iff s).1 rfl
  refine ⟨s, sign.symm, sum_infinite f v (s := s) (by simp) fun h => ?_⟩
  rcases (inf_mem_pair_iff ha hb _).1 h with ⟨h, -⟩ | ⟨-, h⟩
  · exact i h
  · rw [sign] at h
    cases s <;> simp at h

end

/-! ### What R83 says beside infinities -/

/-- The infinity of a sign, and the canonical NaN with NV. -/
def InfOf (f : Fmt) (neg : Prop) (o : Nat) : Prop := isInf f o ∧ (isNeg f o ↔ neg)
def BadOf (f : Fmt) (o : Nat) (flag : Nat → Prop) : Prop := o = canonicalNaN f ∧ flag 0

theorem infOf_inf (f : Fmt) {s : Bool} {neg : Prop} (sign : s = true ↔ neg) : InfOf f neg (f.inf s % 2 ^ f.width) := by
  rw [inf_mod]
  exact ⟨isInf_inf f s, (isNeg_inf f s).trans sign⟩

theorem badOf_invalid {f : Fmt} (hf : f.Usual) {flag : Nat → Prop} (raised : ∀ i, f.invalid.2.getLsbD i = true → flag i) :
    BadOf f (f.invalid.1 % 2 ^ f.width) flag := by
  obtain ⟨result, nv⟩ := invalid_flag f
  rw [result, canonical_mod hf]
  exact ⟨rfl, raised 0 nv⟩

/-- A sum of two values beside infinities. -/
structure SumEdge (f : Fmt) (neg neg' infinite infinite' : Prop) (o : Nat) (flag : Nat → Prop) : Prop where
  opposite : infinite → infinite' → ¬(neg ↔ neg') → BadOf f o flag
  left : infinite → ¬(infinite' ∧ ¬(neg ↔ neg')) → InfOf f neg o
  right : ¬infinite → infinite' → InfOf f neg' o

theorem sum_sumEdge {neg neg' infinite infinite' : Prop} {x x' : ℚ} {a b : FVal} {f : Fmt} (hf : f.Usual) (v : FEnv) (ha : Valued neg infinite x a)
    (hb : Valued neg' infinite' x' b) {flag : Nat → Prop} (raised : ∀ i, (f.sum v [a, b]).2.getLsbD i = true → flag i) :
    SumEdge f neg neg' infinite infinite' ((f.sum v [a, b]).1 % 2 ^ f.width) flag := by
  refine ⟨fun i i' opp => ?_, fun i other => ?_, fun i i' => ?_⟩
  · rw [sum_pair_opposite f v ha hb i i' opp] at raised ⊢
    exact badOf_invalid hf raised
  · obtain ⟨s, sign, eq⟩ := sum_pair_left f v ha hb i other
    rw [eq]
    exact infOf_inf f sign
  · obtain ⟨s, sign, eq⟩ := sum_pair_right f v ha hb i i'
    rw [eq]
    exact infOf_inf f sign

/-- An infinity of an encoding's sign is that encoding. -/
theorem InfOf.eq {f : Fmt} {o y : Nat} (h : InfOf f (isNeg f y) o) (lo : o < 2 ^ f.width) (ly : y < 2 ^ f.width) (inf : isInf f y) : o = y := by
  have s : decide (isNeg f y) = true ↔ isNeg f y := decide_eq_true_iff
  rw [← inf_eq_of_isInf lo h.1 (s.trans h.2.symm), inf_eq_of_isInf ly inf s]

/-! ### The operations (R83) -/

section
variable {v : FEnv} {f : Fmt} (hf : f.Usual) {x y z : Nat} {a b c : FVal} (lx : x < 2 ^ f.width) (ly : y < 2 ^ f.width) (lz : z < 2 ^ f.width)
  (ha : ReadAs v f x a) (hb : ReadAs v f y b) (hc : ReadAs v f z c) {flag : Nat → Prop}

include ha hb in
theorem not_any_isNan_pair (nx : ¬isNaN f x) (ny : ¬isNaN f y) : ¬[a, b].any FVal.isNan = true := by
  simp [ha.isNan_iff, hb.isNan_iff, nx, ny]

include hf ha hb

theorem add_edge (nx : ¬isNaN f x) (ny : ¬isNaN f y) (raised : ∀ i, (f.add v a b).2.getLsbD i = true → flag i) :
    SumEdge f (isNeg f x) (isNeg f y) (isInf f x) (isInf f y) ((f.add v a b).1 % 2 ^ f.width) flag := by
  have eq : f.add v a b = f.sum v [a, b] := by rw [Fmt.add, Fmt.nanCase, if_neg (not_any_isNan_pair ha hb nx ny)]; rfl
  rw [eq] at raised ⊢
  exact sum_sumEdge hf v (ha.valued nx) (hb.valued ny) raised

theorem sub_edge (nx : ¬isNaN f x) (ny : ¬isNaN f y) (raised : ∀ i, (f.sub v a b).2.getLsbD i = true → flag i) :
    SumEdge f (isNeg f x) (¬isNeg f y) (isInf f x) (isInf f y) ((f.sub v a b).1 % 2 ^ f.width) flag := by
  have eq : f.sub v a b = f.sum v [a, b.neg] := by rw [Fmt.sub, Fmt.nanCase, if_neg (not_any_isNan_pair ha hb nx ny)]; rfl
  rw [eq] at raised ⊢
  exact sum_sumEdge hf v (ha.valued nx) (hb.valued ny).opposite raised

include lx ly

theorem mul_edge (nx : ¬isNaN f x) (ny : ¬isNaN f y) (raised : ∀ i, (f.mul v a b).2.getLsbD i = true → flag i) :
    (ZeroInf v f x y ∨ ZeroInf v f y x → BadOf f ((f.mul v a b).1 % 2 ^ f.width) flag) ∧
      (¬(ZeroInf v f x y ∨ ZeroInf v f y x) → isInf f x ∨ isInf f y → InfOf f (¬(isNeg f x ↔ isNeg f y)) ((f.mul v a b).1 % 2 ^ f.width)) := by
  obtain ⟨wrong, valid⟩ := mulVal_readAs lx ly ha hb nx ny
  have step := not_any_isNan_pair ha hb nx ny
  refine ⟨fun zero => ?_, fun number big => ?_⟩
  · have eq : f.mul v a b = f.invalid := by rw [Fmt.mul, Fmt.nanCase, if_neg step, wrong zero]
    rw [eq] at raised ⊢
    exact badOf_invalid hf raised
  · obtain ⟨p, hp, value⟩ := valid number
    have sign := value.sign_iff
    have eq : f.mul v a b = (f.inf p.sign, 0) := by
      rw [Fmt.mul, Fmt.nanCase, if_neg step, hp]
      cases value with
      | inf s => rfl
      | fin s m e bounded => exact absurd big bounded
    rw [eq]
    exact infOf_inf f sign

/-- R83: a zero times an infinity raises NV beside any addend. -/
theorem fma_wrong (wrong : ZeroInf v f x y ∨ ZeroInf v f y x) (raised : ∀ i, (f.fma v a b c).2.getLsbD i = true → flag i) :
    flag 0 ∧ (c.isNan = false → (f.fma v a b c).1 % 2 ^ f.width = canonicalNaN f) := by
  have bad := (isNone_mulVal_iff lx ly ha hb).2 wrong
  have numbers : a.isNan = false ∧ b.isNan = false := by simpa [and_assoc] using And.intro (Bool.and_eq_true_iff.1 bad).1 trivial
  have none_ : mulVal a b = none := by simpa using (Bool.and_eq_true_iff.1 bad).2
  by_cases nan : c.isNan = true
  · have any : [a, b, c].any FVal.isNan = true := by simp [nan]
    have eq : f.fma v a b c = (f.nanOut v.nanm [a, b, c], snanFlag [a, b, c] ||| flagIf true fNV) := by
      rw [Fmt.fma, Fmt.nanCase, if_pos any, bad]
    refine ⟨raised 0 ?_, fun number => absurd nan (by simp [number])⟩
    rw [eq]
    simp [getLsbD_flagIf, getLsbD_fNV]
  · have any : ¬[a, b, c].any FVal.isNan = true := by simp [nan, numbers]
    have eq : f.fma v a b c = f.invalid := by
      rw [Fmt.fma, Fmt.nanCase, if_neg any, none_]
    rw [eq] at raised ⊢
    obtain ⟨result, nv⟩ := badOf_invalid hf raised
    exact ⟨nv, fun _ => result⟩

include hc

theorem fma_edge (nx : ¬isNaN f x) (ny : ¬isNaN f y) (nz : ¬isNaN f z) (valid : ¬(ZeroInf v f x y ∨ ZeroInf v f y x))
    (raised : ∀ i, (f.fma v a b c).2.getLsbD i = true → flag i) :
    SumEdge f (¬(isNeg f x ↔ isNeg f y)) (isNeg f z) (isInf f x ∨ isInf f y) (isInf f z) ((f.fma v a b c).1 % 2 ^ f.width) flag := by
  obtain ⟨p, hp, value⟩ := (mulVal_readAs lx ly ha hb nx ny).2 valid
  have any : ¬[a, b, c].any FVal.isNan = true := by simp [ha.isNan_iff, hb.isNan_iff, hc.isNan_iff, nx, ny, nz]
  have eq : f.fma v a b c = f.sum v [p, c] := by
    rw [Fmt.fma, Fmt.nanCase, if_neg any, hp]
  rw [eq] at raised ⊢
  exact sum_sumEdge hf v value (hc.valued nz) raised

end

end Sys2Proof.Machine
end

section
/-! PROOFS. Quotients and roots beside infinities and zeros, and rounding to an integral value (R83, R87). -/

namespace Sys2Proof.Machine

open Sys2Proof.Claim

/-! ### Zeros -/

/-- The zero of a sign, and an encoding that Src reads as zero. -/
def ZeroOf (f : Fmt) (neg : Prop) (y : Nat) : Prop := (neg → y = 2 ^ (f.eb + f.mb)) ∧ (¬neg → y = 0)
def ReadsZero (v : FEnv) (f : Fmt) (y : Nat) : Prop := isFin f y ∧ readOf v f y = 0

theorem zeroOf_pack (f : Fmt) {s : Bool} {neg : Prop} (sign : s = true ↔ neg) : ZeroOf f neg (f.pack s 0 0 % 2 ^ f.width) := by
  have lt : f.pack s 0 0 < 2 ^ f.width := by
    rw [pack_eq]
    exact encode_lt f s (by simp)
  rw [Nat.mod_eq_of_lt lt]
  cases s
  · have pos : ¬neg := by simpa using sign
    simp [ZeroOf, pos, Fmt.pack, sbit]
  · have minus : neg := by simpa using sign
    simp [ZeroOf, minus, Fmt.pack, sbit]

section
variable {v : FEnv} {f : Fmt} (hf : f.Usual) {x y : Nat} {a b : FVal} (ha : ReadAs v f x a) (hb : ReadAs v f y b) {flag : Nat → Prop}
include hf ha

/-! ### Square roots (R83) -/

/-- A root of a negative number is invalid, of a zero that zero, of +∞ itself. -/
theorem sqrt_edge (number : ¬isNaN f x) (raised : ∀ i, (f.sqrt v a).2.getLsbD i = true → flag i) :
    (isNeg f x → ¬ReadsZero v f x → BadOf f ((f.sqrt v a).1 % 2 ^ f.width) flag) ∧
      (ReadsZero v f x → ZeroOf f (isNeg f x) ((f.sqrt v a).1 % 2 ^ f.width)) ∧
      (isInf f x → ¬isNeg f x → InfOf f (isNeg f x) ((f.sqrt v a).1 % 2 ^ f.width)) := by
  cases ha with
  | nan h => exact absurd h number
  | inf h =>
    have eq : f.sqrt v (.inf (decide (isNeg f x))) = if decide (isNeg f x) then f.invalid else (f.inf false, 0) := rfl
    rw [eq] at raised ⊢
    refine ⟨fun neg _ => ?_, fun zero => absurd h (not_isInf_of_isFin zero.1), fun _ pos => ?_⟩
    · rw [decide_eq_true neg, if_pos rfl] at raised ⊢
      exact badOf_invalid hf raised
    · rw [decide_eq_false pos, if_neg Bool.false_ne_true]
      exact infOf_inf f (by simp [pos])
  | fin h m e value =>
    have zero : ReadsZero v f x ↔ m = 0 := (and_iff_right h).trans (readOf_eq_zero_iff value)
    rw [zero]
    refine ⟨fun neg nonzero => ?_, fun none_ => ?_, fun inf => absurd inf (not_isInf_of_isFin h)⟩
    · have eq : f.sqrt v (.fin (decide (isNeg f x)) m e) = f.invalid := (if_neg nonzero).trans (if_pos (decide_eq_true neg))
      rw [eq] at raised ⊢
      exact badOf_invalid hf raised
    · have eq : f.sqrt v (.fin (decide (isNeg f x)) m e) = (f.pack (decide (isNeg f x)) 0 0, 0) := if_pos none_
      rw [eq]
      exact zeroOf_pack f decide_eq_true_iff

/-! ### Quotients (R83) -/

include hb

/-- R83: quotients with an infinity or a zero. -/
structure DivEdge (v : FEnv) (f : Fmt) (x y o : Nat) (flag : Nat → Prop) : Prop where
  invalid : (isInf f x ∧ isInf f y) ∨ (ReadsZero v f x ∧ ReadsZero v f y) → BadOf f o flag
  large : isInf f x → ¬isInf f y → InfOf f (¬(isNeg f x ↔ isNeg f y)) o
  small : ¬isInf f x → isInf f y → ZeroOf f (¬(isNeg f x ↔ isNeg f y)) o
  byZero : isFin f x → ¬ReadsZero v f x → ReadsZero v f y → InfOf f (¬(isNeg f x ↔ isNeg f y)) o ∧ flag 1

theorem div_edge (nx : ¬isNaN f x) (ny : ¬isNaN f y) (raised : ∀ i, (f.div v a b).2.getLsbD i = true → flag i) :
    DivEdge v f x y ((f.div v a b).1 % 2 ^ f.width) flag := by
  have sign : (decide (isNeg f x) != decide (isNeg f y)) = true ↔ ¬(isNeg f x ↔ isNeg f y) := by simp
  cases ha with
  | nan h => exact absurd h nx
  | inf h =>
    have notZero : ¬ReadsZero v f x := fun zero => not_isInf_of_isFin zero.1 h
    have notFin := not_isFin_of_isInf h
    cases hb with
    | nan h' => exact absurd h' ny
    | inf h' =>
      refine ⟨fun _ => badOf_invalid hf raised, fun _ not => absurd h' not, fun not => absurd h not, fun fin => absurd fin notFin⟩
    | fin h' n g value' =>
      have not' := not_isInf_of_isFin h'
      exact ⟨fun bad => absurd bad (by simp only [not', notZero, and_false, false_and, or_self, not_false_iff]), fun _ _ => infOf_inf f sign,
        fun not => absurd h not, fun fin => absurd fin notFin⟩
  | fin h m e value =>
    have not := not_isInf_of_isFin h
    have zero : ReadsZero v f x ↔ m = 0 := (and_iff_right h).trans (readOf_eq_zero_iff value)
    cases hb with
    | nan h' => exact absurd h' ny
    | inf h' =>
      have notZero' : ¬ReadsZero v f y := fun zero => not_isInf_of_isFin zero.1 h'
      exact ⟨fun bad => absurd bad (by simp only [not, notZero', and_false, false_and, or_self, not_false_iff]), fun inf => absurd inf not,
        fun _ _ => zeroOf_pack f sign, fun _ _ zero' => absurd zero' notZero'⟩
    | fin h' n g value' =>
      have not' := not_isInf_of_isFin h'
      have zero' : ReadsZero v f y ↔ n = 0 := (and_iff_right h').trans (readOf_eq_zero_iff value')
      refine ⟨fun bad => ?_, fun inf => absurd inf not, fun _ inf => absurd inf not', fun _ nonzero none_ => ?_⟩
      · obtain ⟨none_, none'⟩ := bad.resolve_left fun h => not h.1
        have eq : f.div v (.fin (decide (isNeg f x)) m e) (.fin (decide (isNeg f y)) n g) = f.invalid :=
          (if_pos (zero'.1 none')).trans (if_pos (zero.1 none_))
        rw [eq] at raised ⊢
        exact badOf_invalid hf raised
      · have eq : f.div v (.fin (decide (isNeg f x)) m e) (.fin (decide (isNeg f y)) n g) = (f.inf (decide (isNeg f x) != decide (isNeg f y)), fDZ) :=
          (if_pos (zero'.1 none_)).trans (if_neg (zero.not.1 nonzero))
        rw [eq] at raised ⊢
        exact ⟨infOf_inf f sign, raised 1 (by simp [getLsbD_fDZ])⟩

end

/-! ### Integral values (R87) -/

/-- The magnitude of a small integer. -/
theorem exists_mag_natCast {f : Fmt} (hf : f.Usual) {q : Nat} (le : q ≤ 2 ^ f.mb) : ∃ T, T < f.limit ∧ mag ℚ f T = q := by
  by_cases zero : q = 0
  · exact ⟨0, hf.limit_pos, by simp [zero]⟩
  have bias := hf.bias_pos
  have small := hf.mb_le_bias
  let k := Nat.log2 q
  have low : 2 ^ k ≤ q := Nat.log2_self_le zero
  have high : q < 2 ^ (k + 1) := Nat.lt_log2_self
  have hk : k ≤ f.mb := (Nat.pow_le_pow_iff_right (by decide : 1 < 2)).1 (low.trans le)
  obtain ⟨d, hd⟩ := Nat.exists_eq_add_of_le hk
  have lower : 2 ^ f.mb ≤ q * 2 ^ d := by
    rw [hd, pow_add]
    exact Nat.mul_le_mul_right _ low
  have upper : q * 2 ^ d < 2 ^ (f.mb + 1) := by
    rw [hd, Nat.add_right_comm, pow_add]
    exact Nat.mul_lt_mul_of_pos_right high (Nat.two_pow_pos _)
  refine ⟨q * 2 ^ d + (f.bias + k - 1) * 2 ^ f.mb, ?_, ?_⟩
  · have most : f.bias + k - 1 + 2 ≤ f.top := by rw [hf.top_eq]; omega
    calc q * 2 ^ d + (f.bias + k - 1) * 2 ^ f.mb < 2 ^ (f.mb + 1) + (f.bias + k - 1) * 2 ^ f.mb := Nat.add_lt_add_right upper _
      _ = (f.bias + k - 1 + 2) * 2 ^ f.mb := by ring
      _ ≤ f.limit := Nat.mul_le_mul_right _ most
  · rw [mag_place ℚ f upper (.inr lower)]
    have exp : ((f.bias + k - 1 : Nat) : Int) + f.unit = -(d : Int) := by
      simp only [Fmt.unit, Fmt.emin]
      omega
    rw [exp, zpow_neg, zpow_natCast]
    push_cast
    field_simp

/-- The integer of a number below 2^(mb + 1) with a fraction. -/
theorem roundAt_le {mb m : Nat} {e : Int} (rm : Nat) (neg : Bool) (small : m < 2 ^ (mb + 1)) (frac : e < 0) : (roundAt rm neg m e 0 false).1 ≤ 2 ^ mb := by
  have floor : (shiftTo m e 0 false).1 < 2 ^ mb := by
    obtain ⟨k, hk⟩ := Int.eq_succ_of_zero_lt (Int.neg_pos.2 frac)
    have toNat : (0 - e).toNat = k + 1 := by omega
    rw [shiftTo, if_neg (not_le.2 frac)]
    simp only [toNat]
    rw [Nat.div_lt_iff_lt_mul (Nat.two_pow_pos _)]
    refine small.trans_le ?_
    rw [pow_succ, pow_succ, ← mul_assoc]
    exact Nat.mul_le_mul_right 2 (Nat.le_mul_of_pos_right _ (Nat.two_pow_pos _))
  have step : (roundAt rm neg m e 0 false).1 =
      if roundUp rm neg (shiftTo m e 0 false).1 (shiftTo m e 0 false).2 then (shiftTo m e 0 false).1 + 1 else (shiftTo m e 0 false).1 := rfl
  rw [step]
  split <;> omega

/-- R87: an integral value. -/
structure RintEdge (v : FEnv) (f : Fmt) (exactly : Bool) (x o : Nat) (flag : Nat → Prop) : Prop where
  fin : isFin f o
  sign : isNeg f o ↔ isNeg f x
  value : ∀ n, IntOf v.rm (readOf v f x) n → finOf f o = n ∧ (exactly = true → (n : ℚ) ≠ readOf v f x → flag 4)

theorem rintEdge_encode {v : FEnv} {f : Fmt} {exactly : Bool} {x T : Nat} {flag : Nat → Prop} (lt : T < f.limit) {n : Int}
    (int : IntOf v.rm (readOf v f x) n) (number : signedBy (decide (isNeg f x)) (mag ℚ f T) = n)
    (inexact : exactly = true → (n : ℚ) ≠ readOf v f x → flag 4) : RintEdge v f exactly x (f.encode (decide (isNeg f x)) T % 2 ^ f.width) flag := by
  have lt' := lt.trans f.limit_lt
  rw [Nat.mod_eq_of_lt (encode_lt f _ lt')]
  refine ⟨(isFin_encode _ lt').2 lt, (isNeg_encode f _ lt').trans decide_eq_true_iff, fun n' h => ?_⟩
  rw [← intOf_unique int h, finOf_encode f _ lt', number]
  exact ⟨rfl, inexact⟩

theorem rint_edge {v : FEnv} {f : Fmt} (hf : f.Usual) {x : Nat} {a : FVal} (ha : ReadAs v f x a) (exactly : Bool) {flag : Nat → Prop} (number : ¬isNaN f x)
    (raised : ∀ i, (f.rint v exactly a).2.getLsbD i = true → flag i) :
    (isInf f x → InfOf f (isNeg f x) ((f.rint v exactly a).1 % 2 ^ f.width)) ∧
      (isFin f x → RintEdge v f exactly x ((f.rint v exactly a).1 % 2 ^ f.width) flag) := by
  cases ha with
  | nan h => exact absurd h number
  | inf h => exact ⟨fun _ => infOf_inf f decide_eq_true_iff, fun fin => absurd h (not_isInf_of_isFin fin)⟩
  | fin h m e value small =>
    refine ⟨fun inf => absurd inf (not_isInf_of_isFin h), fun _ => ?_⟩
    obtain ⟨int, inexact⟩ := intOf_roundAt v.rm (decide (isNeg f x)) m e
    have read := readOf_of_value value
    rw [← read] at int inexact
    by_cases whole : 0 ≤ e
    · have eq : f.rint v exactly (.fin (decide (isNeg f x)) m e) = ((f.round 1 false false (decide (isNeg f x)) m e false).1, 0) := if_pos whole
      rw [round_mag hf 1 false _ (seenMag_lt hf v h) value] at eq
      rw [eq]
      obtain ⟨d, rfl⟩ := Int.eq_ofNat_of_zero_le whole
      have integer : signedBy (decide (isNeg f x)) (mag ℚ f (seenMag v f x)) = ((signedBy (decide (isNeg f x)) ((m * 2 ^ d : Nat) : Int) : Int) : ℚ) := by
        rw [← value]
        cases decide (isNeg f x) <;> simp
      have read' : readOf v f x = ((signedBy (decide (isNeg f x)) ((m * 2 ^ d : Nat) : Int) : Int) : ℚ) := by rw [read, value, integer]
      refine rintEdge_encode (seenMag_lt hf v h) (read' ▸ intOf_self v.rm _) integer fun _ ne => absurd read'.symm ne
    · obtain ⟨T, lt, hT⟩ := exists_mag_natCast hf (roundAt_le v.rm (decide (isNeg f x)) small (not_le.1 whole))
      have eq : f.rint v exactly (.fin (decide (isNeg f x)) m e) =
          ((f.round 1 false false (decide (isNeg f x)) (roundAt v.rm (decide (isNeg f x)) m e 0 false).1 0 false).1,
            flagIf (exactly && (roundAt v.rm (decide (isNeg f x)) m e 0 false).2) fNX) := if_neg whole
      rw [round_mag hf 1 false _ lt (by rw [zpow_zero, mul_one, hT])] at eq
      rw [eq] at raised ⊢
      refine rintEdge_encode lt int ?_ fun hx ne => raised 4 ?_
      · rw [hT]
        cases decide (isNeg f x) <;> simp
      · simp [getLsbD_flagIf, getLsbD_fNX, hx, inexact.2 ne]

end Sys2Proof.Machine
end

section
/-! PROOFS. Floating arithmetic beside infinities, zeros and integers, as instructions (R83, R87). -/

namespace Sys2Proof.Machine

open Sys2Proof.Claim

section
variable {s : State} {k : Nat} {w : Wave} {fr : Frag} (hi : Issues s k w fr) (h : Hdr) (r : Rnd) (t : Ty) (d a b c : VOp)
include hi

theorem vfrint_leaves (x : Bool) :
    LeavesElements s k w fr h d t
      (fun l e o flag => ¬isNaN (fmtOf t) (encAt t (inA s w a l) e) →
        (isInf (fmtOf t) (encAt t (inA s w a l) e) → InfOf (fmtOf t) (isNeg (fmtOf t) (encAt t (inA s w a l) e)) o) ∧
          (isFin (fmtOf t) (encAt t (inA s w a l) e) → RintEdge (envOf w r) (fmtOf t) x (encAt t (inA s w a l) e) o flag))
      (exec (.vfrint h r t x d a) s) :=
  laneOp_elements hi (fun w => fenv w r) (fun f v y _ _ => f.rint v x y) (fun w => opA s w a) (fun _ _ => 0) (fun _ _ => 0)
    (.inr fun _ _ => rint_lt (usual_fmtOf t) (readAs_src _ (encAt_lt ..)) x)
    fun _ _ _ raised number => rint_edge (usual_fmtOf t) (readAs_src _ (encAt_lt ..)) x number raised

/-- A sum of an element of A and one of B, of which `neg` gives the sign, beside infinities. -/
def PairEdge (s : State) (w : Wave) (t : Ty) (a b : VOp) (neg : Nat → Prop) (l e o : Nat) (flag : Nat → Prop) : Prop :=
  ¬isNaN (fmtOf t) (encAt t (inA s w a l) e) → ¬isNaN (fmtOf t) (encAt t (inB s w b l) e) →
    SumEdge (fmtOf t) (isNeg (fmtOf t) (encAt t (inA s w a l) e)) (neg (encAt t (inB s w b l) e)) (isInf (fmtOf t) (encAt t (inA s w a l) e))
      (isInf (fmtOf t) (encAt t (inB s w b l) e)) o flag

theorem vfadd_leaves : LeavesElements s k w fr h d t (PairEdge s w t a b fun y => isNeg (fmtOf t) y) (exec (.vfadd h r t d a b) s) :=
  laneOp_elements hi (fun w => fenv w r) (fun f v x y _ => f.add v x y) (fun w => opA s w a) (fun w => opB s w b) (fun _ _ => 0)
    (.inr fun _ _ => add_lt (usual_fmtOf t) (readAs_src _ (encAt_lt ..)) (readAs_src _ (encAt_lt ..)))
    fun _ _ _ raised nx ny => add_edge (usual_fmtOf t) (readAs_src _ (encAt_lt ..)) (readAs_src _ (encAt_lt ..)) nx ny raised

theorem vfsub_leaves : LeavesElements s k w fr h d t (PairEdge s w t a b fun y => ¬isNeg (fmtOf t) y) (exec (.vfsub h r t d a b) s) :=
  laneOp_elements hi (fun w => fenv w r) (fun f v x y _ => f.sub v x y) (fun w => opA s w a) (fun w => opB s w b) (fun _ _ => 0)
    (.inr fun _ _ => sub_lt (usual_fmtOf t) (readAs_src _ (encAt_lt ..)) (readAs_src _ (encAt_lt ..)))
    fun _ _ _ raised nx ny => sub_edge (usual_fmtOf t) (readAs_src _ (encAt_lt ..)) (readAs_src _ (encAt_lt ..)) nx ny raised

theorem vfmul_leaves :
    LeavesElements s k w fr h d t
      (fun l e o flag =>
        let F := fmtOf t
        let x := encAt t (inA s w a l) e
        let y := encAt t (inB s w b l) e
        ¬isNaN F x → ¬isNaN F y → (ZeroInf (envOf w r) F x y ∨ ZeroInf (envOf w r) F y x → BadOf F o flag) ∧
          (¬(ZeroInf (envOf w r) F x y ∨ ZeroInf (envOf w r) F y x) → isInf F x ∨ isInf F y → InfOf F (¬(isNeg F x ↔ isNeg F y)) o))
      (exec (.vfmul h r t d a b) s) :=
  laneOp_elements hi (fun w => fenv w r) (fun f v x y _ => f.mul v x y) (fun w => opA s w a) (fun w => opB s w b) (fun _ _ => 0)
    (.inr fun _ _ => mul_lt (usual_fmtOf t) (readAs_src _ (encAt_lt ..)) (readAs_src _ (encAt_lt ..)))
    fun _ _ _ raised nx ny =>
      mul_edge (usual_fmtOf t) (encAt_lt ..) (encAt_lt ..) (readAs_src _ (encAt_lt ..)) (readAs_src _ (encAt_lt ..)) nx ny raised

theorem vfma_leaves :
    LeavesElements s k w fr h d t
      (fun l e o flag =>
        let F := fmtOf t
        let x := encAt t (inA s w a l) e
        let y := encAt t (inB s w b l) e
        let z := encAt t (inC s w c l) e
        (ZeroInf (envOf w r) F x y ∨ ZeroInf (envOf w r) F y x → flag 0 ∧ (¬isNaN F z → o = canonicalNaN F)) ∧
          (¬isNaN F x → ¬isNaN F y → ¬isNaN F z → ¬(ZeroInf (envOf w r) F x y ∨ ZeroInf (envOf w r) F y x) →
            SumEdge F (¬(isNeg F x ↔ isNeg F y)) (isNeg F z) (isInf F x ∨ isInf F y) (isInf F z) o flag))
      (exec (.vfma h r t d a b c) s) := by
  refine laneOp_elements hi (fun w => fenv w r) (fun f v x y z => f.fma v x y z) (fun w => opA s w a) (fun w => opB s w b) (fun w => opC s w c)
    (.inr fun _ _ => fma_lt (usual_fmtOf t) (readAs_src _ (encAt_lt ..)) (readAs_src _ (encAt_lt ..)) (readAs_src _ (encAt_lt ..)))
    fun l e flag raised => ⟨fun wrong => ?_, fun nx ny nz valid => ?_⟩
  · obtain ⟨nv, canonical⟩ :=
      fma_wrong (usual_fmtOf t) (encAt_lt ..) (encAt_lt ..) (readAs_src _ (encAt_lt ..)) (readAs_src _ (encAt_lt ..)) wrong raised
    exact ⟨nv, fun number => canonical (Bool.eq_false_iff.2 ((readAs_src _ (encAt_lt ..)).isNan_iff.not.2 number))⟩
  · exact fma_edge (usual_fmtOf t) (encAt_lt ..) (encAt_lt ..) (readAs_src _ (encAt_lt ..)) (readAs_src _ (encAt_lt ..)) (readAs_src _ (encAt_lt ..))
      nx ny nz valid raised

theorem vfdiv_leaves :
    LeavesElements s k w fr h d .f32
      (fun l e o flag => ¬isNaN fp32 (encAt .f32 (inA s w a l) e) → ¬isNaN fp32 (encAt .f32 (inB s w b l) e) →
        DivEdge (envOf w r) fp32 (encAt .f32 (inA s w a l) e) (encAt .f32 (inB s w b l) e) o flag)
      (exec (.vfdiv h r d a b) s) :=
  laneOp_elements hi (fun w => fenv w r) (fun f v x y _ => f.div v x y) (fun w => opA s w a) (fun w => opB s w b) (fun _ _ => 0) (.inl rfl)
    fun _ _ _ raised nx ny => div_edge usual_fp32 (readAs_src _ (encAt_lt ..)) (readAs_src _ (encAt_lt ..)) nx ny raised

theorem vfsqrt_leaves :
    LeavesElements s k w fr h d .f32
      (fun l e o flag =>
        let x := encAt .f32 (inA s w a l) e
        ¬isNaN fp32 x → (isNeg fp32 x → ¬ReadsZero (envOf w r) fp32 x → BadOf fp32 o flag) ∧
          (ReadsZero (envOf w r) fp32 x → ZeroOf fp32 (isNeg fp32 x) o) ∧ (isInf fp32 x → ¬isNeg fp32 x → InfOf fp32 (isNeg fp32 x) o))
      (exec (.vfsqrt h r d a) s) :=
  laneOp_elements hi (fun w => fenv w r) (fun f v x _ _ => f.sqrt v x) (fun w => opA s w a) (fun _ _ => 0) (fun _ _ => 0) (.inl rfl)
    fun _ _ _ raised number => sqrt_edge usual_fp32 (readAs_src _ (encAt_lt ..)) number raised

end

/-- A zero beside an infinity, in the order of R83. -/
theorem zeroInf_pair_iff {v : FEnv} {f : Fmt} {x y : Nat} :
    ZeroInf v f x y ∨ ZeroInf v f y x ↔ (isInf f x ∧ ReadsZero v f y) ∨ (ReadsZero v f x ∧ isInf f y) := by
  unfold ZeroInf ReadsZero
  tauto

/-- R83, R87. -/
theorem floatEdges : Claim.FloatEdges := by
  intro s k w fr hi h r t x d a b c ht v F Is A B C zero signs zeroOf inf bad plus
  refine ⟨?rint, ?add, ?sub, ?mul, ?fma, ?div, ?sqrt⟩
  case rint =>
    obtain ⟨z, w', step, found, edge⟩ := vfrint_leaves hi h r t d a x
    refine ⟨z, w', step, found, fun l e hl he number => ?_⟩
    obtain ⟨infinite, finite⟩ := edge l e hl he number
    refine ⟨fun h' => (infinite h').eq (encAt_lt ..) (encAt_lt ..) h', fun h' => ?_⟩
    obtain ⟨fin, sign, value⟩ := finite h'
    exact ⟨fin, sign, value⟩
  case add =>
    obtain ⟨z, w', step, found, edge⟩ := vfadd_leaves hi h r t d a b
    refine ⟨z, w', step, found, fun l e hl he nx ny => ?_⟩
    obtain ⟨opposite, left, right⟩ := edge l e hl he nx ny
    exact ⟨opposite, fun h' other => (left h' other).eq (encAt_lt ..) (encAt_lt ..) h', right⟩
  case sub =>
    obtain ⟨z, w', step, found, edge⟩ := vfsub_leaves hi h r t d a b
    refine ⟨z, w', step, found, fun l e hl he nx ny => ?_⟩
    obtain ⟨opposite, left, right⟩ := edge l e hl he nx ny
    have same : ¬(isNeg F (A t l e) ↔ ¬isNeg F (B t l e)) ↔ (isNeg F (A t l e) ↔ isNeg F (B t l e)) :=
      not_iff.trans not_iff_not
    exact ⟨fun i i' opp => opposite i i' (same.2 opp),
      fun h' other => (left h' fun both => other ⟨both.1, same.1 both.2⟩).eq (encAt_lt ..) (encAt_lt ..) h', right⟩
  case mul =>
    obtain ⟨z, w', step, found, edge⟩ := vfmul_leaves hi h r t d a b
    refine ⟨z, w', step, found, fun l e hl he nx ny => ?_⟩
    obtain ⟨wrong, valid⟩ := edge l e hl he nx ny
    rw [zeroInf_pair_iff] at wrong valid
    refine ⟨wrong, fun big => valid ?_ (big.imp And.left And.right)⟩
    rintro (⟨infinite, none_⟩ | ⟨none_, infinite⟩)
    · exact big.elim (fun h' => h'.2 none_) fun h' => not_isInf_of_isFin none_.1 h'.2
    · exact big.elim (fun h' => not_isInf_of_isFin none_.1 h'.1) fun h' => h'.1 none_
  case fma =>
    obtain ⟨z, w', step, found, edge⟩ := vfma_leaves hi h r t d a b c
    refine ⟨z, w', step, found, fun l e hl he => ?_⟩
    obtain ⟨wrong, valid⟩ := edge l e hl he
    rw [zeroInf_pair_iff] at wrong valid
    refine ⟨fun _ => wrong, fun number nz right big => ?_, fun number small infinite => ?_⟩
    · obtain ⟨opposite, left, -⟩ := valid number.1 number.2 nz right
      exact ⟨fun infinite opp => opposite big infinite opp, left big⟩
    · have right : ¬((isInf F (A t l e) ∧ zero F (B t l e)) ∨ (zero F (A t l e) ∧ isInf F (B t l e))) := fun h' => small (h'.imp And.left And.right)
      exact ((valid number.1 number.2 (not_isNaN_of_isInf infinite) right).right small infinite).eq (encAt_lt ..) (encAt_lt ..) infinite
  case div =>
    obtain ⟨z, w', step, found, edge⟩ := vfdiv_leaves hi h r d a b
    refine ⟨z, w', step, found, fun l e hl he nx ny => ?_⟩
    obtain ⟨invalid, large, small, byZero⟩ := edge l e hl he nx ny
    exact ⟨invalid, large, small, byZero⟩
  case sqrt =>
    obtain ⟨z, w', step, found, edge⟩ := vfsqrt_leaves hi h r d a
    refine ⟨z, w', step, found, fun l e hl he number => ?_⟩
    obtain ⟨minus, none_, plus⟩ := edge l e hl he number
    exact ⟨minus, none_, fun h' pos => (plus h' pos).eq (encAt_lt ..) (encAt_lt ..) h'⟩

end Sys2Proof.Machine
end

section
/-! PROOFS. The tree of VRED.add of f32 (R122), and O24. -/

namespace Sys2Proof.Machine

open Sys2Proof.Claim

/-! ### The tree -/

/-- What two positions of a tree give the one above them. -/
def joined (f : Word → Word → Word) : Option Word → Option Word → Option Word
  | some x, some y => some (f x y)
  | some x, none => some x
  | none, y => y

theorem rootOf_succ (f : Word → Word → Word) (n : Nat) (g : Nat → Option Word) :
    rootOf f (n + 1) g = rootOf f n fun i => joined f (g (2 * i)) (g (2 * i + 1)) := rfl

theorem joined_isSome {f : Word → Word → Word} {x y : Option Word} (h : x.isSome = true ∨ y.isSome = true) : (joined f x y).isSome = true := by
  cases x <;> cases y <;> simp_all [joined]

/-- A tree with a value at some position has a root. -/
theorem rootOf_isSome (f : Word → Word → Word) {n : Nat} {g : Nat → Option Word} {j : Nat} (lt : j < 2 ^ n) (held : (g j).isSome = true) :
    (rootOf f n g).isSome = true := by
  induction n generalizing g j with
  | zero =>
    obtain rfl : j = 0 := by simpa using lt
    exact held
  | succ n ih =>
    rw [rootOf_succ]
    refine ih (j := j / 2) (by rw [pow_succ] at lt; omega) (joined_isSome ?_)
    rcases Nat.mod_two_eq_zero_or_one j with even | odd
    · exact .inl (by rwa [show 2 * (j / 2) = j by omega])
    · exact .inr (by rwa [show 2 * (j / 2) + 1 = j by omega])

section
variable (c : Word → Word → Word × Word)

theorem treeLevel_cons_cons (x y : Option Word) (r : List (Option Word)) :
    (treeLevel c (x :: y :: r)).1 = joined (fun x y => (c x y).1) x y :: (treeLevel c r).1 := by
  cases x <;> cases y <;> rfl

/-- One level takes the positions in pairs. -/
theorem treeLevel_range (m : Nat) (g : Nat → Option Word) :
    (treeLevel c ((List.range (2 * m)).map g)).1 = (List.range m).map fun i => joined (fun x y => (c x y).1) (g (2 * i)) (g (2 * i + 1)) := by
  induction m generalizing g with
  | zero => rfl
  | succ m ih =>
    have shape : (List.range (2 * (m + 1))).map g = g 0 :: g 1 :: (List.range (2 * m)).map fun i => g (i + 2) := by
      rw [Nat.mul_succ, List.range_succ_eq_map, List.range_succ_eq_map]
      simp [Function.comp_def]
    rw [shape, treeLevel_cons_cons, ih, List.range_succ_eq_map]
    simp [Function.comp_def, Nat.mul_succ]

/-- A single position stays. -/
theorem treeFold_singleton (k : Nat) (x : Option Word) (fl : Word) : (treeFold c k [x] fl).1 = x := by
  induction k generalizing fl with
  | zero => rfl
  | succ k ih => exact ih _

/-- R122: the model's levels give the root of the tree. -/
theorem treeFold_range {n k : Nat} (le : n ≤ k) (g : Nat → Option Word) (fl : Word) :
    (treeFold c k ((List.range (2 ^ n)).map g) fl).1 = rootOf (fun x y => (c x y).1) n g := by
  induction n generalizing k g fl with
  | zero => exact treeFold_singleton c k (g 0) fl
  | succ n ih =>
    obtain ⟨k, rfl⟩ := Nat.exists_eq_add_of_le' (Nat.succ_le_of_lt (Nat.lt_of_lt_of_le n.succ_pos le))
    rw [rootOf_succ, treeFold, pow_succ', treeLevel_range, ih (by omega)]

end

/-! ### The tile (R118, R122) -/

theorem tileLength_eq {w : Wave} (parts : w.lpart ≤ 5) : 32 / 2 ^ w.lpart = 2 ^ (5 - w.lpart) := Nat.pow_div (m := 5) parts two_pos

/-- A lane of a mask among those of its tile. -/
theorem contains_tileQ {z : Nat} (m : Word) (l : Nat) {j : Nat} (hj : j < z) : (tileQ z m l).contains (l / z * z + j) = m.getLsbD (l / z * z + j) := by
  have pos : 0 < z := Nat.zero_lt_of_lt hj
  have here : (l / z * z + j) / z = l / z := by rw [Nat.add_comm, Nat.add_mul_div_right _ _ pos, Nat.div_eq_of_lt hj, Nat.zero_add]
  have same : tileBase z (l / z * z + j) = tileBase z l := by rw [tileBase_eq, tileBase_eq, here]
  rw [Bool.eq_iff_iff, List.contains_iff_mem, tileQ, List.mem_filter, mem_lanesOf, decide_eq_true same, and_iff_left rfl]
  exact and_iff_right_of_imp BitVec.lt_of_getLsbD

/-- The positions of a tile, held where the lane is of the mask. -/
def heldAt (m : Word) (base : Nat) (x : Nat → Word) (j : Nat) : Option Word := if m.getLsbD (base + j) = true then some (x (base + j)) else none

/-- The sum of two values, rounded to FP32. -/
def treeSum (v : FEnv) (x y : Word) : Word := BitVec.ofNat 32 (fp32.add v (srcAt v .f32 x 0) (srcAt v .f32 y 0)).1

theorem combine_add (v : FEnv) : (fun x y => (combine v .f32 .add x y).1) = treeSum v := by
  have read (x : Word) : srcAt v .f32 x 0 = v.src fp32 x.toNat := by
    have whole : encAt .f32 x 0 = x.toNat := by
      rw [encAt, BitVec.extractLsb'_toNat]
      exact Nat.mod_eq_of_lt x.isLt
    rw [srcAt, whole]
    rfl
  funext x y
  rw [treeSum, read, read]
  rfl

/-- R122: the reduction of a tile is the root of the tree. -/
theorem some_redTile_add (v : FEnv) {n : Nat} (le : n ≤ 5) (m : Word) {l : Nat} (selected : m.getLsbD l = true) (x : Nat → Word) :
    some (redTile v .f32 .add (2 ^ n) (tileBase (2 ^ n) l) (tileQ (2 ^ n) m l) x).1 = rootOf (treeSum v) n (heldAt m (l / 2 ^ n * 2 ^ n) x) := by
  have leaves : ((List.range (2 ^ n)).map fun j => if (tileQ (2 ^ n) m l).contains (tileBase (2 ^ n) l + j) then some (x (tileBase (2 ^ n) l + j)) else none) =
      (List.range (2 ^ n)).map (heldAt m (l / 2 ^ n * 2 ^ n) x) :=
    List.map_congr_left fun j hj => by rw [tileBase_eq, contains_tileQ m l (List.mem_range.1 hj)]; rfl
  have root := treeFold_range (combine v .f32 .add) le (heldAt m (l / 2 ^ n * 2 ^ n) x) 0
  rw [← leaves, combine_add] at root
  have own : l / 2 ^ n * 2 ^ n + l % 2 ^ n = l := Nat.div_add_mod' l (2 ^ n)
  have held : (heldAt m (l / 2 ^ n * 2 ^ n) x (l % 2 ^ n)).isSome = true := by
    rw [heldAt, own, if_pos selected]
    rfl
  obtain ⟨y, hy⟩ := Option.isSome_iff_exists.1 (rootOf_isSome (treeSum v) (Nat.mod_lt l (Nat.two_pow_pos n)) held)
  have step : (redTile v .f32 .add (2 ^ n) (tileBase (2 ^ n) l) (tileQ (2 ^ n) m l) x).1 = (some y).getD 0 := by
    rw [← hy, ← root]
    rfl
  rw [step, hy]
  rfl

/-- R122. -/
theorem reduceTree : Claim.ReduceTree := by
  intro s k w fr hi parts h d a v z sum
  obtain ⟨actor, wave, frag⟩ := hi
  refine ⟨_, _, onFrag_next actor wave frag _, kfind_kinsert_self _ _ _, fun l hl => ?_⟩
  refine Eq.trans (congrArg some ((vraw_raise _ _ _ _ _).trans (((vraw_wrV_sel s w w fr h.g d _ _ hl.1).1 hl).trans (if_pos rfl)))) ?_
  have length : tileSize w = 2 ^ (5 - w.lpart) := (tileSize_eq w).trans (tileLength_eq parts)
  have length' : z = 2 ^ (5 - w.lpart) := tileLength_eq parts
  rw [length, length']
  exact some_redTile_add v (Nat.sub_le 5 _) _ ((getLsbD_sel_picked ..).2 hl) fun l => opA s w a l

/-- Settles O24: conversions round the number that Src reads, the edges of floating arithmetic are case by case those of IEEE 754, and
the levels of VRED's tree give its root. -/
theorem conversions : Obligations.Conversions := ⟨convertValues, floatEdges, reduceTree⟩

end Sys2Proof.Machine
end
